-- ==== Sys2Proof/Word.lean ====
section
/-! DEFINITION. Word types and the plainest bit operations of the manual's notation (R3, R6). -/

namespace Sys2Proof

/-- A byte of memory. -/
abbrev Byte := BitVec 8
/-- A scalar register (R47). -/
abbrev Word := BitVec 64
/-- A tile register: 512 bytes (R52). -/
abbrev Tile := BitVec 4096
/-- A mask register (R47). -/
abbrev MaskReg := BitVec 1024
/-- A shape register (R55). -/
abbrev ShapeReg := BitVec 128
/-- A sparse table: entries at strictly rising keys, none equal to the table's default entry. -/
abbrev Tbl (α : Type) := List (Nat × α)

/-- `Bits(v, hi, lo)` of R6 on a natural number. -/
def bits (v hi lo : Nat) : Nat := (v >>> lo) % 2 ^ (hi + 1 - lo)

/-- Bit `i` of `v`. -/
def bit (v i : Nat) : Bool := v.testBit i

/-- A `w`-bit pattern read as two's complement. -/
def toSigned (w v : Nat) : Int := if v % 2 ^ w < 2 ^ (w - 1) then (v % 2 ^ w : Nat) else (v % 2 ^ w : Nat) - (2 ^ w : Nat)

/-- An exact integer reduced modulo `2 ^ w`. -/
def wrapInt (w : Nat) (v : Int) : Nat := (v % (2 ^ w : Nat)).toNat

end Sys2Proof
end

