-- ==== Sys2Proof/Syntax.lean ====
section
/-! DEFINITION. The syllable instructions and events of the part, one constructor per row of the opcode table
(04_encoding_assembly.md, 95_what_each_step_holds.md). -/

namespace Sys2Proof

/-- The six syllable slots of a bundle (R95). -/
inductive Slot | c | sa | sb | va | vb | e
  deriving DecidableEq, Repr

/-- The slot's number, as FAULTPT.SLOT reports it (R62, R95). -/
def Slot.num : Slot → Nat | .c => 0 | .sa => 1 | .sb => 2 | .va => 3 | .vb => 4 | .e => 5

/-- The two slots of class S (R95). -/
inductive SPos | sa | sb
  deriving DecidableEq, Repr

/-- The two clusters, which are also the two slots of class V (R95, R120). -/
inductive Cl | a | b
  deriving DecidableEq, Repr

def SPos.slot : SPos → Slot | .sa => .sa | .sb => .sb
def Cl.slot : Cl → Slot | .a => .va | .b => .vb

/-- Format FR (R96, R98). `d a b c` are 7-bit specifiers (R49), `ty ty2` format codes (R73). -/
structure FR where
  v : Bool
  lat : BitVec 4
  sh : BitVec 3
  msk : BitVec 3
  d : BitVec 7
  a : BitVec 7
  b : BitVec 7
  c : BitVec 7
  ty : BitVec 5
  ty2 : BitVec 5
  sat : Bool
  pair : Bool
  xmod : BitVec 4
  deriving DecidableEq, Repr

/-- Format FI (R98). -/
structure FI where
  v : Bool
  lat : BitVec 4
  sh : BitVec 3
  msk : BitVec 3
  d : BitVec 7
  a : BitVec 7
  ty : BitVec 5
  f : Bool
  sat : Bool
  imm : BitVec 23
  deriving DecidableEq, Repr

/-- Format FM (R98); bits [3:0] are zero. -/
structure FM where
  v : Bool
  lat : BitVec 4
  sh : BitVec 3
  msk : BitVec 3
  d : BitVec 7
  a : BitVec 7
  b : BitVec 7
  disp : BitVec 14
  ty : BitVec 5
  deriving DecidableEq, Repr

/-- Format FE (R98, R101). -/
structure FE where
  v : Bool
  lat : BitVec 4
  sh : BitVec 3
  msk : BitVec 3
  d : BitVec 7
  a : BitVec 7
  b : BitVec 7
  tko : BitVec 5
  tka : BitVec 5
  tkb : BitVec 5
  tkc : BitVec 5
  ntk : BitVec 3
  deriving DecidableEq, Repr

/-- Format FB (R98); bits [29:27] are zero. -/
structure FB where
  v : Bool
  lat : BitVec 4
  sh : BitVec 3
  msk : BitVec 3
  d : BitVec 7
  a : BitVec 7
  cond : BitVec 4
  off : BitVec 23
  deriving DecidableEq, Repr

/-- Format FX (R98). -/
structure FX where
  v : Bool
  lat : BitVec 4
  sh : BitVec 3
  msk : BitVec 3
  d : BitVec 7
  a : BitVec 7
  b : BitVec 7
  imm : BitVec 23
  deriving DecidableEq, Repr

/-- A unit that can meet an engine fault: a quad's copy engine, or a context's stream slot (R272). -/
inductive EngineUnit | copy (q : Nat) | stream (g n : Nat)
  deriving DecidableEq, Repr

/-- Where a fabric message goes: a virtual address of one of this package's functions (R467), or a physical
PEER or KITTY address that another package or a switch holds. -/
inductive Dest | here (vf : Nat) (va : Word) | away (pa : Nat)
  deriving DecidableEq, Repr

/-- One written byte of a message: offset, value, and the bits written (0xFF, or one nibble; R432). -/
structure Cell where
  off : Nat
  val : Byte
  en : Byte
  deriving DecidableEq, Repr

/-- FWRITE (R432): data, then the flag increment that travels with it, with the bytes its whole instruction wrote (R392).
Here and below `port` is the UALink port whose arrival queue the message passes (R345). -/
structure WriteMsg where
  dest : Dest
  cells : List Cell
  flag : Option Dest
  bytes : Nat
  port : Nat := 0
  deriving DecidableEq, Repr

/-- FLAGINC and TRIGARR (R432, R392): the flag's physical address and the bytes its instruction wrote. -/
structure FlagMsg where
  pa : Nat
  bytes : Nat
  port : Nat := 0
  deriving DecidableEq, Repr

/-- POOLREQ (R432): a request of command `n` of remote engine `c`. -/
structure PoolReq where
  c : Nat
  n : Nat
  deriving DecidableEq, Repr

/-- POOLRSP (R432): status and the pool-map entry of the answered request. With `n = 0` it answers none: it is the release
of R243, for function `c`. -/
structure PoolRsp where
  c : Nat
  n : Nat
  status : BitVec 8
  num : BitVec 12
  entry : BitVec 128
  port : Nat := 0
  deriving DecidableEq, Repr

/-- TOKREQ, TOKGRANT and TOKRECALL (R432): region number (physical address over 2 MiB) and package. -/
structure TokMsg where
  region : Nat
  pkg : Nat
  port : Nat := 0
  deriving DecidableEq, Repr

/-- LOSS (R432): the allocations of a tenant's home switch that became LOST or DEGRADED. -/
structure LossMsg where
  switch : Nat
  tenant : Nat
  nums : List Nat
  port : Nat := 0
  deriving DecidableEq, Repr

/-- LINEADD (R432): element width, operation (`none` integer, else the format code), positions and values. -/
structure LineMsg where
  dest : Dest
  ew : Nat
  fmt : Option (BitVec 5)
  elems : List (Nat × Nat)
  port : Nat := 0
  deriving DecidableEq, Repr

/-- A standard UALink request that arrives here (R432): read of `n` bytes, write, or atomic. -/
structure LinkReq where
  vf : Nat
  va : Word
  n : Nat
  data : List Byte
  op : BitVec 3
  operand : Word
  compare : Word
  port : Nat := 0
  deriving DecidableEq, Repr

/-- A response to command `n` of remote engine `c`, or (`c ≥ 768`) of copy engine `c - 768` (R345). `failed`: the receiving package
could not translate the request, or its partition check refused it (R467). -/
structure LinkRsp where
  c : Nat
  n : Nat
  failed : Bool := false
  port : Nat := 0
  deriving DecidableEq, Repr

/-- A place that the host reaches through a BAR0 (R340, R426, R427): `via` is the virtual function whose window it is, none for the
physical function's; `at'` an offset of the window, a slot of it, or the address of a descriptor. -/
structure HostRef where
  via : Option Nat
  at' : Nat
  deriving DecidableEq, Repr

/-- One entry read from a Dealer queue (R339): queue, entry number, IRQ, operands, reserved bits clear. -/
structure QueueCmd where
  q : Nat
  ix : Nat
  irq : Bool
  opa : Word
  opb : Word
  clean : Bool
  deriving DecidableEq, Repr

/-- One constructor per row of the opcode table: the syllable instructions, then the events. -/
inductive Instr
  | nop (k : Slot)
  | br (o : FB)
  | bc (o : FB)
  | call (o : FB)
  | ret (o : FB)
  | loop (o : FB)
  | jt (o : FB)
  | bsel (o : FB)
  | halt (o : FX)
  | trap (o : FX)
  | sysc (o : FX)
  | rdcr (o : FR)
  | wrcr (o : FR)
  | rdid (o : FR)
  | rdtick (o : FR)
  | rdgov (o : FR)
  | rdctr (o : FR)
  | fence (o : FX)
  | mod (o : FX)
  | bar (o : FX)
  | flagwait (o : FX)
  | evwait (o : FX)
  | bcwait (o : FX)
  | tkwait (o : FX)
  | tkset (o : FX)
  | stacq (o : FR)
  | strel (o : FR)
  | clease (o : FR)
  | crel (o : FR)
  | evpop (o : FR)
  | evpeek (o : FR)
  | add (p : SPos) (o : FR)
  | addI (p : SPos) (o : FI)
  | sub (p : SPos) (o : FR)
  | subI (p : SPos) (o : FI)
  | and (p : SPos) (o : FR)
  | andI (p : SPos) (o : FI)
  | or (p : SPos) (o : FR)
  | orI (p : SPos) (o : FI)
  | xor (p : SPos) (o : FR)
  | xorI (p : SPos) (o : FI)
  | andn (p : SPos) (o : FR)
  | andnI (p : SPos) (o : FI)
  | min (p : SPos) (o : FR)
  | minI (p : SPos) (o : FI)
  | max (p : SPos) (o : FR)
  | maxI (p : SPos) (o : FI)
  | minu (p : SPos) (o : FR)
  | minuI (p : SPos) (o : FI)
  | maxu (p : SPos) (o : FR)
  | maxuI (p : SPos) (o : FI)
  | shl (p : SPos) (o : FR)
  | shlI (p : SPos) (o : FI)
  | shr (p : SPos) (o : FR)
  | shrI (p : SPos) (o : FI)
  | sar (p : SPos) (o : FR)
  | sarI (p : SPos) (o : FI)
  | rol (p : SPos) (o : FR)
  | rolI (p : SPos) (o : FI)
  | ror (p : SPos) (o : FR)
  | rorI (p : SPos) (o : FI)
  | mul (p : SPos) (o : FR)
  | mulI (p : SPos) (o : FI)
  | mulh (p : SPos) (o : FR)
  | mulhu (p : SPos) (o : FR)
  | div (p : SPos) (o : FR)
  | divu (p : SPos) (o : FR)
  | rem (p : SPos) (o : FR)
  | remu (p : SPos) (o : FR)
  | madd (p : SPos) (o : FR)
  | maddI (p : SPos) (o : FI)
  | clz (p : SPos) (o : FR)
  | ctz (p : SPos) (o : FR)
  | popc (p : SPos) (o : FR)
  | bswap (p : SPos) (o : FR)
  | mov (p : SPos) (o : FR)
  | movx (p : SPos) (o : FR)
  | ext (p : SPos) (o : FI)
  | ins (p : SPos) (o : FI)
  | cmp (p : SPos) (o : FR)
  | cmpI (p : SPos) (o : FI)
  | sel (p : SPos) (o : FR)
  | li (p : SPos) (o : FI)
  | lih (p : SPos) (o : FI)
  | fadd (p : SPos) (o : FR)
  | faddI (p : SPos) (o : FI)
  | fsub (p : SPos) (o : FR)
  | fsubI (p : SPos) (o : FI)
  | fmul (p : SPos) (o : FR)
  | fmulI (p : SPos) (o : FI)
  | ffma (p : SPos) (o : FR)
  | fmin (p : SPos) (o : FR)
  | fminI (p : SPos) (o : FI)
  | fmax (p : SPos) (o : FR)
  | fmaxI (p : SPos) (o : FI)
  | fcmp (p : SPos) (o : FR)
  | fcmpI (p : SPos) (o : FI)
  | fcvt (p : SPos) (o : FR)
  | fabs (p : SPos) (o : FR)
  | fneg (p : SPos) (o : FR)
  | vadd (p : Cl) (o : FR)
  | vaddI (p : Cl) (o : FI)
  | vsub (p : Cl) (o : FR)
  | vsubI (p : Cl) (o : FI)
  | vmul (p : Cl) (o : FR)
  | vmulI (p : Cl) (o : FI)
  | vfma (p : Cl) (o : FR)
  | vmadd (p : Cl) (o : FR)
  | vmin (p : Cl) (o : FR)
  | vminI (p : Cl) (o : FI)
  | vmax (p : Cl) (o : FR)
  | vmaxI (p : Cl) (o : FI)
  | vdot4 (p : Cl) (o : FR)
  | vabs (p : Cl) (o : FR)
  | vneg (p : Cl) (o : FR)
  | vand (p : Cl) (o : FR)
  | vandI (p : Cl) (o : FI)
  | vor (p : Cl) (o : FR)
  | vorI (p : Cl) (o : FI)
  | vxor (p : Cl) (o : FR)
  | vxorI (p : Cl) (o : FI)
  | vnot (p : Cl) (o : FR)
  | vsel (p : Cl) (o : FR)
  | vcmp (p : Cl) (o : FR)
  | vcmpI (p : Cl) (o : FI)
  | vshl (p : Cl) (o : FR)
  | vshlI (p : Cl) (o : FI)
  | vshr (p : Cl) (o : FR)
  | vshrI (p : Cl) (o : FI)
  | vsar (p : Cl) (o : FR)
  | vsarI (p : Cl) (o : FI)
  | vclmul (p : Cl) (o : FR)
  | vpopc (p : Cl) (o : FR)
  | vclz (p : Cl) (o : FR)
  | vcvt (p : Cl) (o : FR)
  | vwid (p : Cl) (o : FR)
  | vnar (p : Cl) (o : FR)
  | vsat (p : Cl) (o : FR)
  | vrnd (p : Cl) (o : FR)
  | vcbdec (p : Cl) (o : FR)
  | vscale (p : Cl) (o : FR)
  | vrcp (p : Cl) (o : FR)
  | vrsq (p : Cl) (o : FR)
  | vsqrt (p : Cl) (o : FR)
  | vexp2 (p : Cl) (o : FR)
  | vlog2 (p : Cl) (o : FR)
  | vtanh (p : Cl) (o : FR)
  | vsig (p : Cl) (o : FR)
  | vredsum (p : Cl) (o : FR)
  | vredmax (p : Cl) (o : FR)
  | vredmin (p : Cl) (o : FR)
  | vperm (p : Cl) (o : FR)
  | vshuf (p : Cl) (o : FR)
  | vbcast (p : Cl) (o : FR)
  | vext (p : Cl) (o : FR)
  | vtrn (p : Cl) (o : FR)
  | xcp (p : Cl) (o : FR)
  | vandM (p : Cl) (o : FR)
  | vorM (p : Cl) (o : FR)
  | vxorM (p : Cl) (o : FR)
  | vnotM (p : Cl) (o : FR)
  | ldS (o : FM)
  | ldT (o : FM)
  | stS (o : FM)
  | stT (o : FM)
  | ldx (o : FE)
  | stx (o : FE)
  | stxAdd (o : FE)
  | dcopy (o : FE)
  | dcopyCsum (o : FE)
  | rst (o : FE)
  | rld (o : FE)
  | amoAdd (o : FE)
  | amoAnd (o : FE)
  | amoOr (o : FE)
  | amoXor (o : FE)
  | amoMin (o : FE)
  | amoMax (o : FE)
  | amoSwap (o : FE)
  | amoCas (o : FE)
  | redAdd (o : FE)
  | redAnd (o : FE)
  | redOr (o : FE)
  | redXor (o : FE)
  | redMin (o : FE)
  | redMax (o : FE)
  | redFadd (o : FE)
  | kalloc (o : FE)
  | kallocM (o : FE)
  | kfree (o : FE)
  | kquery (o : FE)
  | tacq (o : FE)
  | trel (o : FE)
  | sbind (o : FE)
  | sunbind (o : FE)
  | sstat (o : FE)
  | cspush (o : FE)
  | cspop (o : FE)
  | cmm (o : FE)
  | cmmz (o : FE)
  | cconv (o : FE)
  | cplane (o : FE)
  | csmeta (o : FE)
  | cfill (o : FE)
  | cswap (o : FE)
  | crdacc (o : FE)
  | cwracc (o : FE)
  | cdrain (o : FE)
  | ckat (o : FE)
  | cseq (o : FE)
  | cstat (o : FE)
  | cbist (o : FE)
  | trigArm (o : FE)
  | trigCancel (o : FE)
  | bcarm (o : FE)
  | registerResultLanding (g : Nat)
  | codeIndexRefill (c : Nat) (window : Nat)
  | haltComplete (g : Nat)
  | copyEngineDispatch (q : Nat)
  | engineTranslationFault (u : EngineUnit)
  | copyCommandEnd (q : Nat)
  | remoteEngineDispatch (c : Nat)
  | remoteCommandEnd (c : Nat) (n : Nat)
  | cspushAccept (c : Nat)
  | cspopDelivery (q : Nat) (b : Nat)
  | streamTileFetch (g : Nat) (n : Nat)
  | streamTileLand (g : Nat) (n : Nat)
  | streamTileTake (g : Nat) (n : Nat)
  | streamEnd (g : Nat) (n : Nat)
  | writeQueueApply (n : Nat)
  | cubeCommandDispatch (q : Nat)
  | planeLayerStart (q : Nat) (l : Nat)
  | planeLayerEnd (q : Nat) (l : Nat)
  | cubeCommandEnd (q : Nat) (n : Nat)
  | cubeCommandStop (g : Nat)
  | cubeRecovery (q : Nat) (l : Nat) (face : Nat)
  | cubeReadEnd (q : Nat) (n : Nat)
  | sequencerTransition (q : Nat) (l : Nat)
  | leaseGrant (q : Nat)
  | leaseRunEnd (q : Nat)
  | stacqGrant (t : Nat) (n : Nat)
  | barrierCompletion (n : Nat)
  | plannedCompletionDeadline (n : Nat)
  | commStepEnd (l : Nat)
  | engineArmTick (u : Nat)
  | governorSample (q : Nat) (l : Nat) (temps : List Int)
  | governorStepChange (q : Nat)
  | droopStart
  | droopEnd
  | scrub (u : Nat) (bad : List Nat)
  | kittySwitchLoss (w : Nat)
  | peerTimeout (p : Nat)
  | fwrite (m : WriteMsg)
  | flaginc (m : FlagMsg)
  | poolreq (m : PoolReq)
  | poolrsp (m : PoolRsp)
  | tokreq (m : TokMsg)
  | tokgrant (m : TokMsg)
  | tokrecall (m : TokMsg)
  | loss (m : LossMsg)
  | trigarr (m : FlagMsg)
  | lineadd (m : LineMsg)
  | ualinkRead (m : LinkReq)
  | ualinkWrite (m : LinkReq)
  | ualinkAtomic (m : LinkReq)
  | ualinkResponse (m : LinkRsp)
  | unsupportedVendorMessage (port : Nat) (vf : Nat)
  | launch (c : QueueCmd)
  | nopCmd (c : QueueCmd)
  | phaseArm (l : Nat)
  | imageLoad (c : Nat)
  | launchRetire (l : Nat)
  | dealerPoll
  | syscRequest
  | faultRecord
  | preemption (g : Nat)
  | saveFrameWrite (g : Nat)
  | contextRestore (g : Nat) (g2 : Nat)
  | mapq (c : QueueCmd)
  | unmapq (c : QueueCmd)
  | partwrite (c : QueueCmd)
  | rangeload (c : QueueCmd)
  | walkinv (c : QueueCmd)
  | preempt (c : QueueCmd)
  | resume (c : QueueCmd)
  | kill (c : QueueCmd)
  | reexec (c : QueueCmd)
  | flr (c : QueueCmd)
  | quota (c : QueueCmd)
  | bist (c : QueueCmd)
  | attest (c : QueueCmd)
  | keyprov (c : QueueCmd)
  | service (c : QueueCmd)
  | checkpoint (c : QueueCmd)
  | restore (c : QueueCmd)
  | svcreg (c : QueueCmd)
  | svcreply (c : QueueCmd)
  | doorbell (desc : HostRef) (tail : BitVec 32)
  | droopcfgWrite (w : BitVec 64)
  | govcfgWrite (t : Nat) (w : BitVec 64)
  | vmarginWrite (r : Nat) (w : BitVec 64)
  | lmarginStart (p : Nat) (w : BitVec 64)
  | eyeMeasurementEnd (p : Nat) (errors : BitVec 32)
  | counterClear (n : Nat) (u : Nat) (i : Nat)
  | zeroiseWrite (on : Bool)
  | registerWrite (off : HostRef) (w : BitVec 64)
  | tamper
  | glitch
  | fwsig
  | mgmt
  | powerOnReset
  | leaseChange (q : Nat)
  | pcieFailure
  | hbmApertureWrite (off : Nat) (data : List (BitVec 8))
  deriving DecidableEq, Repr

end Sys2Proof
end

