-- ==== Sys2Proof/WellFormed.lean ====
section
/-! DEFINITION. What the loader checks of a syllable and of a bundle (R96-R103, R114, R117-R122, R130, R159),
and the ranges of an event's arguments. -/

namespace Sys2Proof

/-- The reasons of R114, 1 to 9. -/
inductive Reason | badOp | badField | badLat | badReg | badType | badPair | badPrefixUse | badStream | badImage
  deriving DecidableEq, Repr

def Reason.num : Reason → Nat
  | .badOp => 1 | .badField => 2 | .badLat => 3 | .badReg => 4 | .badType => 5
  | .badPair => 6 | .badPrefixUse => 7 | .badStream => 8 | .badImage => 9

/-- The lowest-numbered reason among several. -/
def Reason.first : List (Option Reason) → Option Reason
  | [] => none
  | none :: rest => Reason.first rest
  | some r :: rest =>
    match Reason.first rest with
    | none => some r
    | some q => if q.num < r.num then some q else some r

/-! ### Format codes (R73) -/

/-- Width in bits of a format code; 0 for a reserved code. -/
def fmtWidth (t : BitVec 5) : Nat :=
  match t.toNat with
  | 0 | 1 | 10 | 11 => 4
  | 2 | 3 | 12 | 13 => 8
  | 4 | 5 | 14 | 15 => 16
  | 6 | 7 | 16 => 32
  | 8 | 9 => 64
  | _ => 0

/-- FP32, FP16, BF16, E5M2, E4M3, E2M1. -/
def isFloat (t : BitVec 5) : Bool := t = 0x10 || t = 0x0E || t = 0x0F || t = 0x0D || t = 0x0C || t = 0x0A
def isCB4 (t : BitVec 5) : Bool := t = 0x0B
def isIntFmt (t : BitVec 5) : Bool := decide (t.toNat < 10)
/-- INTn: the even integer codes. -/
def isSignedFmt (t : BitVec 5) : Bool := isIntFmt t && t.toNat % 2 = 0

/-! ### Accepted types (R130, R139, R140, R159, R163, R171-R173, R178) -/

def noTy (t u : BitVec 5) : Bool := t = 0 && u = 0
def one (p : BitVec 5 → Bool) (t u : BitVec 5) : Bool := p t && u = 0
def tyInt := one fun t => decide (2 ≤ t.toNat ∧ t.toNat ≤ 9)
def tySigned := one fun t => decide (2 ≤ t.toNat ∧ t.toNat ≤ 9) && isSignedFmt t
def tyUnsigned := one fun t => decide (2 ≤ t.toNat ∧ t.toNat ≤ 9) && !isSignedFmt t
def tyWide := one fun t => decide (4 ≤ t.toNat ∧ t.toNat ≤ 9)
def ty64 := one fun t => t = 8 || t = 9
def tyI64 := one fun t => t = 8
def tyF32 := one fun t => t = 0x10
def isFp (t : BitVec 5) : Bool := t = 0x10 || t = 0x0E || t = 0x0F
def isTileInt (t : BitVec 5) : Bool := decide (2 ≤ t.toNat ∧ t.toNat ≤ 7)
def isInt4Plus (t : BitVec 5) : Bool := decide (t.toNat ≤ 7)
def tyFp := one isFp
def tyTileInt := one isTileInt
def tyIntFp := one fun t => isTileInt t || isFp t
def tyInt4 := one isInt4Plus
def tyInt4Fp := one fun t => isInt4Plus t || isFp t
def tyClmul := one fun t => t = 3 || t = 5 || t = 7
/-- `fcvt` (R140). -/
def tyFcvt (t u : BitVec 5) : Bool :=
  let ok := fun x : BitVec 5 => isFloat x || decide (2 ≤ x.toNat ∧ x.toNat ≤ 9)
  ok t && ok u && (isFloat t || isFloat u)
/-- A float source that the float target holds exactly (the X and = cells of R87). -/
def fitsExactly (t u : BitVec 5) : Bool :=
  t = u || t = 0x10 || (t = 0x0F && (u = 0x0D || u = 0x0C || u = 0x0A)) ||
  (t = 0x0E && (u = 0x0D || u = 0x0C || u = 0x0A)) || (t = 0x0D && u = 0x0A)
/-- Where `.sat` has a meaning (R140, R171). -/
def satMeans (t u : BitVec 5) : Bool :=
  !(isFloat u && (t = 0x10 || t = 0x0F || t = 0x0E || t = 0x0D) && fitsExactly t u)
def ratioOk (t u : BitVec 5) : Bool := decide (fmtWidth t < 8 * fmtWidth u) && decide (fmtWidth u < 8 * fmtWidth t)
/-- `vcvt` (R171). -/
def tyVcvt (t u : BitVec 5) : Bool :=
  let ok := fun x : BitVec 5 => isFloat x || isInt4Plus x
  ok t && ok u && (isFloat t || isFloat u) && ratioOk t u
def tyVwid (t u : BitVec 5) : Bool :=
  isInt4Plus t && isInt4Plus u && (fmtWidth t = 2 * fmtWidth u || fmtWidth t = 4 * fmtWidth u)
def tyVnar (t u : BitVec 5) : Bool := tyVwid u t
def tyDot4 (t u : BitVec 5) : Bool :=
  (t = 6 && u = 2) || (t = 7 && u = 3) || (t = 4 && u = 0) || (t = 5 && u = 1)
def tyVsat (t u : BitVec 5) : Bool :=
  ((isInt4Plus t && isInt4Plus u) || (isFloat t && isFloat u)) && decide (fmtWidth u ≤ fmtWidth t)
def tyVcbdec (t u : BitVec 5) : Bool := t = 0x0F && u = 0x0B
def tyVscale (t u : BitVec 5) : Bool := (t = 0x0F || t = 0x10) && u = 0x0F
def tyVredsum (t u : BitVec 5) : Bool :=
  (t = 0x10 && isFp u) || (isFp t && t = u) ||
  ((t = 6 || t = 7) && isTileInt u && isSignedFmt t = isSignedFmt u) || (isTileInt t && t = u)
def tyVredmax (t u : BitVec 5) : Bool := (isTileInt t || isFp t) && t = u
def tyLdS := one fun t => decide (2 ≤ t.toNat ∧ t.toNat ≤ 16) && fmtWidth t ≠ 4
def tyTile := one fun t => decide (t.toNat ≤ 16) && fmtWidth t ≠ 64

/-! ### Field checks -/

/-- The file a specifier names; `z` an unused field, `raw` a field that is no specifier. -/
inductive Fil | z | s | x | v | m | tk | sh | raw
  deriving DecidableEq, Repr

/-- F of R49. -/
def Fil.size : Fil → Nat | .s | .v => 64 | .tk => 32 | .x | .m | .sh => 8 | .z | .raw => 0

/-- How SH and MK are used: not at all, both (MK the mask), the cluster bit alone, SH and the cluster bit, SH alone (R102, R207). -/
inductive ShMk | none | tile | cl | shCl | sh
  deriving DecidableEq, Repr

/-- What one row accepts, beyond the zero fields. -/
structure Rule where
  d : Fil := .z
  a : Fil := .z
  b : Fil := .z
  c : Fil := .z
  shmk : ShMk := .none
  ty : BitVec 5 → BitVec 5 → Bool := noTy
  v : BitVec 5 → Bool := fun _ => false
  sat : BitVec 5 → BitVec 5 → Bool := fun _ _ => false
  xm : Option (BitVec 5 → BitVec 4 → Bool) := none
  pr : Bool := false
  lat0 : Bool := false
  extra : Option Reason := none

/-- The operand record of a syllable. -/
inductive Oprs | zero | fr (o : FR) | fi (o : FI) | fm (o : FM) | fe (o : FE) | fb (o : FB) | fx (o : FX)

/-- A row of the opcode maps (R118): slot, OP, F3, intrinsic latency, fields and what is accepted. -/
structure Row where
  slot : Slot
  op : BitVec 6
  f3 : BitVec 3
  lat : Nat
  ops : Oprs
  rule : Rule := {}

/-- Table of R103; `none` is the intrinsic latency. -/
def latBound (c : BitVec 4) : Option Nat :=
  [none, some 1, some 2, some 3, some 4, some 5, some 6, some 8, some 10, some 12, some 16, some 20, some 24,
   some 32, some 48, some 64].getD c.toNat none

def need (ok : Bool) (r : Reason) : Option Reason := if ok then none else some r

/-- A specifier against its file (R49, R98). -/
def Fil.check (f : Fil) (x : BitVec 7) : Option Reason :=
  match f with
  | .z => need (x = 0) .badField
  | .raw => none
  | _ => need (x.toNat ≥ 64 || x.toNat < f.size) .badReg

def ShMk.check (k : ShMk) (sh msk : BitVec 3) : Option Reason :=
  match k with
  | .none => need (sh = 0 && msk = 0) .badField
  | .tile => Option.none
  | .cl => need (sh = 0 && (msk = 0 || msk = 4)) .badField
  | .shCl => need (msk = 0 || msk = 4) .badField
  | .sh => need (msk = 0) .badField

/-- LAT against the intrinsic latency (R103). -/
def latCheck (zero : Bool) (lat : BitVec 4) (intrinsic : Nat) : Option Reason :=
  if zero then need (lat = 0) .badLat
  else match latBound lat with
    | none => none
    | some b => need (decide (intrinsic ≤ b)) .badLat

def direct (x : BitVec 7) : Bool := decide (x.toNat < 64)
def aligned (x : BitVec 7) (n : Nat) : Option Reason := need (!direct x || x.toNat % n = 0) .badReg

def condBelow (o : FB) (n : Nat) : Option Reason :=
  need (decide (o.cond.toNat < n)) (if n = 1 then .badField else .badType)
def offZero (o : FB) : Option Reason := need (o.cond = 0 && o.off = 0) .badField
def loopReg (o : FB) : Option Reason := Reason.first [need (o.cond = 0) .badField, need (decide (o.d.toNat < 2)) .badReg]
/-- `jt`: a direct table base with every entry inside the file (R144). -/
def jtTable (o : FB) : Option Reason := need (decide (o.d.toNat + o.cond.toNat ≤ 63)) .badReg
def bselFields (o : FB) : Option Reason :=
  Reason.first [need (decide (o.cond.toNat < 3)) .badType, need (decide (o.off.toNat < 256)) .badField]
def immBelow (o : FX) (n : Nat) : Option Reason := need (decide (o.imm.toNat ≤ n)) .badField
def evwaitFields (o : FX) : Option Reason := need (decide (1 ≤ o.imm.toNat ∧ o.imm.toNat ≤ 64)) .badField
/-- `fence` (R117): tokens stand in D, A, B. R117 gives no reason number for its ORD, V and SCOPE checks: DESIGN CHOICE 5, that of a
reserved modifier (log 70). -/
def fenceFields (o : FX) : Option Reason :=
  let i := o.imm.toNat
  let ord := bits i 20 19
  let n := bits i 22 21
  Reason.first
    [need (ord ≠ 0 && (!o.v || ord = 3) && decide (bits i 18 16 < 6)) .badType,
     need ((n ≥ 1 || o.d = 0) && (n ≥ 2 || o.a = 0) && (n ≥ 3 || o.b = 0)) .badField]
/-- `mod` (R115): an absent field carries zero. -/
def modFields (o : FX) : Option Reason :=
  let i := o.imm.toNat
  Reason.first
    [need (bits i 22 19 = 0 && (bit i 14 || bits i 3 0 = 0) && (bit i 15 || bits i 6 4 = 0) &&
       (bit i 16 || bits i 9 7 = 0) && (bit i 17 || bits i 11 10 = 0) && (bit i 18 || bits i 13 12 = 0)) .badField,
     need (decide (bits i 6 4 < 6) && decide (bits i 9 7 < 6)) .badPrefixUse]
/-- `tkwait` (R396): the third token stands in IMM [22:16]. -/
def tkwaitFields (o : FX) : Option Reason :=
  let i := o.imm.toNat
  let n := bits i 1 0
  let t := bits i 22 16
  Reason.first
    [need (n ≠ 0 && bits i 15 2 = 0 && (n ≥ 2 || o.b = 0) && (n ≥ 3 || t = 0)) .badField,
     need (decide (t ≥ 64) || decide (t < 32)) .badReg]
def tksetFields (o : FX) : Option Reason := need (o.imm = 0 || o.imm = 2) .badField
def evpopRegs (o : FR) : Option Reason := need (!(direct o.d && o.d = o.c && o.d ≠ 0)) .badReg
def onlySB (p : SPos) : Option Reason := need (p = .sb) .badOp
def fieldPos (o : FI) : Option Reason :=
  let i := o.imm.toNat
  need (!o.v && bits i 22 12 = 0 && decide (bits i 5 0 + bits i 11 6 + 1 ≤ 64)) .badField
def lihQ (o : FI) : Option Reason := need (!o.v && decide (bits o.imm.toNat 22 21 < 2)) .badField
def vcmpD (o : FI) : Option Reason :=
  Reason.first [need (!bit o.d.toNat 3) .badField, need (isFloat o.ty || decide (bits o.d.toNat 6 4 < 6)) .badType]
def dAlign (o : FR) (n : Nat) : Option Reason := aligned o.d n
/-- Alignment of a wide destination or wide source (R54); a paired quad takes two registers of each cluster (R187). -/
def ratioAlign (o : FR) : Option Reason :=
  let w := fmtWidth o.ty
  let u := fmtWidth o.ty2
  let n := fun r : Nat => if o.pair then (if r = 4 then 2 else 1) else r
  if u < w then aligned o.d (n (w / max u 1)) else if w < u then aligned o.a (n (u / max w 1)) else none
/-- `vperm` page in XMOD (R181). -/
def vpermPage (pair : Bool) (t : BitVec 5) (m : BitVec 4) : Bool :=
  if fmtWidth t = 8 then decide (m.toNat < if pair then 4 else 2) else m = 0
def redTile (o : FE) : Bool := bit o.d.toNat 0
/-- `red.*` raw D: TILE in [0], U in [1] (R288). -/
def redFields (o : FE) (minmax : Bool) : Option Reason :=
  need (decide (o.d.toNat < 4) && (minmax || !bit o.d.toNat 1) && !(redTile o && o.v)) .badField
def rawBelow (x : BitVec 7) (n : Nat) : Option Reason := need (decide (x.toNat ≤ n)) .badField
def cmmSparse (o : FE) : Bool := bit o.d.toNat 3

/-- The row of each syllable instruction (R118); events have none. DEDUCED: `vdot4` takes a C tile, as R163 gives it, though the last
sentence of R159 does not list it (log 70). -/
def Instr.row : Instr → Option Row
  | .nop k => some { slot := k, op := 0, f3 := 0, lat := 0, ops := .zero }
  | .br o => some { slot := .c, op := 1, f3 := 0, lat := 1, ops := .fb o, rule := { extra := condBelow o 1 } }
  | .bc o => some { slot := .c, op := 1, f3 := 1, lat := 1, ops := .fb o, rule := { a := .s, extra := condBelow o 6 } }
  | .call o => some { slot := .c, op := 1, f3 := 2, lat := 1, ops := .fb o, rule := { d := .s, extra := condBelow o 1 } }
  | .ret o => some { slot := .c, op := 1, f3 := 3, lat := 1, ops := .fb o, rule := { a := .s, extra := offZero o } }
  | .loop o => some { slot := .c, op := 1, f3 := 4, lat := 1, ops := .fb o, rule := { d := .raw, a := .s, extra := loopReg o } }
  | .jt o => some { slot := .c, op := 1, f3 := 5, lat := 1, ops := .fb o, rule := { d := .s, a := .s, extra := jtTable o } }
  | .bsel o => some { slot := .c, op := 1, f3 := 6, lat := 1, ops := .fb o, rule := { d := .sh, a := .s, extra := bselFields o } }
  | .halt o => some { slot := .c, op := 2, f3 := 0, lat := 1, ops := .fx o, rule := { extra := immBelow o 0 } }
  | .trap o => some { slot := .c, op := 2, f3 := 1, lat := 1, ops := .fx o, rule := { extra := immBelow o 0xFFFF } }
  | .sysc o => some { slot := .c, op := 2, f3 := 2, lat := 1, ops := .fx o, rule := { d := .s, a := .s, b := .s, extra := immBelow o 0xFFFF } }
  | .rdcr o => some { slot := .c, op := 3, f3 := 0, lat := 2, ops := .fr o, rule := { d := .s, b := .raw } }
  | .wrcr o => some { slot := .c, op := 3, f3 := 1, lat := 1, ops := .fr o, rule := { a := .s, b := .raw, lat0 := true } }
  | .rdid o => some { slot := .c, op := 3, f3 := 2, lat := 1, ops := .fr o, rule := { d := .s } }
  | .rdtick o => some { slot := .c, op := 3, f3 := 3, lat := 1, ops := .fr o, rule := { d := .s } }
  | .rdgov o => some { slot := .c, op := 3, f3 := 4, lat := 2, ops := .fr o, rule := { d := .s } }
  | .rdctr o => some { slot := .c, op := 3, f3 := 5, lat := 4, ops := .fr o, rule := { d := .s, a := .s } }
  | .fence o => some { slot := .c, op := 4, f3 := 0, lat := 1, ops := .fx o, rule := { d := .tk, a := .tk, b := .tk, v := fun _ => true, extra := fenceFields o } }
  | .mod o => some { slot := .c, op := 4, f3 := 1, lat := 1, ops := .fx o, rule := { extra := modFields o } }
  | .bar o => some { slot := .c, op := 5, f3 := 0, lat := 1, ops := .fx o, rule := { extra := immBelow o 7 } }
  | .flagwait o => some { slot := .c, op := 5, f3 := 1, lat := 2, ops := .fx o, rule := { d := .s, a := .s, b := .s, extra := immBelow o 0 } }
  | .evwait o => some { slot := .c, op := 5, f3 := 2, lat := 1, ops := .fx o, rule := { extra := evwaitFields o } }
  | .bcwait o => some { slot := .c, op := 5, f3 := 3, lat := 2, ops := .fx o, rule := { d := .s, extra := immBelow o 15 } }
  | .tkwait o => some { slot := .c, op := 5, f3 := 4, lat := 1, ops := .fx o, rule := { d := .s, a := .tk, b := .tk, extra := tkwaitFields o } }
  | .tkset o => some { slot := .c, op := 5, f3 := 5, lat := 1, ops := .fx o, rule := { d := .tk, extra := tksetFields o } }
  | .stacq o => some { slot := .c, op := 6, f3 := 0, lat := 2, ops := .fr o, rule := { d := .s, a := .s, xm := some (fun _ m => decide (m.toNat < 2)) } }
  | .strel o => some { slot := .c, op := 6, f3 := 1, lat := 1, ops := .fr o, rule := { a := .s, lat0 := true } }
  | .clease o => some { slot := .c, op := 6, f3 := 2, lat := 1, ops := .fr o, rule := { lat0 := true } }
  | .crel o => some { slot := .c, op := 6, f3 := 3, lat := 1, ops := .fr o, rule := { lat0 := true } }
  | .evpop o => some { slot := .c, op := 7, f3 := 0, lat := 2, ops := .fr o, rule := { d := .s, c := .s, lat0 := true, extra := evpopRegs o } }
  | .evpeek o => some { slot := .c, op := 7, f3 := 1, lat := 2, ops := .fr o, rule := { d := .s, c := .s, lat0 := true, extra := evpopRegs o } }
  | .add p o => some { slot := p.slot, op := 1, f3 := 0, lat := 1, ops := .fr o, rule := { d := .s, a := .s, b := .s, ty := tyInt, sat := fun _ _ => true } }
  | .addI p o => some { slot := p.slot, op := 2, f3 := 0, lat := 1, ops := .fi o, rule := { d := .s, a := .s, ty := tyInt, v := fun _ => true, sat := fun _ _ => true } }
  | .sub p o => some { slot := p.slot, op := 1, f3 := 1, lat := 1, ops := .fr o, rule := { d := .s, a := .s, b := .s, ty := tyInt, sat := fun _ _ => true } }
  | .subI p o => some { slot := p.slot, op := 2, f3 := 1, lat := 1, ops := .fi o, rule := { d := .s, a := .s, ty := tyInt, v := fun _ => true, sat := fun _ _ => true } }
  | .and p o => some { slot := p.slot, op := 1, f3 := 2, lat := 1, ops := .fr o, rule := { d := .s, a := .s, b := .s, ty := tyInt } }
  | .andI p o => some { slot := p.slot, op := 2, f3 := 2, lat := 1, ops := .fi o, rule := { d := .s, a := .s, ty := tyInt, v := fun _ => true } }
  | .or p o => some { slot := p.slot, op := 1, f3 := 3, lat := 1, ops := .fr o, rule := { d := .s, a := .s, b := .s, ty := tyInt } }
  | .orI p o => some { slot := p.slot, op := 2, f3 := 3, lat := 1, ops := .fi o, rule := { d := .s, a := .s, ty := tyInt, v := fun _ => true } }
  | .xor p o => some { slot := p.slot, op := 1, f3 := 4, lat := 1, ops := .fr o, rule := { d := .s, a := .s, b := .s, ty := tyInt } }
  | .xorI p o => some { slot := p.slot, op := 2, f3 := 4, lat := 1, ops := .fi o, rule := { d := .s, a := .s, ty := tyInt, v := fun _ => true } }
  | .andn p o => some { slot := p.slot, op := 1, f3 := 5, lat := 1, ops := .fr o, rule := { d := .s, a := .s, b := .s, ty := tyInt } }
  | .andnI p o => some { slot := p.slot, op := 2, f3 := 5, lat := 1, ops := .fi o, rule := { d := .s, a := .s, ty := tyInt, v := fun _ => true } }
  | .min p o => some { slot := p.slot, op := 1, f3 := 6, lat := 1, ops := .fr o, rule := { d := .s, a := .s, b := .s, ty := tySigned } }
  | .minI p o => some { slot := p.slot, op := 2, f3 := 6, lat := 1, ops := .fi o, rule := { d := .s, a := .s, ty := tySigned, v := fun _ => true } }
  | .max p o => some { slot := p.slot, op := 1, f3 := 7, lat := 1, ops := .fr o, rule := { d := .s, a := .s, b := .s, ty := tySigned } }
  | .maxI p o => some { slot := p.slot, op := 2, f3 := 7, lat := 1, ops := .fi o, rule := { d := .s, a := .s, ty := tySigned, v := fun _ => true } }
  | .minu p o => some { slot := p.slot, op := 3, f3 := 0, lat := 1, ops := .fr o, rule := { d := .s, a := .s, b := .s, ty := tyUnsigned } }
  | .minuI p o => some { slot := p.slot, op := 4, f3 := 0, lat := 1, ops := .fi o, rule := { d := .s, a := .s, ty := tyUnsigned, v := fun _ => true } }
  | .maxu p o => some { slot := p.slot, op := 3, f3 := 1, lat := 1, ops := .fr o, rule := { d := .s, a := .s, b := .s, ty := tyUnsigned } }
  | .maxuI p o => some { slot := p.slot, op := 4, f3 := 1, lat := 1, ops := .fi o, rule := { d := .s, a := .s, ty := tyUnsigned, v := fun _ => true } }
  | .shl p o => some { slot := p.slot, op := 3, f3 := 2, lat := 1, ops := .fr o, rule := { d := .s, a := .s, b := .s, ty := tyInt } }
  | .shlI p o => some { slot := p.slot, op := 4, f3 := 2, lat := 1, ops := .fi o, rule := { d := .s, a := .s, ty := tyInt, v := fun _ => true } }
  | .shr p o => some { slot := p.slot, op := 3, f3 := 3, lat := 1, ops := .fr o, rule := { d := .s, a := .s, b := .s, ty := tyInt } }
  | .shrI p o => some { slot := p.slot, op := 4, f3 := 3, lat := 1, ops := .fi o, rule := { d := .s, a := .s, ty := tyInt, v := fun _ => true } }
  | .sar p o => some { slot := p.slot, op := 3, f3 := 4, lat := 1, ops := .fr o, rule := { d := .s, a := .s, b := .s, ty := tyInt } }
  | .sarI p o => some { slot := p.slot, op := 4, f3 := 4, lat := 1, ops := .fi o, rule := { d := .s, a := .s, ty := tyInt, v := fun _ => true } }
  | .rol p o => some { slot := p.slot, op := 3, f3 := 5, lat := 1, ops := .fr o, rule := { d := .s, a := .s, b := .s, ty := tyInt } }
  | .rolI p o => some { slot := p.slot, op := 4, f3 := 5, lat := 1, ops := .fi o, rule := { d := .s, a := .s, ty := tyInt, v := fun _ => true } }
  | .ror p o => some { slot := p.slot, op := 3, f3 := 6, lat := 1, ops := .fr o, rule := { d := .s, a := .s, b := .s, ty := tyInt } }
  | .rorI p o => some { slot := p.slot, op := 4, f3 := 6, lat := 1, ops := .fi o, rule := { d := .s, a := .s, ty := tyInt, v := fun _ => true } }
  | .mul p o => some { slot := p.slot, op := 5, f3 := 0, lat := 3, ops := .fr o, rule := { d := .s, a := .s, b := .s, ty := tyInt, sat := fun _ _ => true } }
  | .mulI p o => some { slot := p.slot, op := 6, f3 := 0, lat := 3, ops := .fi o, rule := { d := .s, a := .s, ty := tyInt, v := fun _ => true, sat := fun _ _ => true } }
  | .mulh p o => some { slot := p.slot, op := 5, f3 := 1, lat := 4, ops := .fr o, rule := { d := .s, a := .s, b := .s, ty := tySigned } }
  | .mulhu p o => some { slot := p.slot, op := 5, f3 := 2, lat := 4, ops := .fr o, rule := { d := .s, a := .s, b := .s, ty := tyUnsigned } }
  | .div p o => some { slot := p.slot, op := 5, f3 := 3, lat := 24, ops := .fr o, rule := { d := .s, a := .s, b := .s, ty := tySigned } }
  | .divu p o => some { slot := p.slot, op := 5, f3 := 4, lat := 24, ops := .fr o, rule := { d := .s, a := .s, b := .s, ty := tyUnsigned } }
  | .rem p o => some { slot := p.slot, op := 5, f3 := 5, lat := 24, ops := .fr o, rule := { d := .s, a := .s, b := .s, ty := tySigned } }
  | .remu p o => some { slot := p.slot, op := 5, f3 := 6, lat := 24, ops := .fr o, rule := { d := .s, a := .s, b := .s, ty := tyUnsigned } }
  | .madd p o => some { slot := p.slot, op := 5, f3 := 7, lat := 3, ops := .fr o, rule := { d := .s, a := .s, b := .s, c := .s, ty := tyInt, sat := fun _ _ => true, extra := onlySB p } }
  | .maddI p o => some { slot := p.slot, op := 6, f3 := 7, lat := 3, ops := .fi o, rule := { d := .s, a := .s, ty := tyInt, v := fun _ => true, sat := fun _ _ => true, extra := onlySB p } }
  | .clz p o => some { slot := p.slot, op := 7, f3 := 0, lat := 1, ops := .fr o, rule := { d := .s, a := .s, ty := tyInt } }
  | .ctz p o => some { slot := p.slot, op := 7, f3 := 1, lat := 1, ops := .fr o, rule := { d := .s, a := .s, ty := tyInt } }
  | .popc p o => some { slot := p.slot, op := 7, f3 := 2, lat := 1, ops := .fr o, rule := { d := .s, a := .s, ty := tyInt } }
  | .bswap p o => some { slot := p.slot, op := 7, f3 := 3, lat := 1, ops := .fr o, rule := { d := .s, a := .s, ty := tyWide } }
  | .mov p o => some { slot := p.slot, op := 7, f3 := 6, lat := 1, ops := .fr o, rule := { d := .s, a := .s } }
  | .movx p o => some { slot := p.slot, op := 7, f3 := 7, lat := 1, ops := .fr o, rule := { d := if o.v then .s else .x, a := if o.v then .x else .s, v := fun _ => true } }
  | .ext p o => some { slot := p.slot, op := 8, f3 := 0, lat := 1, ops := .fi o, rule := { d := .s, a := .s, ty := ty64, extra := fieldPos o } }
  | .ins p o => some { slot := p.slot, op := 8, f3 := 1, lat := 1, ops := .fi o, rule := { d := .s, a := .s, ty := tyI64, extra := fieldPos o } }
  | .cmp p o => some { slot := p.slot, op := 9, f3 := 0, lat := 1, ops := .fr o, rule := { d := .s, a := .s, b := .s, ty := tyInt, xm := some (fun _ m => decide (m.toNat < 6)) } }
  | .cmpI p o => some { slot := p.slot, op := 10, f3 := 0, lat := 1, ops := .fi o, rule := { d := .s, a := .s, ty := tyInt, v := fun _ => true } }
  | .sel p o => some { slot := p.slot, op := 9, f3 := 1, lat := 1, ops := .fr o, rule := { d := .s, a := .s, b := .s, c := .s } }
  | .li p o => some { slot := p.slot, op := 11, f3 := 0, lat := 1, ops := .fi o, rule := { d := .s, ty := tyI64, v := fun _ => true } }
  | .lih p o => some { slot := p.slot, op := 11, f3 := 1, lat := 1, ops := .fi o, rule := { d := .s, a := .s, ty := tyI64, extra := lihQ o } }
  | .fadd p o => some { slot := p.slot, op := 12, f3 := 0, lat := 4, ops := .fr o, rule := { d := .s, a := .s, b := .s, ty := tyF32, v := fun _ => true } }
  | .faddI p o => some { slot := p.slot, op := 13, f3 := 0, lat := 4, ops := .fi o, rule := { d := .s, a := .s, ty := tyF32, v := fun _ => true } }
  | .fsub p o => some { slot := p.slot, op := 12, f3 := 1, lat := 4, ops := .fr o, rule := { d := .s, a := .s, b := .s, ty := tyF32, v := fun _ => true } }
  | .fsubI p o => some { slot := p.slot, op := 13, f3 := 1, lat := 4, ops := .fi o, rule := { d := .s, a := .s, ty := tyF32, v := fun _ => true } }
  | .fmul p o => some { slot := p.slot, op := 12, f3 := 2, lat := 4, ops := .fr o, rule := { d := .s, a := .s, b := .s, ty := tyF32, v := fun _ => true } }
  | .fmulI p o => some { slot := p.slot, op := 13, f3 := 2, lat := 4, ops := .fi o, rule := { d := .s, a := .s, ty := tyF32, v := fun _ => true } }
  | .ffma p o => some { slot := p.slot, op := 12, f3 := 3, lat := 4, ops := .fr o, rule := { d := .s, a := .s, b := .s, c := .s, ty := tyF32, v := fun _ => true } }
  | .fmin p o => some { slot := p.slot, op := 12, f3 := 4, lat := 2, ops := .fr o, rule := { d := .s, a := .s, b := .s, ty := tyF32 } }
  | .fminI p o => some { slot := p.slot, op := 13, f3 := 4, lat := 2, ops := .fi o, rule := { d := .s, a := .s, ty := tyF32 } }
  | .fmax p o => some { slot := p.slot, op := 12, f3 := 5, lat := 2, ops := .fr o, rule := { d := .s, a := .s, b := .s, ty := tyF32 } }
  | .fmaxI p o => some { slot := p.slot, op := 13, f3 := 5, lat := 2, ops := .fi o, rule := { d := .s, a := .s, ty := tyF32 } }
  | .fcmp p o => some { slot := p.slot, op := 12, f3 := 6, lat := 2, ops := .fr o, rule := { d := .s, a := .s, b := .s, ty := tyF32, xm := some (fun _ m => decide (m.toNat < 8)) } }
  | .fcmpI p o => some { slot := p.slot, op := 13, f3 := 6, lat := 2, ops := .fi o, rule := { d := .s, a := .s, ty := tyF32 } }
  | .fcvt p o => some { slot := p.slot, op := 12, f3 := 7, lat := 3, ops := .fr o, rule := { d := .s, a := .s, ty := tyFcvt, v := isFloat, sat := satMeans } }
  | .fabs p o => some { slot := p.slot, op := 14, f3 := 0, lat := 1, ops := .fr o, rule := { d := .s, a := .s, ty := tyF32 } }
  | .fneg p o => some { slot := p.slot, op := 14, f3 := 1, lat := 1, ops := .fr o, rule := { d := .s, a := .s, ty := tyF32 } }
  | .vadd p o => some { slot := p.slot, op := 1, f3 := 0, lat := if isFloat o.ty then 4 else 2, ops := .fr o, rule := { d := .v, a := .v, b := .v, shmk := .tile, ty := tyIntFp, sat := fun _ _ => true, v := isFloat, pr := true } }
  | .vaddI p o => some { slot := p.slot, op := 2, f3 := 0, lat := if isFloat o.ty then 4 else 2, ops := .fi o, rule := { d := .v, a := .v, shmk := .tile, ty := tyIntFp, sat := fun _ _ => true, v := fun _ => true } }
  | .vsub p o => some { slot := p.slot, op := 1, f3 := 1, lat := if isFloat o.ty then 4 else 2, ops := .fr o, rule := { d := .v, a := .v, b := .v, shmk := .tile, ty := tyIntFp, sat := fun _ _ => true, v := isFloat, pr := true } }
  | .vsubI p o => some { slot := p.slot, op := 2, f3 := 1, lat := if isFloat o.ty then 4 else 2, ops := .fi o, rule := { d := .v, a := .v, shmk := .tile, ty := tyIntFp, sat := fun _ _ => true, v := fun _ => true } }
  | .vmul p o => some { slot := p.slot, op := 1, f3 := 2, lat := if isFloat o.ty then 4 else 3, ops := .fr o, rule := { d := .v, a := .v, b := .v, shmk := .tile, ty := tyIntFp, sat := fun _ _ => true, v := isFloat, pr := true } }
  | .vmulI p o => some { slot := p.slot, op := 2, f3 := 2, lat := if isFloat o.ty then 4 else 3, ops := .fi o, rule := { d := .v, a := .v, shmk := .tile, ty := tyIntFp, sat := fun _ _ => true, v := fun _ => true } }
  | .vfma p o => some { slot := p.slot, op := 1, f3 := 3, lat := 4, ops := .fr o, rule := { d := .v, a := .v, b := .v, shmk := .tile, c := .v, ty := tyFp, sat := fun _ _ => true, v := fun _ => true, pr := true } }
  | .vmadd p o => some { slot := p.slot, op := 1, f3 := 4, lat := 4, ops := .fr o, rule := { d := .v, a := .v, b := .v, shmk := .tile, c := .v, ty := tyTileInt, sat := fun _ _ => true, pr := true } }
  | .vmin p o => some { slot := p.slot, op := 1, f3 := 5, lat := 2, ops := .fr o, rule := { d := .v, a := .v, b := .v, shmk := .tile, ty := tyIntFp, pr := true } }
  | .vminI p o => some { slot := p.slot, op := 2, f3 := 5, lat := 2, ops := .fi o, rule := { d := .v, a := .v, shmk := .tile, ty := tyIntFp, v := fun t => !isFloat t } }
  | .vmax p o => some { slot := p.slot, op := 1, f3 := 6, lat := 2, ops := .fr o, rule := { d := .v, a := .v, b := .v, shmk := .tile, ty := tyIntFp, pr := true } }
  | .vmaxI p o => some { slot := p.slot, op := 2, f3 := 6, lat := 2, ops := .fi o, rule := { d := .v, a := .v, shmk := .tile, ty := tyIntFp, v := fun t => !isFloat t } }
  | .vdot4 p o => some { slot := p.slot, op := 1, f3 := 7, lat := 4, ops := .fr o, rule := { d := .v, a := .v, b := .v, shmk := .tile, c := .v, ty := tyDot4, sat := fun _ _ => true, pr := true } }
  | .vabs p o => some { slot := p.slot, op := 3, f3 := 0, lat := 2, ops := .fr o, rule := { d := .v, a := .v, shmk := .tile, ty := tyIntFp, sat := fun t _ => !isFloat t } }
  | .vneg p o => some { slot := p.slot, op := 3, f3 := 1, lat := 2, ops := .fr o, rule := { d := .v, a := .v, shmk := .tile, ty := tyIntFp, sat := fun t _ => !isFloat t } }
  | .vand p o => some { slot := p.slot, op := 3, f3 := 2, lat := 1, ops := .fr o, rule := { d := .v, a := .v, b := .v, shmk := .tile, ty := tyInt4 } }
  | .vandI p o => some { slot := p.slot, op := 4, f3 := 2, lat := 1, ops := .fi o, rule := { d := .v, a := .v, shmk := .tile, ty := tyInt4, v := fun _ => true } }
  | .vor p o => some { slot := p.slot, op := 3, f3 := 3, lat := 1, ops := .fr o, rule := { d := .v, a := .v, b := .v, shmk := .tile, ty := tyInt4 } }
  | .vorI p o => some { slot := p.slot, op := 4, f3 := 3, lat := 1, ops := .fi o, rule := { d := .v, a := .v, shmk := .tile, ty := tyInt4, v := fun _ => true } }
  | .vxor p o => some { slot := p.slot, op := 3, f3 := 4, lat := 1, ops := .fr o, rule := { d := .v, a := .v, b := .v, shmk := .tile, ty := tyInt4 } }
  | .vxorI p o => some { slot := p.slot, op := 4, f3 := 4, lat := 1, ops := .fi o, rule := { d := .v, a := .v, shmk := .tile, ty := tyInt4, v := fun _ => true } }
  | .vnot p o => some { slot := p.slot, op := 3, f3 := 5, lat := 1, ops := .fr o, rule := { d := .v, a := .v, shmk := .tile, ty := tyInt4 } }
  | .vsel p o => some { slot := p.slot, op := 3, f3 := 6, lat := 1, ops := .fr o, rule := { d := .v, a := .v, b := .v, shmk := .tile, ty := tyInt4Fp, xm := some (fun _ m => decide (m.toNat < 8)) } }
  | .vcmp p o => some { slot := p.slot, op := 3, f3 := 7, lat := 2, ops := .fr o, rule := { d := .m, a := .v, b := .v, shmk := .tile, ty := tyInt4Fp, xm := some (fun t m => decide (m.toNat < if isFloat t then 8 else 6)) } }
  | .vcmpI p o => some { slot := p.slot, op := 4, f3 := 7, lat := 2, ops := .fi o, rule := { d := .raw, a := .v, shmk := .tile, ty := tyInt4Fp, v := fun t => !isFloat t, extra := vcmpD o } }
  | .vshl p o => some { slot := p.slot, op := 5, f3 := 0, lat := 1, ops := .fr o, rule := { d := .v, a := .v, b := .v, shmk := .tile, ty := tyTileInt } }
  | .vshlI p o => some { slot := p.slot, op := 6, f3 := 0, lat := 1, ops := .fi o, rule := { d := .v, a := .v, shmk := .tile, ty := tyTileInt, v := fun _ => true } }
  | .vshr p o => some { slot := p.slot, op := 5, f3 := 1, lat := 1, ops := .fr o, rule := { d := .v, a := .v, b := .v, shmk := .tile, ty := tyTileInt } }
  | .vshrI p o => some { slot := p.slot, op := 6, f3 := 1, lat := 1, ops := .fi o, rule := { d := .v, a := .v, shmk := .tile, ty := tyTileInt, v := fun _ => true } }
  | .vsar p o => some { slot := p.slot, op := 5, f3 := 2, lat := 1, ops := .fr o, rule := { d := .v, a := .v, b := .v, shmk := .tile, ty := tyTileInt } }
  | .vsarI p o => some { slot := p.slot, op := 6, f3 := 2, lat := 1, ops := .fi o, rule := { d := .v, a := .v, shmk := .tile, ty := tyTileInt, v := fun _ => true } }
  | .vclmul p o => some { slot := p.slot, op := 5, f3 := 3, lat := 4, ops := .fr o, rule := { d := .v, a := .v, b := .v, shmk := .tile, ty := tyClmul, xm := some (fun _ m => decide (m.toNat < if o.pair then 1 else 2)), pr := true } }
  | .vpopc p o => some { slot := p.slot, op := 5, f3 := 4, lat := 2, ops := .fr o, rule := { d := .v, a := .v, shmk := .tile, ty := tyTileInt } }
  | .vclz p o => some { slot := p.slot, op := 5, f3 := 5, lat := 2, ops := .fr o, rule := { d := .v, a := .v, shmk := .tile, ty := tyTileInt } }
  | .vcvt p o => some { slot := p.slot, op := 7, f3 := 0, lat := 3, ops := .fr o, rule := { d := .v, a := .v, shmk := .tile, ty := tyVcvt, v := isFloat, sat := satMeans, pr := true, extra := ratioAlign o } }
  | .vwid p o => some { slot := p.slot, op := 7, f3 := 1, lat := 3, ops := .fr o, rule := { d := .v, a := .v, shmk := .tile, ty := tyVwid, pr := true, extra := ratioAlign o } }
  | .vnar p o => some { slot := p.slot, op := 7, f3 := 2, lat := 3, ops := .fr o, rule := { d := .v, a := .v, shmk := .tile, ty := tyVnar, sat := fun _ _ => true, pr := true, extra := ratioAlign o } }
  | .vsat p o => some { slot := p.slot, op := 7, f3 := 3, lat := 2, ops := .fr o, rule := { d := .v, a := .v, shmk := .tile, ty := tyVsat } }
  | .vrnd p o => some { slot := p.slot, op := 7, f3 := 4, lat := 3, ops := .fr o, rule := { d := .v, a := .v, shmk := .tile, ty := tyFp, xm := some (fun _ m => decide (m.toNat < 4)) } }
  | .vcbdec p o => some { slot := p.slot, op := 7, f3 := 5, lat := 3, ops := .fr o, rule := { d := .v, a := .v, shmk := .tile, ty := tyVcbdec, xm := some (fun _ _ => true), extra := dAlign o 4 } }
  | .vscale p o => some { slot := p.slot, op := 7, f3 := 6, lat := 4, ops := .fr o, rule := { d := .v, a := .v, b := .v, shmk := .tile, ty := tyVscale, xm := some (fun _ m => decide (m.toNat < 4)), sat := fun _ _ => true, v := fun _ => true, extra := if o.ty = 0x10 then dAlign o 2 else none } }
  | .vrcp p o => some { slot := p.slot, op := 8, f3 := 0, lat := 8, ops := .fr o, rule := { d := .v, a := .v, shmk := .tile, ty := tyFp } }
  | .vrsq p o => some { slot := p.slot, op := 8, f3 := 1, lat := 8, ops := .fr o, rule := { d := .v, a := .v, shmk := .tile, ty := tyFp } }
  | .vsqrt p o => some { slot := p.slot, op := 8, f3 := 2, lat := 8, ops := .fr o, rule := { d := .v, a := .v, shmk := .tile, ty := tyFp } }
  | .vexp2 p o => some { slot := p.slot, op := 8, f3 := 3, lat := 8, ops := .fr o, rule := { d := .v, a := .v, shmk := .tile, ty := tyFp } }
  | .vlog2 p o => some { slot := p.slot, op := 8, f3 := 4, lat := 8, ops := .fr o, rule := { d := .v, a := .v, shmk := .tile, ty := tyFp } }
  | .vtanh p o => some { slot := p.slot, op := 8, f3 := 5, lat := 8, ops := .fr o, rule := { d := .v, a := .v, shmk := .tile, ty := tyFp } }
  | .vsig p o => some { slot := p.slot, op := 8, f3 := 6, lat := 8, ops := .fr o, rule := { d := .v, a := .v, shmk := .tile, ty := tyFp } }
  | .vredsum p o => some { slot := p.slot, op := 9, f3 := 0, lat := 6, ops := .fr o, rule := { d := .v, a := .v, shmk := .tile, ty := tyVredsum, sat := fun t _ => !isFloat t, v := isFloat, xm := some (fun _ m => decide (m.toNat < 3)) } }
  | .vredmax p o => some { slot := p.slot, op := 9, f3 := 1, lat := 6, ops := .fr o, rule := { d := .v, a := .v, shmk := .tile, ty := tyVredmax, xm := some (fun _ m => decide (m.toNat < 3)) } }
  | .vredmin p o => some { slot := p.slot, op := 9, f3 := 2, lat := 6, ops := .fr o, rule := { d := .v, a := .v, shmk := .tile, ty := tyVredmax, xm := some (fun _ m => decide (m.toNat < 3)) } }
  | .vperm p o => some { slot := p.slot, op := 10, f3 := 0, lat := 4, ops := .fr o, rule := { d := .v, a := .v, b := .v, shmk := .tile, ty := tyIntFp, xm := some (vpermPage o.pair), pr := true } }
  | .vshuf p o => some { slot := p.slot, op := 10, f3 := 1, lat := 3, ops := .fr o, rule := { d := .v, a := .v, b := if o.xmod.toNat < 4 then .v else .z, c := if o.xmod = 5 ∨ o.xmod = 7 then .s else .z, shmk := .tile, ty := tyInt4Fp, xm := some (fun _ m => decide (m.toNat < 8)), pr := true } }
  | .vbcast p o => some { slot := p.slot, op := 10, f3 := 2, lat := 3, ops := .fr o, rule := { d := .v, a := if o.xmod = 3 then .z else .v, c := .s, shmk := .tile, ty := tyInt4Fp, xm := some (fun _ m => decide (m.toNat < 4)), pr := true } }
  | .vext p o => some { slot := p.slot, op := 10, f3 := 3, lat := 3, ops := .fr o, rule := { d := .v, a := .v, b := .v, shmk := .tile, c := .s, ty := tyInt4Fp, pr := true } }
  | .vtrn p o => some { slot := p.slot, op := 10, f3 := 4, lat := 3, ops := .fr o, rule := { d := .v, a := .v, shmk := .tile, ty := tyInt4Fp, pr := true } }
  | .xcp p o => some { slot := p.slot, op := 11, f3 := 0, lat := 1, ops := .fr o, rule := { d := .v, a := .v } }
  | .vandM p o => some { slot := p.slot, op := 12, f3 := 2, lat := 1, ops := .fr o, rule := { d := .m, a := .m, b := .m } }
  | .vorM p o => some { slot := p.slot, op := 12, f3 := 3, lat := 1, ops := .fr o, rule := { d := .m, a := .m, b := .m } }
  | .vxorM p o => some { slot := p.slot, op := 12, f3 := 4, lat := 1, ops := .fr o, rule := { d := .m, a := .m, b := .m } }
  | .vnotM p o => some { slot := p.slot, op := 12, f3 := 5, lat := 1, ops := .fr o, rule := { d := .m, a := .m } }
  | .ldS o => some { slot := .e, op := 1, f3 := 0, lat := 16, ops := .fm o, rule := { d := .s, a := .s, b := .s, ty := tyLdS, v := fun _ => true } }
  | .ldT o => some { slot := .e, op := 1, f3 := 1, lat := 16, ops := .fm o, rule := { d := .v, a := .s, b := .s, shmk := .tile, ty := tyTile, v := fun _ => true } }
  | .stS o => some { slot := .e, op := 2, f3 := 0, lat := 1, ops := .fm o, rule := { d := .s, a := .s, b := .s, ty := tyLdS, lat0 := true } }
  | .stT o => some { slot := .e, op := 2, f3 := 1, lat := 1, ops := .fm o, rule := { d := .v, a := .s, b := .s, shmk := .tile, ty := tyTile, lat0 := true } }
  | .ldx o => some { slot := .e, op := 3, f3 := 0, lat := 1, ops := .fe o, rule := { d := .v, a := .s, b := .v, shmk := .tile } }
  | .stx o => some { slot := .e, op := 3, f3 := 1, lat := 1, ops := .fe o, rule := { d := .v, a := .s, b := .v, shmk := .tile } }
  | .stxAdd o => some { slot := .e, op := 3, f3 := 2, lat := 1, ops := .fe o, rule := { d := .v, a := .s, b := .v, shmk := .tile } }
  | .dcopy o => some { slot := .e, op := 4, f3 := 0, lat := 1, ops := .fe o, rule := { d := .s, a := .s, b := .s } }
  | .dcopyCsum o => some { slot := .e, op := 4, f3 := 1, lat := 1, ops := .fe o, rule := { d := .s, a := .s, b := .s } }
  | .rst o => some { slot := .e, op := 5, f3 := 0, lat := 1, ops := .fe o, rule := { d := .s, a := .s, b := .v, shmk := .tile } }
  | .rld o => some { slot := .e, op := 5, f3 := 1, lat := 1, ops := .fe o, rule := { d := .v, a := .s, shmk := .tile } }
  | .amoAdd o => some { slot := .e, op := 6, f3 := 0, lat := 1, ops := .fe o, rule := { d := .s, a := .s, b := .s, v := fun _ => true } }
  | .amoAnd o => some { slot := .e, op := 6, f3 := 1, lat := 1, ops := .fe o, rule := { d := .s, a := .s, b := .s, v := fun _ => true } }
  | .amoOr o => some { slot := .e, op := 6, f3 := 2, lat := 1, ops := .fe o, rule := { d := .s, a := .s, b := .s, v := fun _ => true } }
  | .amoXor o => some { slot := .e, op := 6, f3 := 3, lat := 1, ops := .fe o, rule := { d := .s, a := .s, b := .s, v := fun _ => true } }
  | .amoMin o => some { slot := .e, op := 6, f3 := 4, lat := 1, ops := .fe o, rule := { d := .s, a := .s, b := .s, v := fun _ => true } }
  | .amoMax o => some { slot := .e, op := 6, f3 := 5, lat := 1, ops := .fe o, rule := { d := .s, a := .s, b := .s, v := fun _ => true } }
  | .amoSwap o => some { slot := .e, op := 6, f3 := 6, lat := 1, ops := .fe o, rule := { d := .s, a := .s, b := .s, v := fun _ => true } }
  | .amoCas o => some { slot := .e, op := 6, f3 := 7, lat := 1, ops := .fe o, rule := { d := .s, a := .s, b := .s, v := fun _ => true } }
  | .redAdd o => some { slot := .e, op := 7, f3 := 0, lat := 1, ops := .fe o, rule := { d := .raw, a := .s, b := if redTile o then .v else .s, shmk := if redTile o then .tile else .none, v := fun _ => true, extra := redFields o false } }
  | .redAnd o => some { slot := .e, op := 7, f3 := 1, lat := 1, ops := .fe o, rule := { d := .raw, a := .s, b := if redTile o then .v else .s, shmk := if redTile o then .tile else .none, v := fun _ => true, extra := redFields o false } }
  | .redOr o => some { slot := .e, op := 7, f3 := 2, lat := 1, ops := .fe o, rule := { d := .raw, a := .s, b := if redTile o then .v else .s, shmk := if redTile o then .tile else .none, v := fun _ => true, extra := redFields o false } }
  | .redXor o => some { slot := .e, op := 7, f3 := 3, lat := 1, ops := .fe o, rule := { d := .raw, a := .s, b := if redTile o then .v else .s, shmk := if redTile o then .tile else .none, v := fun _ => true, extra := redFields o false } }
  | .redMin o => some { slot := .e, op := 7, f3 := 4, lat := 1, ops := .fe o, rule := { d := .raw, a := .s, b := if redTile o then .v else .s, shmk := if redTile o then .tile else .none, v := fun _ => true, extra := redFields o true } }
  | .redMax o => some { slot := .e, op := 7, f3 := 5, lat := 1, ops := .fe o, rule := { d := .raw, a := .s, b := if redTile o then .v else .s, shmk := if redTile o then .tile else .none, v := fun _ => true, extra := redFields o true } }
  | .redFadd o => some { slot := .e, op := 7, f3 := 6, lat := 1, ops := .fe o, rule := { d := .raw, a := .s, b := if redTile o then .v else .s, shmk := if redTile o then .tile else .none, extra := redFields o false } }
  | .kalloc o => some { slot := .e, op := 8, f3 := 0, lat := 1, ops := .fe o, rule := { d := .s, a := .s, b := .s } }
  | .kallocM o => some { slot := .e, op := 8, f3 := 1, lat := 1, ops := .fe o, rule := { d := .s, a := .s, b := .s } }
  | .kfree o => some { slot := .e, op := 8, f3 := 2, lat := 1, ops := .fe o, rule := { d := .s, a := .s } }
  | .kquery o => some { slot := .e, op := 8, f3 := 3, lat := 1, ops := .fe o, rule := { d := .s, a := .s, b := .s } }
  | .tacq o => some { slot := .e, op := 9, f3 := 0, lat := 1, ops := .fe o, rule := { d := .s, a := .s } }
  | .trel o => some { slot := .e, op := 9, f3 := 1, lat := 1, ops := .fe o, rule := { d := .s, a := .s } }
  | .sbind o => some { slot := .e, op := 10, f3 := 0, lat := 1, ops := .fe o, rule := { d := .raw, a := .s, b := .v, shmk := .shCl, extra := rawBelow o.d 15 } }
  | .sunbind o => some { slot := .e, op := 10, f3 := 1, lat := 1, ops := .fe o, rule := { d := .raw, extra := rawBelow o.d 7 } }
  | .sstat o => some { slot := .e, op := 10, f3 := 2, lat := 1, ops := .fe o, rule := { d := .s, a := .raw, extra := rawBelow o.a 7 } }
  | .cspush o => some { slot := .e, op := 11, f3 := 0, lat := 1, ops := .fe o, rule := { d := .raw, a := .v, b := .m, shmk := .shCl, extra := rawBelow o.d 7 } }
  | .cspop o => some { slot := .e, op := 11, f3 := 1, lat := 1, ops := .fe o, rule := { d := .v, a := .raw, b := .m, shmk := .shCl, extra := rawBelow o.a 3 } }
  | .cmm o => some { slot := .e, op := 12, f3 := 0, lat := 1, ops := .fe o, rule := { d := .raw, a := .s, b := if cmmSparse o then .s else .z, shmk := .sh, extra := rawBelow o.d 15 } }
  | .cmmz o => some { slot := .e, op := 12, f3 := 1, lat := 1, ops := .fe o, rule := { d := .raw, a := .s, b := if cmmSparse o then .s else .z, shmk := .sh, extra := rawBelow o.d 15 } }
  | .cconv o => some { slot := .e, op := 12, f3 := 2, lat := 1, ops := .fe o, rule := { d := .raw, a := .s, b := .s, shmk := .sh, extra := rawBelow o.d 3 } }
  | .cplane o => some { slot := .e, op := 12, f3 := 3, lat := 1, ops := .fe o, rule := { a := .s, shmk := .sh } }
  | .csmeta o => some { slot := .e, op := 12, f3 := 4, lat := 1, ops := .fe o, rule := { a := .s, b := .s } }
  | .cfill o => some { slot := .e, op := 13, f3 := 0, lat := 1, ops := .fe o, rule := { d := .s, a := .s, b := .s } }
  | .cswap o => some { slot := .e, op := 13, f3 := 1, lat := 1, ops := .fe o, rule := { a := .s } }
  | .crdacc o => some { slot := .e, op := 13, f3 := 2, lat := 1, ops := .fe o, rule := { d := .v, a := .s, b := .s, shmk := .cl } }
  | .cwracc o => some { slot := .e, op := 13, f3 := 3, lat := 1, ops := .fe o, rule := { a := .v, b := .s, shmk := .cl } }
  | .cdrain o => some { slot := .e, op := 13, f3 := 4, lat := 1, ops := .fe o, rule := { d := .raw, a := .s, extra := rawBelow o.d 1 } }
  | .ckat o => some { slot := .e, op := 14, f3 := 0, lat := 1, ops := .fe o, rule := { a := .s, b := .s } }
  | .cseq o => some { slot := .e, op := 14, f3 := 1, lat := 1, ops := .fe o, rule := { a := .s, b := .s } }
  | .cstat o => some { slot := .e, op := 14, f3 := 2, lat := 1, ops := .fe o, rule := { d := .s, a := .s } }
  | .cbist o => some { slot := .e, op := 14, f3 := 3, lat := 1, ops := .fe o, rule := { a := .s } }
  | .trigArm o => some { slot := .e, op := 15, f3 := 0, lat := 1, ops := .fe o, rule := { d := .s, a := .s, b := .s } }
  | .trigCancel o => some { slot := .e, op := 15, f3 := 1, lat := 1, ops := .fe o, rule := { d := .s, a := .s } }
  | .bcarm o => some { slot := .e, op := 15, f3 := 2, lat := 1, ops := .fe o, rule := { d := .raw, a := .s, b := .s, extra := rawBelow o.d 15 } }
  | .registerResultLanding _ => none
  | .codeIndexRefill _ _ => none
  | .haltComplete _ => none
  | .copyEngineDispatch _ => none
  | .engineTranslationFault _ => none
  | .copyCommandEnd _ => none
  | .remoteEngineDispatch _ => none
  | .remoteCommandEnd _ _ => none
  | .cspushAccept _ => none
  | .cspopDelivery _ _ => none
  | .streamTileFetch _ _ => none
  | .streamTileLand _ _ => none
  | .streamTileTake _ _ => none
  | .streamEnd _ _ => none
  | .writeQueueApply _ => none
  | .cubeCommandDispatch _ => none
  | .planeLayerStart _ _ => none
  | .planeLayerEnd _ _ => none
  | .cubeCommandEnd _ _ => none
  | .cubeCommandStop _ => none
  | .cubeRecovery _ _ _ => none
  | .cubeReadEnd _ _ => none
  | .sequencerTransition _ _ => none
  | .leaseGrant _ => none
  | .leaseRunEnd _ => none
  | .stacqGrant _ _ => none
  | .barrierCompletion _ => none
  | .plannedCompletionDeadline _ => none
  | .commStepEnd _ => none
  | .engineArmTick _ => none
  | .governorSample _ _ _ => none
  | .governorStepChange _ => none
  | .droopStart => none
  | .droopEnd => none
  | .scrub _ _ => none
  | .kittySwitchLoss _ => none
  | .peerTimeout _ => none
  | .fwrite _ => none
  | .flaginc _ => none
  | .poolreq _ => none
  | .poolrsp _ => none
  | .tokreq _ => none
  | .tokgrant _ => none
  | .tokrecall _ => none
  | .loss _ => none
  | .trigarr _ => none
  | .lineadd _ => none
  | .ualinkRead _ => none
  | .ualinkWrite _ => none
  | .ualinkAtomic _ => none
  | .ualinkResponse _ => none
  | .unsupportedVendorMessage _ _ => none
  | .launch _ => none
  | .nopCmd _ => none
  | .phaseArm _ => none
  | .imageLoad _ => none
  | .launchRetire _ => none
  | .dealerPoll => none
  | .syscRequest => none
  | .faultRecord => none
  | .preemption _ => none
  | .saveFrameWrite _ => none
  | .contextRestore _ _ => none
  | .mapq _ => none
  | .unmapq _ => none
  | .partwrite _ => none
  | .rangeload _ => none
  | .walkinv _ => none
  | .preempt _ => none
  | .resume _ => none
  | .kill _ => none
  | .reexec _ => none
  | .flr _ => none
  | .quota _ => none
  | .bist _ => none
  | .attest _ => none
  | .keyprov _ => none
  | .service _ => none
  | .checkpoint _ => none
  | .restore _ => none
  | .svcreg _ => none
  | .svcreply _ => none
  | .doorbell _ _ => none
  | .droopcfgWrite _ => none
  | .govcfgWrite _ _ => none
  | .vmarginWrite _ _ => none
  | .lmarginStart _ _ => none
  | .eyeMeasurementEnd _ _ => none
  | .counterClear _ _ _ => none
  | .zeroiseWrite _ => none
  | .registerWrite _ _ => none
  | .tamper => none
  | .glitch => none
  | .fwsig => none
  | .mgmt => none
  | .powerOnReset => none
  | .leaseChange _ => none
  | .pcieFailure => none
  | .hbmApertureWrite _ _ => none

/-- The checks of one syllable that need no neighbour; `none` when all hold. A mode bit V outside its row is
reason 5 in class V (R159) and reason 2 elsewhere (R98). DESIGN CHOICE: NTK 4-7, which R101 rejects without a number, is reason 2; and a
non-zero TYPE or TYPE2 in a class C or S form that uses none is reason 5, a type that is not accepted, and not reason 2, a field that is
not zero (R98, R114, R130; log 70). -/
def Row.reject (r : Row) : Option Reason :=
  let k := r.rule
  let vr : Reason := if r.slot = .va ∨ r.slot = .vb then .badType else .badField
  match r.ops with
  | .zero => none
  | .fr o => Reason.first
      [k.d.check o.d, k.a.check o.a, k.b.check o.b, k.c.check o.c, k.shmk.check o.sh o.msk, latCheck k.lat0 o.lat r.lat,
       need (k.ty o.ty o.ty2) .badType, need (!o.v || k.v o.ty) vr, need (!o.sat || k.sat o.ty o.ty2) .badType,
       (match k.xm with | none => need (o.xmod = 0) .badField | some p => need (p o.ty o.xmod) .badType),
       need (!o.pair || k.pr) .badPair, k.extra]
  | .fi o => Reason.first
      [k.d.check o.d, k.a.check o.a, k.shmk.check o.sh o.msk, latCheck k.lat0 o.lat r.lat,
       need (k.ty o.ty 0) .badType, need (o.f = isFloat o.ty) .badType, need (!o.f || decide (o.imm.toNat < 0x10000)) .badType,
       need (!o.v || k.v o.ty) vr, need (!o.sat || k.sat o.ty 0) .badType, k.extra]
  | .fm o => Reason.first
      [k.d.check o.d, k.a.check o.a, k.b.check o.b, k.shmk.check o.sh o.msk, latCheck k.lat0 o.lat r.lat,
       need (k.ty o.ty 0) .badType, need (!o.v || k.v o.ty) vr, k.extra]
  | .fe o => Reason.first
      [k.d.check o.d, k.a.check o.a, k.b.check o.b, k.shmk.check o.sh o.msk, latCheck true o.lat r.lat,
       need (!o.v || k.v 0) vr, need (decide (o.ntk.toNat < 4)) .badField,
       need ((1 ≤ o.ntk.toNat || o.tka = 0) && (2 ≤ o.ntk.toNat || o.tkb = 0) && (3 ≤ o.ntk.toNat || o.tkc = 0)) .badField,
       k.extra]
  | .fb o => Reason.first
      [k.d.check o.d, k.a.check o.a, k.shmk.check o.sh o.msk, latCheck true o.lat r.lat, need (!o.v || k.v 0) vr, k.extra]
  | .fx o => Reason.first
      [k.d.check o.d, k.a.check o.a, k.b.check o.b, k.shmk.check o.sh o.msk, latCheck true o.lat r.lat,
       need (!o.v || k.v 0) vr, k.extra]

/-- Events name only units the package has (R10, R14, R19, R233). -/
def Instr.eventOk : Instr → Bool
  | .registerResultLanding g | .haltComplete g | .cubeCommandStop g | .preemption g | .saveFrameWrite g => decide (g < 3072)
  | .contextRestore g h => decide (g < 3072) && decide (h < 3072)
  | .codeIndexRefill c _ | .remoteEngineDispatch c | .remoteCommandEnd c _ | .cspushAccept c | .imageLoad c => decide (c < 768)
  | .copyEngineDispatch q | .copyCommandEnd q | .cubeCommandDispatch q | .cubeCommandEnd q _ | .cubeReadEnd q _
  | .leaseGrant q | .leaseRunEnd q | .governorStepChange q | .leaseChange q => decide (q < 192)
  | .cspopDelivery q b => decide (q < 192) && decide (b < 4)
  | .engineTranslationFault (.copy q) => decide (q < 192)
  | .engineTranslationFault (.stream g n) => decide (g < 3072) && decide (n < 8)
  | .streamTileFetch g n | .streamTileLand g n | .streamTileTake g n | .streamEnd g n => decide (g < 3072) && decide (n < 8)
  | .planeLayerStart q l | .planeLayerEnd q l | .sequencerTransition q l => decide (q < 192) && decide (l < 8)
  | .governorSample q l temps => decide (q < 192) && decide (l < 8) && decide (temps.length = 4)
  | .cubeRecovery q l f => decide (q < 192) && decide (l < 8) && decide (f < 2)
  | .stacqGrant t n => decide (t < 4) && decide (n < 16)
  | .barrierCompletion n | .plannedCompletionDeadline n => decide (n < 8)
  | .engineArmTick u => decide (u < 3456)
  | .scrub u _ => decide (u < 12)
  | .kittySwitchLoss w => decide (w < 4096)
  | .peerTimeout p => decide (p < 65536)
  | .govcfgWrite t _ => decide (t < 4)
  | .vmarginWrite r _ => decide (r < 8)
  | .lmarginStart p _ | .eyeMeasurementEnd p _ => decide (p < 8)
  | .unsupportedVendorMessage p v => decide (p < 8) && decide (v < 8)
  | _ => true

/-- Why the loader rejects the syllable by itself (R114); `none` when it does not. -/
def Instr.reject (i : Instr) : Option Reason := i.row.bind Row.reject

/-- A syllable that the loader accepts by itself, or an event whose units exist. -/
def Instr.wf (i : Instr) : Bool := i.reject = none && i.eventOk

/-! ### Bundles (R51, R114, R115, R121, R148) -/

/-- The destination files that R51 keeps apart. -/
inductive DFil | s | x | va | vb | ma | mb | tk | sh
  deriving DecidableEq, Repr

/-- `n` registers from a direct specifier; none from an indirect one. -/
def destRun (f : DFil) (x : BitVec 7) (n : Nat) : List (DFil × Nat) :=
  if direct x then (List.range n).map fun j => (f, x.toNat + j) else []

def Fil.dest (f : Fil) (p : Slot) (cl : Bool) (x : BitVec 7) (n : Nat) : List (DFil × Nat) :=
  let b := p = .vb ∨ cl = true
  match f with
  | .s => destRun .s x 1
  | .x => destRun .x x 1
  | .v => destRun (if b then .vb else .va) x n
  | .m => destRun (if b then .mb else .ma) x 1
  | .tk => destRun .tk x 1
  | .sh => destRun .sh x 1
  | _ => []

/-- Registers a widening syllable fills (R54, R187). -/
def wideCount (o : FR) : Nat :=
  let r := if fmtWidth o.ty2 = 0 then 1 else fmtWidth o.ty / fmtWidth o.ty2
  if o.pair then (if r = 4 then 2 else 1) else max r 1

/-- The destinations a syllable names directly. DESIGN CHOICE: a `wrcr` names a control register and no destination, that of a shape's
half not the shape either (log 70). -/
def Instr.dests (i : Instr) : List (DFil × Nat) :=
  let plain := fun (r : Row) (n : Nat) =>
    match r.ops with
    | .zero => []
    | .fr o => r.rule.d.dest r.slot false o.d n
    | .fi o => r.rule.d.dest r.slot false o.d n
    | .fm o => r.rule.d.dest r.slot (bit o.msk.toNat 2) o.d n
    | .fe o => r.rule.d.dest r.slot (bit o.msk.toNat 2) o.d n ++ [(.tk, o.tko.toNat)]
    | .fb o => r.rule.d.dest r.slot false o.d n
    | .fx o => r.rule.d.dest r.slot false o.d n
  match i with
  | .vcvt _ o | .vwid _ o => (i.row.map fun r => plain r (wideCount o)).getD []
  | .vcbdec _ _ => (i.row.map fun r => plain r 4).getD []
  | .vscale _ o => (i.row.map fun r => plain r (if o.ty = 0x10 then 2 else 1)).getD []
  | .vcmpI p o => [(if p = .a then .ma else .mb, o.d.toNat % 8)]
  | .jt _ | .fence _ => []
  | .evpop o | .evpeek o => destRun .s o.d 1 ++ destRun .s o.c 1
  | .kalloc o | .kallocM o | .kquery o => destRun .s o.d 1 ++ destRun .s o.b 1 ++ [(.tk, o.tko.toNat)]
  | .crdacc o => destRun (if bit o.msk.toNat 2 then .vb else .va) o.d 1 ++ destRun .s o.b 1 ++ [(.tk, o.tko.toNat)]
  | .cspop o => destRun (if bit o.msk.toNat 2 then .vb else .va) o.d 1 ++
      destRun (if bit o.msk.toNat 2 then .mb else .ma) o.b 1 ++ [(.sh, o.sh.toNat), (.tk, o.tko.toNat)]
  | .stS _ | .stT _ => []
  | .stx o | .stxAdd o | .rst o | .dcopy o | .dcopyCsum o | .cfill o | .trigArm o => [(.tk, o.tko.toNat)]
  | _ => (i.row.map fun r => plain r 1).getD []

/-- s0, ma0 and mb0 discard writes and may be named twice (R51). -/
def discards : DFil × Nat → Bool
  | (.s, 0) | (.ma, 0) | (.mb, 0) => true
  | _ => false

/-- Some destination named by two syllables. -/
def clash : List (List (DFil × Nat)) → Bool
  | [] => false
  | l :: rest => l.any (fun d => !discards d && rest.any (fun m => m.contains d)) || clash rest

/-- The slot-E instructions that `mod` may modify (R115). -/
def Instr.takesMod : Instr → Bool
  | .ldS _ | .stS _ | .ldT _ | .stT _ | .ldx _ | .stx _ | .stxAdd _ | .dcopy _ | .dcopyCsum _ | .rst _ | .rld _
  | .amoAdd _ | .amoAnd _ | .amoOr _ | .amoXor _ | .amoMin _ | .amoMax _ | .amoSwap _ | .amoCas _
  | .redAdd _ | .redAnd _ | .redOr _ | .redXor _ | .redMin _ | .redMax _ | .redFadd _ => true
  | _ => false

def Instr.isNop : Instr → Bool | .nop _ => true | _ => false
def Instr.isTrap : Instr → Bool | .trap _ => true | _ => false
def Instr.isMod : Instr → Bool | .mod _ => true | _ => false

/-- A PAIR = 1 syllable of class V, with what its twin must equal (R121). -/
def Instr.paired (i : Instr) : Option (BitVec 6 × BitVec 3 × FR) :=
  i.row.bind fun r => match r.ops with
    | .fr o => if o.pair then some (r.op, r.f3, o) else none
    | _ => none

/-- The checks of a whole bundle, with the syllable each failure names. Slots in order C, SA, SB, VA, VB, E. DESIGN CHOICE: two
syllables that name one destination are reported as syllable 0, and a broken pair as syllable 3, where only syllable 4 has PAIR = 1 too, for
R114 does not say which of them (log 70). -/
def bundleReject (b : List Instr) : Option (Reason × Nat) :=
  let at' := fun n : Nat => b.getD n (.nop .c)
  let single := (List.range 6).filterMap fun n => ((at' n).reject).map fun r => (r, n)
  match single with
  | x :: _ => some x
  | [] =>
    if (at' 0).isTrap && !((List.range 5).all fun n => (at' (n + 1)).isNop) then some (.badOp, 0)
    else if clash (b.map Instr.dests) then some (.badReg, 0)
    else if (at' 3).paired ≠ (at' 4).paired then some (.badPair, 3)
    else if (at' 0).isMod && !(at' 5).takesMod then some (.badPrefixUse, 0)
    else none

end Sys2Proof
end

