-- ==== Sys2Proof/Decode.lean ====
section
/-! DEFINITION. The decoder of a syllable and the encoder (R96, R98, R118), and the bundle's layout (R95, R121). -/

namespace Sys2Proof

/-! ### Fields of a 64-bit syllable (R96, R98) -/

/-- OP, bits [63:58]. -/
def sylOp (w : BitVec 64) : BitVec 6 := w.extractLsb' 58 6
/-- F3, bits [57:55]. -/
def sylF3 (w : BitVec 64) : BitVec 3 := w.extractLsb' 55 3

/-- The fields of format FR. -/
def FR.ofWord (w : BitVec 64) : FR :=
  { v := w.getLsbD 54, lat := w.extractLsb' 50 4, sh := w.extractLsb' 47 3, msk := w.extractLsb' 44 3,
    d := w.extractLsb' 37 7, a := w.extractLsb' 30 7, b := w.extractLsb' 23 7, c := w.extractLsb' 16 7,
    ty := w.extractLsb' 11 5, ty2 := w.extractLsb' 6 5, sat := w.getLsbD 5, pair := w.getLsbD 4, xmod := w.extractLsb' 0 4 }
/-- The fields of format FI. -/
def FI.ofWord (w : BitVec 64) : FI :=
  { v := w.getLsbD 54, lat := w.extractLsb' 50 4, sh := w.extractLsb' 47 3, msk := w.extractLsb' 44 3,
    d := w.extractLsb' 37 7, a := w.extractLsb' 30 7, ty := w.extractLsb' 25 5, f := w.getLsbD 24,
    sat := w.getLsbD 23, imm := w.extractLsb' 0 23 }
/-- The fields of format FM. -/
def FM.ofWord (w : BitVec 64) : FM :=
  { v := w.getLsbD 54, lat := w.extractLsb' 50 4, sh := w.extractLsb' 47 3, msk := w.extractLsb' 44 3,
    d := w.extractLsb' 37 7, a := w.extractLsb' 30 7, b := w.extractLsb' 23 7, disp := w.extractLsb' 9 14,
    ty := w.extractLsb' 4 5 }
/-- The fields of format FE. -/
def FE.ofWord (w : BitVec 64) : FE :=
  { v := w.getLsbD 54, lat := w.extractLsb' 50 4, sh := w.extractLsb' 47 3, msk := w.extractLsb' 44 3,
    d := w.extractLsb' 37 7, a := w.extractLsb' 30 7, b := w.extractLsb' 23 7, tko := w.extractLsb' 18 5,
    tka := w.extractLsb' 13 5, tkb := w.extractLsb' 8 5, tkc := w.extractLsb' 3 5, ntk := w.extractLsb' 0 3 }
/-- The fields of format FB. -/
def FB.ofWord (w : BitVec 64) : FB :=
  { v := w.getLsbD 54, lat := w.extractLsb' 50 4, sh := w.extractLsb' 47 3, msk := w.extractLsb' 44 3,
    d := w.extractLsb' 37 7, a := w.extractLsb' 30 7, cond := w.extractLsb' 23 4, off := w.extractLsb' 0 23 }
/-- The fields of format FX. -/
def FX.ofWord (w : BitVec 64) : FX :=
  { v := w.getLsbD 54, lat := w.extractLsb' 50 4, sh := w.extractLsb' 47 3, msk := w.extractLsb' 44 3,
    d := w.extractLsb' 37 7, a := w.extractLsb' 30 7, b := w.extractLsb' 23 7, imm := w.extractLsb' 0 23 }

/-- FM leaves bits [3:0] zero (R98). -/
def fmWord (w : BitVec 64) (k : FM → Instr) : Except Reason Instr :=
  if w.extractLsb' 0 4 = 0 then .ok (k (FM.ofWord w)) else .error .badField
/-- FB leaves bits [29:27] zero (R98). -/
def fbWord (w : BitVec 64) (k : FB → Instr) : Except Reason Instr :=
  if w.extractLsb' 27 3 = 0 then .ok (k (FB.ofWord w)) else .error .badField

/-! ### The opcode maps (R118) -/

/-- The map of slot C. -/
def decodeC (w : BitVec 64) : Except Reason Instr :=
  match (sylOp w).toNat, (sylF3 w).toNat with
  | 1, 0 => fbWord w .br
  | 1, 1 => fbWord w .bc
  | 1, 2 => fbWord w .call
  | 1, 3 => fbWord w .ret
  | 1, 4 => fbWord w .loop
  | 1, 5 => fbWord w .jt
  | 1, 6 => fbWord w .bsel
  | 2, 0 => .ok (.halt (FX.ofWord w))
  | 2, 1 => .ok (.trap (FX.ofWord w))
  | 2, 2 => .ok (.sysc (FX.ofWord w))
  | 3, 0 => .ok (.rdcr (FR.ofWord w))
  | 3, 1 => .ok (.wrcr (FR.ofWord w))
  | 3, 2 => .ok (.rdid (FR.ofWord w))
  | 3, 3 => .ok (.rdtick (FR.ofWord w))
  | 3, 4 => .ok (.rdgov (FR.ofWord w))
  | 3, 5 => .ok (.rdctr (FR.ofWord w))
  | 4, 0 => .ok (.fence (FX.ofWord w))
  | 4, 1 => .ok (.mod (FX.ofWord w))
  | 5, 0 => .ok (.bar (FX.ofWord w))
  | 5, 1 => .ok (.flagwait (FX.ofWord w))
  | 5, 2 => .ok (.evwait (FX.ofWord w))
  | 5, 3 => .ok (.bcwait (FX.ofWord w))
  | 5, 4 => .ok (.tkwait (FX.ofWord w))
  | 5, 5 => .ok (.tkset (FX.ofWord w))
  | 6, 0 => .ok (.stacq (FR.ofWord w))
  | 6, 1 => .ok (.strel (FR.ofWord w))
  | 6, 2 => .ok (.clease (FR.ofWord w))
  | 6, 3 => .ok (.crel (FR.ofWord w))
  | 7, 0 => .ok (.evpop (FR.ofWord w))
  | 7, 1 => .ok (.evpeek (FR.ofWord w))
  | _, _ => .error .badOp

/-- The map of slots SA and SB. -/
def decodeS (p : SPos) (w : BitVec 64) : Except Reason Instr :=
  match (sylOp w).toNat, (sylF3 w).toNat with
  | 1, 0 => .ok (.add p (FR.ofWord w))
  | 2, 0 => .ok (.addI p (FI.ofWord w))
  | 1, 1 => .ok (.sub p (FR.ofWord w))
  | 2, 1 => .ok (.subI p (FI.ofWord w))
  | 1, 2 => .ok (.and p (FR.ofWord w))
  | 2, 2 => .ok (.andI p (FI.ofWord w))
  | 1, 3 => .ok (.or p (FR.ofWord w))
  | 2, 3 => .ok (.orI p (FI.ofWord w))
  | 1, 4 => .ok (.xor p (FR.ofWord w))
  | 2, 4 => .ok (.xorI p (FI.ofWord w))
  | 1, 5 => .ok (.andn p (FR.ofWord w))
  | 2, 5 => .ok (.andnI p (FI.ofWord w))
  | 1, 6 => .ok (.min p (FR.ofWord w))
  | 2, 6 => .ok (.minI p (FI.ofWord w))
  | 1, 7 => .ok (.max p (FR.ofWord w))
  | 2, 7 => .ok (.maxI p (FI.ofWord w))
  | 3, 0 => .ok (.minu p (FR.ofWord w))
  | 4, 0 => .ok (.minuI p (FI.ofWord w))
  | 3, 1 => .ok (.maxu p (FR.ofWord w))
  | 4, 1 => .ok (.maxuI p (FI.ofWord w))
  | 3, 2 => .ok (.shl p (FR.ofWord w))
  | 4, 2 => .ok (.shlI p (FI.ofWord w))
  | 3, 3 => .ok (.shr p (FR.ofWord w))
  | 4, 3 => .ok (.shrI p (FI.ofWord w))
  | 3, 4 => .ok (.sar p (FR.ofWord w))
  | 4, 4 => .ok (.sarI p (FI.ofWord w))
  | 3, 5 => .ok (.rol p (FR.ofWord w))
  | 4, 5 => .ok (.rolI p (FI.ofWord w))
  | 3, 6 => .ok (.ror p (FR.ofWord w))
  | 4, 6 => .ok (.rorI p (FI.ofWord w))
  | 5, 0 => .ok (.mul p (FR.ofWord w))
  | 6, 0 => .ok (.mulI p (FI.ofWord w))
  | 5, 1 => .ok (.mulh p (FR.ofWord w))
  | 5, 2 => .ok (.mulhu p (FR.ofWord w))
  | 5, 3 => .ok (.div p (FR.ofWord w))
  | 5, 4 => .ok (.divu p (FR.ofWord w))
  | 5, 5 => .ok (.rem p (FR.ofWord w))
  | 5, 6 => .ok (.remu p (FR.ofWord w))
  | 5, 7 => .ok (.madd p (FR.ofWord w))
  | 6, 7 => .ok (.maddI p (FI.ofWord w))
  | 7, 0 => .ok (.clz p (FR.ofWord w))
  | 7, 1 => .ok (.ctz p (FR.ofWord w))
  | 7, 2 => .ok (.popc p (FR.ofWord w))
  | 7, 3 => .ok (.bswap p (FR.ofWord w))
  | 7, 6 => .ok (.mov p (FR.ofWord w))
  | 7, 7 => .ok (.movx p (FR.ofWord w))
  | 8, 0 => .ok (.ext p (FI.ofWord w))
  | 8, 1 => .ok (.ins p (FI.ofWord w))
  | 9, 0 => .ok (.cmp p (FR.ofWord w))
  | 10, 0 => .ok (.cmpI p (FI.ofWord w))
  | 9, 1 => .ok (.sel p (FR.ofWord w))
  | 11, 0 => .ok (.li p (FI.ofWord w))
  | 11, 1 => .ok (.lih p (FI.ofWord w))
  | 12, 0 => .ok (.fadd p (FR.ofWord w))
  | 13, 0 => .ok (.faddI p (FI.ofWord w))
  | 12, 1 => .ok (.fsub p (FR.ofWord w))
  | 13, 1 => .ok (.fsubI p (FI.ofWord w))
  | 12, 2 => .ok (.fmul p (FR.ofWord w))
  | 13, 2 => .ok (.fmulI p (FI.ofWord w))
  | 12, 3 => .ok (.ffma p (FR.ofWord w))
  | 12, 4 => .ok (.fmin p (FR.ofWord w))
  | 13, 4 => .ok (.fminI p (FI.ofWord w))
  | 12, 5 => .ok (.fmax p (FR.ofWord w))
  | 13, 5 => .ok (.fmaxI p (FI.ofWord w))
  | 12, 6 => .ok (.fcmp p (FR.ofWord w))
  | 13, 6 => .ok (.fcmpI p (FI.ofWord w))
  | 12, 7 => .ok (.fcvt p (FR.ofWord w))
  | 14, 0 => .ok (.fabs p (FR.ofWord w))
  | 14, 1 => .ok (.fneg p (FR.ofWord w))
  | _, _ => .error .badOp

/-- The map of slots VA and VB. -/
def decodeV (p : Cl) (w : BitVec 64) : Except Reason Instr :=
  match (sylOp w).toNat, (sylF3 w).toNat with
  | 1, 0 => .ok (.vadd p (FR.ofWord w))
  | 2, 0 => .ok (.vaddI p (FI.ofWord w))
  | 1, 1 => .ok (.vsub p (FR.ofWord w))
  | 2, 1 => .ok (.vsubI p (FI.ofWord w))
  | 1, 2 => .ok (.vmul p (FR.ofWord w))
  | 2, 2 => .ok (.vmulI p (FI.ofWord w))
  | 1, 3 => .ok (.vfma p (FR.ofWord w))
  | 1, 4 => .ok (.vmadd p (FR.ofWord w))
  | 1, 5 => .ok (.vmin p (FR.ofWord w))
  | 2, 5 => .ok (.vminI p (FI.ofWord w))
  | 1, 6 => .ok (.vmax p (FR.ofWord w))
  | 2, 6 => .ok (.vmaxI p (FI.ofWord w))
  | 1, 7 => .ok (.vdot4 p (FR.ofWord w))
  | 3, 0 => .ok (.vabs p (FR.ofWord w))
  | 3, 1 => .ok (.vneg p (FR.ofWord w))
  | 3, 2 => .ok (.vand p (FR.ofWord w))
  | 4, 2 => .ok (.vandI p (FI.ofWord w))
  | 3, 3 => .ok (.vor p (FR.ofWord w))
  | 4, 3 => .ok (.vorI p (FI.ofWord w))
  | 3, 4 => .ok (.vxor p (FR.ofWord w))
  | 4, 4 => .ok (.vxorI p (FI.ofWord w))
  | 3, 5 => .ok (.vnot p (FR.ofWord w))
  | 3, 6 => .ok (.vsel p (FR.ofWord w))
  | 3, 7 => .ok (.vcmp p (FR.ofWord w))
  | 4, 7 => .ok (.vcmpI p (FI.ofWord w))
  | 5, 0 => .ok (.vshl p (FR.ofWord w))
  | 6, 0 => .ok (.vshlI p (FI.ofWord w))
  | 5, 1 => .ok (.vshr p (FR.ofWord w))
  | 6, 1 => .ok (.vshrI p (FI.ofWord w))
  | 5, 2 => .ok (.vsar p (FR.ofWord w))
  | 6, 2 => .ok (.vsarI p (FI.ofWord w))
  | 5, 3 => .ok (.vclmul p (FR.ofWord w))
  | 5, 4 => .ok (.vpopc p (FR.ofWord w))
  | 5, 5 => .ok (.vclz p (FR.ofWord w))
  | 7, 0 => .ok (.vcvt p (FR.ofWord w))
  | 7, 1 => .ok (.vwid p (FR.ofWord w))
  | 7, 2 => .ok (.vnar p (FR.ofWord w))
  | 7, 3 => .ok (.vsat p (FR.ofWord w))
  | 7, 4 => .ok (.vrnd p (FR.ofWord w))
  | 7, 5 => .ok (.vcbdec p (FR.ofWord w))
  | 7, 6 => .ok (.vscale p (FR.ofWord w))
  | 8, 0 => .ok (.vrcp p (FR.ofWord w))
  | 8, 1 => .ok (.vrsq p (FR.ofWord w))
  | 8, 2 => .ok (.vsqrt p (FR.ofWord w))
  | 8, 3 => .ok (.vexp2 p (FR.ofWord w))
  | 8, 4 => .ok (.vlog2 p (FR.ofWord w))
  | 8, 5 => .ok (.vtanh p (FR.ofWord w))
  | 8, 6 => .ok (.vsig p (FR.ofWord w))
  | 9, 0 => .ok (.vredsum p (FR.ofWord w))
  | 9, 1 => .ok (.vredmax p (FR.ofWord w))
  | 9, 2 => .ok (.vredmin p (FR.ofWord w))
  | 10, 0 => .ok (.vperm p (FR.ofWord w))
  | 10, 1 => .ok (.vshuf p (FR.ofWord w))
  | 10, 2 => .ok (.vbcast p (FR.ofWord w))
  | 10, 3 => .ok (.vext p (FR.ofWord w))
  | 10, 4 => .ok (.vtrn p (FR.ofWord w))
  | 11, 0 => .ok (.xcp p (FR.ofWord w))
  | 12, 2 => .ok (.vandM p (FR.ofWord w))
  | 12, 3 => .ok (.vorM p (FR.ofWord w))
  | 12, 4 => .ok (.vxorM p (FR.ofWord w))
  | 12, 5 => .ok (.vnotM p (FR.ofWord w))
  | _, _ => .error .badOp

/-- The map of slot E. -/
def decodeE (w : BitVec 64) : Except Reason Instr :=
  match (sylOp w).toNat, (sylF3 w).toNat with
  | 1, 0 => fmWord w .ldS
  | 1, 1 => fmWord w .ldT
  | 2, 0 => fmWord w .stS
  | 2, 1 => fmWord w .stT
  | 3, 0 => .ok (.ldx (FE.ofWord w))
  | 3, 1 => .ok (.stx (FE.ofWord w))
  | 3, 2 => .ok (.stxAdd (FE.ofWord w))
  | 4, 0 => .ok (.dcopy (FE.ofWord w))
  | 4, 1 => .ok (.dcopyCsum (FE.ofWord w))
  | 5, 0 => .ok (.rst (FE.ofWord w))
  | 5, 1 => .ok (.rld (FE.ofWord w))
  | 6, 0 => .ok (.amoAdd (FE.ofWord w))
  | 6, 1 => .ok (.amoAnd (FE.ofWord w))
  | 6, 2 => .ok (.amoOr (FE.ofWord w))
  | 6, 3 => .ok (.amoXor (FE.ofWord w))
  | 6, 4 => .ok (.amoMin (FE.ofWord w))
  | 6, 5 => .ok (.amoMax (FE.ofWord w))
  | 6, 6 => .ok (.amoSwap (FE.ofWord w))
  | 6, 7 => .ok (.amoCas (FE.ofWord w))
  | 7, 0 => .ok (.redAdd (FE.ofWord w))
  | 7, 1 => .ok (.redAnd (FE.ofWord w))
  | 7, 2 => .ok (.redOr (FE.ofWord w))
  | 7, 3 => .ok (.redXor (FE.ofWord w))
  | 7, 4 => .ok (.redMin (FE.ofWord w))
  | 7, 5 => .ok (.redMax (FE.ofWord w))
  | 7, 6 => .ok (.redFadd (FE.ofWord w))
  | 8, 0 => .ok (.kalloc (FE.ofWord w))
  | 8, 1 => .ok (.kallocM (FE.ofWord w))
  | 8, 2 => .ok (.kfree (FE.ofWord w))
  | 8, 3 => .ok (.kquery (FE.ofWord w))
  | 9, 0 => .ok (.tacq (FE.ofWord w))
  | 9, 1 => .ok (.trel (FE.ofWord w))
  | 10, 0 => .ok (.sbind (FE.ofWord w))
  | 10, 1 => .ok (.sunbind (FE.ofWord w))
  | 10, 2 => .ok (.sstat (FE.ofWord w))
  | 11, 0 => .ok (.cspush (FE.ofWord w))
  | 11, 1 => .ok (.cspop (FE.ofWord w))
  | 12, 0 => .ok (.cmm (FE.ofWord w))
  | 12, 1 => .ok (.cmmz (FE.ofWord w))
  | 12, 2 => .ok (.cconv (FE.ofWord w))
  | 12, 3 => .ok (.cplane (FE.ofWord w))
  | 12, 4 => .ok (.csmeta (FE.ofWord w))
  | 13, 0 => .ok (.cfill (FE.ofWord w))
  | 13, 1 => .ok (.cswap (FE.ofWord w))
  | 13, 2 => .ok (.crdacc (FE.ofWord w))
  | 13, 3 => .ok (.cwracc (FE.ofWord w))
  | 13, 4 => .ok (.cdrain (FE.ofWord w))
  | 14, 0 => .ok (.ckat (FE.ofWord w))
  | 14, 1 => .ok (.cseq (FE.ofWord w))
  | 14, 2 => .ok (.cstat (FE.ofWord w))
  | 14, 3 => .ok (.cbist (FE.ofWord w))
  | 15, 0 => .ok (.trigArm (FE.ofWord w))
  | 15, 1 => .ok (.trigCancel (FE.ofWord w))
  | 15, 2 => .ok (.bcarm (FE.ofWord w))
  | _, _ => .error .badOp

/-- The syllable in slot `k` whose bits are `w`: an all-zero word is `nop` (R116), another word of OP 0 is
reason 2, and an OP or F3 the slot's class does not list is reason 1 (R118). -/
def decodeSyl (k : Slot) (w : BitVec 64) : Except Reason Instr :=
  if w = 0 then .ok (.nop k)
  else if sylOp w = 0 then .error .badField
  else match k with
    | .c => decodeC w
    | .sa => decodeS .sa w
    | .sb => decodeS .sb w
    | .va => decodeV .a w
    | .vb => decodeV .b w
    | .e => decodeE w

/-- The six slots in syllable order (R95). -/
def slots : List Slot := [.c, .sa, .sb, .va, .vb, .e]

/-- Syllable `i` of a bundle held as a number (R95). -/
def sylAt (w i : Nat) : BitVec 64 := BitVec.ofNat 64 (w >>> (64 * i))

/-- The six syllables of a bundle; a reserved one names its reason and number. -/
def decodeBundle (w : Nat) : Except (Reason × Nat) (List Instr) :=
  slots.mapM fun k => (decodeSyl k (sylAt w k.num)).mapError fun r => (r, k.num)

/-! ### The encoder -/

/-- A flag as one bit. -/
def flag (b : Bool) : BitVec 1 := BitVec.ofBool b

/-- Bits [63:30] of a syllable (R96). -/
def sylHead (op : BitVec 6) (f3 : BitVec 3) (v : Bool) (lat : BitVec 4) (sh msk : BitVec 3) (d a : BitVec 7) : BitVec 34 :=
  op ++ f3 ++ flag v ++ lat ++ sh ++ msk ++ d ++ a

def FR.word (op : BitVec 6) (f3 : BitVec 3) (o : FR) : BitVec 64 :=
  sylHead op f3 o.v o.lat o.sh o.msk o.d o.a ++ (o.b ++ o.c ++ o.ty ++ o.ty2 ++ flag o.sat ++ flag o.pair ++ o.xmod : BitVec 30)
def FI.word (op : BitVec 6) (f3 : BitVec 3) (o : FI) : BitVec 64 :=
  sylHead op f3 o.v o.lat o.sh o.msk o.d o.a ++ (o.ty ++ flag o.f ++ flag o.sat ++ o.imm : BitVec 30)
def FM.word (op : BitVec 6) (f3 : BitVec 3) (o : FM) : BitVec 64 :=
  sylHead op f3 o.v o.lat o.sh o.msk o.d o.a ++ (o.b ++ o.disp ++ o.ty ++ 0#4 : BitVec 30)
def FE.word (op : BitVec 6) (f3 : BitVec 3) (o : FE) : BitVec 64 :=
  sylHead op f3 o.v o.lat o.sh o.msk o.d o.a ++ (o.b ++ o.tko ++ o.tka ++ o.tkb ++ o.tkc ++ o.ntk : BitVec 30)
def FB.word (op : BitVec 6) (f3 : BitVec 3) (o : FB) : BitVec 64 :=
  sylHead op f3 o.v o.lat o.sh o.msk o.d o.a ++ (0#3 ++ o.cond ++ o.off : BitVec 30)
def FX.word (op : BitVec 6) (f3 : BitVec 3) (o : FX) : BitVec 64 :=
  sylHead op f3 o.v o.lat o.sh o.msk o.d o.a ++ (o.b ++ o.imm : BitVec 30)

/-- The word of a row of the opcode maps. -/
def Row.word (r : Row) : BitVec 64 :=
  match r.ops with
  | .zero => 0
  | .fr o => o.word r.op r.f3
  | .fi o => o.word r.op r.f3
  | .fm o => o.word r.op r.f3
  | .fe o => o.word r.op r.f3
  | .fb o => o.word r.op r.f3
  | .fx o => o.word r.op r.f3

/-- The word of a syllable; events have none. -/
def encode (i : Instr) : BitVec 64 := (i.row.map Row.word).getD 0

/-- The slot a syllable stands in. -/
def Instr.slot (i : Instr) : Slot := (i.row.map Row.slot).getD .c

/-- The bundle of six syllables in slot order, as a number (R95). -/
def encodeBundle (b : List Instr) : Nat :=
  (b.map encode).foldr (fun w n => w.toNat + n <<< 64) 0

/-- The one syllable of a bundle that is not `nop`; `nop` in slot C when all are. -/
def theSyllable (b : List Instr) : Option Instr :=
  match b.filter (fun i => !i.isNop) with
  | [] => some (.nop .c)
  | [i] => some i
  | _ => none

/-- What the decoder reads from a 384-bit bundle whose bits are `w`: its only syllable that is not `nop`, when the
loader accepts the bundle. -/
def decodeTableWord (_nbits w : Nat) : Option Instr :=
  match decodeBundle w with
  | .error _ => none
  | .ok b => if bundleReject b = none then theSyllable b else none

end Sys2Proof
end

