-- ==== Sys2Proof/Config.lean ====
section
/-! DEFINITION. What the manual leaves open: free values and the constants of one part. None has a body, so no statement
can rest on one. -/

namespace Sys2Proof.Config

/-- An undefined register, tile, mask or token read (R36, R51, R104): read `n`, register `r`. -/
opaque undef (n r : Nat) : Tile
/-- A latency the manual gives no figure for (R233, R391): command or event `n`, place `k`. -/
opaque delay (n k : Nat) : Nat
/-- A choice the manual leaves open (R266, R290, R306, R355): moment `n`, place `k`. -/
opaque choice (n k : Nat) : Bool
/-- A number the manual leaves open: moment `n`, place `k`. -/
opaque number (n k : Nat) : Nat
/-- The FP32 special functions, where R177 fixes only a bound: function `f`, pattern `x`. -/
opaque fp32 (f : Nat) (x : BitVec 32) : BitVec 32
/-- `vsat.f16.bf16` of an infinity: FP16 does not hold the largest BF16 (R173). -/
opaque satInf (neg : Bool) : BitVec 16
/-- The TSRAM bank of its tower, HBM channel of its stack, or fabric port, whose write queue takes the line of 64 bytes `l` (R341). -/
opaque port (l : Nat) : Nat
/-- The UALink port through which the answer to command `n` comes (R345). -/
opaque linkPort (n : Nat) : Nat
/-- FUSEFAIL of tower `t` (R374). -/
opaque fuseFail (t : Nat) : BitVec 9
/-- The word of device key bytes behind a signature (R442): moment `n`, byte `k`. -/
opaque signature (n k : Nat) : BitVec 8
/-- Whether router `q` has a port 6 or 7 (R364). -/
opaque hasPort (q p : Nat) : Bool
/-- Byte `k` of an attestation report (R442): it holds the nonce, the firmware hash, the defect map CRC and SERVICE. -/
opaque report (nonce crc service k : Nat) : BitVec 8
/-- A function with this POLICY cannot be recovered once its launch is killed (R423). -/
opaque unrecoverable (policy : Nat) : Bool

end Sys2Proof.Config
end

