-- ==== Sys2Proof/Machine/State.lean ====
section
/-! DEFINITION. The state of one package: every register, table, queue and unit the manual names (chapters 01, 02, 07, 08,
12-16), the reasons a step can stop, and the state at power-on reset (R435). Sparse tables list only entries that differ
from the entry's reset value. -/

namespace Sys2Proof.Machine

/-- Why the model itself stops. The part's own faults (R404) are next states, never these. -/
inductive Fault
  /-- Raised by `step` when the agenda's event names a unit the package does not have, or is a syllable (R10, R11).
  Safe: no run of the part holds such an event. -/
  | noSuchUnit
  /-- Raised by `step` when the bundle at issue is one that the loader rejects (R114, R118: a reserved encoding never
  issues). Safe: no run that loads its images through the Dealer holds one. -/
  | rejectedBundle
  deriving DecidableEq, Repr

/-- Why an instruction is turned away. -/
inductive Refusal
  /-- Raised by an arm of `exec` without a meaning. Safe: nothing follows from it. -/
  | notModelled (mnemonic : String)
  deriving DecidableEq, Repr

/-! ### A context (chapter 02) -/

/-- Register files and control registers that a result can land in (R47, R60). -/
inductive RegFile | s | x | va | vb | ma | mb | sh | tk | cr
  deriving DecidableEq, Repr

/-- One register. -/
structure RegId where
  file : RegFile
  n : Nat
  deriving DecidableEq, Repr

/-- Token states (R58). -/
inductive TkState | done | pending | doneErr
  deriving DecidableEq, Repr

/-- A token register (R58): its state, the number of the command it stands for, whether an `sbind` (R147) or a
`dcopy.csum` (R284) made it, and that checksum. -/
structure Tok where
  st : TkState := .done
  by' : Nat := 0
  bind : Bool := false
  csum : Bool := false
  sum : Nat := 0
  deriving DecidableEq, Repr

/-- One element of a direct load's result (R275, R276): its place in the register, where its bits lie (a face or physical byte
address, and the bit in that byte), their width, whether their sign fills the place, and the format and codebook that decode it. -/
structure LateElem where
  lo : Nat
  wd : Nat
  face : Bool
  pa : Nat
  bit : Nat := 0
  w : Nat
  sx : Bool := false
  dec : Option (BitVec 5 × BitVec 256) := none
  deriving DecidableEq, Repr

/-- A direct load's value that is not settled yet: its class, and the elements of one register (R304). `load`: the issue of the load, one
for all its registers, which take their values at one moment (R297, R299). -/
structure Late where
  cls : Nat
  elems : List LateElem
  load : Nat := 0
  deriving DecidableEq, Repr

/-- A result on its way to a register (R104): the bits it writes, and the tick at which its bound has passed.
`dead`: a later bundle's result replaces it; `mixed`: it met another result of the register in flight (R51); `late`: a load that may
still take its value (R304). -/
structure InFlight where
  reg : RegId
  val : Tile
  en : Tile
  due : Nat
  dead : Bool := false
  mixed : Bool := false
  late : Option Late := none
  deriving DecidableEq, Repr

/-- Effective modifiers of an access (R115). -/
structure Mods where
  cls : Nat := 0
  scope : Nat := 0
  space : Nat := 0
  cache : Nat := 0
  ord : Nat := 0
  deriving DecidableEq, Repr

/-- An event record (R323). -/
structure EvRec where
  kind : Nat := 0
  code : Nat := 0
  tag : Nat := 0
  time : Nat := 0
  payload : Nat := 0
  deriving DecidableEq, Repr

/-- A stream slot: its image (R328) and the engine's buffered tiles, each with its tile index (R329, R330).
`unbinding`: a `sunbind` or `halt` waits for the taken tiles; `held`: an engine fault holds the walk (R272); `asked`: the tick from which the targets of
its next access owe an answer (R245). -/
structure Stream where
  bound : Bool := false
  out : Bool := false
  fin : Bool := false
  err : Bool := false
  cluster : Bool := false
  reg : Nat := 0
  rfull : Bool := false
  token : Nat := 0
  passed : Nat := 0
  desc : Word := 0
  shape : Word := 0
  next : Nat := 0
  code : Nat := 0
  cls : Nat := 0
  scope : Nat := 0
  by' : Nat := 0
  tiles : List (Nat × Tile) := []
  view : Option (BitVec 512) := none
  oob : Nat := 0
  due : Nat := 0
  unbinding : Nat := 0
  held : Bool := false
  pc : Nat := 0
  asked : Nat := 0
  deriving DecidableEq, Repr

/-- A `sysc` request that has no reply yet (R149, R431); `ctx`: the slot it was taken from. -/
structure SyscReq where
  seq : Nat
  service : Nat
  arg0 : Word
  arg1 : Word
  taken : Bool := false
  ctx : Nat := 0
  reply : Option (Nat × Word) := none
  deriving DecidableEq, Repr

/-- What a context does: it runs; it stopped at a fault (R106) or a SLIP (R20); it is being pre-empted (R412); or it is saved, until the Dealer
restores it, or held until the host resumes it (R409). -/
inductive Stop | running | faulted | slipped | preempting | saved | held
  deriving DecidableEq, Repr

/-- A context slot (R11, R47): its register bank, control registers and queues. `cut`: a stop took its cube's lease (R33). `flagAt`: the flag on which it waits, `tokAt`: the commands whose tokens it waits for (R19).
`unwound`: a halting context whose results have landed unbinds its slots (R147).
`ask`: the tick from which a pre-emption request can reach it, or from which its frame can be written; `hold`: the host holds it once saved; `task`: the slot that its
phase named for its kernel (R358, R362, R414). -/
structure Ctx where
  sreg : Tbl Word := []
  xreg : Tbl (BitVec 16) := []
  va : Tbl Tile := []
  vb : Tbl Tile := []
  ma : Tbl MaskReg := []
  mb : Tbl MaskReg := []
  sh : Tbl ShapeReg := []
  tk : Tbl Tok := []
  st : Tbl Stream := []
  pc : Nat := 0
  memdef : Word := 0
  faultpt : Word := 0
  faultpc : Nat := 0
  state : Nat := 0
  wait : Nat := 0
  resumed : Bool := false
  stage : Nat := 0
  vfid : Nat := 0
  evcfg : Nat := 0
  ovf : Bool := false
  evq : List EvRec := []
  lp0 : Word := 0
  lp1 : Word := 0
  largs : Word := 0
  seq : Nat := 0
  sysc : List SyscReq := []
  inflight : List InFlight := []
  poison : List RegId := []
  soft : List RegId := []
  arrivals : Tbl (Option Nat) := []
  halting : Bool := false
  unwound : Bool := false
  stop : Stop := .running
  cut : Bool := false
  flagAt : Nat := 0
  tokAt : List Nat := []
  ask : Option Nat := none
  hold : Bool := false
  launch : Option Nat := none
  image : Nat := 0
  entry : Nat := 0
  phase : Nat := 0
  task : Nat := 0
  ctr : Tbl Nat := []
  deriving DecidableEq, Repr

/-! ### Commands (chapters 07, 10, 12) -/

/-- An engine command (R101): what its issue read, and how far it is. `g` is the issuing context slot, 4096 plus the slot
whose save frame holds the context (R71), or 8192 when a kill freed it (R409). `after`: commands still awaited (R311);
`chained`: TKA came from a `dcopy.csum`, `chain` that command while it runs, `chainOk` how it ended (R284); `dest`: the registers its results go to;
`pas`: the lines it addresses, virtual and physical, and `parts` the part of R240 each lies in, as the place of its first line; `at'`: the tick of its dispatch, `due` that of its end; `held`: the
fault code that holds it at `point` (R272); `errs`: error codes met; `fmt`: the format a gather decodes (R279); `view`:
descriptors as read; `count`: elements of a checksum; `quiet`: it posts no record (R225, R409); `asked`: the tick from which its targets owe an
answer (R245, R273, R319); `moved`: bits written that COPYBYTES has not counted yet (R402). -/
structure Cmd where
  instr : Instr
  g : Nat := 0
  serial : Nat := 0
  tok : Nat := 0
  pc : Nat := 0
  vf : Nat := 0
  launch : Option Nat := none
  phase : Nat := 0
  after : List Nat := []
  chained : Bool := false
  chain : Option Nat := none
  chainOk : Bool := true
  sa : Word := 0
  sb : Word := 0
  sd : Word := 0
  tb : Tile := 0
  td : Tile := 0
  act : MaskReg := 0
  shape : ShapeReg := 0
  mods : Mods := {}
  dest : List RegId := []
  pas : List (Word × Nat) := []
  parts : List Nat := []
  flag : Option Nat := none
  at' : Nat := 0
  due : Nat := 0
  started : Bool := false
  held : Option Nat := none
  point : Nat := 0
  errs : List Nat := []
  oob : Nat := 0
  count : Nat := 0
  sum : Nat := 0
  fmt : Option (BitVec 40) := none
  view : Option (BitVec 512) := none
  view2 : Option (BitVec 512) := none
  rsp : Option (Nat × Nat × BitVec 128) := none
  quiet : Bool := false
  asked : Nat := 0
  moved : Nat := 0
  deriving DecidableEq, Repr

/-- An executing cube command (R206): `plane`: the layer of a plane product, `seq` when a sequencer runs it; cube ticks
run and in all, its slice length Q, ticks S of steps, and the width that sets its rate c; the headers, codebooks, unfolding
descriptors and metadata latched at its start;
and, after a stop, the restart point with the partials it holds (R223): FP32 or INT32 words at 4096 * layer + 64 * m + n,
and the operands of an open group of R91. `halt`: the last tick brought it to a boundary at which a stop of its context takes it. -/
structure CubeRun where
  cmd : Cmd
  lmask : Nat := 0
  plane : Option Nat := none
  seq : Bool := false
  start : Nat := 0
  ticks : Nat := 0
  q : Nat := 0
  steps : Nat := 0
  total : Nat := 0
  wid : Nat := 8
  aoff : Nat := 0
  boff : Nat := 0
  hw : Nat := 0
  hs : Nat := 0
  bookA : BitVec 256 := 0
  bookB : BitVec 256 := 0
  unf : List (Nat × BitVec 256) := []
  live : List (Nat × BitVec 256) := []
  point : Nat := 0
  part : Tbl Nat := []
  open' : Tbl (List (Nat × Nat)) := []
  halt : Bool := false
  deriving DecidableEq, Repr

/-- A stop record (R223): the accumulator it belongs to (0-3, or 4 plus the layer of a pacc) and the stopped command. -/
structure StopRec where
  target : Nat
  run : CubeRun
  deriving DecidableEq, Repr

/-- A layer sequencer (R216, R369). `acted`: the action of the current state is complete, `ticks` cube ticks ago. `held`: its
context is stopped (R223). -/
structure Seq where
  running : Bool := false
  held : Bool := false
  serial : Nat := 0
  shape : ShapeReg := 0
  state : Nat := 0
  c : Tbl Nat := []
  acted : Bool := false
  ticks : Nat := 0
  deriving DecidableEq, Repr

/-- A conditional stream buffer (R188, R333): key (COLS, VCOLS, element width), records, and marks, each as the number of
records in front of it. -/
structure CondBuf where
  key : Option (Nat × Nat × Nat) := none
  recs : List Nat := []
  marks : List Nat := []
  deriving DecidableEq, Repr

/-- The lease of a cube (R29-R33): holder and requesters are `4 * core + k`; `since`: the last command number when the present run began
(R19). -/
structure Lease where
  holder : Option Nat := none
  count : Nat := 0
  grant : Nat := 0
  since : Nat := 0
  ended : Bool := false
  reqs : List Nat := []
  lastCore : Nat := 3
  lastK : Tbl Nat := []
  deriving DecidableEq, Repr

/-- A quad: its cube, lease, copy engine and conditional stream buffers (R10, R191). Accumulator words stand at
`4096 * target + 64 * row + column`, with targets 0-3 for acc0-acc3 and 4-11 for pacc of L0-L7. Face bytes stand at the
FACE address of R238 with the physical phase in bit 19; headers and fill logs at `4 * layer + 2 * face + phase`.
`planeq`: the serials in each layer's plane queue; `planes`: plane commands dispatched, with the layers that have not
finished; `log`: commands dispatched since each layer's last `cswap`, with those layers and whether they ended (R225);
`redo`: commands to dispatch again; `touched` and `recovered`: R226; `joinAt`: the number of the last join's `cdrain` (R218). `bookSeen`: the codebooks as an issue of this tick reads them
(R175). -/
structure Quad where
  lease : Lease := {}
  acc : Tbl (BitVec 32) := []
  shadow : Tbl (BitVec 32) := []
  face : Tbl Byte := []
  hdr : Tbl (BitVec 64) := []
  fills : Tbl (List (Word × Nat × Nat × Nat)) := []
  front : Nat := 0
  book : Tbl (BitVec 256) := []
  bookSeen : Tbl (BitVec 256) := []
  smeta : Tbl (BitVec 256) := []
  stab : Tbl (BitVec 128) := []
  slen : Tbl Nat := []
  seqs : Tbl Seq := []
  stops : List StopRec := []
  parked : List Cmd := []
  redo : List Cmd := []
  cmdq : List Cmd := []
  planeq : Tbl (List Nat) := []
  planes : List (Cmd × Nat) := []
  runs : List CubeRun := []
  reads : List Cmd := []
  log : List (Cmd × Nat × Bool) := []
  backs : List (Nat × Nat × Nat × Tbl Nat) := []
  undone : Tbl Nat := []
  touched : List Nat := []
  recovered : List Nat := []
  accPoison : Nat := 0
  faceBad : List Nat := []
  faceSoft : List Nat := []
  katerr : Tbl Nat := []
  katTold : Nat := 0
  bistres : Nat := 0
  wracc : Tbl Nat := []
  join : Word := 0
  fin : Tbl (Option Nat) := []
  joinAt : Nat := 0
  gov : Tbl Nat := []
  govNext : Tbl Nat := []
  copyq : List Cmd := []
  copyRun : Option Cmd := none
  copyHeld : List Cmd := []
  cond : Tbl CondBuf := []
  ctr : Tbl Nat := []
  deriving DecidableEq, Repr

/-! ### Cores -/

/-- A bucket table (R370): bounds and targets. -/
abbrev Bucket := List (Nat × Nat)

/-- A dictionary image resident in a core (R113, R347): entries as bundle numbers (entry 0 is the all-`nop` bundle), the
code stream and its literal interior bits (R349), bucket tables, kernels with `.shape` values, restartable inputs and
codebooks. -/
structure Image where
  addr : Nat := 0
  entries : List Nat := []
  stream : List Nat := []
  interior : List Bool := []
  buckets : List Bucket := []
  kernels : List (Nat × List (Option ShapeReg)) := []
  restart : List (Word × Word) := []
  books : List (Nat × BitVec 256) := []
  deriving DecidableEq, Repr

/-- A line of the Meld (R343): owner, target line, class, scope, operation, width, values by word offset. -/
structure MeldLine where
  g : Nat
  pa : Nat
  va : Word
  mods : Mods
  op : Instr
  w : Nat
  vals : List (Nat × List Nat)
  count : Nat
  deriving DecidableEq, Repr

/-- A core (R11). `badHalf`, `badEntry`: halfwords of the stream and dictionary entries with an uncorrectable error; `softHalf`,
`softEntry`: with one that a read corrects (R112). `k`: the context that issued last; before any has, the rotating order of R35 begins at k = 0. -/
structure Core where
  k : Nat := 3
  image : Option Image := none
  badHalf : List Nat := []
  badEntry : List Nat := []
  softHalf : List Nat := []
  softEntry : List Nat := []
  window : Nat := 0
  meld : List MeldLine := []
  remq : List Cmd := []
  remLoose : List Cmd := []
  issuedAt : Option Nat := none
  ctr : Tbl Nat := []
  deriving DecidableEq, Repr

/-! ### Towers -/

/-- A Deck stage (R335) and the contexts in line for it (R337). -/
structure Stage where
  bufoff : Nat := 0
  buflen : Nat := 0
  full : Bool := false
  owned : Bool := false
  owner : Nat := 0
  vf : Nat := 0
  line : List (Nat × Bool × Nat) := []
  flipped : Option Nat := none
  deriving DecidableEq, Repr

/-- A trigger entry (R388). -/
structure Trig where
  valid : Bool := false
  vf : Nat := 0
  caddr : Nat := 0
  thresh : Word := 0
  packet : BitVec 512 := 0
  deriving DecidableEq, Repr

/-- A byte-counting barrier (R392). -/
structure ByteBar where
  bound : Bool := false
  posted : Bool := false
  ovr : Bool := false
  vf : Nat := 0
  gen : Nat := 0
  watch : Nat := 0
  acc : Nat := 0
  expect : Nat := 0
  deriving DecidableEq, Repr

/-- A tower. `slots` holds the router banks at `1280 * quad + 256 * bank + entry`, bank 4 being the open table, and `bank` the active one (R367);
`trigSub`: what a host's clear takes off TRIGFREE (R402). -/
structure Tower where
  lmap : Nat := 0
  defect : Nat := 0
  vbase : Word := 0
  deck : Tbl Stage := []
  trigs : Tbl Trig := []
  fired : List (Nat × Nat) := []
  trigCmds : List Cmd := []
  trigSub : Nat := 0
  bcs : Tbl ByteBar := []
  slots : Tbl (BitVec 32) := []
  bank : Tbl Nat := []
  govcfg : Word := 0x6E325F
  deriving DecidableEq, Repr

/-! ### Virtual functions -/

/-- A walk-cache entry (R354): its eight bytes and the poison mark. -/
structure WalkEnt where
  val : Word
  poison : Bool := false
  deriving DecidableEq, Repr

/-- A save frame's occupant (R413): what the frame does not hold of the context it came from. `streams`: slots whose engine
holds tiles at a fault, or still writes them; `quad`: the quad of its stop records and parked commands (R224). The Dealer may restore it from
tick `due`. `recent`: the tick of the frame's last event records, and how many of them are of that tick (R325). -/
structure Saved where
  launch : Option Nat := none
  phase : Nat := 0
  task : Nat := 0
  stage : Nat := 0
  image : Nat := 0
  entry : Nat := 0
  largs : Word := 0
  stop : Stop := .saved
  arrivals : Tbl (Option Nat) := []
  sysc : List SyscReq := []
  quad : Option Nat := none
  cut : Bool := false
  toks : Tbl Tok := []
  streams : Tbl Stream := []
  due : Nat := 0
  recent : Nat × Nat := (0, 0)
  deriving DecidableEq, Repr

/-- A virtual function's tables (chapters 08, 13, 15). `logAt`: the place of the oldest record of a full fault log (R407). -/
structure Vf where
  part : BitVec 1024 := 0
  ranges : Tbl (BitVec 256) := []
  attrs : Tbl Word := []
  walk : List (Nat × WalkEnt) := []
  pool : Tbl (BitVec 128) := []
  used : Nat := 0
  ctr : Tbl Nat := []
  log : List (BitVec 256) := []
  logAt : Nat := 0
  logOvf : Bool := false
  services : List (Nat × Nat) := []
  saved : Tbl (Option Saved) := []
  deriving DecidableEq, Repr

/-! ### Memory ports -/

/-- What a write-queue entry does to its bytes (R341): store bits under an enable mask per byte, or a reduction. -/
inductive WqOp
  | store (cells : List Sys2Proof.Cell)
  | reduce (op : Instr) (w : Nat) (vals : List (Nat × List Nat)) (count : Nat)
  | increment (bytes : Nat)
  deriving DecidableEq, Repr

/-- A write-queue entry: the issuing context, where it goes, its class and scope, what it does, and the flag that follows its
data: physical and virtual address, and the bytes it counts (R389); `at'`: the tick of its acceptance; `asked`: that of its passing to another
target (R319). The entries of one line are the line's pending operations (R341). -/
structure WqEntry where
  n : Nat
  g : Nat
  pc : Nat := 0
  vf : Nat
  pa : Nat
  va : Word := 0
  quad : Nat := 0
  face : Bool := false
  mods : Mods
  op : WqOp
  flag : Option (Nat × Word × Nat) := none
  at' : Nat := 0
  asked : Nat := 0
  due : Nat
  deriving DecidableEq, Repr

/-- A remote-line cache line (R246). -/
structure CacheLine where
  bytes : BitVec 512
  dirty : Bool
  deriving DecidableEq, Repr

/-- An ownership-token table entry (R372); `region` is physical address over 2 MiB. `want`: packages whose `tacq` waits for a lent
token to come home, oldest first. -/
structure OwnTok where
  region : Nat
  st : Nat
  vf : Nat := 0
  holder : Nat := 0
  want : List Nat := []
  deriving DecidableEq, Repr

/-- A barrier tag (R382). `doneAt`: the tick at which it completes. -/
structure BarTag where
  parties : Nat := 0
  arrived : Nat := 0
  gen : Nat := 0
  vf : Nat := 0
  owned : Bool := false
  heldB : Bool := false
  launch : Nat := 0
  doneAt : Option Nat := none
  deriving DecidableEq, Repr

/-- An arm register (R379). -/
structure Arm where
  tick : Nat := 0
  armed : Bool := false
  elastic : Bool := false
  started : Bool := false
  slipped : Bool := false
  deriving DecidableEq, Repr

/-- An allocation that a function of this package made: home switch, tenant, number, and the function charged (R243). -/
structure PoolAlloc where
  switch : Nat
  tenant : Nat
  num : Nat
  charge : Nat
  deriving DecidableEq, Repr

/-! ### The Dealer (chapters 12, 13, 15, 16) -/

/-- An engine entry of a timetable (R358). -/
structure EngEntry where
  start : Nat
  kind : Nat
  unit : Nat
  slot : Nat
  stage : Nat
  entry : Nat
  image : Nat
  deriving DecidableEq, Repr

/-- A lease entry (R359). -/
structure LeaseEntry where
  quad : Nat
  core : Nat
  k : Nat
  start : Nat
  deriving DecidableEq, Repr

/-- A Trick entry (R360). -/
structure Trick where
  tag : Nat
  set : Nat
  bar : Nat
  comm : Nat
  deriving DecidableEq, Repr

/-- A Deck section (R361). -/
structure DeckSec where
  tower : Nat
  vbase : Word
  stages : List (Nat × Nat)
  deriving DecidableEq, Repr

/-- A phase of a timetable (R357); slot sets list (quad, table) pairs (R366). -/
structure Phase where
  elastic : Bool
  engines : List EngEntry
  leases : List LeaseEntry
  tricks : List Trick
  decks : List DeckSec
  sets : List (List (Nat × List (BitVec 32)))
  deriving DecidableEq, Repr

/-- A spare map entry (R362): slot and spare slot, as global context numbers. -/
abbrev Spare := Nat × Nat

/-- What a launch is doing: arming and running its phases, stopped by a SLIP until its policy is applied (R20), waiting to
be re-armed (R41), or retiring. -/
inductive LaunchSt | running | slipped | stopped | retiring
  deriving DecidableEq, Repr

/-- How far an engine is with an entry of a phase (R358): 1 armed, 2 started, 3 ended at tick `done'`. -/
structure EngWork where
  phase : Nat
  unit : Nat
  st : Nat := 1
  done' : Nat := 0
  deriving DecidableEq, Repr

/-- A restartable task that starts again (R418): the slot it starts in, its kernel, and the slot `gone` that the failed attempt left, whose
dispatched commands run to their ends first. -/
structure Redo where
  slot : Nat
  task : Nat
  phase : Nat
  stage : Nat
  image : Nat
  entry : Nat
  gone : Nat := 0
  deriving DecidableEq, Repr

/-- A launch from its acceptance to its retirement (R15-R20, R40). `timed`: T0 has been chosen; `armed`: phases whose arming
has begun; `begun`: phases with a started engine; `sets`: phases whose slot sets are loaded; `phase`: the latest phase that
has begun, `trick` and `commEnd` its current Trick and the end of its communication step (R360); `loaded`: cores and images
loaded for it (R348); `restarts`: the inputs that its images list, as the Dealer last read them (R348, R416); `snaps`: phases and
images whose inputs are copied, with the address, length and snapshot of each (R416); `hold`: it waits for the host (R409); `stopAt`: the
tick of the fault that holds it, `slipAt`: those of the SLIPs of its present stop, `heldAt`: slots that a fault of an ELASTIC phase holds,
with its tick (R409, R425); `yields`: the Dealer
pre-empts it for a launch that it delays (R411);
`rearms` and `reexecs`: the counts of R409, of each phase, and of R418; `leaseIx`: the planned lease runs of a quad that have begun, and
`leaseSince`: the last command of the package before the latest of them (R31, R359). -/
structure Launch where
  id : Nat
  q : Nat
  ix : Nat
  vf : Nat
  args : Word
  towers : Nat
  phases : List Phase
  spares : List Spare
  tags : List Nat
  st : LaunchSt := .running
  hold : Bool := false
  stopAt : Option Nat := none
  slipAt : List Nat := []
  heldAt : List (Nat × Nat) := []
  yields : Bool := false
  timed : Bool := false
  t0 : Nat := 0
  armed : Nat := 0
  begun : Nat := 0
  sets : Nat := 0
  phase : Nat := 0
  trick : Nat := 0
  commEnd : Option Nat := none
  work : List EngWork := []
  redos : List Redo := []
  rearms : Tbl Nat := []
  reexecs : Tbl Nat := []
  leaseIx : Tbl Nat := []
  leaseSince : Tbl Nat := []
  decksSet : Nat := 0
  loaded : List (Nat × Nat) := []
  restarts : List (Nat × List (Word × Word)) := []
  snaps : List (Nat × Nat × List (Word × Nat × Nat)) := []
  status : Nat := 0
  deriving DecidableEq, Repr

/-- A fault, SLIP or notice on its way to the Dealer (R407). -/
structure FaultNote where
  kind : Nat
  code : Nat
  vf : Nat
  g : Nat
  pc : Nat
  point : Nat
  addr : Word := 0
  tick : Nat
  launch : Option Nat := none
  cmd : Option Nat := none
  stream : Option Nat := none
  deriving DecidableEq, Repr

/-- A mapped Dealer queue (R338): its descriptor, where it was read from, and its privilege (R429). `entry`: the entry read and
not yet retired, with its number; `begun`: it is under way since tick `start`, and ends from `due`; `failed`: its transfer
failed (R430); `unmap`: the queue whose UNMAPQ waits for that entry (R340). -/
structure DQueue where
  desc : BitVec 512 := BitVec.ofNat 512 (4 * 2 ^ 64)
  addr : Nat := 0
  mapped : Bool := false
  priv : Bool := false
  entry : Option (Nat × BitVec 512) := none
  begun : Bool := false
  start : Nat := 0
  due : Nat := 0
  failed : Bool := false
  unmap : Option Nat := none
  deriving DecidableEq, Repr

/-- A load-reject record (R114): reason, entry index or halfword offset, syllable, image. -/
structure LoadReject where
  image : Nat
  reason : Nat
  place : Nat
  syl : Nat
  deriving DecidableEq, Repr

/-- The Dealer: queues, launches, requests and registers of the management window (R424, R427, R433-R440). `irqs`: host interrupts
raised, by queue, oldest first; `unmapped`: descriptors unmapped since boot, and `resets`: functions in a reset, with the
tick of its start and the queue whose command caused it (R423); `alarmed`: an alarm's kill waits for them (R425); `bring`: towers that
boot has still to bring up, and whether each comes up, with `sparse`: a sparse-path self-test to come that passes, the next of them from
tick `bringDue` (R435). -/
structure Dealer where
  queues : Tbl DQueue := []
  launches : List Launch := []
  nextLaunch : Nat := 1
  notes : List FaultNote := []
  rejects : List LoadReject := []
  irqs : List Nat := []
  pollDue : Nat := 0
  bootstate : Word := 0
  aperbase : Word := 0
  secalarm : Word := 0x40
  droopcfg : Word := 0x10287AEE
  vmargin : Tbl Word := []
  lmargin : Tbl (BitVec 128) := []
  defectCrc : Nat := 0
  launched : Bool := false
  unmapped : List Nat := []
  resets : List (Nat × Nat × Nat) := []
  alarmed : Bool := false
  bring : List (Nat × Bool) := []
  sparse : Bool := false
  bringDue : Nat := 0
  deriving DecidableEq, Repr

/-! ### The bundle being issued (R105, R106) -/

/-- A synchronous fault as met (R62, R404); `mark` is the table entry a walk found uncorrectable (R354). -/
structure FaultInfo where
  slot : Slot
  code : Nat
  point : Nat := 0
  addr : Word := 0
  mark : Option Nat := none
  deriving DecidableEq, Repr

/-- An effect that takes place although the bundle blocks (R32, R337, R384); `watch` notes the flag that a `flagwait` waits on, `await` the
commands whose tokens a `tkwait` or `fence` names (R19). -/
inductive BlockFx
  | none
  | wantStage (tower stage : Nat) (full : Bool)
  | wantLease
  | arrive (tag : Nat)
  | flush (cmask : Nat)
  | watch (pa : Nat)
  | await (cmds : List Nat)
  deriving DecidableEq, Repr

/-- What the syllables of the bundle at issue have asked for. `crel`: its slot C gives up the lease, which the other syllables still
hold (R105). -/
structure Issue where
  results : List InFlight := []
  mod : Option (BitVec 23) := none
  next : Option Nat := none
  literal : Bool := false
  fault : Option FaultInfo := none
  block : Option (Nat × BlockFx) := none
  consumed : List Nat := []
  ecc : List RegId := []
  crel : Bool := false
  deriving DecidableEq, Repr

/-! ### The package -/

/-- The package. `agenda`, `volts`, `tried`, `cur`, `issue`, `fresh` and `serial` are the model's own: the events of the outside
world in order, each with the tick from which it acts, the core voltages in mV that its droop events find, one each (R436), the contexts
that have tried their bundle in this tick (R34, R337), the context that issues, the bundle at issue, the counter behind the free values,
and the last command number. -/
structure State where
  tick : Nat := 0
  mem : List Host.Cell := []
  memBad : List Nat := []
  memSoft : List Nat := []
  wq : List WqEntry := []
  cache : List (Nat × CacheLine) := []
  ctxs : Tbl Ctx := []
  cores : Tbl Core := []
  quads : Tbl Quad := []
  towers : Tbl Tower := []
  vfs : Tbl Vf := []
  toks : List OwnTok := []
  bars : Tbl BarTag := []
  arms : Tbl Arm := []
  droop : Bool := false
  pctr : Tbl Nat := []
  allocs : List PoolAlloc := []
  lostSw : List Nat := []
  deadPeers : List Nat := []
  dealer : Dealer := {}
  agenda : List (Nat × Instr) := []
  volts : List Nat := []
  tried : List Nat := []
  cur : Nat := 0
  issue : Issue := {}
  fresh : Nat := 0
  serial : Nat := 0
  deriving DecidableEq, Repr

/-- Power-on reset, before boot step 1 has run (R435): the tick counter is 0 (R376), BOOTSTATE.STEP is 0 and nothing is
mapped, armed or running. -/
def State.reset : State := {}

end Sys2Proof.Machine
end

