-- ==== Sys2Proof/Machine/Ops.lean ====
section
/-! DEFINITION. The named operations over tables, registers and counters, results in flight (R104), event records (R324),
taking a fault (R62, R106) and the return from one (R410). -/

namespace Sys2Proof.Machine

/-! ### Sparse tables -/

/-- The entry at `k`, or `d` where none is listed. -/
def tget {α : Type} (d : α) : Tbl α → Nat → α
  | [], _ => d
  | (i, v) :: t, k => if i = k then v else tget d t k

/-- List `v` at `k`, keeping keys rising. -/
def tput {α : Type} : Tbl α → Nat → α → Tbl α
  | [], k, v => [(k, v)]
  | (i, w) :: t, k, v => if k < i then (k, v) :: (i, w) :: t else if k = i then (k, v) :: t else (i, w) :: tput t k v
/-- Write `v` at `k`, keeping keys rising and listing no default. -/
def tset {α : Type} [DecidableEq α] (d : α) (t : Tbl α) (k : Nat) (v : α) : Tbl α :=
  if v = d then t.filter fun e => e.1 ≠ k else tput t k v

/-- Keys strictly rising from `lo`, no entry equal to the default. -/
def twfFrom {α : Type} [DecidableEq α] (d : α) (lo : Nat) : Tbl α → Bool
  | [] => true
  | (i, v) :: t => decide (lo ≤ i) && decide (v ≠ d) && twfFrom d (i + 1) t

/-- The canonical form of a sparse table. -/
def twf {α : Type} [DecidableEq α] (d : α) (t : Tbl α) : Bool := twfFrom d 0 t

/-! ### Places (R10, R11, R14) -/

/-- Owners from here on are context slots whose context is gone: it halted, or a kill freed it. -/
def nobody : Nat := 8192
/-- The owner of a fired trigger packet's accesses, which no context issues (R389). -/
def packetOwner : Nat := nobody + 3072
/-- The context slot a live owner stands for. -/
def liveSlot (g : Nat) : Option Nat := if g < 3072 then some g else none
/-- The slot of a command's context, live, saved or gone. -/
def slotOf (g : Nat) : Nat := if g < 3072 then g else if g < nobody then g - 4096 else g - nobody

/-- The save frame of slot `g` as the owner of a command (R71). -/
def frameOf (g : Nat) : Nat := 4096 + g
def coreOf (g : Nat) : Nat := g / 4
def quadOf (g : Nat) : Nat := g / 16
def towerOf (g : Nat) : Nat := g / 768

def State.ctx (s : State) (g : Nat) : Ctx := tget {} s.ctxs g
def State.setCtx (s : State) (g : Nat) (c : Ctx) : State := { s with ctxs := tset {} s.ctxs g c }
def State.modCtx (s : State) (g : Nat) (f : Ctx → Ctx) : State := s.setCtx g (f (s.ctx g))
def State.core' (s : State) (c : Nat) : Core := tget {} s.cores c
def State.setCore (s : State) (c : Nat) (v : Core) : State := { s with cores := tset {} s.cores c v }
def State.modCore (s : State) (c : Nat) (f : Core → Core) : State := s.setCore c (f (s.core' c))
def State.quad (s : State) (q : Nat) : Quad := tget {} s.quads q
def State.setQuad (s : State) (q : Nat) (v : Quad) : State := { s with quads := tset {} s.quads q v }
def State.modQuad (s : State) (q : Nat) (f : Quad → Quad) : State := s.setQuad q (f (s.quad q))
def State.tower (s : State) (t : Nat) : Tower := tget {} s.towers t
def State.setTower (s : State) (t : Nat) (v : Tower) : State := { s with towers := tset {} s.towers t v }
def State.modTower (s : State) (t : Nat) (f : Tower → Tower) : State := s.setTower t (f (s.tower t))
def State.vf (s : State) (v : Nat) : Vf := tget {} s.vfs v
def State.setVf (s : State) (v : Nat) (x : Vf) : State := { s with vfs := tset {} s.vfs v x }
def State.modVf (s : State) (v : Nat) (f : Vf → Vf) : State := s.setVf v (f (s.vf v))
def State.bar (s : State) (n : Nat) : BarTag := tget {} s.bars n
def State.setBar (s : State) (n : Nat) (b : BarTag) : State := { s with bars := tset {} s.bars n b }
def State.arm (s : State) (u : Nat) : Arm := tget {} s.arms u
def State.setArm (s : State) (u : Nat) (a : Arm) : State := { s with arms := tset {} s.arms u a }
def State.modDealer (s : State) (f : Dealer → Dealer) : State := { s with dealer := f s.dealer }

/-- The context whose bundle is at issue. -/
def State.me (s : State) : Ctx := s.ctx s.cur

/-- Every engine command of the package. -/
def State.commands (s : State) : List Cmd :=
  s.cores.flatMap (fun e => e.2.remq ++ e.2.remLoose) ++
  s.quads.flatMap (fun e =>
    let x := e.2
    x.copyq ++ x.copyRun.toList ++ x.copyHeld ++ x.cmdq ++ x.parked ++ x.redo ++ x.reads ++ x.planes.map (·.1) ++
      x.runs.map (·.cmd) ++ x.stops.map fun r => r.run.cmd) ++
  s.towers.flatMap fun e => e.2.trigCmds

/-! ### Counters (R378, R402) -/

/-- Add to a saturating counter of `w` bits. -/
def satAdd (w v n : Nat) : Nat := min (v + n) (2 ^ w - 1)
/-- Counter `number` at index `i` in a table of counters. -/
def ctrKey (number i : Nat) : Nat := 16 * number + i
def ctrSat (t : Tbl Nat) (number i w n : Nat) : Tbl Nat := tset 0 t (ctrKey number i) (satAdd w (tget 0 t (ctrKey number i)) n)
def ctrWrap (t : Tbl Nat) (number i n : Nat) : Tbl Nat :=
  tset 0 t (ctrKey number i) ((tget 0 t (ctrKey number i) + n) % 2 ^ 64)
def State.vfSat (s : State) (v number i n : Nat) : State := s.modVf v fun x => { x with ctr := ctrSat x.ctr number i 32 n }
def State.ctxWrap (s : State) (g number i n : Nat) : State := s.modCtx g fun c => { c with ctr := ctrWrap c.ctr number i n }

/-! ### Registers (R47-R50) -/

def RegFile.num : RegFile → Nat
  | .s => 0 | .x => 1 | .va => 2 | .vb => 3 | .ma => 4 | .mb => 5 | .sh => 6 | .tk => 7 | .cr => 8
/-- Entries of a file (R49). -/
def RegFile.size : RegFile → Nat
  | .s | .va | .vb => 64
  | .tk => 32
  | .cr => 128
  | _ => 8
def RegId.code (r : RegId) : Nat := 64 * r.file.num + r.n
/-- Bits of a register of the file. -/
def RegFile.width : RegFile → Nat
  | .s | .cr => 64
  | .x => 16
  | .va | .vb => 4096
  | .ma | .mb => 1024
  | .sh => 128
  | .tk => 2

/-- Width-`w` truncation of a free value. -/
def State.freeBits (s : State) (w r : Nat) : BitVec w := (Config.undef s.fresh r).setWidth w

/-- A result of an earlier bundle is still on its way to the register (R36, R104). -/
def Ctx.pending (c : Ctx) (r : RegId) : Bool := c.inflight.any fun e => e.reg = r

/-- A scalar register of the issuing context: s0 is zero (R48), one in flight is undefined (R36). -/
def State.readS (s : State) (n : Nat) : Word :=
  if n = 0 then 0 else if s.me.pending ⟨.s, n⟩ then s.freeBits 64 n else tget 0 s.me.sreg n
def State.readX (s : State) (n : Nat) : BitVec 16 :=
  if s.me.pending ⟨.x, n⟩ then s.freeBits 16 (64 + n) else tget 0 s.me.xreg n
def tileFile : Cl → RegFile | .a => .va | .b => .vb
def maskFile : Cl → RegFile | .a => .ma | .b => .mb
def Ctx.tile (c : Ctx) (p : Cl) (n : Nat) : Tile := match p with | .a => tget 0 c.va n | .b => tget 0 c.vb n
def Ctx.mask (c : Ctx) (p : Cl) (n : Nat) : MaskReg := match p with | .a => tget 0 c.ma n | .b => tget 0 c.mb n
def State.readV (s : State) (p : Cl) (n : Nat) : Tile :=
  if s.me.pending ⟨tileFile p, n⟩ then s.freeBits 4096 (64 * (tileFile p).num + n) else s.me.tile p n
/-- A mask register: m0 is all ones (R48). -/
def State.readM (s : State) (p : Cl) (n : Nat) : MaskReg :=
  if n = 0 then BitVec.allOnes 1024
  else if s.me.pending ⟨maskFile p, n⟩ then s.freeBits 1024 (64 * (maskFile p).num + n) else s.me.mask p n
/-- The reset shape (R55). -/
def resetShape : ShapeReg :=
  BitVec.ofNat 128 (16 + 32 * 2 ^ 11 + 16 * 2 ^ 22 + 32 * 2 ^ 33 + 64 * 2 ^ 64 + 64 * 2 ^ 71 + 64 * 2 ^ 78 + 64 * 2 ^ 85 +
    64 * 2 ^ 92 + 64 * 2 ^ 110)
def State.readSh (s : State) (n : Nat) : ShapeReg :=
  if s.me.pending ⟨.sh, n⟩ then s.freeBits 128 (64 * 6 + n) else tget resetShape s.me.sh n
def Ctx.token (c : Ctx) (n : Nat) : Tok := tget {} c.tk n
def Ctx.setToken (c : Ctx) (n : Nat) (t : Tok) : Ctx := { c with tk := tset {} c.tk n t }
def Ctx.stream (c : Ctx) (n : Nat) : Stream := tget {} c.st n
def Ctx.setStream (c : Ctx) (n : Nat) (x : Stream) : Ctx := { c with st := tset {} c.st n x }

/-- The register number a 7-bit specifier names in a file of `F` entries (R49, R50). -/
def State.spec (s : State) (F : Nat) (x : BitVec 7) : Nat :=
  if x.toNat < 64 then x.toNat else ((s.readX (bits x.toNat 5 3)).toNat + bits x.toNat 2 0) % F

/-- Scalar operand of a specifier. -/
def State.rs (s : State) (x : BitVec 7) : Word := s.readS (s.spec 64 x)

/-! ### Results in flight (R51, R104, R105) -/

/-- s0, ma0 and mb0 discard writes (R48). -/
def RegId.discards (r : RegId) : Bool :=
  match r.file with
  | .s | .ma | .mb => r.n = 0
  | _ => false

def allBits (w : Nat) : Tile := BitVec.ofNat 4096 (2 ^ w - 1)

/-- The bundle at issue writes the bits `en` of `r`, within `lat` ticks. -/
def State.put (s : State) (r : RegId) (val en : Tile) (lat : Nat) : State :=
  if r.discards then s
  else { s with issue := { s.issue with results := s.issue.results ++ [{ reg := r, val := val, en := en, due := s.tick + lat }] } }

/-- The bundle's results in `r` come from a direct load that may still take its value (R304). -/
def State.mayWait (s : State) (r : RegId) (l : Late) : State :=
  { s with issue := { s.issue with results := s.issue.results.map fun e => if e.reg = r then { e with late := some l } else e } }

/-- A whole scalar register. -/
def State.putS (s : State) (n : Nat) (v : Word) (lat : Nat) : State := s.put ⟨.s, n⟩ (v.setWidth 4096) (allBits 64) lat
/-- Elements of a tile register. -/
def State.putV (s : State) (p : Cl) (n : Nat) (v en : Tile) (lat : Nat) : State := s.put ⟨tileFile p, n⟩ v en lat
/-- Bits of a mask register. -/
def State.putM (s : State) (p : Cl) (n : Nat) (v en : MaskReg) (lat : Nat) : State :=
  s.put ⟨maskFile p, n⟩ (v.setWidth 4096) (en.setWidth 4096) lat
/-- Fields of a shape register. -/
def State.putSh (s : State) (n : Nat) (v en : ShapeReg) (lat : Nat) : State :=
  s.put ⟨.sh, n⟩ (v.setWidth 4096) (en.setWidth 4096) lat
/-- A control register, from the next bundle onward (R60). -/
def State.putCr (s : State) (n : Nat) (v : Word) : State := s.put ⟨.cr, n⟩ (v.setWidth 4096) (allBits 64) 1

/-- A committed result joins those in flight: an older one of its register no longer writes (R51). -/
def Ctx.fly (c : Ctx) (e : InFlight) : Ctx :=
  { c with inflight := (c.inflight.map fun o => if o.reg = e.reg then { o with dead := true } else o) ++
      [{ e with mixed := c.pending e.reg }] }

/-- Write the bits `en` of a register; a write of every bit replaces an uncorrectable word (R405). -/
def Ctx.write (c : Ctx) (r : RegId) (val en : Tile) : Ctx :=
  let merge := fun (w : Nat) (old : BitVec w) => (old &&& ~~~(en.setWidth w)) ||| (val.setWidth w &&& en.setWidth w)
  let c := if en.setWidth r.file.width = BitVec.allOnes r.file.width
    then { c with poison := c.poison.filter (· ≠ r), soft := c.soft.filter (· ≠ r) } else c
  if r.discards then c else
  match r.file with
  | .s => { c with sreg := tset 0 c.sreg r.n (merge 64 (tget 0 c.sreg r.n)) }
  | .x => { c with xreg := tset 0 c.xreg r.n (merge 16 (tget 0 c.xreg r.n)) }
  | .va => { c with va := tset 0 c.va r.n (merge 4096 (tget 0 c.va r.n)) }
  | .vb => { c with vb := tset 0 c.vb r.n (merge 4096 (tget 0 c.vb r.n)) }
  | .ma => { c with ma := tset 0 c.ma r.n (merge 1024 (tget 0 c.ma r.n)) }
  | .mb => { c with mb := tset 0 c.mb r.n (merge 1024 (tget 0 c.mb r.n)) }
  | .sh => { c with sh := tset resetShape c.sh r.n (merge 128 (tget resetShape c.sh r.n)) }
  | .tk => c.setToken r.n { st := if val = 0 then .done else .doneErr }
  | .cr =>
    let v := val.setWidth 64
    match r.n with
    | 0 => { c with memdef := v &&& 0x3FFF }
    | 5 => { c with evcfg := v.toNat % 16, ovf := c.ovf && !v.getLsbD 15 }
    | 9 => { c with lp0 := v }
    | 10 => { c with lp1 := v }
    | _ => c

/-- The output stream that holds a tile register, if any (R330). -/
def Ctx.boundTo (c : Ctx) (r : RegId) : Option Nat :=
  (List.range 8).find? fun n =>
    let t := c.stream n
    t.bound && decide (t.reg = r.n) && (if t.cluster then r.file = .vb else r.file = .va)

/-- One result lands (R104); it fills the register of an output stream (R330). -/
def Ctx.landOne (c : Ctx) (free : Tile) (e : InFlight) : Ctx :=
  if e.dead then c else
  let c := if e.mixed then c.write e.reg ((e.val &&& e.en) ||| (free &&& ~~~e.en)) (allBits 4096) else c.write e.reg e.val e.en
  match c.boundTo e.reg with
  | some n => if (c.stream n).out then c.setStream n { c.stream n with rfull := true } else c
  | none => c

/-- Every result of the context whose bound has passed at `t` lands. -/
def Ctx.land (c : Ctx) (fresh t : Nat) : Ctx :=
  let due := c.inflight.filter fun e => e.due ≤ t
  due.foldl (fun c e => c.landOne (Config.undef fresh (1024 + e.reg.code)) e) { c with inflight := c.inflight.filter fun e => t < e.due }

/-! ### Event records (R323-R325) -/

/-- The record as 128 bits. -/
def EvRec.word (r : EvRec) : BitVec 128 :=
  BitVec.ofNat 128 (r.kind % 256 + r.code % 256 * 2 ^ 8 + r.tag % 65536 * 2 ^ 16 + r.time % 2 ^ 32 * 2 ^ 32 + r.payload % 2 ^ 64 * 2 ^ 64)
def EvRec.ofBits (b : BitVec 128) : EvRec :=
  { kind := bits b.toNat 7 0, code := bits b.toNat 15 8, tag := bits b.toNat 31 16, time := bits b.toNat 63 32, payload := bits b.toNat 127 64 }

/-- The token number of a command's record, bits [4:0] of its TAG; 0 for a record of another kind (R323, R324). -/
def EvRec.token (r : EvRec) : Nat := if r.kind = 1 ∨ r.kind = 0x0A then r.tag % 32 else 0
/-- Where a record goes: behind those of earlier ticks, and those of its own tick stand by KIND and then by token number (R325). -/
def insertRec (r : EvRec) : List EvRec → List EvRec
  | [] => [r]
  | e :: l =>
    if e.time = r.time ∧ (r.kind < e.kind ∨ (r.kind = e.kind ∧ r.token < e.token)) then r :: e :: l else e :: insertRec r l
/-- A queue of at most 64 records takes one more; beyond that the last in the order of R325 is dropped. -/
def postRec (r : EvRec) (l : List EvRec) : List EvRec := (insertRec r l).take 64
/-- Post a record to a live context: a full queue drops one, counts it and sets OVF (R325). -/
def Ctx.post (c : Ctx) (r : EvRec) : Ctx :=
  if c.evq.length < 64 then { c with evq := postRec r c.evq }
  else { c with evq := postRec r c.evq, ovf := true, ctr := ctrSat c.ctr 0x13 0 32 1 }

/-! ### Control registers -/

/-- LMAP of a tower, GOVSTEP of a quad and KQUOTA of a function (R66-R68). -/
def govWord (q : Quad) : Word :=
  let steps := (List.range 8).map fun i => tget 0 q.gov i
  BitVec.ofNat 64 (((List.range 8).foldl (fun a i => a + tget 0 q.gov i % 8 * 2 ^ (3 * i)) 0) + (steps.foldl max 0) % 8 * 2 ^ 24)

/-! ### Taking a fault (R62, R106, R107, R406, R407) and returning from one (R410) -/

/-- A walk found table entry `a` uncorrectable: the cached entry is marked and the error counted once (R354, R402). -/
def State.markWalk (s : State) (v a : Nat) : State :=
  if (s.vf v).walk.any fun e => e.1 = a && e.2.poison then s
  else s.modVf v fun x =>
    let walk := (a, { val := 0, poison := true }) :: x.walk.filter fun e => e.1 ≠ a
    { x with walk := walk, ctr := ctrSat (ctrSat x.ctr 0x1A 0 32 1) 0x11 (if a < 0x100000000000 then 2 else 3) 32 1 }

/-- FAULTPT as R62 lays it out. -/
def faultWord (point code slot kind : Nat) : Word :=
  BitVec.ofNat 64 (point % 2 ^ 32 + code % 256 * 2 ^ 32 + slot % 8 * 2 ^ 40 + kind % 2 * 2 ^ 43 + 2 ^ 44)

/-- The issuing context takes a synchronous fault: FAULTPT and FAULTPC are written, the context stops, and the Dealer
receives the record. Nothing else of the bundle happens. -/
def State.takeFault (s : State) (f : FaultInfo) : State :=
  let c := s.me
  let fpt := faultWord f.point f.code f.slot.num 0
  let s := match f.mark with | some a => s.markWalk c.vfid a | none => s
  let s := s.modCtx s.cur fun c => { c with faultpt := fpt, faultpc := c.pc, state := 3, wait := 0, stop := .faulted }
  let note : FaultNote :=
    { kind := 0, code := f.code, vf := c.vfid, g := s.cur, pc := c.pc, point := fpt.toNat, addr := f.addr,
      tick := s.tick, launch := c.launch }
  { s with
    issue := { s.issue with fault := some f },
    dealer := { s.dealer with notes := s.dealer.notes ++ [note] } }

/-- The return from a fault: the context runs again, VALID is cleared (R62), and the faulting bundle issues again. -/
def Ctx.resume (c : Ctx) : Ctx :=
  { c with faultpt := c.faultpt &&& ~~~(BitVec.ofNat 64 (2 ^ 44)), state := 1, wait := 0, stop := .running }

/-- How a meaning ends without committing: a fault (R106) or a block (R34). -/
inductive Halt
  | fault (code point : Nat) (addr : Word) (mark : Option Nat)
  | block (wait : Nat) (fx : BlockFx)
  deriving DecidableEq, Repr

/-- A fault with no row and no address. -/
def Halt.code (c : Nat) : Halt := .fault c 0 0 none
/-- Go on when the condition holds, else fault. -/
def ensure (b : Bool) (code : Nat) : Except Halt Unit := if b then .ok () else .error (.code code)
/-- Go on when the condition holds, else block. -/
def unblocked (b : Bool) (wait : Nat) (fx : BlockFx := .none) : Except Halt Unit := if b then .ok () else .error (.block wait fx)

end Sys2Proof.Machine
end

