-- ==== Sys2Proof/Machine/Memory.lean ====
section
/-! DEFINITION. Memory: the physical windows (R236), translation (R235, R350-R355), face addresses (R238), Kitty addresses
(R242), bytes and their error marks (R250), remote-line caches (R246), the write queues (R341), triggers and byte-counting
barriers (R390-R393), and the Meld (R343, R344). -/

namespace Sys2Proof.Machine

/-! ### Bytes -/

/-- A memory byte; one never written reads as zero. -/
def byteAt (m : List Host.Cell) (a : Nat) : Byte := tget (0 : Byte) m a
def setByte (m : List Host.Cell) (a : Nat) (b : Byte) : List Host.Cell := tset (0 : Byte) m a b
/-- The canonical form of memory. -/
def memWf (m : List Host.Cell) : Bool := twf (0 : Byte) m
/-- `n` bytes from `a`, little-endian (R3). -/
def leRead (m : List Host.Cell) (a : Nat) : Nat → Nat
  | 0 => 0
  | n + 1 => (byteAt m a).toNat + 256 * leRead m (a + 1) n
/-- The low `n` bytes of `v`, little-endian, from `a`. -/
def leWrite (m : List Host.Cell) (a v : Nat) : Nat → List Host.Cell
  | 0 => m
  | n + 1 => leWrite (setByte m a (BitVec.ofNat 8 v)) (a + 1) (v / 256) n

/-! ### Physical windows (R236, R239, R428) -/

/-- Tier of a physical address: 2 TSRAM, 3 HBM, 4 PEER, 5 KITTY, 6 host, 0 unmapped. -/
def tierOf (pa : Nat) : Nat :=
  if 0x1000000000 ≤ pa ∧ pa < 0x1040000000 ∧ pa % 0x10000000 < 0x8000000 then 2
  else if 0x100000000000 ≤ pa ∧ pa < 0x108000000000 then 3
  else if pa / 2 ^ 56 = 1 then 4
  else if pa / 2 ^ 52 = 0x20 then 5
  else if pa / 2 ^ 52 = 0x30 then 6
  else 0
/-- HBM stack of an HBM address (R239). -/
def stackOf (pa : Nat) : Nat := bits (pa - 0x100000000000) 14 12
/-- Tower whose port owns a TSRAM or HBM address. -/
def portTower (pa : Nat) : Nat :=
  if tierOf pa = 2 then (pa - 0x1000000000) / 0x10000000 else stackOf pa / 2
/-- First byte of the protected unit (TSRAM word or HBM sector) that holds `pa` (R248). -/
def eccUnit (pa : Nat) : Nat := if tierOf pa = 3 then pa / 32 * 32 else pa / 8 * 8
def eccSize (pa : Nat) : Nat := if tierOf pa = 3 then 32 else 8
/-- The 2 MiB token region of a physical address (R246). -/
def regionOf (pa : Nat) : Nat := pa / 0x200000
/-- TSRAM byte `x` of tower `t`. -/
def tsram (t x : Nat) : Nat := 0x1000000000 + 0x10000000 * t + x
/-- HBM byte `p` (R239). -/
def hbm (p : Nat) : Nat := 0x100000000000 + p

/-! ### Format attributes (R350) -/

def fmtOf (f : BitVec 40) : BitVec 5 := f.extractLsb' 0 5
def bgeomOf (f : BitVec 40) : Nat := bits f.toNat 7 5
def cbslotOf (f : BitVec 40) : Nat := bits f.toNat 11 8
def tspOf (f : BitVec 40) : Bool := f.getLsbD 12
/-- E2M1, CB4, E4M3 or E5M2: the formats that a load decodes (R88). -/
def decodes (t : BitVec 5) : Bool := t = 0x0A || t = 0x0B || t = 0x0C || t = 0x0D
def fmtLegal (f : BitVec 40) : Bool :=
  let t := fmtOf f
  decide (fmtWidth t ≠ 0) && decide (bgeomOf f < 5) && (decide (bgeomOf f = 0) || decodes t) &&
    (decide (cbslotOf f = 0) || isCB4 t) && (!tspOf f || decodes t)

/-! ### Translation (R235, R351-R355) -/

/-- A translated address: where it lies, its format attribute (none for untyped parts, R478), the entry that maps it, and
the table entries its walk read. -/
structure Xlate where
  pa : Nat
  tier : Nat
  fmt : Option (BitVec 40) := none
  map : Nat := 0
  r : Bool := true
  w : Bool := true
  tokreq : Bool := false
  lost : Bool := false
  fills : List (Nat × Word) := []
  deriving DecidableEq, Repr

/-- A TIER that an entry may name: 2 TSRAM, 3 HBM or 4 PEER (R351, R353). -/
def pageTier (t : Nat) : Bool := decide (2 ≤ t ∧ t ≤ 4)
/-- A range entry that counts as valid (R351). -/
def rangeValid (e : Nat) : Bool :=
  bit e 192 && decide (bits e 63 0 ≤ bits e 127 64) && decide (bits e 63 0 % 4096 = 0) &&
    decide ((bits e 127 64 + 1 - bits e 63 0) % 4096 = 0) && decide (bits e 185 128 % 4096 = 0) &&
    pageTier (bits e 197 195) && decide (bits e 191 186 = 0) && !bit e 199 && decide (bits e 255 240 = 0)

/-- The lowest-numbered valid range entry that covers `a`. -/
def rangeHit (x : Vf) (a : Nat) : Option Xlate :=
  (List.range 32).findSome? fun i =>
    let e := (tget 0 x.ranges i).toNat
    if rangeValid e && decide (bits e 63 0 ≤ a ∧ a ≤ bits e 127 64) then
      some { pa := bits e 185 128 + (a - bits e 63 0), tier := bits e 197 195, fmt := some (BitVec.ofNat 40 (bits e 239 200)),
             map := i, r := bit e 193, w := bit e 194, tokreq := bit e 198 }
    else none

/-- A bad unit meets `n` bytes from `a`. -/
def badIn (l : List Nat) (a n : Nat) : Bool := l.any fun u => decide (u < a + n) && decide (a < u + eccSize u)

/-- One table entry through the walk cache: the cached value or memory's, as a free choice, until an invalidation (R355). -/
def State.walkRead (s : State) (v pa : Nat) : Except Halt Word :=
  let cached := ((s.vf v).walk.find? fun e => e.1 = pa).map (·.2)
  match cached with
  | some e =>
    if e.poison then .error (.fault 0x14 0 0 none)
    else if Config.choice s.fresh pa || badIn s.memBad pa 8 then .ok e.val
    else .ok (BitVec.ofNat 64 (leRead s.mem pa 8))
  | none =>
    if badIn s.memBad pa 8 then .error (.fault 0x14 0 0 (some pa)) else .ok (BitVec.ofNat 64 (leRead s.mem pa 8))

/-- The page walk from a table of level `lv` (R352, R353). -/
def State.walk (s : State) (v a : Nat) : Nat → Nat → List (Nat × Word) → Except Halt Xlate
  | 0, table, fills => do
    let pa := table + 8 * bits a 20 12
    if tierOf pa ≠ 2 ∧ tierOf pa ≠ 3 then .error (.code 0x10) else
    let e ← s.walkRead v pa
    leaf e.toNat 12 (fills ++ [(pa, e)])
  | lv + 1, table, fills => do
    let pa := table + 8 * bits a (20 + 9 * (lv + 1)) (12 + 9 * (lv + 1))
    if tierOf pa ≠ 2 ∧ tierOf pa ≠ 3 then .error (.code 0x10) else
    let e ← s.walkRead v pa
    let fills := fills ++ [(pa, e)]
    let n := e.toNat
    if !bit n 0 ∨ bits n 11 10 ≠ 0 ∨ bits n 63 58 ≠ 0 then .error (.code 0x10)
    else if bit n 1 then (if lv + 1 = 3 then .error (.code 0x10) else leaf n (12 + 9 * (lv + 1)) fills)
    else if bits n 9 4 ≠ 0 then .error (.code 0x10)
    else s.walk v a lv (bits n 57 12 * 4096) fills
where
  /-- A leaf that maps `2 ^ sh` bytes. -/
  leaf (n sh : Nat) (fills : List (Nat × Word)) : Except Halt Xlate :=
    let at' := (tget 0 (s.vf v).attrs (bits n 9 4)).toNat
    let base := bits n 57 12 * 4096
    if !bit n 0 ∨ !bit n 1 ∨ bits n 11 10 ≠ 0 ∨ bits n 63 58 ≠ 0 ∨ base % 2 ^ sh ≠ 0 ∨ bits at' 63 44 ≠ 0 ∨ !pageTier (bits at' 42 40) then
      .error (.code 0x10)
    else .ok { pa := base + a % 2 ^ sh, tier := bits at' 42 40, fmt := some (BitVec.ofNat 40 (bits at' 39 0)),
               map := 64 + a / 2 ^ sh * 2 ^ sh, r := bit n 2, w := bit n 3, tokreq := bit at' 43, fills := fills }

/-- The partition check (R373). -/
def partOk (p : Nat) (pa : Nat) : Bool :=
  if tierOf pa = 2 then
    let t := portTower pa
    let off := (pa - tsram t 0) / 2 ^ 20
    let base := bits p (256 + 16 * t + 7) (256 + 16 * t)
    decide (base ≤ off ∧ off < base + bits p (256 + 16 * t + 15) (256 + 16 * t + 8))
  else if tierOf pa = 3 then
    let g := (pa - hbm 0) / 2 ^ 30
    let inside := fun b l : Nat => decide (b ≤ g ∧ g < b + l)
    inside (bits p 329 320) (bits p 339 330) || inside (bits p 349 340) (bits p 359 350)
  else true

/-- A virtual address that lies in the Kitty window (R242). -/
def isKitty (va : Word) : Bool := decide (bits va.toNat 63 48 = 0xFFFF)

/-- A Kitty address (R242): its switch holds it, and a LOST allocation is marked. -/
def State.xkitty (s : State) (v : Nat) (va : Word) : Except Halt Xlate :=
  let a := va.toNat
  let e := (tget 0 (s.vf v).pool (bits a 47 36)).toNat
  if isKitty va && bit e 0 && decide (bits a 35 0 < bits e 124 104 * 0x10000) then
    .ok { pa := 2 ^ 57 + bits e 15 4 * 2 ^ 40 + (bits e 103 64 + bits a 35 0) % 2 ^ 40, tier := 5,
          map := 2 ^ 60 + bits a 47 36, lost := decide (bits e 2 1 = 2) }
  else .error (.fault 0x10 0 va none)

/-- This package holds the ownership token of the region of `pa` (R246). -/
def State.hasToken (s : State) (pa : Nat) : Bool := s.toks.any fun t => t.region = regionOf pa && t.st = 0

/-- TOKEN (R247): token-cached, or a token-required page, without the token. -/
def State.tokenOk (s : State) (x : Xlate) (cache : Nat) : Bool :=
  !((x.tokreq || (decide (4 ≤ x.tier) && cache = 2)) && !s.hasToken x.pa)

/-- Map a virtual address of function `v` (R235, R350-R352): BAD_ADDRESS or TRANSLATE_POISON where it does not map. -/
def State.xmap (s : State) (v : Nat) (va : Word) : Except Halt Xlate := do
  let x ←
    if isKitty va then s.xkitty v va
    else match rangeHit (s.vf v) va.toNat with
      | some x => .ok x
      | none =>
        if bits va.toNat 63 48 ≠ 0 then .error (.fault 0x10 0 va none)
        else match s.walk v va.toNat 3 (bits (s.vf v).part.toNat 447 384) [] with
          | .ok x => .ok x
          | .error (.fault c p _ m) => .error (.fault c p va m)
          | .error h => .error h
  if x.tier ≠ tierOf x.pa ∨ !((x.fmt.map fmtLegal).getD true) then .error (.fault 0x10 0 va none) else .ok x

/-- Permissions and the partition: PROTECT (R235). -/
def State.permOk (s : State) (v : Nat) (x : Xlate) (rd wr : Bool) : Bool :=
  (!rd || x.r) && (!wr || x.w) && partOk (s.vf v).part.toNat x.pa

/-- What tells two parts of an access apart (R240): the entry that maps them, the HBM stripe, the PEER window or switch, and the token
region, of which PEER and KITTY alone have any (R246). -/
def Xlate.part (x : Xlate) : Nat × Nat × Nat :=
  (x.map, if x.tier = 3 then x.pa / 4096 else x.pa / 2 ^ 40, if 4 ≤ x.tier then regionOf x.pa else 0)
/-- Two addresses lie in one part; one that does not map is a part by itself. -/
def State.samePart (s : State) (v : Nat) (a b : Word) : Bool :=
  match s.xmap v a, s.xmap v b with
  | .ok x, .ok y => decide (x.part = y.part)
  | _, _ => decide (a = b)
/-- Map a virtual address, check its permissions (PROTECT) and then the token (TOKEN). -/
def State.xlate (s : State) (v : Nat) (va : Word) (rd wr : Bool) (cache : Nat) : Except Halt Xlate := do
  let x ← s.xmap v va
  if !s.permOk v x rd wr then .error (.fault 0x11 0 va none)
  else if !s.tokenOk x cache then .error (.fault 0x13 0 va none)
  else .ok x

/-! ### Errors met, and what a walk leaves behind (R248, R250, R354, R402) -/

/-- The tier of a protected word as R324 and R402 number it: a word of PEER or KITTY lies in a remote-line cache, tier 4. -/
def eccTier (pa : Nat) : Nat := min (tierOf pa) 4
/-- Units with a corrected error among `n` bytes. -/
def State.softWords (s : State) (pa n : Nat) : List Nat := s.memSoft.filter fun u => decide (u < pa + n) && decide (pa < u + eccSize u)
/-- Corrected units among `n` bytes are counted for function `v`. -/
def State.countSoft (s : State) (v pa n : Nat) : State := (s.softWords pa n).foldl (fun s u => s.vfSat v 0x10 (eccTier u) 1) s
/-- Uncorrectable units among `n` bytes are consumed: each is counted. -/
def State.countBad (s : State) (v pa n : Nat) : State :=
  (s.memBad.filter fun u => decide (u < pa + n) && decide (pa < u + eccSize u)).foldl (fun s u => s.vfSat v 0x11 (eccTier u) 1) s
/-- Entries that a walk read from memory: those that the cache did not hold. -/
def State.freshReads (s : State) (v : Nat) (fills : List (Nat × Word)) : List (Nat × Word) :=
  fills.filter fun e => !(s.vf v).walk.any fun w => w.1 = e.1
/-- The walk cache keeps the entries a walk read, and an error corrected in one that it did not hold is counted. -/
def State.keepWalk (s : State) (v : Nat) (fills : List (Nat × Word)) : State :=
  if fills.isEmpty then s else
  ((s.freshReads v fills).foldl (fun s e => s.countSoft v e.1 8) s).modVf v fun f =>
    { f with walk := fills.foldl (fun w e => (e.1, { val := e.2 }) :: w.filter fun o => o.1 ≠ e.1) f.walk }
/-- A table entry that leads on to the next level (R352, R353). -/
def pointsOn (n : Nat) : Bool :=
  bit n 0 && !bit n 1 && decide (bits n 11 10 = 0) && decide (bits n 63 58 = 0) && decide (bits n 9 4 = 0)
/-- The entries that a walk of `a` reads from a table of level `lv` on, however it ends. -/
def State.walkTrace (s : State) (v a : Nat) : Nat → Nat → List (Nat × Word)
  | lv, table =>
    let pa := table + 8 * bits a (20 + 9 * lv) (12 + 9 * lv)
    if tierOf pa ≠ 2 ∧ tierOf pa ≠ 3 then [] else
    match s.walkRead v pa with
    | .error _ => []
    | .ok e => (pa, e) :: match lv with | 0 => [] | k + 1 => if pointsOn e.toNat then s.walkTrace v a k (bits e.toNat 57 12 * 4096) else []
/-- The entries that the translation of `va` reads, which a Kitty address, a range entry's and one beyond the tables do not. -/
def State.walkOf (s : State) (v : Nat) (va : Word) : List (Nat × Word) :=
  if isKitty va || (rangeHit (s.vf v) va.toNat).isSome || decide (bits va.toNat 63 48 ≠ 0) then []
  else s.walkTrace v va.toNat 3 (bits (s.vf v).part.toNat 447 384)

/-- The error code of a target that cannot be reached: POOL_LOST or PEER_FAIL (R245, R273). -/
def State.targetError (s : State) (x : Xlate) : Option Nat :=
  if x.tier = 5 ∧ (x.lost ∨ s.lostSw.contains (bits x.pa 51 40)) then some 0x21
  else if x.tier = 4 ∧ s.deadPeers.contains (bits x.pa 55 40) then some 0x22
  else none

/-! ### Face addresses (R238, R191) -/

/-- Physical phase of the front (`back = false`) or back phase of a face. -/
def facePhase (q : Quad) (layer face : Nat) (back : Bool) : Nat :=
  let f := if bit q.front (2 * layer + face) then 1 else 0
  if back then 1 - f else f
def faceKey (layer face phase off : Nat) : Nat := layer * 2 ^ 20 + phase * 2 ^ 19 + face * 2 ^ 18 + off
def hdrKey (layer face phase : Nat) : Nat := 4 * layer + 2 * face + phase
/-- The reset header: TSCALE 1.0 (R196). -/
def resetHdr : BitVec 64 := BitVec.ofNat 64 (0x3F80 * 2 ^ 16)
/-- The key of `n` bytes at a FACE address, or BAD_ADDRESS. -/
def faceAddr (q : Quad) (va : Word) (n : Nat) : Except Halt Nat :=
  let a := va.toNat
  if bits a 63 23 ≠ 0 ∨ bits a 17 0 + n > 2 ^ 18 then .error (.fault 0x10 0 va none)
  else
    let layer := bits a 22 20
    let face := bits a 18 18
    .ok (faceKey layer face (facePhase q layer face (bit a 19)) (bits a 17 0))
/-- `n` bytes of the faces from a key. -/
def faceRead (q : Quad) (k n : Nat) : Nat := leRead q.face k n

/-! ### Reading memory and the remote-line caches (R246, R247) -/

/-- A byte as this package reads it: a cached line, else the home. -/
def State.byte (s : State) (pa : Nat) : Byte :=
  match s.cache.find? fun l => l.1 = pa / 64 with
  | some l => (l.2.bytes.extractLsb' (8 * (pa % 64)) 8)
  | none => byteAt s.mem pa
/-- `n` bytes from `pa`, little-endian. -/
def State.readLe (s : State) (pa : Nat) : Nat → Nat
  | 0 => 0
  | n + 1 => (s.byte pa).toNat + 256 * s.readLe (pa + 1) n
/-- `n` bytes from `pa` with 0xFF where a unit is uncorrectable (R250). -/
def State.readFF (s : State) (pa : Nat) : Nat → Nat
  | 0 => 0
  | n + 1 => (if badIn s.memBad pa 1 then 255 else (s.byte pa).toNat) + 256 * s.readFF (pa + 1) n

/-- Write a line back to its home. -/
def writeBack (m : List Host.Cell) (l : Nat × CacheLine) : List Host.Cell :=
  if l.2.dirty then leWrite m (64 * l.1) l.2.bytes.toNat 64 else m
/-- Lines the caches of four towers hold (R246). -/
def cacheLines : Nat := 131072
/-- Bring a line in, first in line for replacement when streaming; a full cache writes its first line back and drops it. -/
def State.cacheFill (s : State) (line : Nat) (streaming : Bool) : State :=
  if s.cache.any fun l => l.1 = line then s else
  let s := if s.cache.length < cacheLines then s else
    match s.cache with
    | [] => s
    | l :: rest => { s with cache := rest, mem := writeBack s.mem l }
  let l := (line, ({ bytes := BitVec.ofNat 512 (leRead s.mem (64 * line) 64), dirty := false } : CacheLine))
  { s with cache := if streaming then l :: s.cache else s.cache ++ [l] }
/-- A read of a PEER or KITTY part brings its lines in when the package holds the token (R247). -/
def State.cacheRead (s : State) (pa n cache : Nat) : State :=
  if tierOf pa < 4 ∨ !s.hasToken pa ∨ cache = 1 then s
  else (List.range ((pa + n + 63) / 64 - pa / 64)).foldl (fun s i => s.cacheFill (pa / 64 + i) (cache = 3)) s
/-- Write every dirty line that satisfies `p` back, keeping it clean. -/
def State.cleanLines (s : State) (p : Nat → Bool) : State :=
  { s with
    mem := s.cache.foldl (fun m l => if p l.1 then writeBack m l else m) s.mem
    cache := s.cache.map fun l => if p l.1 then (l.1, { l.2 with dirty := false }) else l }
/-- Drop every line that satisfies `p` without writing it back. -/
def State.dropLines (s : State) (p : Nat → Bool) : State := { s with cache := s.cache.filter fun l => !p l.1 }
/-- The lines of a token region. -/
def inRegion (r : Nat) (line : Nat) : Bool := line / 32768 = r

/-- Write one byte's enabled bits where this package's copy stands. -/
def State.putByte (s : State) (pa : Nat) (v en : Byte) : State :=
  match s.cache.find? fun l => l.1 = pa / 64 with
  | some _ =>
    { s with cache := s.cache.map fun l =>
        if l.1 = pa / 64 then
          let sh := 8 * (pa % 64)
          let e : BitVec 512 := en.setWidth 512 <<< sh
          (l.1, { bytes := (l.2.bytes &&& ~~~e) ||| ((v &&& en).setWidth 512 <<< sh), dirty := true })
        else l }
  | none => { s with mem := setByte s.mem pa ((byteAt s.mem pa &&& ~~~en) ||| (v &&& en)) }

/-- A write of every byte of a protected unit clears its error mark (R250). -/
def clearBad (bad : List Nat) (pa : Nat) (cells : List Sys2Proof.Cell) : List Nat :=
  bad.filter fun u => !(List.range (eccSize u)).all fun i => cells.any fun c => pa + c.off = u + i && c.en = 0xFF

/-- The bytes of a write land. -/
def State.storeCells (s : State) (pa : Nat) (cells : List Sys2Proof.Cell) (cache : Nat) : State :=
  let s := if tierOf pa ≥ 4 ∧ s.hasToken pa ∧ cache ≠ 1 ∧ !cells.isEmpty then
      cells.foldl (fun s c => s.cacheFill ((pa + c.off) / 64) (cache = 3)) s else s
  let s := cells.foldl (fun s c => s.putByte (pa + c.off) c.val c.en) s
  let s := if cache = 3 then s.cleanLines (fun l => cells.any fun c => (pa + c.off) / 64 = l) else s
  { s with memBad := clearBad s.memBad pa cells, memSoft := clearBad s.memSoft pa cells }

/-! ### Dealer queue descriptors and doorbells (R338, R340) -/

/-- Bits [hi:lo] of a descriptor replaced. -/
def setBits {w : Nat} (d : BitVec w) (hi lo v : Nat) : BitVec w :=
  let m := BitVec.ofNat w ((2 ^ (hi + 1 - lo) - 1) * 2 ^ lo)
  (d &&& ~~~m) ||| (BitVec.ofNat w (v % 2 ^ (hi + 1 - lo) * 2 ^ lo))

/-- The queue whose descriptor stands at physical address `pa`, if the Dealer has it mapped. -/
def Dealer.queueAt (d : Dealer) (pa : Nat) : Option (Nat × DQueue) := d.queues.find? fun e => e.2.mapped && e.2.addr = pa

/-! ### Write queues, triggers and byte-counting barriers -/

/-- Two entries of one line. -/
def WqEntry.sameLine (x e : WqEntry) : Bool := x.pa / 64 = e.pa / 64 && x.face = e.face && x.quad = e.quad
/-- A reduction's entry, which no later access of its context follows (R316). -/
def WqEntry.isReduce (x : WqEntry) : Bool := match x.op with | .reduce _ _ _ _ => true | _ => false
/-- An entry `x` accepted before `e` is performed before it: an earlier access of its context and class (R301, R316), or one of its
line (R341). -/
def WqEntry.before (x e : WqEntry) : Bool := (x.g = e.g && x.mods.cls = e.mods.cls && !x.isReduce) || x.sameLine e
/-- Contributions to one line, those of `b` after those of `a`. -/
def joinVals (a b : List (Nat × List Nat)) : List (Nat × List Nat) :=
  b.foldl (fun a e => if a.any fun x => x.1 = e.1 then a.map fun x => if x.1 = e.1 then (x.1, x.2 ++ e.2) else x else a ++ [e]) a
/-- A reduction joins the pending reduction of its line with its context, class, operation and width (R289, R315, R341). -/
def WqEntry.join (x e : WqEntry) : Option WqEntry :=
  match x.op, e.op with
  | .reduce i w a n, .reduce j u b m =>
    if x.sameLine e ∧ x.g = e.g ∧ x.mods.cls = e.mods.cls ∧ i = j ∧ w = u then
      some { x with op := .reduce i w (joinVals a b) (n + m), mods := { x.mods with scope := max x.mods.scope e.mods.scope } }
    else none
  | _, _ => none
/-- A store of a context may be accepted before its own waiting stores of other classes, even to one line (R302): after the last entry
that it must follow. -/
def WqEntry.acceptIn (e : WqEntry) (l : List WqEntry) : List WqEntry :=
  let must := fun x : WqEntry => (x.g = e.g && x.mods.cls = e.mods.cls) || (x.sameLine e && x.g ≠ e.g)
  let tail := (l.reverse.takeWhile fun x => !must x).reverse
  l.take (l.length - tail.length) ++ e :: tail
/-- Ticks that an access waits: below the bound of its tier where it has one; 7 is the TSRAM of another tower (R233). -/
def tierDelay (tier n k : Nat) : Nat :=
  match tier with
  | 1 => Config.delay n k % 16
  | 2 => Config.delay n k % 32
  | 3 => Config.delay n k % 1024
  | 7 => Config.delay n k % 56
  | _ => Config.delay n k
/-- The tier of an engine's access from tower `t` to several addresses: the one with the farthest bound (R233). -/
def farthest (t : Nat) (pas : List Nat) : Nat :=
  if pas.any fun a => decide (4 ≤ tierOf a) then 4
  else if pas.any fun a => decide (tierOf a = 3) then 3
  else if pas.any fun a => tierOf a = 2 && decide (portTower a ≠ t) then 7
  else 2
/-- A new entry of the write queues: a reduction may join the last entry of its line, and a store takes its place among its
context's. -/
def State.enqueue (s : State) (e : WqEntry) : State :=
  let n := s.serial + 1
  let e := { e with n := n, at' := s.tick, due := s.tick + 1 + tierDelay (if e.face then 1 else tierOf e.pa) n 0 }
  let wq :=
    match (s.wq.reverse.find? fun x => x.sameLine e).bind fun x => (x.join e).map fun y => (x.n, y) with
    | some (k, y) => s.wq.map fun x => if x.n = k then y else x
    | none =>
      match e.op with
      | .store _ => if Config.choice n 7 then e.acceptIn s.wq else s.wq ++ [e]
      | _ => s.wq ++ [e]
  { s with serial := n, wq := wq }

/-- The write queue of an address (R321): a bank port of its tower's TSRAM, a channel of its HBM stack, or one of the eight fabric ports;
which of them the manual leaves open. DEDUCED: a tower's TSRAM has 48 banks, the bits in which BIST reports the failing ones (R440, log 74). -/
def portOf (pa : Nat) : Nat × Nat :=
  match tierOf pa with
  | 2 => (portTower pa, Config.port (pa / 64) % 48)
  | 3 => (4 + stackOf pa, Config.port (pa / 64))
  | _ => (12, Config.port (pa / 64) % 8)
/-- Lines that wait at a memory port (R321). -/
def State.portLines (s : State) (p : Nat × Nat) : List Nat :=
  ((s.wq.filter fun e => !e.face && portOf e.pa = p).map fun e => e.pa / 64).eraseDups
/-- A memory port takes a line from an engine: 8 of its 64 entries are kept for FM stores (R341). -/
def State.portRoom (s : State) (pa : Nat) : Bool :=
  let l := s.portLines (portOf pa)
  decide (l.length < 56) || l.contains (pa / 64)
/-- A memory port holds more than its 64 lines: its array takes the next at once, and no bundle waits (R321, R341). -/
def State.portOver (s : State) (e : WqEntry) : Bool := !e.face && decide (64 < (s.portLines (portOf e.pa)).length)

def State.modBc (s : State) (t n : Nat) (f : ByteBar → ByteBar) : State :=
  s.modTower t fun w => { w with bcs := tset {} w.bcs n (f (tget {} w.bcs n)) }

/-- A byte-counting barrier fires when its posted count is reached, at the end of a tick (R393). -/
def ByteBar.fire (b : ByteBar) : ByteBar :=
  if b.posted ∧ b.expect ≤ b.acc then
    { b with acc := b.acc - b.expect, ovr := decide (b.expect < b.acc), posted := false, gen := (b.gen + 1) % 2 ^ 16 }
  else b

/-- A flag increment adds its bytes to every barrier that watches the word (R392). -/
def State.countBytes (s : State) (pa bytes : Nat) : State :=
  let t := portTower pa
  (List.range 16).foldl (fun s n => s.modBc t n fun b =>
    if b.bound ∧ b.watch = pa then { b with acc := (b.acc + bytes) % 2 ^ 64 } else b) s

/-- The doorbell of a trigger packet (R389): TAIL of the queue whose descriptor is at `pa` counts one more. -/
def State.ringTail (s : State) (v pa : Nat) : Option State :=
  match s.dealer.queueAt pa with
  | some (i, q) =>
    if bits q.desc.toNat 71 69 = v then
      let d := setBits q.desc 127 96 (bits q.desc.toNat 127 96 + 1)
      let q' : DQueue := { q with desc := if q.unmap.isSome then setBits d 74 74 1 else d }
      some (s.modDealer fun d => { d with queues := tset {} d.queues i q' })
    else none
  | none =>
    let d := leRead s.mem pa 64
    if bits d 71 69 = v then
      some { s with mem := leWrite (leWrite s.mem (pa + 12) (bits d 127 96 + 1) 4) (pa + 9) (bits d 79 72 ||| 4) 1 }
    else none

/-- What a translation that no context asked for leaves behind: the entries read, and the mark of one that is uncorrectable. -/
def State.walkKept (s : State) (v : Nat) (va : Word) : State :=
  let t := s.keepWalk v (s.walkOf v va)
  match s.xmap v va with
  | .error (.fault _ _ _ (some a)) => t.markWalk v a
  | _ => t
/-- What the translations of a fired packet leave behind (R354, R389). -/
def State.packetWalks (s : State) (v : Nat) (p : Nat) : State :=
  let fl := BitVec.ofNat 64 (bits p 191 128)
  let s := s.walkKept v (BitVec.ofNat 64 (bits p 127 64))
  if bits p 3 0 = 1 ∧ fl ≠ 0 then s.walkKept v fl else s
/-- What a fired packet does (R389): its accesses enter the write queues; `none` when the fire is dropped (R390). -/
def State.firePacket (s : State) (v : Nat) (p : Nat) : Option State :=
  let addr := BitVec.ofNat 64 (bits p 127 64)
  let fl := BitVec.ofNat 64 (bits p 191 128)
  let wr := fun a : Word => (s.xlate v a false true 0).toOption
  match bits p 3 0 with
  | 0 => (wr addr).bind fun x => s.ringTail v x.pa
  | 1 =>
    (wr addr).bind fun x =>
      let n := bits p 9 4 + 1
      let cells := (List.range n).map fun i => (⟨i, BitVec.ofNat 8 (p >>> (256 + 8 * i)), 0xFF⟩ : Sys2Proof.Cell)
      let entry : WqEntry := { n := 0, g := packetOwner, vf := v, pa := x.pa, va := addr, mods := { scope := 5 }, op := .store cells, due := 0 }
      if (s.targetError x).isSome then none
      else if fl = 0 then (if x.tier ≥ 4 then none else some (s.enqueue entry))
      else (wr fl).bind fun f =>
        if fl.toNat % 8 ≠ 0 ∨ (x.tier ≥ 4 ∧ f.pa / 2 ^ 40 ≠ x.pa / 2 ^ 40) ∨ (x.tier < 4 ∧ f.tier ≥ 4) then none
        else some (s.enqueue { entry with flag := some (f.pa, fl, n) })
  | _ =>
    (wr addr).bind fun x =>
      if (s.targetError x).isSome then none
      else some (s.enqueue { n := 0, g := packetOwner, vf := v, pa := x.pa, va := addr, mods := { scope := 5 }, op := .increment 0, due := 0 })

/-- After a write to the eight-byte word at `w`, its trigger is tested (R390); a fire is a release at POD scope (R318, R389). -/
def State.testTrigger (s : State) (w : Nat) : State :=
  if tierOf w ≠ 2 ∧ tierOf w ≠ 3 then s else
  let t := portTower w
  match (List.range 64).find? fun i => let e := tget {} (s.tower t).trigs i; e.valid && e.caddr = w with
  | none => s
  | some i =>
    let e := tget {} (s.tower t).trigs i
    if (leRead s.mem w 8 + 2 ^ 64 - e.thresh.toNat) % 2 ^ 64 < 2 ^ 63 then
      let s := s.modTower t fun x =>
        { x with trigs := tset {} x.trigs i { e with valid := false }, fired := (e.vf, w) :: x.fired.filter (· ≠ (e.vf, w)) }
      let s := (s.packetWalks e.vf e.packet.toNat).cleanLines fun _ => true
      match s.firePacket e.vf e.packet.toNat with
      | some s' => s'
      | none => s.vfSat e.vf 0x18 0 1
    else s

/-- The eight-byte words a write touches, each once. -/
def touched (pa : Nat) (cells : List Sys2Proof.Cell) : List Nat := (cells.map fun c => (pa + c.off) / 8 * 8).eraseDups

/-- A write performed at its port: bytes, error marks, then the triggers on its words. -/
def State.performWrite (s : State) (pa : Nat) (cells : List Sys2Proof.Cell) (cache : Nat) : State :=
  (touched pa cells).foldl State.testTrigger (s.storeCells pa cells cache)

/-- Whole bytes of a number as written bytes. -/
def cellsOf (v n : Nat) : List Sys2Proof.Cell := (List.range n).map fun i => ⟨i, BitVec.ofNat 8 (v >>> (8 * i)), 0xFF⟩

/-! ### Save frames (R70, R413) -/

/-- The first byte of the save area of a partition entry: frames are aligned to 4 KiB (R70, R413). -/
def saveArea (p : Nat) : Nat := bits p 639 588 * 4096
/-- First byte of the frame of slot `g` in the save area of function `v`. -/
def State.frameBase (s : State) (v g : Nat) : Nat :=
  let p := (s.vf v).part.toNat
  saveArea p + 0x12000 * (16 * ((List.range (quadOf g)).filter fun q => bit p (64 + q)).length + g % 16)
def State.frameGet (s : State) (v g off n : Nat) : Nat := leRead s.mem (s.frameBase v g + off) n
/-- The save engine writes `n` bytes of a frame: marks of words covered whole clear (R250), and triggers are tested (R390). -/
def State.framePut (s : State) (v g off n val : Nat) : State := s.performWrite (s.frameBase v g + off) (cellsOf val n) 0
def State.savedAt (s : State) (v g : Nat) : Option Saved := tget none (s.vf v).saved g
def State.modSaved (s : State) (v g : Nat) (f : Saved → Saved) : State :=
  s.modVf v fun x => match tget none x.saved g with
    | some d => { x with saved := tset none x.saved g (some (f d)) }
    | none => x
/-- Records of a frame with their true ticks: the last `recent.2` were posted in tick `recent.1`. -/
def exactTimes (recent : Nat × Nat) (l : List EvRec) : List EvRec :=
  l.zipIdx.map fun e => if l.length ≤ e.2 + recent.2 then { e.1 with time := recent.1 } else e.1
/-- The tick of the last records of a queue, and how many of them are of that tick. -/
def recentOf (l : List EvRec) : Nat × Nat := match l.getLast? with | some e => (e.time, (l.filter fun x => x.time = e.time).length) | none => (0, 0)
/-- A record enters the frame's event queue (R71): EVQCFG stands in the sixth word of the control block. -/
def State.framePost (s : State) (v g : Nat) (r : EvRec) : State :=
  let cfg := s.frameGet v g 0x10D68 8
  let n := bits cfg 14 8
  let recent := ((s.savedAt v g).map (·.recent)).getD (0, 0)
  let old := (List.range (min n 64)).map fun i => EvRec.ofBits (BitVec.ofNat 128 (s.frameGet v g (0x10D80 + 16 * i) 16))
  let l := postRec r (exactTimes recent old)
  let s := l.zipIdx.foldl (fun s e => s.framePut v g (0x10D80 + 16 * e.2) 16 e.1.word.toNat) s
  let s := s.modSaved v g fun d => { d with recent := recentOf l }
  if n < 64 then s.framePut v g 0x10D68 8 (cfg + 256)
  else (s.framePut v g 0x10D68 8 (cfg % 2 ^ 15 + 2 ^ 15)).modCtx g fun c => { c with ctr := ctrSat c.ctr 0x13 0 32 1 }

/-- Post a record to a command's owner: a live context, a frame, or nobody. -/
def State.postTo (s : State) (v g : Nat) (r : EvRec) : State :=
  if g < 3072 then s.modCtx g fun c => c.post r
  else if g < nobody then s.framePost v (slotOf g) r
  else s

/-- A context, live or saved, subscribes to a record kind: bit `b` of EVQCFG (R65). -/
def State.subscribes (s : State) (v g b : Nat) : Bool :=
  if g < 3072 then bit (s.ctx g).evcfg b else decide (g < nobody) && bit (s.frameGet v (slotOf g) 0x10D68 8) b
/-- A subscriber is told of a corrected word (R248, R324). -/
def State.tellSoft (s : State) (v g u : Nat) : State :=
  if s.subscribes v g 3 then s.postTo v g { kind := 6, tag := eccTier u, time := s.tick, payload := u } else s
/-- An access of owner `g` meets corrected and uncorrectable words: each is counted, a corrected one told to a subscriber (R248, R250,
R324, R402). -/
def State.eccMet (s : State) (v g pa n : Nat) : State :=
  (s.softWords pa n).foldl (fun s u => (s.vfSat v 0x10 (eccTier u) 1).tellSoft v g u) (s.countBad v pa n)
/-- The Dealer reads memory for function `v`: what the code corrected or could not correct is counted (R248, R402). DESIGN CHOICE: it takes
the bits as they stand, for R250 names no outcome for the Dealer (log 81). -/
def State.dealerMet (s : State) (v : Nat) (areas : List (Nat × Nat)) : State := areas.foldl (fun s a => s.eccMet v nobody a.1 a.2) s
/-- The entries that a walk for owner `g` read are kept, counted and told of. -/
def State.walkTold (s : State) (v g : Nat) (fills : List (Nat × Word)) : State :=
  ((s.freshReads v fills).flatMap fun e => s.softWords e.1 8).foldl (fun s u => s.tellSoft v g u) (s.keepWalk v fills)
/-- What a successful translation for owner `g` leaves behind (R354). -/
def State.fillWalkFor (s : State) (v g : Nat) (x : Xlate) : State := s.walkTold v g x.fills
/-- What the issuing context's translation leaves behind. -/
def State.fillWalk (s : State) (v : Nat) (x : Xlate) : State := s.fillWalkFor v s.cur x
/-- What a translation of `va` leaves behind, whether it succeeds or not: the entries it read, and the mark of one that is uncorrectable
(R354). -/
def State.walked (s : State) (v g : Nat) (va : Word) : State :=
  let t := s.walkTold v g (s.walkOf v va)
  match s.xmap v va with
  | .error (.fault _ _ _ (some a)) => t.markWalk v a
  | _ => t

/-- A flag increment for function `v` and owner `g` (R313, R386): the word counts one more, and its instruction's bytes are counted (R392); the value of
an uncorrectable word is not stated. At POD scope the line is written back (R318). -/
def State.incrementFlag (s : State) (v g pa bytes scope : Nat) : State :=
  let old := if badIn s.memBad pa 8 then Config.number s.fresh pa else s.readLe pa 8
  let s := (s.eccMet v g pa 8).performWrite pa (cellsOf ((old + 1) % 2 ^ 64) 8) 0
  (if scope = 5 then s.cleanLines fun l => l = pa / 64 else s).countBytes pa bytes

/-! ### The Meld (R343, R344) -/

/-- A Meld line moves to the write queues. -/
def State.meldOut (s : State) (l : MeldLine) : State :=
  s.enqueue { n := 0, g := l.g, vf := (s.ctx l.g).vfid, pa := l.pa, va := l.va, mods := l.mods,
              op := .reduce l.op l.w l.vals l.count, due := 0 }

/-- A flush of the context's lines with a class in `cmask`, in acceptance order. -/
def State.meldFlush (s : State) (g cmask : Nat) : State :=
  let c := coreOf g
  let out := (s.core' c).meld.filter fun l => l.g = g && bit cmask l.mods.cls
  out.foldl State.meldOut (s.modCore c fun x => { x with meld := x.meld.filter fun l => !(l.g = g && bit cmask l.mods.cls) })

/-! ### Order within a context (R300-R307) -/

/-- A write of context `g` in a class of `cmask` still waits in the write queues. -/
def State.writesPending (s : State) (g cmask : Nat) : Bool := s.wq.any fun e => e.g = g && bit cmask e.mods.cls

end Sys2Proof.Machine
end

