-- ==== Sys2Proof/Machine/Number.lean ====
section
/-! DEFINITION. Number formats: decoding, the one rounding, and exact arithmetic (R73-R94). -/

namespace Sys2Proof.Machine

/-- An exact floating-point value: a NaN, an infinity, or `(-1)^neg * m * 2^e` (zeros keep a sign). -/
inductive FVal
  | nan
  | inf (neg : Bool)
  | fin (neg : Bool) (m : Nat) (e : Int)
  deriving DecidableEq, Repr

/-- Exponent bits, fraction bits and bias of a floating-point format (R74). -/
def fshape (t : BitVec 5) : Nat × Nat × Nat :=
  match t.toNat with
  | 0x10 => (8, 23, 127)
  | 0x0E => (5, 10, 15)
  | 0x0F => (8, 7, 127)
  | 0x0D => (5, 2, 15)
  | 0x0C => (4, 3, 7)
  | _ => (2, 1, 1)

/-- Formats with infinities (R75). -/
def hasInf (t : BitVec 5) : Bool := t = 0x10 || t = 0x0E || t = 0x0F || t = 0x0D

/-- The canonical quiet NaN; E2M1 has none and takes +0 (R75, R84). -/
def canonNan (t : BitVec 5) : Nat :=
  match t.toNat with
  | 0x10 => 0x7FC00000
  | 0x0E => 0x7E00
  | 0x0F => 0x7FC0
  | 0x0D => 0x7E
  | 0x0C => 0x7F
  | _ => 0

/-- The exact value of a pattern (R74-R76). -/
def fdecode (t : BitVec 5) (x : Nat) : FVal :=
  let (eb, mb, bias) := fshape t
  let neg := bit x (eb + mb)
  let e := bits x (eb + mb - 1) mb
  let m := x % 2 ^ mb
  if hasInf t ∧ e = 2 ^ eb - 1 then (if m = 0 then .inf neg else .nan)
  else if t = 0x0C ∧ e = 15 ∧ m = 7 then .nan
  else if e = 0 then .fin neg m (1 - (bias : Int) - mb)
  else .fin neg (2 ^ mb + m) ((e : Int) - bias - mb)

/-- `m` shifted right by `sh` under nearest-even or truncation (R83). -/
def shiftRound (rz : Bool) (m sh : Nat) : Nat :=
  let n := m >>> sh
  let r := m % 2 ^ sh
  if rz then n
  else if 2 * r > 2 ^ sh ∨ (2 * r = 2 ^ sh ∧ n % 2 = 1) then n + 1 else n

/-- The largest finite magnitude of a format as significand and exponent (R74). -/
def fmax' (t : BitVec 5) : Nat × Int :=
  let (eb, mb, bias) := fshape t
  if hasInf t then (2 ^ (mb + 1) - 1, (2 ^ eb - 2 : Nat) - (bias : Int) - mb)
  else if t = 0x0C then (14, 5)
  else (3, 1)

/-- Pattern of sign, significand `n` and exponent `q`, the value being in range. -/
def fencode (t : BitVec 5) (neg : Bool) (n : Nat) (q : Int) : Nat :=
  let (eb, mb, bias) := fshape t
  let emin : Int := 1 - (bias : Int) - mb
  let (n, q) := if n = 2 ^ (mb + 1) then (2 ^ mb, q + 1) else (n, q)
  let mag := if n < 2 ^ mb then n else ((q - emin).toNat + 1) * 2 ^ mb + (n - 2 ^ mb)
  mag + if neg then 2 ^ (eb + mb) else 0

/-- Result of an infinite input (R84). -/
def infResult (t : BitVec 5) (sat neg : Bool) : Nat :=
  let top := fencode t neg (fmax' t).1 (fmax' t).2
  if t = 0x0A then top
  else if sat then top
  else if hasInf t then
    let (eb, mb, _) := fshape t
    (2 ^ eb - 1) * 2 ^ mb + if neg then 2 ^ (eb + mb) else 0
  else canonNan t

/-- The one rounding of an exact value to a floating-point format (R83, R84). -/
def fround (t : BitVec 5) (rz sat : Bool) : FVal → Nat
  | .nan => canonNan t
  | .inf neg => infResult t sat neg
  | .fin neg m e =>
    let (_, mb, bias) := fshape t
    if m = 0 then fencode t neg 0 (1 - (bias : Int) - mb)
    else
      let emin : Int := 1 - (bias : Int) - mb
      let q := max (e + (Nat.log2 m : Nat) - mb) emin
      let n := if q ≤ e then m <<< (e - q).toNat else shiftRound rz m (q - e).toNat
      let (nm, qm) := fmax' t
      if q > qm ∨ (q = qm ∧ n > nm) then
        (if sat ∨ rz ∨ t = 0x0A then fencode t neg nm qm else infResult t false neg)
      else fencode t neg n q

def FVal.neg : FVal → FVal
  | .nan => .nan
  | .inf s => .inf !s
  | .fin s m e => .fin (!s) m e
def FVal.isNan : FVal → Bool | .nan => true | _ => false
def FVal.sign : FVal → Bool | .nan => false | .inf s => s | .fin s _ _ => s
def FVal.isZero : FVal → Bool | .fin _ m _ => m = 0 | _ => false

/-- Exact sum (R85, R86). -/
def FVal.add : FVal → FVal → FVal
  | .nan, _ => .nan
  | _, .nan => .nan
  | .inf s, .inf t => if s = t then .inf s else .nan
  | .inf s, _ => .inf s
  | _, .inf t => .inf t
  | .fin s m e, .fin t n f =>
    let lo := min e f
    let a : Int := (m * 2 ^ (e - lo).toNat : Nat)
    let b : Int := (n * 2 ^ (f - lo).toNat : Nat)
    let v := (if s then -a else a) + (if t then -b else b)
    if v = 0 then .fin (s && t && m = 0 && n = 0) 0 lo else .fin (decide (v < 0)) v.natAbs lo

/-- Exact product (R85, R86). -/
def FVal.mul : FVal → FVal → FVal
  | .nan, _ => .nan
  | _, .nan => .nan
  | .inf s, .inf t => .inf (s != t)
  | .inf s, .fin t n _ => if n = 0 then .nan else .inf (s != t)
  | .fin s m _, .inf t => if m = 0 then .nan else .inf (s != t)
  | .fin s m e, .fin t n f => .fin (s != t) (m * n) (e + f)

/-- An exact integer. -/
def FVal.ofInt (v : Int) : FVal := .fin (decide (v < 0)) v.natAbs 0

/-- Order of two values; `none` when either is a NaN. Zeros are equal. -/
def FVal.cmp (a b : FVal) : Option Ordering :=
  match a, b with
  | .nan, _ => none
  | _, .nan => none
  | .inf s, .inf t => some (if s = t then .eq else if s then .lt else .gt)
  | .inf s, _ => some (if s then .lt else .gt)
  | _, .inf t => some (if t then .gt else .lt)
  | .fin s m e, .fin t n f =>
    let lo := min e f
    let a : Int := (m * 2 ^ (e - lo).toNat : Nat)
    let b : Int := (n * 2 ^ (f - lo).toNat : Nat)
    some (compare (if s then -a else a) (if t then -b else b))

/-- Least and greatest value of an integer format (R78). -/
def intMin (t : BitVec 5) : Int := if isSignedFmt t then -(2 ^ (fmtWidth t - 1) : Nat) else 0
def intMax (t : BitVec 5) : Int := if isSignedFmt t then (2 ^ (fmtWidth t - 1) : Nat) - 1 else (2 ^ fmtWidth t : Nat) - 1
/-- A clamp into a format's range. -/
def clampInt (t : BitVec 5) (v : Int) : Int := min (max v (intMin t)) (intMax t)
/-- The value of a pattern in an integer format. -/
def intDecode (t : BitVec 5) (x : Nat) : Int :=
  if isSignedFmt t then toSigned (fmtWidth t) x else (x % 2 ^ fmtWidth t : Nat)
/-- An exact integer result in a format: clamped under `.sat`, else wrapped (R78). -/
def intResult (t : BitVec 5) (sat : Bool) (v : Int) : Nat := wrapInt (fmtWidth t) (if sat then clampInt t v else v)

/-- An exact value rounded to an integer and clamped (R87, letter I). -/
def fToInt (t : BitVec 5) (rz : Bool) : FVal → Nat
  | .nan => 0
  | .inf s => wrapInt (fmtWidth t) (if s then intMin t else intMax t)
  | .fin s m e =>
    let n := if 0 ≤ e then m * 2 ^ e.toNat else shiftRound rz m (-e).toNat
    wrapInt (fmtWidth t) (clampInt t (if s then -(n : Int) else n))

/-- A conversion between two formats (R87). A CB4 source is given as its BF16 entry. DEDUCED: from a format to itself it copies the bits, those of a
NaN that is not the canonical one too: R87 calls it the identity, where R75 and R85 produce canonical NaNs (log 84). -/
def convert (to' from' : BitVec 5) (rz sat : Bool) (x : Nat) : Nat :=
  if isFloat to' then
    if to' = from' then x % 2 ^ fmtWidth to'
    else if isFloat from' then fround to' rz sat (fdecode from' x)
    else fround to' rz sat (FVal.ofInt (intDecode from' x))
  else if isFloat from' then fToInt to' rz (fdecode from' x)
  else
    let v := intDecode from' x
    if fmtWidth from' ≤ fmtWidth to' then
      (if sat ∧ v < 0 ∧ !isSignedFmt to' then 0 else wrapInt (fmtWidth to') v)
    else intResult to' sat v

/-- A two-operand floating-point result (R92). -/
def fadd' (t : BitVec 5) (rz sat : Bool) (a b : Nat) : Nat := fround t rz sat ((fdecode t a).add (fdecode t b))
def fsub' (t : BitVec 5) (rz sat : Bool) (a b : Nat) : Nat := fround t rz sat ((fdecode t a).add (fdecode t b).neg)
def fmul' (t : BitVec 5) (rz sat : Bool) (a b : Nat) : Nat := fround t rz sat ((fdecode t a).mul (fdecode t b))
def ffma' (t : BitVec 5) (rz sat : Bool) (a b c : Nat) : Nat :=
  fround t rz sat (((fdecode t a).mul (fdecode t b)).add (fdecode t c))

/-- Lesser (`lo`) or greater of two patterns: a NaN gives the canonical NaN, and -0 is below +0 (R139, R162). -/
def fpick (t : BitVec 5) (lo : Bool) (a b : Nat) : Nat :=
  let x := fdecode t a
  let y := fdecode t b
  match x.cmp y with
  | none => canonNan t
  | some .lt => if lo then a else b
  | some .gt => if lo then b else a
  | some .eq => if x.sign = y.sign then a else if x.sign = lo then a else b

/-- A BF16 immediate in the operation's type (R94). -/
def bfImm (t : BitVec 5) (imm : Nat) : Nat :=
  match fdecode 0x0F imm with
  | .inf s => infResult t (!hasInf t) s
  | v =>
    let (nm, qm) := fmax' t
    if hasInf t then fround t false false v else
      match v with
      | .fin s m e => if FVal.cmp (.fin false m e) (.fin false nm qm) = some .gt then fencode t s nm qm else fround t false false v
      | _ => fround t false false v

/-- An integer immediate extended to `w` bits and truncated (R93). -/
def intImm (w : Nat) (u : Bool) (imm : BitVec 23) : Nat := (if u then imm.toNat else wrapInt 64 imm.toInt) % 2 ^ w

/-- Decode a stored element of a decoding format to BF16 (R80, R88). -/
def decodeBf16 (book : Nat → Nat) (t : BitVec 5) (x : Nat) : Nat :=
  if isCB4 t then (if (fdecode 0x0F (book x)).isNan then 0x7FC0 else book x)
  else fround 0x0F false false (fdecode t x)

/-- Slot 0 of every cube: the BF16 values of the sixteen E2M1 codes (R77, R79). -/
def book0 : BitVec 256 :=
  BitVec.ofNat 256 ([0x0000, 0x3F00, 0x3F80, 0x3FC0, 0x4000, 0x4040, 0x4080, 0x40C0, 0x8000, 0xBF00, 0xBF80, 0xBFC0,
    0xC000, 0xC040, 0xC080, 0xC0C0].foldr (fun x a => x + a * 65536) 0)
/-- Codebook slot `n` of a cube. -/
def bookOf (q : Quad) (n : Nat) : BitVec 256 := if n = 0 then book0 else tget 0 q.book n
/-- A codebook slot as an issue of this tick reads it: a load that lands in the tick is not seen (R175). -/
def bookAt (q : Quad) (n : Nat) : BitVec 256 := if n = 0 then book0 else tget 0 q.bookSeen n
/-- Entry `j` of a codebook. -/
def bookEntry (b : BitVec 256) (j : Nat) : Nat := bits b.toNat (16 * (j % 16) + 15) (16 * (j % 16))

end Sys2Proof.Machine
end

