-- ==== Sys2Proof/Machine/Flags.lean ====
section
/-! DEFINITION. Conditions and relation masks (R100, R137, R141, R142). The part keeps no condition flags (R85). -/

namespace Sys2Proof.Machine

/-- Conditions 0-7 on an order; `none` is unordered (R100, R141). -/
def condHolds (c : Nat) (o : Option Ordering) : Bool :=
  match c, o with
  | 0, some .eq => true
  | 1, some .eq => false
  | 1, _ => true
  | 2, some .lt => true
  | 3, some .lt => true
  | 3, some .eq => true
  | 4, some .gt => true
  | 5, some .gt => true
  | 5, some .eq => true
  | 6, none => true
  | 7, some _ => true
  | _, _ => false

/-- The relation mask: 1 equal, 2 less, 4 greater, 8 unordered (R137, R141). -/
def relMask : Option Ordering → Nat
  | some .eq => 1
  | some .lt => 2
  | some .gt => 4
  | none => 8

/-- The order of two patterns in a format. -/
def cmpIn (t : BitVec 5) (a b : Nat) : Option Ordering :=
  if isFloat t then (fdecode t a).cmp (fdecode t b) else some (compare (intDecode t a) (intDecode t b))

/-- The tests of `bc` against zero (R100). -/
def zeroTest (c : Nat) (v : Int) : Bool :=
  match c with
  | 0 => decide (v = 0)
  | 1 => decide (v ≠ 0)
  | 2 => decide (v < 0)
  | 3 => decide (0 ≤ v)
  | 4 => decide (0 < v)
  | _ => decide (v ≤ 0)

end Sys2Proof.Machine
end

