-- ==== Sys2Proof/Machine/Operands.lean ====
section
/-! DEFINITION. Operand forms: which registers a syllable reads and writes (R49, R50, R54), the checks at issue that hold
for every syllable (R59, R329, R330, R405), and how a meaning ends: committed, blocked (R34) or faulted (R106). -/

namespace Sys2Proof.Machine

/-! ### Loads that may still take their value (R304) -/

/-- The bits of an element as memory or the face holds them now, decoded or extended (R275, R276). -/
def LateElem.value (e : LateElem) (s : State) (q : Nat) : Nat :=
  let n := (e.bit + e.w + 7) / 8
  let v := ((if e.face then faceRead (s.quad q) e.pa n else s.readLe e.pa n) >>> e.bit) % 2 ^ e.w
  match e.dec with
  | some (t, b) => decodeBf16 (bookEntry b) t v
  | none => if e.sx then (wrapInt e.wd (toSigned e.w v)) % 2 ^ e.wd else v
/-- Its word has been found uncorrectable since. -/
def LateElem.bad (e : LateElem) (s : State) (q : Nat) : Bool :=
  if e.face then (s.quad q).faceBad.any fun u => decide (u < e.pa + 8) && decide (e.pa < u + 8) else badIn s.memBad e.pa ((e.bit + e.w + 7) / 8)
/-- The load whose result it is, all its registers among those in flight, finds no word uncorrectable. -/
def Late.sound (l : Late) (s : State) (g : Nat) : Bool :=
  (s.ctx g).inflight.all fun e => match e.late with
    | some k => decide (k.load ≠ l.load) || k.elems.all fun x => !x.bad s (quadOf g)
    | none => true
/-- A result takes its value: what it read at issue, or what stands there now. The registers of one load take the same of the two, so
that no aligned word of a part is split (R297, R299). -/
def InFlight.takeLate (e : InFlight) (s : State) (g : Nat) : InFlight :=
  match e.late with
  | none => e
  | some l =>
    if Config.choice s.fresh (2048 + l.load) ∧ l.sound s g then
      let put := fun (t : Tile) (x : LateElem) =>
        (t &&& ~~~(BitVec.ofNat 4096 (2 ^ x.wd - 1) <<< x.lo)) ||| (BitVec.ofNat 4096 (x.value s (quadOf g) % 2 ^ x.wd) <<< x.lo)
      { e with val := l.elems.foldl put e.val, late := none }
    else { e with late := none }
/-- The loads of context `g` that `p` picks take their values now. -/
def State.takeLoads (s : State) (g : Nat) (p : InFlight → Bool) : State :=
  s.modCtx g fun c => { c with inflight := c.inflight.map fun e => if p e then e.takeLate s g else e }
/-- The loads of the issuing context in the classes of `m` take their values now: what follows is ordered after them (R301, R305). -/
def State.takeClasses (s : State) (m : Nat) : State :=
  if s.me.inflight.all (·.late.isNone) then s else s.takeLoads s.cur fun e => e.late.any fun l => bit m l.cls

/-! ### Blocking (R34, R63) -/

/-- The launch a tag or context belongs to. -/
def State.launch (s : State) (id : Nat) : Option Launch := s.dealer.launches.find? fun l => l.id = id
/-- The latest phase of a launch with a started engine. -/
def Launch.now (l : Launch) : Option Phase := l.phases[l.phase]?
/-- Phase `n` is RIGID. -/
def Launch.rigidAt (l : Launch) (n : Nat) : Bool := match l.phases[n]? with | some p => !p.elastic | none => false
/-- The tower of an arm unit (R427): context slots, cubes, copy engines. -/
def unitTower (u : Nat) : Nat := if u < 3072 then u / 768 else if u < 3264 then (u - 3072) / 48 else (u - 3264) / 48
/-- A tower runs a RIGID phase (R23): one that has begun there or elsewhere and has not ended in the tower. -/
def State.towerRigid (s : State) (t : Nat) : Bool :=
  s.dealer.launches.any fun l => decide (l.st = .running ∨ l.st = .slipped) && l.work.any fun w =>
    w.st < 3 && unitTower w.unit = t && l.rigidAt w.phase && l.work.any fun x => x.phase = w.phase && 2 ≤ x.st
/-- The context runs in a RIGID phase. -/
def State.inRigid (s : State) (g : Nat) : Bool :=
  match (s.ctx g).launch.bind s.launch with | some l => l.rigidAt (s.ctx g).phase | none => false

/-- The Trick whose barrier comes next: the current one, or, in its communication step, the one after it (R360, R383). -/
def Launch.trickIx (l : Launch) : Nat := l.trick + if l.commEnd.isSome then 1 else 0
/-- The tick at which a tag that is full at tick `t` completes (R383). -/
def State.barDone (s : State) (tag t : Nat) : Nat × Bool :=
  match s.launch (s.bar tag).launch with
  | none => (t + 48, false)
  | some l =>
    match l.now with
    | none => (t + 48, false)
    | some p =>
      match p.tricks[l.trickIx]? with
      | some k =>
        if !p.elastic ∧ k.tag = tag ∧ t + 48 ≤ l.t0 + k.bar then (l.t0 + k.bar, decide (t + 48 < l.t0 + k.bar)) else (t + 48, false)
      | none => (t + 48, false)

/-- When every party has arrived the completion tick is fixed (R383). -/
def State.barTest (s : State) (tag : Nat) : State :=
  let b := s.bar tag
  if b.doneAt = none ∧ b.parties ≠ 0 ∧ b.arrived = b.parties then
    let (d, h) := s.barDone tag s.tick
    s.setBar tag { b with doneAt := some d, heldB := h }
  else s

/-- The effect a blocked bundle has all the same. -/
def State.blockEffect (s : State) (fx : BlockFx) : State :=
  let g := s.cur
  match fx with
  | .none => s
  | .wantStage t n full =>
    s.modTower t fun w =>
      let st := tget {} w.deck n
      if st.line.any fun x => x.1 = g then w
      else { w with deck := tset {} w.deck n { st with line := st.line ++ [(g, full, s.tick)] } }
  | .wantLease =>
    s.modQuad (quadOf g) fun q =>
      let i := g % 16
      if q.lease.reqs.contains i then q else { q with lease := { q.lease with reqs := q.lease.reqs ++ [i] } }
  | .arrive tag =>
    let b := s.bar tag
    let s := (s.takeClasses 0xFFFF).setBar tag { b with arrived := b.arrived + 1 }
    (s.modCtx g fun c => { c with arrivals := tset none c.arrivals tag (some b.gen) }).barTest tag
  | .flush m => s.meldFlush g m
  | .watch pa => s.modCtx g fun c => { c with flagAt := pa }
  | .await cmds => s.modCtx g fun c => { c with tokAt := cmds }

/-- The bundle at issue blocks with cause `w`: nothing commits, and the context waits (R34, R63). -/
def State.blockOn (s : State) (w : Nat) (fx : BlockFx) : State :=
  let s := s.modCtx s.cur fun c => { c with state := 2, wait := w }
  { s with issue := { s.issue with block := match s.issue.block with | some b => some b | none => some (w, fx) } }

/-- How a syllable's meaning ends. -/
def settle (k : Slot) (s : State) (r : Except Halt State) : Host.Outcome State Fault Refusal :=
  match r with
  | .ok t => .next t
  | .error (.fault c p a m) => .next (s.takeFault { slot := k, code := c, point := p, addr := a, mark := m })
  | .error (.block w fx) => .next (s.blockOn w fx)

/-! ### Registers a syllable names -/

/-- The register file of an operand field in cluster A (`false`) or B (`true`). -/
def filFile (f : Fil) (b : Bool) : Option RegFile :=
  match f with
  | .s => some .s
  | .x => some .x
  | .v => some (if b then .vb else .va)
  | .m => some (if b then .mb else .ma)
  | .tk => some .tk
  | .sh => some .sh
  | _ => none

/-- A run of registers a syllable names: read or written, file, specifier, count. -/
structure Named where
  read : Bool
  file : RegFile
  x : BitVec 7
  n : Nat
  deriving DecidableEq, Repr

/-- The four specifier fields and the shape and mask fields of a syllable. -/
structure Fields where
  d : BitVec 7 := 0
  a : BitVec 7 := 0
  b : BitVec 7 := 0
  c : BitVec 7 := 0
  sh : BitVec 3 := 0
  msk : BitVec 3 := 0

def oprFields : Oprs → Fields
  | .zero => {}
  | .fr o => { d := o.d, a := o.a, b := o.b, c := o.c, sh := o.sh, msk := o.msk }
  | .fi o => { d := o.d, a := o.a, sh := o.sh, msk := o.msk }
  | .fm o => { d := o.d, a := o.a, b := o.b, sh := o.sh, msk := o.msk }
  | .fe o => { d := o.d, a := o.a, b := o.b, sh := o.sh, msk := o.msk }
  | .fb o => { d := o.d, a := o.a, sh := o.sh, msk := o.msk }
  | .fx o => { d := o.d, a := o.a, b := o.b, sh := o.sh, msk := o.msk }

/-- Registers of a wide source (R54, R187). -/
def narrowCount (o : FR) : Nat :=
  let r := if fmtWidth o.ty = 0 then 1 else fmtWidth o.ty2 / fmtWidth o.ty
  if o.pair then (if r = 4 then 2 else 1) else max r 1

def named (read : Bool) (file : RegFile) (x : BitVec 7) (n : Nat) : List Named := [{ read := read, file := file, x := x, n := n }]

/-- Widening and narrowing forms (R171, R172, R187): a pair shares its wide operand between the clusters. -/
def tileNames (p : Cl) (o : FR) : List Named :=
  let wt := fmtWidth o.ty
  let wu := fmtWidth o.ty2
  if !o.pair ∨ wt = wu then named false (tileFile p) o.d (wideCount o) ++ named true (tileFile p) o.a (narrowCount o)
  else if wu < wt then named false (tileFile p) o.d (wideCount o) ++ named true .va o.a 1
  else (if p = .a then named false .va o.d 1 else []) ++ named true .va o.a (narrowCount o) ++ named true .vb o.a (narrowCount o)

/-- The cluster whose mask a tile form uses: A for the paired forms that share one operand (R187). -/
def maskCl (i : Instr) (b : Bool) : RegFile :=
  let shared := match i with
    | .vclmul _ o => o.pair
    | .vcvt _ o | .vwid _ o | .vnar _ o => o.pair && fmtWidth o.ty ≠ fmtWidth o.ty2
    | _ => false
  if b && !shared then .mb else .ma

/-- Every register a syllable reads or writes at issue; `call` counts its link among those read, as R155 lists it, and `rdcr` the shape
register whose half it delivers (R60). DEDUCED: the shape
register a tile form uses is a source too, so that an uncorrectable one raises REG_POISON, though R157 lists tiles, masks, index and scalar
registers only (R405; log 80). -/
def regNames (i : Instr) : List Named :=
  match i.row with
  | none => []
  | some r =>
    let f := oprFields r.ops
    let cl := r.slot = .vb || (r.slot = .e && bit f.msk.toNat 2)
    let nm := fun (rd : Bool) (k : Fil) (x : BitVec 7) (n : Nat) =>
      match filFile k cl with | some file => [({ read := rd, file := file, x := x, n := n } : Named)] | none => []
    let rd := fun k x => nm true k x 1
    let wr := fun k x => nm false k x 1
    let abc := rd r.rule.a f.a ++ rd r.rule.b f.b ++ rd r.rule.c f.c
    let shape := match r.rule.shmk with
      | .tile => [({ read := true, file := .sh, x := f.sh.setWidth 7, n := 1 } : Named),
                  { read := true, file := maskCl i cl, x := (if r.slot = .e then f.msk &&& 3 else f.msk).setWidth 7, n := 1 }]
      | .sh | .shCl => [({ read := true, file := .sh, x := f.sh.setWidth 7, n := 1 } : Named)]
      | _ => []
    (match i with | .cspop _ => [] | _ => shape) ++
    match i with
    | .fence _ => []
    | .call o => rd .s o.d ++ wr .s o.d
    | .rdcr o => wr .s o.d ++ if 16 ≤ o.b.toNat ∧ o.b.toNat < 32 then [{ read := true, file := .sh, x := (o.b - 16) >>> 1, n := 1 }] else []
    | .jt o => [{ read := true, file := .s, x := o.d, n := o.cond.toNat + 1 }] ++ abc
    | .evpop o | .evpeek o => wr .s o.d ++ wr .s o.c
    | .stS _ | .stT _ | .stx _ | .stxAdd _ | .rst _ | .dcopy _ | .dcopyCsum _ | .cfill _ | .trigArm _ => rd r.rule.d f.d ++ abc
    | .amoCas o => rd .s o.d ++ wr .s o.d ++ abc
    | .ins _ _ | .maddI _ _ => rd .s f.d ++ wr .s f.d ++ abc
    | .kalloc _ | .kallocM _ | .kquery _ | .crdacc _ => wr r.rule.d f.d ++ rd .s f.a ++ wr .s f.b
    | .sbind _ => rd .s f.a
    | .cspop _ => wr .v f.d ++ wr .m f.b ++ [{ read := false, file := .sh, x := f.sh.setWidth 7, n := 1 }]
    | .vcvt p o | .vwid p o | .vnar p o => tileNames p o
    | .vclmul p o => if o.pair then named false (tileFile p) o.d 1 ++ named true .va o.a 1 ++ named true .va o.b 1
        else nm false .v o.d 1 ++ abc
    | .vperm _ o | .vshuf _ o | .vbcast _ o | .vext _ o | .vtrn _ o =>
      nm false .v o.d 1 ++ (if o.pair then
        (if r.rule.a = .v then named true .va o.a 1 ++ named true .vb o.a 1 else []) ++
        (if r.rule.b = .v then named true .va o.b 1 ++ named true .vb o.b 1 else []) ++ rd r.rule.c o.c else abc)
    | .vsel p o => nm false .v o.d 1 ++ named true (maskFile p) (o.xmod.setWidth 7) 1 ++ abc
    | .vcbdec _ o => nm false .v o.d 4 ++ rd .v o.a
    | .vscale _ o => nm false .v o.d (if o.ty = 0x10 then 2 else 1) ++ abc
    | .xcp p o => wr .v o.d ++ [{ read := true, file := if p = .a then .vb else .va, x := o.a, n := 1 }]
    | .vcmpI p o => [{ read := false, file := maskFile p, x := (o.d &&& 7), n := 1 }] ++ abc
    | _ => nm false r.rule.d f.d 1 ++ abc

/-- The registers of a run. -/
def State.regs (s : State) (m : Named) : List RegId :=
  let base := s.spec m.file.size m.x
  (List.range m.n).map fun j => ⟨m.file, (base + j) % m.file.size⟩

/-- The index register behind an indirect specifier (R50). -/
def indexReg (x : BitVec 7) : List RegId := if x.toNat < 64 then [] else [⟨.x, bits x.toNat 5 3⟩]

/-- The source registers of a syllable, its index registers and mask among them (R405). -/
def State.sources (s : State) (i : Instr) : List RegId :=
  (regNames i).flatMap fun m => indexReg m.x ++ if m.read then s.regs m else []
/-- The destination registers of a syllable. -/
def State.targets (s : State) (i : Instr) : List RegId := (regNames i).flatMap fun m => if m.read then [] else s.regs m

/-- A read of a register in a stream: an output stream's faults, an empty input stream's blocks (R59, R329). -/
def State.streamRead (s : State) (r : RegId) : Except Halt State :=
  match s.me.boundTo r with
  | none => .ok s
  | some n =>
    let t := s.me.stream n
    if t.out then .error (.code 0x08)
    else if !t.rfull then .error (.block 3 .none)
    else .ok { s with issue := { s.issue with consumed := if s.issue.consumed.contains n then s.issue.consumed else s.issue.consumed ++ [n] } }

/-- A write of a register in a stream: an input stream's faults; an output stream's blocks while the register is full, or while an earlier
write of it, a bundle's or an engine's, has not landed (R59, R330). -/
def State.streamWrite (s : State) (r : RegId) : Except Halt Unit :=
  match s.me.boundTo r with
  | none => .ok ()
  | some n =>
    let t := s.me.stream n
    if !t.out then .error (.code 0x08) else if t.rfull || s.me.pending r || s.commands.any (fun k => k.g = s.cur && k.dest.contains r) then .error (.block 3 .none)
    else .ok ()

/-- A write of a destination by syllable `i`: `cspop` takes no register that a stream holds (R190). -/
def State.targetGate (s : State) (i : Instr) (r : RegId) : Except Halt Unit :=
  match i with
  | .cspop _ => ensure (s.me.boundTo r).isNone 0x08
  | _ => s.streamWrite r

/-- First error of a list of checks, faults before blocks (R106). -/
def checkAll {α : Type} (f : α → Except Halt Unit) (l : List α) : Except Halt Unit :=
  let errs := l.filterMap fun x => match f x with | .ok _ => none | .error h => some h
  match errs.find? (fun h => match h with | .fault _ _ _ _ => true | _ => false) with
  | some h => .error h
  | none => match errs with | h :: _ => .error h | [] => .ok ()

/-- Streams met by a syllable's registers; a consumed tile is noted (R329). -/
def State.streamGate (s : State) (i : Instr) : Except Halt State := do
  let src := s.sources i
  checkAll (fun r => (s.streamRead r).map fun _ => ()) src
  checkAll (s.targetGate i) (s.targets i)
  src.foldlM State.streamRead s

/-- REG_POISON (R405), and the corrected words met (R248). -/
def State.poisonGate (s : State) (i : Instr) : Except Halt State :=
  let src := s.sources i
  if src.any s.me.poison.contains then .error (.code 0x05)
  else .ok { s with issue := { s.issue with ecc := s.issue.ecc ++ src.filter s.me.soft.contains } }

/-- The checks every syllable makes at issue. -/
def State.gate (s : State) (i : Instr) : Except Halt State := do
  let s ← s.poisonGate i
  s.streamGate i

/-- The meaning of a syllable: the common checks, then its own effect. -/
def State.syl (s : State) (i : Instr) (f : State → Except Halt State) : Host.Outcome State Fault Refusal :=
  settle i.slot s ((s.gate i).bind f)

/-- The latency bound of a syllable (R103). -/
def bound (lat : BitVec 4) (intrinsic : Nat) : Nat := (latBound lat).getD intrinsic

end Sys2Proof.Machine
end

