-- ==== Sys2Proof/Machine/Scalar.lean ====
section
/-! DEFINITION. The class S instructions: scalar integer (R129-R138) and scalar floating point (R139-R141). -/

namespace Sys2Proof.Machine

abbrev Out := Host.Outcome State Fault Refusal

/-- A pattern of an integer format widened to 64 bits (R129). -/
def widen (t : BitVec 5) (x : Nat) : Word := BitVec.ofNat 64 (wrapInt 64 (intDecode t x))

/-- Sources of an FR form read at the width and signedness of TYPE. -/
def State.srcA (s : State) (t : BitVec 5) (x : BitVec 7) : Int := intDecode t (s.rs x).toNat
/-- The immediate of an FI form in the operation's type (R93, R129). -/
def immInt (o : FI) : Int := intDecode o.ty (intImm (fmtWidth o.ty) o.v o.imm)

/-- An integer result in s[D] (R129). -/
def State.giveInt (s : State) (t : BitVec 5) (sat : Bool) (d : BitVec 7) (lat : BitVec 4) (n : Nat) (v : Int) : Except Halt State :=
  .ok (s.putS (s.spec 64 d) (widen t (intResult t sat v)) (bound lat n))

/-- The common effect of R129 for format FR. -/
def State.intFR (s : State) (i : Instr) (o : FR) (n : Nat) (f : Int → Int → Int) : Out :=
  s.syl i fun s => s.giveInt o.ty o.sat o.d o.lat n (f (s.srcA o.ty o.a) (s.srcA o.ty o.b))
/-- The common effect of R129 for format FI. -/
def State.intFI (s : State) (i : Instr) (o : FI) (n : Nat) (f : Int → Int → Int) : Out :=
  s.syl i fun s => s.giveInt o.ty o.sat o.d o.lat n (f (s.srcA o.ty o.a) (immInt o))

/-- A bitwise function of the `w`-bit patterns. -/
def onBits (w : Nat) (f : Nat → Nat → Nat) (a b : Int) : Int := (f (wrapInt w a) (wrapInt w b) : Nat)

/-- Shifts and rotates by a count of 64 bits (R133). -/
inductive ShiftKind | shl | shr | sar | rol | ror
  deriving DecidableEq, Repr
def shiftOp (k : ShiftKind) (w a c : Nat) : Nat :=
  match k with
  | .shl => if c < w then a <<< c % 2 ^ w else 0
  | .shr => if c < w then a >>> c else 0
  | .sar => wrapInt w (toSigned w a >>> min c w)
  | .rol => (a <<< (c % w) ||| a >>> (w - c % w)) % 2 ^ w
  | .ror => (a >>> (c % w) ||| a <<< (w - c % w)) % 2 ^ w
def State.shiftFR (s : State) (i : Instr) (o : FR) (k : ShiftKind) : Out :=
  s.syl i fun s =>
    let w := fmtWidth o.ty
    s.giveInt o.ty false o.d o.lat 1 (shiftOp k w ((s.rs o.a).toNat % 2 ^ w) (s.rs o.b).toNat : Nat)
def State.shiftFI (s : State) (i : Instr) (o : FI) (k : ShiftKind) : Out :=
  s.syl i fun s =>
    let w := fmtWidth o.ty
    s.giveInt o.ty false o.d o.lat 1 (shiftOp k w ((s.rs o.a).toNat % 2 ^ w) (intImm 64 o.v o.imm) : Nat)

/-- Quotient and remainder truncated toward zero, with the fixed cases of R132. -/
def quot (a b : Int) : Int := if b = 0 then -1 else Int.tdiv a b
def remn (a b : Int) : Int := if b = 0 then a else Int.tmod a b
/-- The upper half of the exact product (R131). -/
def highHalf (w : Nat) (a b : Int) : Int := a * b / (2 ^ w : Nat)

/-- Leading and trailing zeros and ones among the low `w` bits (R134). -/
def lzCount (w x : Nat) : Nat := if x % 2 ^ w = 0 then w else w - 1 - Nat.log2 (x % 2 ^ w)
def tzCount (w x : Nat) : Nat := ((List.range w).find? fun i => bit x i).getD w
def popCount (w x : Nat) : Nat := ((List.range w).filter fun i => bit x i).length
/-- The bytes of a `w`-bit pattern in reverse (R134). -/
def byteSwap (w x : Nat) : Nat := (List.range (w / 8)).foldl (fun a i => a * 256 + bits x (8 * i + 7) (8 * i)) 0

/-- A count in s[D], zero-extended (R134). -/
def State.countFR (s : State) (i : Instr) (o : FR) (f : Nat → Nat → Nat) : Out :=
  s.syl i fun s => .ok (s.putS (s.spec 64 o.d) (BitVec.ofNat 64 (f (fmtWidth o.ty) (s.rs o.a).toNat)) (bound o.lat 1))

/-- A 64-bit value in s[D]. -/
def State.giveWord (s : State) (d : BitVec 7) (lat : BitVec 4) (n : Nat) (v : Word) : Except Halt State :=
  .ok (s.putS (s.spec 64 d) v (bound lat n))

/-- FP32 operand in the low bits of a scalar register (R139). -/
def State.srcF (s : State) (x : BitVec 7) : Nat := (s.rs x).toNat % 2 ^ 32
def State.floatFR (s : State) (i : Instr) (o : FR) (n : Nat) (f : Nat → Nat → Nat) : Out :=
  s.syl i fun s => s.giveWord o.d o.lat n (BitVec.ofNat 64 (f (s.srcF o.a) (s.srcF o.b)))
def State.floatFI (s : State) (i : Instr) (o : FI) (n : Nat) (f : Nat → Nat → Nat) : Out :=
  s.syl i fun s => s.giveWord o.d o.lat n (BitVec.ofNat 64 (f (s.srcF o.a) (bfImm 0x10 o.imm.toNat)))

/-- `add` (R131). -/
def execAdd (p : SPos) (o : FR) (s : State) : Out :=
  s.intFR (.add p o) o 1 (fun a b => a + b)
/-- `add` with an immediate (R131). -/
def execAddI (p : SPos) (o : FI) (s : State) : Out :=
  s.intFI (.addI p o) o 1 (fun a b => a + b)
/-- `sub` (R131). -/
def execSub (p : SPos) (o : FR) (s : State) : Out :=
  s.intFR (.sub p o) o 1 (fun a b => a - b)
/-- `sub` with an immediate (R131). -/
def execSubI (p : SPos) (o : FI) (s : State) : Out :=
  s.intFI (.subI p o) o 1 (fun a b => a - b)
/-- `and` (R131). -/
def execAnd (p : SPos) (o : FR) (s : State) : Out :=
  s.intFR (.and p o) o 1 (onBits (fmtWidth o.ty) (· &&& ·))
/-- `and` with an immediate (R131). -/
def execAndI (p : SPos) (o : FI) (s : State) : Out :=
  s.intFI (.andI p o) o 1 (onBits (fmtWidth o.ty) (· &&& ·))
/-- `or` (R131). -/
def execOr (p : SPos) (o : FR) (s : State) : Out :=
  s.intFR (.or p o) o 1 (onBits (fmtWidth o.ty) (· ||| ·))
/-- `or` with an immediate (R131). -/
def execOrI (p : SPos) (o : FI) (s : State) : Out :=
  s.intFI (.orI p o) o 1 (onBits (fmtWidth o.ty) (· ||| ·))
/-- `xor` (R131). -/
def execXor (p : SPos) (o : FR) (s : State) : Out :=
  s.intFR (.xor p o) o 1 (onBits (fmtWidth o.ty) (· ^^^ ·))
/-- `xor` with an immediate (R131). -/
def execXorI (p : SPos) (o : FI) (s : State) : Out :=
  s.intFI (.xorI p o) o 1 (onBits (fmtWidth o.ty) (· ^^^ ·))
/-- `andn` (R131). -/
def execAndn (p : SPos) (o : FR) (s : State) : Out :=
  s.intFR (.andn p o) o 1 (onBits (fmtWidth o.ty) (fun a b => a &&& (2 ^ fmtWidth o.ty - 1 - b)))
/-- `andn` with an immediate (R131). -/
def execAndnI (p : SPos) (o : FI) (s : State) : Out :=
  s.intFI (.andnI p o) o 1 (onBits (fmtWidth o.ty) (fun a b => a &&& (2 ^ fmtWidth o.ty - 1 - b)))
/-- `min` (R131). -/
def execMin (p : SPos) (o : FR) (s : State) : Out :=
  s.intFR (.min p o) o 1 (min)
/-- `min` with an immediate (R131). -/
def execMinI (p : SPos) (o : FI) (s : State) : Out :=
  s.intFI (.minI p o) o 1 (min)
/-- `max` (R131). -/
def execMax (p : SPos) (o : FR) (s : State) : Out :=
  s.intFR (.max p o) o 1 (max)
/-- `max` with an immediate (R131). -/
def execMaxI (p : SPos) (o : FI) (s : State) : Out :=
  s.intFI (.maxI p o) o 1 (max)
/-- `minu` (R131). -/
def execMinu (p : SPos) (o : FR) (s : State) : Out :=
  s.intFR (.minu p o) o 1 (min)
/-- `minu` with an immediate (R131). -/
def execMinuI (p : SPos) (o : FI) (s : State) : Out :=
  s.intFI (.minuI p o) o 1 (min)
/-- `maxu` (R131). -/
def execMaxu (p : SPos) (o : FR) (s : State) : Out :=
  s.intFR (.maxu p o) o 1 (max)
/-- `maxu` with an immediate (R131). -/
def execMaxuI (p : SPos) (o : FI) (s : State) : Out :=
  s.intFI (.maxuI p o) o 1 (max)
/-- `mul` (R131). -/
def execMul (p : SPos) (o : FR) (s : State) : Out :=
  s.intFR (.mul p o) o 3 (fun a b => a * b)
/-- `mul` with an immediate (R131). -/
def execMulI (p : SPos) (o : FI) (s : State) : Out :=
  s.intFI (.mulI p o) o 3 (fun a b => a * b)
/-- `shl` (R133). -/
def execShl (p : SPos) (o : FR) (s : State) : Out :=
  s.shiftFR (.shl p o) o .shl
/-- `shl` with an immediate (R133). -/
def execShlI (p : SPos) (o : FI) (s : State) : Out :=
  s.shiftFI (.shlI p o) o .shl
/-- `shr` (R133). -/
def execShr (p : SPos) (o : FR) (s : State) : Out :=
  s.shiftFR (.shr p o) o .shr
/-- `shr` with an immediate (R133). -/
def execShrI (p : SPos) (o : FI) (s : State) : Out :=
  s.shiftFI (.shrI p o) o .shr
/-- `sar` (R133). -/
def execSar (p : SPos) (o : FR) (s : State) : Out :=
  s.shiftFR (.sar p o) o .sar
/-- `sar` with an immediate (R133). -/
def execSarI (p : SPos) (o : FI) (s : State) : Out :=
  s.shiftFI (.sarI p o) o .sar
/-- `rol` (R133). -/
def execRol (p : SPos) (o : FR) (s : State) : Out :=
  s.shiftFR (.rol p o) o .rol
/-- `rol` with an immediate (R133). -/
def execRolI (p : SPos) (o : FI) (s : State) : Out :=
  s.shiftFI (.rolI p o) o .rol
/-- `ror` (R133). -/
def execRor (p : SPos) (o : FR) (s : State) : Out :=
  s.shiftFR (.ror p o) o .ror
/-- `ror` with an immediate (R133). -/
def execRorI (p : SPos) (o : FI) (s : State) : Out :=
  s.shiftFI (.rorI p o) o .ror
/-- `mulh` (R131). -/
def execMulh (p : SPos) (o : FR) (s : State) : Out :=
  s.intFR (.mulh p o) o 4 (highHalf (fmtWidth o.ty))
/-- `mulhu` (R131). -/
def execMulhu (p : SPos) (o : FR) (s : State) : Out :=
  s.intFR (.mulhu p o) o 4 (highHalf (fmtWidth o.ty))
/-- `div` (R132). -/
def execDiv (p : SPos) (o : FR) (s : State) : Out :=
  s.intFR (.div p o) o 24 (quot)
/-- `divu` (R132). -/
def execDivu (p : SPos) (o : FR) (s : State) : Out :=
  s.intFR (.divu p o) o 24 (quot)
/-- `rem` (R132). -/
def execRem (p : SPos) (o : FR) (s : State) : Out :=
  s.intFR (.rem p o) o 24 (remn)
/-- `remu` (R132). -/
def execRemu (p : SPos) (o : FR) (s : State) : Out :=
  s.intFR (.remu p o) o 24 (remn)
/-- `madd`: a × b + s[C] (R131). -/
def execMadd (p : SPos) (o : FR) (s : State) : Out :=
  s.syl (.madd p o) fun s =>
    s.giveInt o.ty o.sat o.d o.lat 3 (s.srcA o.ty o.a * s.srcA o.ty o.b + s.srcA o.ty o.c)
/-- `madd` with an immediate: a × imm + s[D] as read at issue (R131). -/
def execMaddI (p : SPos) (o : FI) (s : State) : Out :=
  s.syl (.maddI p o) fun s =>
    s.giveInt o.ty o.sat o.d o.lat 3 (s.srcA o.ty o.a * immInt o + s.srcA o.ty o.d)
/-- `clz` (R134). -/
def execClz (p : SPos) (o : FR) (s : State) : Out :=
  s.countFR (.clz p o) o lzCount
/-- `ctz` (R134). -/
def execCtz (p : SPos) (o : FR) (s : State) : Out :=
  s.countFR (.ctz p o) o tzCount
/-- `popc` (R134). -/
def execPopc (p : SPos) (o : FR) (s : State) : Out :=
  s.countFR (.popc p o) o popCount
/-- `bswap` (R134). -/
def execBswap (p : SPos) (o : FR) (s : State) : Out :=
  s.syl (.bswap p o) fun s =>
    s.giveInt o.ty false o.d o.lat 1 (byteSwap (fmtWidth o.ty) ((s.rs o.a).toNat % 2 ^ fmtWidth o.ty) : Nat)
/-- `mov` (R135). -/
def execMov (p : SPos) (o : FR) (s : State) : Out :=
  s.syl (.mov p o) fun s => s.giveWord o.d o.lat 1 (s.rs o.a)
/-- `movx` between the scalar and index files, the direction in V (R135). -/
def execMovx (p : SPos) (o : FR) (s : State) : Out :=
  s.syl (.movx p o) fun s =>
    if o.v then s.giveWord o.d o.lat 1 ((s.readX (s.spec 8 o.a)).setWidth 64)
    else .ok (s.put ⟨.x, s.spec 8 o.d⟩ ((s.rs o.a).setWidth 16 |>.setWidth 4096) (allBits 16) (bound o.lat 1))
/-- `ext`: a field of s[A], sign-extended for INT64 and zero-extended for UINT64 (R136). -/
def execExt (p : SPos) (o : FI) (s : State) : Out :=
  s.syl (.ext p o) fun s =>
    let pos := bits o.imm.toNat 5 0
    let len := bits o.imm.toNat 11 6 + 1
    let x := (s.rs o.a).toNat >>> pos % 2 ^ len
    s.giveWord o.d o.lat 1 (BitVec.ofNat 64 (if o.ty = 8 then wrapInt 64 (toSigned len x) else x))
/-- `ins`: a field of s[D] replaced by the low bits of s[A] (R136). -/
def execIns (p : SPos) (o : FI) (s : State) : Out :=
  s.syl (.ins p o) fun s =>
    let pos := bits o.imm.toNat 5 0
    let len := bits o.imm.toNat 11 6 + 1
    s.giveWord o.d o.lat 1 (setBits (s.rs o.d) (pos + len - 1) pos (s.rs o.a).toNat)
/-- `cmp` with a condition: 1 or 0 (R137). -/
def execCmp (p : SPos) (o : FR) (s : State) : Out :=
  s.syl (.cmp p o) fun s =>
    let h := condHolds o.xmod.toNat (cmpIn o.ty (s.rs o.a).toNat (s.rs o.b).toNat)
    s.giveWord o.d o.lat 1 (if h then 1 else 0)
/-- `cmp` with an immediate: the relation mask (R137). -/
def execCmpI (p : SPos) (o : FI) (s : State) : Out :=
  s.syl (.cmpI p o) fun s =>
    s.giveWord o.d o.lat 1 (BitVec.ofNat 64 (relMask (some (compare (s.srcA o.ty o.a) (immInt o)))))
/-- `sel` (R137). -/
def execSel (p : SPos) (o : FR) (s : State) : Out :=
  s.syl (.sel p o) fun s => s.giveWord o.d o.lat 1 (if s.rs o.c ≠ 0 then s.rs o.a else s.rs o.b)
/-- `li`: the 23-bit immediate, sign- or zero-extended (R138). -/
def execLi (p : SPos) (o : FI) (s : State) : Out :=
  s.syl (.li p o) fun s => s.giveWord o.d o.lat 1 (BitVec.ofNat 64 (intImm 64 o.v o.imm))
/-- `lih`: 21 bits of s[A] replaced at 22 + 21 × Q (R138). -/
def execLih (p : SPos) (o : FI) (s : State) : Out :=
  s.syl (.lih p o) fun s =>
    let pos := 22 + 21 * bits o.imm.toNat 22 21
    s.giveWord o.d o.lat 1 (setBits (s.rs o.a) (pos + 20) pos (bits o.imm.toNat 20 0))
/-- `fadd` (R139). -/
def execFadd (p : SPos) (o : FR) (s : State) : Out :=
  s.floatFR (.fadd p o) o 4 (fadd' 0x10 o.v false)
/-- `fadd` with a BF16 immediate (R94, R139). -/
def execFaddI (p : SPos) (o : FI) (s : State) : Out :=
  s.floatFI (.faddI p o) o 4 (fadd' 0x10 o.v false)
/-- `fsub` (R139). -/
def execFsub (p : SPos) (o : FR) (s : State) : Out :=
  s.floatFR (.fsub p o) o 4 (fsub' 0x10 o.v false)
/-- `fsub` with a BF16 immediate (R94, R139). -/
def execFsubI (p : SPos) (o : FI) (s : State) : Out :=
  s.floatFI (.fsubI p o) o 4 (fsub' 0x10 o.v false)
/-- `fmul` (R139). -/
def execFmul (p : SPos) (o : FR) (s : State) : Out :=
  s.floatFR (.fmul p o) o 4 (fmul' 0x10 o.v false)
/-- `fmul` with a BF16 immediate (R94, R139). -/
def execFmulI (p : SPos) (o : FI) (s : State) : Out :=
  s.floatFI (.fmulI p o) o 4 (fmul' 0x10 o.v false)
/-- `ffma`: a × b + s[C], one rounding (R139). -/
def execFfma (p : SPos) (o : FR) (s : State) : Out :=
  s.syl (.ffma p o) fun s =>
    s.giveWord o.d o.lat 4 (BitVec.ofNat 64 (ffma' 0x10 o.v false (s.srcF o.a) (s.srcF o.b) (s.srcF o.c)))
/-- `fmin` (R139). -/
def execFmin (p : SPos) (o : FR) (s : State) : Out :=
  s.floatFR (.fmin p o) o 2 (fpick 0x10 true)
/-- `fmin` with a BF16 immediate (R94, R139). -/
def execFminI (p : SPos) (o : FI) (s : State) : Out :=
  s.floatFI (.fminI p o) o 2 (fpick 0x10 true)
/-- `fmax` (R139). -/
def execFmax (p : SPos) (o : FR) (s : State) : Out :=
  s.floatFR (.fmax p o) o 2 (fpick 0x10 false)
/-- `fmax` with a BF16 immediate (R94, R139). -/
def execFmaxI (p : SPos) (o : FI) (s : State) : Out :=
  s.floatFI (.fmaxI p o) o 2 (fpick 0x10 false)
/-- `fcmp` with a condition (R141). -/
def execFcmp (p : SPos) (o : FR) (s : State) : Out :=
  s.floatFR (.fcmp p o) o 2 fun a b => if condHolds o.xmod.toNat (cmpIn 0x10 a b) then 1 else 0
/-- `fcmp` with an immediate: the relation mask (R141). -/
def execFcmpI (p : SPos) (o : FI) (s : State) : Out :=
  s.floatFI (.fcmpI p o) o 2 fun a b => relMask (cmpIn 0x10 a b)
/-- `fcvt`: TYPE2 to TYPE; an integer result is extended to 64 bits (R139, R140). -/
def execFcvt (p : SPos) (o : FR) (s : State) : Out :=
  s.syl (.fcvt p o) fun s =>
    let x := convert o.ty o.ty2 o.v o.sat ((s.rs o.a).toNat % 2 ^ fmtWidth o.ty2)
    s.giveWord o.d o.lat 3 (if isFloat o.ty then BitVec.ofNat 64 x else widen o.ty x)
/-- `fabs`: the sign bit cleared (R139). -/
def execFabs (p : SPos) (o : FR) (s : State) : Out :=
  s.syl (.fabs p o) fun s => s.giveWord o.d o.lat 1 (BitVec.ofNat 64 (s.srcF o.a % 2 ^ 31))
/-- `fneg`: the sign bit inverted (R139). -/
def execFneg (p : SPos) (o : FR) (s : State) : Out :=
  s.syl (.fneg p o) fun s => s.giveWord o.d o.lat 1 (BitVec.ofNat 64 (s.srcF o.a ^^^ 2 ^ 31))

end Sys2Proof.Machine
end

