-- ==== Sys2Proof/Machine/Control.lean ====
section
/-! DEFINITION. The class C instructions of transfer, system and identity (R116, R142-R154, R400-R402). -/

namespace Sys2Proof.Machine

/-! ### The resident image (R108-R111, R347) -/

def State.image (s : State) (g : Nat) : Option Image := (s.core' (coreOf g)).image
/-- An offset at which a bundle of the stream starts (R111). -/
def Image.startsAt (i : Image) (t : Nat) : Bool := decide (t < i.stream.length) && !(i.interior.getD t false)
/-- Size of the bundle at issue in halfwords (R109). -/
def State.bundleSize (s : State) : Nat := if s.issue.literal then 25 else 1
/-- A transfer to an exact offset, checked under R111. -/
def State.goto (s : State) (t : Int) : Except Halt State :=
  match s.image s.cur with
  | some i =>
    if 0 ≤ t ∧ i.startsAt t.toNat then .ok { s with issue := { s.issue with next := some t.toNat } } else .error (.code 0x03)
  | none => .error (.code 0x03)
/-- PC + OFF. -/
def State.rel (s : State) (off : BitVec 23) : Int := (s.me.pc : Int) + off.toInt

/-- `nop` (R116). -/
def execNop (k : Slot) (s : State) : Out := s.syl (.nop k) fun s => .ok s
/-- `br` (R142). -/
def execBr (o : FB) (s : State) : Out := s.syl (.br o) fun s => s.goto (s.rel o.off)
/-- `bc`: taken when s[A], as signed 64-bit, meets COND (R142). -/
def execBc (o : FB) (s : State) : Out :=
  s.syl (.bc o) fun s => if zeroTest o.cond.toNat (s.rs o.a).toInt then s.goto (s.rel o.off) else .ok s
/-- `call`: the link receives the next sequential offset (R142). -/
def execCall (o : FB) (s : State) : Out :=
  s.syl (.call o) fun s => (s.goto (s.rel o.off)).map fun t =>
    t.putS (s.spec 64 o.d) (BitVec.ofNat 64 (s.me.pc + s.bundleSize)) 1
/-- `ret`: to s[A], read as unsigned (R142). -/
def execRet (o : FB) (s : State) : Out := s.syl (.ret o) fun s => s.goto (s.rs o.a).toNat
/-- LP0 and LP1 as R69 lays them out. -/
def lpWord (count start stop : Nat) : Word := BitVec.ofNat 64 (count % 2 ^ 24 + start % 2 ^ 20 * 2 ^ 24 + stop % 2 ^ 20 * 2 ^ 44)
/-- `loop` (R143). -/
def execLoop (o : FB) (s : State) : Out :=
  s.syl (.loop o) fun s => do
    let n := (s.rs o.a).toNat
    ensure (decide (n < 2 ^ 24)) 0x08
    let start := s.me.pc + s.bundleSize
    let stop := s.rel o.off
    let t ← s.goto (if n = 0 then stop else (start : Int))
    .ok (t.putCr (9 + o.d.toNat) (lpWord n start stop.toNat))
/-- `jt`: a table of offsets in scalar registers (R144). -/
def execJt (o : FB) (s : State) : Out :=
  s.syl (.jt o) fun s =>
    let i := (s.rs o.a).toNat
    if i ≤ o.cond.toNat then s.goto ((s.me.pc : Int) + ((s.readS (o.d.toNat + i)).setWidth 32).toInt) else s.goto (s.rel o.off)
/-- `bsel`: the smallest bucket that holds s[A] (R145, R370). -/
def execBsel (o : FB) (s : State) : Out :=
  s.syl (.bsel o) fun s =>
    let v := (s.rs o.a).toNat
    let table := ((s.image s.cur).map fun i => i.buckets.getD o.off.toNat []).getD []
    match table.find? fun b => v ≤ b.1 with
    | none => .error (.code 0x08)
    | some (bnd, target) =>
      let (xl, vl, w) := match o.cond.toNat with | 0 => (64, 78, 7) | 1 => (71, 85, 7) | _ => (92, 110, 18)
      let m := 2 ^ w - 1
      (s.goto target).map fun t =>
        t.putSh (s.spec 8 o.d) (BitVec.ofNat 128 (bnd % 2 ^ w * 2 ^ xl + v % 2 ^ w * 2 ^ vl)) (BitVec.ofNat 128 (m * 2 ^ xl + m * 2 ^ vl)) 1

/-! ### Halt, trap and system calls (R146-R149) -/

/-- Tokens that `halt` waits for (R147): every pending one but that of a slot still bound. -/
def Ctx.haltWaits (c : Ctx) : Bool :=
  c.tk.any fun e => e.2.st = .pending && !(e.2.bind && (List.range 8).any fun n => (c.stream n).bound && (c.stream n).token = e.1)

/-- The unbinding of a bound slot begins (R147, R293): an input slot drops its tiles at once. -/
def Stream.unbind (t : Stream) (serial : Nat) : Stream :=
  if t.bound then { t with unbinding := serial, tiles := if t.out then t.tiles else [] } else t
/-- The unbinding of every bound slot begins. -/
def Ctx.unbindAll (c : Ctx) (serial : Nat) : Ctx := (List.range 8).foldl (fun c n => c.setStream n ((c.stream n).unbind serial)) c

/-- A context's Deck stages are released: OWNED becomes 0, FULL stays (R336). -/
def State.releaseDeck (s : State) (g : Nat) : State :=
  (List.range 4).foldl (fun s t => s.modTower t fun w =>
    { w with deck := (List.range 16).foldl (fun d n =>
        let st := tget {} d n
        let st := { st with line := st.line.filter fun x => x.1 ≠ g }
        tset {} d n (if st.owned ∧ st.owner = g then { st with owned := false, owner := 0, flipped := some s.tick } else st)) w.deck }) s

/-- A slot stops being a party of the tags its launch owns (R382). -/
def State.leaveBars (s : State) (g : Nat) : State :=
  match (s.ctx g).launch with
  | none => s
  | some l =>
    (List.range 8).foldl (fun s n =>
      let b := s.bar n
      let now := ((s.launch l).map fun x => decide (x.phase = (s.ctx g).phase)).getD false
      if b.owned ∧ b.launch = l ∧ now ∧ 0 < b.parties then (s.setBar n { b with parties := b.parties - 1 }).barTest n else s) s

/-- A context slot's phase work ends in the tick its `halt` commits (R358). -/
def State.endWork (s : State) (g : Nat) : State :=
  let c := s.ctx g
  let done := fun w : EngWork => if w.phase = c.phase ∧ w.unit = c.task ∧ w.st = 2 then { w with st := 3, done' := s.tick } else w
  s.modDealer fun d =>
    { d with launches := d.launches.map fun l => if some l.id = c.launch then { l with work := l.work.map done } else l }

/-- `halt` (R147): waits for tokens, then ends the kernel. What follows the landing of its results, and the slot's release, are
HALT_COMPLETE's. -/
def execHalt (o : FX) (s : State) : Out :=
  s.syl (.halt o) fun s => do
    unblocked (!s.me.haltWaits) 2
    let g := s.cur
    .ok (((s.modCtx g fun c => { c with halting := true }).leaveBars g).endWork g)
/-- The results of a halting context have landed: its slots unbind, its Meld lines are flushed, its stages released and its records
discarded (R147). -/
def State.unwind (s : State) (g : Nat) : State :=
  ((s.modCtx g fun c => { c.unbindAll 1 with unwound := true, evq := [] }).meldFlush g 0xFFFF).releaseDeck g
/-- It is time for that. -/
def State.unwindDue (s : State) (g : Nat) : Bool := let c := s.ctx g; c.halting && !c.unwound && c.inflight.isEmpty

/-- `trap`: the fault TRAP with POINT = code (R148). -/
def execTrap (o : FX) (s : State) : Out :=
  s.syl (.trap o) fun _ => .error (.fault 0x0C (bits o.imm.toNat 15 0) 0 none)

/-- `sysc`: a request to the Dealer; a fifth unanswered one blocks (R149). -/
def execSysc (o : FX) (s : State) : Out :=
  s.syl (.sysc o) fun s => do
    unblocked (decide (s.me.sysc.length < 4)) 1
    let r : SyscReq := { seq := s.me.seq, service := bits o.imm.toNat 15 0, arg0 := s.rs o.a, arg1 := s.rs o.b }
    let t := s.modCtx s.cur fun c => { c with sysc := c.sysc ++ [r], seq := (c.seq + 1) % 2 ^ 16 }
    .ok (t.putS (s.spec 64 o.d) (BitVec.ofNat 64 s.me.seq) 1)

/-! ### Control registers (R60, R150-R152) -/

/-- The register as it stands at issue; unassigned numbers read 0 (R60, R151). -/
def State.readCr (s : State) (n : Nat) : Word :=
  let c := s.me
  let v := s.vf c.vfid
  if 0x10 ≤ n ∧ n < 0x20 then
    let sh := s.readSh ((n - 0x10) / 2)
    if n % 2 = 0 then sh.setWidth 64 else sh.extractLsb' 64 64
  else match n with
    | 0 => c.memdef
    | 1 => c.faultpt
    | 2 => BitVec.ofNat 64 c.faultpc
    | 3 => BitVec.ofNat 64 (1 + (if c.resumed then 64 else 0) + c.stage % 16 * 256)
    | 4 => BitVec.ofNat 64 (c.vfid % 8)
    | 5 => BitVec.ofNat 64 (c.evcfg % 16 + c.evq.length * 256 + if c.ovf then 2 ^ 15 else 0)
    | 6 => BitVec.ofNat 64 (s.tower (towerOf s.cur)).lmap
    | 7 => govWord (s.quad (quadOf s.cur))
    | 8 => BitVec.ofNat 64 (bits v.part.toNat 63 32 + v.used % 2 ^ 32 * 2 ^ 32)
    | 9 => c.lp0
    | 10 => c.lp1
    | 11 => c.largs
    | _ => 0

/-- The vector half keeps the ranges of R55. -/
def vecHalfOk (v : Nat) : Bool :=
  decide (1 ≤ bits v 10 0 ∧ bits v 10 0 ≤ 1024 ∧ 1 ≤ bits v 21 11 ∧ bits v 21 11 ≤ 1024 ∧
    bits v 32 22 ≤ bits v 10 0 ∧ bits v 43 33 ≤ bits v 21 11)
/-- The cube half keeps the ranges of R55. -/
def cubeHalfOk (v : Nat) : Bool :=
  decide (1 ≤ bits v 6 0 ∧ bits v 6 0 ≤ 64 ∧ 1 ≤ bits v 13 7 ∧ bits v 13 7 ≤ 64 ∧ bits v 20 14 ≤ bits v 6 0 ∧
    bits v 27 21 ≤ bits v 13 7 ∧ 1 ≤ bits v 45 28 ∧ bits v 45 28 ≤ 262143 ∧ bits v 63 46 ≤ bits v 45 28)

/-- `rdcr`. -/
def execRdcr (o : FR) (s : State) : Out := s.syl (.rdcr o) fun s => s.giveWord o.d o.lat 2 (s.readCr o.b.toNat)

/-- `wrcr`: the effect each register gives the write (R152), from the next bundle onward. -/
def execWrcr (o : FR) (s : State) : Out :=
  s.syl (.wrcr o) fun s =>
    let v := s.rs o.a
    let n := o.b.toNat
    if 0x10 ≤ n ∧ n < 0x20 then
      let half := BitVec.ofNat 128 (2 ^ 64 - 1)
      if n % 2 = 0 then
        if vecHalfOk v.toNat then .ok (s.putSh ((n - 0x10) / 2) (v.setWidth 128 &&& BitVec.ofNat 128 (2 ^ 44 - 1)) half 1)
        else .error (.code 0x09)
      else if cubeHalfOk v.toNat then .ok (s.putSh ((n - 0x10) / 2) (v.setWidth 128 <<< 64) (half <<< 64) 1)
      else .error (.code 0x09)
    else match n with
      | 0 => if 6 ≤ bits v.toNat 6 4 ∨ 6 ≤ bits v.toNat 9 7 then .error (.code 0x08) else .ok (s.putCr 0 v)
      | 3 => .ok s
      | 5 => .ok (s.putCr 5 v)
      | 9 => .ok (s.putCr 9 v)
      | 10 => .ok (s.putCr 10 v)
      | _ => .error (.code 0x0A)

/-! ### Identity and time (R153, R154, R400) -/

/-- The identity tuple of the issuing context (R153). -/
def State.identity (s : State) : Word :=
  let g := s.cur
  BitVec.ofNat 64 (g % 4 + coreOf g % 4 * 4 + quadOf g % 48 * 16 + towerOf g * 1024 + s.me.stage % 16 * 4096 + coreOf g * 65536)
/-- `rdid` (R153). -/
def execRdid (o : FR) (s : State) : Out := s.syl (.rdid o) fun s => s.giveWord o.d o.lat 1 s.identity
/-- `rdtick` (R154). -/
def execRdtick (o : FR) (s : State) : Out := s.syl (.rdtick o) fun s => s.giveWord o.d o.lat 1 (BitVec.ofNat 64 s.tick)

/-- A tower's governor step: the largest among its layers (R23). -/
def State.towerStep (s : State) (t : Nat) : Nat :=
  s.quads.foldl (fun m e => if e.1 / 48 = t then e.2.gov.foldl (fun m x => max m x.2) m else m) 0
/-- The package stretch step S (R23). -/
def State.stretchStep (s : State) : Nat :=
  (List.range 4).foldl (fun m t => if s.towerRigid t then max m (s.towerStep t) else m) 0
/-- `rdgov` (R400). -/
def execRdgov (o : FR) (s : State) : Out :=
  s.syl (.rdgov o) fun s =>
    let v := (govWord (s.quad (quadOf s.cur))).toNat + s.stretchStep % 8 * 2 ^ 27 +
      (if s.towerRigid (towerOf s.cur) then 2 ^ 30 else 0) + if s.droop then 2 ^ 31 else 0
    s.giveWord o.d o.lat 2 (BitVec.ofNat 64 v)

/-! ### Counters (R401, R402) -/

/-- The barrier tag register of R382. -/
def BarTag.word (b : BarTag) : Nat :=
  b.parties % 4096 + b.arrived % 4096 * 2 ^ 12 + b.gen % 65536 * 2 ^ 24 + b.vf % 8 * 2 ^ 40 +
    (if b.owned then 2 ^ 43 else 0) + if b.heldB then 2 ^ 44 else 0
/-- Bits [63:0] of a byte-counting barrier (R392). -/
def ByteBar.word (b : ByteBar) : Nat :=
  (if b.bound then 1 else 0) + (if b.posted then 2 else 0) + (if b.ovr then 4 else 0) + b.vf % 8 * 8 + b.gen % 65536 * 64

/-- Counter NUMBER at INDEX as owner instance `g` sees it (R402). -/
def State.counter (s : State) (g n i : Nat) : Nat :=
  let c := s.ctx g
  let v := s.vf c.vfid
  let q := s.quad (quadOf g)
  let w := s.tower (towerOf g)
  let at0 := fun x : Nat => if i = 0 then x else 0
  let upTo := fun (k : Nat) (t : Tbl Nat) => if i < k then tget 0 t (ctrKey n i) else 0
  match n with
  | 0x00 => at0 s.tick
  | 0x01 | 0x02 => upTo 1 s.pctr
  | 0x03 | 0x04 => upTo 8 q.ctr
  | 0x05 => at0 q.lease.count
  | 0x06 => at0 (if q.lease.holder.isSome then min (s.tick - q.lease.grant) 65536 else 0)
  | 0x07 => at0 (match q.lease.holder with | some h => h % 4 + h / 4 * 4 + 16 | none => 0)
  | 0x08 => if i < 8 then (s.bar i).word else 0
  | 0x09 => if i < 16 then (tget {} w.bcs i).word else 0
  | 0x0A => at0 (64 - (w.trigs.filter fun e => e.2.valid).length - w.trigSub)
  | 0x10 | 0x11 => upTo 5 v.ctr
  | 0x12 | 0x14 | 0x18 | 0x19 | 0x1A => upTo 1 v.ctr
  | 0x13 | 0x20 | 0x22 => upTo 1 c.ctr
  | 0x15 => if i < 8 then tget 0 q.katerr i else 0
  | 0x16 | 0x23 | 0x24 => upTo 1 q.ctr
  | 0x17 | 0x25 => upTo 1 (s.core' (coreOf g)).ctr
  | 0x21 => if i = 0 then 0 else upTo 11 c.ctr
  | _ => 0

/-- `rdctr`. -/
def execRdctr (o : FR) (s : State) : Out :=
  s.syl (.rdctr o) fun s => do
    let sel := (s.rs o.a).toNat
    ensure (decide (sel < 65536)) 0x08
    s.giveWord o.d o.lat 4 (BitVec.ofNat 64 (s.counter s.cur (bits sel 7 0) (bits sel 15 8)))

end Sys2Proof.Machine
end

