-- ==== Sys2Proof/Machine/Sync.lean ====
section
/-! DEFINITION. The class C instructions of order, waiting, the Deck, leases and event records (R115, R194, R305-R307,
R317, R326, R327, R337, R384, R387, R395-R398). -/

namespace Sys2Proof.Machine

/-! ### Order (R303-R307) -/

/-- The remote-engine commands of a context that have not ended, in any core's queue (R71). -/
def State.remCmds (s : State) (g : Nat) : List Cmd :=
  s.cores.flatMap fun e => (e.2.remq ++ e.2.remLoose).filter fun c => c.g = g
/-- `rld` and `amo.*`, whose reads wait in an engine. -/
def isLateRead : Instr → Bool
  | .rld _ | .amoAdd _ | .amoAnd _ | .amoOr _ | .amoXor _ | .amoMin _ | .amoMax _ | .amoSwap _ | .amoCas _ => true
  | _ => false
/-- `rst`, `red.*`, `tacq` and `trel`: the other accesses of a context that an engine makes (R295). -/
def isLateAccess : Instr → Bool
  | .rst _ | .redAdd _ | .redAnd _ | .redOr _ | .redXor _ | .redMin _ | .redMax _ | .redFadd _ | .tacq _ | .trel _ => true
  | i => isLateRead i
/-- A read of a class in `m` has not been performed. -/
def State.readsPending (s : State) (g m : Nat) : Bool := (s.remCmds g).any fun c => isLateRead c.instr && bit m c.mods.cls
/-- An access of a class in `m` has not been performed, or waits in the Meld. -/
def State.accessPending (s : State) (g m : Nat) : Bool :=
  s.writesPending g m || (s.remCmds g).any (fun c => isLateAccess c.instr && bit m c.mods.cls) ||
    (s.core' (coreOf g)).meld.any fun l => l.g = g && bit m l.mods.cls
/-- A release of the classes in `m`: it waits for the accesses, the Meld flushed (R305, R317), and loads on their way take their
values. -/
def State.release (s : State) (m wait : Nat) : Except Halt State := do
  unblocked (!s.accessPending s.cur m) wait (.flush m)
  .ok (s.takeClasses m)
/-- An acquire of the classes in `m`: it waits for the reads alone. -/
def State.acquire (s : State) (m : Nat) : Except Halt State := do
  unblocked (!s.readsPending s.cur m) 2
  .ok (s.takeClasses m)
/-- A release at POD scope writes dirty lines back (R318). -/
def State.podRelease (s : State) (scope : Nat) : State := if scope = 5 then s.cleanLines fun _ => true else s

/-- Some named token is pending. -/
def State.tokensPending (s : State) (l : List (BitVec 7)) : Bool := l.any fun x => (s.me.token (s.spec 32 x)).st = .pending

/-- The commands that named tokens wait for. -/
def State.pendingOf (s : State) (l : List (BitVec 7)) : List Nat :=
  (l.map fun x => s.me.token (s.spec 32 x)).filterMap fun t => if t.st = .pending then some t.by' else none

/-- `fence` (R305-R307): the named tokens, then the orders of its classes. -/
def execFence (o : FX) (s : State) : Out :=
  s.syl (.fence o) fun s => do
    let v := o.imm.toNat
    let m := bits v 15 0
    let toks := [o.d, o.a, o.b].take (bits v 22 21)
    unblocked (!s.tokensPending toks) 2 (.await (s.pendingOf toks))
    if bits v 20 19 = 1 then s.acquire m
    else if m = 0 ∧ bits v 22 21 = 0 then .ok s
    else
      let s ← s.release m 2
      .ok (s.podRelease (bits v 18 16))

/-- `mod` (R115): the modifiers of the bundle's slot-E access. -/
def execMod (o : FX) (s : State) : Out :=
  s.syl (.mod o) fun s => .ok { s with issue := { s.issue with mod := some o.imm } }

/-! ### Waits -/

/-- `bar` (R384): the arrival is the effect of a blocked issue; a later issue commits once GEN has moved. -/
def execBar (o : FX) (s : State) : Out :=
  s.syl (.bar o) fun s =>
    let n := bits o.imm.toNat 2 0
    let b := s.bar n
    match tget none s.me.arrivals n with
    | some g =>
      if b.gen ≠ g then .ok ((s.takeClasses 0xFFFF).modCtx s.cur fun c => { c with arrivals := tset none c.arrivals n none })
      else .error (.block 4 .none)
    | none => do
      ensure (b.owned && decide (some b.launch = s.me.launch)) 0x11
      let _ ← s.release 0xFFFF 4
      .error (.block 4 (.arrive n))

/-- `flagwait` (R387): an acquire read of an eight-byte flag. The value of an uncorrectable word is not stated. -/
def execFlagwait (o : FX) (s : State) : Out :=
  s.syl (.flagwait o) fun s => do
    let a := s.rs o.a
    let v := s.me.vfid
    let x ← s.xmap v a
    if a.toNat % 8 ≠ 0 then .error (.fault 0x10 0 a none)
    else if x.tier ≠ 2 ∧ x.tier ≠ 3 then .error (.fault 0x12 0 a none)
    else if !s.permOk v x true false then .error (.fault 0x11 0 a none)
    else if !s.tokenOk x 0 then .error (.fault 0x13 0 a none)
    else
      let w := if badIn s.memBad x.pa 8 then Config.number s.fresh 8 % 2 ^ 64 else s.readLe x.pa 8
      unblocked (decide ((w + 2 ^ 64 - (s.rs o.b).toNat) % 2 ^ 64 < 2 ^ 63)) 5 (.watch x.pa)
      let s ← s.acquire 0xFFFF
      .ok (((s.fillWalk v x).eccMet v s.cur x.pa 8).putS (s.spec 64 o.d) (BitVec.ofNat 64 w) 2)

/-- `evwait` (R327). -/
def execEvwait (o : FX) (s : State) : Out :=
  s.syl (.evwait o) fun s => do
    unblocked (decide (bits o.imm.toNat 6 0 ≤ s.me.evq.length)) 6
    .ok s

/-- `bcwait` (R395). -/
def execBcwait (o : FX) (s : State) : Out :=
  s.syl (.bcwait o) fun s => do
    let b := tget {} (s.tower (towerOf s.cur)).bcs (bits o.imm.toNat 3 0)
    ensure (decide (b.vf = s.me.vfid)) 0x11
    unblocked (!b.posted) 7
    let s ← s.acquire 0xFFFF
    .ok (s.putS (s.spec 64 o.d) (BitVec.ofNat 64 b.word) 2)

/-- `tkwait` (R396): the error mask of one to three tokens. -/
def execTkwait (o : FX) (s : State) : Out :=
  s.syl (.tkwait o) fun s => do
    let v := o.imm.toNat
    let toks := [o.a, o.b, BitVec.ofNat 7 (bits v 22 16)].take (bits v 1 0)
    unblocked (!s.tokensPending toks) 10 (.await (s.pendingOf toks))
    let errs := toks.zipIdx.map fun t => if (s.me.token (s.spec 32 t.1)).st = .doneErr then 2 ^ t.2 else 0
    .ok (s.putS (s.spec 64 o.d) (BitVec.ofNat 64 errs.sum) 1)

/-- `tkset` (R397). -/
def execTkset (o : FX) (s : State) : Out :=
  s.syl (.tkset o) fun s => do
    unblocked (!s.tokensPending [o.d]) 2
    .ok (s.put ⟨.tk, s.spec 32 o.d⟩ (o.imm.setWidth 4096) (allBits 2) 1)

/-! ### The Deck (R336, R337) -/

/-- The stage an operand names, its upper bits zero. -/
def stageNum (v : Word) : Except Halt Nat := if v.toNat < 16 then .ok v.toNat else .error (.code 0x08)
/-- The address of a stage buffer (R335). -/
def stageAddr (w : Tower) (st : Stage) : Word := w.vbase + BitVec.ofNat 64 st.bufoff

/-- The line in the order in which its contexts blocked, lower numbers first in a tick. -/
def Stage.inOrder (st : Stage) : List (Nat × Bool × Nat) :=
  st.line.foldl (fun l x =>
    (l.filter fun y => decide (y.2.2 < x.2.2 ∨ (y.2.2 = x.2.2 ∧ y.1 < x.1))) ++ [x] ++
      l.filter fun y => !decide (y.2.2 < x.2.2 ∨ (y.2.2 = x.2.2 ∧ y.1 < x.1))) []
/-- The first in line for a state of the stage: the live context that has waited longest, with the tick at which it blocked. -/
def Stage.first (st : Stage) (full : Bool) : Option (Nat × Nat) :=
  (st.inOrder.find? fun x => x.2.1 = full && decide (x.1 < 4096)).map fun x => (x.1, x.2.2)
/-- A `stacq` of context `g` at tick `t` takes the stage: it is free in the wanted state, and nobody waits for it, or `g` itself since
this tick. -/
def Stage.open' (st : Stage) (full : Bool) (g t : Nat) : Bool :=
  decide (st.full = full ∧ !st.owned) && (match st.first full with | none => true | some x => x = (g, t))
/-- `stacq` (R337): contexts in line for one state of the stage are served in order, one tick after the stage is free
(STACQ_GRANT). -/
def execStacq (o : FR) (s : State) : Out :=
  s.syl (.stacq o) fun s => do
    let n ← stageNum (s.rs o.a)
    let t := towerOf s.cur
    let w := s.tower t
    let st := tget {} w.deck n
    let full := bit o.xmod.toNat 0
    ensure (decide (st.vf = s.me.vfid)) 0x11
    if st.owned ∧ st.owner = s.cur then
      ensure (st.full == full) 0x08
      let s ← s.acquire 0xFFFF
      s.giveWord o.d o.lat 2 (stageAddr w st)
    else
      unblocked (st.open' full s.cur s.tick) 8 (.wantStage t n full)
      let s ← s.acquire 0xFFFF
      let st' := { st with owned := true, owner := s.cur, line := st.line.filter fun x => x.1 ≠ s.cur }
      (s.setTower t { w with deck := tset {} w.deck n st' }).giveWord o.d o.lat 2 (stageAddr w st)

/-- `strel` (R337): the release of R317, then the flip, which a `stacq` of the same tick sees. -/
def execStrel (o : FR) (s : State) : Out :=
  s.syl (.strel o) fun s => do
    let n ← stageNum (s.rs o.a)
    let t := towerOf s.cur
    let st := tget {} (s.tower t).deck n
    ensure (decide (st.vf = s.me.vfid)) 0x11
    ensure (st.owned && decide (st.owner = s.cur)) 0x08
    let s ← s.release 0xFFFF 2
    .ok (s.modTower t fun w =>
      { w with deck := tset {} w.deck n { st with full := !st.full, owned := false, flipped := some s.tick } })

/-! ### Leases (R194) -/

/-- The context holds its cube's lease and may issue commands under it. -/
def State.holds (s : State) (g : Nat) : Bool :=
  let l := (s.quad (quadOf g)).lease
  decide (l.holder = some (g % 16)) && !l.ended

/-- `clease`. -/
def execClease (o : FR) (s : State) : Out :=
  s.syl (.clease o) fun s => do
    unblocked (s.inRigid s.cur || s.holds s.cur) 9 .wantLease
    .ok s

/-- `crel`: the run ends when the bundle commits, for its other syllables issue under the lease (R105); the lease returns at
LEASE_RUN_END. -/
def execCrel (o : FR) (s : State) : Out :=
  s.syl (.crel o) fun s =>
    if s.inRigid s.cur ∨ !s.holds s.cur then .ok s
    else .ok { s with issue := { s.issue with crel := true } }

/-! ### Event records (R326) -/

/-- The oldest record as an issue at tick `t` sees it: one posted in that tick is not seen (R326). -/
def Ctx.oldest (c : Ctx) (t : Nat) : Option EvRec := c.evq.head?.filter fun r => r.time ≠ t
/-- The oldest record into s[D] and s[C]; zero when there is none. -/
def State.giveEvent (s : State) (o : FR) : State :=
  let w := match s.me.oldest s.tick with | some r => r.word | none => 0
  (s.putS (s.spec 64 o.d) (w.setWidth 64) (bound o.lat 2)).putS (s.spec 64 o.c) (w.extractLsb' 64 64) (bound o.lat 2)

/-- `evpop`. -/
def execEvpop (o : FR) (s : State) : Out :=
  s.syl (.evpop o) fun s =>
    .ok ((s.giveEvent o).modCtx s.cur fun c => { c with evq := if (c.oldest s.tick).isSome then c.evq.drop 1 else c.evq })
/-- `evpeek`. -/
def execEvpeek (o : FR) (s : State) : Out := s.syl (.evpeek o) fun s => .ok (s.giveEvent o)

end Sys2Proof.Machine
end

