-- ==== Sys2Proof/Machine/Vector.lean ====
section
/-! DEFINITION. The class V instructions (chapter 06): active elements (R156), elementwise forms (R161-R170, R173, R174),
conversions (R171, R172, R175, R176), reductions (R178, R179), permutes (R180-R185), copies and masks (R167, R186). -/

namespace Sys2Proof.Machine

/-! ### Tiles and shapes (R52, R55, R156) -/

/-- Element `i` of a tile at width `w` (R52). -/
def elem (w : Nat) (t : Tile) (i : Nat) : Nat := (t.extractLsb' (w * i) w).toNat
/-- A tile of elements from element 0. -/
def packTile (w : Nat) (l : List Nat) : Tile := BitVec.ofNat 4096 (l.foldr (fun x a => x % 2 ^ w + 2 ^ w * a) 0)
/-- The bits of the elements that are active. -/
def spread (w : Nat) (l : List Bool) : Tile := packTile w (l.map fun b => if b then 2 ^ w - 1 else 0)

/-- The vector half of a shape register (R55). -/
structure VShape where
  rows : Nat
  cols : Nat
  vrows : Nat
  vcols : Nat
def vshape (s : ShapeReg) : VShape :=
  let n := s.toNat
  { rows := bits n 10 0, cols := bits n 21 11, vrows := bits n 32 22, vcols := bits n 43 33 }

/-- Element `i` lies in the valid rows and columns. -/
def VShape.valid (h : VShape) (i : Nat) : Bool := decide (i / h.cols < h.vrows) && decide (i % h.cols < h.vcols)
/-- The check of R56 and R156. -/
def VShape.ok (h : VShape) (w : Nat) : Bool := decide (h.rows * h.cols * w = 4096)
def elems (w : Nat) : Nat := 4096 / w

/-- The shape of a form that counts at width `w`. -/
def State.shapeFor (s : State) (sh : BitVec 3) (w : Nat) : Except Halt VShape :=
  let h := vshape (s.readSh sh.toNat)
  if h.ok w then .ok h else .error (.code 0x09)
/-- Active elements under a mask of cluster `p` (R156). -/
def State.actives (s : State) (p : Cl) (sh msk : BitVec 3) (w : Nat) : Except Halt (List Bool) := do
  let h ← s.shapeFor sh w
  let m := s.readM p msk.toNat
  .ok ((List.range (elems w)).map fun i => m.getLsbD i && h.valid i)

/-- A tile operand of cluster `p`. -/
def State.rv (s : State) (p : Cl) (x : BitVec 7) : Tile := s.readV p (s.spec 64 x)

/-- Elementwise results in tile `n` of cluster `p`, where active. -/
def State.giveTile (s : State) (p : Cl) (n w : Nat) (act : List Bool) (lat : Nat) (f : Nat → Nat) : State :=
  s.putV p n (packTile w ((List.range (elems w)).map f)) (spread w act) lat

/-- The common effect of R156 and R158 at width `w`. -/
def State.each (s : State) (p : Cl) (sh msk : BitVec 3) (d : BitVec 7) (w lat : Nat) (f : Nat → Nat) : Except Halt State := do
  let act ← s.actives p sh msk w
  .ok (s.giveTile p (s.spec 64 d) w act lat f)

/-- One-source, two-source and three-source forms of format FR. -/
def State.tile1 (s : State) (i : Instr) (p : Cl) (o : FR) (n : Nat) (f : Nat → Nat) : Out :=
  s.syl i fun s =>
    let w := fmtWidth o.ty
    let a := s.rv p o.a
    s.each p o.sh o.msk o.d w (bound o.lat n) fun i => f (elem w a i)
def State.tile2 (s : State) (i : Instr) (p : Cl) (o : FR) (n : Nat) (f : Nat → Nat → Nat) : Out :=
  s.syl i fun s =>
    let w := fmtWidth o.ty
    let a := s.rv p o.a
    let b := s.rv p o.b
    s.each p o.sh o.msk o.d w (bound o.lat n) fun i => f (elem w a i) (elem w b i)
def State.tile3 (s : State) (i : Instr) (p : Cl) (o : FR) (n : Nat) (f : Nat → Nat → Nat → Nat) : Out :=
  s.syl i fun s =>
    let w := fmtWidth o.ty
    let a := s.rv p o.a
    let b := s.rv p o.b
    let c := s.rv p o.c
    s.each p o.sh o.msk o.d w (bound o.lat n) fun i => f (elem w a i) (elem w b i) (elem w c i)
/-- The immediate of an FI form as a pattern of its type (R93, R94, R160). -/
def tileImm (o : FI) : Nat := if isFloat o.ty then bfImm o.ty o.imm.toNat else intImm (fmtWidth o.ty) o.v o.imm
/-- A form with an immediate. -/
def State.tileI (s : State) (i : Instr) (p : Cl) (o : FI) (n : Nat) (f : Nat → Nat → Nat) : Out :=
  s.syl i fun s =>
    let w := fmtWidth o.ty
    let a := s.rv p o.a
    s.each p o.sh o.msk o.d w (bound o.lat n) fun i => f (elem w a i) (tileImm o)

/-! ### Elementwise arithmetic (R161-R163) -/

/-- An integer function of two patterns. -/
def onInt (t : BitVec 5) (sat : Bool) (f : Int → Int → Int) (a b : Nat) : Nat := intResult t sat (f (intDecode t a) (intDecode t b))
/-- `vadd`, `vsub` and `vmul`: the integer or the floating-point operation of the type. -/
def tileAdd (t : BitVec 5) (rz sat : Bool) (a b : Nat) : Nat :=
  if isFloat t then fadd' t rz sat a b else onInt t sat (fun a b => a + b) a b
def tileSub (t : BitVec 5) (rz sat : Bool) (a b : Nat) : Nat :=
  if isFloat t then fsub' t rz sat a b else onInt t sat (fun a b => a - b) a b
def tileMul (t : BitVec 5) (rz sat : Bool) (a b : Nat) : Nat :=
  if isFloat t then fmul' t rz sat a b else onInt t sat (fun a b => a * b) a b
def tileMin (t : BitVec 5) (a b : Nat) : Nat := if isFloat t then fpick t true a b else onInt t false min a b
def tileMax (t : BitVec 5) (a b : Nat) : Nat := if isFloat t then fpick t false a b else onInt t false max a b
def tileAbs (t : BitVec 5) (sat : Bool) (a : Nat) : Nat :=
  if isFloat t then a % 2 ^ (fmtWidth t - 1) else intResult t sat (intDecode t a).natAbs
def tileNeg (t : BitVec 5) (sat : Bool) (a : Nat) : Nat :=
  if isFloat t then a ^^^ 2 ^ (fmtWidth t - 1) else intResult t sat (-intDecode t a)

/-- A dot product of four (R163). -/
def dot4 (u : BitVec 5) (a b : Tile) (i : Nat) : Int :=
  let w := fmtWidth u
  ((List.range 4).map fun j => intDecode u (elem w a (4 * i + j)) * intDecode u (elem w b (4 * i + j))).sum

/-- The exact carry-less product (R169). -/
def clmul (w a b : Nat) : Nat := (List.range w).foldl (fun p j => if bit b j then p ^^^ (a <<< j) else p) 0

/-- A clamp to the range of a narrower format (R173). FP16 does not hold the largest BF16. DESIGN CHOICE: 65,504, the largest FP16, is no
BF16 value either, and `vsat.bf16.f16` rounds it to nearest even, to 65,536 (log 71). -/
def satTo (t u : BitVec 5) (x : Nat) : Nat :=
  if !isFloat t then wrapInt (fmtWidth t) (clampInt u (intDecode t x))
  else
    let (nm, qm) := fmax' u
    match fdecode t x with
    | .nan => canonNan t
    | .inf neg => if t = 0x0E ∧ u = 0x0F then (Config.satInf neg).toNat else fround t false false (.fin neg nm qm)
    | .fin neg m e => if FVal.cmp (.fin false m e) (.fin false nm qm) = some .gt then fround t false false (.fin neg nm qm) else x

/-- An integral value in the same format (R174). -/
def toIntegral (t : BitVec 5) (dir x : Nat) : Nat :=
  match fdecode t x with
  | .nan => canonNan t
  | .inf _ => x
  | .fin neg m e =>
    if 0 ≤ e then x
    else
      let sh := (-e).toNat
      let away := dir = 2 ∧ neg ∨ dir = 3 ∧ !neg
      let n := if dir = 0 then shiftRound false m sh else m >>> sh + if away ∧ m % 2 ^ sh ≠ 0 then 1 else 0
      fround t false false (.fin neg n 0)

/-! ### Compare (R164) -/

/-- All 1,024 bits of the mask. -/
def State.giveMask (s : State) (p : Cl) (n lat : Nat) (l : List Bool) : State :=
  s.putM p n (BitVec.ofNat 1024 (l.foldr (fun b a => (if b then 1 else 0) + 2 * a) 0)) (BitVec.allOnes 1024) lat
def State.compareTile (s : State) (p : Cl) (sh msk : BitVec 3) (t : BitVec 5) (a : BitVec 7) (c n lat : Nat) (b : Nat → Nat) :
    Except Halt State := do
  let w := fmtWidth t
  let act ← s.actives p sh msk w
  let x := s.rv p a
  .ok (s.giveMask p n lat (act.zipIdx.map fun k => k.1 && condHolds c (cmpIn t (elem w x k.2) (b k.2))))

/-! ### Conversions (R54, R171, R172, R187) -/

/-- Where register `j` of a wide operand of `n` registers stands: its cluster and its offset from the specifier. -/
def wideReg (p : Cl) (pair : Bool) (n j : Nat) : Cl × Nat :=
  if !pair ∨ n = 1 then (p, j) else if n = 2 then (if j = 0 then .a else .b, 0) else (if j % 2 = 0 then .a else .b, j / 2)
/-- A wide operand's first register is aligned (R54). -/
def wideAligned (pair : Bool) (n r : Nat) : Bool := if pair then n < 4 || r % 2 = 0 else r % n = 0
/-- The converted elements of a widening, narrowing or same-width form. -/
def State.convForm (s : State) (p : Cl) (o : FR) (n : Nat) (f : Nat → Nat) : Except Halt State := do
  let wt := fmtWidth o.ty
  let wu := fmtWidth o.ty2
  let d := s.spec 64 o.d
  let a := s.spec 64 o.a
  let lat := bound o.lat n
  if wt = wu then
    let x := s.readV p a
    s.each p o.sh o.msk o.d wt lat fun i => f (elem wu x i)
  else
    let c : Cl := if o.pair then .a else p
    if wu < wt then
      let k := wt / wu
      ensure (wideAligned o.pair k d) 0x08
      let act ← s.actives c o.sh o.msk wu
      let x := s.readV c a
      let one := fun (s : State) (j : Nat) =>
        let (cl, off) := wideReg p o.pair k j
        if cl ≠ p then s
        else
          let en := (List.range (elems wt)).map fun i => act.getD (k * i + j) false
          s.giveTile p (d + off) wt en lat fun i => f (elem wu x (k * i + j))
      .ok ((List.range k).foldl one s)
    else
      let k := wu / wt
      ensure (wideAligned o.pair k a) 0x08
      let act ← s.actives c o.sh o.msk wt
      if p ≠ c then .ok s
      else
        let src := (List.range k).map fun j => let (cl, off) := wideReg p o.pair k j; s.readV cl (a + off)
        .ok (s.giveTile p d wt act lat fun i => f (elem wu (src.getD (i % k) 0) (i / k)))

/-- A block scale (R82). -/
def scaleVal (e8m0 : Bool) (x : Nat) : FVal :=
  if e8m0 then (if x = 255 then .nan else .fin false 1 ((x : Int) - 127)) else fdecode 0x0D x

/-! ### Reductions (R178, R179) -/

/-- The pairwise tree over a power of two of inputs; `k` bounds its levels. -/
def treeFold (f : Nat → Nat → Nat) : Nat → List Nat → Nat
  | 0, l => l.headD 0
  | k + 1, l =>
    let rec pairs : List Nat → List Nat
      | a :: b :: rest => f a b :: pairs rest
      | l => l
    match l with
    | [x] => x
    | l => treeFold f k (pairs l)
/-- The element numbers of each result, in order. -/
def VShape.groups (h : VShape) (dir : Nat) : List (List Nat) :=
  match dir with
  | 0 => (List.range h.rows).map fun r => (List.range h.cols).map fun c => r * h.cols + c
  | 1 => (List.range h.cols).map fun c => (List.range h.rows).map fun r => r * h.cols + c
  | _ => [List.range (h.rows * h.cols)]
/-- A reduction: `f` gives one result from the patterns that take part or their identity. -/
def State.reduce (s : State) (i : Instr) (p : Cl) (o : FR) (ident : Nat) (f : List Nat → Nat) : Out :=
  s.syl i fun s => do
    let wt := fmtWidth o.ty
    let wu := fmtWidth o.ty2
    let h ← s.shapeFor o.sh wu
    let act ← s.actives p o.sh o.msk wu
    let g := h.groups o.xmod.toNat
    ensure (decide (g.length ≤ elems wt)) 0x09
    let a := s.rv p o.a
    let actv := act.toArray
    let res := g.map fun l => f (l.map fun k => if actv.getD k false then elem wu a k else ident)
    .ok (s.putV p (s.spec 64 o.d) (packTile wt res) (spread wt (res.map fun _ => true)) (bound o.lat 6))
/-- The pattern of an infinity, or of a format's extreme integer (R178). -/
def extreme (t : BitVec 5) (low : Bool) : Nat :=
  if isFloat t then infResult t false low else wrapInt (fmtWidth t) (if low then intMin t else intMax t)
/-- The sum of a reduction: exact for integers, the tree for floating point. -/
def sumOf (o : FR) (l : List Nat) : Nat :=
  if isFloat o.ty then
    treeFold (fadd' o.ty o.v false) 11 (l.map fun x => if o.ty = o.ty2 then x else fround o.ty false false (fdecode o.ty2 x))
  else intResult o.ty o.sat (l.map (intDecode o.ty2)).sum

/-- A NaN result is the canonical one (R85). -/
def quiet (t : BitVec 5) (x : Nat) : Nat := if isFloat t && (fdecode t x).isNan then canonNan t else x

/-! ### Permutes (R180-R185) -/

/-- Element `i` of a permute's operand: a pair interleaves the clusters (R180). -/
def State.permSrc (s : State) (p : Cl) (o : FR) (x : BitVec 7) (w : Nat) : Nat → Nat :=
  if o.pair then
    let a := s.rv .a x
    let b := s.rv .b x
    fun i => elem w (if i % 2 = 0 then a else b) (i / 2)
  else
    let a := s.rv p x
    elem w a
/-- Rows, valid rows and elements double in a paired form. -/
def VShape.forPair (h : VShape) (pair : Bool) : VShape :=
  if pair then { h with rows := 2 * h.rows, vrows := 2 * h.vrows } else h
/-- A permute whose element `i` is `f i`, with N elements and the active test of shape `g`. -/
def State.permute (s : State) (i : Instr) (p : Cl) (o : FR) (n : Nat) (turn : VShape → VShape)
    (f : State → VShape → Nat → Nat → Nat) : Out :=
  s.syl i fun s => do
    let w := fmtWidth o.ty
    let h ← s.shapeFor o.sh w
    let h := h.forPair o.pair
    let g := turn h
    let m := s.readM p o.msk.toNat
    let all := if o.pair then 2 * elems w else elems w
    let place := fun j : Nat => if o.pair then 2 * j + (if p = .b then 1 else 0) else j
    let act := (List.range (elems w)).map fun j => m.getLsbD j && g.valid (place j)
    let val := f s h all
    .ok (s.giveTile p (s.spec 64 o.d) w act (bound o.lat n) fun j => val (place j))
/-- The scalar of a permute. -/
def State.permScalar (s : State) (o : FR) : Nat := (s.rs o.c).toNat
/-- The patterns of `vshuf` (R182). -/
def shufPick (k n s : Nat) (h : VShape) (a b : Nat → Nat) (i : Nat) : Nat :=
  match k with
  | 0 => if i % 2 = 0 then a (i / 2) else b (i / 2)
  | 1 => if i % 2 = 0 then a (n / 2 + i / 2) else b (n / 2 + i / 2)
  | 2 => if i < n / 2 then a (2 * i) else b (2 * (i - n / 2))
  | 3 => if i < n / 2 then a (2 * i + 1) else b (2 * (i - n / 2) + 1)
  | 4 => a (n - 1 - i)
  | 5 => a ((i + s) % n)
  | 6 => a (i ^^^ 1)
  | _ => a (i / h.cols * h.cols + (i % h.cols + s) % h.cols)

/-! ### The instructions -/

/-- `vadd` (R161, R162). -/
def execVadd (p : Cl) (o : FR) (s : State) : Out :=
  s.tile2 (.vadd p o) p o (if isFloat o.ty then 4 else 2) (tileAdd o.ty o.v o.sat)

/-- `vadd` with an immediate. -/
def execVaddI (p : Cl) (o : FI) (s : State) : Out :=
  s.tileI (.vaddI p o) p o (if isFloat o.ty then 4 else 2) (tileAdd o.ty (isFloat o.ty && o.v) o.sat)

/-- `vsub` (R161, R162). -/
def execVsub (p : Cl) (o : FR) (s : State) : Out :=
  s.tile2 (.vsub p o) p o (if isFloat o.ty then 4 else 2) (tileSub o.ty o.v o.sat)

/-- `vsub` with an immediate. -/
def execVsubI (p : Cl) (o : FI) (s : State) : Out :=
  s.tileI (.vsubI p o) p o (if isFloat o.ty then 4 else 2) (tileSub o.ty (isFloat o.ty && o.v) o.sat)

/-- `vmul` (R161, R162). -/
def execVmul (p : Cl) (o : FR) (s : State) : Out :=
  s.tile2 (.vmul p o) p o (if isFloat o.ty then 4 else 3) (tileMul o.ty o.v o.sat)

/-- `vmul` with an immediate. -/
def execVmulI (p : Cl) (o : FI) (s : State) : Out :=
  s.tileI (.vmulI p o) p o (if isFloat o.ty then 4 else 3) (tileMul o.ty (isFloat o.ty && o.v) o.sat)

/-- `vfma` (R162). -/
def execVfma (p : Cl) (o : FR) (s : State) : Out :=
  s.tile3 (.vfma p o) p o 4 (ffma' o.ty o.v o.sat)

/-- `vmadd` (R161). -/
def execVmadd (p : Cl) (o : FR) (s : State) : Out :=
  s.tile3 (.vmadd p o) p o 4 fun a b c => intResult o.ty o.sat (intDecode o.ty a * intDecode o.ty b + intDecode o.ty c)

/-- `vmin` (R161, R162). -/
def execVmin (p : Cl) (o : FR) (s : State) : Out :=
  s.tile2 (.vmin p o) p o 2 (tileMin o.ty)

/-- `vmin` with an immediate. -/
def execVminI (p : Cl) (o : FI) (s : State) : Out :=
  s.tileI (.vminI p o) p o 2 (tileMin o.ty)

/-- `vmax` (R161, R162). -/
def execVmax (p : Cl) (o : FR) (s : State) : Out :=
  s.tile2 (.vmax p o) p o 2 (tileMax o.ty)

/-- `vmax` with an immediate. -/
def execVmaxI (p : Cl) (o : FI) (s : State) : Out :=
  s.tileI (.vmaxI p o) p o 2 (tileMax o.ty)

/-- `vdot4` (R163). -/
def execVdot4 (p : Cl) (o : FR) (s : State) : Out :=
  s.syl (.vdot4 p o) fun s =>
    let w := fmtWidth o.ty
    let a := s.rv p o.a
    let b := s.rv p o.b
    let c := s.rv p o.c
    s.each p o.sh o.msk o.d w (bound o.lat 4) fun i => intResult o.ty o.sat (intDecode o.ty (elem w c i) + dot4 o.ty2 a b i)

/-- `vabs` (R161, R162). -/
def execVabs (p : Cl) (o : FR) (s : State) : Out :=
  s.tile1 (.vabs p o) p o 2 (tileAbs o.ty o.sat)

/-- `vneg` (R161, R162). -/
def execVneg (p : Cl) (o : FR) (s : State) : Out :=
  s.tile1 (.vneg p o) p o 2 (tileNeg o.ty o.sat)

/-- `vand` (R166). -/
def execVand (p : Cl) (o : FR) (s : State) : Out :=
  s.tile2 (.vand p o) p o 1 (· &&& ·)

/-- `vand` with an immediate. -/
def execVandI (p : Cl) (o : FI) (s : State) : Out :=
  s.tileI (.vandI p o) p o 1 (· &&& ·)

/-- `vor` (R166). -/
def execVor (p : Cl) (o : FR) (s : State) : Out :=
  s.tile2 (.vor p o) p o 1 (· ||| ·)

/-- `vor` with an immediate. -/
def execVorI (p : Cl) (o : FI) (s : State) : Out :=
  s.tileI (.vorI p o) p o 1 (· ||| ·)

/-- `vxor` (R166). -/
def execVxor (p : Cl) (o : FR) (s : State) : Out :=
  s.tile2 (.vxor p o) p o 1 (· ^^^ ·)

/-- `vxor` with an immediate. -/
def execVxorI (p : Cl) (o : FI) (s : State) : Out :=
  s.tileI (.vxorI p o) p o 1 (· ^^^ ·)

/-- `vnot` (R166). -/
def execVnot (p : Cl) (o : FR) (s : State) : Out :=
  s.tile1 (.vnot p o) p o 1 (· ^^^ (2 ^ fmtWidth o.ty - 1))

/-- `vsel` (R165). -/
def execVsel (p : Cl) (o : FR) (s : State) : Out :=
  s.syl (.vsel p o) fun s =>
    let w := fmtWidth o.ty
    let a := s.rv p o.a
    let b := s.rv p o.b
    let m := s.readM p (bits o.xmod.toNat 2 0)
    s.each p o.sh o.msk o.d w (bound o.lat 1) fun i => if m.getLsbD i then elem w a i else elem w b i

/-- `vcmp` (R164). -/
def execVcmp (p : Cl) (o : FR) (s : State) : Out :=
  s.syl (.vcmp p o) fun s =>
    let b := s.rv p o.b
    s.compareTile p o.sh o.msk o.ty o.a o.xmod.toNat (s.spec 8 o.d) (bound o.lat 2) (elem (fmtWidth o.ty) b)

/-- `vcmp` with an immediate. -/
def execVcmpI (p : Cl) (o : FI) (s : State) : Out :=
  s.syl (.vcmpI p o) fun s =>
    s.compareTile p o.sh o.msk o.ty o.a (bits o.d.toNat 6 4) (bits o.d.toNat 2 0) (bound o.lat 2) fun _ => tileImm o

/-- `vshl` (R168). -/
def execVshl (p : Cl) (o : FR) (s : State) : Out :=
  s.tile2 (.vshl p o) p o 1 (shiftOp .shl (fmtWidth o.ty))

/-- `vshl` with an immediate count. -/
def execVshlI (p : Cl) (o : FI) (s : State) : Out :=
  s.tileI (.vshlI p o) p o 1 fun a _ => shiftOp .shl (fmtWidth o.ty) a (intImm 64 o.v o.imm)

/-- `vshr` (R168). -/
def execVshr (p : Cl) (o : FR) (s : State) : Out :=
  s.tile2 (.vshr p o) p o 1 (shiftOp .shr (fmtWidth o.ty))

/-- `vshr` with an immediate count. -/
def execVshrI (p : Cl) (o : FI) (s : State) : Out :=
  s.tileI (.vshrI p o) p o 1 fun a _ => shiftOp .shr (fmtWidth o.ty) a (intImm 64 o.v o.imm)

/-- `vsar` (R168). -/
def execVsar (p : Cl) (o : FR) (s : State) : Out :=
  s.tile2 (.vsar p o) p o 1 (shiftOp .sar (fmtWidth o.ty))

/-- `vsar` with an immediate count. -/
def execVsarI (p : Cl) (o : FI) (s : State) : Out :=
  s.tileI (.vsarI p o) p o 1 fun a _ => shiftOp .sar (fmtWidth o.ty) a (intImm 64 o.v o.imm)

/-- `vclmul` (R169, R187). -/
def execVclmul (p : Cl) (o : FR) (s : State) : Out :=
  s.syl (.vclmul p o) fun s =>
    let w := fmtWidth o.ty
    let c : Cl := if o.pair then .a else p
    let a := s.rv c o.a
    let b := s.rv c o.b
    let high := if o.pair then p = .b else o.xmod = 1
    do
      let act ← s.actives c o.sh o.msk w
      .ok (s.giveTile p (s.spec 64 o.d) w act (bound o.lat 4) fun i =>
        let x := clmul w (elem w a i) (elem w b i)
        if high then x >>> w else x)

/-- `vpopc` (R170). -/
def execVpopc (p : Cl) (o : FR) (s : State) : Out :=
  s.tile1 (.vpopc p o) p o 2 (popCount (fmtWidth o.ty))

/-- `vclz` (R170). -/
def execVclz (p : Cl) (o : FR) (s : State) : Out :=
  s.tile1 (.vclz p o) p o 2 (lzCount (fmtWidth o.ty))

/-- `vcvt` (R171). -/
def execVcvt (p : Cl) (o : FR) (s : State) : Out :=
  s.syl (.vcvt p o) fun s => s.convForm p o 3 (convert o.ty o.ty2 o.v o.sat)

/-- `vwid` (R172). -/
def execVwid (p : Cl) (o : FR) (s : State) : Out :=
  s.syl (.vwid p o) fun s => s.convForm p o 3 (convert o.ty o.ty2 false false)

/-- `vnar` (R172). -/
def execVnar (p : Cl) (o : FR) (s : State) : Out :=
  s.syl (.vnar p o) fun s => s.convForm p o 3 (convert o.ty o.ty2 false o.sat)

/-- `vsat` (R173). -/
def execVsat (p : Cl) (o : FR) (s : State) : Out :=
  s.tile1 (.vsat p o) p o 2 (satTo o.ty o.ty2)

/-- `vrnd` (R174). -/
def execVrnd (p : Cl) (o : FR) (s : State) : Out :=
  s.tile1 (.vrnd p o) p o 3 (toIntegral o.ty o.xmod.toNat)

/-- `vcbdec` (R175). -/
def execVcbdec (p : Cl) (o : FR) (s : State) : Out :=
  s.syl (.vcbdec p o) fun s => do
    let d := s.spec 64 o.d
    ensure (decide (d % 4 = 0)) 0x08
    let act ← s.actives p o.sh o.msk 4
    let a := s.rv p o.a
    let book := bookAt (s.quad (quadOf s.cur)) o.xmod.toNat
    let one := fun (s : State) (j : Nat) =>
      let en := (List.range 256).map fun i => act.getD (4 * i + j) false
      s.giveTile p (d + j) 16 en (bound o.lat 3) fun i => decodeBf16 (bookEntry book) 0x0B (elem 4 a (4 * i + j))
    .ok ((List.range 4).foldl one s)

/-- `vscale` (R176). -/
def execVscale (p : Cl) (o : FR) (s : State) : Out :=
  s.syl (.vscale p o) fun s => do
    let d := s.spec 64 o.d
    let k := if o.ty = 0x10 then 2 else 1
    ensure (decide (d % k = 0)) 0x08
    let act ← s.actives p o.sh o.msk 16
    let a := s.rv p o.a
    let b := s.rv p o.b
    let blk := if bit o.xmod.toNat 0 then 32 else 8
    let val := fun i : Nat =>
      fround o.ty o.v o.sat ((fdecode 0x0F (elem 16 a i)).mul (scaleVal (bit o.xmod.toNat 1) (elem 8 b (i / blk))))
    let one := fun (s : State) (j : Nat) =>
      let en := (List.range (256 / k)).map fun i => act.getD (k * i + j) false
      s.giveTile p (d + j) (16 * k) en (bound o.lat 4) fun i => val (k * i + j)
    .ok ((List.range k).foldl one s)

/-- `vredsum` (R178, R179). -/
def execVredsum (p : Cl) (o : FR) (s : State) : Out :=
  s.reduce (.vredsum p o) p o (if isFloat o.ty then 2 ^ (fmtWidth o.ty2 - 1) else 0) (fun l => quiet o.ty (sumOf o l))

/-- `vredmax` (R178, R179). -/
def execVredmax (p : Cl) (o : FR) (s : State) : Out :=
  s.reduce (.vredmax p o) p o (extreme o.ty true) (fun l => quiet o.ty (treeFold (tileMax o.ty) 11 l))

/-- `vredmin` (R178, R179). -/
def execVredmin (p : Cl) (o : FR) (s : State) : Out :=
  s.reduce (.vredmin p o) p o (extreme o.ty false) (fun l => quiet o.ty (treeFold (tileMin o.ty) 11 l))

/-- `vperm` (R181). -/
def execVperm (p : Cl) (o : FR) (s : State) : Out :=
  s.permute (.vperm p o) p o 4 id fun s _ n =>
    let w := fmtWidth o.ty
    let a := s.permSrc p o o.a w
    let b := s.permSrc p o o.b w
    fun i =>
      let idx := b i + if w = 8 then 256 * o.xmod.toNat else 0
      if idx < n then a idx else 0

/-- `vshuf` (R182). -/
def execVshuf (p : Cl) (o : FR) (s : State) : Out :=
  s.permute (.vshuf p o) p o 3 id fun s h n =>
    let w := fmtWidth o.ty
    let a := s.permSrc p o o.a w
    let b := s.permSrc p o o.b w
    let c := s.permScalar o
    shufPick o.xmod.toNat n c h a b

/-- `vbcast` (R183). -/
def execVbcast (p : Cl) (o : FR) (s : State) : Out :=
  s.permute (.vbcast p o) p o 3 id fun s h n =>
    let w := fmtWidth o.ty
    let a := s.permSrc p o o.a w
    let c := s.permScalar o
    fun i =>
      match o.xmod.toNat with
      | 0 => a (c % n)
      | 1 => a (c % h.rows * h.cols + i % h.cols)
      | 2 => a (i / h.cols * h.cols + c % h.cols)
      | _ => c % 2 ^ w

/-- `vext` (R184). -/
def execVext (p : Cl) (o : FR) (s : State) : Out :=
  s.permute (.vext p o) p o 3 id fun s _ n =>
    let w := fmtWidth o.ty
    let a := s.permSrc p o o.a w
    let b := s.permSrc p o o.b w
    let c := s.permScalar o
    fun i => let j := i + c; if j < n then a j else if j < 2 * n then b (j - n) else 0

/-- `vtrn` (R185). -/
def execVtrn (p : Cl) (o : FR) (s : State) : Out :=
  s.permute (.vtrn p o) p o 3 (fun h => { rows := h.cols, cols := h.rows, vrows := h.vcols, vcols := h.vrows }) fun s h _ =>
    let a := s.permSrc p o o.a (fmtWidth o.ty)
    fun j => a (j % h.rows * h.cols + j / h.rows)

/-- `xcp` (R186). -/
def execXcp (p : Cl) (o : FR) (s : State) : Out :=
  s.syl (.xcp p o) fun s =>
    .ok (s.putV p (s.spec 64 o.d) (s.rv (if p = .a then .b else .a) o.a) (allBits 4096) (bound o.lat 1))

/-- A mask form (R167): all 1,024 bits at once. -/
def State.maskForm (s : State) (i : Instr) (p : Cl) (o : FR) (f : MaskReg → MaskReg → MaskReg) : Out :=
  s.syl i fun s =>
    let v := f (s.readM p (s.spec 8 o.a)) (s.readM p (s.spec 8 o.b))
    .ok (s.putM p (s.spec 8 o.d) v (BitVec.allOnes 1024) (bound o.lat 1))

/-- `vand.m` (R167). -/
def execVandM (p : Cl) (o : FR) (s : State) : Out :=
  s.maskForm (.vandM p o) p o (· &&& ·)

/-- `vor.m` (R167). -/
def execVorM (p : Cl) (o : FR) (s : State) : Out :=
  s.maskForm (.vorM p o) p o (· ||| ·)

/-- `vxor.m` (R167). -/
def execVxorM (p : Cl) (o : FR) (s : State) : Out :=
  s.maskForm (.vxorM p o) p o (· ^^^ ·)

/-- `vnot.m` (R167). -/
def execVnotM (p : Cl) (o : FR) (s : State) : Out :=
  s.maskForm (.vnotM p o) p o fun a _ => ~~~a

end Sys2Proof.Machine
end

