-- ==== Sys2Proof/Machine/Special.lean ====
section
/-! DEFINITION. The special functions (R177): exact rationals and roots, and the others in fixed point with 256 fraction
bits. FP16 and BF16 results are rounded to nearest even; an FP32 result is free within its bound. -/

namespace Sys2Proof.Machine

/-! ### Fixed point -/

/-- Fraction bits. -/
def fixBits : Nat := 256
def fixOne : Nat := 2 ^ fixBits

/-- A value that is not representable: `m * 2^e` and a little more. -/
def FVal.inexact (neg : Bool) (m : Nat) (e : Int) : FVal := .fin neg (2 * m + 1) (e - 1)

/-- The odd power series `t/k + t z2/(k+2) + ...`, with `n` terms. -/
def oddSeries (z2 : Nat) : Nat → Nat → Nat → Nat
  | 0, _, _ => 0
  | n + 1, t, k => t / k + oddSeries z2 n (t * z2 / fixOne) (k + 2)
/-- ln of `(1+z)/(1-z)`. -/
def lnRatio (z : Nat) : Nat := 2 * oddSeries (z * z / fixOne) 100 z 1
/-- ln 2. -/
def ln2 : Nat := lnRatio (fixOne / 3)
/-- The exponential series, with `n` terms. -/
def expSeries (r : Nat) : Nat → Nat → Nat → Nat
  | 0, _, _ => 0
  | n + 1, t, k => t + expSeries r n (t * r / fixOne / k) (k + 1)
/-- e^y of a fixed-point number, as a fixed-point significand and a power of two. -/
def expFix (y : Int) : Nat × Int :=
  let k := y / (ln2 : Int)
  (expSeries (y - k * ln2).toNat 90 fixOne 1, k)

/-- Binary square root, rounded down, of a number below `4 ^ n`. -/
def isqrt : Nat → Nat → Nat
  | 0, _ => 0
  | n + 1, x => let r := 2 * isqrt n (x / 4); if (r + 1) * (r + 1) ≤ x then r + 1 else r

/-! ### The functions on a finite nonzero value -/

/-- 1 / (m 2^e). -/
def recipOf (neg : Bool) (m : Nat) (e : Int) : FVal :=
  let q := 2 ^ 320 / m
  if q * m = 2 ^ 320 then .fin neg q (-e - 320) else FVal.inexact neg q (-e - 320)
/-- The square root of m 2^e. -/
def sqrtOf (m : Nat) (e : Int) : FVal :=
  let sh := 300 + (e % 2).toNat
  let r := isqrt 200 (m * 2 ^ sh)
  let e := (e - sh) / 2
  if r * r = m * 2 ^ sh then .fin false r e else FVal.inexact false r e
/-- 1 / the square root of m 2^e. -/
def rsqrtOf (m : Nat) (e : Int) : FVal :=
  let odd := (e % 2).toNat
  let n := 2 ^ 600 / (m * 2 ^ odd)
  let r := isqrt 301 n
  let q := -((e - odd) / 2) - 300
  if r * r * (m * 2 ^ odd) = 2 ^ 600 then .fin false r q else FVal.inexact false r q
/-- The value as a fixed-point number. -/
def fixOf (neg : Bool) (m : Nat) (e : Int) : Int :=
  let v : Int := (if 0 ≤ e + fixBits then m * 2 ^ (e + fixBits).toNat else m / 2 ^ (-(e + fixBits)).toNat : Nat)
  if neg then -v else v
/-- The magnitude is at least 2^k. -/
def atLeast (m : Nat) (e k : Int) : Bool := decide (k ≤ e + (Nat.log2 m : Nat))
/-- 2^x: exact for an integral x; far out of range past 2^12. -/
def exp2Of (neg : Bool) (m : Nat) (e : Int) : FVal :=
  if atLeast m e 12 then .fin false 1 (if neg then -8192 else 8192)
  else
    let x := fixOf neg m e
    let n := x / (fixOne : Int)
    let f := (x - n * fixOne).toNat
    if f = 0 then .fin false 1 n else FVal.inexact false (expSeries (f * ln2 / fixOne) 90 fixOne 1) (n - fixBits)
/-- log2 of m 2^e: an integer at a power of two. -/
def log2Of (m : Nat) (e : Int) : FVal :=
  let k := Nat.log2 m
  let n : Int := e + k
  if m = 2 ^ k then FVal.ofInt n
  else
    let z := (m - 2 ^ k) * fixOne / (m + 2 ^ k)
    let v : Int := n * fixOne + (lnRatio z * fixOne / ln2 : Nat)
    FVal.inexact (decide (v < 0)) v.natAbs (-fixBits)
/-- tanh x: 1 past 2^6. -/
def tanhOf (neg : Bool) (m : Nat) (e : Int) : FVal :=
  if atLeast m e 6 then FVal.inexact neg (2 ^ 200 - 1) (-200)
  else
    let x := fixOf false m e
    let (s, k) := expFix (2 * x)
    let a := s * 2 ^ k.toNat
    let q := (a - fixOne) * fixOne / (a + fixOne)
    if q = 0 then .fin neg m e else FVal.inexact neg (q - 1) (-fixBits)
/-- The logistic function. -/
def sigOf (neg : Bool) (m : Nat) (e : Int) : FVal :=
  if atLeast m e 8 then (if neg then .fin false 1 (-8192) else FVal.inexact false (2 ^ 200 - 1) (-200))
  else
    let (s, k) := expFix (fixOf false m e)
    let a := s * 2 ^ k.toNat
    FVal.inexact false ((if neg then fixOne else a) * 2 ^ 512 / (a + fixOne)) (-512)

/-! ### Special inputs and bounds (R177) -/

/-- The seven functions in F3 order (R159). -/
inductive Fn | rcp | rsq | sqrt | exp2 | log2 | tanh | sig
  deriving DecidableEq, Repr
def Fn.num : Fn → Nat | .rcp => 0 | .rsq => 1 | .sqrt => 2 | .exp2 => 3 | .log2 => 4 | .tanh => 5 | .sig => 6

/-- The function's value, exact or with a last bit that stands for the rest. -/
def Fn.value (f : Fn) (x : FVal) : FVal :=
  match x with
  | .nan => .nan
  | .inf neg =>
    match f with
    | .rcp => .fin neg 0 0
    | .rsq => if neg then .nan else .fin false 0 0
    | .sqrt | .log2 => if neg then .nan else .inf false
    | .exp2 => if neg then .fin false 0 0 else .inf false
    | .tanh => .fin neg 1 0
    | .sig => if neg then .fin false 0 0 else .fin false 1 0
  | .fin neg m e =>
    if m = 0 then
      match f with
      | .rcp | .rsq => .inf neg
      | .sqrt | .tanh => .fin neg 0 0
      | .exp2 => .fin false 1 0
      | .log2 => .inf true
      | .sig => .fin false 1 (-1)
    else match f with
      | .rcp => recipOf neg m e
      | .rsq => if neg then .nan else rsqrtOf m e
      | .sqrt => if neg then .nan else sqrtOf m e
      | .exp2 => exp2Of neg m e
      | .log2 => if neg then .nan else log2Of m e
      | .tanh => tanhOf neg m e
      | .sig => sigOf neg m e

/-- An input whose FP32 result the manual fixes: a special input, a root, a power of two's logarithm, 2 to an integer. -/
def Fn.fixes (f : Fn) (x : FVal) : Bool :=
  match x with
  | .fin _ m e =>
    m = 0 || (match f with
      | .sqrt => true
      | .exp2 => decide (0 ≤ e) || m % 2 ^ (-e).toNat = 0
      | .log2 => m = 2 ^ Nat.log2 m
      | _ => false)
  | _ => true

/-- Units in the last place and absolute error allowed in FP32, the larger counting; `k` as a power of two. -/
def Fn.slack (f : Fn) (x : FVal) : Nat × Option Int :=
  match f with
  | .rcp | .rsq | .sqrt => (1, none)
  | .exp2 => (2, none)
  | .log2 => if x.cmp (.fin false 1 (-1)) ≠ some .lt ∧ x.cmp (.fin false 2 0) ≠ some .gt then (2, some (-22)) else (2, none)
  | .tanh => (2, some (-24))
  | .sig => (0, some (-23))

/-- The FP32 pattern `c` lies within the bound of the value `v`. -/
def Fn.within (f : Fn) (x v : FVal) (c : Nat) : Bool :=
  match v, fdecode 0x10 c with
  | .fin _ m e, .fin n' m' e' =>
    let (k, a) := f.slack x
    let ulp := max (e + (Nat.log2 m : Nat) - 23) (-149)
    match (FVal.fin n' m' e').add v.neg with
    | .fin _ dm de =>
      let d := FVal.fin false dm de
      d.cmp (.fin false k ulp) ≠ some .gt || (match a with | some a => d.cmp (.fin false 1 a) ≠ some .gt | none => false)
    | _ => false
  | _, _ => false

/-- The result of a special function on a pattern of type `t`. -/
def Fn.result (f : Fn) (t : BitVec 5) (x : Nat) : Nat :=
  let v := f.value (fdecode t x)
  let r := fround t false false v
  if t ≠ 0x10 ∨ f.fixes (fdecode t x) then r
  else
    let c := (Config.fp32 f.num (BitVec.ofNat 32 x)).toNat
    if f.within (fdecode t x) v c then c else r

/-- `vrcp`. -/
def execVrcp (p : Cl) (o : FR) (s : State) : Out := s.tile1 (.vrcp p o) p o 8 (Fn.rcp.result o.ty)
/-- `vrsq`. -/
def execVrsq (p : Cl) (o : FR) (s : State) : Out := s.tile1 (.vrsq p o) p o 8 (Fn.rsq.result o.ty)
/-- `vsqrt`. -/
def execVsqrt (p : Cl) (o : FR) (s : State) : Out := s.tile1 (.vsqrt p o) p o 8 (Fn.sqrt.result o.ty)
/-- `vexp2`. -/
def execVexp2 (p : Cl) (o : FR) (s : State) : Out := s.tile1 (.vexp2 p o) p o 8 (Fn.exp2.result o.ty)
/-- `vlog2`. -/
def execVlog2 (p : Cl) (o : FR) (s : State) : Out := s.tile1 (.vlog2 p o) p o 8 (Fn.log2.result o.ty)
/-- `vtanh`. -/
def execVtanh (p : Cl) (o : FR) (s : State) : Out := s.tile1 (.vtanh p o) p o 8 (Fn.tanh.result o.ty)
/-- `vsig`. -/
def execVsig (p : Cl) (o : FR) (s : State) : Out := s.tile1 (.vsig p o) p o 8 (Fn.sig.result o.ty)

end Sys2Proof.Machine
end

