-- ==== Sys2Proof/Machine/Direct.lean ====
section
/-! DEFINITION. The direct loads and stores of slot E (R274-R277), and what every memory access at issue shares: its
modifiers (R115), its order (R301-R308) and its errors (R250, R406). -/

namespace Sys2Proof.Machine

/-! ### Modifiers and order -/

/-- The effective modifiers of the slot-E access (R115). -/
def State.eff (s : State) : Mods :=
  let d := s.me.memdef.toNat
  let p := (s.issue.mod.getD 0).toNat
  let f := fun k hi lo => if bit p (14 + k) then bits p hi lo else bits d hi lo
  { cls := f 0 3 0, scope := f 1 6 4, space := f 2 9 7, cache := f 3 11 10, ord := f 4 13 12 }

/-- The bundle waits for an earlier access of its class that has not been performed (R303), a token command's bytes among them (R295).
A reduction is no such access (R316). -/
def State.classReady (s : State) (cls : Nat) : Except Halt Unit :=
  let g := s.cur
  let w := s.wq.any fun e => e.g = g && e.mods.cls = cls && (match e.op with | .reduce _ _ _ _ => false | _ => true)
  let r := (s.remCmds g).any fun c => c.mods.cls = cls &&
    (isLateRead c.instr || (match c.instr with | .rst _ | .tacq _ | .trel _ => true | _ => false))
  unblocked (!(w || r)) 2
/-- A release at POD scope writes dirty lines back (R318). -/
def State.orderDone (s : State) (m : Mods) : State := if 2 ≤ m.ord then s.podRelease m.scope else s
/-- The order of an access at issue: its class, whose loads take their values, and a release's Before with its lines written back
(R301, R303, R304, R308, R316, R318). -/
def State.ordered (s : State) (m : Mods) : Except Halt State := do
  s.classReady m.cls
  let s := s.takeClasses (2 ^ m.cls)
  if 2 ≤ m.ord then do
    let s ← s.release (2 ^ m.cls) 2
    .ok (s.orderDone m)
  else .ok s

/-! ### Errors -/

/-- An error notice goes to the Dealer (R406). -/
def State.notice (s : State) (vf g pc code : Nat) (launch : Option Nat) (addr : Word) : State :=
  let note : FaultNote :=
    { kind := 3, code := code, vf := vf, g := g, pc := pc, point := 0, addr := addr, tick := s.tick, launch := launch }
  { s with dealer := { s.dealer with notes := s.dealer.notes ++ [note] } }
/-- An FM load consumed uncorrectable data: a record and a notice (R250, R324, R406). -/
def State.fmUncorr (s : State) (ea : Word) : State :=
  let s := s.modCtx s.cur fun c => c.post { kind := 7, code := 0x20, tag := 5, time := s.tick, payload := ea.toNat }
  s.notice s.me.vfid s.cur s.me.pc 0x20 s.me.launch ea

/-! ### Parts (R237, R238, R240) -/

/-- The same error with a restart row; NO_LEASE has none (R404). -/
def atRow {α : Type} (row : Nat) : Except Halt α → Except Halt α
  | .error (.fault c _ a m) => .error (.fault c (if c = 0x0B then 0 else row) a m)
  | r => r
/-- `n` bytes of a direct access, checked in the order of R274: address, lease, tier, and the bound of a load. -/
def State.directPart (s : State) (m : Mods) (va : Word) (n : Nat) (load : Bool) (lat : Nat) : Except Halt Xlate := do
  if m.space = 1 then
    let k ← faceAddr (s.quad (quadOf s.cur)) va n
    if !s.holds s.cur then .error (.fault 0x0B 0 va none) else .ok { pa := k, tier := 1 }
  else
    let x ← s.xmap s.me.vfid va
    if !s.permOk s.me.vfid x load (!load) then .error (.fault 0x11 0 va none)
    else
      let need := if portTower x.pa = towerOf s.cur then 32 else 56
      if x.tier ≠ 2 ∨ (load ∧ lat < need) then .error (.fault 0x12 0 va none)
      else if !s.tokenOk x m.cache then .error (.fault 0x13 0 va none)
      else .ok x

/-- The phase of a face word that is found uncorrectable is marked POISON in its header (R196). -/
def Quad.poisonPhase (q : Quad) (u : Nat) : Quad :=
  let h := hdrKey (u / 2 ^ 20) (u / 2 ^ 18 % 2) (u / 2 ^ 19 % 2)
  { q with hdr := tset resetHdr q.hdr h (setBits (tget resetHdr q.hdr h) 15 15 1) }
/-- A face word is uncorrectable, or was corrected. -/
def inUnits (l : List Nat) (k n : Nat) : Bool := l.any fun u => decide (u < k + n) && decide (k < u + 8)
/-- Bytes of a direct part, 0xFF where uncorrectable (R250). -/
def State.directRead (s : State) (x : Xlate) (n : Nat) : Nat :=
  if x.tier = 1 then
    let q := s.quad (quadOf s.cur)
    (List.range n).foldr (fun i a => (if inUnits q.faceBad (x.pa + i) 1 then 255 else (byteAt q.face (x.pa + i)).toNat) + 256 * a) 0
  else s.readFF x.pa n
/-- The bytes hold an uncorrectable word. -/
def State.directBad (s : State) (x : Xlate) (n : Nat) : Bool :=
  if x.tier = 1 then inUnits (s.quad (quadOf s.cur)).faceBad x.pa n else badIn s.memBad x.pa n
/-- The words of a list, each of `size u` bytes, that some of the byte ranges meet. -/
def meets (l : List Nat) (size : Nat → Nat) (rs : List (Nat × Nat)) : List Nat :=
  l.filter fun u => rs.any fun r => decide (u < r.1 + r.2) && decide (r.1 < u + size u)
/-- What a direct read leaves behind: walk-cache entries, and the counts of the errors met in the bytes `rs` that it reads (R248, R250,
R276, R354). -/
def State.directDone (s : State) (x : Xlate) (rs : List (Nat × Nat)) : State :=
  let v := s.me.vfid
  let s := s.fillWalk v x
  if x.tier = 1 then
    let q := s.quad (quadOf s.cur)
    let s := (meets q.faceBad (fun _ => 8) rs).foldl (fun s _ => s.vfSat v 0x11 1 1) s
    let s := s.modQuad (quadOf s.cur) fun q => (meets q.faceBad (fun _ => 8) rs).foldl Quad.poisonPhase q
    (meets q.faceSoft (fun _ => 8) rs).foldl (fun s u =>
      let s := s.vfSat v 0x10 1 1
      if bit s.me.evcfg 3 then s.modCtx s.cur fun c => c.post { kind := 6, tag := 1, time := s.tick, payload := u } else s) s
  else
    ((meets s.memBad eccSize rs) ++ meets s.memSoft eccSize rs).eraseDups.foldl (fun s u => s.eccMet v s.cur u 1) s

/-- The effective address of format FM (R122). -/
def State.fmAddr (s : State) (o : FM) (u : Nat) : Word :=
  s.rs o.a + s.rs o.b + BitVec.ofInt 64 (o.disp.toInt * u)

/-- Which SPACE and ORD a direct access takes (R270). -/
def directMods (m : Mods) (ord : Nat) : Except Halt Unit := ensure (decide (m.space ≤ 2 ∧ (m.ord = 0 ∨ m.ord = ord))) 0x08
/-- The load's value is settled between its issue and its landing (R304); an acquire, and a load that met an uncorrectable word, take
theirs now. -/
def State.mayTake (s : State) (r : RegId) (m : Mods) (bad : Bool) (l : List LateElem) : State :=
  if bad ∨ m.ord ≠ 0 ∨ l = [] then s else s.mayWait r { cls := m.cls, elems := l, load := s.fresh }
/-- An address that is not aligned faults. -/
def alignedTo (a : Word) (n : Nat) : Except Halt Unit := if a.toNat % n = 0 then .ok () else .error (.fault 0x10 0 a none)

/-- A direct access: the common poison check, then its own effect (R274). -/
def State.direct (s : State) (i : Instr) (f : State → Except Halt State) : Out := settle .e s ((s.poisonGate i).bind f)

/-! ### Scalar forms (R275) -/

/-- `ld.s`. -/
def execLdS (o : FM) (s : State) : Out :=
  s.direct (.ldS o) fun s => do
    let m := s.eff
    let n := fmtWidth o.ty / 8
    let lat := bound o.lat 16
    directMods m 1
    let ea := s.fmAddr o n
    alignedTo ea n
    let x ← s.directPart m ea n true lat
    let fm := if o.v then none else x.fmt.map fmtOf
    let dec := (fm.map decodes).getD false
    if dec then ensure (fm != some 0x0A && fm != some 0x0B && o.ty == 0x0F) 0x08
    else ensure ((fm.map fun t => decide (fmtWidth t = fmtWidth o.ty)).getD true) 0x08
    let s ← s.ordered m
    let n := if dec then 1 else n
    let v := s.directRead x n
    let w : Word :=
      if dec then BitVec.ofNat 64 (decodeBf16 (fun _ => 0) (fm.getD 0) v)
      else BitVec.ofNat 64 (if isSignedFmt o.ty then wrapInt 64 (toSigned (8 * n) v) else v)
    let bad := s.directBad x n
    let s := s.directDone x [(x.pa, n)]
    let s := if bad then s.fmUncorr ea else s
    let late : LateElem :=
      { lo := 0, wd := 64, face := decide (x.tier = 1), pa := x.pa, w := 8 * n, sx := isSignedFmt o.ty, dec := if dec then fm.map fun t => (t, 0) else none }
    .ok ((s.putS (s.spec 64 o.d) w lat).mayTake ⟨.s, s.spec 64 o.d⟩ m bad [late])

/-- A direct store enters the write queue of its port (R341). -/
def State.directStore (s : State) (x : Xlate) (m : Mods) (cells : List Sys2Proof.Cell) : State :=
  (s.fillWalk s.me.vfid x).enqueue
    { n := 0, g := s.cur, pc := s.me.pc, vf := s.me.vfid, pa := x.pa, quad := quadOf s.cur, face := decide (x.tier = 1),
      mods := m, op := .store cells, due := 0 }

/-- `st.s`. -/
def execStS (o : FM) (s : State) : Out :=
  s.direct (.stS o) fun s => do
    let m := s.eff
    let n := fmtWidth o.ty / 8
    directMods m 2
    let ea := s.fmAddr o n
    alignedTo ea n
    let x ← s.directPart m ea n false 0
    ensure ((x.fmt.map fun f => decide (fmtWidth (fmtOf f) = fmtWidth o.ty)).getD true) 0x08
    let s ← s.ordered m
    .ok (s.directStore x m (cellsOf (s.rs o.d).toNat n))

/-! ### Tile forms (R276, R277) -/

/-- The element width that a shape implies, when it implies one (R274). -/
def impliedWidth (h : VShape) : Option Nat :=
  let n := h.rows * h.cols
  if n = 128 ∨ n = 256 ∨ n = 512 ∨ n = 1024 then some (4096 / n) else none
/-- The 64-byte line of element `i` at width `w`. -/
def lineOf (w i : Nat) : Nat := w * i / 512
/-- What a tile access found: each active line with its translation and its first active row within its part. -/
structure TileParts where
  act : List Bool
  shape : VShape
  lines : List (Nat × Nat × Xlate)

/-- Active lines of a tile access, translated in increasing address; the 512 bytes of a FACE access lie in one phase (R238), one part. The
restart row is that of the first active element of the part (R240) that faults. -/
def State.tileParts (s : State) (o : FM) (m : Mods) (ea : Word) (load : Bool) (lat : Nat) : Except Halt TileParts := do
  let h := vshape (s.readSh o.sh.toNat)
  match impliedWidth h with
  | none => .error (.code 0x09)
  | some w =>
    let cl : Cl := if o.msk.getLsbD 2 then .b else .a
    let mask := s.readM cl (bits o.msk.toNat 1 0)
    let act := (List.range (elems w)).map fun i => mask.getLsbD i && h.valid i
    let on := (act.zipIdx.filter (·.1)).map (·.2)
    let lines := (on.map (lineOf w)).eraseDups
    let addr := fun j : Nat => ea + BitVec.ofNat 64 (64 * j)
    let row := fun j : Nat =>
      ((on.find? fun i => m.space = 1 || s.samePart s.me.vfid (addr (lineOf w i)) (addr j)).getD 0) / h.cols
    if m.space = 1 ∧ !lines.isEmpty then
      let _ ← atRow (row (lines.headD 0)) (faceAddr (s.quad (quadOf s.cur)) ea 512)
    let got ← lines.mapM fun j => (atRow (row j) (s.directPart m (addr j) 64 load lat)).map fun x => (j, row j, x)
    .ok { act := act, shape := h, lines := got }

/-- Memory width of a part, and whether it decodes (R276). -/
def partWidth (o : FM) (x : Xlate) : Nat × Bool :=
  match (if o.v then none else x.fmt.map fmtOf) with
  | none => (fmtWidth o.ty, false)
  | some t => (fmtWidth t, decodes t)

/-- `ld.t`. -/
def execLdT (o : FM) (s : State) : Out :=
  s.direct (.ldT o) fun s => do
    let m := s.eff
    let lat := bound o.lat 16
    directMods m 1
    let ea := s.fmAddr o 64
    alignedTo ea 64
    let p ← s.tileParts o m ea true lat
    let (wm, dec) := (p.lines.head?.map fun l => partWidth o l.2.2).getD (fmtWidth o.ty, false)
    let row0 := (p.lines.head?.map fun l => l.2.1).getD 0
    match p.lines.find? fun l => partWidth o l.2.2 ≠ (wm, dec) with
    | some l => .error (.fault 0x08 l.2.1 0 none)
    | none =>
    if (dec ∧ o.ty ≠ 0x0F) ∨ (!dec ∧ fmtWidth o.ty ≠ wm) then .error (.fault 0x08 row0 0 none) else
    let r := if dec then 16 / wm else 1
    let d := s.spec 64 o.d
    ensure (decide (d % r = 0)) 0x08
    ensure (p.shape.ok wm) 0x09
    let cl : Cl := if o.msk.getLsbD 2 then .b else .a
    checkAll s.streamWrite ((List.range r).map fun j => ⟨tileFile cl, d + j⟩)
    let s ← s.ordered m
    let q := s.quad (quadOf s.cur)
    let data := p.lines.map fun l => (l.1, l.2.2, s.directRead l.2.2 64)
    let val := fun i : Nat =>
      match data.find? fun l => l.1 = lineOf wm i with
      | none => 0
      | some (j, x, v) =>
        let e := bits v (wm * i + wm - 1 - 512 * j) (wm * i - 512 * j)
        if dec then
          let f := x.fmt.getD 0
          decodeBf16 (bookEntry (bookAt q (cbslotOf f))) (fmtOf f) e
        else e
    let on := (List.range (elems wm)).filter fun i => p.act.getD i false
    let ranges := fun (l : Nat × Nat × Xlate) => (on.filter fun i => lineOf wm i = l.1).map fun i => (l.2.2.pa + (wm * i - 512 * l.1) / 8, (wm + 7) / 8)
    let bad := p.lines.any fun l => (ranges l).any fun e => s.directBad { l.2.2 with pa := e.1 } e.2
    let s := p.lines.foldl (fun s l => s.directDone l.2.2 (ranges l)) s
    let s := if bad then s.fmUncorr ea else s
    let w := if dec then 16 else wm
    let late := fun i : Nat => (data.find? fun l => l.1 = lineOf wm i).map fun l =>
      ({ lo := w * (i / r), wd := w, face := decide (l.2.1.tier = 1), pa := l.2.1.pa + (wm * i - 512 * l.1) / 8, bit := wm * i % 8, w := wm,
         dec := if dec then l.2.1.fmt.map fun f => (fmtOf f, bookAt q (cbslotOf f)) else none } : LateElem)
    let one := fun (s : State) (j : Nat) =>
      let en := (List.range (elems w)).map fun i => p.act.getD (r * i + j) false
      (s.giveTile cl (d + j) w en lat fun i => val (r * i + j)).mayTake ⟨tileFile cl, d + j⟩ m bad ((on.filter fun i => i % r = j).filterMap late)
    .ok ((List.range r).foldl one s)

/-- Cells of the active elements of a tile from bit `lo` on, in bytes (nibbles for 4-bit elements). -/
def tileCells (w : Nat) (t : Tile) (act : List Bool) (first count : Nat) : List Sys2Proof.Cell :=
  let en := (spread w act).toNat
  (List.range count).filterMap fun i =>
    let e := bits en (8 * (first + i) + 7) (8 * (first + i))
    if e = 0 then none else some ⟨i, t.extractLsb' (8 * (first + i)) 8, BitVec.ofNat 8 e⟩

/-- `st.t`: one entry per line; a store with no active element translates its first line and writes nothing (R271). -/
def execStT (o : FM) (s : State) : Out :=
  s.direct (.stT o) fun s => do
    let m := s.eff
    let w := fmtWidth o.ty
    directMods m 2
    let ea := s.fmAddr o 64
    alignedTo ea 64
    let p ← s.tileParts o m ea false 0
    let lines ← if p.lines.isEmpty then (s.directPart m ea 64 false 0).map fun x => [(0, 0, x)] else .ok p.lines
    match lines.find? fun l => !((l.2.2.fmt.map fun f => decide (fmtWidth (fmtOf f) = w)).getD true) with
    | some l => .error (.fault 0x08 l.2.1 0 none)
    | none =>
    ensure (p.shape.ok w) 0x09
    let cl : Cl := if o.msk.getLsbD 2 then .b else .a
    let s ← s.streamRead ⟨tileFile cl, s.spec 64 o.d⟩
    let s ← s.ordered m
    let t := s.rv cl o.d
    .ok (lines.foldl (fun s l => s.directStore l.2.2 m (tileCells w t p.act (64 * l.1) 64)) s)

end Sys2Proof.Machine
end

