-- ==== Sys2Proof/Machine/Engine.lean ====
section
/-! DEFINITION. What every engine command shares (R58, R71, R101, R269-R273, R311, R312): its issue, the order of its start,
where its completion goes, and its record; the save frame of a context (R70, R413); the write queues' step (R341). -/

namespace Sys2Proof.Machine

/-! ### Owners (R71, R409) -/

/-- Apply `f` to every engine command of the package. -/
def State.mapCmds (s : State) (f : Cmd → Cmd) : State :=
  let run := fun r : CubeRun => { r with cmd := f r.cmd }
  { s with
    cores := s.cores.map fun e => (e.1, { e.2 with remq := e.2.remq.map f, remLoose := e.2.remLoose.map f })
    quads := s.quads.map fun e => (e.1,
      { e.2 with
        copyq := e.2.copyq.map f, copyRun := e.2.copyRun.map f, copyHeld := e.2.copyHeld.map f,
        cmdq := e.2.cmdq.map f, parked := e.2.parked.map f, redo := e.2.redo.map f, reads := e.2.reads.map f,
        planes := e.2.planes.map fun p => (f p.1, p.2), runs := e.2.runs.map run,
        stops := e.2.stops.map fun r => { r with run := run r.run }, log := e.2.log.map fun p => (f p.1, p.2) })
    towers := s.towers.map fun e => (e.1, { e.2 with trigCmds := e.2.trigCmds.map f }) }
/-- Commands or queued writes of owner `g` are left. -/
def State.working (s : State) (g : Nat) : Bool := s.commands.any (fun k => k.g = g) || s.wq.any fun e => e.g = g
/-- Commands and queued writes of owner `g` pass to owner `h`. -/
def State.reown (s : State) (g h : Nat) : State :=
  let s := s.mapCmds fun c => if c.g = g then { c with g := h } else c
  { s with wq := s.wq.map fun e => if e.g = g then { e with g := h } else e }

/-! ### Save frames (R70, R413) -/

/-- Offset and bytes of a register in the frame. -/
def frameReg (r : RegId) : Nat × Nat :=
  match r.file with
  | .va => (512 * r.n, 512)
  | .vb => (0x8000 + 512 * r.n, 512)
  | .ma => (0x10000 + 128 * r.n, 128)
  | .mb => (0x10400 + 128 * r.n, 128)
  | .s => (0x10800 + 8 * r.n, 8)
  | .sh => (0x10A00 + 16 * r.n, 16)
  | .x => (0x10A80 + 2 * r.n, 2)
  | .tk => (0x10AC0 + 4 * r.n, 4)
  | .cr => (0x10D40 + 8 * r.n, 8)
/-- Every context of function `v`, live or saved (R245, R324). -/
def State.postAll (s : State) (v : Nat) (r : EvRec) : State :=
  let s := s.ctxs.foldl (fun s e => if e.2.vfid = v && e.2.state ≠ 0 then s.modCtx e.1 fun c => c.post r else s) s
  (s.vf v).saved.foldl (fun s e => if e.2.isSome then s.framePost v e.1 r else s) s

/-- The words that a command's access meets. -/
def State.engineMeets (s : State) (k : Cmd) (pa n : Nat) : State := s.eccMet k.vf k.g pa n
/-- Words of a range that carry an error, other than those in `met`: an engine's command meets each once. -/
def State.newErrors (s : State) (met : List Nat) (pa n : Nat) : List Nat :=
  (s.memSoft ++ s.memBad).filter fun u => decide (u < pa + n) && decide (pa < u + eccSize u) && !met.contains u

/-! ### Completion (R58, R71, R101, R273, R312, R324) -/

/-- The error of R273 and R391 that a record carries: the highest of those met. -/
def worstError (errs : List Nat) : Nat :=
  (([0x26, 0x21, 0x22, 0x20, 0x10, 0x11, 0x12, 0x24, 0x23, 0x25, 3, 1, 2, 4, 5, 6, 0x30, 0x31, 0x32]).find? fun e => errs.contains e).getD 0
/-- OP and F3 of an instruction (R96). -/
def opOf (i : Instr) : Nat × Nat := match i.row with | some r => (r.op.toNat, r.f3.toNat) | none => (0, 0)
/-- TAG of a command's record (R323). -/
def Cmd.tag (c : Cmd) : Nat := c.tok + (opOf c.instr).1 * 2 ^ 5 + (opOf c.instr).2 * 2 ^ 11

/-- A register result of a command: register, bits, and which bits. -/
abbrev Give := RegId × Tile × Tile

/-- Register results land in a live context. -/
def Ctx.give (c : Ctx) (ws : List Give) : Ctx :=
  ws.foldl (fun c w => c.landOne 0 { reg := w.1, val := w.2.1, en := w.2.2, due := 0 }) c
/-- The output slot of a saved context that holds a tile register (R330). -/
def Saved.boundTo (d : Saved) (r : RegId) : Option Nat :=
  (List.range 8).find? fun n =>
    let t := tget {} d.streams n
    t.bound && t.out && decide (t.reg = r.n) && (if t.cluster then r.file = .vb else r.file = .va)
/-- Register results are written into the frame of a saved one; one in an output slot's register fills it (R330, R332). -/
def State.frameGive (s : State) (v g : Nat) (ws : List Give) : State :=
  ws.foldl (fun s w =>
    if w.1.discards then s else
    let (off, n) := frameReg w.1
    let old : Tile := BitVec.ofNat 4096 (s.frameGet v g off n)
    let s := s.framePut v g off n ((old &&& ~~~w.2.2) ||| (w.2.1 &&& w.2.2)).toNat
    match (s.savedAt v g).bind fun d => d.boundTo w.1 with
    | some i => (s.framePut v g (0x10B40 + 64 * i) 4 (s.frameGet v g (0x10B40 + 64 * i) 4 ||| 2 ^ 11)).modSaved v g fun d =>
        { d with streams := tset {} d.streams i { tget {} d.streams i with rfull := true } }
    | none => s) s
/-- Register results reach a command's owner. DESIGN CHOICE: each command writes its registers as it ends, whatever other commands of its context
are under way: of two that name one register the later end stands, for R51 speaks of bundles alone (log 84). -/
def State.giveTo (s : State) (k : Cmd) (ws : List Give) : State :=
  if k.g < 3072 then s.modCtx k.g fun c => c.give ws
  else if k.g < nobody then s.frameGive k.vf (slotOf k.g) ws
  else s

/-- The command's token completes in a live context. -/
def Ctx.finish (c : Ctx) (k : Cmd) (err : Bool) : Ctx :=
  let t := c.token k.tok
  if t.by' = k.serial ∧ t.st = .pending then
    c.setToken k.tok { t with st := if err then .doneErr else .done, bind := false, sum := k.sum } else c

/-- It completes in the frame of a saved one. -/
def State.frameFinish (s : State) (k : Cmd) (err : Bool) : State :=
  let g := slotOf k.g
  match s.savedAt k.vf g with
  | some d =>
    let t := tget {} d.toks k.tok
    if t.by' = k.serial ∧ t.st = .pending then
      let st : TkState := if err then .doneErr else .done
      (s.framePut k.vf g (0x10AC0 + 4 * k.tok) 4 (if err then 2 else 0)).modSaved k.vf g fun d =>
        { d with toks := tset {} d.toks k.tok { t with st := st, bind := false, sum := k.sum } }
    else s
  | none => s

/-- A command that waits for the checksum of `k` learns it (R284). -/
def State.chainTo (s : State) (k : Cmd) (err : Bool) : State :=
  s.mapCmds fun c => if c.chain = some k.serial then { c with chain := none, sum := k.sum, chainOk := !err } else c

/-- A command ends: its record first, then its results and its token (R325); the out-of-bounds total is counted (R259), and
the Dealer hears of consumed errors, those of a quiet command too (R406, R425). -/
def State.endCmd (s : State) (k : Cmd) (ws : List Give) (payload : Nat) (always : Bool) : State :=
  let code := worstError k.errs
  let err := !k.errs.isEmpty
  let s := if k.oob = 0 then s else s.modVf k.vf fun x => { x with ctr := ctrWrap x.ctr 0x12 0 k.oob }
  let r : EvRec := { kind := 1, code := code, tag := k.tag, time := s.tick, payload := payload }
  let s := if (err || k.oob ≠ 0 || always) && !k.quiet then s.postTo k.vf k.g r else s
  let s := if code = 0x20 ∨ code = 3 then s.notice k.vf (slotOf k.g) k.pc code k.launch 0 else s
  let s := match k.instr with | .dcopyCsum _ => s.chainTo k err | _ => s
  let s := s.giveTo k ws
  if k.g < 3072 then s.modCtx k.g fun c => c.finish k err
  else if k.g < nobody then s.frameFinish k err
  else s

/-- The payload of a descriptor engine's record (R324). -/
def Cmd.payload (k : Cmd) : Nat :=
  let low := if k.errs.contains 0x26 then k.point % 2 ^ 32 else min k.oob (2 ^ 32 - 1)
  match k.instr with | .dcopyCsum _ => low + k.sum % 2 ^ 32 * 2 ^ 32 | _ => low

/-! ### Issue (R58, R101, R311) -/

/-- The token of command `serial` is PENDING somewhere. -/
def State.live (s : State) (serial : Nat) : Bool :=
  (s.ctxs.any fun e => e.2.tk.any fun t => t.2.st = .pending && t.2.by' = serial) ||
  s.vfs.any fun v => v.2.saved.any fun e => match e.2 with
    | some d => d.toks.any fun t => t.2.st = .pending && t.2.by' = serial
    | none => false
/-- Every token that the command consumes is complete. -/
def State.ready (s : State) (k : Cmd) : Bool := !k.after.any s.live

/-- The modifiers of a command without a prefix: CLASS, SCOPE and CACHE of MEMDEF (R61, R295). -/
def State.defMods (s : State) : Mods :=
  let d := s.me.memdef.toNat
  { cls := bits d 3 0, scope := bits d 6 4, cache := bits d 11 10 }
/-- The command of an FE syllable at issue. -/
def State.newCmd (s : State) (i : Instr) (o : FE) (m : Mods) : Cmd :=
  let c := s.me
  let toks := ([o.tka, o.tkb, o.tkc].take o.ntk.toNat).map fun t => c.token t.toNat
  { instr := i, g := s.cur, serial := s.serial + 1, tok := o.tko.toNat, pc := c.pc, vf := c.vfid, launch := c.launch,
    phase := c.phase, mods := m, at' := s.tick,
    after := toks.filterMap fun t => if t.st = .pending then some t.by' else none }
/-- A product token still PENDING blocks (R58). -/
def State.tokenFree (s : State) (o : FE) : Except Halt Unit := unblocked ((s.me.token o.tko.toNat).st ≠ .pending) 2
/-- The command is issued: its token is PENDING. -/
def State.issued (s : State) (k : Cmd) : State :=
  let bind := match k.instr with | .sbind _ => true | _ => false
  let csum := match k.instr with | .dcopyCsum _ => true | _ => false
  { (s.modCtx s.cur fun c => c.setToken k.tok { st := .pending, by' := k.serial, bind := bind, csum := csum }) with serial := k.serial }
/-- Into the quad's copy engine queue; a full one blocks (R34, R321). -/
def State.toCopy (s : State) (k : Cmd) : Except Halt State := do
  unblocked (decide ((s.quad (quadOf s.cur)).copyq.length < 16)) 1
  .ok ((s.issued k).modQuad (quadOf s.cur) fun q => { q with copyq := q.copyq ++ [k] })
/-- Into the core's remote engine queue. -/
def State.toRemote (s : State) (k : Cmd) : Except Halt State := do
  unblocked (decide ((s.core' (coreOf s.cur)).remq.length < 16)) 1
  .ok ((s.issued k).modCore (coreOf s.cur) fun c => { c with remq := c.remq ++ [k] })

/-- The cluster of an FE syllable's tiles and masks. -/
def feCl (o : FE) : Cl := if o.msk.getLsbD 2 then .b else .a
/-- Active elements of an FE tile form, as a mask. -/
def State.feActive (s : State) (o : FE) (w : Nat) : Except Halt MaskReg := do
  let h := vshape (s.readSh o.sh.toNat)
  ensure (h.ok w) 0x09
  let m := s.readM (feCl o) (bits o.msk.toNat 1 0)
  .ok (BitVec.ofNat 1024 ((List.range (elems w)).foldl (fun a i => if m.getLsbD i && h.valid i then a + 2 ^ i else a) 0))
/-- The row of an element. -/
def State.feRow (s : State) (o : FE) (i : Nat) : Nat := i / (vshape (s.readSh o.sh.toNat)).cols

/-! ### Timetable gates (R358, R380) -/

/-- The engine `u` may dispatch a command: unless its phase names the engine and it has not started there. -/
def State.engineOpen (s : State) (u : Nat) (k : Cmd) : Bool :=
  match k.launch.bind s.launch with
  | none => true
  | some l =>
    let named := match l.phases[k.phase]? with | some p => p.engines.any fun e => e.unit = u | none => false
    !named || l.work.any fun w => w.phase = k.phase && w.unit = u && 2 ≤ w.st

/-! ### Arrival queues (R345, R346) -/

/-- The UALink port whose arrival queue an event of the outside world passes. -/
def arrivalPort : Instr → Option Nat
  | .fwrite m => some m.port
  | .lineadd m => some m.port
  | .flaginc m | .trigarr m => some m.port
  | .poolrsp m => some m.port
  | .tokreq m | .tokgrant m | .tokrecall m => some m.port
  | .loss m => some m.port
  | .ualinkRead m | .ualinkWrite m | .ualinkAtomic m => some m.port
  | .ualinkResponse m => some m.port
  | .unsupportedVendorMessage p _ => some p
  | _ => none
/-- The port by which the answers to command `n` come. -/
def answerPort (n : Nat) : Nat := Config.linkPort n % 8
/-- The function is being reset (R423). -/
def State.resetting (s : State) (v : Nat) : Bool := s.dealer.resets.any fun r => r.1 = v
/-- The answer to command `n` of function `v`, which arrived at tick `t`, is at the head of its port's queue: no request that came before
it waits there. DEDUCED: a reset's own drain does not wait for what that reset holds back (log 44). -/
def State.portFree (s : State) (v n t : Nat) : Bool :=
  s.resetting v || s.agenda.all fun e => !(decide (e.1 ≤ t) && arrivalPort e.2 == some (answerPort n))

/-- An internal event that is due. -/
abbrev Due := Option (State → Out)
/-- An event of the part takes place only while its condition holds; otherwise nothing changes. -/
@[inline] def event (b : Bool) (s t : State) : Out := .next (if b then t else s)

/-! ### Write queues (R238, R289, R315, R341) -/

/-- A store into a face: the bytes land, and the phase's header loses VALID (R238). -/
def Quad.faceStore (q : Quad) (key : Nat) (cells : List Sys2Proof.Cell) : Quad :=
  let face := cells.foldl (fun m c => setByte m (key + c.off) ((byteAt m (key + c.off) &&& ~~~c.en) ||| (c.val &&& c.en))) q.face
  let h := hdrKey (key / 2 ^ 20) (key / 2 ^ 18 % 2) (key / 2 ^ 19 % 2)
  let whole := fun u : Nat => (List.range 8).all fun i => cells.any fun c => key + c.off = u + i && c.en = 0xFF
  if cells.isEmpty then q else
  { q with
    face := face
    hdr := tset resetHdr q.hdr h (tget resetHdr q.hdr h &&& ~~~(BitVec.ofNat 64 (2 ^ 13)))
    faceBad := q.faceBad.filter fun u => !whole u
    faceSoft := q.faceSoft.filter fun u => !whole u }

/-- The written bytes of a line from stores of `w`-bit values at bit offsets, later ones winning. -/
def lineCells (w : Nat) (els : List (Nat × Nat)) : List Sys2Proof.Cell :=
  let step := fun (l : BitVec 512 × BitVec 512) (e : Nat × Nat) =>
    let m : BitVec 512 := BitVec.ofNat 512 (2 ^ w - 1) <<< e.1
    ((l.1 &&& ~~~m) ||| ((BitVec.ofNat 512 (e.2 % 2 ^ w)) <<< e.1), l.2 ||| m)
  let (v, en) := els.foldl step (0, 0)
  (List.range 64).filterMap fun i =>
    let e := en.extractLsb' (8 * i) 8
    if e = 0 then none else some ⟨i, v.extractLsb' (8 * i) 8, e⟩

/-- The target error of an address a command translated (R245, R273): a later loss decides it. -/
def State.paError (s : State) (v : Nat) (va : Word) (pa : Nat) : Option Nat :=
  if tierOf pa = 5 then
    match s.xkitty v va with
    | .ok x => s.targetError x
    | .error _ => if s.lostSw.contains (bits pa 51 40) then some 0x21 else none
  else s.targetError { pa := pa, tier := tierOf pa }

/-- The receiving package turns an access to a peer away (R467): whether it does is that package's affair, a free choice. -/
def State.turnedAway (s : State) (pa : Nat) : Bool := decide (tierOf pa = 4) && Config.choice s.fresh (8192 + pa / 4096)
/-- The error that an engine's access meets at its target: one that cannot be reached, or a peer's refusal (R245, R273, R467). -/
def State.accessError (s : State) (x : Xlate) : Option Nat := s.targetError x <|> if s.turnedAway x.pa then some 0x22 else none
/-- The same of an address translated before. -/
def State.portError (s : State) (v : Nat) (va : Word) (pa : Nat) : Option Nat := s.paError v va pa <|> if s.turnedAway pa then some 0x22 else none
/-- 2^24 ticks (R245, R273). -/
def noAnswer : Nat := 0x1000000
/-- A unit of memory that a run of writes, each a byte with its enables, covers whole. -/
def wholeUnit (wrote : List (Nat × Byte)) (u : Nat) : Bool :=
  (List.range (eccSize u)).all fun i => ((wrote.filter fun w => w.1 = u + i).foldl (fun e w => e ||| w.2) (0 : Byte)) = 0xFF
/-- Units written whole, in several steps, lose their error marks (R250). -/
def State.clearCovered (s : State) (wrote : List (Nat × Byte)) : State :=
  { s with memBad := s.memBad.filter fun u => !wholeUnit wrote u, memSoft := s.memSoft.filter fun u => !wholeUnit wrote u }

/-- One contribution of a reduction (R287-R289), as patterns of `w` bits. -/
def redStep (i : Instr) (w m v : Nat) : Nat :=
  let pick := fun (lo signed : Bool) =>
    let lt := if signed then decide (toSigned w m < toSigned w v) else decide (m < v)
    if lt = lo then m else v
  match i with
  | .redAdd _ | .amoAdd _ => (m + v) % 2 ^ w
  | .redAnd _ | .amoAnd _ => m &&& v
  | .redOr _ | .amoOr _ => m ||| v
  | .redXor _ | .amoXor _ => m ^^^ v
  | .redMin o => pick true (!o.d.getLsbD 1)
  | .redMax o => pick false (!o.d.getLsbD 1)
  | .amoMin _ => pick true true
  | .amoMax _ => pick false true
  | .redFadd _ => fadd' 0x10 false false m v
  | _ => v

/-- `count` contributions of owner `g` to the line at `va` are dropped at a failed target: one record for the line (R289, R344). -/
def State.dropReduction (s : State) (v g code count : Nat) (va : Word) : State :=
  (s.vfSat v 0x14 0 count).postTo v g { kind := 0x0B, code := code, time := s.tick, payload := va.toNat / 64 * 64 }

/-- An access without a command of its own: the function and the context that hear of the errors it meets. -/
def accessOf (v g : Nat) : Cmd := { instr := .nop .e, g := g, vf := v }
/-- At POD scope, the line of a PEER or KITTY target is written back when it is performed (R300, R318). -/
def State.settleLine (s : State) (m : Mods) (pa : Nat) : State := if m.scope = 5 then s.cleanLines fun l => l = pa / 64 else s
/-- A write-queue entry is performed at its port. A fired packet whose target has failed is dropped (R390); the reductions of a context
that wait for one line of a failed target are dropped together (R289). -/
def State.performEntry (s : State) (e : WqEntry) : State :=
  match e.op with
  | .store cells =>
    if e.face then s.modQuad e.quad fun q => q.faceStore e.pa cells
    else if (s.portError e.vf e.va e.pa).isSome then s.vfSat e.vf 0x18 0 1
    else
      let s := (s.performWrite e.pa cells e.mods.cache).settleLine e.mods e.pa
      match e.flag with
      | some (f, va, n) => s.enqueue { e with pa := f, va := va, op := .increment n, flag := none }
      | none => s
  | .reduce i w vals count =>
    match s.portError e.vf e.va e.pa with
    | some code =>
      let mine := fun x : WqEntry => x.isReduce && decide (x.g = e.g) && x.sameLine e
      let n := (s.wq.filter mine).foldl (fun n x => n + match x.op with | .reduce _ _ _ c => c | _ => 0) count
      State.dropReduction { s with wq := s.wq.filter fun x => !mine x } e.vf e.g code n e.va
    | none =>
      let s := vals.foldl (fun s (o, l) =>
        let a := e.pa + o
        let t := s.engineMeets (accessOf e.vf e.g) a (w / 8)
        if badIn s.memBad a (w / 8) then t
        else t.performWrite a (cellsOf (l.foldl (redStep i w) (s.readLe a (w / 8))) (w / 8)) e.mods.cache) s
      s.settleLine e.mods e.pa
  | .increment n =>
    if (s.portError e.vf e.va e.pa).isSome then s.vfSat e.vf 0x18 0 1 else s.incrementFlag e.vf e.g e.pa n e.mods.scope

/-- An entry may be performed: its time has come, its port holds too many lines, or its target has failed, so that it is dropped (R245,
R307), and no entry that goes before it waits. -/
def State.entryReady (s : State) (e : WqEntry) : Bool :=
  (decide (e.due ≤ s.tick) || s.portOver e || (decide (4 ≤ tierOf e.pa) && (s.paError e.vf e.va e.pa).isSome)) && (s.wq.takeWhile fun x => x.n ≠ e.n).all fun x => !x.before e
/-- Entry `n` leaves the queue and is performed. -/
def State.applyEntry (s : State) (n : Nat) : State :=
  match s.wq.find? fun e => e.n = n with
  | some e => State.performEntry { s with wq := s.wq.filter fun x => x.n ≠ n } e
  | none => s
/-- The entries that `p` picks, with those that go before one of them, in order. -/
def drainSet (p : WqEntry → Bool) (l : List WqEntry) : List WqEntry :=
  l.foldr (fun x acc => if p x || acc.any fun y => x.before y then x :: acc else acc) []
/-- The entries accepted for a line, and what goes before them, are performed: a write of an engine takes its place behind them in the
line's order (R298, R341). -/
def State.drainLine (s : State) (pa : Nat) : State :=
  ((drainSet (fun x => !x.face && x.pa / 64 = pa / 64) s.wq).map (·.n)).foldl State.applyEntry s
/-- A write by an engine: behind the entries of its lines. -/
def State.portWrite (s : State) (pa : Nat) (cells : List Sys2Proof.Cell) (cache : Nat) : State :=
  ((cells.map fun c => (pa + c.off) / 64).eraseDups.foldl (fun s l => s.drainLine (64 * l)) s).performWrite pa cells cache
/-- A flag increment by an engine, behind the entries of its line. -/
def State.portIncrement (s : State) (v g pa bytes scope : Nat) : State := (s.drainLine pa).incrementFlag v g pa bytes scope
/-- WRITE_QUEUE_APPLY. -/
def execWriteQueueApply (n : Nat) (s : State) : Out :=
  match s.wq.find? fun e => e.n = n with
  | some e => event (s.entryReady e) s (s.applyEntry n)
  | none => .next s
def State.dueWrite (s : State) : Due := (s.wq.find? s.entryReady).map fun e => execWriteQueueApply e.n

end Sys2Proof.Machine
end

