-- ==== Sys2Proof/Machine/Layout.lean ====
section
/-! DEFINITION. Layout descriptors: their fields and checks (R252-R254), views, traversal and addresses (R255-R260). -/

namespace Sys2Proof.Machine

/-- A descriptor's fields (R252). Lists are indexed by dimension; dimension 0 has stride 0 here. -/
structure Layout where
  base : Nat
  size : List Nat
  stride : List Int
  rank : Nat
  ew : Nat
  order : List Nat
  brick : Bool
  oob : Nat
  pl : List Nat
  pt : List Nat
  spare : Nat
  fill : Nat
  deriving DecidableEq, Repr

/-- The fields of 64 bytes. -/
def layoutOf (d : BitVec 512) : Layout :=
  let v := d.toNat
  { base := bits v 63 0
    size := (List.range 6).map fun j => bits v (87 + 24 * j) (64 + 24 * j)
    stride := 0 :: (List.range 5).map fun j => toSigned 38 (bits v (245 + 38 * j) (208 + 38 * j))
    rank := bits v 400 398
    ew := bits v 403 401
    order := (List.range 6).map fun i => bits v (406 + 3 * i) (404 + 3 * i)
    brick := bit v 422
    oob := bits v 424 423
    pl := [bits v 432 425, bits v 448 441, bits v 464 457]
    pt := [bits v 440 433, bits v 456 449, bits v 472 465]
    spare := bits v 479 473
    fill := bits v 511 480 }

/-- Element width in bits. -/
def Layout.w (l : Layout) : Nat := 4 * 2 ^ l.ew
def Layout.sizeAt (l : Layout) (j : Nat) : Nat := l.size.getD j 0
def Layout.strideAt (l : Layout) (j : Nat) : Int := l.stride.getD j 0
def Layout.lead (l : Layout) (j : Nat) : Nat := l.pl.getD j 0

/-- The checks of R253. -/
def Layout.ok (l : Layout) : Bool :=
  let dims := List.range 6
  decide (1 ≤ l.rank ∧ l.rank ≤ 6 ∧ l.ew ≤ 4) &&
  dims.all (fun j => decide (j < l.rank) ||
    (l.sizeAt j = 0 && l.strideAt j = 0 && l.order.getD j 0 = 0 && l.lead j = 0 && l.pt.getD j 0 = 0)) &&
  (List.range l.rank).all (fun j => (l.order.take l.rank).contains j) &&
  decide (l.base % 64 = 0 ∧ l.sizeAt 0 * l.w % 512 = 0) &&
  dims.all (fun j => decide (l.w < 8) || decide (l.strideAt j % (l.w / 8 : Nat) = 0)) &&
  (!l.brick || decide (2 ≤ l.rank ∧ l.sizeAt 0 % 64 = 0 ∧ l.sizeAt 1 % 64 = 0 ∧ l.strideAt 1 % 64 = 0)) &&
  decide (l.oob ≤ 1 ∧ l.spare = 0)

/-- The view extent of a dimension (R255); an unused one counts as 1. -/
def Layout.extent (l : Layout) (j : Nat) : Nat := if j < l.rank then l.lead j + l.sizeAt j + l.pt.getD j 0 else 1
/-- Elements of the view. -/
def Layout.count (l : Layout) : Nat := (List.range l.rank).foldl (fun n j => n * l.extent j) 1
/-- The view holds a stored element. -/
def Layout.stores (l : Layout) : Bool := (List.range l.rank).all fun j => l.sizeAt j ≠ 0

/-- Mixed-radix coordinates of index `n` over extents `ext`, fastest dimension first in `order`. -/
def mixed (ext : Nat → Nat) : List Nat → Nat → List (Nat × Nat)
  | [], _ => []
  | j :: rest, n => (j, n % ext j) :: mixed ext rest (n / ext j)
/-- Coordinate of a dimension. -/
def coordAt (c : List (Nat × Nat)) (j : Nat) : Nat := ((c.find? fun e => e.1 = j).map (·.2)).getD 0
/-- `Coord(n)` (R255). -/
def Layout.coord (l : Layout) (n : Nat) : List (Nat × Nat) := mixed l.extent (l.order.take l.rank) n
/-- `Stored(x)` (R255): `none` at a pad position. -/
def Layout.stored (l : Layout) (x : List (Nat × Nat)) : Option (List Nat) :=
  if (List.range l.rank).all fun j => l.lead j ≤ coordAt x j && coordAt x j < l.lead j + l.sizeAt j then
    some ((List.range 6).map fun j => if j < l.rank then coordAt x j - l.lead j else 0)
  else none
/-- `BitAddr(y)` (R255, R256), modulo 2^64 bytes. -/
def Layout.bitAddr (l : Layout) (y : List Nat) : Nat :=
  let at' := fun j => y.getD j 0
  let w := l.w
  let outer := fun lo : Nat => (List.range 6).foldl (fun (a : Int) j => if lo ≤ j then a + 8 * (at' j : Int) * l.strideAt j else a) 0
  let a : Int :=
    if l.brick then
      8 * l.base + 8 * (at' 1 / 64 : Nat) * l.strideAt 1 + (at' 0 / 64 * 4096 * w : Nat) +
        (((at' 1 % 64) * 64 + at' 0 % 64) * w : Nat) + outer 2
    else 8 * l.base + (at' 0 * w : Nat) + outer 1
  wrapInt 67 a
/-- The bit address of the element at traversal index `n`, unless it is a pad position. -/
def Layout.elemAddr (l : Layout) (n : Nat) : Option Nat := (l.stored (l.coord n)).map l.bitAddr
/-- FILL as stored bits (R252). -/
def Layout.fillBits (l : Layout) : Nat := l.fill % 2 ^ l.w

/-- Byte address of a bit address. -/
def byteOf (a : Nat) : Word := BitVec.ofNat 64 (a / 8)
/-- The bits of an element in memory: `w` bits at byte `pa`, the high nibble when `a mod 8 = 4`. -/
def State.readElem (s : State) (pa a w : Nat) : Nat := (s.readLe pa ((w + 7) / 8) >>> (a % 8)) % 2 ^ w
/-- The written bytes of an element. -/
def elemCells (a w v : Nat) : List Sys2Proof.Cell :=
  if w = 4 then [⟨0, BitVec.ofNat 8 (v % 16 * 2 ^ (a % 8)), BitVec.ofNat 8 (15 * 2 ^ (a % 8))⟩] else cellsOf v (w / 8)

/-- The 64-byte descriptor at `va`, or the errors that end its command (R254, R250). DEDUCED: an address that is no multiple of 64, which R252 asks
for and R254's causes do not name, ends it too (log 84). -/
def State.readDesc (s : State) (v : Nat) (va : Word) : Except (List Nat) (BitVec 512) :=
  match s.xlate v va true false 0 with
  | .error _ => .error [0x10]
  | .ok x =>
    if va.toNat % 64 ≠ 0 ∨ (x.tier ≠ 2 ∧ x.tier ≠ 3) then .error [0x10]
    else if badIn s.memBad x.pa 64 then .error [0x10, 0x20]
    else
      let d := BitVec.ofNat 512 (s.readLe x.pa 64)
      if (layoutOf d).ok then .ok d else .error [0x10]

/-- What the read of a descriptor leaves behind: walk-cache entries, and the errors met (R248, R250, R354). -/
def State.descRead (s : State) (k : Cmd) (va : Word) : State :=
  let r := s.xlate k.vf va true false 0
  let s := s.walked k.vf k.g va
  match r with
  | .ok x => if va.toNat % 64 ≠ 0 ∨ (x.tier ≠ 2 ∧ x.tier ≠ 3) then s else s.engineMeets k x.pa 64
  | .error _ => s

/-- The packages and switches among some addresses. -/
def farOf (pas : List Nat) : List (Nat × Nat) := ((pas.filter fun a => decide (4 ≤ tierOf a)).map fun a => (tierOf a, a / 2 ^ 40)).eraseDups
/-- Where the elements of a layout lie. -/
def State.layoutPas (s : State) (v : Nat) (d : BitVec 512) : List Nat :=
  let l := layoutOf d
  (List.range l.count).filterMap fun n => (l.elemAddr n).bind fun b => (s.xmap v (byteOf b)).toOption.map Xlate.pa
/-- Where `n` bytes from `va` lie: their first byte, those of each further 4 KiB, and the last. -/
def State.rangePas (s : State) (v : Nat) (va : Word) (n : Nat) : List Nat :=
  ((List.range ((n + 4095) / 4096)).map (4096 * ·) ++ [n - 1]).filterMap fun i => (s.xmap v (va + BitVec.ofNat 64 i)).toOption.map Xlate.pa

/-! ### Tiles of a walk (R257) -/

/-- Extents of the tile grid under a shape. -/
def Layout.grid (l : Layout) (h : VShape) (j : Nat) : Nat :=
  if j = 0 then (l.extent 0 + h.cols - 1) / h.cols else if j = 1 then (l.extent 1 + h.rows - 1) / h.rows else l.extent j
/-- Tiles of the walk (R328). -/
def Layout.tiles (l : Layout) (h : VShape) : Nat := (List.range 6).foldl (fun n j => n * l.grid h j) 1
/-- The dimensions of a walk in traversal order; a view of rank 1 has one row. -/
def Layout.walkOrder (l : Layout) : List Nat := l.order.take l.rank
/-- The view coordinates of element `i` of tile `t`; `none` when it lies beyond V0 or V1 (out of bounds, R259). -/
def Layout.tileElem (l : Layout) (h : VShape) (t i : Nat) : Option (List (Nat × Nat)) :=
  let g := mixed (l.grid h) l.walkOrder t
  let x := (List.range 6).map fun j =>
    (j, if j = 0 then coordAt g 0 * h.cols + i % h.cols else if j = 1 then coordAt g 1 * h.rows + i / h.cols else coordAt g j)
  if coordAt x 0 < l.extent 0 ∧ coordAt x 1 < l.extent 1 then some x else none
/-- Elements of tile `t` that lie out of bounds; those past VROWS or VCOLS are masked (R56, R259). -/
def Layout.tileOob (l : Layout) (h : VShape) (t : Nat) : Nat :=
  ((List.range (h.rows * h.cols)).filter fun i => h.valid i && (l.tileElem h t i).isNone).length

end Sys2Proof.Machine
end

