-- ==== Sys2Proof/Machine/Stream.lean ====
section
/-! DEFINITION. Streams: `sbind`, `sunbind`, `sstat` (R293), tiles fetched, landed, taken and written (R328-R330), and the
end of a binding (R331). -/

namespace Sys2Proof.Machine

/-- All fields of a format FE syllable zero. -/
def feZero : FE :=
  { v := false, lat := 0, sh := 0, msk := 0, d := 0, a := 0, b := 0, tko := 0, tka := 0, tkb := 0, tkc := 0, ntk := 0 }

/-! ### Issue -/

/-- A shape that implies an element width (R274, R293). -/
def shapeWidth (v : Word) : Option Nat := impliedWidth (vshape (v.setWidth 128))
/-- A slot of the context holds the tile register. -/
def Ctx.holdsReg (c : Ctx) (r : RegId) : Bool := (c.boundTo r).isSome

/-- `sbind` (R293): the slot is bound from its issue; the engine reads the descriptor when the command starts. -/
def execSbind (o : FE) (s : State) : Out :=
  s.syl (.sbind o) fun s => do
    let n := bits o.d.toNat 2 0
    let cl := feCl o
    let reg := s.spec 64 o.b
    ensure (!(s.me.stream n).bound && !s.me.holdsReg ⟨tileFile cl, reg⟩) 0x08
    let shape := (s.readSh o.sh.toNat).setWidth 64
    ensure (shapeWidth shape).isSome 0x09
    s.tokenFree o
    let m := s.me.memdef.toNat
    let k := { s.newCmd (.sbind o) o { cls := bits m 3 0, scope := bits m 6 4 } with point := n, sa := s.rs o.a }
    let s ← s.toCopy k
    .ok (s.modCtx s.cur fun c => c.setStream n
      { bound := true, out := bit o.d.toNat 3, cluster := decide (cl = .b), reg := reg, token := k.tok, desc := k.sa,
        shape := shape, cls := k.mods.cls, scope := k.mods.scope, by' := k.serial, pc := k.pc })

/-- `sunbind` (R293). -/
def execSunbind (o : FE) (s : State) : Out :=
  s.syl (.sunbind o) fun s => do
    s.tokenFree o
    s.toRemote { s.newCmd (.sunbind o) o {} with point := bits o.d.toNat 2 0 }
/-- `sstat` (R293). -/
def execSstat (o : FE) (s : State) : Out :=
  s.syl (.sstat o) fun s => do
    s.tokenFree o
    s.toRemote { s.newCmd (.sstat o) o {} with point := bits o.a.toNat 2 0, dest := [⟨.s, s.spec 64 o.d⟩] }

/-- The word of `sstat`. -/
def Stream.word (t : Stream) : Word :=
  BitVec.ofNat 64 ((if t.bound then 1 else 0) + (if t.out then 2 else 0) + (if t.fin then 4 else 0) + (if t.err then 8 else 0) +
    t.tiles.length * 2 ^ 8 + t.passed % 2 ^ 32 * 2 ^ 32)

/-! ### Slots of contexts and of save frames (R71, R328, R332) -/

/-- A stream slot's owner: a context slot, or the context in the frame of slot `g` of function `v`. -/
def savedAs (v g : Nat) : Nat := 16384 * (v + 1) + g
/-- The function and slot of a frame's context. -/
def savedSlot (h : Nat) : Option (Nat × Nat) := if h < 16384 then none else some (h / 16384 - 1, h % 16384)
/-- The context slot of an owner. -/
def ownerSlot (h : Nat) : Nat := match savedSlot h with | none => h | some (_, g) => g
/-- The owner of a command's stream slots, where its context is live or saved. -/
def Cmd.holder (k : Cmd) : Option Nat := if k.g < 3072 then some k.g else if k.g < nobody then some (savedAs k.vf (slotOf k.g)) else none
/-- Slot `n` of an owner. -/
def State.slotStream (s : State) (h n : Nat) : Stream :=
  match savedSlot h with
  | none => (s.ctx h).stream n
  | some (v, g) => tget {} (((s.savedAt v g).map (·.streams)).getD []) n
/-- The image of a stream slot (R328). -/
def Stream.toNat (t : Stream) : Nat :=
  let flag := fun (b : Bool) (i : Nat) => if b then 2 ^ i else 0
  flag t.bound 0 + flag t.out 1 + flag t.fin 2 + flag t.err 3 + flag t.cluster 4 + t.reg % 64 * 2 ^ 5 + flag t.rfull 11 +
    t.tiles.length % 256 * 2 ^ 16 + t.token % 32 * 2 ^ 24 + t.passed % 2 ^ 32 * 2 ^ 32 + t.desc.toNat * 2 ^ 64 + t.shape.toNat * 2 ^ 128 +
    t.next % 2 ^ 32 * 2 ^ 192 + t.code % 256 * 2 ^ 224 + t.cls % 16 * 2 ^ 232 + t.scope % 8 * 2 ^ 236
/-- The image in a frame after the engine has changed the slot to `t`: what it changes there, or all of it when the image is reset. -/
def Stream.image (t : Stream) (old : Nat) : Nat :=
  if t = {} then 0
  else (setBits (setBits (setBits (BitVec.ofNat 512 old) 3 0 (bits t.toNat 3 0)) 23 11 (bits t.toNat 23 11)) 231 224 (t.code % 256)).toNat
/-- Slot `n` of an owner becomes `t`; a saved one's image follows (R71). -/
def State.setSlotStream (s : State) (h n : Nat) (t : Stream) : State :=
  match savedSlot h with
  | none => s.modCtx h fun c => c.setStream n t
  | some (v, g) =>
    (s.framePut v g (0x10B40 + 64 * n) 64 (t.image (s.frameGet v g (0x10B40 + 64 * n) 64))).modSaved v g fun d =>
      { d with streams := tset {} d.streams n t }
/-- Every slot that is not as after reset, with its owner and number. -/
def State.slots (s : State) : List (Nat × Nat × Stream) :=
  (s.ctxs.flatMap fun e => e.2.st.map fun t => (e.1, t.1, t.2)) ++
  s.vfs.flatMap fun v => v.2.saved.flatMap fun e => match e.2 with
    | some d => d.streams.map fun t => (savedAs v.1 e.1, t.1, t.2)
    | none => []

/-! ### The walk -/

/-- The layout of a stream whose descriptor has been read, with its shape and element width. -/
def Stream.walk (t : Stream) : Option (Layout × VShape × Nat) :=
  t.view.map fun d => (layoutOf d, vshape (t.shape.setWidth 128), (layoutOf d).w)
/-- Tiles of the stream's walk. -/
def Stream.total (t : Stream) : Nat := match t.walk with | some (l, h, _) => l.tiles h | none => 0
/-- The command a stream's binding stands for. -/
def State.streamCmd (s : State) (h : Nat) (t : Stream) : Cmd :=
  let k : Cmd := { instr := .sbind feZero, serial := t.by', tok := t.token, pc := t.pc, mods := { cls := t.cls, scope := t.scope } }
  match savedSlot h with
  | none => let c := s.ctx h; { k with g := h, vf := c.vfid, launch := c.launch, phase := c.phase }
  | some (v, g) => let d := (s.savedAt v g).getD {}; { k with g := frameOf g, vf := v, launch := d.launch, phase := d.phase }
/-- The tile at which a slot stands: the first taken tile that is not written, or the next to fetch (R272, R324). -/
def Stream.place (t : Stream) : Nat := if t.out then (t.tiles.head?.map (·.1)).getD t.next else t.next
/-- Where the elements of the tile lie at which a slot stands. -/
def State.streamPas (s : State) (h : Nat) (t : Stream) : List Nat :=
  t.walk.elim [] fun (l, hs, w) => (List.range (elems w)).filterMap fun i =>
    if !hs.valid i then none
    else ((l.tileElem hs t.place i).bind l.stored).bind fun y => (s.xmap (s.streamCmd h t).vf (byteOf (l.bitAddr y))).toOption.map (·.pa)
/-- The slot's next access is under way: within the bound of the farthest tier that its tile reaches (R233). -/
def State.streamAsk (s : State) (h : Nat) (t : Stream) : Stream :=
  { t with asked := s.tick, due := s.tick + 1 + tierDelay (farthest (towerOf (ownerSlot h)) (s.streamPas h t)) s.fresh 1 }

/-- What the elements of a tile came to: state, elements, the bytes written with their enables, out-of-bounds elements, error codes, whether
every port written has room (R341), and the fault of the first element that meets one: code and address. -/
structure TileAcc where
  s : State
  vals : List Nat := []
  oob : Nat := 0
  errs : List Nat := []
  bytes : Nat := 0
  met : List Nat := []
  wrote : List (Nat × Byte) := []
  room : Bool := true
  fault : Option (Nat × Word) := none

/-- One element read: FILL where it is masked, a pad or out of bounds, or its bits as they stand (R56, R258-R260, R281). -/
def TileAcc.fetch (k : Cmd) (l : Layout) (h : VShape) (tile : Nat) (a : TileAcc) (i : Nat) : TileAcc :=
  if a.fault.isSome then a else
  if !h.valid i then { a with vals := a.vals ++ [l.fillBits] } else
  match l.tileElem h tile i with
  | none => { a with vals := a.vals ++ [l.fillBits], oob := a.oob + 1 }
  | some x =>
    match l.stored x with
    | none => { a with vals := a.vals ++ [l.fillBits] }
    | some y =>
      let b := l.bitAddr y
      match a.s.xlate k.vf (byteOf b) true false 0 with
      | .error (.fault c _ _ _) => { a with fault := some (c, byteOf b) }
      | .error _ => a
      | .ok p =>
        match a.s.accessError p with
        | some e => { a with vals := a.vals ++ [2 ^ l.w - 1], errs := e :: a.errs }
        | none =>
          let bad := badIn a.s.memBad p.pa ((l.w + 7) / 8)
          let new := a.s.newErrors a.met p.pa ((l.w + 7) / 8)
          let s := new.foldl (fun s u => s.engineMeets k u 1) ((a.s.fillWalkFor k.vf k.g p).cacheRead p.pa ((l.w + 7) / 8) 0)
          { a with s := s, met := a.met ++ new, vals := a.vals ++ [s.readElem p.pa b l.w],
                   errs := if bad then 0x20 :: a.errs else a.errs }

/-- One element written, unless it is masked (R56); outside the view it is dropped (R259, R330). -/
def TileAcc.put (k : Cmd) (l : Layout) (h : VShape) (tile : Nat) (data : Tile) (a : TileAcc) (i : Nat) : TileAcc :=
  if a.fault.isSome ∨ !h.valid i then a else
  match l.tileElem h tile i with
  | none => { a with oob := a.oob + 1 }
  | some x =>
    match l.stored x with
    | none => a
    | some y =>
      let b := l.bitAddr y
      match a.s.xlate k.vf (byteOf b) false true 0 with
      | .error (.fault c _ _ _) => { a with fault := some (c, byteOf b) }
      | .error _ => a
      | .ok p =>
        match a.s.accessError p with
        | some e => { a with errs := e :: a.errs }
        | none =>
          let cells := elemCells b l.w (elem l.w data i)
          { a with s := (a.s.fillWalkFor k.vf k.g p).portWrite p.pa cells 0, bytes := a.bytes + l.w, room := a.room && a.s.portRoom p.pa,
                   wrote := a.wrote ++ cells.map fun c => (p.pa + c.off, c.en) }
/-- A tile has been written: units that it covers whole lose their error marks. -/
def TileAcc.done (a : TileAcc) : TileAcc := { a with s := a.s.clearCovered a.wrote }

/-- A stream's engine has an access to make: a taken tile to write, or room for one to fetch. -/
def State.streamAsks (s : State) (h : Nat) (t : Stream) : Bool :=
  t.bound && !t.held && t.walk.isSome &&
    if t.out then !t.tiles.isEmpty
    else (savedSlot h).isNone && t.unbinding = 0 && (s.ctx h).stop ≠ .preempting && decide (t.tiles.length < 4 ∧ t.next < t.total)
/-- The next access of a stream's engine, if it can make one now: a tile to fetch, or the first taken tile to write, which a saved slot's
engine writes too (R332). -/
def State.streamNext (s : State) (h n : Nat) : Option TileAcc :=
  let t := s.slotStream h n
  let k := s.streamCmd h t
  match t.walk with
  | none => none
  | some (l, hs, w) =>
    if !s.streamAsks h t ∨ s.tick < t.due then none
    else if t.out then
      match t.tiles with
      | (i, data) :: _ =>
        let a := ((List.range (elems w)).foldl (TileAcc.put k l hs i data) { s := s }).done
        if a.room then some a else none
      | [] => none
    else some ((List.range (elems w)).foldl (TileAcc.fetch k l hs t.next) { s := s })

/-- The register of an output slot is taken when it holds a tile and a buffer is free (R330). -/
def State.canTake (s : State) (h n : Nat) : Bool :=
  let t := s.slotStream h n
  (savedSlot h).isNone && t.bound && t.out && t.rfull && t.unbinding = 0 && decide (t.tiles.length < 4 ∧ t.passed < t.total)

/-! ### Events -/

/-- Errors and out-of-bounds elements a stream has met. -/
def Stream.met (t : Stream) (a : TileAcc) : Stream :=
  { t with code := if a.errs.isEmpty then t.code else worstError (t.code :: a.errs), oob := t.oob + a.oob }

/-- STREAM_TILE_FETCH. -/
def execStreamTileFetch (h n : Nat) (s : State) : Out :=
  let t := s.slotStream h n
  match s.streamNext h n with
  | some a =>
    let w := (t.walk.map fun x => x.2.2).getD 8
    let t' := { t.met a with tiles := t.tiles ++ [(t.next, packTile w a.vals)], next := t.next + 1 }
    event (!t.out && a.fault.isNone) s (a.s.setSlotStream h n (s.streamAsk h t'))
  | none => .next s

/-- STREAM_TILE_LAND. -/
def State.canLand (s : State) (h n : Nat) : Bool :=
  let t := s.slotStream h n
  (savedSlot h).isNone && t.bound && !t.out && !t.rfull && t.unbinding = 0 && (s.ctx h).stop ≠ .preempting && !t.tiles.isEmpty
def execStreamTileLand (h n : Nat) (s : State) : Out :=
  let t := s.slotStream h n
  match t.tiles with
  | (_, data) :: rest =>
    event (s.canLand h n) s (s.modCtx h fun c =>
      (c.write ⟨if t.cluster then .vb else .va, t.reg⟩ data (allBits 4096)).setStream n
        (let t' := { t with rfull := true, tiles := rest }; if rest.length = 3 then s.streamAsk h t' else t'))
  | [] => .next s

/-- STREAM_TILE_TAKE: the register's tile is taken, or the first taken tile is written. -/
def execStreamTileTake (h n : Nat) (s : State) : Out :=
  let t := s.slotStream h n
  if s.canTake h n then
    let data := (s.ctx h).tile (if t.cluster then .b else .a) t.reg
    let t' := { t with rfull := false, tiles := t.tiles ++ [(t.passed, data)], passed := t.passed + 1, next := t.passed + 1 }
    .next (s.setSlotStream h n (if t.tiles.isEmpty then s.streamAsk h t' else t'))
  else match s.streamNext h n with
  | some a =>
    let t' := s.streamAsk h { t.met a with tiles := t.tiles.drop 1 }
    let s' := if t.scope = 5 then a.s.cleanLines fun _ => true else a.s
    event (t.out && a.fault.isNone) s
      ((s'.setSlotStream h n t').modQuad (quadOf (ownerSlot h)) fun q => { q with ctr := ctrWrap q.ctr 0x24 0 ((a.bytes + 7) / 8) })
  | none => .next s

/-- The binding is over: the last tile has passed and been written, or the slot unbinds (R331, R293). -/
def State.streamOver (s : State) (h n : Nat) : Bool :=
  let t := s.slotStream h n
  t.bound && (!t.out || t.tiles.isEmpty) && (t.unbinding ≠ 0 || (t.view.isSome && decide (t.total ≤ t.passed)))
/-- A binding ends: its token completes, and its record posts. -/
def State.endStream (s : State) (h n : Nat) (extra : List Nat) : State :=
  let t := s.slotStream h n
  let strict := match t.walk with | some (l, _, _) => l.oob = 1 && t.oob ≠ 0 | none => false
  let errs := (if t.code = 0 then [] else [t.code]) ++ extra ++ if strict then [0x12] else []
  let k := { s.streamCmd h t with errs := errs, oob := t.oob, point := t.place }
  let t' : Stream := if t.unbinding ≠ 0 then {} else
    { t with bound := false, fin := errs.isEmpty || extra.isEmpty, err := !errs.isEmpty, code := worstError errs, tiles := [],
             view := none, held := false, rfull := false }
  (s.setSlotStream h n t').endCmd k [] k.payload false
/-- STREAM_END. -/
def execStreamEnd (h n : Nat) (s : State) : Out := event (s.streamOver h n) s (s.endStream h n [])

/-- The sbind command starts: the engine reads the descriptor (R293), and the binding leaves the queue (R280). -/
def State.startStream (s : State) (k : Cmd) : State :=
  match liveSlot k.g with
  | none => s
  | some g =>
    let n := k.point
    let t := (s.ctx g).stream n
    if !t.bound ∨ t.by' ≠ k.serial then s else
    let r := s.readDesc k.vf k.sa
    let s := s.descRead k k.sa
    match r with
    | .ok d =>
      if (layoutOf d).ew = 4 ∨ shapeWidth t.shape ≠ some (layoutOf d).w then s.endStream g n [0x10]
      else s.modCtx g fun c => c.setStream n (s.streamAsk g { t with view := some d })
    | .error e => s.endStream g n e

/-- The engine of a stream meets a fault and holds the stream at its tile (R272, R331). -/
def State.streamFault (s : State) (h n : Nat) : Option State :=
  let t := s.slotStream h n
  match s.streamNext h n with
  | some a =>
    match a.fault with
    | some (code, va) =>
      let k := s.streamCmd h t
      let s := (s.walked k.vf k.g va).setSlotStream h n { t with held := true }
      let s := s.postTo k.vf k.g { kind := 0x0A, code := code, tag := k.tag, time := s.tick, payload := va.toNat }
      let note : FaultNote :=
        { kind := 1, code := code, vf := k.vf, g := ownerSlot h, pc := k.pc, point := t.place, addr := va, tick := s.tick,
          launch := k.launch, cmd := some t.by', stream := some n }
      some (s.modDealer fun d => { d with notes := d.notes ++ [note] })
    | none => none
  | none => none

/-- ENGINE_TRANSLATION_FAULT of a stream. -/
def execStreamFault (h n : Nat) (s : State) : Out := .next ((s.streamFault h n).getD s)

/-- A stream's access goes beyond this package: its answers come through a port. -/
def State.farStream (s : State) (h : Nat) (t : Stream) : Bool := !(farOf (s.streamPas h t)).isEmpty
/-- The answer to a stream's access waits for what came before it at its port (R345). -/
def State.streamBehind (s : State) (h : Nat) (t : Stream) : Bool := s.farStream h t && !s.portFree (s.streamCmd h t).vf t.by' t.due
/-- The stream event of a slot that is due. -/
def State.dueStreamAt (s : State) (h n : Nat) : Due :=
  let t := s.slotStream h n
  if !t.bound then none
  else if s.streamOver h n then some (execStreamEnd h n)
  else if s.canLand h n then some (execStreamTileLand h n)
  else if s.canTake h n then some (execStreamTileTake h n)
  else if s.streamBehind h t then none
  else match s.streamNext h n with
  | some a => some (if a.fault.isSome then execStreamFault h n else if t.out then execStreamTileTake h n else execStreamTileFetch h n)
  | none => none
def State.dueStream (s : State) : Due := s.slots.findSome? fun x => s.dueStreamAt x.1 x.2.1

end Sys2Proof.Machine
end

