-- ==== Sys2Proof/Machine/Copy.lean ====
section
/-! DEFINITION. The copy engine: gathers, scatters and copies (R261-R266, R278-R284), the fills it makes for a cube (R197,
R198), the faults that hold its commands (R272), and their end (R273, R281, R282). -/

namespace Sys2Proof.Machine

/-! ### Issue -/

/-- Descriptor engines take plain order and virtual space only (R270). -/
def plainMods (m : Mods) : Except Halt Unit := ensure (decide (m.space = 0 ∧ m.ord = 0)) 0x08
/-- A gather or scatter (R278). -/
def State.indexed (s : State) (i : Instr) (o : FE) (f : State → Cmd → Cmd) : Out :=
  s.syl i fun s => do
    let m := s.eff
    plainMods m
    let act ← s.feActive o 32
    s.tokenFree o
    s.toCopy (f s { s.newCmd i o m with act := act, sa := s.rs o.a, tb := s.rv (feCl o) o.b })

/-- `ldx` (R278, R279). -/
def execLdx (o : FE) (s : State) : Out :=
  s.indexed (.ldx o) o fun s k => { k with dest := [⟨tileFile (feCl o), s.spec 64 o.d⟩] }
/-- `stx` (R278, R279). -/
def execStx (o : FE) (s : State) : Out := s.indexed (.stx o) o fun s k => { k with td := s.rv (feCl o) o.d }
/-- `stx.add` (R278, R279). -/
def execStxAdd (o : FE) (s : State) : Out := s.indexed (.stxAdd o) o fun s k => { k with td := s.rv (feCl o) o.d }

/-- A copy: the destination's and the source's descriptor, and the flag or control block (R280). -/
def State.copyCmd (s : State) (i : Instr) (o : FE) : Except Halt Cmd := do
  let m := s.eff
  plainMods m
  s.tokenFree o
  .ok { s.newCmd i o m with sd := s.rs o.d, sa := s.rs o.a, sb := s.rs o.b }
/-- `dcopy` (R280). -/
def execDcopy (o : FE) (s : State) : Out :=
  s.syl (.dcopy o) fun s => do s.toCopy (← s.copyCmd (.dcopy o) o)
/-- `dcopy.csum` (R280): TKA's checksum, or the running command that will give it, is noted at issue (R284). -/
def execDcopyCsum (o : FE) (s : State) : Out :=
  s.syl (.dcopyCsum o) fun s => do
    let k ← s.copyCmd (.dcopyCsum o) o
    let t := s.me.token o.tka.toNat
    let named := decide (1 ≤ o.ntk.toNat) && t.csum
    s.toCopy
      { k with chained := named, chain := if named ∧ t.st = .pending then some t.by' else none,
               chainOk := decide (t.st ≠ .doneErr), sum := if named then t.sum else 0 }

/-! ### What a command reads when it starts (R254, R279, R282, R283) -/

/-- Signed index of position `p` (R262). -/
def Cmd.index (k : Cmd) (p : Nat) : Int := toSigned 32 (elem 32 k.tb p)
/-- The active positions. -/
def Cmd.positions (k : Cmd) : List Nat := (List.range 128).filter fun p => k.act.getLsbD p
/-- An index inside the view. -/
def Layout.inView (l : Layout) (n : Int) : Bool := decide (0 ≤ n ∧ n < l.count)

/-- A gather or scatter starts: its descriptor, its out-of-bounds total (R259), and for a gather the format of BASE. -/
def State.startIndexed (s : State) (k : Cmd) : Cmd :=
  match s.readDesc k.vf k.sa with
  | .error e => { k with errs := e }
  | .ok d =>
    let l := layoutOf d
    if l.ew = 4 then { k with errs := [0x10] } else
    let out := (k.positions.filter fun p => !l.inView (k.index p)).length
    let base := if l.stores then (s.xmap k.vf (BitVec.ofNat 64 l.base)).toOption.bind (·.fmt) else none
    { k with view := some d, oob := out, errs := if l.oob = 1 ∧ out ≠ 0 then [0x12] else [],
             fmt := match k.instr with | .ldx _ => base.filter fun f => decodes (fmtOf f) | _ => none }

/-- The target of an address: this package's memory, a peer, or a switch. -/
def targetOf (pa : Nat) : Nat × Nat := if tierOf pa = 4 ∨ tierOf pa = 5 then (tierOf pa, pa / 2 ^ 40) else (0, 0)
/-- The physical addresses a copy's destination elements translate to, whether or not they may be written (R282); of an empty one, its BASE
(R271). -/
def State.destinations (s : State) (k : Cmd) (l : Layout) : List Nat :=
  let at' := fun va : Word => (s.xmap k.vf va).toOption.map (·.pa)
  if l.stores then (List.range l.count).filterMap fun n => (l.elemAddr n).bind fun b => at' (byteOf b)
  else (at' (BitVec.ofNat 64 l.base)).toList

/-- The flag of a copy: checked when it starts, and needed by a remote destination (R282). -/
def State.copyFlag (s : State) (k : Cmd) (l : Layout) (flag : Word) : Except (List Nat) (Option Nat) :=
  let dst := s.destinations k l
  if flag = 0 then (if dst.any fun a => decide (targetOf a ≠ (0, 0)) then .error [0x25] else .ok none)
  else match s.xlate k.vf flag false true k.mods.cache with
  | .ok x =>
    if flag.toNat % 8 = 0 ∧ tierOf x.pa ≠ 6 ∧ dst.all fun a => decide (targetOf a = targetOf x.pa) then .ok (some x.pa)
    else .error [0x10]
  | .error _ => .error [0x10]

/-- Bytes 0-19 of the control block, at its physical address (R283). -/
def State.controlBlock (s : State) (k : Cmd) : Except (List Nat) (Nat × Nat) :=
  match s.xlate k.vf k.sb true true 0 with
  | .ok x =>
    if k.sb.toNat % 32 ≠ 0 ∨ (x.tier ≠ 2 ∧ x.tier ≠ 3) then .error [0x10]
    else if badIn s.memBad x.pa 20 then .error [0x10, 0x20]
    else
      let b := s.readLe x.pa 20
      if bits b 159 130 ≠ 0 then .error [0x10] else .ok (x.pa, b)
  | .error _ => .error [0x10]

/-- A copy starts. `tb` keeps the control block as read, and `pas` where SUM goes. A failed predecessor still leaves its SUM
there (R284). -/
def State.startCopy (s : State) (k : Cmd) : Cmd :=
  let plan : Except (List Nat) Cmd := do
    let src ← s.readDesc k.vf k.sa
    let dst ← s.readDesc k.vf k.sd
    if (layoutOf src).count ≠ (layoutOf dst).count ∨ (layoutOf src).ew ≠ (layoutOf dst).ew then .error [0x10]
    let k := { k with view := some src, view2 := some dst }
    match k.instr with
    | .dcopyCsum _ => do
      let (pa, b) ← s.controlBlock k
      let flag := BitVec.ofNat 64 b
      if bit b 128 ∧ !k.chained then .error [0x24]
      else if bit b 128 ∧ !k.chainOk then .ok { k with view := none, errs := [0x24], pas := [(k.sb, pa)] }
      else
        let f ← s.copyFlag k (layoutOf dst) flag
        .ok { k with tb := BitVec.ofNat 4096 b, pas := [(k.sb, pa)], flag := f, sum := if bit b 128 then k.sum else bits b 95 64 }
    | _ => do
      let f ← s.copyFlag k (layoutOf dst) k.sb
      .ok { k with flag := f }
  match plan with
  | .ok k => k
  | .error e => { k with errs := e, sum := 0 }

/-- What a queued command reads at its start. -/
def State.startEngine (s : State) (k : Cmd) : Cmd :=
  match k.instr with
  | .ldx _ | .stx _ | .stxAdd _ => s.startIndexed k
  | .dcopy _ | .dcopyCsum _ => s.startCopy k
  | _ => k

/-- What the reads of a start leave behind: walk-cache entries, and the errors met (R248, R354). -/
def State.startReads (s : State) (k : Cmd) : State :=
  match k.instr with
  | .ldx _ | .stx _ | .stxAdd _ =>
    let d := s.readDesc k.vf k.sa
    let s := s.descRead k k.sa
    match d with
    | .ok d => if (layoutOf d).ew ≠ 4 ∧ (layoutOf d).stores then s.walked k.vf k.g (BitVec.ofNat 64 (layoutOf d).base) else s
    | .error _ => s
  | .dcopy _ | .dcopyCsum _ =>
    let src := s.readDesc k.vf k.sa
    let dst := s.readDesc k.vf k.sd
    let block := s.controlBlock k
    let s := s.descRead k k.sa
    match src, dst with
    | .ok _, .ok _ =>
      let s := s.descRead k k.sd
      match k.instr, block with
      | .dcopyCsum _, .ok (pa, b) =>
        let flag := BitVec.ofNat 64 b
        let s := (s.walked k.vf k.g k.sb).engineMeets k pa 20
        if flag = 0 then s else s.walked k.vf k.g flag
      | .dcopyCsum _, .error _ =>
        let r := s.xlate k.vf k.sb true true 0
        let s := s.walked k.vf k.g k.sb
        match r with | .ok x => (if tierOf x.pa = 2 ∨ tierOf x.pa = 3 then s.engineMeets k x.pa 20 else s) | .error _ => s
      | _, _ => if k.sb = 0 then s else s.walked k.vf k.g k.sb
    | .ok _, .error _ => s.descRead k k.sd
    | .error _, _ => s
  | _ => s

/-! ### Performing a command -/

/-- A command as the engine performs it. `wrote`: bytes written with their enables, and whether the source word was
uncorrectable; `met`: words with an error that it has read; `gives`: elements of a gather; `room`: every port that it writes takes its
lines (R341); `fault`: code, address and restart point (R272). -/
structure Work where
  s : State
  k : Cmd
  wrote : List (Nat × Byte × Bool) := []
  met : List Nat := []
  gives : List (Nat × Nat) := []
  room : Bool := true
  fault : Option (Nat × Word × Nat) := none

/-- The engine stops at an address. -/
def Work.stopAt (a : Work) (h : Halt) (va : Word) (point : Nat) : Work :=
  match h with
  | .fault c _ _ _ => { a with fault := some (c, va, point) }
  | .block _ _ => a
/-- An error to report; the command goes on. -/
def Work.err (a : Work) (code : Nat) : Work := { a with k := { a.k with errs := code :: a.k.errs } }

/-! Copies (R265, R266, R281, R284) -/

/-- A read of the command meets errors (R248, R250). -/
def Work.meet (a : Work) (pa n : Nat) : Work :=
  let new := a.s.newErrors a.met pa n
  { a with s := new.foldl (fun s u => s.engineMeets a.k u 1) a.s, met := a.met ++ new }
/-- Add an element to the checksum (R284): it stands at bit `count * w` of the written stream. -/
def Cmd.addSum (k : Cmd) (w v : Nat) : Cmd :=
  let x := if w = 64 then v % 2 ^ 32 + v / 2 ^ 32 else v * 2 ^ (k.count * w % 32)
  { k with count := k.count + 1, sum := (k.sum + x) % 2 ^ 32 }

/-- An element of a copy in memory: physical address and bit address. -/
def State.placeOf (s : State) (k : Cmd) (l : Layout) (n : Nat) (rd : Bool) : Option (Nat × Nat) :=
  (l.elemAddr n).bind fun b => ((s.xlate k.vf (byteOf b) rd (!rd) k.mods.cache).toOption.filter fun p => (s.accessError p).isNone).map fun p => (p.pa, b)
/-- Two elements of `w` bits share a byte. -/
def overlaps (w : Nat) (x y : Nat × Nat) : Bool := let len := (w + 7) / 8; decide (x.1 < y.1 + len ∧ y.1 < x.1 + len)
/-- The elements of a copy in a free order, in which each is read and then written (R266): by a free number, then by index. -/
def State.freeOrder (s : State) (l : List Nat) : List Nat :=
  let key := fun n : Nat => Config.number s.fresh (2 ^ 32 + n)
  l.foldl (fun o n => o.takeWhile (fun m => decide (key m ≤ key n)) ++ n :: o.dropWhile fun m => decide (key m ≤ key n)) []
/-- What the elements of a copy read where source and destination share bytes: element, and value (R266). One of whose source every byte that
the copy writes has been written before it in the order may deliver what stands there then; any other delivers the value from before the
command, so none mixes the two. -/
def State.copyValues (s0 : State) (k : Cmd) (ls ld : Layout) : List (Nat × Nat) :=
  let ns := (List.range ld.count).drop k.point
  let dst := ns.filterMap fun n => (s0.placeOf k ld n false).map fun p => (n, p)
  (s0.freeOrder ns).foldl (fun acc n =>
    match s0.placeOf k ls n true with
    | none => acc
    | some p =>
      let hit := dst.filter fun m => overlaps ld.w p m.2
      let seen := hit.all fun m => acc.any fun e => e.1 = m.1
      let t := if seen && Config.choice s0.fresh n then
          hit.foldl (fun t m => (elemCells m.2.2 ld.w (((acc.find? fun e => e.1 = m.1).map (·.2)).getD 0)).foldl (fun t c => t.putByte (m.2.1 + c.off) c.val c.en) t) s0
        else s0
      acc ++ [(n, t.readElem p.1 p.2 ls.w)]) []
/-- The value element `n` reads, and whether its word is uncorrectable; `vals`: what its source holds by R266. -/
def Work.source (s0 : State) (vals : List (Nat × Nat)) (l : Layout) (a : Work) (n : Nat) : Except (Halt × Word) (Work × Nat × Bool) :=
  match l.elemAddr n with
  | none => .ok (a, l.fillBits, false)
  | some b =>
    let va := byteOf b
    let len := (l.w + 7) / 8
    match a.s.xlate a.k.vf va true false a.k.mods.cache with
    | .error h => .error (h, va)
    | .ok p =>
      match a.s.accessError p with
      | some e => .ok (a.err e, 2 ^ l.w - 1, false)
      | none =>
        let bad := badIn s0.memBad p.pa len
        let v := ((vals.find? fun e => e.1 = n).map (·.2)).getD (s0.readElem p.pa b l.w)
        let a := Work.meet { a with s := (a.s.fillWalkFor a.k.vf a.k.g p).cacheRead p.pa len a.k.mods.cache } p.pa len
        .ok (if bad then a.err 0x20 else a, v, bad)

/-- Element `n` of a copy. DEDUCED: a destination that is a pad leaves its source unread, for the position is skipped (R265). DESIGN CHOICE: a value
whose destination is dropped enters the checksum all the same (R284; log 84). -/
def Work.copyOne (s0 : State) (vals : List (Nat × Nat)) (ls ld : Layout) (a : Work) (n : Nat) : Work :=
  if a.fault.isSome then a else
  match ld.elemAddr n with
  | none => a
  | some b =>
    match a.source s0 vals ls n with
    | .error (h, va) => a.stopAt h va n
    | .ok (a', v, bad) =>
      let va := byteOf b
      match a'.s.xlate a'.k.vf va false true a'.k.mods.cache with
      | .error h => a.stopAt h va n
      | .ok p =>
        let a := { a' with k := a'.k.addSum ld.w v }
        match a.s.accessError p with
        | some e => a.err e
        | none =>
          let cells := elemCells b ld.w v
          { a with s := (a.s.fillWalkFor a.k.vf a.k.g p).portWrite p.pa cells a.k.mods.cache
                   room := a.room && a.s.portRoom p.pa
                   k := { a.k with moved := a.k.moved + ld.w }
                   wrote := a.wrote ++ cells.map fun c => (p.pa + c.off, c.en, bad) }

/-- A copy whose destination stores nothing still translates its BASE (R271). -/
def Work.copyEmpty (a : Work) (ld : Layout) : Work :=
  let va := BitVec.ofNat 64 ld.base
  match a.s.xlate a.k.vf va false true a.k.mods.cache with
  | .error h => a.stopAt h va 0
  | .ok p => match a.s.accessError p with | some e => a.err e | none => { a with s := a.s.fillWalkFor a.k.vf a.k.g p }

/-- Error marks after a copy: a unit written from an uncorrectable word is bad, one written whole from good words is not
(R250, R281). -/
def Work.markUnits (a : Work) : Work :=
  let bad := ((a.wrote.filter fun w => w.2.2).map fun w => eccUnit w.1).eraseDups
  let s := a.s.clearCovered (a.wrote.map fun w => (w.1, w.2.1))
  { a with s := { s with memBad := s.memBad.filter (fun u => !bad.contains u) ++ bad } }

/-- A copy from its restart point on. -/
def Work.copy (a : Work) : Work :=
  match a.k.view, a.k.view2 with
  | some src, some dst =>
    let ls := layoutOf src
    let ld := layoutOf dst
    if ld.stores then
      (((List.range ld.count).drop a.k.point).foldl (Work.copyOne a.s (a.s.copyValues a.k ls ld) ls ld) a).markUnits
    else a.copyEmpty ld
  | _, _ => a

/-! Gathers and scatters (R261-R264, R278, R279) -/

/-- The lines of a gather or scatter, in order of their lowest active position: the 64-byte line number, with position and bit
address of each element. -/
def Cmd.lines (k : Cmd) (l : Layout) : List (Nat × List (Nat × Nat)) :=
  let els := k.positions.filterMap fun p =>
    if l.inView (k.index p) then (l.elemAddr (k.index p).toNat).map fun b => (p, b) else none
  (els.map fun e => e.2 / 512).eraseDups.map fun j => (j, els.filter fun e => e.2 / 512 = j)
/-- Lowest position of a line. -/
def lowest (els : List (Nat × Nat)) : Nat := (els.head?.map (·.1)).getD 0

/-- A part's format agrees with the element width; an untyped part does (R478). -/
def widthFits (x : Xlate) (w : Nat) : Bool := (x.fmt.map fun f => decide (fmtWidth (fmtOf f) = w)).getD true
/-- Bytes of a scale block, or 1 (R81). -/
def blockBytes (f : BitVec 40) (w : Nat) : Nat :=
  if bgeomOf f = 0 then 1 else max 1 ((if bgeomOf f ≤ 2 then 8 else 32) * w / 8)
/-- A gather accepts the page of a line (R261, R279). -/
def Cmd.fits (k : Cmd) (l : Layout) (x : Xlate) : Bool :=
  widthFits x l.w && decide (((x.fmt.map fun f => decodes (fmtOf f)).getD false) = k.fmt.isSome) &&
    (match x.fmt with
     | some f => l.base % blockBytes f l.w = 0 && (List.range 6).all fun j => l.strideAt j % (blockBytes f l.w : Nat) = 0
     | none => true)
/-- An element as a gather delivers it: decoded to BF16 with format `f`, or as it stands (R88, R279). -/
def State.gathered (s : State) (k : Cmd) (f : Option (BitVec 40)) (v : Nat) : Nat :=
  match k.fmt, f with
  | some _, some f => decodeBf16 (bookEntry (bookOf (s.quad (quadOf (slotOf k.g))) (cbslotOf f))) (fmtOf f) v
  | _, _ => v

/-- One line of a gather. -/
def Work.gatherLine (l : Layout) (a : Work) (line : Nat × List (Nat × Nat)) : Work :=
  let p0 := lowest line.2
  if a.fault.isSome ∨ a.k.errs.contains 0x11 ∨ p0 < a.k.point then a else
  let va := BitVec.ofNat 64 (64 * line.1)
  match a.s.xlate a.k.vf va true false a.k.mods.cache with
  | .error h => a.stopAt h va p0
  | .ok x =>
    if !a.k.fits l x then a.err 0x11 else
    let s := a.s.fillWalkFor a.k.vf a.k.g x
    match s.accessError x with
    | some e =>
      let ones := s.gathered a.k x.fmt (2 ^ l.w - 1)
      { a.err e with s := s, gives := a.gives ++ line.2.map fun q => (q.1, ones) }
    | none =>
      let one := fun (a : Work) (q : Nat × Nat) =>
        let pa := x.pa + q.2 / 8 % 64
        let len := (l.w + 7) / 8
        let bad := badIn s.memBad pa len
        let v := if bad then (Config.undef s.fresh q.1).toNat % 2 ^ l.w else s.readElem pa q.2 l.w
        let a := { a.meet pa len with gives := a.gives ++ [(q.1, s.gathered a.k x.fmt v)] }
        if bad then a.err 0x20 else a
      line.2.foldl one { a with s := s.cacheRead x.pa 64 a.k.mods.cache }

/-- A gather: at its end the pad and out-of-bounds positions receive FILL. -/
def Work.gather (l : Layout) (a : Work) : Work :=
  let a := (a.k.lines l).foldl (Work.gatherLine l) a
  if a.fault.isSome then a
  else if a.k.errs.contains 0x11 then { a with gives := [] }
  else
    let fill := a.s.gathered a.k a.k.fmt l.fillBits
    let none' := a.k.positions.filter fun p => !(l.inView (a.k.index p) && (l.elemAddr (a.k.index p).toNat).isSome)
    { a with gives := a.gives ++ none'.map fun p => (p, fill) }

/-- The register result of a gather: BF16 elements when it decodes, else elements of EW bits. -/
def Work.tile (a : Work) (l : Layout) : List Give :=
  let w := if a.k.fmt.isSome then 16 else l.w
  let fold := fun (t : Tile × Tile) (e : Nat × Nat) =>
    let m : Tile := BitVec.ofNat 4096 (2 ^ w - 1) <<< (w * e.1)
    ((t.1 &&& ~~~m) ||| (BitVec.ofNat 4096 (e.2 % 2 ^ w) <<< (w * e.1)), t.2 ||| m)
  let (v, en) := a.gives.foldl fold (0, 0)
  a.k.dest.map fun r => (r, v, en)

/-- `stx.add` of one value in a line's format (R279, R478); `none` where the format has no sum. -/
def addIn (f : Option (BitVec 40)) (w m v : Nat) : Option Nat :=
  match f.map fmtOf with
  | none => some ((m + v) % 2 ^ w)
  | some t =>
    if fmtWidth t ≠ w then none
    else if t = 0x10 ∨ t = 0x0E ∨ t = 0x0F then some (fadd' t false false m v)
    else if isFloat t ∨ isCB4 t then none
    else some ((m + v) % 2 ^ w)

/-- A page decodes the elements of a gather or scatter (R88). -/
def Xlate.decoding (x : Xlate) : Bool := (x.fmt.map fun f => decodes (fmtOf f)).getD false
/-- An `stx` has met pages of a decoding format and others (R478): `fmt` keeps the kind of the first. -/
def Cmd.mixes (k : Cmd) (x : Xlate) : Bool :=
  match k.instr, k.fmt with
  | .stx _, some f => x.decoding != f.getLsbD 0
  | _, _ => false
/-- One line of a scatter. -/
def Work.scatterLine (l : Layout) (a : Work) (line : Nat × List (Nat × Nat)) : Work :=
  let p0 := lowest line.2
  if a.fault.isSome ∨ p0 < a.k.point then a else
  let va := BitVec.ofNat 64 (64 * line.1)
  let add := match a.k.instr with | .stxAdd _ => true | _ => false
  match a.s.xlate a.k.vf va add true a.k.mods.cache with
  | .error h => a.stopAt h va p0
  | .ok x =>
    let a := { a with s := (a.s.fillWalkFor a.k.vf a.k.g x).drainLine x.pa, room := a.room && a.s.portRoom x.pa }
    let s := a.s
    match s.accessError x with
    | some e => a.err e
    | none =>
      if !widthFits x l.w ∨ (add ∧ (addIn x.fmt l.w 0 0).isNone) ∨ a.k.mixes x then a.err 0x11 else
      let spot := fun b : Nat => x.pa + b / 8 % 64
      let badAt := fun b : Nat => badIn s.memBad (spot b) ((l.w + 7) / 8)
      let sum := fun b : Nat =>
        let m := if badAt b then (Config.undef s.fresh b).toNat % 2 ^ l.w else s.readElem (spot b) b l.w
        (line.2.filter fun q => q.2 = b).foldl (fun m q => (addIn x.fmt l.w m (elem l.w a.k.td q.1)).getD m) m
      let els := line.2.map fun q => (q.2 % 512, if add then sum q.2 else elem l.w a.k.td q.1)
      let cells := lineCells l.w els
      let a := if add then line.2.foldl (fun (a : Work) q => a.meet (spot q.2) ((l.w + 7) / 8)) a else a
      let a := { a with s := a.s.performWrite x.pa cells a.k.mods.cache,
                        k := { a.k with moved := a.k.moved + 8 * cells.length, fmt := some (a.k.fmt.getD (if x.decoding then 1 else 0)) } }
      if add && line.2.any fun q => badAt q.2 then a.err 0x20 else a
/-- A scatter. -/
def Work.scatter (l : Layout) (a : Work) : Work := (a.k.lines l).foldl (Work.scatterLine l) a

/-! `cfill` (R197, R198) -/

/-- One byte read for a fill; `none` is an error of the memory. -/
def State.fillByte (s : State) (k : Cmd) (va : Word) : Option (State × Byte) :=
  match s.xlate k.vf va true false k.mods.cache with
  | .ok x =>
    if (s.accessError x).isSome then none
    else if badIn s.memBad x.pa 1 then none
    else some (((s.fillWalkFor k.vf k.g x).cacheRead x.pa 1 k.mods.cache), s.byte x.pa)
  | .error _ => none
/-- The errors that a fill's read of a byte meets. -/
def Work.fillMeet (a : Work) (va : Word) : Work :=
  match a.s.xlate a.k.vf va true false a.k.mods.cache with
  | .ok x => a.meet x.pa 1
  | .error _ => { a with s := a.s.walked a.k.vf a.k.g va }

/-- Bytes of a layer's back phase: they land until one cannot be read. -/
def Work.fillBytes (key : Nat) (src : Word) : Nat → Nat → Work → Work × Bool
  | _, 0, a => (a, true)
  | i, n + 1, a =>
    let va := src + BitVec.ofNat 64 i
    let a := a.fillMeet va
    match a.s.fillByte a.k va with
    | none => (a, false)
    | some (t, b) =>
      let put := fun x : Quad =>
        { x with face := setByte x.face (key + i) b, ctr := ctrWrap x.ctr 0x24 0 1,
                 faceBad := x.faceBad.filter fun u => u + 7 ≠ key + i, faceSoft := x.faceSoft.filter fun u => u + 7 ≠ key + i }
      Work.fillBytes key src (i + 1) n { a with s := t.modQuad (quadOf (slotOf a.k.g)) put }

/-- The header and fill log of a phase that has been filled (R196, R197). -/
def Quad.filled (q : Quad) (h : Nat) (f : Option (BitVec 40)) (k : Cmd) (src : Word) : Quad :=
  let w := k.sa.toNat
  let old := tget resetHdr q.hdr h
  let n := bits old.toNat 43 40
  let a := (f.map fun f => bits f.toNat 12 0).getD 0
  let hdr := if bit w 19 then
      let d := setBits old 12 0 a
      let d := setBits d 13 13 (if f.isSome then 1 else 0)
      let d := setBits d 31 16 (if bit a 12 then bits w 39 24 else 0x3F80)
      setBits d 39 32 (bits w 47 40)
    else old
  let hdr := setBits (setBits hdr 14 14 1) 43 40 (if n < 8 then n + 1 else 15)
  let log := tget [] q.fills h
  { q with hdr := tset resetHdr q.hdr h hdr
           fills := if n < 8 then tset [] q.fills h (log ++ [(src, bits w 17 0, k.sd.toNat, k.vf)]) else q.fills }

/-- One layer of a fill. -/
def Work.fillLayer (a : Work) (e : Nat × Nat) : Work :=
  if !a.k.errs.isEmpty then a else
  let w := a.k.sa.toNat
  let n := a.k.sd.toNat
  let face := bits w 18 18
  let phase := if a.k.act.getLsbD e.2 then 1 else 0
  let src := if bit w 20 then a.k.sb else a.k.sb + BitVec.ofNat 64 (e.1 * n)
  let fmt := (a.s.xlate a.k.vf src true false a.k.mods.cache).toOption.bind (·.fmt)
  let (a, ok) := Work.fillBytes (faceKey e.2 face phase (bits w 17 0)) src 0 n a
  if ok then
    { a with s := a.s.modQuad (quadOf (slotOf a.k.g)) fun q => q.filled (hdrKey e.2 face phase) fmt a.k src }
  else { a with k := { a.k with errs := [2] } }
/-- Layers a mask names, ascending. -/
def layersOf (m : Nat) : List Nat := (List.range 8).filter fun i => bit m i
/-- A codebook slot: 32 bytes, all in the tick of the end. -/
def Work.fillBook (a : Work) : Work :=
  let va := fun i => a.k.sb + BitVec.ofNat 64 i
  let got := (List.range 32).map fun i => (a.s.fillByte a.k (va i)).map (·.2)
  let a := (List.range 32).foldl (fun (a : Work) i => a.fillMeet (va i)) a
  if got.all Option.isSome then
    let v := (got.map fun b => (b.getD 0).toNat).foldr (fun b x => b + 256 * x) 0
    { a with s := a.s.modQuad (quadOf (slotOf a.k.g)) fun q =>
        { q with book := tset 0 q.book (bits a.k.sa.toNat 3 0) (BitVec.ofNat 256 v), ctr := ctrWrap q.ctr 0x24 0 32 } }
  else { a with k := { a.k with errs := [2] } }
def Work.fill (a : Work) : Work :=
  let w := a.k.sa.toNat
  if bits w 22 21 = 1 then a.fillBook
  else ((layersOf (bits w 55 48)).zipIdx.map fun e => (e.2, e.1)).foldl Work.fillLayer a

/-- The engine performs the command it runs; one whose start failed moves nothing. -/
def State.work (s : State) (k : Cmd) : Work :=
  let a : Work := { s := s, k := k }
  match k.instr with
  | .cfill _ => a.fill
  | .dcopy _ | .dcopyCsum _ => a.copy
  | _ =>
    match k.view with
    | none => a
    | some d =>
      match k.instr with
      | .ldx _ => a.gather (layoutOf d)
      | .stx _ | .stxAdd _ => a.scatter (layoutOf d)
      | _ => a

/-! ### Events -/

/-- The next command of a copy engine: one that resumes, else the head of its queue (R280, R358). -/
def State.copyNext (s : State) (q : Nat) : Option (Cmd × Quad) :=
  let x := s.quad q
  if x.copyRun.isSome then none
  else match x.copyHeld.find? fun k => k.held.isNone with
  | some k => some (k, { x with copyHeld := x.copyHeld.filter fun h => h.serial ≠ k.serial })
  | none =>
    match x.copyq with
    | k :: rest => if s.ready k && s.engineOpen (3264 + q) k then some (k, { x with copyq := rest }) else none
    | [] => none
/-- Bytes that a command of the copy engine still moves. -/
def Cmd.toMove (k : Cmd) : Nat :=
  if !k.errs.isEmpty then 0 else
  match k.instr, k.view, k.view2 with
  | .cfill _, _, _ => if bits k.sa.toNat 22 21 = 1 then 32 else (layersOf (bits k.sa.toNat 55 48)).length * k.sd.toNat
  | .dcopy _, _, some d | .dcopyCsum _, _, some d => if (layoutOf d).stores then ((layoutOf d).count - k.point) * (layoutOf d).w / 8 else 0
  | .ldx _, some d, _ | .stx _, some d, _ | .stxAdd _, some d, _ => (k.lines (layoutOf d)).length * 64
  | _, _, _ => 0
/-- Where a copy or fill reads and writes, its descriptors and control block among it. -/
def State.copyPas (s : State) (k : Cmd) : List Nat :=
  let block := fun a : Word => s.rangePas k.vf a 1
  match k.instr with
  | .cfill _ => s.rangePas k.vf k.sb k.toMove
  | .dcopy _ => block k.sa ++ block k.sd ++ (k.view.toList ++ k.view2.toList).flatMap (s.layoutPas k.vf)
  | .dcopyCsum _ => block k.sa ++ block k.sd ++ block k.sb ++ (k.view.toList ++ k.view2.toList).flatMap (s.layoutPas k.vf)
  | _ => block k.sa ++ (k.view.toList ++ k.view2.toList).flatMap (s.layoutPas k.vf)
/-- The other packages and switches that a copy or fill reaches. -/
def State.farTargets (s : State) (k : Cmd) : List (Nat × Nat) := farOf (s.copyPas k)
/-- A copy or fill moves data to or from another package or a switch. -/
def State.farCopy (s : State) (k : Cmd) : Bool := !(s.farTargets k).isEmpty
/-- COPY_ENGINE_DISPATCH: 128 bytes a tick at most, and within the bound of the farthest tier that it reaches (R233, R280). -/
def execCopyEngineDispatch (q : Nat) (s : State) : Out :=
  match s.copyNext q with
  | none => .next s
  | some (k, x) =>
    let s := s.setQuad q x
    match k.instr with
    | .sbind _ => .next (s.startStream k)
    | _ =>
      let s' := if k.started then s else s.startReads k
      let k := if k.started then k else s.startEngine k
      let tier := farthest (q / 48) (s.copyPas k)
      let k := { k with started := true, at' := s.tick, asked := s.tick, due := s.tick + 1 + (k.toMove + 127) / 128 + tierDelay tier k.serial 2 }
      let s := s'
      .next (s.modQuad q fun x => { x with copyRun := some k })

/-- The last tick at which a running command can be answered: 2^24 ticks after the time that its data takes (R245, R273). -/
def Cmd.lastAnswer (k : Cmd) : Nat := k.asked + (k.toMove + 127) / 128 + noAnswer
/-- A target of the package cannot be reached. -/
def State.targetGone (s : State) (t : Nat × Nat) : Bool :=
  if t.1 = 5 then s.lostSw.contains (t.2 % 2 ^ 12) else s.deadPeers.contains (t.2 % 2 ^ 16)
/-- The running command has done its work, and every port that it writes has room (R341); one whose targets have failed waits no longer. -/
def State.copyReady (s : State) (q : Nat) : Option Work :=
  match (s.quad q).copyRun with
  | some k =>
    if k.due ≤ s.tick ∨ (k.lastAnswer ≤ s.tick ∧ (s.farTargets k).all s.targetGone) then
      let a := s.work k
      if a.room && k.flag.all s.portRoom then some a else none
    else none
  | none => none

/-- SUM is written (R283). -/
def State.writeSum (s : State) (k : Cmd) : State :=
  match k.pas with
  | (_, pa) :: _ => s.portWrite (pa + 20) (cellsOf k.sum 4) 0
  | [] => s
/-- Bytes of the whole command, for the barriers that watch its flag (R392). -/
def Work.bytes (a : Work) : Nat :=
  match a.k.instr, a.k.view2 with
  | .dcopy _, some d | .dcopyCsum _, some d => (a.k.count * (layoutOf d).w + 7) / 8
  | _, _ => 0
/-- COPYBYTES of a quad counts what a command has written since it was last counted (R402). -/
def State.countMoved (s : State) (q : Nat) (k : Cmd) : State :=
  s.modQuad q fun x => { x with ctr := ctrWrap x.ctr 0x24 0 ((k.moved + 7) / 8) }
/-- The flag's address: the operand of `dcopy`, or the first word of the control block. -/
def Cmd.flagAddr (k : Cmd) : Word := match k.instr with | .dcopyCsum _ => k.tb.setWidth 64 | .rst _ => k.sd | _ => k.sb
/-- At its delivery a flag's target is tested again: an increment that a loss has overtaken never happens (R314). -/
def State.flagError (s : State) (k : Cmd) : List Nat :=
  match k.flag with
  | some f => if k.errs.isEmpty then (s.portError k.vf k.flagAddr f).toList else []
  | none => []
/-- A command of the copy engine ends: checksum, lines written back, flag, then its token (R281-R284, R312, R313). -/
def Work.finish (a : Work) : State :=
  let q := quadOf (slotOf a.k.g)
  let b := a.k.tb.toNat
  let csum : Bool := match a.k.instr with | .dcopyCsum _ => true | _ => false
  let a := if csum ∧ a.k.errs.all (· ≠ 0x24) ∧ bit b 129 ∧ a.k.sum ≠ bits b 127 96 then a.err 0x23 else a
  let a := (a.s.flagError a.k).foldl Work.err a
  let s := a.s.countMoved q a.k
  let s := if csum then s.writeSum a.k else s
  let s := s.podRelease a.k.mods.scope
  let s := match a.k.flag with
    | some f => if a.k.errs.isEmpty then s.portIncrement a.k.vf a.k.g f a.bytes a.k.mods.scope else s
    | none => s
  let gives := match a.k.instr, a.k.view with | .ldx _, some d => a.tile (layoutOf d) | _, _ => []
  s.endCmd a.k gives a.k.payload csum

/-- A command that an engine fault held ends with ENGINE_FAULT (R272, R409). -/
def State.endHeld (s : State) (k : Cmd) : State :=
  let k := { k with errs := 0x26 :: k.errs }
  let s := (s.countMoved (quadOf (slotOf k.g)) k).podRelease k.mods.scope
  match k.instr with
  | .dcopyCsum _ => (s.writeSum k).endCmd k [] k.payload true
  | _ => s.endCmd k [] k.payload false

/-- COPY_COMMAND_END. -/
def execCopyCommandEnd (q : Nat) (s : State) : Out :=
  match s.copyReady q with
  | some a => event a.fault.isNone s (State.modQuad a.finish q fun x => { x with copyRun := none })
  | none => .next s

/-- The copy engine meets a fault: what precedes it is performed, the command is held at its restart point, and the issuer and
the Dealer hear of it (R272, R294, R324). -/
def State.copyFault (s : State) (q : Nat) : Option State :=
  match s.copyReady q with
  | some a =>
    match a.fault with
    | some (code, va, point) =>
      let k := { a.k with held := some code, point := point, moved := 0 }
      let s := ((a.s.countMoved q a.k).walked k.vf k.g va).podRelease k.mods.scope
      let gives := match k.instr, k.view with | .ldx _, some d => a.tile (layoutOf d) | _, _ => []
      let s := (s.giveTo k gives).modQuad q fun x => { x with copyRun := none, copyHeld := x.copyHeld ++ [k] }
      let r : EvRec := { kind := 0x0A, code := code, tag := k.tag, time := s.tick, payload := va.toNat }
      let s := if k.quiet then s else s.postTo k.vf k.g r
      let note : FaultNote :=
        { kind := 1, code := code, vf := k.vf, g := slotOf k.g, pc := k.pc, point := point, addr := va, tick := s.tick,
          launch := k.launch, cmd := some k.serial }
      some (s.modDealer fun d => { d with notes := d.notes ++ [note] })
    | none => none
  | none => none

/-- ENGINE_TRANSLATION_FAULT. -/
def execEngineTranslationFault (u : EngineUnit) (s : State) : Out :=
  match u with
  | .copy q => .next ((s.copyFault q).getD s)
  | .stream g n => execStreamFault g n s

/-- The copy engine event of a quad that is due; what answers its accesses waits for what came before it at its port (R345). -/
def State.dueCopyAt (s : State) (q : Nat) : Due :=
  let behind := (s.quad q).copyRun.any fun k => s.farCopy k && decide (k.due ≤ s.tick) && !s.portFree k.vf k.serial k.due
  match if behind then none else s.copyReady q with
  | some a => some (if a.fault.isSome then execEngineTranslationFault (.copy q) else execCopyCommandEnd q)
  | none => if (s.copyNext q).isSome then some (execCopyEngineDispatch q) else none
def State.dueCopy (s : State) : Due := s.quads.findSome? fun e => s.dueCopyAt e.1

end Sys2Proof.Machine
end

