-- ==== Sys2Proof/Machine/Remote.lean ====
section
/-! DEFINITION. The remote engine of a core (R321): remote stores and loads (R285, R286), atomics and reductions (R287-R289,
R343), pool instructions (R290, R291), ownership tokens (R246, R292), and the conditional stream buffers (R188-R190, R333). -/

namespace Sys2Proof.Machine

/-! ### Parts of an access translated at issue (R237, R240, R269, R285-R288) -/

/-- Translate an issue-translated access: its tier must be among those it reaches, and the one SPACE names. -/
def State.remotePart (s : State) (m : Mods) (va : Word) (rd wr : Bool) (far : Bool) : Except Halt Xlate := do
  if m.space = 1 then .error (.fault 0x12 0 va none)
  else if m.space = 5 ∧ !isKitty va then .error (.fault 0x10 0 va none)
  else
    let x ← s.xmap s.me.vfid va
    if !s.permOk s.me.vfid x rd wr then .error (.fault 0x11 0 va none)
    else if x.tier = 6 ∨ (far ∧ x.tier < 4) ∨ (2 ≤ m.space ∧ x.tier ≠ m.space) then .error (.fault 0x12 0 va none)
    else if !s.tokenOk x m.cache then .error (.fault 0x13 0 va none)
    else .ok x

/-- The active 64-byte lines of a 512-byte block of bytes, translated in increasing address. POINT is the row of the first active byte of
the part (R240) that faults. -/
def State.remoteLines (s : State) (o : FE) (m : Mods) (ea : Word) (act : MaskReg) (wr : Bool) : Except Halt (List (Word × Xlate)) := do
  let on := (List.range 512).filter fun i => act.getLsbD i
  let addr := fun j : Nat => ea + BitVec.ofNat 64 (64 * j)
  let row := fun j : Nat => s.feRow o ((on.find? fun i => s.samePart s.me.vfid (addr (i / 64)) (addr j)).getD 0)
  (on.map fun i => i / 64).eraseDups.mapM fun j => (atRow (row j) (s.remotePart m (addr j) (!wr) wr true)).map fun x => (addr j, x)

/-- The part of each line, as the place of its first line. -/
def partsOf (l : List (Word × Xlate)) : List Nat := l.map fun x => (l.findIdx? fun y => decide (y.2.part = x.2.part)).getD 0
/-- Walk-cache entries of several translations. -/
def State.fillWalks (s : State) (l : List (Word × Xlate)) : State := l.foldl (fun s x => s.fillWalk s.me.vfid x.2) s

/-- `rst` (R285, R286). -/
def execRst (o : FE) (s : State) : Out :=
  s.syl (.rst o) fun s => do
    let m := s.eff
    ensure (decide ((m.space = 0 ∨ m.space = 4 ∨ m.space = 5) ∧ (m.ord = 0 ∨ m.ord = 2))) 0x08
    let ea := s.rs o.a
    alignedTo ea 64
    let act ← s.feActive o 8
    let lines ← s.remoteLines o m ea act true
    let lines ← if lines.isEmpty then (s.remotePart m ea false true true).map fun x => [(ea, x)] else .ok lines
    let fl := s.rs o.d
    let flag ← if fl = 0 then .ok none else do
      alignedTo fl 8
      match s.xlate s.me.vfid fl false true m.cache with
      | .ok f =>
        if lines.all fun l => targetOf l.2.pa = targetOf f.pa then .ok (some (fl, f)) else .error (.fault 0x10 0 fl none)
      | .error (.fault 0x14 p _ k) => .error (.fault 0x14 p fl k)
      | .error _ => .error (.fault 0x10 0 fl none)
    s.tokenFree o
    let s ← s.ordered m
    (s.fillWalks (lines ++ flag.toList)).toRemote
      { s.newCmd (.rst o) o m with
        sa := ea, sd := fl, tb := s.rv (feCl o) o.b, act := act, flag := flag.map (·.2.pa), pas := lines.map fun l => (l.1, l.2.pa) }

/-- `rld` (R285, R286). -/
def execRld (o : FE) (s : State) : Out :=
  s.syl (.rld o) fun s => do
    let m := s.eff
    ensure (decide ((m.space = 0 ∨ m.space = 4 ∨ m.space = 5) ∧ m.ord < 2)) 0x08
    let ea := s.rs o.a
    alignedTo ea 64
    let act ← s.feActive o 8
    let lines ← s.remoteLines o m ea act false
    s.tokenFree o
    let s ← s.ordered m
    (s.fillWalks lines).toRemote
      { s.newCmd (.rld o) o m with
        sa := ea, act := act, pas := lines.map fun l => (l.1, l.2.pa), parts := partsOf lines, dest := [⟨tileFile (feCl o), s.spec 64 o.d⟩] }

/-! ### Atomics (R287) -/

/-- Width of an atomic or a scalar reduction. -/
def wordWidth (o : FE) : Nat := if o.v then 64 else 32
/-- `amo.*`: the operands are read and the word translated at issue. -/
def State.amo (s : State) (i : Instr) (o : FE) : Out :=
  s.syl i fun s => do
    let m := s.eff
    let ea := s.rs o.a
    alignedTo ea (wordWidth o / 8)
    let x ← s.remotePart m ea true true false
    s.tokenFree o
    let s ← s.ordered m
    (s.fillWalks [(ea, x)]).toRemote
      { s.newCmd i o m with sa := ea, sb := s.rs o.b, sd := s.rs o.d, pas := [(ea, x.pa)], dest := [⟨.s, s.spec 64 o.d⟩] }
/-- `amo.add`. -/
def execAmoAdd (o : FE) (s : State) : Out := s.amo (.amoAdd o) o
/-- `amo.and`. -/
def execAmoAnd (o : FE) (s : State) : Out := s.amo (.amoAnd o) o
/-- `amo.or`. -/
def execAmoOr (o : FE) (s : State) : Out := s.amo (.amoOr o) o
/-- `amo.xor`. -/
def execAmoXor (o : FE) (s : State) : Out := s.amo (.amoXor o) o
/-- `amo.min`. -/
def execAmoMin (o : FE) (s : State) : Out := s.amo (.amoMin o) o
/-- `amo.max`. -/
def execAmoMax (o : FE) (s : State) : Out := s.amo (.amoMax o) o
/-- `amo.swap`. -/
def execAmoSwap (o : FE) (s : State) : Out := s.amo (.amoSwap o) o
/-- `amo.cas`. -/
def execAmoCas (o : FE) (s : State) : Out := s.amo (.amoCas o) o

/-- The new value of an atomic; `none` when a `cas` fails and writes nothing. -/
def amoStep (i : Instr) (w old b d : Nat) : Option Nat :=
  match i with
  | .amoSwap _ => some (b % 2 ^ w)
  | .amoCas _ => if old = d % 2 ^ w then some (b % 2 ^ w) else none
  | i => some (redStep i w old (b % 2 ^ w))

/-! ### Reductions (R288, R289, R343) -/

/-- `red.*`: a word, or the active words of a tile; words in a part other than the first's fault SPAN (R240, R288), and one that may not be
read and written, or lies outside the partition, PROTECT (R235). -/
def State.red (s : State) (i : Instr) (o : FE) : Out :=
  s.syl i fun s => do
    let m := s.eff
    ensure (decide (m.ord = 0 ∨ m.ord = 2)) 0x08
    let ea := s.rs o.a
    if bit o.d.toNat 0 then
      alignedTo ea 64
      let act ← s.feActive o 32
      let on := (List.range 128).filter fun j => act.getLsbD j
      let at' := fun j : Nat => ea + BitVec.ofNat 64 (4 * j)
      let x ← s.remotePart m (at' (on.headD 0)) true true false
      if !on.all fun j => (match s.xmap s.me.vfid (at' j) with | .ok y => decide (y.part = x.part) | .error _ => false) then
        .error (.fault 0x15 0 ea none)
      match on.find? fun j => !((s.xmap s.me.vfid (at' j)).toOption.all fun y => s.permOk s.me.vfid y true true) with
      | some j => .error (.fault 0x11 0 (at' j) none)
      | none =>
      s.tokenFree o
      let s ← s.ordered m
      (s.fillWalks [(ea, x)]).toRemote
        { s.newCmd i o m with sa := ea, tb := s.rv (feCl o) o.b, act := act, pas := [(ea, x.pa - 4 * on.headD 0)], count := 1 }
    else
      alignedTo ea (wordWidth o / 8)
      let x ← s.remotePart m ea true true false
      s.tokenFree o
      let s ← s.ordered m
      (s.fillWalks [(ea, x)]).toRemote { s.newCmd i o m with sa := ea, sb := s.rs o.b, pas := [(ea, x.pa)] }
/-- `red.add`. -/
def execRedAdd (o : FE) (s : State) : Out := s.red (.redAdd o) o
/-- `red.and`. -/
def execRedAnd (o : FE) (s : State) : Out := s.red (.redAnd o) o
/-- `red.or`. -/
def execRedOr (o : FE) (s : State) : Out := s.red (.redOr o) o
/-- `red.xor`. -/
def execRedXor (o : FE) (s : State) : Out := s.red (.redXor o) o
/-- `red.min`. -/
def execRedMin (o : FE) (s : State) : Out := s.red (.redMin o) o
/-- `red.max`. -/
def execRedMax (o : FE) (s : State) : Out := s.red (.redMax o) o
/-- `red.fadd`. -/
def execRedFadd (o : FE) (s : State) : Out := s.red (.redFadd o) o

/-- The operation of a reduction, without its operands. -/
def redKind : Instr → Instr
  | .redAdd _ => .redAdd feZero
  | .redAnd _ => .redAnd feZero
  | .redOr _ => .redOr feZero
  | .redXor _ => .redXor feZero
  | .redMin o => .redMin { feZero with d := o.d &&& 2 }
  | .redMax o => .redMax { feZero with d := o.d &&& 2 }
  | .redFadd _ => .redFadd feZero
  | i => i
/-- The contributions of a reduction: physical address and value. -/
def Cmd.contributions (k : Cmd) (w : Nat) : List (Nat × Nat) :=
  match k.pas with
  | (_, pa) :: _ =>
    if k.count = 1 then ((List.range 128).filter fun i => k.act.getLsbD i).map fun i => (pa + 4 * i, elem 32 k.tb i)
    else [(pa, k.sb.toNat % 2 ^ w)]
  | [] => []

/-- One contribution is accepted by the Meld (R343). A context that a kill freed holds no line: its contribution goes straight
to the write queue. -/
def State.meldAccept (k : Cmd) (w : Nat) (s : State) (e : Nat × Nat) : State :=
  let kind := redKind k.instr
  let isF := match kind with | .redFadd _ => true | _ => false
  let base := e.1 / 64 * 64
  let off := e.1 % 64
  let va := k.sa + BitVec.ofNat 64 (base - (k.pas.head?.map (·.2)).getD 0)
  match liveSlot k.g with
  | none => s.enqueue { n := 0, g := k.g, vf := k.vf, pa := base, va := va, mods := k.mods, op := .reduce kind w [(off, [e.2])] 1, due := 0 }
  | some g =>
    let c := coreOf g
    let mine := fun l : MeldLine => decide (l.g = g ∧ l.pa = base)
    let fits := fun l : MeldLine => mine l && decide (l.mods.cls = k.mods.cls ∧ l.op = kind ∧ l.w = w) &&
      l.vals.all fun v => !(isF && v.1 = off && 8 ≤ v.2.length)
    let merge := fun l : MeldLine =>
      let vals := match l.vals.find? fun v => v.1 = off with
        | none => l.vals ++ [(off, [e.2])]
        | some _ => l.vals.map fun v =>
            if v.1 = off then (off, if isF then v.2 ++ [e.2] else [redStep kind w (v.2.headD 0) e.2]) else v
      { l with vals := vals, count := l.count + 1, mods := { l.mods with scope := max l.mods.scope k.mods.scope } }
    if (s.core' c).meld.any fits then
      s.modCore c fun x => { x with meld := x.meld.map fun l => if fits l then merge l else l }
    else
      let s := ((s.core' c).meld.filter mine).foldl State.meldOut (s.modCore c fun x => { x with meld := x.meld.filter fun l => !mine l })
      let s := match (s.core' c).meld with
        | l :: rest => if rest.length < 31 then s else (s.modCore c fun x => { x with meld := rest }).meldOut l
        | [] => s
      s.modCore c fun x =>
        { x with meld := x.meld ++ [{ g := g, pa := base, va := va, mods := k.mods, op := kind, w := w, vals := [(off, [e.2])], count := 1 }] }
/-- The width of a reduction's words. -/
def Cmd.redWidth (k : Cmd) : Nat :=
  match k.instr with
  | .redAdd o | .redAnd o | .redOr o | .redXor o | .redMin o | .redMax o | .redFadd o => if k.count = 1 then 32 else wordWidth o
  | _ => 32
/-- The Meld keeps no line of a context that is being pre-empted or halts: what it accepts after the flush goes on at once (R344, R412). -/
def State.passOn (s : State) (g : Nat) : State :=
  match liveSlot g with
  | some h => if (s.ctx h).stop = .preempting ∨ (s.ctx h).halting then s.meldFlush h 0xFFFF else s
  | none => s
/-- A reduction is accepted, and its token completes (R288, R312); one whose target has failed is dropped, its contributions counted and a
record posted for each line, and its token says so (R245, R273, R289, R344). -/
def State.redAccept (s : State) (k : Cmd) : State :=
  let l := k.contributions k.redWidth
  match k.pas with
  | (va, pa) :: _ =>
    match s.paError k.vf va pa with
    | some e =>
      let lines := (l.map fun c => c.1 / 64).eraseDups
      let drop := fun (s : State) (n : Nat) =>
        s.dropReduction k.vf k.g e (l.filter fun c => c.1 / 64 = n).length (k.sa + BitVec.ofNat 64 (64 * n) - BitVec.ofNat 64 pa)
      (lines.foldl drop s).endCmd { k with errs := [e] } [] 0 false
    | none => (State.passOn (l.foldl (State.meldAccept k k.redWidth) s) k.g).endCmd k [] 0 false
  | [] => s.endCmd k [] 0 false

/-! ### Pool instructions (R290, R291) -/

/-- Allocation number of a Kitty address. -/
def kittyNum (a : Word) : Nat := bits a.toNat 47 36
/-- `kalloc` and `kalloc.m`. -/
def State.poolAlloc (s : State) (i : Instr) (o : FE) : Out :=
  s.syl i fun s => do
    let z := (s.rs o.a).toNat
    ensure (decide (1 ≤ z ∧ z ≤ 1048576)) 0x08
    s.tokenFree o
    s.toRemote { s.newCmd i o {} with sa := s.rs o.a, dest := [⟨.s, s.spec 64 o.d⟩, ⟨.s, s.spec 64 o.b⟩] }
/-- `kalloc` (R290). -/
def execKalloc (o : FE) (s : State) : Out := s.poolAlloc (.kalloc o) o
/-- `kalloc.m` (R290). -/
def execKallocM (o : FE) (s : State) : Out := s.poolAlloc (.kallocM o) o
/-- `kfree` (R290). -/
def execKfree (o : FE) (s : State) : Out :=
  s.syl (.kfree o) fun s => do
    let a := s.rs o.a
    ensure (isKitty a && decide (bits a.toNat 35 0 = 0)) 0x08
    s.tokenFree o
    s.toRemote { s.newCmd (.kfree o) o {} with sa := a, dest := [⟨.s, s.spec 64 o.d⟩] }
/-- `kquery` (R290). -/
def execKquery (o : FE) (s : State) : Out :=
  s.syl (.kquery o) fun s => do
    let a := s.rs o.a
    ensure (isKitty a && decide (bits a.toNat 35 0 = 0)) 0x08
    s.tokenFree o
    s.toRemote { s.newCmd (.kquery o) o {} with sa := a, dest := [⟨.s, s.spec 64 o.d⟩, ⟨.s, s.spec 64 o.b⟩] }

/-! ### Ownership tokens (R292, R318) -/

/-- The region's address is translated at issue; with the command, what its walk leaves behind (R354). -/
def State.tokenCmd (s : State) (i : Instr) (o : FE) : Except Halt (State × Cmd) := do
  let a := s.rs o.a
  let x ← s.xmap s.me.vfid a
  if !s.permOk s.me.vfid x false false then .error (.fault 0x11 0 a none)
  else if x.tier ≠ 4 ∧ x.tier ≠ 5 then .error (.fault 0x12 0 a none)
  else
    s.tokenFree o
    let d := s.me.memdef.toNat
    .ok (s.fillWalk s.me.vfid x,
      { s.newCmd i o { cls := bits d 3 0, scope := 5 } with sa := a, pas := [(a, x.pa)], dest := [⟨.s, s.spec 64 o.d⟩] })
/-- `tacq` (R292): its bytes are an access of the class of MEMDEF, ordered after the earlier ones of that class (R295, R301, R303). -/
def execTacq (o : FE) (s : State) : Out :=
  s.syl (.tacq o) fun s => do
    let (s, k) ← s.tokenCmd (.tacq o) o
    (← s.ordered k.mods).toRemote k
/-- `trel` (R292): a release at POD scope for all classes (R318). -/
def execTrel (o : FE) (s : State) : Out :=
  s.syl (.trel o) fun s => do
    let (s, k) ← s.tokenCmd (.trel o) o
    let s ← s.release 0xFFFF 2
    (s.podRelease 5).toRemote k

/-- The region of a token command. -/
def Cmd.region (k : Cmd) : Nat := regionOf ((k.pas.head?.map (·.2)).getD 0)
def State.ownTok (s : State) (r : Nat) : Option OwnTok := s.toks.find? fun t => t.region = r
/-- A region leaves this package: dirty lines are written back, every line dropped, and the entry freed (R246). -/
def State.giveUpToken (s : State) (r : Nat) : State :=
  let s := (s.cleanLines (inRegion r)).dropLines (inRegion r)
  { s with toks := s.toks.filter fun t => !(t.region = r && t.st ≠ 3) }

/-! ### Conditional stream buffers (R188-R190, R333) -/

/-- The key of a shape; `none` when it implies no width of R189. -/
def condKey (h : VShape) : Option (Nat × Nat × Nat) :=
  match impliedWidth h with
  | some w => some (h.cols, h.vcols, w)
  | none => none
/-- A `cspush` of the buffer that is not complete. -/
def State.pushWaits (s : State) (q b : Nat) : Bool :=
  (List.range 4).any fun c => (s.core' (4 * q + c)).remq.any fun k => match k.instr with | .cspush _ => k.point = b | _ => false
/-- `cspush` (R189): the first that finds the buffer empty sets its key (R188). -/
def execCspush (o : FE) (s : State) : Out :=
  s.syl (.cspush o) fun s => do
    let q := quadOf s.cur
    let b := bits o.d.toNat 1 0
    let sh := s.readSh o.sh.toNat
    match condKey (vshape sh) with
    | none => .error (.code 0x09)
    | some key =>
      let buf := tget {} (s.quad q).cond b
      let free := buf.recs.isEmpty && buf.marks.isEmpty && !s.pushWaits q b
      ensure (free || decide (buf.key = some key)) 0x09
      s.tokenFree o
      let k := { s.newCmd (.cspush o) o {} with
        point := b, shape := sh, tb := s.rv (feCl o) o.a, act := s.readM (feCl o) (s.spec 8 o.b), flag := if bit o.d.toNat 2 then some 1 else none }
      let s ← s.toRemote k
      .ok (if free then s.modQuad q fun x => { x with cond := tset {} x.cond b { buf with key := some key } } else s)
/-- `cspop` (R190). -/
def execCspop (o : FE) (s : State) : Out :=
  s.syl (.cspop o) fun s => do
    s.tokenFree o
    s.toRemote { s.newCmd (.cspop o) o {} with
      point := bits o.a.toNat 1 0,
      dest := [⟨tileFile (feCl o), s.spec 64 o.d⟩, ⟨maskFile (feCl o), s.spec 8 o.b⟩, ⟨.sh, o.sh.toNat⟩] }

/-- The records a `cspush` appends: the selected rows, whole. -/
def Cmd.pushRows (k : Cmd) : List Nat :=
  let h := vshape k.shape
  let bitsRow := 4096 / h.rows
  ((List.range h.vrows).filter fun r => k.act.getLsbD (r * h.cols)).map fun r => (k.tb.extractLsb' (r * bitsRow) bitsRow).toNat
/-- Rows of a tile under a key. -/
def keyRows (key : Nat × Nat × Nat) : Nat := 4096 / (key.1 * key.2.2)
/-- The first of the waiting commands on a buffer, in issue order and, within a tick, in increasing core number (R188); `p` picks `cspush`
or `cspop`. -/
def State.firstOn (s : State) (q b : Nat) (p : Instr → Bool) : Option (Nat × Cmd) :=
  let all := (List.range 4).flatMap fun c => ((s.core' (4 * q + c)).remq.filter fun k => p k.instr && k.point = b).map fun k => (4 * q + c, k)
  all.foldl (fun m e => match m with | some x => if e.2.at' < x.2.at' then some e else some x | none => some e) none
def isPush : Instr → Bool | .cspush _ => true | _ => false
def isPop : Instr → Bool | .cspop _ => true | _ => false
/-- The head of a remote queue. -/
def State.remHead (s : State) (c : Nat) : Option Cmd := (s.core' c).remq.head?

/-- The push at the head of core `c` that can be accepted now: in issue order on its buffer, with room (R188, R333). A command of this tick
waits for the tick's end, for a core before it may issue one yet. -/
def State.pushReady (s : State) (c : Nat) : Option Cmd :=
  (s.remHead c).filter fun k =>
    let q := c / 4
    let buf := tget {} (s.quad q).cond k.point
    let room := match buf.key with | some key => buf.recs.length + k.pushRows.length ≤ 64 * keyRows key | none => false
    isPush k.instr && decide (k.at' < s.tick) && s.ready k && (s.firstOn q k.point isPush).any (fun e => e.2.serial = k.serial) && room &&
      (k.flag.isNone || decide (buf.marks.length < 64))
/-- CSPUSH_ACCEPT. -/
def execCspushAccept (c : Nat) (s : State) : Out :=
  match s.pushReady c with
  | none => .next s
  | some k =>
    let s := (s.modCore c fun x => { x with remq := x.remq.tail }).modQuad (c / 4) fun x =>
      let buf := tget {} x.cond k.point
      let recs := buf.recs ++ k.pushRows
      let buf := { buf with recs := recs, marks := if k.flag.isSome then buf.marks ++ [recs.length] else buf.marks }
      { x with cond := tset {} x.cond k.point buf }
    .next (s.endCmd k [] 0 false)

/-- The pop that buffer `b` can serve now: first in issue order and at the head of its queue (R190). -/
def State.popReady (s : State) (q b : Nat) : Option (Nat × Cmd × Nat × Nat × Nat) :=
  match s.firstOn q b isPop with
  | none => none
  | some (c, k) =>
    let buf := tget {} (s.quad q).cond b
    match buf.key with
    | none => none
    | some key =>
      let nr := keyRows key
      let before := buf.marks.headD buf.recs.length
      if (s.remHead c).any (fun h => h.serial = k.serial) && decide (k.at' < s.tick) && s.ready k && (decide (nr ≤ before) || !buf.marks.isEmpty)
      then some (c, k, key) else none
/-- CSPOP_DELIVERY. -/
def execCspopDelivery (q b : Nat) (s : State) : Out :=
  match s.popReady q b with
  | none => .next s
  | some (c, k, cols, vcols, w) =>
    let buf := tget {} (s.quad q).cond b
    let nr := keyRows (cols, vcols, w)
    let before := buf.marks.headD buf.recs.length
    let n := min nr before
    let atMark := !buf.marks.isEmpty && decide (n = before)
    let rows := buf.recs.take n
    let row := cols * w
    let tile : Tile := BitVec.ofNat 4096 ((rows.zipIdx).foldl (fun a e => a + e.1 * 2 ^ (row * e.2)) 0)
    let shape := nr + cols * 2 ^ 11 + n * 2 ^ 22 + vcols * 2 ^ 33
    let mask := (List.range 1024).foldl (fun a i => if i / cols < n ∧ i % cols < vcols then a + 2 ^ i else a) 0
    let vals : List (Tile × Tile) :=
      [(tile, allBits (row * n)), (BitVec.ofNat 4096 mask, allBits 1024), (BitVec.ofNat 4096 shape, allBits 64)]
    let marks := (if atMark then buf.marks.tail else buf.marks).map fun m => m - n
    let s := (s.modCore c fun x => { x with remq := x.remq.tail }).modQuad q fun x =>
      { x with cond := tset {} x.cond b { buf with recs := buf.recs.drop n, marks := marks } }
    .next (s.endCmd k (k.dest.zip vals) 0 false)

/-! ### Dispatch (R321) -/

/-- The pool instructions. -/
def isPool : Instr → Bool | .kalloc _ | .kallocM _ | .kfree _ | .kquery _ => true | _ => false
def isRed : Instr → Bool
  | .redAdd _ | .redAnd _ | .redOr _ | .redXor _ | .redMin _ | .redMax _ | .redFadd _ => true
  | _ => false

/-- The head of core `c`'s queue may dispatch. A `tacq` waits for a free table entry (R372), and behind another move of its
region; a write waits while the write queue of its port, or of a line that the Meld may evict, is full (R341). -/
def State.remoteReady (s : State) (c : Nat) : Option Cmd :=
  (s.remHead c).filter fun k =>
    !isPush k.instr && !isPop k.instr && s.ready k &&
    match k.instr with
    | .tacq _ =>
      (match s.ownTok k.region with
       | some t => t.st = 0 || t.st = 3
       | none => decide (s.toks.length < 4096))
    | _ => k.pas.all (fun p => s.portRoom p.2) && k.flag.all s.portRoom && (!isRed k.instr || (s.core' c).meld.all fun l => s.portRoom l.pa)

/-- REMOTE_ENGINE_DISPATCH. -/
def execRemoteEngineDispatch (c : Nat) (s : State) : Out :=
  match s.remoteReady c with
  | none => .next s
  | some k =>
    let s := s.modCore c fun x => { x with remq := x.remq.tail }
    let tier := farthest (c / 192) (k.pas.map (·.2))
    let k := { k with started := true, at' := s.tick, asked := s.tick, due := s.tick + 1 + tierDelay tier k.serial 3 }
    let loose := fun (s : State) (k : Cmd) => s.modCore c fun x => { x with remLoose := x.remLoose ++ [k] }
    .next <|
      if isRed k.instr then s.redAccept k
      else match k.instr with
      | .sunbind _ =>
        let s := match k.holder with | some h => s.setSlotStream h k.point ((s.slotStream h k.point).unbind k.serial) | none => s
        loose s k
      | .tacq _ =>
        match s.ownTok k.region with
        | some _ => loose s { k with rsp := some (1, 0, 0) }
        | none => loose { s with toks := s.toks ++ [{ region := k.region, st := 1, vf := k.vf }] } k
      | .trel _ =>
        match s.ownTok k.region with
        | some t =>
          if t.st = 0 then
            loose { s with toks := s.toks.map fun t => if t.region = k.region then { t with st := 2 } else t } k
          else loose s { k with rsp := some (1, 0, 0) }
        | none => loose s { k with rsp := some (1, 0, 0) }
      | _ => loose s k

/-! ### Responses (R245, R273, R345) -/

/-- Home switch and tenant of a function (R373). -/
def State.homeOf (s : State) (v : Nat) : Nat := bits (s.vf v).part.toNat 651 640
def State.tenantOf (s : State) (v : Nat) : Nat := bits (s.vf v).part.toNat 23 8
/-- The command waits for the fabric. -/
def Cmd.remote (k : Cmd) : Bool := k.pas.any fun p => decide (4 ≤ tierOf p.2)
/-- The receiving package turned the command's access away (R467). -/
def Cmd.refused (k : Cmd) : Bool := k.rsp.any fun r => r.1 = 0x22
/-- The error of one part of a command: that of its target, or a peer's refusal (R245, R273, R467). -/
def State.partError (s : State) (k : Cmd) (p : Word × Nat) : Option Nat :=
  if k.refused ∧ tierOf p.2 = 4 then some 0x22 else s.paError k.vf p.1 p.2
/-- Every remote part has a failed target: the command ends as one issued after the loss (R245). -/
def State.unreachable (s : State) (k : Cmd) : Bool :=
  if isPool k.instr then s.lostSw.contains (s.homeOf k.vf)
  else k.remote && k.pas.all fun p => decide (tierOf p.2 < 4) || (s.paError k.vf p.1 p.2).isSome
/-- The command has no answer yet. -/
def Cmd.open' (k : Cmd) : Bool := k.rsp.isNone && (k.remote || isPool k.instr)

/-- A dispatched command of remote engine `c`. -/
def State.looseAt (s : State) (c n : Nat) : Option Cmd := (s.core' c).remLoose.find? fun k => k.serial = n
def State.setLoose (s : State) (c : Nat) (k : Cmd) : State :=
  s.modCore c fun x => { x with remLoose := x.remLoose.map fun h => if h.serial = k.serial then k else h }

/-- An access of the command may be turned away: it reads or writes another package's memory. -/
def Cmd.refusable (k : Cmd) : Bool := (isLateRead k.instr || (match k.instr with | .rst _ => true | _ => false)) && k.pas.any fun p => tierOf p.2 = 4
/-- UALINK_RESPONSE: the answer to an access or to a `trel`. A copy engine's accesses are answered within its command. -/
def State.answers (s : State) (m : LinkRsp) : Option Cmd :=
  (s.looseAt m.c m.n).filter fun k =>
    k.open' && !isPool k.instr && !s.unreachable k && (match k.instr with | .tacq _ => false | _ => true) && (!m.failed || k.refusable)
def execUalinkResponse (m : LinkRsp) (s : State) : Out :=
  match s.answers m with
  | some k => .next (s.setLoose m.c { k with rsp := some (if m.failed then 0x22 else 0, 0, 0) })
  | none => .next s

/-- A switch as a target. -/
def switchTarget (w : Nat) : Nat × Nat := (5, 2 ^ 17 + w)
/-- A peer package as a target. -/
def peerTarget (p : Nat) : Nat × Nat := (4, 2 ^ 16 + p)
/-- Targets of a command that waits for the fabric. -/
def State.awaits (s : State) (k : Cmd) : List (Nat × Nat) :=
  if isPool k.instr then [switchTarget (s.homeOf k.vf)] else farOf (k.pas.map (·.2))
/-- Bytes of memory that a `csmeta` or a `cseq` reads (R212, R217). -/
def Cmd.tableBytes (k : Cmd) : Nat :=
  match k.instr with
  | .csmeta _ => 32 * (layersOf (bits k.sa.toNat 55 48)).length
  | .cseq _ => 16 * (bits k.sa.toNat 5 0 + 1)
  | _ => 0
/-- Where it reads them. -/
def State.tablePas (s : State) (k : Cmd) : List Nat := if k.tableBytes = 0 then [] else s.rangePas k.vf k.sb k.tableBytes

/-- An access beyond this package that is under way: the addresses and the targets that it reaches, the function and number of its command,
the tick at which its answer arrives, and the last at which one can (R245, R273). -/
structure FarAccess where
  pas : List Nat
  targets : List (Nat × Nat) := farOf pas
  vf : Nat
  serial : Nat
  due : Nat
  last : Nat
/-- The accesses of the engines that are under way: remote commands, copies and fills, tiles of streams, and the tables that a cube reads. What
answers a pool request or a `tacq` is an event of its own. -/
def State.farAccesses (s : State) : List FarAccess :=
  let sent := fun k : Cmd => k.started && k.open' && !(isPool k.instr && k.point = 0)
  let apart := fun k : Cmd => isPool k.instr || match k.instr with | .tacq _ => true | _ => false
  let all :=
    (s.cores.flatMap fun e => (e.2.remLoose.filter sent).map fun k =>
      ({ pas := k.pas.map (·.2), targets := s.awaits k, vf := k.vf, serial := k.serial, due := if apart k then s.tick + 1 else k.due,
         last := k.asked + noAnswer } : FarAccess)) ++
    (s.quads.flatMap fun e => (e.2.copyRun.toList.map fun k =>
        ({ pas := s.copyPas k, vf := k.vf, serial := k.serial, due := k.due, last := k.lastAnswer } : FarAccess)) ++
      (e.2.runs.filter fun r => r.cmd.tableBytes ≠ 0).map fun r =>
        ({ pas := s.tablePas r.cmd, vf := r.cmd.vf, serial := r.cmd.serial, due := r.start + r.total, last := r.cmd.asked + noAnswer } : FarAccess)) ++
    (s.slots.filter fun x => s.streamAsks x.1 x.2.2).map fun x =>
      ({ pas := s.streamPas x.1 x.2.2, vf := (s.streamCmd x.1 x.2.2).vf, serial := x.2.2.by', due := x.2.2.due,
         last := x.2.2.asked + noAnswer } : FarAccess)
  all.filter fun a => a.targets ≠ []
/-- Accesses that have had no answer for 2^24 ticks. -/
def State.silent (s : State) : List FarAccess := s.farAccesses.filter fun a => decide (s.tick < a.due ∧ a.last ≤ s.tick)
/-- Targets with a request that has had no answer for 2^24 ticks: an engine's, or a queued write's. -/
def State.overdue (s : State) : List (Nat × Nat) :=
  (s.silent.flatMap (·.targets)) ++
  (s.wq.filter fun e => decide (4 ≤ tierOf e.pa ∧ max e.at' e.asked + noAnswer ≤ s.tick)).map fun e => targetOf e.pa
/-- Answers that have arrived and wait at their ports: the port, and the tick of the arrival (R345). -/
def State.answersWaiting (s : State) : List (Nat × Nat) :=
  (s.farAccesses.filter fun a => decide (a.due ≤ s.tick)).map fun a => (answerPort a.serial, a.due)

/-! ### End of a command (R286, R287, R290-R292, R312) -/

/-- The bytes of a line as an `rld` delivers them: 0xFF throughout a part that is lost, failed or uncorrectable. -/
def State.rldBytes (s : State) (k : Cmd) : List Nat × (Nat → Byte) :=
  let lines := k.pas.zipIdx.map fun e => (e.1, k.parts.getD e.2 e.2)
  let errors := fun p : Word × Nat => (s.partError k p).toList ++ if badIn s.memBad p.2 64 then [0x20] else []
  let spoilt := (lines.filter fun e => !(errors e.1).isEmpty).map (·.2)
  (k.pas.flatMap errors, fun i =>
    let va := k.sa + BitVec.ofNat 64 i
    match lines.find? fun e => e.1.1.toNat / 64 = va.toNat / 64 with
    | some (p, n) => if spoilt.contains n then 0xFF else s.byte (p.2 + va.toNat % 64)
    | none => 0)

/-- Active bytes. -/
def Cmd.bytesOn (k : Cmd) : List Nat := (List.range 512).filter fun i => k.act.getLsbD i

/-- `rst` is performed: data, lines written back at POD scope, then the flag (R286, R313, R314, R318). -/
def State.doRst (s : State) (k : Cmd) : State × List Nat :=
  match k.flag with
  | none => (s, [0x25])
  | some f =>
    let errs := (k.pas.filterMap fun p => s.partError k p) ++ if k.refused then [0x22] else s.flagError k
    let write := fun (s : State) (p : Word × Nat) =>
      if (s.partError k p).isSome then s else
      let first := (p.1 - k.sa).toNat
      let cells := (k.bytesOn.filter fun i => i / 64 = first / 64).map fun i => (⟨i - first, k.tb.extractLsb' (8 * i) 8, 0xFF⟩ : Sys2Proof.Cell)
      s.portWrite p.2 cells k.mods.cache
    let s := k.pas.foldl write s
    let s := s.podRelease k.mods.scope
    (if errs.isEmpty then s.portIncrement k.vf k.g f k.bytesOn.length k.mods.scope else s, errs)

/-- An atomic is performed: one step on its word, behind what its port accepted for the line before it (R287, R298, R315). -/
def State.doAmo (s : State) (k : Cmd) (w : Nat) : State × List Nat × Nat :=
  match k.pas with
  | (va, pa) :: _ =>
    match s.partError k (va, pa) with
    | some e => (s, [e], 2 ^ w - 1)
    | none =>
      let s := s.drainLine pa
      if badIn s.memBad pa (w / 8) then (s.engineMeets k pa (w / 8), [0x20], 2 ^ w - 1)
      else
        let s := (s.engineMeets k pa (w / 8)).cacheRead pa (w / 8) k.mods.cache
        let old := s.readLe pa (w / 8)
        match amoStep k.instr w old k.sb.toNat k.sd.toNat with
        | some v =>
          let s := s.performWrite pa (cellsOf v (w / 8)) k.mods.cache
          (s.podRelease k.mods.scope, [], old)
        | none => (s, [], old)
  | [] => (s, [], 0)

/-- A scalar result. -/
def giveS (k : Cmd) (i v : Nat) : List Give := (k.dest[i]?.map fun r => (r, BitVec.ofNat 4096 (v % 2 ^ 64), allBits 64)).toList
/-- The status word of R290. -/
def statusWord (gen st : Nat) : Nat := gen % 65536 + st * 65536
/-- GEN of a pool-map entry. -/
def genOf (e : BitVec 128) : Nat := bits e.toNat 43 28
/-- An entry freed (R242, R291). -/
def freedEntry (gen : Nat) : BitVec 128 := BitVec.ofNat 128 (gen % 65536 * 2 ^ 28)
/-- Units charged for an entry's copies that are not lost (R241, R245). -/
def chargedUnits (e : BitVec 128) : Nat :=
  if bits e.toNat 2 1 = 2 then 0 else bits e.toNat 124 104 * if bit e.toNat 3 ∧ bits e.toNat 2 1 = 0 then 2 else 1

/-- The lines of an allocation's primary copy. -/
def inAlloc (e : BitVec 128) (line : Nat) : Bool :=
  let lo := 2 ^ 57 + bits e.toNat 15 4 * 2 ^ 40 + bits e.toNat 103 64
  decide (lo ≤ 64 * line ∧ 64 * line < lo + bits e.toNat 124 104 * 65536)
/-- A region of 2 MiB holds bytes of an allocation. -/
def allocIn (e : BitVec 128) (r : Nat) : Bool := (List.range 32).any fun i => inAlloc e (r * 32768 + 1024 * i)
/-- Cached lines of an allocation's regions are dropped, and the tokens of those regions emptied. DEDUCED: a line of such a region that
belongs to another allocation is written back first, as R246 says of a token that leaves (log 41). -/
def State.forgetAlloc (s : State) (e : BitVec 128) : State :=
  let near := fun line : Nat => allocIn e (line / 32768)
  let s := (((s.dropLines (inAlloc e)).cleanLines near).dropLines near)
  { s with toks := s.toks.filter fun t => !allocIn e t.region }
/-- `kfree` of number `n` for every holder in the package of the tenant: VALID clears, GEN counts (R243, R291). -/
def State.poolFree (s : State) (v n : Nat) : State :=
  let home := s.homeOf v
  let tenant := s.tenantOf v
  (List.range 8).foldl (fun s u =>
    if s.homeOf u ≠ home ∨ s.tenantOf u ≠ tenant then s else
    let e := tget 0 (s.vf u).pool n
    if !bit e.toNat 0 then s else
    let mine := s.allocs.any fun a => a.switch = home && a.tenant = tenant && a.num = n && a.charge = u
    let s := (s.forgetAlloc e).modVf u fun x =>
      { x with pool := tset 0 x.pool n (freedEntry (genOf e + 1)), used := if mine then x.used - chargedUnits e else x.used }
    { s with allocs := s.allocs.filter fun a => !(a.switch = home && a.tenant = tenant && a.num = n && a.charge = u) }) s

/-- A pool instruction's results; without an answer its home switch was lost (R290, R291). -/
def State.doPool (s : State) (k : Cmd) : State × List Give :=
  let n := kittyNum k.sa
  let own := tget 0 (s.vf k.vf).pool n
  match k.instr, k.rsp with
  | .kquery _, some (_, _, e) => (s, giveS k 0 e.toNat ++ giveS k 1 (e.toNat / 2 ^ 64))
  | .kquery _, none =>
    let e := setBits own 2 1 2
    (s, giveS k 0 e.toNat ++ giveS k 1 (e.toNat / 2 ^ 64))
  | .kfree _, some (st, _, e) => (s, giveS k 0 (statusWord (genOf e) st))
  | .kfree _, none =>
    if bit own.toNat 0 ∧ bits own.toNat 2 1 = 2 then
      let gen := (genOf own + 1) % 65536
      (s.poolFree k.vf n, giveS k 0 (statusWord gen 0))
    else (s, giveS k 0 (statusWord (genOf own) 4))
  | _, some (st, num, e) =>
    (s, giveS k 0 (if st = 0 then 0xFFFF * 2 ^ 48 + num * 2 ^ 36 else 0) ++ giveS k 1 (statusWord (genOf e) st))
  | _, none => (s, giveS k 0 0 ++ giveS k 1 (statusWord 0 4))

/-- A token command's outcome (R292). -/
def State.doToken (s : State) (k : Cmd) : State × List Nat × Nat :=
  let home := match k.pas with | (va, pa) :: _ => s.paError k.vf va pa | [] => none
  let r := k.region
  match k.instr, k.rsp with
  | .tacq _, some (st, _, _) => (s, [], st)
  | .tacq _, none =>
    ({ s with toks := s.toks.filter fun t => !(t.region = r && t.st = 1) }, home.toList, 2)
  | _, some (st, _, _) => (if st = 0 then s.giveUpToken r else s, [], st)
  | _, none =>
    let s := s.dropLines (inRegion r)
    ({ s with toks := s.toks.filter fun t => !(t.region = r && t.st = 2) }, home.toList, 2)

/-- The command has what it waits for. -/
def State.canEnd (s : State) (k : Cmd) : Bool :=
  match k.instr with
  | .sunbind _ =>
    k.holder.all fun h => !((s.slotStream h k.point).bound && (s.slotStream h k.point).unbinding = k.serial)
  | .kalloc _ | .kallocM _ | .kfree _ | .kquery _ => k.rsp.isSome || s.unreachable k
  | .tacq _ | .trel _ => k.rsp.isSome || s.unreachable k
  | _ => if k.remote then k.rsp.isSome || s.unreachable k else decide (k.due ≤ s.tick)

/-- The command's accesses are performed, and it ends. -/
def State.finishLoose (s : State) (k : Cmd) : State :=
  match k.instr with
  | .rst _ => let (s, e) := s.doRst k; s.endCmd { k with errs := e } [] 0 false
  | .rld _ =>
    let (e, f) := s.rldBytes k
    let s := k.pas.foldl (fun s p => if (s.partError k p).isSome then s else (s.engineMeets k p.2 64).cacheRead p.2 64 k.mods.cache) s
    let fold := fun (t : Tile × Tile) (i : Nat) =>
      (t.1 ||| ((f i).setWidth 4096 <<< (8 * i)), t.2 ||| ((0xFF : Tile) <<< (8 * i)))
    let (v, en) := k.bytesOn.foldl fold ((0, 0) : Tile × Tile)
    s.endCmd { k with errs := e } (k.dest.map fun r => (r, v, en)) 0 false
  | .amoAdd o | .amoAnd o | .amoOr o | .amoXor o | .amoMin o | .amoMax o | .amoSwap o | .amoCas o =>
    let (s, e, old) := s.doAmo k (wordWidth o)
    s.endCmd { k with errs := e } (giveS k 0 old) 0 false
  | .kalloc _ | .kallocM _ | .kfree _ | .kquery _ => let (s, ws) := s.doPool k; s.endCmd k ws 0 false
  | .tacq _ | .trel _ => let (s, e, st) := s.doToken k; s.endCmd { k with errs := e } (giveS k 0 st) 0 false
  | .sstat _ =>
    let w := match k.holder with | some h => (s.slotStream h k.point).word | none => 0
    s.endCmd k (giveS k 0 w.toNat) 0 false
  | _ => s.endCmd k [] 0 false

/-- REMOTE_COMMAND_END. -/
def execRemoteCommandEnd (c n : Nat) (s : State) : Out :=
  match s.looseAt c n with
  | some k =>
    event (s.canEnd k) s
      (State.finishLoose (s.modCore c fun x => { x with remLoose := x.remLoose.filter fun h => h.serial ≠ n }) k)
  | none => .next s

end Sys2Proof.Machine
end

