-- ==== Sys2Proof/Machine/Fabric.lean ====
section
/-! DEFINITION. The fabric (R345, R432, R467): pool requests and responses (R241-R243, R291), losses (R245), token moves (R246,
R372), and what other packages write, read and ask for here. -/

namespace Sys2Proof.Machine

/-! ### Pool requests -/

/-- A virtual address of function `u` lies in allocation `n` of the tenant and home switch of function `v` (R242, R243). -/
def State.inTenant (s : State) (v n u : Nat) (va : Word) : Bool :=
  isKitty va && decide (kittyNum va = n ∧ s.homeOf u = s.homeOf v ∧ s.tenantOf u = s.tenantOf v)
/-- A layout has an element in the allocation. -/
def State.layoutIn (s : State) (v n u : Nat) (d : BitVec 512) : Bool :=
  let l := layoutOf d
  (List.range l.count).any fun i => (l.elemAddr i).any fun b => s.inTenant v n u (byteOf b)
/-- A command of a copy engine reaches the allocation; one that has not started is judged by the descriptors it would read now. -/
def State.copyIn (s : State) (v n : Nat) (k : Cmd) : Bool :=
  let k := if k.started then k else s.startEngine k
  match k.instr with
  | .cfill _ => s.inTenant v n k.vf k.sb || s.inTenant v n k.vf (k.sb + BitVec.ofNat 64 (k.toMove - 1))
  | _ => k.view.any (s.layoutIn v n k.vf) || k.view2.any (s.layoutIn v n k.vf) || (k.flag.isSome && s.inTenant v n k.vf k.flagAddr)
/-- Accesses of the package to allocation `n` that an earlier command or store made and that have not been performed (R291, R294). -/
def State.accessing (s : State) (v n serial : Nat) : Bool :=
  let old := fun k : Cmd => decide (k.serial < serial)
  s.wq.any (fun w => s.inTenant v n w.vf w.va || w.flag.any fun f => s.inTenant v n w.vf f.2.1) ||
  s.cores.any (fun c =>
    c.2.meld.any (fun l => s.inTenant v n (s.ctx l.g).vfid l.va) ||
    (c.2.remq ++ c.2.remLoose).any fun k => old k && isLateAccess k.instr &&
      (k.pas.any (fun p => s.inTenant v n k.vf p.1) || (k.flag.isSome && s.inTenant v n k.vf k.flagAddr))) ||
  s.quads.any (fun q =>
    ((q.2.copyq ++ q.2.copyHeld ++ q.2.copyRun.toList).any fun k => old k && s.copyIn v n k) ||
    (q.2.cmdq ++ q.2.parked ++ q.2.redo ++ q.2.runs.map (·.cmd)).any fun k => old k && decide (k.tableBytes ≠ 0) &&
      (s.inTenant v n k.vf k.sb || s.inTenant v n k.vf (k.sb + BitVec.ofNat 64 (k.tableBytes - 1)))) ||
  s.slots.any fun x => x.2.2.bound && decide (x.2.2.by' < serial) && x.2.2.view.any (s.layoutIn v n (s.streamCmd x.1 x.2.2).vf)
/-- The pool request of a command can reach its home switch: a `kfree` waits for the accesses before it. -/
def State.poolSend (s : State) (m : PoolReq) : Option Cmd :=
  (s.looseAt m.c m.n).filter fun k =>
    isPool k.instr && k.rsp.isNone && k.point = 0 && !s.unreachable k &&
    match k.instr with
    | .kfree _ => !s.accessing k.vf (kittyNum k.sa) k.serial
    | _ => true
/-- The Meld lines of an allocation that is being freed are evicted, in acceptance order. -/
def State.evictAlloc (s : State) (e : BitVec 128) : State :=
  s.cores.foldl (fun s c =>
    (c.2.meld.filter fun l => inAlloc e (l.pa / 64)).foldl State.meldOut
      (s.modCore c.1 fun x => { x with meld := x.meld.filter fun l => !inAlloc e (l.pa / 64) })) s
/-- A `kfree` of an allocation whose Meld lines must leave first. -/
def State.poolEvict (s : State) (m : PoolReq) : Option State :=
  match s.looseAt m.c m.n with
  | some k =>
    let e := tget 0 (s.vf k.vf).pool (kittyNum k.sa)
    let isFree := match k.instr with | .kfree _ => true | _ => false
    if isFree && k.point = 0 && s.cores.any fun c => c.2.meld.any fun l => inAlloc e (l.pa / 64) then some (s.evictAlloc e) else none
  | none => none
/-- POOLREQ. -/
def execPoolreq (m : PoolReq) (s : State) : Out :=
  match s.poolSend m with
  | some k => .next (s.setLoose m.c { k with point := 1, asked := s.tick })
  | none => .next ((s.poolEvict m).getD s)

/-- A new allocation's entry agrees with its request (R241, R242). -/
def State.allocFits (s : State) (k : Cmd) (e : BitVec 128) (num : Nat) : Bool :=
  let mirror := match k.instr with | .kallocM _ => true | _ => false
  let v := s.vf k.vf
  bit e.toNat 0 && decide (bits e.toNat 2 1 = 0) && bit e.toNat 3 == mirror && decide (bits e.toNat 124 104 = k.sa.toNat) &&
    decide (bits e.toNat 103 64 % 65536 = 0) && !s.lostSw.contains (bits e.toNat 15 4) &&
    (if mirror then decide (bits e.toNat 27 16 ≠ bits e.toNat 15 4) && !s.lostSw.contains (bits e.toNat 27 16) else decide (bits e.toNat 27 16 = 0)) &&
    !bit (tget 0 v.pool num).toNat 0 && decide (v.used + chargedUnits e ≤ bits v.part.toNat 63 32)
/-- An entry with its reserved bits clear (R242). -/
def cleanEntry (e : BitVec 128) : BitVec 128 := setBits (setBits e 63 44 0) 127 125 0
/-- POOLRSP: the answer to a request updates the pool map and KQUOTA (R241-R243, R291); with `n = 0` it is a release. -/
def execPoolrsp (m : PoolRsp) (s : State) : Out :=
  let num := m.num.toNat
  let entry := cleanEntry m.entry
  if m.n = 0 then
    event (!bit entry.toNat 0) s (s.poolFree m.c num)
  else
  match s.looseAt m.c m.n with
  | none => .next s
  | some k =>
    let waits := isPool k.instr && k.point = 1 && k.rsp.isNone && !s.unreachable k
    let k' := { k with rsp := some (m.status.toNat, num, entry) }
    let own := tget 0 (s.vf k.vf).pool num
    let put := fun s : State => s.modVf k.vf fun x => { x with pool := tset 0 x.pool num entry }
    let done := fun s : State => s.setLoose m.c k'
    match k.instr with
    | .kalloc _ | .kallocM _ =>
      if m.status = 0 then
        let home := s.homeOf k.vf
        let a : PoolAlloc := { switch := home, tenant := s.tenantOf k.vf, num := num, charge := k.vf }
        let t := (put s).modVf k.vf fun x => { x with used := x.used + chargedUnits entry }
        event (waits && s.allocFits k entry num) s (done { t with allocs := t.allocs ++ [a] })
      else event (waits && decide (m.status.toNat ≤ 3)) s (done s)
    | .kfree _ =>
      if m.status = 0 then
        event (waits && decide (num = kittyNum k.sa) && (!bit own.toNat 0 || decide (genOf entry = (genOf own + 1) % 65536))) s
          (done (s.poolFree k.vf num))
      else event (waits && m.status = 5) s (done s)
    | .kquery _ => event (waits && decide (num = kittyNum k.sa ∧ bits entry.toNat 2 1 ≠ 3)) s (done (put s))
    | _ => .next s

/-! ### Losses (R245, R247, R319) -/

/-- An entry marked LOST: its GEN counts. -/
def lostEntry (e : BitVec 128) : BitVec 128 := setBits (setBits e 2 1 2) 43 28 (genOf e + 1)
/-- An entry marked DEGRADED; the survivor becomes the primary. -/
def degradedEntry (e : BitVec 128) (primaryLost : Bool) : BitVec 128 :=
  let d := setBits (setBits e 2 1 1) 27 16 0
  if primaryLost then setBits d 15 4 (bits e.toNat 27 16) else d
/-- What the loss of the switches in `lost` makes of an entry; `none` leaves it. -/
def lossOf (lost : List Nat) (e : BitVec 128) : Option (BitVec 128) :=
  let p := lost.contains (bits e.toNat 15 4)
  let q := lost.contains (bits e.toNat 27 16)
  let st := bits e.toNat 2 1
  if !bit e.toNat 0 ∨ st = 2 then none
  else if bit e.toNat 3 ∧ st = 0 then
    (if p ∧ q then some (lostEntry e) else if p then some (degradedEntry e true) else if q then some (degradedEntry e false) else none)
  else if p then some (lostEntry e) else none

/-- The accesses of some commands are under way anew: their targets have 2^24 ticks more to answer. -/
def State.askAgain (s : State) (ns : List Nat) : State :=
  let s := s.mapCmds fun k => if ns.contains k.serial then { k with asked := s.tick } else k
  (s.slots.filter fun x => ns.contains x.2.2.by').foldl (fun s x => s.setSlotStream x.1 x.2.1 { x.2.2 with asked := s.tick }) s
/-- What has had no answer for 2^24 ticks, and has no target left that could give one, waits no longer (R245, R273). -/
def State.giveUp (s : State) : State :=
  let ns := (s.silent.filter fun a => a.targets.all s.targetGone).map (·.serial)
  let run := fun r : CubeRun => if ns.contains r.cmd.serial then { r with total := min r.total r.ticks } else r
  let quads : Tbl Quad := s.quads.map fun (e : Nat × Quad) => (e.1, { e.2 with runs := e.2.runs.map run })
  (s.slots.filter fun x => ns.contains x.2.2.by').foldl (fun (s : State) x => s.setSlotStream x.1 x.2.1 { x.2.2 with due := min x.2.2.due s.tick }) { s with quads := quads }
/-- The bytes of an allocation pass to its survivor: dirty lines first, then the copy's bytes at the new primary. What is in flight to
the old primary goes to the survivor too, which has its own time to answer (R244, R245, R319). -/
def State.moveCopy (s : State) (e d : BitVec 128) : State :=
  if bits e.toNat 15 4 = bits d.toNat 15 4 then s else
  let s := s.askAgain ((s.farAccesses.filter fun a => a.pas.any fun p => inAlloc e (p / 64)).map (·.serial))
  let s := s.cleanLines (inAlloc e)
  let cells := s.mem.filter fun c => inAlloc e (c.1 / 64)
  let shift := fun a : Nat => if inAlloc e (a / 64) then a + bits d.toNat 15 4 * 2 ^ 40 - bits e.toNat 15 4 * 2 ^ 40 else a
  let s := s.mapCmds fun k => { k with pas := k.pas.map fun p => (p.1, shift p.2), flag := k.flag.map shift }
  { s with
    mem := cells.foldl (fun m c => setByte m (shift c.1) c.2) (s.mem.filter fun c => !inAlloc d (c.1 / 64))
    memBad := (s.memBad.map shift).eraseDups
    memSoft := (s.memSoft.map shift).eraseDups
    wq := s.wq.map fun x =>
      { x with pa := shift x.pa, flag := x.flag.map (fun f => (shift f.1, f.2)), asked := if inAlloc e (x.pa / 64) then s.tick else x.asked }
    cores := s.cores.map fun c => (c.1, { c.2 with meld := c.2.meld.map fun l => { l with pa := shift l.pa } }) }
/-- An entry of a function changes with a loss: its charge drops, and every context of the function hears of it. Cached lines and tokens
go with the primary copy (R245, R247). -/
def State.applyLoss (s : State) (v num : Nat) (d : BitVec 128) : State :=
  let e := tget 0 (s.vf v).pool num
  let mine := s.allocs.any fun a => a.num = num && a.charge = v
  let s := s.moveCopy e d
  let s := if bits d.toNat 2 1 = 2 ∨ bits e.toNat 15 4 ≠ bits d.toNat 15 4 then s.forgetAlloc e else s
  let s := s.modVf v fun x =>
    { x with pool := tset 0 x.pool num d, used := if mine then x.used - (chargedUnits e - chargedUnits d) else x.used }
  s.postAll v { kind := 8, tag := num, time := s.tick, payload := genOf d + bits d.toNat 2 1 * 2 ^ 16 }
/-- KITTY_SWITCH_LOSS: by failed links, or for want of an answer (R245). -/
def execKittySwitchLoss (w : Nat) (s : State) : Out :=
  if s.lostSw.contains w then .next s else
  let s := { s with lostSw := w :: s.lostSw }
  let lossIn := fun (v : Nat) (s : State) (n : Nat × BitVec 128) =>
    match lossOf s.lostSw n.2 with
    | some d => s.applyLoss v n.1 d
    | none => s
  let s := s.vfs.foldl (fun s v => v.2.pool.foldl (lossIn v.1) s) s
  let gone := fun line : Nat => decide (tierOf (64 * line) = 5 ∧ bits (64 * line) 51 40 = w)
  let s := s.dropLines gone
  .next { s with toks := s.toks.filter fun t => !gone (t.region * 32768) }
/-- PEER_TIMEOUT: only a peer that some request has found silent for 2^24 ticks (R273). -/
def execPeerTimeout (p : Nat) (s : State) : Out :=
  event (s.overdue.contains (peerTarget p) && !s.deadPeers.contains p) s { s with deadPeers := p :: s.deadPeers }
/-- LOSS: a home switch reports allocations lost or degraded. Of a mirrored one with both copies the message does not say how many are
gone, nor which: a free choice. -/
def execLoss (m : LossMsg) (s : State) : Out :=
  let one := fun (v : Nat) (s : State) (n : Nat) =>
    let e := tget 0 (s.vf v).pool n
    if !bit e.toNat 0 ∨ bits e.toNat 2 1 = 2 then s
    else if bit e.toNat 3 ∧ bits e.toNat 2 1 = 0 ∧ Config.choice s.fresh (4096 + n) then
      s.applyLoss v n (degradedEntry e (Config.choice s.fresh n))
    else s.applyLoss v n (lostEntry e)
  .next ((List.range 8).foldl (fun s v =>
    if s.homeOf v = m.switch ∧ s.tenantOf v = m.tenant then m.nums.foldl (one v) s else s) s)

/-! ### Ownership tokens (R246, R292, R372) -/

/-- TOKREQ: another package asks this home for a token of this package's memory; a lent one is recalled from its holder, and the request
waits until it comes home: one package at most holds it (R246, R372). -/
def execTokreq (m : TokMsg) (s : State) : Out :=
  let pa := m.region * 0x200000
  let own := decide (tierOf pa = 2 ∨ tierOf pa = 3)
  match s.ownTok m.region with
  | some t =>
    event (own && decide (t.st = 3 ∧ t.holder ≠ m.pkg) && !t.want.contains m.pkg) s
      { s with toks := s.toks.map fun t => if t.region = m.region then { t with want := t.want ++ [m.pkg] } else t }
  | none =>
    event (own && decide (s.toks.length < 4096)) s { s with toks := s.toks ++ [{ region := m.region, st := 3, holder := m.pkg }] }
/-- A lent token comes home, and goes to the package that has waited longest. -/
def State.tokenHome (s : State) (r : Nat) : State :=
  { s with toks := s.toks.filterMap fun t =>
      if t.region ≠ r then some t else match t.want with | [] => none | p :: rest => some { t with holder := p, want := rest } }
/-- TOKGRANT: an ACQUIRING entry becomes HELD; a token lent out comes home. -/
def execTokgrant (m : TokMsg) (s : State) : Out :=
  match s.ownTok m.region with
  | some t =>
    if t.st = 1 then
      let toks := s.toks.map fun t => if t.region = m.region then { t with st := 0 } else t
      let got := fun k : Cmd => match k.instr with
        | .tacq _ => if k.region = m.region ∧ k.rsp.isNone then { k with rsp := some (0, 0, 0) } else k
        | _ => k
      .next { s with toks := toks, cores := s.cores.map fun c => (c.1, { c.2 with remLoose := c.2.remLoose.map got }) }
    else event (decide (t.st = 3 ∧ t.holder = m.pkg)) s (s.tokenHome m.region)
  | none => .next s
/-- TOKRECALL: a held token is RELEASING while its dirty lines are written back; it leaves at the end of the tick (R246, R372). -/
def execTokrecall (m : TokMsg) (s : State) : Out :=
  match s.ownTok m.region with
  | some t =>
    event (t.st = 0) s
      { s.cleanLines (inRegion m.region) with toks := s.toks.map fun t => if t.region = m.region then { t with st := 2 } else t }
  | none => .next s
/-- A `trel` of the region is under way. -/
def State.releasing (s : State) (r : Nat) : Bool :=
  s.cores.any fun c => c.2.remLoose.any fun k => (match k.instr with | .trel _ => true | _ => false) && k.region = r
/-- Recalled tokens leave for another package, and the functions that held them hear of it (R246, R324). -/
def State.tokensOver (s : State) : State :=
  (s.toks.filter fun t => t.st = 2 && !s.releasing t.region).foldl (fun s t =>
    (s.giveUpToken t.region).postAll t.vf { kind := 9, time := s.tick, payload := t.region * 0x200000 }) s

/-! ### Arrivals (R345, R432, R467) -/

/-- The physical address of an arriving access's byte: TSRAM or HBM of this package, through the function's entries. -/
def State.inbound (s : State) (v : Nat) (va : Word) (rd wr : Bool) : Option Nat :=
  match s.xlate v va rd wr 0 with
  | .ok x => if x.tier = 2 ∨ x.tier = 3 then some x.pa else none
  | .error _ => none
/-- What the translation of an arrival leaves behind (R354). -/
def State.inboundNote (s : State) (v : Nat) (va : Word) : State := s.walked v nobody va
/-- The blocks of 4 KiB that some bytes from `va` touch. -/
def blocksOf (va : Word) (offs : List Nat) : List Word :=
  (offs.map fun o => (va + BitVec.ofNat 64 o).toNat / 4096).eraseDups.map fun b => BitVec.ofNat 64 (4096 * b)
/-- The translations of an arriving write. -/
def State.writeNotes (s : State) (v : Nat) (va : Word) (cells : List Sys2Proof.Cell) : State :=
  (blocksOf va (cells.map (·.off))).foldl (fun s a => s.inboundNote v a) s
/-- The function whose partition holds a physical address. -/
def State.ownerOf (s : State) (pa : Nat) : Option Nat := (List.range 8).find? fun v => bit (s.vf v).part.toNat 0 && partOk (s.vf v).part.toNat pa
/-- Arriving bytes are written; none of them where one does not translate (R467). -/
def State.inboundWrite (s : State) (v : Nat) (va : Word) (cells : List Sys2Proof.Cell) : Option State := do
  let at' := fun c : Sys2Proof.Cell => va + BitVec.ofNat 64 c.off
  let blocks := (cells.map fun c => (at' c).toNat / 4096).eraseDups
  let got ← blocks.mapM fun b => (s.inbound v (BitVec.ofNat 64 (4096 * b)) false true).map fun pa => (b, pa)
  some (got.foldl (fun s e =>
    let mine := cells.filter fun c => (at' c).toNat / 4096 = e.1
    s.portWrite e.2 (mine.map fun c => { c with off := (at' c).toNat % 4096 }) 0) s)
/-- A byte of a peer or a switch that is reachable. -/
def State.awayOk (s : State) (pa : Nat) : Bool :=
  decide (tierOf pa = 4 ∨ tierOf pa = 5) && (s.targetError { pa := pa, tier := tierOf pa }).isNone
/-- Another package's bytes at a peer or a switch. -/
def awayWrite (m : List Host.Cell) (pa : Nat) (cells : List Sys2Proof.Cell) : List Host.Cell :=
  cells.foldl (fun m c => setByte m (pa + c.off) ((byteAt m (pa + c.off) &&& ~~~c.en) ||| (c.val &&& c.en))) m
/-- The flag of a message: 8-byte aligned, and one that can be written. -/
def State.arriveFlag (s : State) (d : Dest) (bytes : Nat) : Option State :=
  match d with
  | .here v va =>
    if va.toNat % 8 ≠ 0 then none else (s.inbound v va false true).map fun pa => s.portIncrement v nobody pa bytes 0
  | .away pa =>
    if pa % 8 = 0 ∧ s.awayOk pa then some { s with mem := leWrite s.mem pa (leRead s.mem pa 8 + 1) 8 } else none

/-- FWRITE. -/
def execFwrite (m : WriteMsg) (s : State) : Out :=
  let s := match m.dest with | .here v va => s.writeNotes v va m.cells | .away _ => s
  let s := match m.flag with | some (.here v va) => s.inboundNote v va | _ => s
  let data := match m.dest with
    | .here v va => s.inboundWrite v va m.cells
    | .away pa => if s.awayOk pa then some { s with mem := awayWrite s.mem pa m.cells } else none
  let all := data.bind fun t => match m.flag with | some f => t.arriveFlag f m.bytes | none => some t
  .next (all.getD s)
/-- FLAGINC: the bytes of an increment reach the barriers that watch its flag (R392). -/
def execFlaginc (m : FlagMsg) (s : State) : Out :=
  event (decide (tierOf m.pa = 2 ∨ tierOf m.pa = 3)) s (s.countBytes m.pa m.bytes)
/-- TRIGARR: a tagged arrival increments the flag that its tag names (R345, R388). -/
def execTrigarr (m : FlagMsg) (s : State) : Out :=
  event (decide (m.pa % 8 = 0 ∧ (tierOf m.pa = 2 ∨ tierOf m.pa = 3))) s (s.portIncrement ((s.ownerOf m.pa).getD 0) nobody m.pa m.bytes 0)

/-- The stores of a LINEADD on a line: each element added in order (R264). -/
def lineAdds (m : LineMsg) (line : Nat) : List (Nat × Nat) :=
  let add := fun x v : Nat => match m.fmt with | some t => fadd' t false false x v | none => (x + v) % 2 ^ m.ew
  (m.elems.foldl (fun (acc : List (Nat × Nat)) e =>
    let cur := match acc.find? fun a => a.1 = e.1 * m.ew with | some a => a.2 | none => bits line (e.1 * m.ew + m.ew - 1) (e.1 * m.ew)
    acc.filter (fun a => a.1 ≠ e.1 * m.ew) ++ [(e.1 * m.ew, add cur (e.2 % 2 ^ m.ew))]) [])
/-- LINEADD: one step behind the entries of its line; the words it reads are counted (R248, R264). -/
def execLineadd (m : LineMsg) (s : State) : Out :=
  match m.dest with
  | .here v va =>
    let s := s.inboundNote v va
    match s.inbound v va true true with
    | some pa =>
      let s' := s.drainLine pa
      let s' := (m.elems.map fun e => eccUnit (pa + e.1 * m.ew / 8)).eraseDups.foldl (fun s u => s.engineMeets (accessOf v nobody) u 1) s'
      event (va.toNat % 64 = 0) s (s'.performWrite pa (lineCells m.ew (lineAdds m (s'.readLe pa 64))) 0)
    | none => .next s
  | .away pa =>
    event (pa % 64 = 0 && s.awayOk pa) s { s with mem := awayWrite s.mem pa (lineCells m.ew (lineAdds m (leRead s.mem pa 64))) }

/-- UALINK_READ: the words it meets are counted. -/
def execUalinkRead (m : LinkReq) (s : State) : Out :=
  let s := (blocksOf m.va (List.range m.n)).foldl (fun s a => s.inboundNote m.vf a) s
  let bytes := (List.range m.n).mapM fun i => s.inbound m.vf (m.va + BitVec.ofNat 64 i) true false
  match bytes with
  | some l => .next ((l.map eccUnit).eraseDups.foldl (fun s u => s.engineMeets (accessOf m.vf nobody) u 1) s)
  | none => .next s
/-- UALINK_WRITE. -/
def execUalinkWrite (m : LinkReq) (s : State) : Out :=
  let cells := (m.data.zipIdx).map fun e => (⟨e.2, e.1, 0xFF⟩ : Sys2Proof.Cell)
  let s := s.writeNotes m.vf m.va cells
  .next ((s.inboundWrite m.vf m.va cells).getD s)
/-- The operations of a standard atomic, in the order of R121. -/
def linkOp (op : BitVec 3) : Instr :=
  match op.toNat with
  | 0 => .amoAdd feZero
  | 1 => .amoAnd feZero
  | 2 => .amoOr feZero
  | 3 => .amoXor feZero
  | 4 => .amoMin feZero
  | 5 => .amoMax feZero
  | 6 => .amoSwap feZero
  | _ => .amoCas feZero
/-- UALINK_ATOMIC: at 32 or 64 bits, in one step; an uncorrectable word is left (R250). -/
def execUalinkAtomic (m : LinkReq) (s : State) : Out :=
  let s := s.inboundNote m.vf m.va
  match s.inbound m.vf m.va true true with
  | some pa =>
    let ok := decide ((m.n = 4 ∨ m.n = 8) ∧ m.va.toNat % m.n = 0)
    let s' := (s.drainLine pa).engineMeets (accessOf m.vf nobody) pa m.n
    let t := if badIn s'.memBad pa m.n then s' else
      match amoStep (linkOp m.op) (8 * m.n) (s'.readLe pa m.n) m.operand.toNat m.compare.toNat with
      | some v => s'.performWrite pa (cellsOf v m.n) 0
      | none => s'
    event ok s t
  | none => .next s
/-- UNSUPPORTED_VENDOR_MESSAGE: counted in ECCUNC tier 4. -/
def execUnsupportedVendorMessage (_port vf : Nat) (s : State) : Out := .next (s.vfSat vf 0x11 4 1)

/-! ### Events that are due -/

/-- The remote-engine event of core `c` that is due. -/
def State.dueRemoteAt (s : State) (c : Nat) (x : Core) : Due :=
  let loose := x.remLoose.findSome? fun k =>
    if s.canEnd k then some (execRemoteCommandEnd c k.serial)
    else if (s.poolSend ⟨c, k.serial⟩).isSome || (s.poolEvict ⟨c, k.serial⟩).isSome then some (execPoolreq ⟨c, k.serial⟩)
    else
      let m : LinkRsp := { c := c, n := k.serial, failed := k.refusable && Config.choice k.serial 8 }
      if k.due ≤ s.tick ∧ s.portFree k.vf k.serial k.due ∧ (s.answers m).isSome then some (execUalinkResponse m)
    else none
  match loose with
  | some i => some i
  | none =>
    if (s.pushReady c).isSome then some (execCspushAccept c)
    else if (s.remoteReady c).isSome then some (execRemoteEngineDispatch c)
    else none
/-- The fabric event that is due. -/
def State.dueFabric (s : State) : Due :=
  match s.overdue.find? fun t => t.1 = 5 && !s.lostSw.contains (t.2 - 2 ^ 17) with
  | some t => some (execKittySwitchLoss (t.2 - 2 ^ 17))
  | none =>
    match s.overdue.find? fun t => t.1 = 4 && !s.deadPeers.contains (t.2 - 2 ^ 16) with
    | some t => some (execPeerTimeout (t.2 - 2 ^ 16))
    | none =>
      match s.cores.findSome? fun e => s.dueRemoteAt e.1 e.2 with
      | some i => some i
      | none =>
        let qs := (s.cores.map fun e => e.1 / 4).eraseDups
        qs.findSome? fun q => (List.range 4).findSome? fun b => if (s.popReady q b).isSome then some (execCspopDelivery q b) else none

end Sys2Proof.Machine
end

