-- ==== Sys2Proof/Machine/Trigger.lean ====
section
/-! DEFINITION. Arming and cancelling triggers (R388-R391) and binding byte-counting barriers (R392-R394). -/

namespace Sys2Proof.Machine

/-- A counter of 8 bytes or a packet of 64: aligned, readable, in TSRAM or HBM, with the token where its page needs one (R247). A counter's tier is
checked before its permission, a packet's after it (R391). -/
def State.trigPart (s : State) (a : Word) (n : Nat) : Except Halt Xlate := do
  alignedTo a n
  let x ← s.xmap s.me.vfid a
  let far := decide (x.tier ≠ 2 ∧ x.tier ≠ 3)
  let barred := !s.permOk s.me.vfid x true false
  if far ∧ (n = 8 ∨ !barred) then .error (.fault 0x12 0 a none)
  else if barred then .error (.fault 0x11 0 a none)
  else if !s.tokenOk x 0 then .error (.fault 0x13 0 a none)
  else .ok x
/-- Into the trigger unit of tower `t`; it acts within 64 ticks, or 120 across the mesh. -/
def State.toTrigger (s : State) (t : Nat) (k : Cmd) : State :=
  let far := if t = towerOf s.cur then 0 else 56
  let k := { k with due := s.tick + Config.delay k.serial 5 % (64 + far) }
  (s.issued k).modTower t fun w => { w with trigCmds := w.trigCmds ++ [k] }

/-- `trig.arm` (R391). -/
def execTrigArm (o : FE) (s : State) : Out :=
  s.syl (.trigArm o) fun s => do
    let a := s.rs o.a
    let x ← s.trigPart a 8
    let p := s.rs o.d
    let y ← s.trigPart p 64
    s.tokenFree o
    .ok ((s.fillWalks [(a, x), (p, y)]).toTrigger (portTower x.pa)
      { s.newCmd (.trigArm o) o {} with sa := a, sb := s.rs o.b, sd := p, pas := [(a, x.pa), (p, y.pa)] })
/-- `trig.cancel` (R391). -/
def execTrigCancel (o : FE) (s : State) : Out :=
  s.syl (.trigCancel o) fun s => do
    let a := s.rs o.a
    let x ← s.trigPart a 8
    s.tokenFree o
    .ok ((s.fillWalks [(a, x)]).toTrigger (portTower x.pa)
      { s.newCmd (.trigCancel o) o {} with sa := a, pas := [(a, x.pa)], dest := [⟨.s, s.spec 64 o.d⟩] })

/-- The packet of R389 keeps its rules. -/
def packetOk (p : Nat) : Bool :=
  let kind := bits p 3 0
  let len := bits p 9 4
  let a := bits p 127 64
  let f := bits p 191 128
  decide (kind ≤ 2 ∧ bits p 63 10 = 0 ∧ bits p 255 192 = 0) &&
    match kind with
    | 0 => decide (len = 0 ∧ f = 0 ∧ a % 64 = 0)
    | 1 => decide (len ≤ 31 ∧ f % 8 = 0 ∧ a % 64 + len < 64)
    | _ => decide (len = 0 ∧ f = 0 ∧ a % 8 = 0)
/-- The trigger unit arms an entry: packet, free entry, VALID, then one test of the counter. -/
def State.armTrigger (s : State) (t : Nat) (k : Cmd) : State :=
  match k.pas with
  | (_, c) :: (_, p) :: _ =>
    let w := s.tower t
    let bad := badIn s.memBad p 64
    let packet := s.readLe p 64
    let free := (List.range 64).find? fun i => !(tget {} w.trigs i).valid
    let errs := (if bad then [0x20] else if packetOk packet then [] else [0x32]) ++
      (if w.trigs.any fun e => e.2.valid && e.2.caddr = c then [0x31] else []) ++ if free.isNone then [0x30] else []
    let s := s.engineMeets k p 64
    match errs, free with
    | [], some i =>
      let e : Trig := { valid := true, vf := k.vf, caddr := c, thresh := k.sb, packet := BitVec.ofNat 512 packet }
      let s := s.modTower t fun w => { w with trigs := tset {} w.trigs i e, fired := w.fired.filter (· ≠ (k.vf, c)) }
      (s.testTrigger c).endCmd k [] 0 false
    | errs, _ => s.endCmd { k with errs := errs } [] 0 false
  | _ => s
/-- The function's entry on the counter is cancelled. -/
def State.cancelTrigger (s : State) (t : Nat) (k : Cmd) : State :=
  match k.pas with
  | (_, c) :: _ =>
    let w := s.tower t
    match (List.range 64).find? fun i => let e := tget {} w.trigs i; e.valid && e.vf = k.vf && e.caddr = c with
    | some i => (s.modTower t fun w => { w with trigs := tset {} w.trigs i { tget {} w.trigs i with valid := false } }).endCmd k (giveS k 0 0) 0 false
    | none => s.endCmd k (giveS k 0 (if w.fired.contains (k.vf, c) then 2 else 1)) 0 false
  | [] => s
/-- One command of a trigger unit. -/
def State.trigStep (s : State) (t : Nat) (k : Cmd) : State :=
  if s.tick < k.due ∨ !s.ready k then s else
  let s := s.modTower t fun w => { w with trigCmds := w.trigCmds.filter fun h => h.serial ≠ k.serial }
  match k.instr with
  | .trigArm _ => s.armTrigger t k
  | .trigCancel _ => s.cancelTrigger t k
  | _ => s.endCmd k [] 0 false

/-- `bcarm` (R394): the binding and the count act with the bundle, which waits for the tokens it consumes (R34); its token is DONE two
ticks later. -/
def execBcarm (o : FE) (s : State) : Out :=
  s.syl (.bcarm o) fun s => do
    let n := bits o.d.toNat 3 0
    let t := towerOf s.cur
    let v := s.me.vfid
    let b := tget {} (s.tower t).bcs n
    ensure (!b.bound || decide (b.vf = v)) 0x11
    let a := s.rs o.a
    let c := s.rs o.b
    let k := s.newCmd (.bcarm o) o {}
    let waits := unblocked k.after.isEmpty 2
    let queued := fun s : State =>
      (s.issued k).modTower t fun w => { w with trigCmds := w.trigCmds ++ [{ k with due := s.tick + 1 }] }
    if a = 0 then
      ensure (decide (c = 0)) 0x08
      waits
      s.tokenFree o
      .ok (queued (s.modBc t n fun _ => {}))
    else
      alignedTo a 8
      let x ← s.xmap v a
      if (x.tier ≠ 2 ∧ x.tier ≠ 3) ∨ portTower x.pa ≠ t then .error (.fault 0x12 0 a none)
      else if !s.permOk v x false true then .error (.fault 0x11 0 a none)
      else
        let b := if b.bound ∧ b.watch = x.pa then b
          else { b with watch := x.pa, acc := 0, posted := false, ovr := false, bound := true, vf := v }
        ensure (decide (c = 0) || !b.posted) 0x08
        waits
        s.tokenFree o
        let b := if c = 0 then b else { b with expect := c.toNat, posted := true, ovr := false }
        .ok (queued ((s.fillWalks [(a, x)]).modBc t n fun _ => b))

/-- The end of a tick in every trigger unit: arms and cancels after the tick's writes, then the barriers fire (R391, R393). -/
def State.triggersOver (s : State) : State :=
  let s := s.towers.foldl (fun s e => e.2.trigCmds.foldl (fun s k => s.trigStep e.1 k) s) s
  s.towers.foldl (fun s e => s.modTower e.1 fun w => { w with bcs := w.bcs.map fun b => (b.1, b.2.fire) }) s

end Sys2Proof.Machine
end

