-- ==== Sys2Proof/Machine/CubeMath.lean ====
section
/-! DEFINITION. Arithmetic of the cube: operands in the faces (R201-R203), the unfolding unit (R210, R211), sparse operands
(R212, R213), the start check (R204, R434), the order of sums (R89-R91), snapshots (R221) and known answers (R228). -/

namespace Sys2Proof.Machine

/-! ### Shapes, headers and faces (R55, R196, R201) -/

/-- The cube half: valid rows and columns, reduction length and valid length. -/
def vmOf (h : ShapeReg) : Nat := bits h.toNat 84 78
def vnOf (h : ShapeReg) : Nat := bits h.toNat 91 85
def kOf (h : ShapeReg) : Nat := bits h.toNat 109 92
def vkOf (h : ShapeReg) : Nat := bits h.toNat 127 110

def hdrFmt (h : Nat) : BitVec 5 := BitVec.ofNat 5 h
def hdrWidth (h : Nat) : Nat := fmtWidth (hdrFmt h)
/-- Elements of a block; 0 without block scales (R81). -/
def hdrBlock (h : Nat) : Nat := match bits h 7 5 with | 0 => 0 | 1 | 2 => 8 | _ => 32
/-- The header of a layer's front phase. -/
def Quad.frontHdr (q : Quad) (l face : Nat) : Nat := (tget resetHdr q.hdr (hdrKey l face (facePhase q l face false))).toNat
/-- `n` bytes at `off` of a layer's front phase. -/
def Quad.frontRead (q : Quad) (l face off n : Nat) : Nat := leRead q.face (faceKey l face (facePhase q l face false) off) n
/-- Element `x` of `w` bits of a line at byte `off`. -/
def Quad.element (q : Quad) (l face off w x : Nat) : Nat :=
  (q.frontRead l face (off + x * w / 8) ((w + 7) / 8) >>> (x * w % 8)) % 2 ^ w

/-- An operand as a cell takes it: an exact FP32 pattern, or 32 bits of two's complement (R89, R90). -/
def cellValue (h : Nat) (book : BitVec 256) (x : Nat) : Nat :=
  let t := hdrFmt h
  if isCB4 t then fround 0x10 false false (fdecode 0x0F (bookEntry book x))
  else if isFloat t then fround 0x10 false false (fdecode t x)
  else wrapInt 32 (intDecode t x)
/-- A block scale (R82). -/
def scaleValue (h x : Nat) : FVal :=
  if bits h 7 5 % 2 = 1 then fdecode 0x0D x
  else if x = 255 then .nan else .fin false 1 ((x : Int) - 127)

/-! ### Operands of a command (R202, R210-R213) -/

/-- Named layers, ascending. -/
def CubeRun.layers (r : CubeRun) : List Nat := match r.plane with | some l => [l] | none => layersOf r.lmask
/-- First global position of the slice of the `i`-th named layer. -/
def CubeRun.base (r : CubeRun) (i : Nat) : Nat := if r.plane.isSome then 0 else i * r.q
def isConv : Instr → Bool | .cconv _ => true | _ => false
/-- Sparse products (R212). -/
def isSparse : Instr → Bool | .cmm o | .cmmz o => o.d.getLsbD 3 | _ => false
/-- Products that start from zero: `cmmz`, and a RUN state with ZERO, which `count` notes. -/
def CubeRun.zero (r : CubeRun) : Bool := match r.cmd.instr with | .cmmz _ => true | .cplane _ => decide (r.cmd.count = 1) | _ => false
def CubeRun.integer (r : CubeRun) : Bool := isIntFmt (hdrFmt r.hw)
def CubeRun.scaled (r : CubeRun) : Bool := decide (hdrBlock r.hw ≠ 0 ∨ hdrBlock r.hs ≠ 0)
/-- The entry of a table of layers. -/
def atLayer (t : List (Nat × BitVec 256)) (l : Nat) : Nat := ((t.find? fun e => e.1 = l).map fun e => e.2.toNat).getD 0

/-- A[m, k] of the unfolding unit as a byte-array element number, or none at the border (R211). -/
def unfold (u m k : Nat) : Option Nat :=
  let h := bits u 15 0
  let w := bits u 31 16
  let ch := bits u 47 32
  let kh := bits u 51 48 + 1
  let kw := bits u 55 52 + 1
  let ow := bits u 103 88
  let p := bits u 151 120 + m
  if kh = 0 ∨ ow = 0 ∨ ch = 0 ∨ ow * bits u 119 104 ≤ p then none else
  let iy : Int := (p / ow * (bits u 59 56 + 1) + k / (ch * kw) * (bits u 67 64 + 1) : Nat) - (bits u 79 72 : Nat)
  let ix : Int := (p % ow * (bits u 63 60 + 1) + k / ch % kw * (bits u 71 68 + 1) : Nat) - (bits u 87 80 : Nat)
  if 0 ≤ iy ∧ iy < h ∧ 0 ≤ ix ∧ ix < w then some ((iy.toNat * w + ix.toNat) * ch + k % ch) else none

/-- A[m, k] at local position `j` of layer `l`, the `i`-th named. -/
def CubeRun.west (r : CubeRun) (q : Quad) (i l m j : Nat) : Nat :=
  let w := hdrWidth r.hw
  if isConv r.cmd.instr then
    match unfold (atLayer r.unf l) m (r.base i + j) with
    | some x => cellValue r.hw r.bookA (q.element l 0 r.aoff w x)
    | none => 0
  else cellValue r.hw r.bookA (q.element l 0 (r.aoff + j * (8 * w)) w m)

/-- Number of live vectors below `v`. -/
def liveBelow (live v : Nat) : Nat := ((List.range v).filter fun i => bit live i).length
/-- Bytes of a stored vector: index block and sixteen lines. -/
def vectorBytes (w : Nat) : Nat := 256 + 128 * w
/-- The index word of column `n` of a stored vector, and its byte offset (R213). -/
def CubeRun.indexAt (r : CubeRun) (q : Quad) (l v n : Nat) : Nat × Nat :=
  let off := r.boff + liveBelow (atLayer r.live l) v * vectorBytes (hdrWidth r.hs)
  (q.frontRead l 1 (off + 4 * n) 4, off)
/-- B[k, n] at local position `j`; none where a sparse operand stores nothing. -/
def CubeRun.south (r : CubeRun) (q : Quad) (l n j : Nat) : Option Nat :=
  let w := hdrWidth r.hs
  if isSparse r.cmd.instr then
    if !bit (atLayer r.live l) (j / 32) then none else
    let (x, off) := r.indexAt q l (j / 32) n
    let g := j % 32 / 4
    let line := fun t => some (cellValue r.hs r.bookB (q.element l 1 (off + 256 + (2 * g + t) * (8 * w)) w n))
    if j % 4 = bits x (4 * g + 1) (4 * g) then line 0
    else if j % 4 = bits x (4 * g + 3) (4 * g + 2) then line 1
    else none
  else some (cellValue r.hs r.bookB (q.element l 1 (r.boff + j * (8 * w)) w n))
/-- The scale of a face at position `j` for row or column `x` (R203). -/
def CubeRun.scale (r : CubeRun) (q : Quad) (l face x j : Nat) : FVal :=
  let h := if face = 0 then r.hw else r.hs
  if hdrBlock h = 0 then .fin false 1 0
  else scaleValue h (q.frontRead l face (bits h 39 32 * 1024 + j / hdrBlock h * 64 + x) 1)

/-! ### Sums (R89-R91) -/

def f32 (x : Nat) : FVal := fdecode 0x10 x
def rne32 (v : FVal) : Nat := fround 0x10 false false v
/-- A cell: its partial, and the operand pairs of an open group of R91. -/
abbrev Cell64 := Nat × List (Nat × Nat)
/-- A group of R91 ends. -/
def closeGroup (a : Cell64) (s : FVal) : Cell64 :=
  if a.2.isEmpty then a else
  let q : FVal := a.2.foldl (fun (t : FVal) p => t.add ((f32 p.1).mul (f32 p.2))) (.fin false 0 0)
  (rne32 ((f32 a.1).add (f32 (rne32 (q.mul s)))), [])
/-- One position of a slice in cell (m, n). -/
def CubeRun.cellStep (r : CubeRun) (q : Quad) (i l m n : Nat) (a : Cell64) (j : Nat) : Cell64 :=
  let pair := if r.base i + j < vkOf r.cmd.shape then (r.south q l n j).map fun b => (r.west q i l m j, b) else none
  if r.scaled then
    let a := (a.1, a.2 ++ pair.toList)
    if j % 8 = 7 ∨ j + 1 = r.q then closeGroup a ((r.scale q l 0 m j).mul (r.scale q l 1 n j)) else a
  else match pair with
    | none => a
    | some (x, y) =>
      if r.integer then ((a.1 + x * y) % 2 ^ 32, []) else (rne32 ((f32 a.1).add ((f32 x).mul (f32 y))), [])
def cellKey (l m n : Nat) : Nat := 4096 * l + 64 * m + n
/-- A cell after `upto` positions, from the partial the run began with. -/
def CubeRun.cell (r : CubeRun) (q : Quad) (upto i l m n : Nat) : Cell64 :=
  ((List.range upto).drop r.point).foldl (r.cellStep q i l m n)
    (tget 0 r.part (cellKey l m n), tget [] r.open' (cellKey l m n))

/-- The product of the two tensor scales, where one is present (R89, R91). -/
def CubeRun.tensor (r : CubeRun) : Option FVal :=
  let one := fun h : Nat => if bit h 12 then fdecode 0x0F (bits h 31 16) else .fin false 1 0
  if r.scaled ∨ bit r.hw 12 ∨ bit r.hs 12 then some (f32 (rne32 ((one r.hw).mul (one r.hs)))) else none
/-- Partials, highest layer first, added to a base word. -/
def CubeRun.combine (r : CubeRun) (base : Nat) (parts : List Nat) : Nat :=
  if r.integer then parts.foldl (fun a p => (a + p) % 2 ^ 32) base else
  let t := match parts with | p :: rest => rest.foldl (fun t p => rne32 ((f32 t).add (f32 p))) p | [] => 0
  let t := match r.tensor with | some s => rne32 ((f32 t).mul s) | none => t
  rne32 ((f32 base).add (f32 t))
/-- The accumulator a product adds into: 0-3, or 4 plus the layer. -/
def CubeRun.target (r : CubeRun) : Nat :=
  match r.plane, r.cmd.instr with
  | some l, _ => 4 + l
  | none, .cmm o | none, .cmmz o | none, .cconv o => bits o.d.toNat 1 0
  | none, _ => 0
def accKey (target m n : Nat) : Nat := 4096 * target + 64 * m + n
/-- An accumulator word as if every slice ended after `upto` positions (R209, R221). -/
def CubeRun.word (r : CubeRun) (q : Quad) (upto m n : Nat) : BitVec 32 :=
  let old := tget 0 q.acc (accKey r.target m n)
  if m < vmOf r.cmd.shape ∧ n < vnOf r.cmd.shape then
    let parts := (r.layers.zipIdx.map fun e => (r.cell q upto e.2 e.1 m n).1).reverse
    BitVec.ofNat 32 (r.combine (if r.zero then 0 else old.toNat) parts)
  else old
/-- The cells of a command. -/
def CubeRun.cells (r : CubeRun) : List (Nat × Nat) :=
  (List.range (vmOf r.cmd.shape)).flatMap fun m => (List.range (vnOf r.cmd.shape)).map fun n => (m, n)
/-- The product reaches its end (R209). -/
def CubeRun.accumulate (r : CubeRun) (q : Quad) : Quad :=
  { q with acc := r.cells.foldl (fun t c => tset 0 t (accKey r.target c.1 c.2) (r.word q r.q c.1 c.2)) q.acc }
/-- The partials after `upto` positions, for a stop record (R223). -/
def CubeRun.partials (r : CubeRun) (q : Quad) (upto : Nat) : CubeRun :=
  let all := r.layers.zipIdx.flatMap fun e => r.cells.map fun c => (cellKey e.1 c.1 c.2, r.cell q upto e.2 e.1 c.1 c.2)
  { r with point := upto
           part := all.foldl (fun t e => tset 0 t e.1 e.2.1) []
           open' := all.foldl (fun t e => tset [] t e.1 e.2.2) [] }

/-! ### The start check (R204, R211, R213, R434) -/

/-- A line that starts within a phase does not pass its end. -/
def inPhase (off n : Nat) : Bool := decide (off + n ≤ 2 ^ 18)
/-- Headers of a face that agree over the layers and are valid. -/
def Quad.headersOk (q : Quad) (ls : List Nat) (face : Nat) : Bool :=
  let key := fun h : Nat => (bits h 12 0, bits h 39 16)
  ls.all fun l => bit (q.frontHdr l face) 13 && decide (key (q.frontHdr l face) = key (q.frontHdr (ls.headD 0) face))
/-- Element formats and geometries that a product takes. DESIGN CHOICE: of an integer and a floating operand R90 says that it is rejected
at load and R204 that the command ends CUBE_OPERAND; formats stand in headers, which the loader does not see, so the model takes R204
(log 71). -/
def formatsOk (hw hs : Nat) (sparse : Bool) : Bool :=
  let fp := fun h : Nat => decide (0x0A ≤ h % 32 ∧ h % 32 ≤ 0x0F)
  let int := fun h : Nat => decide (h % 32 ≤ 3)
  let geom := fun h : Nat => decide (bits h 7 5 = 0 ∨ (0x0A ≤ h % 32 ∧ h % 32 ≤ 0x0D))
  ((fp hw && fp hs) || (int hw && int hs)) && geom hw && geom hs && !(sparse && (hdrWidth hw = 16 || hdrWidth hs = 16))
/-- The service level accepts the product: BSL1 takes BF16 only, BSL2 no sparse one (R434). -/
def levelOk (level hw hs : Nat) (sparse : Bool) : Bool :=
  match level with
  | 0 => false
  | 1 => decide (hw % 32 = 0x0F ∧ hs % 32 = 0x0F) && !sparse
  | 2 => !sparse
  | _ => true
/-- The slice length (R202). -/
def sliceLength (n k hw hs : Nat) (plane sparse : Bool) : Nat :=
  let g := if sparse then 32 else max (max (hdrBlock hw) (hdrBlock hs)) 1
  if plane then k else g * ((k + g * n - 1) / (g * n))
/-- Scale lines of a slice fit. -/
def scalesFit (h n : Nat) : Bool :=
  decide (hdrBlock h = 0) || inPhase (bits h 39 32 * 1024) ((n + hdrBlock h - 1) / hdrBlock h * 64)
/-- The unfolding descriptor agrees with the command, and its input fits (R211). -/
def convOk (u k aoff w hw : Nat) : Bool :=
  let h := bits u 15 0
  let wd := bits u 31 16
  let ch := bits u 47 32
  decide (bits hw 7 5 = 0 ∧ k = (bits u 51 48 + 1) * (bits u 55 52 + 1) * ch ∧ bits u 255 152 = 0 ∧ 0 < h ∧ 0 < wd ∧ 0 < ch ∧
    0 < bits u 103 88 ∧ 0 < bits u 119 104) && inPhase aoff ((h * wd * ch * w + 7) / 8)
/-- Every index pair of a sparse operand is in order (R213). -/
def CubeRun.indexOk (r : CubeRun) (q : Quad) (l : Nat) : Bool :=
  (List.range ((r.q + 31) / 32)).all fun v => !bit (atLayer r.live l) v || (List.range 64).all fun n =>
    let x := (r.indexAt q l v n).1
    (List.range 8).all fun g => decide (bits x (4 * g + 1) (4 * g) < bits x (4 * g + 3) (4 * g + 2))

/-- Vectors of the slice of the `i`-th named layer, cut at K (R202). -/
def sliceVectors (n kk i : Nat) (plane : Bool) : Nat := ((if plane then kk else min kk ((i + 1) * n) - i * n) + 31) / 32
/-- A product at its start: what it latches, and its ticks of steps (R206, R214); none when the check fails. DESIGN CHOICE: of `cconv`,
whose west lines are never stored, the packed array is checked against the phase (R211) and not R204's Q lines (log 73). -/
def State.planRun (s : State) (q : Quad) (k : Cmd) (lmask : Nat) (plane : Option Nat) (aoff boff : Nat) : Option CubeRun :=
  let ls := match plane with | some l => [l] | none => layersOf lmask
  let hw := q.frontHdr (ls.headD 0) 0
  let hs := q.frontHdr (ls.headD 0) 1
  let sparse := isSparse k.instr
  let conv := isConv k.instr
  let ww := hdrWidth hw
  let ws := hdrWidth hs
  let w := max ww ws
  let kk := kOf k.shape
  let n := sliceLength ls.length kk hw hs plane.isSome sparse
  let live := ls.zipIdx.map fun e =>
    (e.1, (tget 0 q.smeta (32 * e.1 + bits k.sb.toNat 4 0)).toNat % 2 ^ sliceVectors n kk e.2 plane.isSome)
  let most := live.foldl (fun a e => max a (liveBelow e.2 256)) 0
  let unf := fun l : Nat => q.frontRead l 0 k.sb.toNat 32
  let items := if sparse then 16 * most else n
  let steps := (items * w + 7) / 8
  let r : CubeRun :=
    { cmd := k, lmask := lmask, plane := plane, start := s.tick, q := n, steps := steps, total := 80 + steps, wid := w,
      aoff := aoff, boff := boff, hw := hw, hs := hs, bookA := bookOf q (bits hw 11 8), bookB := bookOf q (bits hs 11 8),
      unf := if conv then ls.map fun l => (l, BitVec.ofNat 256 (unf l)) else [],
      live := if sparse then live.map fun e => (e.1, BitVec.ofNat 256 e.2) else [] }
  let ok := levelOk (bits s.dealer.bootstate.toNat 4 3) hw hs sparse && q.headersOk ls 0 && q.headersOk ls 1 &&
    formatsOk hw hs sparse && (conv || inPhase aoff (n * (8 * ww))) && scalesFit hw n && scalesFit hs n &&
    (if sparse then inPhase boff (most * vectorBytes ws) else inPhase boff (n * (8 * ws))) &&
    (!conv || ls.all fun l => convOk (unf l) kk aoff ww hw) && (!sparse || ls.all fun l => r.indexOk q l)
  if ok then some r else none

/-! ### Steps (R206, R214) -/

/-- Cube ticks that a run has spent in steps: the end of tick 7 + j, or none in its fill part. -/
def CubeRun.stepTick (r : CubeRun) : Option Nat := if r.ticks < 8 then none else some (min (r.ticks - 8) r.steps)
/-- Steps completed. How the positions of a sparse slice follow its ticks is not stated. -/
def CubeRun.done' (r : CubeRun) : Nat :=
  match r.stepTick with
  | none => r.point
  | some j =>
    if r.steps ≤ j then r.q
    else if isSparse r.cmd.instr then r.point + Config.number r.cmd.serial j % (r.q - r.point + 1)
    else min r.q (r.point + j * 8 / r.wid)
/-- A step boundary. -/
def CubeRun.boundary (r : CubeRun) : Bool :=
  match r.stepTick with
  | none => false
  | some j => decide (j * 8 % r.wid = 0) || decide (r.steps ≤ j)
/-- A boundary at which a snapshot may be taken: whole groups of a block-scaled command (R221). -/
def CubeRun.snapAt (r : CubeRun) : Bool := r.boundary && (!r.scaled || decide (r.done' % 8 = 0 ∨ r.done' = r.q))
/-- Fill and steps are behind the run. -/
def CubeRun.drained (r : CubeRun) : Bool := decide (8 + r.steps ≤ r.ticks)
/-- Positions that a read of the stop record takes: the restart point, at whole groups of a block-scaled command (R220, R221). -/
def CubeRun.snapPoint (r : CubeRun) : Nat := if r.scaled && decide (r.point < r.q) then r.point / 8 * 8 else r.point
/-- The run goes on from a restart point (R224). DESIGN CHOICE: it spends its 8 fill ticks again before the steps that are left (log
73). -/
def CubeRun.again (r : CubeRun) (t : Nat) : CubeRun :=
  let steps := if isSparse r.cmd.instr then Config.number r.cmd.serial 4096 % (r.steps + 1) else ((r.q - r.point) * r.wid + 7) / 8
  { r with start := t, ticks := 0, steps := steps, total := 80 + steps, halt := false }

/-! ### Known answers (R228) -/

/-- The generator's bytes. -/
def katBytes : Nat → Nat → List Nat
  | 0, _ => []
  | n + 1, x => let y := (x * 0x0019660D + 0x3C6EF35F) % 2 ^ 32; bits y 31 24 :: katBytes n y
/-- Rows of 64. -/
def rows64 : Nat → List Nat → List (List Int)
  | 0, _ => []
  | n + 1, l => (l.take 64).map (toSigned 8) :: rows64 n (l.drop 64)
/-- The signature of a seed. -/
def katSig (seed : Nat) : Nat :=
  let b := katBytes 8192 seed
  let a := rows64 64 b
  let bs := rows64 64 (b.drop 4096)
  let row := fun r : List Int => (r.zip bs).foldl (fun t e => t.zipWith (fun x y => x + e.1 * y) e.2) (List.replicate 64 0)
  let sum := (a.zipIdx).foldl (fun t r => ((row r.1).zipIdx).foldl (fun t e => t + toSigned 32 (wrapInt 32 e.1) * (64 * r.2 + e.2 + 1 : Nat)) t) 0
  wrapInt 64 sum

end Sys2Proof.Machine
end

