-- ==== Sys2Proof/Machine/Cube.lean ====
section
/-! DEFINITION. The cube instructions at issue (R195-R231). -/

namespace Sys2Proof.Machine

/-! ### The lease and the queue (R30-R32, R195, R205) -/

/-- The run accepts one more command. -/
def Lease.room (l : Lease) (t : Nat) : Bool := decide (l.count < 32) && decide (t < l.grant + 65536)
/-- A command is accepted under the run of the issuing context: NO_LEASE, SLIP past a limit of a RIGID run, or a wait for a
new grant. -/
def State.accept (s : State) : Except Halt State :=
  let q := quadOf s.cur
  let l := (s.quad q).lease
  if s.holds s.cur then
    if l.room s.tick then .ok (s.modQuad q fun x => { x with lease := { x.lease with count := x.lease.count + 1 } })
    else if s.inRigid s.cur then .error (.code 0x0D)
    else .error (.block 9 .wantLease)
  else if !s.inRigid s.cur && l.reqs.contains (s.cur % 16) then .error (.block 9 .none)
  else .error (.code 0x0B)

/-- Into the cube's command queue; a full one blocks. -/
def State.toCube (s : State) (k : Cmd) : Except Halt State := do
  unblocked (decide ((s.quad (quadOf s.cur)).cmdq.length < 8)) 1
  .ok ((s.issued k).modQuad (quadOf s.cur) fun q => { q with cmdq := q.cmdq ++ [k] })
/-- A read of the cube, outside the queue (R220, R229). -/
def State.toReads (s : State) (k : Cmd) : State :=
  (s.issued k).modQuad (quadOf s.cur) fun q => { q with reads := q.reads ++ [k] }

/-- A stopped command of another context holds the target or one of the layers: by its stop record, or by a sequencer that the stop
halted (R222, R224). -/
def State.stopHolds (s : State) (targets : List Nat) (lmask : Nat) : Bool :=
  let x := s.quad (quadOf s.cur)
  (x.stops.any fun r => r.run.cmd.g ≠ s.cur && (targets.contains r.target || r.run.lmask &&& lmask ≠ 0)) ||
    x.seqs.any fun e => e.2.held && bit lmask e.1 && x.planes.any fun p => decide (p.1.serial = e.2.serial ∧ p.1.g ≠ s.cur)
/-- LMASK of the words of R199, R208, R212, R217 and R230. -/
def lmaskOf (w : Word) : Nat := bits w.toNat 55 48
/-- The word has no bit outside `m`. -/
def onlyBits (w : Word) (m : Nat) : Except Halt Unit := ensure (decide (w &&& ~~~(BitVec.ofNat 64 m) = 0)) 0x08
/-- LMASK in place. -/
def lmaskBits : Nat := 0xFF * 2 ^ 48

/-! ### Products (R207-R211) -/

/-- The cube half in its ranges (R56). -/
def cubeShape (h : ShapeReg) : Except Halt Unit := ensure (cubeHalfOk (h.toNat / 2 ^ 64)) 0x09
/-- The operand word keeps R208. -/
def operandOk (w : Nat) : Bool :=
  decide (bits w 23 18 = 0 ∧ bits w 47 42 = 0 ∧ bits w 63 56 = 0 ∧ bits w 17 0 % 64 = 0 ∧ bits w 41 24 % 64 = 0 ∧ bits w 55 48 ≠ 0)
/-- PLANE of a product. -/
def isPlane : Instr → Bool | .cmm o | .cmmz o => o.d.getLsbD 2 | .cplane _ => true | _ => false
/-- A product at issue (R209); the face lines it reads are accesses of CLASS and SCOPE of MEMDEF (R295). -/
def State.product (s : State) (i : Instr) (o : FE) : Except Halt State := do
  let s ← s.accept
  let w := s.rs o.a
  let b := s.rs o.b
  let h := s.readSh o.sh.toNat
  let plane := isPlane i
  let lm := lmaskOf w
  let n := bits o.d.toNat 1 0
  ensure (operandOk w.toNat && !(plane && decide (n ≠ 0))) 0x08
  ensure (!isSparse i || decide (b.toNat < 32)) 0x08
  ensure (!isConv i || decide (b.toNat % 64 = 0 ∧ b.toNat < 2 ^ 18)) 0x08
  cubeShape h
  let m := (layersOf lm).length
  ensure (decide ((if plane then kOf h else (kOf h + m - 1) / m) ≤ 8192)) 0x09
  ensure (!s.stopHolds (if plane then [] else [n]) lm) 0x08
  s.tokenFree o
  s.toCube { s.newCmd i o s.defMods with sa := w, sb := b, shape := h }
/-- `cmm` (R209). -/
def execCmm (o : FE) (s : State) : Out := s.syl (.cmm o) fun s => s.product (.cmm o) o
/-- `cmmz` (R209). -/
def execCmmz (o : FE) (s : State) : Out := s.syl (.cmmz o) fun s => s.product (.cmmz o) o
/-- `cconv` (R210). -/
def execCconv (o : FE) (s : State) : Out := s.syl (.cconv o) fun s => s.product (.cconv o) o

/-! ### Sequencers and metadata (R212, R216, R217) -/

/-- `cplane`: the layers' sequencers start (R216). -/
def execCplane (o : FE) (s : State) : Out :=
  s.syl (.cplane o) fun s => do
    let s ← s.accept
    let w := s.rs o.a
    let h := s.readSh o.sh.toNat
    onlyBits w lmaskBits
    cubeShape h
    ensure (decide (kOf h ≤ 8192)) 0x09
    ensure (!s.stopHolds [] (lmaskOf w)) 0x08
    s.tokenFree o
    s.toCube { s.newCmd (.cplane o) o s.defMods with sa := w, shape := h }
/-- `csmeta`: an entry of the sparsity metadata (R212). -/
def execCsmeta (o : FE) (s : State) : Out :=
  s.syl (.csmeta o) fun s => do
    let s ← s.accept
    let w := s.rs o.a
    onlyBits w (lmaskBits + 31)
    s.tokenFree o
    s.toCube { s.newCmd (.csmeta o) o s.defMods with sa := w, sb := s.rs o.b }
/-- `cseq`: a sequencer table (R217). -/
def execCseq (o : FE) (s : State) : Out :=
  s.syl (.cseq o) fun s => do
    let s ← s.accept
    let w := s.rs o.a
    onlyBits w (lmaskBits + 63)
    s.tokenFree o
    s.toCube { s.newCmd (.cseq o) o s.defMods with sa := w, sb := s.rs o.b }

/-! ### Faces (R197-R199) -/

/-- The fill word and count keep R197. -/
def fillOk (n w : Nat) : Bool :=
  decide (bits w 63 56 = 0 ∧ bits w 23 23 = 0) &&
    match bits w 22 21 with
    | 0 => decide (bits w 55 48 ≠ 0 ∧ bits w 17 0 % 64 = 0 ∧ n % 64 = 0 ∧ 64 ≤ n ∧ bits w 17 0 + n ≤ 2 ^ 18)
    | 1 => decide (bits w 55 48 = 0 ∧ bits w 17 4 = 0 ∧ bits w 3 0 ≠ 0 ∧ n = 32)
    | _ => false
/-- The physical back phase of each layer of a face, as bits. -/
def Quad.backPhases (q : Quad) (face : Nat) : MaskReg :=
  BitVec.ofNat 1024 ((List.range 8).foldl (fun a l => a + facePhase q l face true * 2 ^ l) 0)
/-- `cfill`: into the copy engine's queue; the phase it fills is fixed now (R197). -/
def execCfill (o : FE) (s : State) : Out :=
  s.syl (.cfill o) fun s => do
    let s ← s.accept
    let w := s.rs o.a
    let n := s.rs o.d
    ensure (fillOk n.toNat w.toNat) 0x08
    s.tokenFree o
    let act := (s.quad (quadOf s.cur)).backPhases (bits w.toNat 18 18)
    s.toCopy { s.newCmd (.cfill o) o s.defMods with sd := n, sa := w, sb := s.rs o.b, act := act }
/-- `cswap` (R199). -/
def execCswap (o : FE) (s : State) : Out :=
  s.syl (.cswap o) fun s => do
    let s ← s.accept
    let w := s.rs o.a
    onlyBits w (lmaskBits + 3 * 2 ^ 24)
    ensure (decide (lmaskOf w ≠ 0 ∧ bits w.toNat 25 24 ≠ 0)) 0x08
    ensure (!s.stopHolds [] (lmaskOf w)) 0x08
    s.tokenFree o
    s.toCube { s.newCmd (.cswap o) o {} with sa := w }

/-! ### Accumulators (R219, R220, R222) -/

/-- The selector keeps R219. -/
def selectorOk (w : Nat) : Bool := decide (bits w 63 11 = 0) && (bit w 7 || decide (bits w 10 8 = 0))
/-- The accumulator a selector names. -/
def selTarget (w : Nat) : Nat := if bit w 7 then 4 + bits w 10 8 else bits w 6 5
/-- `crdacc` (R220). -/
def execCrdacc (o : FE) (s : State) : Out :=
  s.syl (.crdacc o) fun s => do
    let s ← s.accept
    let w := s.rs o.a
    ensure (selectorOk w.toNat) 0x08
    s.tokenFree o
    let dest : List RegId := [⟨tileFile (feCl o), s.spec 64 o.d⟩, ⟨.s, s.spec 64 o.b⟩]
    .ok (s.toReads { s.newCmd (.crdacc o) o {} with sa := w, dest := dest })
/-- `cwracc` (R222). -/
def execCwracc (o : FE) (s : State) : Out :=
  s.syl (.cwracc o) fun s => do
    let s ← s.accept
    let w := s.rs o.b
    ensure (selectorOk w.toNat) 0x08
    ensure (!s.stopHolds [selTarget w.toNat] (if bit w.toNat 7 then 2 ^ bits w.toNat 10 8 else 0)) 0x08
    s.tokenFree o
    s.toCube { s.newCmd (.cwracc o) o {} with sb := w, td := s.rv (feCl o) o.a }

/-! ### Joins and checks (R218, R228-R230) -/

/-- `cdrain` (R218). -/
def execCdrain (o : FE) (s : State) : Out :=
  s.syl (.cdrain o) fun s => do
    let s ← s.accept
    let w := s.rs o.a
    onlyBits w lmaskBits
    ensure (!o.d.getLsbD 0 || decide (lmaskOf w ≠ 0)) 0x08
    s.tokenFree o
    s.toCube { s.newCmd (.cdrain o) o {} with sa := w }
/-- `ckat` (R228). -/
def execCkat (o : FE) (s : State) : Out :=
  s.syl (.ckat o) fun s => do
    let s ← s.accept
    let w := s.rs o.a
    onlyBits w (2 ^ 35 - 1)
    s.tokenFree o
    s.toCube { s.newCmd (.ckat o) o {} with sa := w, sb := s.rs o.b }
/-- `cstat`: no lease, no queue (R229). -/
def execCstat (o : FE) (s : State) : Out :=
  s.syl (.cstat o) fun s => do
    let w := s.rs o.a
    onlyBits w 0xFFFF
    ensure (decide (bits w.toNat 7 0 ≤ 5)) 0x08
    s.tokenFree o
    .ok (s.toReads { s.newCmd (.cstat o) o {} with sa := w, dest := [⟨.s, s.spec 64 o.d⟩] })
/-- `cbist` (R230). -/
def execCbist (o : FE) (s : State) : Out :=
  s.syl (.cbist o) fun s => do
    let s ← s.accept
    let w := s.rs o.a
    onlyBits w (lmaskBits + 3)
    ensure (decide (bits w.toNat 1 0 ≠ 3)) 0x08
    s.tokenFree o
    s.toCube { s.newCmd (.cbist o) o {} with sa := w }

end Sys2Proof.Machine
end

