-- ==== Sys2Proof/Machine/CubeEngine.lean ====
section
/-! DEFINITION. The cube at work: dispatch (R205), planes (R215), sequencers (R216, R369), ends (R199, R206, R212-R218,
R222, R228, R230), reads (R220, R229), stops (R223, R224) and recovery (R225, R226). -/

namespace Sys2Proof.Machine

/-! ### Layers (R205) -/

def Quad.seq (q : Quad) (l : Nat) : Seq := tget {} q.seqs l
def Quad.setSeq (q : Quad) (l : Nat) (x : Seq) : Quad := { q with seqs := tset {} q.seqs l x }
/-- A run is a matrix product, and no SWAP of a sequencer (2 ticks). -/
def CubeRun.product (r : CubeRun) : Bool :=
  (match r.cmd.instr with | .cmm _ | .cmmz _ | .cconv _ | .cplane _ => true | _ => false) && decide (r.total ≠ 2)
/-- Layers that a run occupies: a cube-mode product takes all eight (R205). -/
def CubeRun.covers (r : CubeRun) : Nat := if r.plane.isNone && r.product then 255 else r.lmask
/-- No command runs on the layer, and its sequencer is halted. DESIGN CHOICE: one that a stop holds counts as halted, also for a `cseq` of another
context, which R224 does not keep from the layer (log 84). -/
def Quad.layerOpen (q : Quad) (l : Nat) : Bool :=
  (q.runs.all fun r => !bit r.covers l) && (!(q.seq l).running || (q.seq l).held)
/-- The layer is idle (R205). -/
def Quad.layerIdle (q : Quad) (l : Nat) : Bool := q.layerOpen l && decide (tget [] q.planeq l = [])
/-- The accumulator that a running command writes. -/
def CubeRun.writes (r : CubeRun) : Option Nat :=
  match r.cmd.instr with
  | .cwracc _ => some (selTarget r.cmd.sb.toNat)
  | _ => if r.product then some r.target else none
/-- Commands that go to the plane queues. -/
def Cmd.planed (k : Cmd) : Bool := isPlane k.instr
/-- Layers whose plane queue takes the command: those of LMASK, or, after a stop, those it has not started on. -/
def Cmd.planeMask (k : Cmd) : Nat := if k.started then k.sd.toNat else lmaskOf k.sa
/-- Layers that a command touches. DEDUCED: `cbist` touches all eight, for R230 says that it touches every layer where R205 says the named ones
(log 80). -/
def Cmd.touches (k : Cmd) : Nat :=
  match k.instr with
  | .cmm _ | .cmmz _ | .cconv _ | .cbist _ => 255
  | .ckat _ => 2 ^ bits k.sa.toNat 34 32
  | .cwracc _ => if bit k.sb.toNat 7 then 2 ^ bits k.sb.toNat 10 8 else 0
  | .cdrain _ => if lmaskOf k.sa = 0 then 255 else lmaskOf k.sa
  | _ => lmaskOf k.sa
/-- A command may dispatch by its layers and target (R205). DESIGN CHOICE: a `cdrain` does not wait for earlier commands that a stop has
parked or recorded for another context: they have left the queue (R218, R223; log 80). -/
def Quad.takes (q : Quad) (k : Cmd) : Bool :=
  if k.planed then (layersOf k.planeMask).all fun l => decide ((tget [] q.planeq l).length < 4)
  else
    (layersOf k.touches).all q.layerIdle &&
    match k.instr with
    | .cwracc _ => q.runs.all fun r => r.writes ≠ some (selTarget k.sb.toNat)
    | .cmm o | .cmmz o | .cconv o => q.runs.all fun r => r.writes ≠ some (bits o.d.toNat 1 0)
    | .cdrain _ => decide (lmaskOf k.sa ≠ 0) || q.runs.isEmpty
    | _ => true

/-! ### Ends of plane work (R204, R215, R218) -/

/-- A layer has finished with a plane command; the last one ends it. Work accepted before the last join leaves no F (R218). -/
def State.endPiece (s : State) (q serial l : Nat) (err : List Nat) : State :=
  let x := s.quad q
  let x := { x with fin := if x.joinAt < serial then tset none x.fin l (some s.tick) else x.fin }
  match x.planes.find? fun p => p.1.serial = serial with
  | none => s.setQuad q x
  | some (k, m) =>
    let k := { k with errs := k.errs ++ err }
    let m := m &&& (255 - 2 ^ l)
    let rest := x.planes.filter fun p => p.1.serial ≠ serial
    if m = 0 then
      let log := x.log.map fun e => if e.1.serial = serial then (e.1, e.2.1, true) else e
      (s.setQuad q { x with planes := rest, log := log }).endCmd k [] 0 false
    else s.setQuad q { x with planes := x.planes.map fun p => if p.1.serial = serial then (k, m) else p }

/-! ### Sequencers (R216, R368, R369) -/

/-- The state entry of a layer's sequencer. -/
def Quad.entry (q : Quad) (l : Nat) : Nat := (tget 0 q.stab (64 * l + (q.seq l).state)).toNat
/-- The plane command that a layer works on. -/
def Quad.plane (q : Quad) (serial : Nat) : Option Cmd := (q.planes.find? fun p => p.1.serial = serial).map (·.1)
/-- The sequencer of a layer halts. -/
def State.seqHalt (s : State) (q l : Nat) (err : List Nat) : State :=
  let x := s.quad q
  let z := x.seq l
  (s.setQuad q (x.setSeq l { z with running := false, held := false, acted := false })).endPiece q z.serial l err
/-- Offset of a RUN state. -/
def seqOffset (e base stride c : Nat) : Nat := bits e (base + 17) base + 64 * bits e (stride + 11) stride * c
/-- The sequencer of a layer enters its state. DESIGN CHOICE: a RUN that fails its check halts the sequencer and ends the `cplane` DONE_ERR,
and the results of its earlier RUNs stay in the pacc, although R231 says of such a command that it changes no accumulator (R369; log 80). -/
def State.seqEnter (s : State) (q l : Nat) : State :=
  let x := s.quad q
  let z := x.seq l
  let e := x.entry l
  match bits e 1 0, x.plane z.serial with
  | 0, some k =>
    let c := tget 0 z.c (bits e 93 92)
    let a := seqOffset e 32 68 c
    let b := seqOffset e 50 80 c
    let k := { k with shape := z.shape, count := if bit e 2 then 1 else 0 }
    if 2 ^ 18 - 64 < a ∨ 2 ^ 18 - 64 < b then s.seqHalt q l [1]
    else match s.planRun x k (2 ^ l) (some l) a b with
      | some r => s.setQuad q { (x.setSeq l { z with acted := false }) with runs := x.runs ++ [{ r with seq := true }] }
      | none => s.seqHalt q l [1]
  | 1, some k =>
    let r : CubeRun := { cmd := k, lmask := 2 ^ l, plane := some l, seq := true, start := s.tick, total := 2 }
    s.setQuad q { (x.setSeq l { z with acted := false }) with runs := x.runs ++ [r] }
  | 2, some _ => s.setQuad q (x.setSeq l { z with acted := true, ticks := 0 })
  | _, _ => s.seqHalt q l []
/-- The counters after COP. -/
def seqCount (e : Nat) (c : Tbl Nat) : Tbl Nat :=
  let i := bits e 25 24
  let v := tget 0 c i
  match bits e 27 26 with
  | 1 => tset 0 c i (v - 1)
  | 2 => tset 0 c i (bits e 119 96)
  | 3 => tset 0 c i ((v + 1) % 2 ^ 24)
  | _ => c
/-- COND of a state. -/
def Quad.seqCond (q : Quad) (l e : Nat) (c : Tbl Nat) : Bool :=
  let full := fun face => (tget resetHdr q.hdr (hdrKey l face (facePhase q l face true))).getLsbD 14
  match bits e 8 6 with
  | 0 => true
  | 1 => decide (tget 0 c (bits e 5 4) = 0)
  | 2 => full 0
  | 3 => full 1
  | _ => decide (bits e 11 9 ≤ tget 0 q.gov l)
/-- A transition is due. -/
def Quad.seqDue (q : Quad) (l : Nat) : Bool :=
  let z := q.seq l
  z.running && !z.held && z.acted && decide (1 ≤ z.ticks)
/-- SEQUENCER_TRANSITION: a WAIT holds until its condition does. -/
def execSequencerTransition (q l : Nat) (s : State) : Out :=
  let x := s.quad q
  let z := x.seq l
  let e := x.entry l
  let c := seqCount e z.c
  let go := fun n : Nat => (s.setQuad q (x.setSeq l { z with c := c, state := n, acted := false, ticks := 0 })).seqEnter q l
  let next :=
    if bits e 1 0 = 2 then
      if x.seqCond l e z.c then go (bits e 17 12) else s.setQuad q (x.setSeq l { z with ticks := 0 })
    else if x.seqCond l e c then go (bits e 17 12) else go (bits e 23 18)
  event (x.seqDue l) s next

/-! ### Starts on a layer -/

/-- The head of a layer's plane queue. -/
def Quad.planeHead (q : Quad) (l : Nat) : Option Cmd :=
  if !q.layerOpen l then none else
  match tget [] q.planeq l with | n :: _ => q.plane n | [] => none
/-- Where the sequencer of a layer stood behind its last SWAP for command `serial`: its state and counters (R419). -/
def Quad.behindSwap (q : Quad) (serial l : Nat) : Option (Nat × Tbl Nat) :=
  (q.backs.find? fun b => decide (b.1 = serial ∧ b.2.1 = l)).map (·.2.2)
/-- PLANE_LAYER_START: a product, under its own check (R204), or a sequencer (R216), from state 0; one that a recovery starts again goes on
behind its last SWAP (R419). -/
def State.planeStart (s : State) (q l : Nat) (k : Cmd) : State :=
  let x := s.quad q
  let x := { x with planeq := tset [] x.planeq l ((tget [] x.planeq l).drop 1) }
  let s := s.setQuad q x
  match k.instr with
  | .cplane _ =>
    if tget 0 x.slen l = 0 then s.endPiece q k.serial l [6]
    else
      let z : Seq := { running := true, serial := k.serial, shape := k.shape }
      match x.behindSwap k.serial l with
      | some (n, c) => s.setQuad q (x.setSeq l { z with state := n, c := c, acted := true })
      | none => (s.setQuad q (x.setSeq l z)).seqEnter q l
  | _ =>
    match s.planRun x k (2 ^ l) (some l) (bits k.sa.toNat 17 0) (bits k.sa.toNat 41 24) with
    | some r => s.setQuad q { x with runs := x.runs ++ [r] }
    | none => s.endPiece q k.serial l [1]
def execPlaneLayerStart (q l : Nat) (s : State) : Out :=
  match (s.quad q).planeHead l with
  | some k => .next (s.planeStart q l k)
  | none => .next s

/-! ### Dispatch (R205, R224, R225) -/

/-- Ticks that a read of a table takes: within the bound of the farthest tier that it reaches (R233). In a RIGID phase they depend on the tick from
T0, the cube and the command alone, for its end comes at the same tick on every run (R44). -/
def State.tableWait (s : State) (q : Nat) (k : Cmd) : Nat :=
  let tier := farthest (q / 48) (s.tablePas k)
  1 + match k.launch.bind s.launch with
    | some l => if l.rigidAt k.phase then tierDelay tier (((s.tick - l.t0) * 256 + q) * 2 ^ 64 + k.sa.toNat) 9 else tierDelay tier k.serial 6
    | none => tierDelay tier k.serial 6
/-- A command dispatches: it is logged for a recovery (R225), and starts on its layers. -/
def State.cubeStart (s : State) (q : Nat) (x : Quad) (k : Cmd) : State :=
  let x := if k.started then x else
    { x with log := x.log ++ [(k, 255, false)], undone := x.undone.filter fun e => e.1 ≠ k.serial }
  let plain := fun (lmask total : Nat) =>
    s.setQuad q { x with runs := x.runs ++ [{ cmd := k, lmask := lmask, start := s.tick, total := total }] }
  match k.instr with
  | .cswap _ => plain (lmaskOf k.sa) 2
  | .cwracc _ => plain k.touches 8
  | .csmeta _ | .cseq _ =>
    let run : CubeRun := { cmd := { k with asked := s.tick }, lmask := lmaskOf k.sa, start := s.tick, total := s.tableWait q k }
    s.setQuad q { x with runs := x.runs ++ [run] }
  | .cdrain _ => plain 0 0
  | .ckat _ => plain k.touches 144
  | .cbist _ => plain 255 (match bits k.sa.toNat 1 0 with | 0 => 2048 | 1 => 33024 | _ => 512)
  | _ =>
    if k.planed then
      let m := k.planeMask
      let planeq := (layersOf m).foldl (fun t l => tset [] t l (tget [] t l ++ [k.serial])) x.planeq
      let seqs := if k.started then x.seqs.map fun e => if e.2.serial = k.serial then (e.1, { e.2 with held := false }) else e else x.seqs
      let planes := if k.started then x.planes else x.planes ++ [(k, m)]
      if m = 0 ∧ !k.started then (s.setQuad q x).endCmd k [] 0 false
      else s.setQuad q { x with planeq := planeq, seqs := seqs, planes := planes }
    else match s.planRun x k (lmaskOf k.sa) none (bits k.sa.toNat 17 0) (bits k.sa.toNat 41 24) with
      | some r => s.setQuad q { x with runs := x.runs ++ [r] }
      | none => (s.setQuad q x).endCmd { k with errs := [1] } [] 0 false
/-- A stopped command goes on from its restart point (R224). -/
def State.cubeResume (s : State) (q : Nat) (x : Quad) (r : StopRec) : State :=
  let seqs := if r.run.seq then x.seqs.map fun e => if some e.1 = r.run.plane then (e.1, { e.2 with held := false }) else e else x.seqs
  s.setQuad q { x with stops := x.stops.filter fun t => t.target ≠ r.target, seqs := seqs, runs := x.runs ++ [r.run.again s.tick] }
/-- The command that dispatches now: those of a recovery first, then what the lease holder left at a stop, then the queue. Neither of these
starts before the armed tick of a cube that its phase names (R17, R358). -/
def State.cubeDispatch (s : State) (q : Nat) : Option State :=
  let x := s.quad q
  match x.redo with
  | k :: rest => if x.takes k then some (s.cubeStart q { x with redo := rest } k) else none
  | [] =>
    let mine := fun k : Cmd => decide (x.lease.holder.map (16 * q + ·) = some k.g)
    match x.stops.find? fun r => mine r.run.cmd with
    | some r => if (layersOf r.run.covers).all x.layerOpen && s.engineOpen (3072 + q) r.run.cmd then some (s.cubeResume q x r) else none
    | none =>
      match x.parked.find? mine with
      | some k =>
        let x' := { x with parked := x.parked.filter fun h => h.serial ≠ k.serial }
        if x.takes k && (k.started || s.ready k) && s.engineOpen (3072 + q) k then some (s.cubeStart q x' k) else none
      | none =>
        match x.cmdq with
        | k :: rest =>
          if x.takes k && s.ready k && s.engineOpen (3072 + q) k then some (s.cubeStart q { x with cmdq := rest } k) else none
        | [] => none
/-- CUBE_COMMAND_DISPATCH. -/
def execCubeCommandDispatch (q : Nat) (s : State) : Out := .next ((s.cubeDispatch q).getD s)

/-! ### Ends -/

/-- Face words a run reads: its lines so far, and its scales, index blocks and unfolding descriptor (R201-R203). -/
def CubeRun.reads (r : CubeRun) (l face off : Nat) : Bool :=
  let i := isConv r.cmd.instr
  let h := if face = 0 then r.hw else r.hs
  let inside := fun a n : Nat => decide (off < a + n ∧ a < off + 8)
  let w := hdrWidth h
  let u := atLayer r.unf l
  let lines :=
    if face = 0 ∧ i then inside r.aoff ((bits u 15 0 * bits u 31 16 * bits u 47 32 * w + 7) / 8) || inside r.cmd.sb.toNat 32
    else if face = 1 ∧ isSparse r.cmd.instr then inside r.boff (liveBelow (atLayer r.live l) 256 * vectorBytes w)
    else inside (if face = 0 then r.aoff else r.boff) (r.done' * (8 * w))
  lines || (decide (hdrBlock h ≠ 0) && inside (bits h 39 32 * 1024) ((r.q + hdrBlock h - 1) / max (hdrBlock h) 1 * 64))
/-- A product has read an uncorrectable word of a layer's front phase (R225). -/
def Quad.readsBad (q : Quad) (r : CubeRun) (l face : Nat) : Bool :=
  let base := faceKey l face (facePhase q l face false) 0
  r.product && decide (8 ≤ r.ticks) && r.layers.contains l &&
    q.faceBad.any fun u => decide (base ≤ u ∧ u < base + 2 ^ 18) && r.reads l face (u - base)
/-- Layer and face of an uncorrectable word that a product reads. -/
def Quad.badRead (q : Quad) : Option (Nat × Nat) :=
  q.runs.findSome? fun r => r.layers.findSome? fun l => [0, 1].findSome? fun face => if q.readsBad r l face then some (l, face) else none
/-- Corrected words that an ended product has read are counted (R248). DESIGN CHOICE: PAYLOAD of the record is the word's FACE key, for a FACE
word has no physical address (R236, R324; log 84). -/
def State.faceSoft (s : State) (x : Quad) (r : CubeRun) : State :=
  (r.layers.flatMap fun l => [0, 1].flatMap fun face =>
    let base := faceKey l face (facePhase x l face false) 0
    x.faceSoft.filter fun u => decide (base ≤ u ∧ u < base + 2 ^ 18) && r.reads l face (u - base)).foldl (fun s u =>
      let s := s.vfSat r.cmd.vf 0x10 1 1
      if s.subscribes r.cmd.vf r.cmd.g 3 then
        s.postTo r.cmd.vf r.cmd.g { kind := 6, tag := 1, time := s.tick, payload := u } else s) s

/-- Words of some targets, replaced by another table's (R199, R225). -/
def copyTargets (ts : List Nat) (dst src : Tbl (BitVec 32)) : Tbl (BitVec 32) :=
  let keep := dst.filter fun e => !ts.contains (e.1 / 4096)
  (src.filter fun e => ts.contains (e.1 / 4096)).foldr (fun e t => tset 0 t e.1 e.2) keep
/-- Faces and layers exchange front and back (R196, R199): new back phases take reset headers; the shadows and the marks of
R225 and R226 start anew. `keep`: of a sequencer's SWAP, its `cplane` and the commands that wait behind it on the layer: they read the
new front phases, so a recovery of the layer still takes them back. -/
def Quad.swap (q : Quad) (faces : List Nat) (lmask : Nat) (keep : List Nat := []) : Quad :=
  let ls := layersOf lmask
  let pairs := ls.flatMap fun l => faces.map fun f => (l, f)
  let olds := pairs.map fun p => hdrKey p.1 p.2 (facePhase q p.1 p.2 false)
  let ts := [0, 1, 2, 3] ++ ls.map (4 + ·)
  { q with
    front := pairs.foldl (fun m p => m ^^^ 2 ^ (2 * p.1 + p.2)) q.front
    hdr := olds.foldl (fun t h => tset resetHdr t h resetHdr) q.hdr
    fills := olds.foldl (fun t h => tset [] t h []) q.fills
    shadow := copyTargets ts q.shadow q.acc
    log := (q.log.map fun e => if keep.contains e.1.serial then e else (e.1, e.2.1 &&& (255 - lmask), e.2.2)).filter fun e => e.2.1 ≠ 0
    backs := q.backs.filter fun b => keep.contains b.1 || !ls.contains b.2.1
    undone := q.undone.map fun e => if keep.contains e.1 then e else (e.1, e.2 &&& (255 - lmask))
    touched := q.touched.filter fun t => !ts.contains t
    recovered := q.recovered.filter fun h => !olds.contains h }

/-- Bytes that a cube command reads from memory (R212, R217). -/
def Work.cubeRead (va : Word) : Nat → Work → Work × Option Nat
  | 0, a => (a, some 0)
  | n + 1, a =>
    let a := a.fillMeet va
    match a.s.fillByte a.k va with
    | none => (a, none)
    | some (t, b) => let (a, r) := Work.cubeRead (va + 1) n { a with s := t }; (a, r.map fun v => b.toNat + 256 * v)
def cubeRead (k : Cmd) (va : Word) (n : Nat) (s : State) : State × Option Nat :=
  let (a, r) := Work.cubeRead va n { s := s, k := k }
  (a.s, r)

/-- `csmeta` ends (R212). -/
def State.endMeta (s : State) (q : Nat) (k : Cmd) : State :=
  let ls := layersOf (lmaskOf k.sa)
  match cubeRead k k.sb (32 * ls.length) s with
  | (s, none) => s.endCmd { k with errs := [2] } [] 0 false
  | (s, some v) =>
    let put := fun (t : Tbl (BitVec 256)) (e : Nat × Nat) =>
      tset 0 t (32 * e.1 + bits k.sa.toNat 4 0) (BitVec.ofNat 256 (v >>> (256 * e.2)))
    (s.modQuad q fun x => { x with smeta := ls.zipIdx.foldl put x.smeta }).endCmd k [] 0 false

/-- A state entry passes R369. DEDUCED: so must AOFF and BOFF of a RUN be multiples of 64, as R368 gives them; R369's list does not name the case
(log 84). -/
def seqOk (n e : Nat) : Bool :=
  let act := bits e 1 0
  decide (bits e 3 3 = 0 ∧ bits e 31 28 = 0 ∧ bits e 95 94 = 0 ∧ bits e 127 120 = 0 ∧ bits e 8 6 ≤ 4 ∧ bits e 17 12 < n ∧ bits e 23 18 < n) &&
    match act with
    | 0 => decide (bits e 49 32 % 64 = 0 ∧ bits e 67 50 % 64 = 0)
    | 1 => decide (bits e 33 32 ≠ 0)
    | 2 => decide (bits e 23 18 = 0)
    | _ => decide (e = 3)
/-- `cseq` ends (R217). -/
def State.endSeq (s : State) (q : Nat) (k : Cmd) : State :=
  let ls := layersOf (lmaskOf k.sa)
  let n := bits k.sa.toNat 5 0 + 1
  let load := fun (len : Nat) (v : Nat) (x : Quad) =>
    { x with
      slen := ls.foldl (fun t l => tset 0 t l len) x.slen
      stab := ls.foldl (fun t l => (List.range 64).foldl (fun t i =>
        tset 0 t (64 * l + i) (if i < len then BitVec.ofNat 128 (v >>> (128 * i)) else 0)) t) x.stab }
  match cubeRead k k.sb (16 * n) s with
  | (s, none) => (s.modQuad q (load 0 0)).endCmd { k with errs := [2] } [] 0 false
  | (s, some v) =>
    if (List.range n).all fun i => seqOk n (bits v (128 * i + 127) (128 * i)) then (s.modQuad q (load n v)).endCmd k [] 0 false
    else (s.modQuad q (load 0 0)).endCmd { k with errs := [6] } [] 0 false

/-- The join payload of R218. -/
def Quad.joinWord (q : Quad) (lmask : Nat) : Nat :=
  let fs := (layersOf lmask).filterMap fun l => (tget none q.fin l).map fun f => (l, f)
  match fs with
  | [] => lmask * 2 ^ 40
  | (l, f) :: rest =>
    let top := rest.foldl (fun (b : Nat × Nat) e => if b.2 < e.2 then e else b) (l, f)
    let low := rest.foldl (fun b e => min b e.2) f
    (top.2 - low) % 2 ^ 32 + top.1 * 2 ^ 32 + lmask * 2 ^ 40
/-- `cdrain` ends (R218). -/
def State.endDrain (s : State) (q : Nat) (k : Cmd) : State :=
  let x := s.quad q
  let w := x.joinWord (lmaskOf k.sa)
  let join : Bool := match k.instr with | .cdrain o => o.d.getLsbD 0 | _ => false
  let x' := { x with join := BitVec.ofNat 64 w, fin := [], joinAt := k.serial }
  (if join then s.setQuad q x' else s).endCmd k [] w true

/-- `ckat` ends (R228, R406, R420). -/
def State.endKat (s : State) (q : Nat) (k : Cmd) : State :=
  let l := bits k.sa.toNat 34 32
  let sig := katSig (bits k.sa.toNat 31 0)
  if sig = k.sb.toNat then s.endCmd k [] sig true else
  let x := s.quad q
  let first := !bit x.katTold l
  let s := s.setQuad q { x with katerr := tset 0 x.katerr l (satAdd 16 (tget 0 x.katerr l) 1), katTold := x.katTold ||| 2 ^ l }
  let r : EvRec := { kind := 5, tag := l, time := s.tick, payload := sig }
  let frames := (s.vf k.vf).saved.filterMap fun e => if e.2.isSome ∧ quadOf e.1 = q then some (frameOf e.1) else none
  let gs := ((List.range 16).map (16 * q + ·)).filter (fun g => (s.ctx g).state ≠ 0) ++ frames
  let s := gs.foldl (fun s g => if s.subscribes k.vf g 2 then s.postTo k.vf g r else s) s
  let s := if first then s.notice k.vf (slotOf k.g) k.pc 4 k.launch 0 else s
  s.endCmd { k with errs := [4] } [] sig true

/-- A self-test of the layers in `m` leaves them zero or invalid, and `res` in BISTRES (R230). -/
def Quad.tested (x : Quad) (m res : Nat) : Quad :=
  let ls := layersOf m
  let off := fun l : Nat => !ls.contains l
  let hdrs := ls.flatMap fun l => (List.range 4).map fun i => 4 * l + i
  { x with
    acc := x.acc.filter fun e => decide (4 ≤ e.1 / 4096) && off (e.1 / 4096 - 4)
    face := x.face.filter fun e => off (e.1 / 2 ^ 20)
    faceBad := x.faceBad.filter fun u => off (u / 2 ^ 20)
    faceSoft := x.faceSoft.filter fun u => off (u / 2 ^ 20)
    hdr := hdrs.foldl (fun t h => tset resetHdr t h 0) x.hdr
    fills := hdrs.foldl (fun t h => tset [] t h []) x.fills
    smeta := x.smeta.filter fun e => off (e.1 / 32)
    stab := x.stab.filter fun e => off (e.1 / 64)
    slen := x.slen.filter fun e => off e.1
    bistres := res }
/-- `cbist` ends (R230): the named layers are left zero or invalid; which fail is a matter of the part. -/
def State.endBist (s : State) (q : Nat) (k : Cmd) : State :=
  let m := lmaskOf k.sa
  let res := Config.number s.fresh 7 % 256 &&& m
  let s := s.modQuad q fun x => x.tested m res
  s.endCmd { k with errs := if res = 0 then [] else [5] } [] 0 false

/-- Words that `cwracc` writes (R222). -/
def State.endWracc (s : State) (q : Nat) (k : Cmd) : State :=
  let t := selTarget k.sb.toNat
  let rp := bits k.sb.toNat 4 0
  let s := s.modQuad q fun x =>
    let rows := tget 0 x.wracc t ||| 2 ^ rp
    let whole := decide (rows = 2 ^ 32 - 1)
    { x with
      acc := (List.range 128).foldl (fun a i => tset 0 a (accKey t (2 * rp) 0 + i) (BitVec.ofNat 32 (elem 32 k.td i))) x.acc
      touched := if x.touched.contains t then x.touched else x.touched ++ [t]
      wracc := tset 0 x.wracc t (if whole then 0 else rows)
      accPoison := if whole && bit x.accPoison t then x.accPoison - 2 ^ t else x.accPoison }
  s.endCmd k [] 0 false

/-- A product's result stands in its accumulator (R206, R209, R226). -/
def State.landProduct (s : State) (q : Nat) (r : CubeRun) : State :=
  let x := s.quad q
  let whole := r.zero && decide (vmOf r.cmd.shape = 64 ∧ vnOf r.cmd.shape = 64)
  let y := r.accumulate x
  let y := if whole && bit y.accPoison r.target then { y with accPoison := y.accPoison - 2 ^ r.target } else y
  (s.setQuad q y).faceSoft x r

/-- Results of a read (R219, R220): the tile and the step count. -/
def Cmd.readRows (k : Cmd) (word : Nat → Nat → BitVec 32) : Tile :=
  let rp := bits k.sa.toNat 4 0
  (List.range 128).foldl (fun t i =>
    t ||| ((word (2 * rp + i / 64) (i % 64)).setWidth 4096 <<< (32 * i))) (0 : Tile)
/-- A `crdacc` has its value; it completes after `n` ticks. `td` and `sum` hold what it will write. -/
def Quad.sampled (q : Quad) (k : Cmd) (t n : Nat) (word : Nat → Nat → BitVec 32) (steps : Nat) : Quad × Cmd :=
  let a := selTarget k.sa.toNat
  ({ q with touched := if q.touched.contains a then q.touched else q.touched ++ [a] },
   { k with td := k.readRows word, sum := steps, due := t + n, errs := if bit q.accPoison a then [3] else [] })
/-- All ones: no step count. -/
def noSteps : Nat := 2 ^ 64 - 1
/-- Current contents of a target. -/
def Quad.accWord (q : Quad) (t m n : Nat) : BitVec 32 := tget 0 q.acc (accKey t m n)
/-- Reads that waited for the end of a run on target `t` take the final contents (R220); `count` notes the wait. -/
def State.wakeReads (s : State) (q t : Nat) : State :=
  let x := s.quad q
  let step := fun (a : Quad × List Cmd) (k : Cmd) =>
    if k.started ∧ k.due = 0 ∧ k.count = 1 ∧ selTarget k.sa.toNat = t then
      let (y, k) := a.1.sampled k s.tick 8 (x.accWord t) noSteps
      (y, a.2 ++ [k])
    else (a.1, a.2 ++ [k])
  let (y, ks) := x.reads.foldl step (x, [])
  s.setQuad q { y with reads := ks }

/-- A command of cube mode ends. -/
def State.cubeEnd (s : State) (q : Nat) (r : CubeRun) : State :=
  let k := r.cmd
  let mark := fun x : Quad =>
    { x with runs := x.runs.filter fun t => !(t.cmd.serial = k.serial && t.plane = r.plane)
             log := x.log.map fun e => if e.1.serial = k.serial then (e.1, e.2.1, true) else e }
  let s := s.modQuad q mark
  match k.instr with
  | .cswap _ =>
    let faces := (if bit k.sa.toNat 24 then [0] else []) ++ if bit k.sa.toNat 25 then [1] else []
    (s.modQuad q fun x => x.swap faces (lmaskOf k.sa)).endCmd k [] 0 false
  | .cwracc _ => s.endWracc q k
  | .csmeta _ => s.endMeta q k
  | .cseq _ => s.endSeq q k
  | .cdrain _ => s.endDrain q k
  | .ckat _ => s.endKat q k
  | .cbist _ => s.endBist q k
  | _ => ((s.landProduct q r).wakeReads q r.target).endCmd k [] 0 false
/-- A run without a layer of its own has reached its end. -/
def Quad.ended (q : Quad) (n : Nat) : Option CubeRun := q.runs.find? fun r => r.plane.isNone && decide (r.cmd.serial = n ∧ r.total ≤ r.ticks)
/-- CUBE_COMMAND_END. -/
def execCubeCommandEnd (q n : Nat) (s : State) : Out :=
  match (s.quad q).ended n with
  | some r => event (s.quad q).badRead.isNone s (s.cubeEnd q r)
  | none => .next s

/-- A run of layer `l` has reached its end. -/
def Quad.planeEnded (q : Quad) (l : Nat) : Option CubeRun := q.runs.find? fun r => decide (r.plane = some l ∧ r.total ≤ r.ticks)
/-- A layer finishes a plane product, or the action of a sequencer's state. -/
def State.planeEnd (s : State) (q l : Nat) (r : CubeRun) : State :=
  let s := s.modQuad q fun x => { x with runs := x.runs.filter fun t => t.plane ≠ some l }
  let s := if r.product then (s.landProduct q r).wakeReads q (4 + l)
    else s.modQuad q fun x =>
      let e := x.entry l
      x.swap ((if bit e 32 then [0] else []) ++ if bit e 33 then [1] else []) (2 ^ l) (r.cmd.serial :: tget [] x.planeq l)
  if r.seq then s.modQuad q fun x =>
    let z := x.seq l
    let y := x.setSeq l { z with acted := true, ticks := 0 }
    if r.product then y
    else { y with backs := (z.serial, l, z.state, z.c) :: y.backs.filter fun b => !decide (b.1 = z.serial ∧ b.2.1 = l) }
  else s.endPiece q r.cmd.serial l []
/-- PLANE_LAYER_END. -/
def execPlaneLayerEnd (q l : Nat) (s : State) : Out :=
  match (s.quad q).planeEnded l with
  | some r => event (s.quad q).badRead.isNone s (s.planeEnd q l r)
  | none => .next s

/-! ### Reads (R220, R221, R227, R229) -/

/-- A stopped command stands at a target: its record, or the sequencer that a stop halted (R223). -/
def Quad.stoppedAt (q : Quad) (t : Nat) : Bool := (q.stops.any fun r => r.target = t) || (decide (4 ≤ t) && (q.seq (t - 4)).held)
/-- The status word of an ITEM. -/
def Quad.status (q : Quad) (w : Nat) : Nat :=
  let l := bits w 10 8
  let t := if bit w 15 then 4 + l else bits w 14 13
  let flag := fun b : Bool => if b then 1 else 0
  let sum := fun (n : Nat) (f : Nat → Bool) => (List.range n).foldl (fun a i => a + if f i then 2 ^ i else 0) 0
  match bits w 7 0 with
  | 0 =>
    q.cmdq.length % 16 + flag (!q.runs.isEmpty) * 2 ^ 4 +
      sum 8 (fun l => !(tget [] q.planeq l).isEmpty || q.runs.any fun r => r.plane = some l && !r.seq) * 2 ^ 5 +
      sum 8 (fun l => (q.seq l).running && !(q.seq l).held) * 2 ^ 13 + sum 12 q.stoppedAt * 2 ^ 21 +
      flag (!q.parked.isEmpty) * 2 ^ 33
  | 1 =>
    let run := q.runs.find? fun r => r.writes = some t
    let stop := q.stops.find? fun r => r.target = t
    let n := match run, stop with | some r, _ => if r.product then r.done' else 0 | none, some r => r.run.point | none, none => 0
    flag run.isSome + flag (q.stoppedAt t) * 2 + flag (bit q.accPoison t) * 4 + n % 2 ^ 32 * 2 ^ 32
  | 2 => (tget resetHdr q.hdr (hdrKey l (bits w 11 11) (facePhase q l (bits w 11 11) (bit w 12)))).toNat
  | 3 => tget 0 q.katerr l
  | 4 => q.bistres
  | _ => q.join.toNat
/-- A read whose time has come. -/
def State.readDue (s : State) (q n : Nat) : Option Cmd :=
  (s.quad q).reads.find? fun k => decide (k.serial = n ∧ k.started ∧ k.due ≠ 0 ∧ k.due ≤ s.tick)
/-- CUBE_READ_END. -/
def State.readEnd (s : State) (q : Nat) (k : Cmd) : State :=
  let x := s.quad q
  let s := s.setQuad q { x with reads := x.reads.filter fun h => h.serial ≠ k.serial }
  match k.instr, k.dest with
  | .cstat _, d :: _ => s.endCmd k [(d, BitVec.ofNat 4096 (x.status k.sa.toNat), allBits 64)] 0 false
  | _, d :: e :: _ => s.endCmd { k with sum := 0 } [(d, k.td, allBits 4096), (e, BitVec.ofNat 4096 k.sum, allBits 64)] 0 false
  | _, _ => s.endCmd k [] 0 false
def execCubeReadEnd (q n : Nat) (s : State) : Out :=
  match s.readDue q n with
  | some k => .next (s.readEnd q k)
  | none => .next s

/-- A cube tick of this global tick brought the run to a step boundary; `was`: the runs before its count (R206). -/
def CubeRun.reached (r : CubeRun) (was : List CubeRun) : Bool :=
  r.boundary && was.any fun o => decide (o.cmd.serial = r.cmd.serial ∧ o.plane = r.plane ∧ o.ticks < r.ticks ∧ o.ticks < 8 + o.steps)
/-- The run was past its steps before this tick. -/
def CubeRun.wasDrained (r : CubeRun) (was : List CubeRun) : Bool :=
  was.any fun o => decide (o.cmd.serial = r.cmd.serial ∧ o.plane = r.plane) && o.drained
/-- A read at the end of a tick: it starts once its tokens are complete, and a `crdacc` takes its value as R220 says. A command in its
step part as the tick begins gives a snapshot at its next boundary, the last of which ends its steps. DESIGN CHOICE: while a `cwracc`
executes on its target, for which R220 has no row, it takes the contents before that lands, in 8 ticks (log 80). -/
def State.readStep (s : State) (was : List CubeRun) (x : Quad) (k : Cmd) : Quad × Cmd :=
  let first := !k.started && s.ready k
  let k := if first then { k with started := true, at' := s.tick } else k
  if !k.started ∨ k.due ≠ 0 ∨ k.count = 1 then (x, k) else
  match k.instr with
  | .cstat _ => (x, { k with due := k.at' + 4 })
  | _ =>
    let t := selTarget k.sa.toNat
    match x.stops.find? (fun r => r.target = t), x.runs.find? fun r => r.product && r.writes = some t with
    | some r, _ => x.sampled k s.tick 72 (r.run.word x r.run.snapPoint) r.run.point
    | none, some r =>
      if r.wasDrained was then (x, { k with count := 1 })
      else if r.reached was && r.snapAt then x.sampled k k.at' 72 (r.word x r.done') r.done'
      else (x, k)
    | none, none => x.sampled k s.tick 8 (x.accWord t) noSteps

/-! ### Stops (R223) -/

/-- The context is being stopped. -/
def Ctx.stopping (c : Ctx) : Bool := c.stop = .preempting || c.stop = .slipped
/-- A run that stops now: the last tick found it stopping. -/
def CubeRun.stops (r : CubeRun) (g : Nat) : Bool := decide (r.cmd.g = g) && r.halt
/-- The end of a tick in which the context of the run is being stopped: a product in its fill part stops, and one in its steps at the
boundary that the tick reaches (R223). DEDUCED: it stops whether or not its context still holds the lease: R223 names the holder, R412 the
context's cube commands (log 80). -/
def CubeRun.halted (r : CubeRun) (stopping : Bool) (was : List CubeRun) : CubeRun :=
  { r with halt := r.halt || (stopping && r.product && !r.wasDrained was && (decide (r.ticks < 8) || r.reached was)) }
/-- Something of the context still has to stop. -/
def Quad.toStop (q : Quad) (g : Nat) : Bool :=
  ((q.cmdq ++ q.redo).any fun k => k.g = g) || (q.runs.any fun r => r.stops g) ||
    q.planes.any fun p => p.1.g = g && (List.range 8).any fun l =>
      (tget [] q.planeq l).contains p.1.serial || ((q.seq l).running && !(q.seq l).held && decide ((q.seq l).serial = p.1.serial))
/-- Nothing of the context can come to a stop any more. -/
def Quad.stopped (q : Quad) (g : Nat) : Bool :=
  !q.toStop g && q.runs.all fun r => !(decide (r.cmd.g = g) && r.product && !r.drained)
/-- The lease returns once the commands have stopped (R33). -/
def Quad.leaseBack (q : Quad) (g : Nat) : Bool := decide (q.lease.holder = some (g % 16)) && q.stopped g && q.runs.all fun r => r.cmd.g ≠ g
/-- CUBE_COMMAND_STOP: running products become stop records, what has not started is parked, in its original order (R224), the commands
that a recovery has still to dispatch among it. DESIGN CHOICE: of
the Dealer's records of a SLIP, the issuing context's own and its quad's carry KIND 1 and POINT; one charged to another context or quad
carries none (log 80). -/
def State.stopCube (s : State) (g : Nat) : State :=
  let q := quadOf g
  let x := s.quad q
  let runs := x.runs.filter fun r => r.stops g
  let recs := runs.map fun r => ({ target := r.target, run := if r.ticks < 8 then r else r.partials x r.done' } : StopRec)
  let left := x.planes.filter fun p => p.1.g = g
  let piece := fun p : Cmd × Nat =>
    let queued := (List.range 8).foldl (fun a l => a + if (tget [] x.planeq l).contains p.1.serial then 2 ^ l else 0) 0
    let held := (List.range 8).any fun l => (x.seq l).running && !(x.seq l).held && decide ((x.seq l).serial = p.1.serial)
    if queued = 0 ∧ !held then none else some { p.1 with started := true, sd := BitVec.ofNat 64 queued }
  let mine := left.map fun p => p.1.serial
  let x :=
    { x with
      runs := x.runs.filter fun r => !r.stops g
      stops := recs ++ x.stops
      planeq := (x.planeq.map fun e => (e.1, e.2.filter fun n => !mine.contains n)).filter fun e => e.2 ≠ []
      seqs := x.seqs.map fun e => if e.2.running && mine.contains e.2.serial then (e.1, { e.2 with held := true }) else e
      parked := (x.parked.filter fun k => k.g ≠ g) ++ left.filterMap piece ++ (x.redo ++ x.parked ++ x.cmdq).filter fun k => k.g = g
      redo := x.redo.filter fun k => k.g ≠ g
      cmdq := x.cmdq.filter fun k => k.g ≠ g }
  let point := match recs with | r :: _ => some r.run.point | [] => none
  let s := s.setQuad q x
  let s : State := match point with
    | some p =>
      if (s.ctx g).stop = Stop.slipped then
        let w := faultWord p 0x0D 5 1
        let mark := fun (n : FaultNote) =>
          if n.code = 0x0D ∧ n.launch = (s.ctx g).launch ∧ ((n.kind = 2 ∧ n.g = q) ∨ (n.kind = 0 ∧ n.g = g)) then { n with point := w.toNat } else n
        (s.modCtx g fun c => { c with faultpt := w }).modDealer fun d => { d with notes := d.notes.map mark }
      else s
    | none => s
  if (s.quad q).leaseBack g then
    (s.modQuad q fun x => { x with lease := { x.lease with holder := none, ended := false } }).modCtx g fun c => { c with cut := true }
  else s
/-- A stop is due: something stops, or the lease returns. -/
def State.stopDue (s : State) (g : Nat) : Bool :=
  (s.ctx g).stopping && ((s.quad (quadOf g)).toStop g || (s.quad (quadOf g)).leaseBack g)
def execCubeCommandStop (g : Nat) (s : State) : Out := event (s.stopDue g) s (s.stopCube g)

/-! ### SLIP (R20, R381) -/

/-- A SLIP counts, and stops every context of its launch (R20, R381). -/
def State.slipStop (s : State) (v : Nat) (id : Option Nat) : State :=
  let s := s.vfSat v 0x19 0 1
  let s := { s with ctxs := s.ctxs.map fun (e : Nat × Ctx) =>
    if e.2.launch = id ∧ id.isSome ∧ e.2.stop = Stop.running ∧ e.2.state ≠ 0 ∧ !e.2.halting then
      (e.1, { e.2 with stop := Stop.slipped, state := 3, wait := 0 }) else e }
  s.modDealer fun d =>
    { d with launches := d.launches.map fun (l : Launch) => if some l.id = id ∧ l.st = LaunchSt.running then { l with st := LaunchSt.slipped } else l }
/-- A SLIP reaches the Dealer. -/
def State.slip (s : State) (n : FaultNote) : State :=
  (s.slipStop n.vf n.launch).modDealer fun d => { d with notes := d.notes ++ [n] }

/-! ### Recovery (R225, R226) -/

/-- Accumulators that a command writes. -/
def Cmd.targets (k : Cmd) : List Nat :=
  match k.instr with
  | .cmm o | .cmmz o => if o.d.getLsbD 2 then (layersOf (lmaskOf k.sa)).map (4 + ·) else [bits o.d.toNat 1 0]
  | .cconv o => [bits o.d.toNat 1 0]
  | .cplane _ => (layersOf (lmaskOf k.sa)).map (4 + ·)
  | .cwracc _ => [selTarget k.sb.toNat]
  | _ => []
/-- Take some commands back. -/
def Quad.withdraw (q : Quad) (ns : List Nat) : Quad :=
  { q with
    runs := q.runs.filter fun r => !ns.contains r.cmd.serial
    planeq := (q.planeq.map fun e => (e.1, e.2.filter fun n => !ns.contains n)).filter fun e => e.2 ≠ []
    planes := q.planes.filter fun p => !ns.contains p.1.serial
    stops := q.stops.filter fun r => !ns.contains r.run.cmd.serial
    parked := q.parked.filter fun k => !(k.started && ns.contains k.serial)
    seqs := q.seqs.map fun e => if ns.contains e.2.serial then (e.1, { e.2 with running := false, held := false, acted := false }) else e
    log := q.log.filter fun e => !ns.contains e.1.serial }
/-- The phase is fetched again from its fill log. -/
def State.refetch (s : State) (k : Cmd) (key h : Nat) : State × Bool :=
  (tget [] (s.quad (quadOf (slotOf k.g))).fills h).foldl (fun (a : State × Bool) e =>
    if a.2 then
      let (w, ok) := Work.fillBytes (key + e.2.1) e.1 0 e.2.2.1 { s := a.1, k := { k with vf := e.2.2.2 } }
      (w.s, ok)
    else a) (s, true)
/-- Commands that an earlier recovery cancelled, not dispatched again yet, and dispatched since the last `cswap` of layer `l`. -/
def Quad.cancelled (q : Quad) (l : Nat) : List Cmd := (q.redo ++ q.parked).filter fun k => bit (tget 0 q.undone k.serial) l
/-- CUBE_RECOVERY of a layer's front phase: the commands that read it end, with what was dispatched since the layer's last `cswap`. Where it fails,
what an earlier recovery cancelled and has not dispatched again is lost with them (R226). -/
def State.recover (s : State) (q l face : Nat) : State :=
  let x := s.quad q
  let phase := facePhase x l face false
  let h := hdrKey l face phase
  let key := faceKey l face phase 0
  let readers := ((x.runs.filter fun r => x.readsBad r l face).map fun r => (x.plane r.cmd.serial).getD r.cmd).eraseDups
  let logged := x.log.filter fun e => bit e.2.1 l || readers.any fun k => k.serial = e.1.serial
  let gone := (readers.filter fun k => logged.all fun e => e.1.serial ≠ k.serial).map (fun k => (k, 2 ^ l, false)) ++ logged
  let ns := gone.map fun e => e.1.serial
  let stopped := fun k : Cmd => x.stops.any (fun r => r.run.cmd.serial = k.serial) || x.parked.any fun p => p.started && decide (p.serial = k.serial)
  let again := gone.map fun e => { e.1 with quiet := e.1.quiet || e.2.2, started := false, sd := 0 }
  let lost := again ++ x.cancelled l
  let targets := lost.flatMap Cmd.targets
  let vf := (gone.head?.map fun e => e.1.vf).getD 0
  let hdr := tget resetHdr x.hdr h
  let hopeless := bits hdr.toNat 43 40 = 15 ∨ x.recovered.contains h ∨ (again.flatMap Cmd.targets).any x.touched.contains
  let read := (x.faceBad.filter fun u => decide (key ≤ u ∧ u < key + 2 ^ 18)).length
  let y := x.withdraw ns
  let y :=
    { y with
      acc := copyTargets ([0, 1, 2, 3, 4 + l]) y.acc y.shadow
      hdr := tset resetHdr y.hdr h (setBits hdr 15 15 1)
      recovered := if y.recovered.contains h then y.recovered else y.recovered ++ [h] }
  let s := (s.setQuad q y).vfSat vf 0x11 1 (min read 1)
  let (s, ok) := match again with
    | k :: _ => if hopeless then (s, false) else s.refetch { k with g := 16 * q } key h
    | [] => (s, false)
  if ok then
    let s := s.modQuad q fun x =>
      { x with redo := again.filter (fun k => !stopped k) ++ x.redo, parked := again.filter stopped ++ x.parked,
               undone := gone.map (fun e => (e.1.serial, e.2.1)) ++ x.undone, ctr := ctrSat x.ctr 0x16 0 32 1 }
    match again.head?.bind (·.launch) with
    | some id =>
      if ((s.launch id).map fun n => n.rigidAt n.phase).getD false then
        State.slip (s.setArm (3072 + q) { s.arm (3072 + q) with slipped := true }) { kind := 2, code := 0x0D, vf := vf, g := q, pc := 0, point := (faultWord 0 0x0D 5 1).toNat, tick := s.tick, launch := some id }
      else s
    | none => s
  else
    let dead := lost.map (·.serial)
    let s := s.modQuad q fun x =>
      { x with redo := x.redo.filter fun k => !dead.contains k.serial
               parked := x.parked.filter fun k => !dead.contains k.serial
               undone := x.undone.filter fun e => !dead.contains e.1
               backs := x.backs.filter fun b => !dead.contains b.1
               accPoison := targets.foldl (fun m t => m ||| 2 ^ t) x.accPoison
               wracc := targets.foldl (fun t i => tset 0 t i 0) x.wracc }
    let s := lost.foldl (fun s k => s.endCmd { k with errs := [3], quiet := false } [] 0 false) s
    targets.foldl (fun s t => s.wakeReads q t) s
def execCubeRecovery (q l face : Nat) (s : State) : Out := event (decide ((s.quad q).badRead = some (l, face))) s (s.recover q l face)

/-! ### Cube ticks (R23, R206) -/

/-- The step at which a run is gated: the largest of the cube in cube mode, the layers' own otherwise; none for the parts
that count global ticks. -/
def Quad.gate (q : Quad) (rigid : Bool) (r : CubeRun) : Nat :=
  let top := q.gov.foldl (fun m e => max m e.2) 0
  if rigid then 0 else
  match r.plane with
  | some l => if r.product then tget 0 q.gov l else 0
  | none =>
    match r.cmd.instr with
    | .cmm _ | .cmmz _ | .cconv _ => top
    | .ckat _ | .cbist _ => (layersOf (match r.cmd.instr with | .ckat _ => r.lmask | _ => lmaskOf r.cmd.sa)).foldl (fun m l => max m (tget 0 q.gov l)) 0
    | _ => 0
/-- A gated tick is withheld. -/
def withheld (t step : Nat) : Bool := decide (8 - step ≤ t % 8)
/-- LEASE_GRANT: the cores in rotation, and in a core its contexts (R32). -/
def State.grantTo (s : State) (q : Nat) : Option Nat :=
  let l := (s.quad q).lease
  let order := (List.range 4).flatMap fun i =>
    let c := (l.lastCore + 1 + i) % 4
    (List.range 4).map fun j => 4 * c + (tget 3 l.lastK c + 1 + j) % 4
  if l.holder.isSome ∨ s.tried ≠ [] then none else order.find? l.reqs.contains
/-- A fresh run of context `h` at tick `t`, after command `n` (R30). -/
def Lease.given (l : Lease) (t n h : Nat) : Lease :=
  { l with holder := some h, count := 0, grant := t, since := n, ended := false, reqs := l.reqs.filter (· ≠ h) }
def execLeaseGrant (q : Nat) (s : State) : Out :=
  match s.grantTo q with
  | some h => .next (s.modQuad q fun x =>
      { x with lease := { x.lease.given s.tick s.serial h with lastCore := h / 4, lastK := tset 3 x.lease.lastK (h / 4) (h % 4) } })
  | none => .next s

/-- The end of a tick in a cube: its layers' ticks pass or are withheld, runs count theirs, stops and reads find their boundaries, and
the codebooks of the tick are those that the next tick's issue reads (R23, R175, R206, R220, R223). DESIGN CHOICE: with no product running,
each layer's ticks are withheld, and counted in GOVHELD, by its own step, as in plane mode (log 80). -/
def State.cubeOver (s : State) (q : Nat) : State :=
  let x := s.quad q
  let rigid := s.towerRigid (q / 48)
  let cubeMode := x.runs.any fun r => r.plane.isNone && r.product
  let top := x.gov.foldl (fun m e => max m e.2) 0
  let step := fun l => if rigid then 0 else if cubeMode then top else tget 0 x.gov l
  let moves := fun r : CubeRun => !withheld s.tick (x.gate rigid r)
  let steps := x.runs.any fun r => moves r && r.product && decide (8 ≤ r.ticks ∧ r.ticks < 8 + r.steps)
  let was := x.runs
  let ctr := (List.range 8).foldl (fun c l => if withheld s.tick (step l) then ctrWrap c 0x03 l 1 else c) x.ctr
  let x :=
    { x with
      runs := x.runs.map fun r =>
        (if moves r then { r with ticks := r.ticks + 1 } else r).halted (s.ctx r.cmd.g).stopping was
      bookSeen := x.book
      seqs := x.seqs.map fun (e : Nat × Seq) =>
        if e.2.running && !e.2.held && e.2.acted && !withheld s.tick (if rigid then 0 else tget 0 x.gov e.1)
          then (e.1, { e.2 with ticks := e.2.ticks + 1 }) else e
      ctr := if steps then ctrWrap ctr 0x23 0 1 else ctr }
  let (x, ks) := x.reads.foldl (fun (a : Quad × List Cmd) k => let (y, k) := s.readStep was a.1 k; (y, a.2 ++ [k])) (x, [])
  s.setQuad q { x with reads := ks }
def State.cubesOver (s : State) : State := s.quads.foldl (fun s e => s.cubeOver e.1) s

/-! ### The lease (R29-R33) -/

/-- A run ends (R30, R32): the commands accepted under it, and those that the holder brought with it from a stop, have dispatched, its fills
and reads among them (R194, R195, R224). -/
def State.runOver (s : State) (q : Nat) : Bool :=
  let x := s.quad q
  match x.lease.holder with
  | none => false
  | some h =>
    let g := 16 * q + h
    let fill := fun k : Cmd => match k.instr with | .cfill _ => true | _ => false
    let read := fun k : Cmd => match k.instr with | .crdacc _ => true | _ => false
    !s.inRigid g && (x.lease.ended || !x.lease.room s.tick) && (x.cmdq.all fun k => k.g ≠ g) &&
      (x.stops.all fun r => r.run.cmd.g ≠ g) && (x.parked.all fun k => k.g ≠ g) &&
      (x.copyq.all fun k => !(decide (k.g = g) && fill k)) && x.reads.all fun k => !(decide (k.g = g) && read k && !k.started)
/-- A context that runs or waits. -/
def Ctx.alive (c : Ctx) : Bool := decide (c.state = 1 ∨ c.state = 2) && !c.halting
/-- The lease is free; a run that ended by a limit leaves an implicit request. -/
def State.endRun (s : State) (q : Nat) : State :=
  let x := s.quad q
  let again := match x.lease.holder with
    | some h => if !x.lease.ended ∧ (s.ctx (16 * q + h)).alive ∧ !x.lease.reqs.contains h then [h] else []
    | none => []
  s.setQuad q { x with lease := { x.lease with holder := none, ended := false, reqs := x.lease.reqs ++ again } }
/-- LEASE_RUN_END. -/
def execLeaseRunEnd (q : Nat) (s : State) : Out := event (s.runOver q) s (s.endRun q)

/-! ### Governor, droop and scrub (R22, R24, R249, R399, R437) -/

/-- The step of a layer at `t` thousandths of a degree: it rises to the largest step whose threshold is met, and falls past the
hysteresis (R437). -/
def govStep (cfg : Nat) (cur : Nat) (t : Int) : Nat :=
  let theta := fun s : Nat => ((1000 * (bits cfg 7 0 + (s - 1) * max (bits cfg 11 8) 1) : Nat) : Int)
  let best := ((List.range 8).filter fun s => decide (1 ≤ s ∧ theta s ≤ t)).foldl max 0
  if ((1000 * bits cfg 23 16 : Nat) : Int) ≤ t then 7
  else if cur < best then best
  else if cur ≠ 0 ∧ t < theta cur - (1000 * bits cfg 15 12 : Nat) then best
  else cur
/-- Layers whose step changes now. -/
def State.govDue (s : State) (q : Nat) : List (Nat × Nat) :=
  if s.tick % 8 ≠ 0 then [] else
  (s.quad q).govNext.filterMap fun e => if e.2 / 8 < s.tick + 1 then some (e.1, e.2 % 8) else none
/-- A record for every context, live or saved, that subscribes to it among those of `ok`. -/
def State.announce (s : State) (b : Nat) (ok : Nat → Bool) (r : EvRec) : State :=
  let live := s.ctxs.filterMap fun e => if e.2.state ≠ 0 ∧ ok e.1 then some (e.2.vfid, e.1) else none
  let kept := s.vfs.flatMap fun v => v.2.saved.filterMap fun e => if e.2.isSome ∧ ok e.1 then some (v.1, frameOf e.1) else none
  (live ++ kept).foldl (fun s e => if s.subscribes e.1 e.2 b then s.postTo e.1 e.2 r else s) s
/-- GOVERNOR_STEP_CHANGE. DESIGN CHOICE: layers of a cube that change in one tick share one record, which carries every step of the cube
(log 72). -/
def State.govChange (s : State) (q : Nat) (l : List (Nat × Nat)) : State :=
  let s := s.modQuad q fun x =>
    { x with
      gov := l.foldl (fun t e => tset 0 t e.1 e.2) x.gov
      govNext := l.foldl (fun t e => tset 0 t e.1 0) x.govNext
      ctr := l.foldl (fun c e => ctrSat c 0x04 e.1 32 1) x.ctr }
  s.announce 0 (fun g => decide (quadOf g = q)) { kind := 3, time := s.tick, payload := (govWord (s.quad q)).toNat }
/-- The largest of a layer's sensors. -/
def hottest : List Int → Int
  | [] => 0
  | t :: rest => rest.foldl max t
/-- A sample is taken: a change of step waits for the next tick divisible by 8; `govNext` holds `8 * (tick + 1) + step` of the sample. -/
def State.govSample (s : State) (q l : Nat) (t : Int) : State :=
  s.modQuad q fun x =>
    let cur := tget 0 x.gov l
    let n := govStep (s.tower (q / 48)).govcfg.toNat cur t
    { x with govNext := tset 0 x.govNext l (if n = cur then 0 else 8 * (s.tick + 1) + n) }
/-- GOVERNOR_SAMPLE: every 8 ticks, after the change that the last sample asked for. -/
def execGovernorSample (q l : Nat) (temps : List Int) (s : State) : Out :=
  event (decide (s.tick % 8 = 0)) s
    (let d := s.govDue q
     (if d.isEmpty then s else s.govChange q d).govSample q l (hottest temps))
def execGovernorStepChange (q : Nat) (s : State) : Out :=
  let l := s.govDue q
  event (!l.isEmpty) s (s.govChange q l)

/-- The core voltage below which ticks stretch; a smaller THRESH is taken as 5 (R436). -/
def droopLevel (cfg : Nat) : Nat := bits cfg 9 0 - max (bits cfg 17 10) 5
/-- The next reading of the core voltage, in mV, and the state behind it. -/
def State.voltage (s : State) : Option (Nat × State) :=
  match s.volts with
  | [] => none
  | mv :: rest => some (mv, { s with volts := rest })
/-- DROOP_START: the core voltage is below the threshold. -/
def execDroopStart (s : State) : Out :=
  match s.voltage with
  | none => .next s
  | some (mv, s) => event (!s.droop && decide (mv < droopLevel s.dealer.droopcfg.toNat)) s
    (State.announce { s with droop := true, pctr := ctrSat s.pctr 0x01 0 32 1 } 1 (fun _ => true) { kind := 4, code := 1, time := s.tick })
/-- DROOP_END: the voltage has recovered by HYST. -/
def execDroopEnd (s : State) : Out :=
  match s.voltage with
  | none => .next s
  | some (mv, s) => event (s.droop && decide (droopLevel s.dealer.droopcfg.toNat + bits s.dealer.droopcfg.toNat 25 18 ≤ mv)) s
    (State.announce { s with droop := false } 1 (fun _ => true) { kind := 4, time := s.tick })

/-- A stretched tick in eighths of a nominal period; STRETCH 0 is taken as 1 (R22, R436). -/
def stretchOf (cfg : Nat) : Nat := 8 + max (bits cfg 28 26) 1
/-- The length of the present tick as a fraction of the nominal period: droop stretch over governor stretch, which the towers of RIGID
phases set (R22, R23). -/
def State.tickLength (s : State) : Nat × Nat := (if s.droop then stretchOf s.dealer.droopcfg.toNat else 8, 8 - s.stretchStep)

/-- The store of a scrubber: HBM stack 0-7, or the TSRAM of tower `u - 8` (R249). -/
def scrubbed (u pa : Nat) : Bool :=
  if u < 8 then tierOf pa = 3 && stackOf pa = u else tierOf pa = 2 && portTower pa = u - 8
/-- SCRUB: corrected words are written back; newly uncorrectable ones are marked, and counted to the function that owns
them. -/
def execScrub (u : Nat) (bad : List Nat) (s : State) : Out :=
  let new := ((bad.filter (scrubbed u)).map eccUnit).eraseDups.filter fun a => !s.memBad.contains a
  let count := fun (number : Nat) (s : State) (a : Nat) => match s.ownerOf a with | some v => s.vfSat v number (tierOf a) 1 | none => s
  let soft := s.memSoft.filter fun a => scrubbed u a && !new.contains a
  let s' := new.foldl (count 0x11) (soft.foldl (count 0x10) s)
  .next { s' with memBad := s'.memBad ++ new, memSoft := s'.memSoft.filter fun a => !scrubbed u a }

/-! ### What is due (R205) -/

/-- The answer to a read of a table waits for what came before it at its port (R345). -/
def State.tableBehind (s : State) (r : CubeRun) : Bool :=
  decide (r.cmd.tableBytes ≠ 0) && !(farOf (s.tablePas r.cmd)).isEmpty && !s.portFree r.cmd.vf r.cmd.serial (r.start + r.total)
/-- The next event of a cube, in a fixed order. -/
def State.dueCubeAt (s : State) (q : Nat) : Due :=
  let x := s.quad q
  let layer := fun (f : Nat → Due) => (List.range 8).findSome? f
  let first : List Due :=
    [(if (s.govDue q).isEmpty then none else some (execGovernorStepChange q)),
     x.badRead.map fun e => execCubeRecovery q e.1 e.2,
     layer fun l => (x.planeEnded l).map fun _ => execPlaneLayerEnd q l,
     (x.runs.find? fun r => r.plane.isNone && decide (r.total ≤ r.ticks) && !s.tableBehind r).map fun r => execCubeCommandEnd q r.cmd.serial,
     ((List.range 16).find? fun i => s.stopDue (16 * q + i)).map fun i => execCubeCommandStop (16 * q + i),
     layer fun l => if x.seqDue l then some (execSequencerTransition q l) else none,
     layer fun l => (x.planeHead l).map fun _ => execPlaneLayerStart q l,
     (if (s.cubeDispatch q).isSome then some (execCubeCommandDispatch q) else none),
     (x.reads.find? fun k => (s.readDue q k.serial).isSome).map fun k => execCubeReadEnd q k.serial,
     (if s.runOver q then some (execLeaseRunEnd q) else none),
     (s.grantTo q).map fun _ => execLeaseGrant q]
  first.findSome? id
def State.dueCube (s : State) : Due := s.quads.findSome? fun e => s.dueCubeAt e.1

end Sys2Proof.Machine
end

