-- ==== Sys2Proof/Machine/Image.lean ====
section
/-! DEFINITION. Dictionary images (R113, R114, R347-R349, R370, R415): the literal map (R110), the checks of the loader, and
the resident image. -/

namespace Sys2Proof.Machine

/-! ### Reading -/

/-- An image as read: what is resident, what its launch needs, and the bytes it takes up. -/
structure ImageFile where
  image : Image
  count : Nat
  span : Nat
  bytes : List (Nat × Nat)

/-- The areas that a reader of the image reads. -/
def ImageFile.reads (f : ImageFile) : List (Nat × Nat) := f.bytes.map fun a => (f.image.addr + a.1, a.2)
/-- A load-reject record. -/
def reject (addr : Nat) (r : Reason) (place syl : Nat) : LoadReject := { image := addr, reason := r.num, place := place, syl := syl }

/-- Halfwords that stand inside a literal (R110), from a scan of `hs`; `inside` of the current literal are left. -/
def interiors : Nat → List Nat → List Bool
  | _, [] => []
  | inside + 1, _ :: hs => true :: interiors inside hs
  | 0, h :: hs => false :: interiors (if h = 0xFFFE then 24 else 0) hs

/-- Bucket table `bt` of R370, with its counted entries; `none` where its own form is broken. -/
def bucketTable (m : List Host.Cell) (a : Nat) : Option Bucket :=
  let hdr := leRead m a 16
  let n := hdr % 32
  let entries := (List.range 16).map fun i => leRead m (a + 16 + 8 * i) 8
  let bounds := (entries.take n).map fun e => bits e 17 0
  let rising := (bounds.zip bounds.tail).all fun p => decide (p.1 < p.2)
  if hdr / 32 ≠ 0 ∨ n = 0 ∨ 16 < n ∨ !(entries.drop n).all (· = 0) ∨ !entries.all (fun e => decide (bits e 19 18 = 0 ∧ bits e 63 40 = 0)) ∨
      !rising then none
  else some ((entries.take n).map fun e => (bits e 17 0, bits e 39 20))

/-- The reserved fields of a shape register (R55) are clear, and its halves keep their ranges. -/
def shapeOk (v : Nat) : Bool := decide (bits v 63 44 = 0) && vecHalfOk v && cubeHalfOk (v / 2 ^ 64)

/-- A kernel-table entry (R347): ENTRY and its `.shape` values. -/
def kernelEntry (m : List Host.Cell) (a : Nat) : Option (Nat × List (Option ShapeReg)) :=
  let w := leRead m a 8
  let shapes := (List.range 8).map fun n => leRead m (a + 16 + 16 * n) 16
  let ok := (shapes.zipIdx).all fun p => if bit w (20 + p.2) then shapeOk p.1 else decide (p.1 = 0)
  if bits w 63 28 ≠ 0 ∨ leRead m (a + 8) 8 ≠ 0 ∨ !ok then none
  else some (bits w 19 0, (shapes.zipIdx).map fun p => if bit w (20 + p.2) then some (BitVec.ofNat 128 p.1) else none)

/-- Instructions that a restartable image may not hold (R415). -/
def unrepeatable : Instr → Bool
  | .bar _ | .stacq _ | .strel _ | .sysc _ | .cspush _ | .cspop _ | .trigArm _ | .bcarm _ | .kalloc _ | .kallocM _ | .kfree _ |
    .tacq _ | .trel _ => true
  | _ => false

/-- Why one bundle is rejected wherever it stands: reason and syllable. -/
def bundleCheck (restartable : Bool) (tables : List (Option Bucket)) (w : Nat) : Option (Reason × Nat) :=
  match decodeBundle w with
  | .error e => some e
  | .ok b =>
    match bundleReject b with
    | some e => some e
    | none =>
      match if restartable then b.findIdx? unrepeatable else none with
      | some n => some (.badOp, n)
      | none =>
        match b with
        | .bsel o :: _ =>
          let top := if o.cond = 2 then 262143 else 64
          match (tables[o.off.toNat]?).join with
          | some t => if t.all fun e => decide (1 ≤ e.1 ∧ e.1 ≤ top) then none else some (.badStream, 0)
          | none => some (.badStream, 0)
        | _ => none

/-- A bundle at offset `pc` with a static target that R111 or R143 rejects. -/
def Image.badStatic (i : Image) (pc size w : Nat) : Bool :=
  let at' := fun (off : BitVec 23) => (pc : Int) + off.toInt
  let ok := fun t : Int => decide (0 ≤ t) && i.startsAt t.toNat
  match decodeSyl .c (sylAt w 0) with
  | .ok (.br o) | .ok (.bc o) | .ok (.call o) | .ok (.jt o) => !ok (at' o.off)
  | .ok (.loop o) => !ok (at' o.off) || decide (at' o.off ≤ (pc + size : Nat))
  | _ => false

/-- The bundle at offset `pc` of a stream, if it names one: its bits and size. -/
def Image.bundleAt (i : Image) (pc : Nat) : Option (Nat × Nat) :=
  let h := i.stream.getD pc 0
  if h = 0xFFFE then
    some (((List.range 24).map fun j => i.stream.getD (pc + 1 + j) 0).foldr (fun x a => x + 2 ^ 16 * a) 0, 25)
  else if h < i.entries.length then some (i.entries.getD h 0, 1) else none

/-- The header keeps the ranges of R347. -/
def headerOk (h : Nat) : Bool :=
  decide (1 ≤ bits h 11 0 ∧ bits h 11 0 ≤ 2048 ∧ bits h 15 12 = 0 ∧ bits h 24 16 ≤ 256 ∧ bits h 31 25 = 0 ∧ 1 ≤ bits h 63 32 ∧
    bits h 95 64 % 64 = 0 ∧ bits h 127 96 % 16 = 0 ∧ bits h 128 128 = 0 ∧ 1 ≤ bits h 235 224 ∧ bits h 239 236 = 0 ∧
    bits h 271 240 % 16 = 0 ∧ bits h 511 272 = 0)

/-- The image at `addr`, read and validated (R114, R347, R370, R415), or why it is rejected. DESIGN CHOICE: a STREAMLEN above 2^20 is reason 8, for R114
gives it that row; its row 9, and R347, would give reason 9 (log 84). -/
def State.readImage (s : State) (addr : Nat) : Except LoadReject ImageFile := do
  let m := s.mem
  let h := leRead m addr 64
  let bad := fun (r : Reason) (place syl : Nat) => Except.error (reject addr r place syl)
  if bits h 63 32 > 2 ^ 20 then bad .badStream 0 0 else
  if !headerOk h then bad .badImage 0 0 else
  let n := bits h 11 0
  let len := bits h 63 32
  let nbt := bits h 24 16
  let nrest := bits h 159 144
  let nkern := bits h 235 224
  let slots := (List.range 16).filter fun j => bit h (128 + j)
  let areas := [(0, 64 + 48 * (n - 1)), (bits h 95 64, 2 * len), (bits h 127 96, 144 * nbt), (bits h 191 160, 32 * slots.length),
    (bits h 223 192, 16 * nrest), (bits h 271 240, 144 * nkern)]
  if areas.any fun a => badIn s.memBad (addr + a.1) a.2 then bad .badImage 0 0 else
  let tables := (List.range nbt).map fun t => bucketTable m (addr + bits h 127 96 + 144 * t)
  let check := bundleCheck (nrest != 0) tables
  let entries := 0 :: (List.range (n - 1)).map fun i => leRead m (addr + 64 + 48 * i) 48
  match (entries.zipIdx).findSome? fun e => if e.2 = 0 then none else (check e.1).map fun r => (e.2, r) with
  | some (i, r, y) => bad r i y
  | none =>
  let stream := (List.range len).map fun i => leRead m (addr + bits h 95 64 + 2 * i) 2
  let inside := interiors 0 stream
  let image : Image :=
    { addr := addr, entries := entries, stream := stream, interior := inside, buckets := tables.filterMap id
      restart := (List.range nrest).map fun i =>
        let a := addr + bits h 223 192 + 16 * i
        (BitVec.ofNat 64 (leRead m a 8), BitVec.ofNat 64 (leRead m (a + 8) 8))
      books := slots.zipIdx.map fun j => (j.1, BitVec.ofNat 256 (leRead m (addr + bits h 191 160 + 32 * j.2) 32)) }
  let starts := (List.range len).filter fun pc => !(inside.getD pc false)
  let literals := starts.filter fun pc => decide (stream.getD pc 0 = 0xFFFE)
  match literals.find? fun pc => decide (len < pc + 25) with
  | some pc => bad .badStream pc 0
  | none =>
  match literals.findSome? fun pc => ((image.bundleAt pc).bind fun b => check b.1).map fun r => (pc, r) with
  | some (pc, r, y) => bad r pc y
  | none =>
  if !tables.all fun t => match t with | some l => l.all fun e => image.startsAt e.2 | none => false then bad .badStream 0 0 else
  match starts.find? fun pc => match image.bundleAt pc with | some (w, size) => image.badStatic pc size w | none => false with
  | some pc => bad .badStream pc 0
  | none =>
  let kernels := (List.range nkern).map fun i => kernelEntry m (addr + bits h 271 240 + 144 * i)
  let offs := kernels.map fun k => (k.map (·.1)).getD len
  if !kernels.all Option.isSome || !offs.all image.startsAt || !decide offs.Nodup then bad .badImage 0 0 else
  let span := areas.foldl (fun t a => max t (a.1 + a.2)) 0
  .ok { image := { image with kernels := kernels.filterMap id }, count := n, span := span, bytes := areas }

/-! ### The resident image (R113, R348, R371) -/

/-- The image replaces the resident one, and its codebooks are written into the cube of the core's quad, before any context of the quad
starts; no issue of the same tick sees them (R175). -/
def State.placeImage (s : State) (c : Nat) (i : Image) : State :=
  let s := s.modCore c fun x =>
    { x with image := some i, badHalf := [], badEntry := [], softHalf := [], softEntry := [], window := 0 }
  s.modQuad (c / 4) fun q => { q with book := i.books.foldl (fun t b => tset 0 t b.1 b.2) q.book }
/-- No context of the core runs, and, for an image with codebooks, none of its quad and no command of its cube. -/
def State.coreIdle (s : State) (c : Nat) (books : Bool) : Bool :=
  let free := fun g : Nat => decide ((s.ctx g).state = 0)
  let q := s.quad (c / 4)
  if books then
    ((List.range 16).all fun i => free (c / 4 * 16 + i)) && q.runs.isEmpty && q.cmdq.isEmpty && q.planes.isEmpty && q.parked.isEmpty
  else (List.range 4).all fun i => free (4 * c + i)

/-! ### The code-index buffer (R112, R349, R421) -/

/-- Errors that a fetch ahead can meet in a window: a bad halfword, an index that is reserved or past the dictionary, or one that
names a bad entry. -/
def Core.fetchErrors (x : Core) (i : Image) (window : Nat) : Nat :=
  let hs := ((i.stream.zip i.interior).zipIdx.drop (8192 * window)).take 8192
  (hs.filter fun e =>
    let h := e.1.1
    let index := decide (h ≠ 0xFFFE) && (decide (0x800 ≤ h ∨ i.entries.length ≤ h) || x.badEntry.contains h)
    x.badHalf.contains e.2 || (!e.1.2 && decide (h ≠ 0) && index)).length
/-- CODE_INDEX_REFILL: the buffer holds another window of the stream. Errors met on a path that does not issue are counted; how
many, the manual leaves open. -/
def execCodeIndexRefill (c window : Nat) (s : State) : Out :=
  let x := s.core' c
  match x.image with
  | none => .next s
  | some i =>
    let met := Config.number s.fresh 9 % (x.fetchErrors i window + 1)
    event (decide (8192 * window < i.stream.length)) s
      (s.setCore c { x with window := window, ctr := if met = 0 then x.ctr else ctrSat x.ctr 0x17 0 32 met })

/-! ### Results that land (R104) -/

/-- REGISTER_RESULT_LANDING: every result of the context whose bound has passed; a load that has not taken its value takes it now
(R304). -/
def execRegisterResultLanding (g : Nat) (s : State) : Out :=
  event ((s.ctx g).inflight.any fun e => decide (e.due ≤ s.tick)) s ((s.takeLoads g fun e => decide (e.due ≤ s.tick)).modCtx g fun c => c.land s.fresh s.tick)
def State.dueLanding (s : State) : Due :=
  (s.ctxs.find? fun e => e.2.inflight.any fun r => decide (r.due ≤ s.tick)).map fun e => execRegisterResultLanding e.1

end Sys2Proof.Machine
end

