-- ==== Sys2Proof/Machine/Timetable.lean ====
section
/-! DEFINITION. Timetables (R356-R363, R366): reading one, and the checks that the Dealer makes when it accepts a launch. -/

namespace Sys2Proof.Machine

/-! ### Form (R356-R362) -/

/-- A timetable block: memory, its first byte and its length. -/
structure Block where
  mem : List Host.Cell
  base : Nat
  len : Nat
/-- Go on when the condition holds. -/
def must (b : Bool) : Option Unit := if b then some () else none
/-- `n` bytes at an offset that keeps R356. -/
def Block.get (b : Block) (off n : Nat) : Option Nat := do
  must (decide (off % 8 = 0 ∧ off + n ≤ b.len))
  some (leRead b.mem (b.base + off) n)
/-- `count` entries of `n` bytes from an offset, which keeps R356 though there be none. -/
def Block.entries {α : Type} (b : Block) (off n count : Nat) (f : Nat → Option α) : Option (List α) :=
  (b.get off 0).bind fun _ => (List.range count).mapM fun i => (b.get (off + n * i) n).bind f

/-- An engine entry (R358), its unit as the number of its arm register (R427). -/
def engEntry (w : Nat) : Option EngEntry := do
  let kind := bits w 41 40
  let u := bits w 51 42
  must (decide (bits w 63 58 = 0 ∧ bits w 127 84 = 0 ∧ bits w 255 192 = 0 ∧ kind ≠ 3))
  if kind = 0 then must (decide (u < 768))
  else must (decide (u < 192 ∧ bits w 57 52 = 0 ∧ bits w 83 64 = 0 ∧ bits w 191 128 = 0))
  let unit := match kind with | 0 => 4 * u + bits w 53 52 | 1 => 3072 + u | _ => 3264 + u
  some { start := bits w 39 0, kind := kind, unit := unit, slot := bits w 53 52, stage := bits w 57 54,
         entry := bits w 83 64, image := bits w 191 128 }
/-- A lease entry (R359). -/
def leaseEntry (elastic : Bool) (w : Nat) : Option LeaseEntry := do
  must (decide (bits w 127 52 = 0 ∧ bits w 7 0 < 192))
  must (!elastic || decide (bits w 11 10 = 0 ∧ bits w 51 12 = 0))
  some { quad := bits w 7 0, core := bits w 9 8, k := bits w 11 10, start := bits w 51 12 }
/-- A Trick entry (R360). -/
def trickEntry (elastic : Bool) (w : Nat) : Option Trick := do
  must (decide (bits w 7 3 = 0 ∧ bits w 63 56 = 0 ∧ bits w 127 104 = 0) && (!elastic || decide (bits w 55 16 = 0)))
  some { tag := bits w 2 0, set := bits w 15 8, bar := bits w 55 16, comm := bits w 103 64 }
/-- A spare map entry (R362), as slot numbers. -/
def spareEntry (w : Nat) : Option Spare := do
  must (decide (bits w 63 24 = 0 ∧ bits w 9 0 < 768 ∧ bits w 21 12 < 768))
  some (4 * bits w 9 0 + bits w 11 10, 4 * bits w 21 12 + bits w 23 22)
/-- A Deck section (R361). -/
def Block.deck (b : Block) (off tower : Nat) : Option DeckSec := do
  let v ← b.get off 8
  must (decide (v % 4096 = 0))
  let stages ← b.entries (off + 8) 8 16 fun w => do
    must (decide (bits w 31 0 % 64 = 0 ∧ bits w 63 56 = 0))
    some (bits w 31 0, bits w 55 32)
  some { tower := tower, vbase := BitVec.ofNat 64 v, stages := stages }
/-- A slot set (R366). -/
def Block.slotSet (b : Block) (off : Nat) : Option (List (Nat × List (BitVec 32))) := do
  let n ← b.get off 8
  must (decide (n < 65536))
  (List.range n).mapM fun i => do
    let at' := off + 8 + 1032 * i
    let q ← b.get at' 8
    must (decide (q < 192))
    let v ← b.get (at' + 8) 1024
    some (q, (List.range 256).map fun j => BitVec.ofNat 32 (v >>> (32 * j)))
/-- A phase entry and all it points to (R357). -/
def Block.phase (b : Block) (w : Nat) : Option Phase := do
  must (decide (bits w 3 1 = 0 ∧ bits w 15 8 ≤ 4 ∧ 1 ≤ bits w 63 48 ∧ bits w 511 224 = 0))
  let elastic := bit w 0
  let engines ← b.entries (bits w 95 64) 32 (bits w 31 16) engEntry
  let leases ← b.entries (bits w 127 96) 16 (bits w 47 32) (leaseEntry elastic)
  let tricks ← b.entries (bits w 159 128) 16 (bits w 63 48) (trickEntry elastic)
  let towers := (List.range 4).filter fun t => bit w (4 + t)
  let _ ← b.get (bits w 191 160) 0
  let decks ← (towers.zipIdx).mapM fun t => b.deck (bits w 191 160 + 136 * t.2) t.1
  must (decide (bits w 223 192 % 8 = 0 ∧ bits w 223 192 + 4 * bits w 15 8 ≤ b.len))
  let sets ← (List.range (bits w 15 8)).mapM fun i => b.slotSet (leRead b.mem (b.base + bits w 223 192 + 4 * i) 4)
  some { elastic := elastic, engines := engines, leases := leases, tricks := tricks, decks := decks, sets := sets }

/-- A timetable as read: its towers, length, phases and spares. -/
structure Timetable where
  towers : Nat
  len : Nat
  phases : List Phase
  spares : List Spare
/-- The timetable at a physical address, when its form holds. -/
def State.readTimetable (s : State) (a : Nat) : Option Timetable := do
  let h := leRead s.mem a 64
  let len := bits h 63 32
  must (decide (bits h 31 20 = 0 ∧ bits h 511 144 = 0 ∧ 1 ≤ bits h 15 0 ∧ bits h 15 0 ≤ 1024 ∧ 64 ≤ len ∧ len ≤ 2 ^ 24))
  let b : Block := { mem := s.mem, base := a, len := len }
  let phases ← b.entries (bits h 95 64) 64 (bits h 15 0) b.phase
  let spares ← b.entries (bits h 127 96) 8 (bits h 143 128) spareEntry
  some { towers := bits h 19 16, len := len, phases := phases, spares := spares }

/-! ### What a phase uses -/

/-- The quad of an arm unit. -/
def unitQuad (u : Nat) : Nat := if u < 3072 then u / 16 else if u < 3264 then u - 3072 else u - 3264
/-- The context slots a phase arms. -/
def Phase.slots (p : Phase) : List Nat := (p.engines.filter fun e => e.kind = 0).map (·.unit)
/-- The quads that a phase names. -/
def Phase.quads (p : Phase) : List Nat := p.engines.map (fun e => unitQuad e.unit) ++ p.leases.map (·.quad)
/-- Routers that a phase's sets list. -/
def Phase.routers (p : Phase) : List Nat := (p.sets.flatMap fun t => t.map (·.1)).eraseDups
/-- The earliest START among a phase's engine entries. -/
def Phase.first (p : Phase) : Nat :=
  match p.engines with | [] => 0 | e :: es => es.foldl (fun m x => min m x.start) e.start
/-- The cores of a phase with the images they name. -/
def Phase.images (p : Phase) : List (Nat × Nat) := ((p.engines.filter fun e => e.kind = 0).map fun e => (e.unit / 4, e.image)).eraseDups

/-! ### The checks (R363, R366, R416, R434) -/

/-- The towers that the service level offers: the lowest enabled one at level 1, every enabled one above it (R434). -/
def State.towersUp (s : State) : Nat :=
  let up := bits s.dealer.bootstate.toNat 8 5
  if 2 ≤ bits s.dealer.bootstate.toNat 4 3 then up
  else match (List.range 4).find? fun t => bit up t with | some t => 2 ^ t | none => 0
/-- `n` bytes of HBM from `pa` lie inside the function's ranges. -/
def State.inRanges (s : State) (v pa n : Nat) : Bool :=
  decide (tierOf pa = 3 ∧ tierOf (pa + n - 1) = 3) &&
    (List.range ((pa + n - 1) / 2 ^ 30 - pa / 2 ^ 30 + 1)).all fun i => partOk (s.vf v).part.toNat (pa / 2 ^ 30 * 2 ^ 30 + i * 2 ^ 30)
/-- A quad belongs to the function's partition, and holds no context of another function. -/
def State.quadOk (s : State) (v q : Nat) : Bool :=
  bit (s.vf v).part.toNat (64 + q) && s.ctxs.all fun e => !(quadOf e.1 = q && e.2.state ≠ 0 && e.2.vfid ≠ v)
/-- The bytes of a stage buffer lie in the partition, and the function's range entries map them (R335). -/
def State.stageOk (s : State) (v : Nat) (d : DeckSec) (st : Nat × Nat) : Bool :=
  st.2 = 0 ||
    (List.range ((st.1 + st.2 - 1) / 4096 - st.1 / 4096 + 1)).all fun i =>
      let x := max st.1 (4096 * (st.1 / 4096 + i))
      partOk (s.vf v).part.toNat (tsram d.tower x) && decide (x < 2 ^ 27) &&
        (rangeHit (s.vf v) ((d.vbase.toNat + x) % 2 ^ 64)).any fun h => decide (h.pa = tsram d.tower x)
/-- A router table keeps R366. -/
def tableOk (q : Nat) (t : List (BitVec 32)) : Bool :=
  let row := q % 48 / 8
  let col := q % 8
  let port := fun p : Nat =>
    match p with
    | 1 => decide (0 < row)
    | 2 => decide (col < 7)
    | 3 => decide (row < 5)
    | 4 => decide (0 < col)
    | 6 | 7 => Config.hasPort q p
    | _ => true
  (t.zipIdx).all fun e => (List.range 8).all fun o =>
    let src := bits e.1.toNat (4 * o + 2) (4 * o)
    !bit e.1.toNat (4 * o + 3) ||
      (decide (src ≠ o) && port o && port src && !(e.2 % 4 = 0 && (o = 0 || o = 5)))
/-- The Tricks of a RIGID phase: each BAR more than 48 past the start of its compute step. -/
def barsOk : Nat → List Trick → Bool
  | _, [] => true
  | t, k :: ks => decide (t + 48 < k.bar) && barsOk (k.bar + k.comm) ks
/-- START of the entries of one quad rises. -/
def leasesOk (elastic : Bool) (l : List LeaseEntry) : Bool :=
  (List.range l.length).all fun i => (List.range i).all fun j =>
    match l[j]?, l[i]? with
    | some a, some b => a.quad ≠ b.quad || (!elastic && decide (a.start < b.start))
    | _, _ => true
/-- A phase by itself passes R363. -/
def State.phaseOk (s : State) (v : Nat) (p : Phase) : Bool :=
  decide (p.engines.map (·.unit)).Nodup && p.quads.all (s.quadOk v) && p.decks.all (fun d => d.stages.all (s.stageOk v d)) &&
    leasesOk p.elastic p.leases && p.tricks.all (fun k => k.set = 0xFF || decide (k.set < p.sets.length)) &&
    (p.elastic || barsOk p.first p.tricks) &&
    p.sets.all (fun l => l.all fun r => s.quadOk v r.1 && tableOk r.1 r.2)
/-- Bytes that the restartable inputs of some images take up (R416). -/
def restartBytes (l : List ImageFile) : Nat :=
  l.foldl (fun t f => f.image.restart.foldl (fun t r => (t + 63) / 64 * 64 + r.2.toNat) t) 0
/-- The images of a phase fit together: one per core, one content per codebook slot of a quad, inputs that fit (R363, R416). -/
def State.imagesOk (s : State) (v : Nat) (p : Phase) (files : List ImageFile) : Bool :=
  let file := fun a : Nat => files.find? fun f => f.image.addr = a
  let named := p.images
  let books := named.flatMap fun n => ((file n.2).map fun f => f.image.books.map fun b => (n.1 / 4, b.1, b.2)).getD []
  decide (named.map (·.1)).Nodup &&
    books.all (fun a => books.all fun b => !(a.1 = b.1 && a.2.1 = b.2.1) || decide (a.2.2 = b.2.2)) &&
    p.engines.all (fun e => e.kind ≠ 0 || ((file e.image).map fun f => f.image.kernels.any fun k => k.1 = e.entry).getD false) &&
    decide (restartBytes (((named.map (·.2)).eraseDups).filterMap file) ≤ bits (s.vf v).part.toNat 359 350 * 2 ^ 30)
/-- The timetable passes R363 but for its images. -/
def State.timetableOk (s : State) (v a : Nat) (t : Timetable) : Bool :=
  let p := (s.vf v).part.toNat
  let towers := (t.phases.flatMap fun x => (x.quads ++ x.routers).map (· / 48) ++ x.decks.map (·.tower)) ++
    t.spares.flatMap fun x => [quadOf x.1 / 48, quadOf x.2 / 48]
  let used := towers.foldl (fun m w => m ||| 2 ^ w) t.towers
  let slots := t.phases.flatMap Phase.slots
  decide (used &&& (15 - (s.towersUp &&& bits p 7 4)) = 0) && s.inRanges v a t.len && t.phases.all (s.phaseOk v) &&
    decide (t.spares.map (·.1)).Nodup && t.spares.all fun x =>
      bit p (64 + quadOf x.1) && bit p (64 + quadOf x.2) && !slots.contains x.2

/-- The images that a timetable names, read and validated; the first that fails. -/
def State.readImages (s : State) (t : Timetable) : Except LoadReject (List ImageFile) :=
  ((t.phases.flatMap fun p => p.images.map (·.2)).eraseDups).mapM s.readImage

end Sys2Proof.Machine
end

