-- ==== Sys2Proof/Machine/Queue.lean ====
section
/-! DEFINITION. Dealer command queues (R338-R340): polling, entries and their retirement; the acceptance of a launch (R15,
R339, R363) and the NOP. -/

namespace Sys2Proof.Machine

/-! ### Descriptors and entries -/

def State.queue (s : State) (n : Nat) : DQueue := tget {} s.dealer.queues n
def State.setQueue (s : State) (n : Nat) (q : DQueue) : State := s.modDealer fun d => { d with queues := tset {} d.queues n q }
/-- Bits of a queue descriptor. -/
def DQueue.f (q : DQueue) (hi lo : Nat) : Nat := bits q.desc.toNat hi lo
/-- The address of entry `ix` (R338). -/
def DQueue.slot (q : DQueue) (ix : Nat) : Nat := q.f 63 0 + 64 * (ix % 2 ^ q.f 68 64)
/-- A write by the Dealer, at a physical address, behind the entries of its lines (R341). -/
def State.dealerWrite (s : State) (pa v n : Nat) : State := s.portWrite pa (cellsOf v n) 0
/-- A host interrupt. -/
def State.raise (s : State) (q : Nat) : State := s.modDealer fun d => { d with irqs := d.irqs ++ [q] }

/-- The entry that a queue has under way retires: STATUS, DONE, CPLADDR, the interrupt (R339). -/
def State.retire (s : State) (n status : Nat) : State :=
  match (s.queue n).entry with
  | none => s
  | some (ix, e) =>
    let s := s.dealerWrite ((s.queue n).slot ix + 2) status 2
    let q := s.queue n
    let done := (q.f 191 160 + 1) % 2 ^ 32
    let q : DQueue := { q with desc := setBits q.desc 191 160 done, entry := none, begun := false, start := 0, due := 0, failed := false }
    let s := s.setQueue n q
    let s := if q.f 255 192 = 0 then s else s.dealerWrite (q.f 255 192) done 8
    if e.getLsbD 8 then s.raise n else s

/-- A queue entry as an instruction sees it. -/
def cmdOf (q ix e : Nat) : QueueCmd :=
  { q := q, ix := ix, irq := bit e 8, opa := BitVec.ofNat 64 (bits e 127 64), opb := BitVec.ofNat 64 (bits e 191 128),
    clean := decide (bits e 15 9 = 0 ∧ bits e 511 192 = 0) }
/-- The queue's entry is this command, with code `code`. -/
def State.asked (s : State) (c : QueueCmd) (code : Nat) : Bool :=
  match (s.queue c.q).entry with
  | some (ix, e) => decide (bits e.toNat 7 0 = code ∧ cmdOf c.q ix e.toNat = c)
  | none => false

/-! ### Polling (R338, R340) -/

/-- Commands the manual assigns. -/
def knownCmd (c : Nat) : Bool := decide (c = 1 ∨ c = 2 ∨ (0x80 ≤ c ∧ c ≤ 0x92))
/-- One queue is polled: a LOG2N out of range or an overrun stops it; a new entry is read. -/
def State.pollQueue (s : State) (n : Nat) : State :=
  let q := s.queue n
  let off := setBits q.desc 72 72 0
  if !q.mapped ∨ q.f 72 72 = 0 ∨ q.unmap.isSome then s
  else if q.f 68 64 < 4 ∨ 16 < q.f 68 64 then s.setQueue n { q with desc := off }
  else
    let count := (q.f 127 96 + 2 ^ 32 - q.f 159 128) % 2 ^ 32
    if 2 ^ q.f 68 64 < count then s.setQueue n { q with desc := setBits off 75 75 1 }
    else if count = 0 ∨ q.entry.isSome then s
    else
      let head := q.f 159 128
      let e := leRead s.mem (q.slot head) 64
      let s := (s.setQueue n { q with desc := setBits q.desc 159 128 (head + 1), entry := some (head, BitVec.ofNat 512 e) }).dealerMet
        (q.f 71 69) [(q.slot head, 64)]
      if knownCmd (bits e 7 0) then s else s.retire n 1
/-- A poll is due: some queue is mapped, and the executive cycle of R42 has passed. -/
def State.pollReady (s : State) : Bool := decide (s.dealer.pollDue ≤ s.tick) && s.dealer.queues.any fun q => q.2.mapped
/-- DEALER_POLL. A cycle of at most 78 ticks stays within 1 µs at the slowest tick of R377, 12.8 ns at BSL1. -/
def execDealerPoll (s : State) : Out :=
  let t := (List.range 64).foldl State.pollQueue s
  event s.pollReady s (t.modDealer fun d => { d with pollDue := s.tick + 1 + Config.delay s.fresh 8 % 78 })

/-! ### Launches (R15, R40, R339, R363, R439) -/

def State.modLaunch (s : State) (id : Nat) (f : Launch → Launch) : State :=
  s.modDealer fun d => { d with launches := d.launches.map fun l => if l.id = id then f l else l }

/-- The Dealer accepts no launch of the function, or of any (R339, R424). -/
def State.refuses (s : State) (v : Nat) : Bool := !bit (s.vf v).part.toNat 0 || s.dealer.secalarm.getLsbD 0
/-- The offsets of the rails return to nominal (R439). -/
def Dealer.clearRails (d : Dealer) : Dealer := { d with vmargin := d.vmargin.map fun e => (e.1, setBits e.2 7 0 0) }
/-- A launch as accepted, with the inputs that its images list. -/
def launchOf (id q ix v : Nat) (args : Word) (t : Timetable) (files : List ImageFile) : Launch :=
  { id := id, q := q, ix := ix, vf := v, args := args, towers := t.towers, phases := t.phases, spares := t.spares,
    tags := (t.phases.flatMap fun p => p.tricks.map (·.tag)).eraseDups
    restarts := files.map fun f => (f.image.addr, f.image.restart) }
/-- What the Dealer reads to accept a launch: the timetable, and its images where it has a form. -/
def State.launchReads (s : State) (a : Nat) : List (Nat × Nat) :=
  match s.readTimetable a with
  | none => [(a, 64)]
  | some t => (a, t.len) :: match s.readImages t with
    | .error r => [(r.image, 64)]
    | .ok files => files.flatMap ImageFile.reads
/-- LAUNCH: the timetable and its images are read and checked, and the launch waits for its arming. -/
def State.acceptLaunch (s : State) (c : QueueCmd) : State :=
  let v := (s.queue c.q).f 71 69
  let s := s.modDealer Dealer.clearRails
  if !c.clean ∨ s.refuses v then s.retire c.q 1 else
  let s := s.dealerMet v (s.launchReads c.opa.toNat)
  match s.readTimetable c.opa.toNat with
  | none => s.retire c.q 2
  | some t =>
    if !s.timetableOk v c.opa.toNat t then s.retire c.q 2 else
    match s.readImages t with
    | .error r => (s.modDealer fun d => { d with rejects := d.rejects ++ [r] }).retire c.q 2
    | .ok files =>
      if !files.all (fun f => s.inRanges v f.image.addr f.span) || !t.phases.all (s.imagesOk v · files) then s.retire c.q 2
      else
        let l := launchOf s.dealer.nextLaunch c.q c.ix v c.opb t files
        (s.setQueue c.q { s.queue c.q with begun := true, start := s.tick }).modDealer fun d =>
          { d with launches := d.launches ++ [l], nextLaunch := d.nextLaunch + 1, launched := true }
/-- LAUNCH. -/
def execLaunch (c : QueueCmd) (s : State) : Out :=
  event (s.asked c 0x01 && !(s.queue c.q).begun) s (s.acceptLaunch c)
/-- NOP (R339). -/
def execNopCmd (c : QueueCmd) (s : State) : Out := event (s.asked c 0x02) s (s.retire c.q (if c.clean then 0 else 1))

end Sys2Proof.Machine
end

