-- ==== Sys2Proof/Machine/Turn.lean ====
section
/-! DEFINITION. Fetching a bundle (R108-R112), whose turn it is on a core (R34, R35), and the end of a tick as far as the Dealer asks for it. -/

namespace Sys2Proof.Machine

/-- A context that may issue. -/
def Ctx.runs (c : Ctx) : Bool := (c.state = 1 || c.state = 2) && c.stop = .running && !c.halting

/-- The place of a context in its core's order of this tick: the last issuer first, or last when the core was idle. -/
def State.turn (s : State) (g : Nat) : Nat :=
  let c := s.core' (coreOf g)
  let after := (g % 4 + 4 - c.k) % 4
  let busy := match c.issuedAt with | some t => decide (t + 1 = s.tick) | none => false
  4 * coreOf g + if busy then after else (after + 3) % 4

/-! ### Fetch (R108-R112) -/

/-- The bundle of the context at issue, with whether it is a literal; or the fault its fetch takes. -/
def State.fetch (s : State) (g : Nat) : Except Nat (Nat × Bool) :=
  let core := s.core' (coreOf g)
  let pc := (s.ctx g).pc
  match core.image with
  | none => .error 0x03
  | some i =>
    if i.stream.length ≤ pc then .error 0x03
    else if core.badHalf.contains pc then .error 0x04
    else
      let h := i.stream.getD pc 0
      if h = 0 then .ok (0, false)
      else if h < 0x800 then
        if i.entries.length ≤ h then .error 0x01
        else if core.badEntry.contains h then .error 0x04
        else .ok (i.entries.getD h 0, false)
      else if h = 0xFFFE then
        if (List.range 24).any fun j => core.badHalf.contains (pc + 1 + j) then .error 0x04
        else .ok (((List.range 24).map fun j => i.stream.getD (pc + 1 + j) 0 % 2 ^ 16).foldr (fun x a => x + 2 ^ 16 * a) 0, true)
      else .error 0x02

/-- The syllable of a slot that a context issues next. -/
def State.slotNext (s : State) (g : Nat) (k : Slot) : Option Instr :=
  match s.fetch g with
  | .ok (w, _) => (decodeSyl k (sylAt w k.num)).toOption
  | .error _ => none

/-! ### The order of a tick's attempts -/

/-- A context may still try its bundle in this tick: it has not, and its core has issued none. -/
def State.mayTry (s : State) (g : Nat) : Bool :=
  (s.ctx g).runs && !s.tried.contains g && decide ((s.core' (coreOf g)).issuedAt ≠ some s.tick)
/-- The owner of the stage for which the `stacq` of context `g` would block, on another core, where it has still to issue the `strel` that
flips the stage for it: `g` waits, for it sees a flip of its own tick (R337). -/
def State.flipOwner (s : State) (g : Nat) : Option Nat :=
  let t := towerOf g
  let stageOf := fun (h : Nat) (x : BitVec 7) => (State.rs { s with cur := h, fresh := s.fresh + 1 } x).toNat
  match s.slotNext g .c with
  | some (.stacq o) =>
    let n := stageOf g o.a
    let st := tget {} (s.tower t).deck n
    let full := bit o.xmod.toNat 0
    let waits := decide (n < 16) && st.owned && decide (st.vf = (s.ctx g).vfid) && (st.full != full) && (st.first full).isNone &&
      decide (st.owner < 3072 ∧ towerOf st.owner = t ∧ coreOf st.owner ≠ coreOf g) && s.mayTry st.owner &&
      (match s.slotNext st.owner .c with | some (.strel p) => decide (stageOf st.owner p.a = n) | _ => false)
    if waits then some st.owner else none
  | _ => none
/-- Context `g` waits for a flip of its tick. -/
def State.awaitsFlip (s : State) (g : Nat) : Bool := (s.flipOwner g).isSome
/-- The buffer of its quad on which the `cspush` that a context issues next appends. -/
def State.pushBuffer (s : State) (g : Nat) : Option Nat :=
  match s.slotNext g .e with
  | some (.cspush o) => some (bits o.d.toNat 1 0)
  | _ => none
/-- A context of a lower core of the quad waits for a flip of its tick, with a `cspush` on the buffer of the `cspush` of context `g`: `g` waits
for it, since the buffer takes the commands of a tick in increasing core number (R188), where the flip is not that of its own core. -/
def State.awaitsPush (s : State) (heads : List Nat) (g : Nat) : Bool :=
  match s.pushBuffer g with
  | none => false
  | some b => heads.any fun h => decide (quadOf h = quadOf g ∧ coreOf h < coreOf g) && s.pushBuffer h = some b &&
      (s.flipOwner h).any fun o => decide (coreOf o ≠ coreOf g)
/-- The lowest of several places in the order. -/
def lowestTurn (l : List (Nat × Nat)) : Option (Nat × Nat) :=
  l.foldl (fun best x => match best with | some b => if x.1 < b.1 then some x else some b | none => some x) none
/-- The next context to try, with its place: the first in turn of each core, cores ascending, but one that awaits a flip, or a push before
its own, behind the others. -/
def State.nextIssue (s : State) : Option (Nat × Nat) :=
  let all := s.ctxs.filterMap fun e => if s.mayTry e.1 then some (s.turn e.1, e.1) else none
  let heads := all.filter fun x => all.all fun y => decide (coreOf y.2 ≠ coreOf x.2 ∨ x.1 ≤ y.1)
  match heads with
  | [] => none
  | [x] => some x
  | _ =>
    let gs := heads.map (·.2)
    (lowestTurn (heads.filter fun x => !s.awaitsFlip x.2 && !s.awaitsPush gs x.2)).or
      ((lowestTurn (heads.filter fun x => !s.awaitsPush gs x.2)).or (lowestTurn heads))

/-- Every issue attempt of the tick has been made. -/
def State.tickDone (s : State) : Bool := s.nextIssue.isNone

/-! ### The sequential advance (R143) -/

/-- A loop register after a sequential advance to `nx` (R143): the new COUNT, and whether it loops back. -/
def loopCheck (lp : Word) (nx : Nat) : Option (Word × Bool) :=
  let v := lp.toNat
  let n := bits v 23 0
  if nx = bits v 63 44 ∧ 1 < n then some (lpWord (n - 1) (bits v 43 24) (bits v 63 44), true)
  else if nx = bits v 63 44 ∧ n = 1 then some (lpWord 0 (bits v 43 24) (bits v 63 44), false)
  else none

/-- The sequential advance to `nx` loops back (R143). -/
def Ctx.loopsBack (c : Ctx) (nx : Nat) : Bool :=
  (loopCheck c.lp1 nx).any (·.2) || (loopCheck c.lp0 nx).any (·.2)
/-- The sequential advance: LP1, then LP0 (R143). -/
def Ctx.advance (c : Ctx) (nx : Nat) : Ctx :=
  match loopCheck c.lp1 nx with
  | some (v, true) => { c with lp1 := v, pc := bits v.toNat 43 24 }
  | r =>
    let c := match r with | some (v, _) => { c with lp1 := v } | none => c
    match loopCheck c.lp0 nx with
    | some (v, true) => { c with lp0 := v, pc := bits v.toNat 43 24 }
    | some (v, false) => { c with lp0 := v, pc := nx }
    | none => { c with pc := nx }

end Sys2Proof.Machine
end

