-- ==== Sys2Proof/Machine/Block.lean ====
section
/-! DEFINITION. Blocks of memory that the Dealer moves: raw copies with their error marks (R250, R416, R430) and zeroing
(R423, R435, R440). -/

namespace Sys2Proof.Machine

/-! ### Bytes -/

/-- `n` bytes from `src` stand at `dst`. -/
def blit (m : List Host.Cell) (src dst n : Nat) : List Host.Cell :=
  (m.filter fun c => decide (c.1 < dst)) ++
    ((m.filter fun c => decide (src ≤ c.1 ∧ c.1 < src + n)).map fun c => (c.1 - src + dst, c.2)) ++
    m.filter fun c => decide (dst + n ≤ c.1)
/-- `n` bytes from `a` are zero. -/
def wipe (m : List Host.Cell) (a n : Nat) : List Host.Cell := m.filter fun c => decide (c.1 < a ∨ a + n ≤ c.1)

/-! ### Error marks -/

/-- Protected units that meet `n` bytes from `a`. -/
def unitsOf (a n : Nat) : List Nat :=
  if n = 0 then [] else (List.range ((eccUnit (a + n - 1) - eccUnit a) / eccSize a + 1)).map fun i => eccUnit a + i * eccSize a
/-- Marks outside the units that `n` bytes from `a` cover whole. -/
def marksLeft (l : List Nat) (a n : Nat) : List Nat := l.filter fun u => decide (u < a ∨ a + n < u + eccSize u)
/-- Marks that `n` bytes carry from `src` to `dst`. -/
def marksMoved (l : List Nat) (src dst n : Nat) : List Nat :=
  (l.filter fun u => decide (u < src + n ∧ src < u + eccSize u)).flatMap fun u =>
    let lo := max u src
    unitsOf (lo - src + dst) (min (u + eccSize u) (src + n) - lo)

/-! ### Moves -/

/-- Triggers on the words of a written range are tested (R390). -/
def State.testRange (s : State) (a n : Nat) : State :=
  (s.towers.flatMap fun w => w.2.trigs.filterMap fun e =>
    if e.2.valid ∧ e.2.caddr < a + n ∧ a < e.2.caddr + 8 then some e.2.caddr else none).foldl State.testTrigger s
/-- A raw copy of `n` bytes between physical addresses, with its error marks (R250). -/
def State.rawCopy (s : State) (src dst n : Nat) : State :=
  let inside := fun a line : Nat => decide (64 * line < a + n ∧ a < 64 * line + 64)
  let s := ((s.cleanLines fun l => inside src l || inside dst l).dropLines (inside dst))
  let left := marksLeft s.memBad dst n
  State.testRange
    { s with mem := blit s.mem src dst n
             memBad := left ++ (marksMoved s.memBad src dst n).eraseDups.filter fun u => !left.contains u
             memSoft := marksLeft s.memSoft dst n } dst n
/-- `n` bytes from `a` become zero. -/
def State.zero (s : State) (a n : Nat) : State :=
  { s with mem := wipe s.mem a n, memBad := marksLeft s.memBad a n, memSoft := marksLeft s.memSoft a n }

end Sys2Proof.Machine
end

