-- ==== Sys2Proof/Machine/Launch.lean ====
section
/-! DEFINITION. A launch at work: shared resources (R40), arming (R15, R16, R358, R379-R381), image loads (R113, R348), the start
of engines (R18, R19, R47), lease runs (R31, R359), barriers and Tricks (R26-R28, R383), and retirement (R339, R344). -/

namespace Sys2Proof.Machine

/-! ### Shared resources (R40) -/

/-- Quads that a timetable names: engines, leases, routers and spares. -/
def Launch.quads (l : Launch) : List Nat :=
  ((l.phases.flatMap fun p => p.quads ++ p.sets.flatMap fun t => t.map (·.1)) ++ l.spares.map fun x => quadOf x.2).eraseDups
/-- Towers whose Deck it names. -/
def Launch.decks (l : Launch) : List Nat := (l.phases.flatMap fun p => p.decks.map (·.tower)).eraseDups
/-- The save frames of a launch's contexts: function, slot, occupant. -/
def State.savedOf (s : State) (id : Nat) : List (Nat × Nat × Saved) :=
  s.vfs.flatMap fun v => v.2.saved.filterMap fun e => match e.2 with
    | some d => if d.launch = some id then some (v.1, e.1, d) else none
    | none => none
/-- The live contexts of a launch. -/
def State.liveOf (s : State) (id : Nat) : List (Nat × Ctx) := s.ctxs.filter fun e => e.2.launch = some id && e.2.state ≠ 0
/-- A launch has left a quad: its contexts there were pre-empted, and no engine of the quad works for it (R411). -/
def State.hasLeft (s : State) (l : Launch) (q : Nat) : Bool :=
  let mine := fun k : Cmd => decide (k.launch = some l.id)
  let x := s.quad q
  l.yields && (s.liveOf l.id).all (fun e => quadOf e.1 ≠ q) && (s.savedOf l.id).any (fun d => quadOf d.2.1 = q) &&
    x.runs.all (fun r => !mine r.cmd) && x.copyq.all (fun k => !mine k) && x.copyHeld.all (fun k => !mine k) && !x.copyRun.any mine
/-- Towers that a BIST command tests (R440). -/
def State.testing (s : State) : Nat :=
  s.dealer.queues.foldl (fun m q => match q.2.entry with
    | some (_, e) => if q.2.begun ∧ bits e.toNat 7 0 = 0x8B then m ||| bits e.toNat 67 64 else m
    | none => m) 0
/-- A launch that was accepted earlier holds something that this one names, or a test runs on a tower that it names. -/
def State.delayed (s : State) (l : Launch) : Bool :=
  decide ((l.quads.foldl (fun m q => m ||| 2 ^ (q / 48)) l.towers) &&& s.testing ≠ 0) || s.dealer.launches.any fun m =>
    decide (m.id < l.id) && (m.tags.any l.tags.contains || m.decks.any l.decks.contains ||
      m.quads.any fun q => l.quads.contains q && !s.hasLeft m q)
/-- Only quads stand in its way. -/
def State.delayedByQuads (s : State) (l : Launch) (q : Nat) : Bool :=
  s.delayed l && l.quads.contains q &&
    !s.dealer.launches.any fun m => decide (m.id < l.id) && (m.tags.any l.tags.contains || m.decks.any l.decks.contains)

/-- A launch that the Dealer pre-empted waits while a later one wants its quads (R411). -/
def State.yielding (s : State) (l : Launch) : Bool :=
  l.yields && s.dealer.launches.any fun m => decide (l.id < m.id) && m.quads.any l.quads.contains

/-! ### Arm ticks (R16, R358) -/

def Launch.workOf (l : Launch) (n u : Nat) : Option EngWork := l.work.find? fun w => w.phase = n && w.unit = u
/-- The tick at which an engine's work in a phase ended. -/
def Launch.workEnd (l : Launch) (n u : Nat) : Option Nat := (l.workOf n u).bind fun w => if w.st = 3 then some w.done' else none
/-- The tick at which a phase ended as a whole; one without engines ends with its predecessor. -/
def Launch.phaseEnd (l : Launch) : Nat → Option Nat
  | 0 =>
    match l.phases[0]? with
    | some p => if p.engines.isEmpty then (if l.timed then some l.t0 else none) else close 0 p
    | none => none
  | n + 1 =>
    match l.phases[n + 1]? with
    | some p => if p.engines.isEmpty then l.phaseEnd n else close (n + 1) p
    | none => none
where
  /-- The last end among a phase's engines. -/
  close (n : Nat) (p : Phase) : Option Nat :=
    let ds := p.engines.map fun e => l.workEnd n e.unit
    if ds.all Option.isSome then some (ds.foldl (fun m d => max m (d.getD 0)) 0) else none
/-- The tick that an engine's arm register takes. -/
def Launch.armAt (l : Launch) (n : Nat) (p : Phase) (e : EngEntry) : Option Nat :=
  let base :=
    if !p.elastic ∨ n = 0 then some l.t0
    else if (l.phases[n - 1]?).any fun o => o.engines.any fun x => x.unit = e.unit then l.workEnd (n - 1) e.unit
    else l.phaseEnd (n - 1)
  base.map (· + e.start)
/-- The register of an engine is free for the next phase: no launch waits for its start (R381). -/
def State.armFree (s : State) (u : Nat) : Bool :=
  !(s.arm u).armed || (s.arm u).started || s.dealer.launches.all fun l => l.work.all fun w => !(w.unit = u && w.st = 1)
/-- The fault record of an engine that slipped: a context slot's (KIND 0) or another engine's (KIND 2). -/
def State.slipNote (s : State) (l : Launch) (u : Nat) : FaultNote :=
  { kind := if u < 3072 then 0 else 2, code := 0x0D, vf := l.vf, g := if u < 3072 then u else unitQuad u,
    pc := if u < 3072 then (s.ctx u).pc else 0, point := (faultWord 0 0x0D 0 0).toNat, tick := s.tick, launch := some l.id }
/-- A context slot that slips has FAULTPT and FAULTPC written, if a context stands there (R62). -/
def State.slipMark (s : State) (u : Nat) : State :=
  if u < 3072 ∧ (s.ctx u).state ≠ 0 then s.modCtx u fun c => { c with faultpt := faultWord 0 0x0D 0 0, faultpc := c.pc } else s
/-- An engine slips (R20, R380). -/
def State.slipUnit (s : State) (l : Launch) (u : Nat) : State :=
  (((s.setArm u { s.arm u with slipped := true }).slipMark u)).slip (s.slipNote l u)

/-! ### Snapshots (R416) -/

/-- The restartable inputs that an image of a launch lists, as the Dealer last read it (R348). -/
def Launch.inputs (l : Launch) (a : Nat) : List (Word × Word) := ((l.restarts.find? fun r => r.1 = a).map (·.2)).getD []
/-- The inputs of a phase's images, in the order of the lists: image, address, length. -/
def Launch.phaseInputs (l : Launch) (p : Phase) : List (Nat × Word × Nat) :=
  ((p.images.map (·.2)).eraseDups).flatMap fun a => (l.inputs a).map fun r => (a, r.1, r.2.toNat)
/-- The places of some inputs from byte `lo` of the snapshot area, each aligned to 64 bytes, and the byte behind the last. -/
def snapLayout (lo : Nat) (l : List (Nat × Word × Nat)) : Nat × List (Nat × Word × Nat × Nat) :=
  l.foldl (fun t r =>
    let at' := (t.1 + 63) / 64 * 64
    (at' + r.2.2, t.2 ++ [(r.1, r.2.1, r.2.2, at')])) (lo, [])
/-- The first byte of phase `n` in the snapshot area: behind the phases before it, and at the area's beginning when it does not fit there. -/
def Launch.snapFrom (l : Launch) (area : Nat) : Nat → Nat
  | 0 => 0
  | n + 1 =>
    let of := fun i : Nat => ((l.phases[i]?).map l.phaseInputs).getD []
    let lo := (snapLayout (l.snapFrom area n) (of n)).1
    if (snapLayout lo (of (n + 1))).1 ≤ area then lo else 0
/-- Where the inputs of a phase's images are kept: image, address, length, snapshot; packed in the order of the lists (R416). -/
def State.snapPlaces (s : State) (l : Launch) (n : Nat) (p : Phase) : List (Nat × Word × Nat × Nat) :=
  let part := (s.vf l.vf).part.toNat
  let base := hbm (bits part 349 340 * 2 ^ 30)
  (snapLayout (l.snapFrom (bits part 359 350 * 2 ^ 30) n) (l.phaseInputs p)).2.map fun e => (e.1, e.2.1, e.2.2.1, base + e.2.2.2)
/-- Raw bytes between a function's memory and a snapshot, page by page; bytes that do not map stay as they are. -/
def State.snapMove (s : State) (v : Nat) (e : Word × Nat × Nat) (back : Bool) : State :=
  let (va, len, snap) := e
  if len = 0 then s else
  (List.range ((va.toNat % 4096 + len + 4095) / 4096)).foldl (fun s i =>
    let lo := if i = 0 then 0 else 4096 * i - va.toNat % 4096
    let hi := min len (4096 * (i + 1) - va.toNat % 4096)
    let at' := va + BitVec.ofNat 64 lo
    let told := s.walked v nobody at'
    match s.xmap v at' with
    | .ok x =>
      let (a, b) := if back then (snap + lo, x.pa) else (x.pa, snap + lo)
      (told.dealerMet v [(a, hi - lo)]).rawCopy a b (hi - lo)
    | .error _ => told) s
/-- The snapshots of an image in a phase go back to their inputs (R418). -/
def State.snapBack (s : State) (l : Launch) (n a : Nat) : State :=
  (l.snaps.filter fun x => decide (x.1 = n ∧ x.2.1 = a)).foldl (fun s x => x.2.2.foldl (fun s e => s.snapMove l.vf e true) s) s

/-! ### PHASE_ARM (R15, R16, R336, R357, R361, R367, R379-R382) -/

/-- A Deck section fills its stages. -/
def State.setDeck (s : State) (v : Nat) (d : DeckSec) : State :=
  s.modTower d.tower fun w =>
    { w with vbase := d.vbase
             deck := (d.stages.zipIdx).foldl (fun t e => tset {} t e.2 { bufoff := e.1.1, buflen := e.1.2, vf := v }) w.deck }
/-- Decks that phase `n` names first are set (R336). -/
def State.setDecks (s : State) (id n : Nat) : State :=
  match s.launch id with
  | none => s
  | some l =>
    let new := ((l.phases[n]?).elim [] (·.decks)).filter fun d => !bit l.decksSet d.tower
    (new.foldl (fun s d => s.setDeck l.vf d) s).modLaunch id fun l => { l with decksSet := new.foldl (fun m d => m ||| 2 ^ d.tower) l.decksSet }
/-- The arming of phase `n` begins; with the first the tags of the launch become its own. -/
def State.prepare (s : State) (l : Launch) (n : Nat) : State :=
  if l.phases.length ≤ n then s else
  let s := if n ≠ 0 then s else
    l.tags.foldl (fun s t => s.setBar t { gen := (s.bar t).gen, vf := l.vf, owned := true, launch := l.id }) s
  s.modLaunch l.id fun l => { l with armed := n + 1 }
/-- Banks and the open table of a router. -/
def slotKey (q bank i : Nat) : Nat := 1280 * (q % 48) + 256 * bank + i
/-- Routers that a launch sets: those of its function's quads, but for what another armed launch names. -/
def State.routersOf (s : State) (l : Launch) : List Nat :=
  (List.range 192).filter fun q => bit (s.vf l.vf).part.toNat (64 + q) &&
    s.dealer.launches.all fun m => m.id = l.id || m.armed = 0 || !m.quads.contains q
/-- A phase's slot sets are loaded into the banks; a router that a set does not list has an open bank (R367). -/
def State.loadSets (s : State) (l : Launch) (p : Phase) : State :=
  let routers := s.routersOf l
  (p.sets.zipIdx).foldl (fun s e => routers.foldl (fun s q =>
    let table := ((e.1.find? fun r => r.1 = q).map (·.2)).getD []
    s.modTower (q / 48) fun w =>
      { w with slots := (List.range 256).foldl (fun t i => tset 0 t (slotKey q e.2 i) (table.getD i 0)) w.slots }) s) s
/-- The active bank of a launch's routers. -/
def State.setBank (s : State) (l : Launch) (bank : Nat) : State :=
  (s.routersOf l).foldl (fun s q => s.modTower (q / 48) fun w => { w with bank := tset 4 w.bank (q % 48) bank }) s
/-- The entry of a router's active table in this tick (R365). -/
def State.slotEntry (s : State) (q : Nat) : BitVec 32 :=
  let w := s.tower (q / 48)
  tget 0 w.slots (slotKey q (tget 4 w.bank (q % 48)) (s.tick % 256))
/-- The input port whose flit leaves on output `o` in this tick; none in an open slot (R365). -/
def State.slotSource (s : State) (q o : Nat) : Option Nat :=
  let e := (s.slotEntry q).toNat
  if bit e (4 * o + 3) then some (bits e (4 * o + 2) (4 * o)) else none
/-- The outputs that a flit on input port `i` is copied to in this tick (R365). -/
def State.slotCopies (s : State) (q i : Nat) : List Nat := (List.range 8).filter fun o => s.slotSource q o = some i

/-- Cores hold the images that phase 0 names, loaded for this launch (R348). -/
def State.placed (s : State) (l : Launch) (c a : Nat) : Bool :=
  l.loaded.contains (c, a) && ((s.core' c).image.map (·.addr)) == some a
/-- The image stands in a core. -/
def State.resident (s : State) (a : Nat) : Bool := s.cores.any fun c => c.2.image.any fun i => i.addr = a
/-- The inputs of an image are kept for a phase, or it lists none. -/
def Launch.kept (l : Launch) (n a : Nat) : Bool := (l.inputs a).isEmpty || l.snaps.any fun x => decide (x.1 = n ∧ x.2.1 = a)
/-- The tasks of a phase have ended for good: its snapshots are needed no more. -/
def Launch.tasksOver (l : Launch) (n : Nat) : Bool :=
  ((l.phases[n]?).elim [] Phase.slots).all (fun g => (l.workOf n g).any fun w => w.st = 3) && l.redos.all fun r => r.phase ≠ n
/-- Two snapshots lie over each other. -/
def snapsMeet (a b : Word × Nat × Nat) : Bool := decide (a.2.2 < b.2.2 + b.2.1 ∧ b.2.2 < a.2.2 + a.2.1)
/-- The snapshots of a phase's image are made once, from the list that the Dealer read last (R348, R416). DESIGN CHOICE: where the phases of a
launch do not fit into the area together, those of a phase wait until the tasks of an earlier phase in their place have ended (log 54). -/
def State.snap (s : State) (l : Launch) (n : Nat) (p : Phase) (a : Nat) : State :=
  if l.kept n a then s
  else
    let places := ((s.snapPlaces l n p).filter fun e => e.1 = a).map (·.2)
    let under := l.snaps.filter fun x => decide (x.1 ≠ n) && x.2.2.any fun e => places.any (snapsMeet e)
    if !under.all fun x => l.tasksOver x.1 then s
    else (places.foldl (fun s e => s.snapMove l.vf e false) s).modLaunch l.id fun l =>
      { l with snaps := (l.snaps.filter fun x => !under.contains x) ++ [(n, a, places)] }
/-- Those of an ELASTIC phase, once the image is resident. -/
def State.snapOnce (s : State) (l : Launch) (n : Nat) (p : Phase) (a : Nat) : State :=
  if s.resident a then s.snap l n p a else s
/-- The snapshots of every RIGID phase that fits beside those before it are made before T0 (R15, R416). -/
def State.snapRigid (s : State) (l : Launch) : State :=
  l.phases.zipIdx.foldl (fun s p =>
    if p.1.elastic then s else (p.1.images.map (·.2)).eraseDups.foldl (fun s a => s.snap ((s.launch l.id).getD l) p.2 p.1 a) s) s
/-- One engine is armed; a RIGID tick that has passed slips at once (R380). -/
def State.armEngine (s : State) (l : Launch) (n : Nat) (p : Phase) (e : EngEntry) (t : Nat) : State :=
  let s := if e.kind = 0 then s.snapOnce ((s.launch l.id).getD l) n p e.image else s
  let s := s.setArm e.unit { tick := t, armed := true, elastic := p.elastic }
  let s := s.modLaunch l.id fun l => { l with work := l.work ++ [{ phase := n, unit := e.unit }] }
  if !p.elastic ∧ t < s.tick then s.slipUnit l e.unit else s
/-- A base tick: a multiple of 64, not in the past (R15). -/
def State.baseTick (s : State) : Nat := 64 * ((s.tick + 63) / 64 + Config.number s.fresh 10)
/-- An engine of phase `n` that can be armed now. -/
def State.nextArm (s : State) (l : Launch) (n : Nat) (p : Phase) : Option (EngEntry × Nat) :=
  p.engines.findSome? fun e =>
    if (l.workOf n e.unit).isSome ∨ !s.armFree e.unit then none else (l.armAt n p e).map fun t => (e, t)
/-- Every engine of a phase has been armed. -/
def Launch.allArmed (l : Launch) (n : Nat) : Bool := (l.phases[n]?).all fun p => p.engines.all fun e => (l.workOf n e.unit).isSome

/-- The lease entries of RIGID phases for a quad, in order (R359). -/
def Launch.leaseRuns (l : Launch) (q : Nat) : List LeaseEntry :=
  l.phases.flatMap fun p => if p.elastic then [] else p.leases.filter fun e => e.quad = q
/-- A quad's lease passes to a timetable's holder: a fresh run, of the commands after `n` (R30, R31). -/
def State.grantRun (s : State) (n : Nat) (e : LeaseEntry) : State :=
  s.modQuad e.quad fun x => { x with lease := x.lease.given s.tick n (4 * e.core + e.k) }
/-- The pending arrivals of a launch are discarded (R385). -/
def State.dropArrivals (s : State) (l : Launch) : State :=
  let gens := l.tags.map fun n => (n, (s.bar n).gen)
  let fresh := fun a : Tbl (Option Nat) => a.filter fun e => !gens.any fun g => g.1 = e.1 && some g.2 = e.2
  let s := (s.liveOf l.id).foldl (fun s e => s.modCtx e.1 fun c => { c with arrivals := fresh c.arrivals }) s
  (s.savedOf l.id).foldl (fun s d => s.modSaved d.1 d.2.1 fun x => { x with arrivals := fresh x.arrivals }) s
/-- The rest of an interrupted RIGID phase is armed with a new base tick (R41): planned ticks count from it. What the barriers had not
completed starts afresh (R385), and the lease run in force goes on: what its holder had issued under it still belongs to it. -/
def State.rearm (s : State) (l : Launch) : State :=
  let t := s.baseTick
  let waiting := l.work.filter fun w => w.st = 1 && l.rigidAt w.phase
  let start := fun w : EngWork =>
    ((l.phases[w.phase]?).bind fun p => p.engines.find? fun e => e.unit = w.unit).elim 0 (·.start)
  let s := waiting.foldl (fun s w => s.setArm w.unit { s.arm w.unit with tick := t + start w, slipped := false }) s
  let s := l.tags.foldl (fun s n => s.setBar n { s.bar n with arrived := 0, heldB := false, doneAt := none }) (s.dropArrivals l)
  let s := (s.savedOf l.id).foldl (fun s d => s.modSaved d.1 d.2.1 fun x => { x with due := t }) s
  let inForce := l.leaseIx.filterMap fun e => if e.2 = 0 then none else (l.leaseRuns e.1)[e.2 - 1]?
  let s := if l.rigidAt l.phase then inForce.foldl (fun s e => s.grantRun (tget s.serial l.leaseSince e.quad) e) s else s
  s.modLaunch l.id fun l => { l with st := .running, yields := false, stopAt := none, slipAt := [], heldAt := [], t0 := t, commEnd := l.commEnd.map fun c => c + t - l.t0 }

/-- Snapshots that an armed slot still waits for, where their place has come free (R416). -/
def State.snapLate (s : State) (l : Launch) : Option State :=
  let slots := l.work.filterMap fun w =>
    if w.st ≠ 1 then none
    else (l.phases[w.phase]?).bind fun p => (p.engines.find? fun e => e.unit = w.unit && e.kind = 0 && !l.kept w.phase e.image).map fun e => (w.phase, p, e.image)
  slots.findSome? fun w =>
    let t := s.snapOnce l w.1 w.2.1 w.2.2
    if (t.launch l.id).any fun m => m.kept w.1 w.2.2 then some t else none
/-- What arms next for a launch. -/
def State.phaseArm (s : State) (l : Launch) : Option State :=
  if l.st = .stopped then
    if l.hold ∨ s.yielding l ∨ !(s.liveOf l.id).isEmpty then none else some (s.rearm l)
  else if l.st ≠ .running then none
  else if l.armed = 0 then (if s.delayed l then none else some (s.prepare l 0))
  else if !l.timed then
    match l.phases[0]? with
    | none => none
    | some p =>
      if p.images.all (fun x => s.placed l x.1 x.2) && p.engines.all (fun e => s.armFree e.unit) then
        let t := s.baseTick
        let s := (s.snapRigid l).modLaunch l.id fun l => { l with timed := true, t0 := t }
        some (p.engines.foldl (fun s e => s.armEngine ((s.launch l.id).getD l) 0 p e (t + e.start)) s)
      else none
  else
    let n := l.armed - 1
    let sets := if l.sets < l.armed ∧ (l.sets = 0 ∨ (l.phaseEnd (l.sets - 1)).isSome) then l.phases[l.sets]? else none
    match sets with
    | some p => some ((s.loadSets l p).modLaunch l.id fun l => { l with sets := l.sets + 1 })
    | none =>
      match (l.phases[n]?).bind fun p => (s.nextArm l n p).map fun e => (p, e) with
      | some (p, e, t) => some (s.armEngine l n p e t)
      | none => if l.allArmed n ∧ l.armed < l.phases.length then some (s.prepare l l.armed) else s.snapLate l
/-- PHASE_ARM. -/
def execPhaseArm (id : Nat) (s : State) : Out := .next (((s.launch id).bind s.phaseArm).getD s)

/-! ### Kills (R409) -/

/-- The Meld lines and queued writes of an owner have none any more. -/
def State.disown (s : State) (h : Nat) : State :=
  let s := s.meldFlush h 0xFFFF
  { s with wq := s.wq.map fun (e : WqEntry) => if e.g = h then { e with g := nobody + slotOf h } else e }
/-- The tiles that an owner's output streams have taken are written, and their bytes counted (R402, R409). -/
def State.flushTiles (s : State) (h : Nat) : State :=
  (List.range 8).foldl (fun s n =>
    let t := s.slotStream h n
    match t.walk with
    | some (l, hs, w) =>
      if !t.bound ∨ !t.out then s else
      t.tiles.foldl (fun s x =>
        let a := ((List.range (elems w)).foldl (TileAcc.put (s.streamCmd h t) l hs x.1 x.2) { s := s }).done
        a.s.modQuad (quadOf (ownerSlot h)) fun q => { q with ctr := ctrWrap q.ctr 0x24 0 ((a.bytes + 7) / 8) }) s
    | none => s) s
/-- Plane commands of a quad that some layer has not begun. -/
def Quad.unbegun (x : Quad) (mine : Cmd → Bool) : List Nat :=
  (x.planes.filter fun (p : Cmd × Nat) => mine p.1 && x.planeq.any fun (t : Nat × List Nat) => t.2.contains p.1.serial).map fun p => p.1.serial
/-- A layer no longer works for a plane command that it had not begun. -/
def Quad.cutPlane (x : Quad) (gone : List Nat) (p : Cmd × Nat) : Cmd × Nat :=
  if gone.contains p.1.serial then
    (p.1, (List.range 8).foldl (fun m i => if (tget [] x.planeq i).contains p.1.serial ∧ bit m i then m - 2 ^ i else m) p.2)
  else p
/-- A sequencer that stopped for a discarded command is free. -/
def Quad.cutSeq (x : Quad) (mine : Cmd → Bool) (z : Seq) : Seq :=
  if x.stops.any (fun r => mine r.run.cmd && decide (r.run.cmd.serial = z.serial)) ||
      x.parked.any (fun k => mine k && k.started && decide (k.serial = z.serial))
  then { z with running := false, held := false, acted := false } else z
/-- What a quad drops of a killed launch: what has not been dispatched, its stop records, and parked commands. -/
def Quad.discard (x : Quad) (mine : Cmd → Bool) : Quad :=
  let left := fun l : List Cmd => l.filter fun k => !mine k
  let begun := fun l : List Cmd => l.filter fun k => !mine k || k.started
  let gone := x.unbegun mine
  let idle := fun n : Nat =>
    x.runs.all (fun r => decide (r.cmd.serial ≠ n)) && x.seqs.all fun (z : Nat × Seq) => !(z.2.running && decide (z.2.serial = n))
  let planeq : Tbl (List Nat) := (x.planeq.map fun (t : Nat × List Nat) => (t.1, t.2.filter fun n => !gone.contains n)).filter fun t => !t.2.isEmpty
  let planes := (x.planes.filter fun (p : Cmd × Nat) => !(gone.contains p.1.serial && idle p.1.serial)).map (x.cutPlane gone)
  let seqs : Tbl Seq := x.seqs.map fun (z : Nat × Seq) => (z.1, x.cutSeq mine z.2)
  { x with
    copyq := left x.copyq, copyHeld := left x.copyHeld, cmdq := left x.cmdq, parked := left x.parked, redo := left x.redo,
    reads := begun x.reads, planeq := planeq, planes := planes, seqs := seqs, stops := x.stops.filter fun r => !mine r.run.cmd }
/-- Commands of a launch that have not been dispatched are discarded; those that have go on without an owner, and post nothing. -/
def State.discard (s : State) (mine : Cmd → Bool) : State :=
  let cores : Tbl Core := s.cores.map fun (e : Nat × Core) => (e.1, { e.2 with remq := e.2.remq.filter fun k => !mine k })
  let quads : Tbl Quad := s.quads.map fun (e : Nat × Quad) => (e.1, e.2.discard mine)
  State.mapCmds { s with cores := cores, quads := quads } fun k => if mine k then { k with quiet := true, g := nobody + slotOf k.g } else k
/-- A context whose slot becomes free (R63, R147): its register bank stays until the next kernel entry (R47, R402). -/
def Ctx.freed (c : Ctx) : Ctx :=
  { c with state := 0, wait := 0, evq := [], inflight := [], sysc := [], st := [], arrivals := [], halting := false, unwound := false, stop := .running,
           cut := false, ask := none, hold := false, launch := none,
           tk := c.tk.map fun (e : Nat × Tok) => (e.1, if e.2.st = .pending then { st := .doneErr } else e.2) }
/-- A slot is free (R63): the Deck, the line and the lease forget its context. -/
def State.freeSlot (s : State) (g : Nat) : State :=
  let s := s.releaseDeck g
  let s := s.modQuad (quadOf g) fun x => { x with lease := { x.lease with reqs := x.lease.reqs.filter (· ≠ g % 16) } }
  s.modCtx g Ctx.freed
/-- The lease of a killed holder is free. -/
def State.dropLease (s : State) (g : Nat) : State :=
  s.modQuad (quadOf g) fun x =>
    if x.lease.holder = some (g % 16) then { x with lease := { x.lease with holder := none, ended := false } } else x
/-- The tags that a launch owns are released (R382, R409). -/
def State.freeTags (s : State) (l : Launch) : State :=
  l.tags.foldl (fun s n => if (s.bar n).owned ∧ (s.bar n).launch = l.id then s.setBar n { gen := (s.bar n).gen } else s) s
/-- The work of a launch ends (R409): its contexts stop at a bundle boundary and become free; the launch retires with `status`. -/
def State.endLaunch (s : State) (id status : Nat) : State :=
  match s.launch id with
  | none => s
  | some _ =>
    let gone := (s.liveOf id).map (·.1)
    let kept := s.savedOf id
    let s := (gone ++ kept.map fun d => savedAs d.1 d.2.1).foldl State.flushTiles s
    let s := (gone ++ kept.map fun d => frameOf d.2.1).foldl State.disown s
    let s := s.discard fun k => decide (k.launch = some id ∧ k.g < nobody)
    let s := gone.foldl (fun s g => (s.freeSlot g).dropLease g) s
    let s := kept.foldl (fun s d =>
      let s := s.modVf d.1 fun x => { x with saved := tset none x.saved d.2.1 none }
      s.releaseDeck (frameOf d.2.1)) s
    s.modLaunch id fun l =>
      if l.st = .retiring then l else { l with st := .retiring, work := [], redos := [], status := status, hold := false }
/-- A launch is killed (R409): its work ends, and its barrier tags are released. -/
def State.killLaunch (s : State) (id status : Nat) : State :=
  (match s.launch id with | some l => s.freeTags l | none => s).endLaunch id status

/-! ### IMAGE_LOAD (R113, R114, R347, R348, R371) -/

/-- The image that a launch wants on core `c` next, with its phase: that of the lowest armed phase with an engine there that has not
started. -/
def State.wants (s : State) (l : Launch) (c : Nat) : Option (Nat × Nat) :=
  let entries := (List.range l.armed).flatMap fun n => match l.phases[n]? with
    | some p => (p.engines.filter fun e => e.kind = 0 && e.unit / 4 = c && !(l.workOf n e.unit).any fun w => 2 ≤ w.st).map fun e => (n, e.image)
    | none => []
  let redo := (l.redos.filter fun r => r.slot / 4 = c).map fun r => (r.phase, r.image)
  match redo ++ entries with
  | a :: _ => if s.placed l c a.2 then none else some a
  | [] => none
/-- The phases before `n` have ended their work in a quad (R371). -/
def Launch.quadOver (l : Launch) (n q : Nat) : Bool :=
  (List.range n).all fun i => ((l.phases[i]?).elim [] (·.engines)).all fun e => unitQuad e.unit ≠ q || (l.workEnd i e.unit).isSome
/-- The image at an address writes codebook slots. -/
def State.hasBooks (s : State) (a : Nat) : Bool := bits (leRead s.mem a 64) 143 128 ≠ 0
/-- An image that core `c` can load now: one with codebooks waits for the end of every earlier phase in the quad. -/
def State.imageDue (s : State) (c : Nat) : Option (Launch × Nat) :=
  s.dealer.launches.findSome? fun l =>
    if l.st ≠ .running then none else
    match s.wants l c with
    | some (n, a) =>
      if s.coreIdle c (s.hasBooks a) && (!s.hasBooks a || l.quadOver n (c / 4)) then some (l, a) else none
    | none => none
/-- The image is read, validated and placed, and the inputs of the phases that wait for it are copied; a failure kills the launch. -/
def State.loadImage (s : State) (c : Nat) (l : Launch) (a : Nat) : State :=
  match s.readImage a with
  | .ok f =>
    let s := ((s.dealerMet l.vf f.reads).placeImage c f.image).modLaunch l.id fun l =>
      { l with loaded := l.loaded ++ [(c, a)], restarts := (l.restarts.filter fun r => r.1 ≠ a) ++ [(a, f.image.restart)] }
    let waiting := l.work.filterMap fun w =>
      if w.st ≠ 1 then none else (l.phases[w.phase]?).bind fun p =>
        if p.engines.any fun e => e.unit = w.unit && e.kind = 0 && e.image = a then some (w.phase, p) else none
    waiting.foldl (fun s w => s.snapOnce ((s.launch l.id).getD l) w.1 w.2 a) s
  | .error r => (s.modDealer fun d => { d with rejects := d.rejects ++ [r] }).killLaunch l.id 2
/-- IMAGE_LOAD. -/
def execImageLoad (c : Nat) (s : State) : Out :=
  match s.imageDue c with
  | some (l, a) => .next (s.loadImage c l a)
  | none => .next s

/-! ### ENGINE_ARM_TICK (R17-R19, R47, R380) -/

/-- KERNEL_ENTRY: the entry values of R47, and zero slot counters (R402). -/
def State.enterKernel (s : State) (g : Nat) (l : Launch) (n task stage image entry : Nat) : State :=
  let shapes := ((s.core' (coreOf g)).image.bind fun i => i.kernels.find? fun k => k.1 = entry).elim [] (·.2)
  let sh := (shapes.zipIdx).foldl (fun t e => tset resetShape t e.2 (e.1.getD resetShape)) []
  s.setCtx g { sh := sh, pc := entry, state := 1, stage := stage, vfid := l.vf, largs := l.args, launch := some l.id,
               image := image, entry := entry, phase := n, task := task }
/-- The first engine of a phase starts (R336, R359, R360, R382): what the phase sets, and the Decks of phases without engines before it. -/
def State.beginPhase (s : State) (l : Launch) (n : Nat) : State :=
  match l.phases[n]? with
  | none => s
  | some p =>
    if n < l.begun then s else
    let s := ((List.range (n + 1)).drop l.begun).foldl (fun s i => s.setDecks l.id i) s
    let s := l.tags.foldl (fun s t =>
      s.setBar t { s.bar t with parties := p.slots.length, arrived := 0, heldB := false, doneAt := none }) s
    let first := fun q : Nat => ((p.leases.find? fun e => e.quad = q).map fun e => (e.core + 3) % 4).getD 3
    let s := if p.elastic then
        p.quads.eraseDups.foldl (fun s q => s.modQuad q fun x => { x with lease := { x.lease with lastCore := first q, lastK := [] } }) s
      else s
    s.modLaunch l.id fun l => { l with phase := n, begun := n + 1, trick := 0, commEnd := none }

/-- A quad's copies and fills, those that still wait in the queue as they would start now. -/
def State.transfers (s : State) (x : Quad) : List Cmd :=
  (x.copyq ++ x.copyRun.toList ++ x.copyHeld).map fun k => if k.started then k else s.startEngine k
/-- A view reaches beyond this package. -/
def State.farView (s : State) (v : Nat) (d : BitVec 512) : Bool := !(farOf (s.layoutPas v d)).isEmpty
/-- A command of a copy engine moves data to or from another package or a switch, or binds a stream that does. -/
def State.farTransfer (s : State) (k : Cmd) : Bool :=
  match k.instr with
  | .sbind _ => (s.readDesc k.vf k.sa).toOption.any (s.farView k.vf)
  | _ => s.farCopy k
/-- Numbers of the commands with a transfer beyond this package that has not completed: remote and pool commands, copies, fills, bound
streams, and the tables of a cube. -/
def State.fabricOpen (s : State) : List Nat :=
  let remote := s.cores.flatMap fun c => (c.2.remq ++ c.2.remLoose).filter fun r => r.remote || isPool r.instr
  let quads := s.quads.flatMap fun x => (s.transfers x.2).filter s.farTransfer ++
    (x.2.cmdq ++ x.2.parked ++ x.2.redo ++ x.2.runs.map (·.cmd)).filter fun k => !(farOf (s.tablePas k)).isEmpty
  let streams := s.slots.filter fun x => x.2.2.bound && x.2.2.view.any (s.farView (s.streamCmd x.1 x.2.2).vf)
  (remote ++ quads).map (·.serial) ++ streams.map fun x => x.2.2.by'
/-- A queued command waits on a fabric transfer, by its token (R19). -/
def State.waitsFabric (s : State) (ks : List Cmd) : Bool :=
  let waits := ks.flatMap (·.after)
  !waits.isEmpty && s.fabricOpen.any waits.contains
/-- A context of the quad waits on a fabric transfer, by its token (R19). -/
def State.tokenAwaits (s : State) (q : Nat) (mine : Ctx → Bool) : Bool :=
  let waits := (s.ctxs.filter fun e => quadOf e.1 = q && mine e.2 && decide (e.2.state = 2 ∧ (e.2.wait = 2 ∨ e.2.wait = 10))).flatMap (·.2.tokAt)
  !waits.isEmpty && s.fabricOpen.any waits.contains
/-- The flag that a transfer of another package increments here, when it has not arrived yet. -/
def State.comingFlag (s : State) : Instr → Option Nat
  | .fwrite m => m.flag.bind fun d => match d with | .here v va => s.inbound v va false true | .away _ => none
  | .trigarr m => some m.pa
  | _ => none
/-- A context of the quad waits on a flag that an open fabric transfer will increment (R19). -/
def State.flagAwaits (s : State) (q : Nat) (mine : Ctx → Bool) : Bool :=
  let comes := fun pa : Nat =>
    s.cores.any (fun c => (c.2.remq ++ c.2.remLoose).any fun r => decide (r.flag = some pa) && r.remote) ||
    s.quads.any (fun x => (s.transfers x.2).any fun r => decide (r.flag = some pa) && s.farCopy r) ||
    s.agenda.any fun e => decide (s.comingFlag e.2 = some pa)
  s.ctxs.any fun e => quadOf e.1 = q && mine e.2 && e.2.state = 2 && e.2.wait = 5 && comes e.2.flagAt
/-- Commands that the cube works on: its runs, its plane work, and the reads and fills that count under its lease (R195). -/
def Quad.busyWith (x : Quad) : List Cmd :=
  let fill := fun k : Cmd => match k.instr with | .cfill _ => true | _ => false
  let read := fun k : Cmd => match k.instr with | .crdacc _ => true | _ => false
  x.runs.map (·.cmd) ++ x.planes.map (·.1) ++ x.reads.filter read ++ (x.copyq ++ x.copyHeld ++ x.copyRun.toList).filter fill
/-- A command was accepted under the present lease run. -/
def Quad.ofRun (x : Quad) (k : Cmd) : Bool := x.lease.holder == some (k.g % 16) && decide (k.g < 3072 ∧ x.lease.since < k.serial)
/-- The lease entry of a RIGID phase that covers a tick. -/
def Launch.covering (l : Launch) (q t : Nat) : Option LeaseEntry := ((l.leaseRuns q).filter fun e => decide (l.t0 + e.start ≤ t)).getLast?
/-- An engine is ready (R19). A context starts once every codebook of its phase stands in the cube (R371), and the inputs of a restartable
kernel are kept (R416). -/
def State.unitReady (s : State) (l : Launch) (n : Nat) (p : Phase) (e : EngEntry) : Bool :=
  let mine := fun k : Cmd => decide (k.launch = some l.id ∧ k.phase = n)
  let q := unitQuad e.unit
  let x := s.quad q
  let fabric := fun ks : List Cmd =>
    let here := fun c : Ctx => decide (c.launch = some l.id ∧ c.phase = n)
    s.waitsFabric (ks.filter mine) || s.tokenAwaits q here || s.flagAwaits q here
  let begun := fun c : Nat => l.work.any fun w => w.phase = n && w.unit / 4 = c && w.unit < 3072 && 2 ≤ w.st
  match e.kind with
  | 0 =>
    decide ((s.ctx e.unit).state = 0) && s.placed l (e.unit / 4) e.image && l.kept n e.image &&
      (p.images.all fun i => i.1 / 4 ≠ q || !s.hasBooks i.2 || s.placed l i.1 i.2 || begun i.1) &&
      l.work.all fun w => !(w.unit = e.unit && w.phase < n) || w.st = 3
  | 1 =>
    x.busyWith.all x.ofRun && !fabric (x.cmdq ++ x.parked ++ x.reads) &&
      (p.elastic || ((l.covering q (s.arm e.unit).tick).all fun r => x.lease.holder == some (4 * r.core + r.k)))
  | _ => x.copyq.all mine && x.copyHeld.all mine && x.copyRun.all mine && !fabric x.copyq
/-- An armed engine whose tick has come, with its launch, phase and entry. -/
def State.armed (s : State) (u : Nat) : Option (Launch × Nat × Phase × EngEntry) :=
  let a := s.arm u
  if !a.armed ∨ a.started ∨ a.slipped ∨ s.tick < a.tick then none else
  s.dealer.launches.findSome? fun l =>
    match l.work.find? fun w => w.unit = u && w.st = 1 with
    | some w => (l.phases[w.phase]?).bind fun p => (p.engines.find? fun e => e.unit = u).map fun e => (l, w.phase, p, e)
    | none => none
/-- An engine starts its phase work. -/
def State.startUnit (s : State) (l : Launch) (n : Nat) (e : EngEntry) : State :=
  let s := s.beginPhase l n
  let s := s.setArm e.unit { s.arm e.unit with started := true }
  let s := s.modLaunch l.id fun l =>
    { l with work := l.work.map fun w => if w.phase = n ∧ w.unit = e.unit then { w with st := 2 } else w }
  if e.kind = 0 then s.enterKernel e.unit l n e.unit e.stage e.image e.entry else s
/-- A task that starts again in slot `u`, once the failed attempt's commands and queued writes have ended (R418). -/
def State.redoReady (s : State) (u : Nat) : Option (Launch × Redo) :=
  s.dealer.launches.findSome? fun l =>
    if l.st ≠ .running then none else
    (l.redos.find? fun r => r.slot = u && (s.ctx u).state = 0 && s.placed l (u / 4) r.image && !s.working (nobody + r.gone)).map fun r => (l, r)
/-- The engine starts, or, when the attempts of a tick are over, a RIGID one slips; others wait. -/
def State.armTick (s : State) (u : Nat) : Option State :=
  match s.redoReady u with
  | some (l, r) =>
    some (((s.snapBack l r.phase r.image).enterKernel u l r.phase r.task r.stage r.image r.entry).modLaunch l.id fun l => { l with redos := l.redos.filter (· ≠ r) })
  | none =>
    match s.armed u with
    | none => none
    | some (l, n, p, e) =>
      if l.st = .running ∧ s.unitReady l n p e then some (s.startUnit l n e)
      else if !p.elastic ∧ s.tickDone ∧ (l.st = .running ∨ (l.st = .slipped ∧ (s.arm u).tick = s.tick)) then some (s.slipUnit l u)
      else none
/-- ENGINE_ARM_TICK. -/
def execEngineArmTick (u : Nat) (s : State) : Out := .next ((s.armTick u).getD s)

/-! ### LEASE_CHANGE (R31, R359) -/

/-- The next planned run of a quad is due. -/
def State.leaseDue (s : State) (q : Nat) : Option (Launch × LeaseEntry) :=
  s.dealer.launches.findSome? fun l =>
    if l.st ≠ .running ∨ !l.timed then none else
    ((l.leaseRuns q)[tget 0 l.leaseIx q]?).bind fun e => if l.t0 + e.start ≤ s.tick then some (l, e) else none
def execLeaseChange (q : Nat) (s : State) : Out :=
  match s.leaseDue q with
  | some (l, e) => .next ((s.grantRun s.serial e).modLaunch l.id fun l =>
      { l with leaseIx := tset 0 l.leaseIx q (tget 0 l.leaseIx q + 1), leaseSince := tset 0 l.leaseSince q s.serial })
  | none => .next s

/-! ### Barriers and Tricks (R26-R28, R360, R367, R383) -/

/-- The Trick whose compute step runs. -/
def Launch.trickNow (l : Launch) : Option (Phase × Trick) :=
  if l.begun = 0 then none else l.now.bind fun p => (p.tricks[l.trickIx]?).map fun k => (p, k)
/-- A tag completes at its tick, unless its launch has been stopped as a whole (R41, R385). -/
def State.barDue (s : State) (n : Nat) : Bool :=
  match (s.bar n).doneAt with
  | some t => decide (t ≤ s.tick) && (s.launch (s.bar n).launch).all fun l => l.st ≠ .stopped
  | none => false
/-- BARRIER_COMPLETION: GEN steps; the Trick's communication step starts, with its slot set. -/
def State.barComplete (s : State) (n : Nat) : State :=
  let b := s.bar n
  let s := s.setBar n { b with gen := (b.gen + 1) % 2 ^ 16, arrived := 0, heldB := false, doneAt := none }
  match (s.launch b.launch).bind fun l => l.trickNow.map fun t => (l, t) with
  | some (l, _, k) =>
    if k.tag ≠ n then s else
    let s := if k.set = 0xFF then s else s.setBank l k.set
    s.modLaunch l.id fun l => { l with trick := l.trickIx, commEnd := some (s.tick + k.comm) }
  | none => s
def execBarrierCompletion (n : Nat) (s : State) : Out := event (s.barDue n) s (s.barComplete n)

/-- Slots of the running phase that have not arrived on a tag. -/
def State.missing (s : State) (l : Launch) (p : Phase) (tag : Nat) : List Nat :=
  p.slots.filter fun g =>
    let ended := (l.workOf l.phase g).any fun w => w.st = 3
    let there := s.ctxs.any fun e => e.2.launch = some l.id && e.2.phase = l.phase && e.2.task = g &&
      tget none e.2.arrivals tag = some (s.bar tag).gen
    !ended && !there
/-- The planned completion of a tag is 48 ticks or less away, and an arrival is missing. -/
def State.deadline (s : State) (n : Nat) : Option (Launch × Phase) :=
  let b := s.bar n
  if !b.owned ∨ b.doneAt.isSome ∨ b.parties = 0 then none else
  match (s.launch b.launch).bind fun l => l.trickNow.map fun t => (l, t) with
  | some (l, p, k) => if l.st = .running ∧ !p.elastic ∧ k.tag = n ∧ l.t0 + k.bar ≤ s.tick + 48 ∧ !(s.missing l p n).isEmpty then some (l, p) else none
  | none => none
/-- PLANNED_COMPLETION_DEADLINE: every missing party slips. -/
def execPlannedCompletionDeadline (n : Nat) (s : State) : Out :=
  match s.deadline n with
  | some (l, p) =>
    event s.tickDone s ((s.missing l p n).foldl (fun s g => s.slipUnit l g) s)
  | none => .next s

/-- Engines with a transfer of the launch that began in the step and has not completed (R28): the copy engine of a quad, for its copies
and for streams with a taken tile that is not written, and the context whose remote commands or stores it is. -/
def State.lateUnits (s : State) (l : Launch) (k : Trick) (stop : Nat) : List Nat :=
  let late := fun c : Cmd => decide (c.launch = some l.id ∧ stop - k.comm ≤ c.at')
  let mine := fun g : Nat => decide (g < 3072 ∧ (s.ctx g).launch = some l.id ∧ (s.ctx g).state ≠ 0)
  let copies := (s.quads.filter fun e => (e.2.copyq ++ e.2.copyHeld ++ e.2.copyRun.toList).any late).map fun e => 3264 + e.1
  let streams := (s.ctxs.filter fun e => mine e.1 && e.2.st.any fun t => t.2.bound && t.2.out && !t.2.tiles.isEmpty).map fun e => 3264 + quadOf e.1
  let remote := s.cores.flatMap fun c => ((c.2.remq ++ c.2.remLoose).filter fun r => late r && isLateAccess r.instr).map fun r => slotOf r.g
  let stores := (s.wq.filter fun e => mine e.g && decide (stop - k.comm ≤ e.at')).map (·.g)
  (copies ++ streams ++ remote ++ stores).eraseDups
/-- COMM_STEP_END: the open table returns, and the next compute step starts. -/
def State.commOver (s : State) (l : Launch) (p : Phase) (k : Trick) (stop : Nat) : State :=
  let s := s.setBank l 4
  let s := s.modLaunch l.id fun l => { l with commEnd := none, trick := l.trick + 1 }
  if p.elastic then s
  else (s.lateUnits l k stop).foldl (fun s u => s.slipUnit l u) s
def State.commDue (s : State) (id : Nat) : Option (Launch × Phase × Trick × Nat) :=
  (s.launch id).bind fun l => match l.commEnd, l.now with
    | some t, some p => if l.st = .running ∧ t ≤ s.tick then (p.tricks[l.trick]?).map fun k => (l, p, k, t) else none
    | _, _ => none
def execCommStepEnd (id : Nat) (s : State) : Out :=
  match s.commDue id with
  | some (l, p, k, t) => .next (s.commOver l p k t)
  | none => .next s

/-! ### Ends of work (R147, R358) -/

/-- Results have landed and the slots are unbound. -/
def State.haltDone (s : State) (g : Nat) : Bool :=
  let c := s.ctx g
  c.halting && c.unwound && c.inflight.isEmpty && (List.range 8).all fun n => !(c.stream n).bound
/-- HALT_COMPLETE: the slot becomes free. DESIGN CHOICE: an engine command that slot E of the halt bundle issued goes on: its token is DONE_ERR, and it
keeps the slot's number as its owner, so its results and its record reach a kernel that the slot takes meanwhile (log 84). -/
def execHaltComplete (g : Nat) (s : State) : Out :=
  if s.unwindDue g then .next (s.unwind g) else event (s.haltDone g) s ((s.disown g).freeSlot g)

/-- The queue of a cube or copy engine is empty, and none of its commands executes. -/
def Quad.unitIdle (x : Quad) (u : Nat) : Bool :=
  if u < 3264 then x.cmdq.isEmpty && x.runs.isEmpty && x.planes.isEmpty && x.redo.isEmpty
  else x.copyq.isEmpty && x.copyRun.isNone && x.copyHeld.isEmpty
/-- The phase work of a cube or copy engine has ended. -/
def State.unitOver (s : State) (l : Launch) (w : EngWork) : Bool :=
  w.st = 2 && 3072 ≤ w.unit && (s.quad (unitQuad w.unit)).unitIdle w.unit &&
    (l.phases[w.phase]?).all fun p => p.slots.all fun g => quadOf g ≠ unitQuad w.unit || (l.workOf w.phase g).any fun x => x.st = 3
/-- At the end of a tick the ends of phase work are noted. -/
def State.endUnits (s : State) : State :=
  s.modDealer fun d => { d with launches := d.launches.map fun l =>
    { l with work := l.work.map fun w => if s.unitOver l w then { w with st := 3, done' := s.tick } else w } }

/-- STACQ_GRANT: the first in line for the state that a free stage is in, from the tick after it came free (R337). -/
def State.stageDue (s : State) (t n : Nat) : Option Nat :=
  let st := tget {} (s.tower t).deck n
  if st.owned ∨ st.flipped = some s.tick then none else
  (st.line.find? fun x => x.2.1 = st.full && (s.ctx x.1).state ≠ 0).map (·.1)
def execStacqGrant (t n : Nat) (s : State) : Out :=
  let s' := s.modTower t fun w => { w with deck := tset {} w.deck n { tget {} w.deck n with line := (tget {} w.deck n).inOrder } }
  match s'.stageDue t n with
  | some g =>
    .next (s'.modTower t fun w =>
      let st := tget {} w.deck n
      { w with deck := tset {} w.deck n { st with owned := true, owner := g, line := st.line.filter fun x => x.1 ≠ g } })
  | none => .next s

/-! ### LAUNCH_RETIRE (R339, R344, R382) -/

/-- A launch has ended: its work, or, once killed, its contexts; and every write that halted or killed contexts left in the write queues has
been performed, reductions (R344) and stores, so that the host finds them in memory (R458). -/
def State.retireDue (s : State) (l : Launch) : Bool :=
  let flushed := s.wq.all fun e => !(e.vf = l.vf && nobody ≤ e.g && e.g < packetOwner)
  let ended := match l.st with
    | .retiring => true
    | .running => l.timed && l.armed = l.phases.length && l.allArmed (l.armed - 1) && l.work.all (fun w => w.st = 3) && l.redos.isEmpty
    | _ => false
  ended && flushed && (s.liveOf l.id).isEmpty && (s.savedOf l.id).isEmpty
/-- The launch leaves: what it wrote is performed at POD scope (R344), its tags and routers are free, and its entry retires; in a
reset the tags go in its third step (R423). -/
def State.retireLaunch (s : State) (l : Launch) (status : Nat) : State :=
  let resetting := s.dealer.resets.any fun r => r.1 = l.vf
  let s := if resetting then s else
    l.tags.foldl (fun s n => if (s.bar n).owned ∧ (s.bar n).launch = l.id then s.setBar n { s.bar n with owned := false } else s) s
  let s := (s.setBank l 4).podRelease 5
  let s := s.modDealer fun d => { d with launches := d.launches.filter fun m => m.id ≠ l.id }
  if (s.queue l.q).entry.any fun e => e.1 = l.ix then s.retire l.q status else s
def execLaunchRetire (id : Nat) (s : State) : Out :=
  match s.launch id with
  | some l => event (s.retireDue l) s (s.retireLaunch l l.status)
  | none => .next s

end Sys2Proof.Machine
end

