-- ==== Sys2Proof/Machine/Preempt.lean ====
section
/-! DEFINITION. Pre-emption, saves and restores (R33, R41, R42, R62, R63, R70, R71, R332, R385, R410-R414). -/

namespace Sys2Proof.Machine

/-! ### Requests (R411, R412) -/

/-- A request reaches the core of a context within 192 ticks; the bundle of that tick is the last. -/
def State.askStop (s : State) (g : Nat) (hold : Bool) : State :=
  s.modCtx g fun c =>
    if c.halting then c
    else { c with ask := some (c.ask.getD (s.tick + 1 + Config.delay s.fresh 11 % 193)), hold := c.hold || hold }
/-- Every context of a launch is asked to stop (R41). -/
def State.askAll (s : State) (id : Nat) (hold : Bool) : State := (s.liveOf id).foldl (fun s e => s.askStop e.1 hold) s
/-- The launch stops in a RIGID phase: its contexts are asked to stop, its pending arrivals are discarded (R385), and its phase is re-armed
once they are saved and nothing holds it. -/
def State.stopLaunch (s : State) (id : Nat) (hold : Bool) : State :=
  let s := match s.launch id with | some l => s.dropArrivals l | none => s
  (s.askAll id false).modLaunch id fun l => { l with st := .stopped, hold := hold }

/-! ### PREEMPTION (R411, R412, R332, R344) -/

/-- An input slot drops the tiles that have not landed, with their out-of-bounds elements, and NEXT goes back to the first of them
(R259, R332). -/
def Stream.rollBack (t : Stream) : Stream :=
  let oob := match t.walk with | some (l, h, _) => t.tiles.foldl (fun n x => n + l.tileOob h x.1) 0 | none => 0
  if t.bound && !t.out then { t with tiles := [], next := t.passed + (if t.rfull then 1 else 0), oob := t.oob - oob } else t
/-- A slot in a frame: the engine runs on over the taken tiles of an output slot, and a descriptor is read again at the restore (R332). -/
def Stream.parted (t : Stream) : Stream := if t.tiles.isEmpty then { t with view := none, due := 0 } else t
/-- A context can be pre-empted: its frame is free (R411). -/
def State.canPreempt (s : State) (g : Nat) : Bool :=
  let c := s.ctx g
  c.state ≠ 0 && !c.halting && (c.stop = .running || c.stop = .faulted || c.stop = .slipped) && (s.savedAt c.vfid g).isNone
/-- The core issues no further bundle of the context, whose Meld lines are flushed and whose input slots roll back. Its frame takes
576 ticks to write, and is written within 2,048 where nothing remote holds it back. -/
def State.preemptNow (s : State) (g : Nat) : State :=
  let s := s.meldFlush g 0xFFFF
  let wants := (s.quad (quadOf g)).lease.reqs.contains (g % 16)
  let s := s.modQuad (quadOf g) fun x => { x with lease := { x.lease with reqs := x.lease.reqs.filter (· ≠ g % 16) } }
  s.modCtx g fun c =>
    { c with st := (c.st.map fun (e : Nat × Stream) => (e.1, e.2.rollBack)), stop := .preempting, state := 3, wait := 0,
             ask := some (s.tick + 577 + Config.delay s.fresh 14 % 1472), cut := c.cut || wants }
/-- The request to a context has reached its core. -/
def State.asked' (s : State) (g : Nat) : Bool := (match (s.ctx g).ask with | some t => decide (t ≤ s.tick) | none => false) && s.canPreempt g
/-- The Dealer frees a slot for a launch that it delays: the launch of a context gives way (R40, R411). -/
def State.giveWay (s : State) (g : Nat) : Option State :=
  match (s.ctx g).launch.bind s.launch with
  | some l =>
    if l.st ≠ .running ∨ !s.canPreempt g ∨ !(s.dealer.launches.any fun m => decide (l.id < m.id) && s.delayedByQuads m (quadOf g)) then none
    else
      let s := s.modLaunch l.id fun l => { l with yields := true }
      some (if s.inRigid g then s.stopLaunch l.id false else s.preemptNow g)
  | none => none
/-- PREEMPTION. -/
def execPreemption (g : Nat) (s : State) : Out := .next (if s.asked' g then s.preemptNow g else (s.giveWay g).getD s)

/-! ### The frame (R70, R328) -/

/-- A slot from its image, with what the engine kept beside it. -/
def streamOf (w : Nat) (t : Stream) : Stream :=
  { t with
    bound := bit w 0, out := bit w 1, fin := bit w 2, err := bit w 3, cluster := bit w 4, reg := bits w 10 5, rfull := bit w 11,
    token := bits w 28 24, passed := bits w 63 32, desc := BitVec.ofNat 64 (bits w 127 64), shape := BitVec.ofNat 64 (bits w 191 128),
    next := bits w 223 192, code := bits w 231 224, cls := bits w 235 232, scope := bits w 238 236 }
/-- CTXCTL (R63). -/
def Ctx.ctxctl (c : Ctx) : Nat := c.state % 4 + c.wait % 16 * 4 + (if c.resumed then 64 else 0) + c.stage % 16 * 256
/-- What a frame holds of a context: offset, bytes, value; STAGE is not saved (R70). -/
def Ctx.frame (c : Ctx) : List (Nat × Nat × Nat) :=
  let tk := fun (t : Tok) => match t.st with | .done => 0 | .pending => 1 | .doneErr => 2
  let evcfg := c.evcfg % 16 + c.evq.length * 256 + if c.ovf then 2 ^ 15 else 0
  (c.va.map fun e => (512 * e.1, 512, e.2.toNat)) ++ (c.vb.map fun e => (0x8000 + 512 * e.1, 512, e.2.toNat)) ++
  [(0x10000, 128, 2 ^ 1024 - 1), (0x10400, 128, 2 ^ 1024 - 1)] ++
  (c.ma.map fun e => (0x10000 + 128 * e.1, 128, e.2.toNat)) ++ (c.mb.map fun e => (0x10400 + 128 * e.1, 128, e.2.toNat)) ++
  (c.sreg.map fun e => (0x10800 + 8 * e.1, 8, e.2.toNat)) ++
  ((List.range 8).map fun i => (0x10A00 + 16 * i, 16, (tget resetShape c.sh i).toNat)) ++
  (c.xreg.map fun e => (0x10A80 + 2 * e.1, 2, e.2.toNat)) ++ (c.tk.map fun e => (0x10AC0 + 4 * e.1, 4, tk e.2)) ++
  (c.st.map fun e => (0x10B40 + 64 * e.1, 64, e.2.toNat)) ++
  (([c.pc, c.memdef.toNat, c.faultpt.toNat, c.faultpc, { c with stage := 0 }.ctxctl, evcfg, c.lp0.toNat, c.lp1.toNat].zipIdx).map fun e =>
    (0x10D40 + 8 * e.2, 8, e.1)) ++
  (c.evq.zipIdx.map fun e => (0x10D80 + 16 * e.2, 16, e.1.word.toNat)) ++
  [(0x11180, 8, c.seq % 2 ^ 16 + c.sysc.length % 8 * 2 ^ 16)]
/-- The save engine writes a frame of 72 KiB. -/
def State.writeFrame (s : State) (v g : Nat) (c : Ctx) : State :=
  let b := s.frameBase v g
  let s := s.zero b 0x12000
  State.testRange { s with mem := c.frame.foldl (fun m w => leWrite m (b + w.1) w.2.2 w.2.1) s.mem } b 0x12000
/-- A table of `n` entries. -/
def table {α : Type} [DecidableEq α] (d : α) (n : Nat) (f : Nat → α) : Tbl α :=
  (List.range n).filterMap fun i => if f i = d then none else some (i, f i)
/-- The bits of a shape register that are no reserved field (R55). -/
def shapeMask : ShapeReg := ~~~(BitVec.ofNat 128 (2 ^ 64 - 2 ^ 44))
/-- The context that a frame and its supplement hold; reserved fields read as zero (R5). -/
def readFrame (mem : List Host.Cell) (b v : Nat) (d : Saved) : Ctx :=
  let m := mem.filter fun c => decide (b ≤ c.1 ∧ c.1 < b + 0x12000)
  let get := fun off n : Nat => leRead m (b + off) n
  let mask := fun off : Nat => table (0 : MaskReg) 8 fun i => if i = 0 then 0 else BitVec.ofNat 1024 (get (off + 128 * i) 128)
  let ctl := fun i : Nat => get (0x10D40 + 8 * i) 8
  let tok := fun i : Nat =>
    let st : TkState := match bits (get (0x10AC0 + 4 * i) 4) 1 0 with | 0 => .done | 1 => .pending | _ => .doneErr
    ({ tget {} d.toks i with st := st } : Tok)
  let sys := get 0x11180 8
  { va := table 0 64 fun i => BitVec.ofNat 4096 (get (512 * i) 512)
    vb := table 0 64 fun i => BitVec.ofNat 4096 (get (0x8000 + 512 * i) 512)
    ma := mask 0x10000
    mb := mask 0x10400
    sreg := table 0 64 fun i => if i = 0 then 0 else BitVec.ofNat 64 (get (0x10800 + 8 * i) 8)
    sh := table resetShape 8 fun i => shapeMask &&& BitVec.ofNat 128 (get (0x10A00 + 16 * i) 16)
    xreg := table 0 8 fun i => BitVec.ofNat 16 (get (0x10A80 + 2 * i) 2)
    tk := table {} 32 tok
    st := table {} 8 fun i => streamOf (get (0x10B40 + 64 * i) 64) (tget {} d.streams i)
    pc := ctl 0 % 2 ^ 20
    memdef := BitVec.ofNat 64 (ctl 1 % 2 ^ 14)
    faultpt := BitVec.ofNat 64 (ctl 2 % 2 ^ 45)
    faultpc := ctl 3 % 2 ^ 20
    evcfg := bits (ctl 5) 3 0
    ovf := bit (ctl 5) 15
    evq := exactTimes d.recent ((List.range (min 64 (bits (ctl 5) 14 8))).map fun i => EvRec.ofBits (BitVec.ofNat 128 (get (0x10D80 + 16 * i) 16)))
    lp0 := BitVec.ofNat 64 (ctl 6)
    lp1 := BitVec.ofNat 64 (ctl 7)
    seq := bits sys 15 0
    sysc := d.sysc
    state := 1
    resumed := true
    stage := d.stage
    vfid := v
    largs := d.largs
    arrivals := d.arrivals
    launch := d.launch
    image := d.image
    entry := d.entry
    phase := d.phase
    task := d.task }

/-! ### SAVE_FRAME_WRITE (R70, R71, R300, R412, R413) -/

/-- Deck stages and places in line pass from one owner to another (R336, R414). -/
def State.passDeck (s : State) (g h : Nat) : State :=
  let stage := fun st : Stage =>
    { st with owner := if st.owned ∧ st.owner = g then h else st.owner, line := st.line.map fun x => if x.1 = g then (h, x.2) else x }
  (List.range 4).foldl (fun s t => s.modTower t fun w =>
    { w with deck := (List.range 16).foldl (fun d n => tset {} d n (stage (tget {} d n))) w.deck }) s
/-- The frame of a pre-empted context can be written: its results have landed, its cube commands have stopped, and every access that it
has issued is performed. -/
def State.canSave (s : State) (g : Nat) : Bool :=
  let c := s.ctx g
  let x := s.quad (quadOf g)
  c.stop = .preempting && c.ask.all (fun t => decide (t ≤ s.tick)) && c.inflight.isEmpty && !s.accessPending g 0xFFFF &&
    !s.stopDue g && x.stopped g && (s.savedAt c.vfid g).isNone
/-- The frame is written, what it does not hold is kept beside it, and the slot is free. -/
def State.save (s : State) (g : Nat) : State :=
  let c := s.ctx g
  let x := s.quad (quadOf g)
  let bound := x.stops.any (fun r => r.run.cmd.g = g) || x.parked.any fun k => k.g = g
  let d : Saved :=
    { launch := c.launch, phase := c.phase, task := c.task, stage := c.stage, image := c.image, entry := c.entry, largs := c.largs,
      stop := if c.hold then .held else .saved, arrivals := c.arrivals, sysc := c.sysc, quad := if bound then some (quadOf g) else none,
      cut := c.cut, toks := c.tk, streams := c.st.map fun (e : Nat × Stream) => (e.1, e.2.parted),
      due := s.tick + 1 + Config.delay s.fresh 12, recent := recentOf c.evq }
  let s := s.writeFrame c.vfid g c
  let s := s.modVf c.vfid fun v => { v with saved := tset none v.saved g (some d) }
  ((s.reown g (frameOf g)).passDeck g (frameOf g)).modCtx g Ctx.freed
/-- SAVE_FRAME_WRITE. -/
def execSaveFrameWrite (g : Nat) (s : State) : Out := event (s.canSave g) s (s.save g)

/-! ### CONTEXT_RESTORE (R62, R63, R148, R224, R332, R385, R410, R414) -/

/-- The occupied frame of a slot, and its function. -/
def State.frameAt (s : State) (g : Nat) : Option (Nat × Saved) := (List.range 8).findSome? fun v => (s.savedAt v g).map fun d => (v, d)
/-- The core of a slot holds an image, or could load it. -/
def State.imageFits (s : State) (g a : Nat) : Bool := ((s.image g).map (·.addr)) == some a || s.coreIdle (coreOf g) false
/-- The Dealer may restore the context of a frame into slot `h` now. -/
def State.canRestore (s : State) (v h : Nat) (d : Saved) : Bool :=
  let q := quadOf h
  let going := match d.launch.bind s.launch with | some l => l.st = .running && !s.yielding l | none => true
  let told := s.dealer.notes.all fun n => decide (n.kind ≠ 0 ∨ n.vf ≠ v ∨ n.g ≠ h)
  d.stop = .saved && decide (d.due ≤ s.tick) && going && told && decide ((s.ctx h).state = 0) && s.quadOk v q && d.quad.all (· = q) &&
    s.dealer.launches.all (fun m => some m.id = d.launch || decide (m.armed = 0) || !m.quads.contains q) && s.imageFits h d.image
/-- The engine of a restored slot reads its descriptor again (R332). -/
def State.rebind (s : State) (g n : Nat) : State :=
  let t := (s.ctx g).stream n
  if !t.bound ∨ s.quads.any (fun q => q.2.copyq.any fun k => k.serial = t.by') then s else
  let r := s.readDesc (s.ctx g).vfid t.desc
  let s := s.descRead (s.streamCmd g t) t.desc
  match r with
  | .ok d =>
    if (layoutOf d).ew = 4 ∨ shapeWidth t.shape ≠ some (layoutOf d).w then s.endStream g n [0x10]
    else s.modCtx g fun c => c.setStream n (s.streamAsk g { t with view := some d })
  | .error e => s.endStream g n e
/-- A context that a `trap` stopped goes on after it (R148). -/
def State.afterTrap (s : State) (g : Nat) (c : Ctx) : Ctx :=
  if bit c.faultpt.toNat 44 ∧ bits c.faultpt.toNat 39 32 = 0x0C then
    let size := if ((s.image g).map fun i => i.stream.getD c.pc 0) = some 0xFFFE then 25 else 1
    c.advance (c.pc + size)
  else c
/-- The frame of slot `g` is read into slot `h` and freed. -/
def State.restore (s : State) (v g h : Nat) (d : Saved) : State :=
  let c := (s.afterTrap h (readFrame s.mem (s.frameBase v g) v d)).resume
  let s := (s.dealerMet v [(s.frameBase v g, 0x12000)]).modVf v fun x => { x with saved := tset none x.saved g none }
  let s := (s.setCtx h { c with ctr := (s.ctx h).ctr }).reown (frameOf g) h
  let s := s.passDeck (frameOf g) h
  let s := if (d.cut ∨ d.quad.isSome) ∧ !s.inRigid h then
      s.modQuad (quadOf h) fun x =>
        { x with lease := { x.lease with reqs := if x.lease.reqs.contains (h % 16) then x.lease.reqs else x.lease.reqs ++ [h % 16] } }
    else s
  (List.range 8).foldl (fun s n => s.rebind h n) s
/-- The core loads the image first where it does not hold it (R113); its codebooks are those of the phase that placed it (R371). -/
def State.bringBack (s : State) (v g h : Nat) (d : Saved) : State :=
  if ((s.image h).map (·.addr)) == some d.image then s.restore v g h d
  else match s.readImage d.image with
  | .ok f => State.restore ((s.dealerMet v f.reads).placeImage (coreOf h) { f.image with books := [] }) v g h d
  | .error r =>
    let s := s.modDealer fun x => { x with rejects := x.rejects ++ [r] }
    match d.launch with | some id => s.killLaunch id 2 | none => s
/-- CONTEXT_RESTORE. -/
def execContextRestore (g h : Nat) (s : State) : Out :=
  match s.frameAt g with
  | some (v, d) => event (s.canRestore v h d) s (s.bringBack v g h d)
  | none => .next s

/-! ### What is due -/

def State.duePreempt (s : State) : Due :=
  match s.ctxs.find? fun e => e.2.ask.isSome && s.asked' e.1 with
  | some e => some (execPreemption e.1)
  | none =>
    match s.ctxs.find? fun e => e.2.stop = .preempting && s.canSave e.1 with
    | some e => some (execSaveFrameWrite e.1)
    | none => s.vfs.findSome? fun v => v.2.saved.findSome? fun e => match e.2 with
      | some d => if s.canRestore v.1 e.1 d then some (execContextRestore e.1 e.1) else none
      | none => none

end Sys2Proof.Machine
end

