-- ==== Sys2Proof/Machine/Policy.lean ====
section
/-! DEFINITION. What the Dealer does about faults, SLIPs and notices (R406-R409, R418, R425), and system calls (R149, R431). -/

namespace Sys2Proof.Machine

/-! ### Fault records (R407) -/

/-- What the Dealer does about a note (R409). -/
inductive Action | kill | hold | rearm | reexec | count | endErr
  deriving DecidableEq, Repr
def Action.num : Action → Nat
  | .kill => 0 | .hold => 1 | .rearm => 2 | .reexec => 3 | .count => 4 | .endErr => 5
/-- A fault record. -/
def FaultNote.record (n : FaultNote) (action q : Nat) : BitVec 256 :=
  let point := match n.kind with | 1 => n.point % 2 ^ 32 | 3 => 0 | _ => n.point % 2 ^ 64
  BitVec.ofNat 256 (n.code % 256 + n.kind % 4 * 2 ^ 8 + n.vf % 8 * 2 ^ 10 + action % 8 * 2 ^ 13 + n.g % 4096 * 2 ^ 16 + n.pc % 2 ^ 20 * 2 ^ 32 +
    point * 2 ^ 64 + n.addr.toNat * 2 ^ 128 + n.tick % 2 ^ 48 * 2 ^ 192 + q % 64 * 2 ^ 240)
/-- A record enters a function's ring of 256: when the ring is full, the slot of the oldest record (R407). -/
def State.logRecord (s : State) (v : Nat) (r : BitVec 256) : State :=
  s.modVf v fun x =>
    if x.log.length < 256 then { x with log := x.log ++ [r] }
    else { x with log := x.log.set x.logAt r, logAt := (x.logAt + 1) % 256, logOvf := true }

/-! ### The task of a note (R415, R418) -/

/-- A task: the owner of its commands, and what starts its kernel; `pending`: it waits to start again. -/
structure Task where
  owner : Nat
  phase : Nat
  task : Nat
  stage : Nat
  image : Nat
  entry : Nat
  pending : Bool := false
/-- The task that stands in slot `g`, or in its frame, for launch `id`; or the one that left it and waits to start again. -/
def State.taskAt (s : State) (v g id : Nat) : Option Task :=
  let c := s.ctx g
  if c.state ≠ 0 ∧ c.launch = some id then
    some { owner := g, phase := c.phase, task := c.task, stage := c.stage, image := c.image, entry := c.entry }
  else match s.savedAt v g with
    | some d =>
      if d.launch = some id then
        some { owner := frameOf g, phase := d.phase, task := d.task, stage := d.stage, image := d.image, entry := d.entry }
      else none
    | none => ((s.launch id).bind fun l => l.redos.find? fun r => r.gone = g).map fun r =>
      { owner := nobody + g, phase := r.phase, task := r.task, stage := r.stage, image := r.image, entry := r.entry, pending := true }
/-- The task is restartable: its image lists inputs. -/
def Launch.restartable (l : Launch) (t : Task) : Bool := !(l.inputs t.image).isEmpty
/-- Re-executions of a task in its launch. -/
def Launch.tries (l : Launch) (t : Task) : Nat := tget 0 l.reexecs (3072 * t.phase + t.task)
/-- A task is re-executed: the attempt is discarded, and its kernel waits to start again over its inputs. A task that waits already only
counts (R425). -/
def State.reexecute (s : State) (l : Launch) (t : Task) : State :=
  let g := slotOf t.owner
  let key := 3072 * t.phase + t.task
  let s := s.modLaunch l.id fun l => { l with reexecs := tset 0 l.reexecs key (tget 0 l.reexecs key + 1) }
  if t.pending then s else
  let s := (s.disown t.owner).discard fun k => decide (k.g = t.owner)
  let s := if t.owner < 3072 then (s.freeSlot g).dropLease g
    else (s.modVf l.vf fun x => { x with saved := tset none x.saved g none }).releaseDeck t.owner
  let slot := ((l.spares.find? fun x => x.1 = t.task).map (·.2)).getD g
  let s := s.modLaunch l.id fun l =>
    { l with redos := l.redos ++ [{ slot := slot, task := t.task, phase := t.phase, stage := t.stage, image := t.image, entry := t.entry, gone := g }] }
  if l.rigidAt t.phase ∧ l.st = .running then s.stopLaunch l.id false else s

/-! ### Policies (R408, R425) -/

/-- POLICY of a function (R373). -/
def State.policy (s : State) (v : Nat) : Nat := bits (s.vf v).part.toNat 3 1
/-- A hardware error: a restartable task is re-executed twice, and then killed (R418). -/
def State.retry (s : State) (n : FaultNote) (otherwise : Action) : Action :=
  match n.launch.bind s.launch with
  | none => otherwise
  | some l =>
    if l.st = .retiring then otherwise else
    match s.taskAt n.vf n.g l.id with
    | some t => if !l.restartable t then otherwise else if l.tries t < 2 then .reexec else .kill
    | none => otherwise
/-- The phase that a SLIP belongs to: that of the engine's work (R409). -/
def Launch.slipPhase (l : Launch) (n : FaultNote) : Nat :=
  let unit := fun u : Nat => if n.kind = 2 then unitQuad u = n.g && 3072 ≤ u else u = n.g
  ((l.work.filter fun w => unit w.unit).getLast?.map (·.phase)).getD l.phase
/-- A SLIP's record is the first of its stop, whatever stopped the launch: a re-arm is counted for it, and a fourth one in its phase kills
(R409). -/
def Launch.slips (l : Launch) : Bool := decide (l.st = .slipped ∨ l.st = .stopped) && l.slipAt.isEmpty
/-- The command of an engine fault has no owner any more. -/
def State.ownerless (s : State) (n : FaultNote) : Bool :=
  match n.cmd with
  | some c => (s.quad (quadOf n.g)).copyHeld.any fun k => k.serial = c && decide (nobody ≤ k.g)
  | none => false
/-- The action for a note. -/
def State.actionFor (s : State) (n : FaultNote) : Action :=
  let p := s.policy n.vf
  let gone := match n.launch.bind s.launch with | some l => decide (l.st = .retiring) | none => false
  if n.kind = 3 then
    (if p = 2 ∧ n.code ≠ 4 ∧ !gone then s.retry n .count else .count)
  else if n.kind = 1 then (if p = 1 ∧ !gone ∧ !s.ownerless n then .hold else .endErr)
  else if n.code = 0x0D then
    match p with
    | 1 => (match n.launch.bind s.launch with
      | some l => if l.slips ∧ 3 ≤ tget 0 l.rearms (l.slipPhase n) then .kill else .rearm
      | none => .rearm)
    | 3 => .hold
    | _ => .kill
  else if n.code = 0x14 then (if p = 0 then .kill else .hold)
  else if n.code = 0x04 ∨ n.code = 0x05 then
    match p with
    | 0 => .kill
    | 2 => s.retry n .kill
    | _ => .hold
  else if p = 1 ∨ p = 3 then .hold else .kill

/-- The engine command of a note ends with ENGINE_FAULT (R409). -/
def State.endFaulted (s : State) (n : FaultNote) : State :=
  match n.stream, n.cmd with
  | some i, some b =>
    match s.slots.find? fun e => e.2.1 = i && e.2.2.held && e.2.2.by' = b with
    | some (h, _) => s.endStream h i [0x26]
    | none => s
  | some _, none => s
  | none, some c =>
    match (s.quad (quadOf n.g)).copyHeld.find? fun k => k.serial = c with
    | some k => State.endHeld (s.modQuad (quadOf n.g) fun x => { x with copyHeld := x.copyHeld.filter fun h => h.serial ≠ c }) k
    | none => s
  | none, none => s
/-- A fault or SLIP holds its context, and in a RIGID phase its launch, whatever pre-emption has stopped them meanwhile; a re-arm for a SLIP
of the same tick wins over it (R409, R425). -/
def State.holdFor (s : State) (n : FaultNote) (l : Launch) : State :=
  let c := s.ctx n.g
  let saved := s.savedAt n.vf n.g
  let live := decide (c.state ≠ 0 ∧ c.launch = some l.id)
  let phase := if live then c.phase else (saved.map (·.phase)).getD c.phase
  if n.code = 0x0D ∨ l.rigidAt phase then
    if l.st = .stopped ∧ (l.hold ∨ l.slipAt.contains n.tick) then s
    else (s.stopLaunch l.id true).modLaunch l.id fun l => { l with stopAt := some n.tick }
  else if l.slipAt.contains n.tick then s
  else
    let s := s.modLaunch l.id fun l => { l with heldAt := (n.g, n.tick) :: l.heldAt }
    if live then (if c.stop = .faulted ∨ c.stop = .preempting then s.askStop n.g true else s)
    else match saved with
      | some d => if d.launch = some l.id then s.modSaved n.vf n.g fun d => { d with stop := .held } else s
      | none => s
/-- A re-arm for a SLIP at tick `t` wins over the holds of that tick (R425): the contexts that faults of an ELASTIC phase held in it wait for
no host. -/
def State.freeHeld (s : State) (l : Launch) (t : Nat) : State :=
  (l.heldAt.filter fun e => e.2 = t).foldl (fun s e =>
    let s := if (s.ctx e.1).launch = some l.id then s.modCtx e.1 fun c => { c with hold := false } else s
    match s.savedAt l.vf e.1 with
    | some d => if d.launch = some l.id ∧ d.stop = .held then s.modSaved l.vf e.1 fun d => { d with stop := .saved } else s
    | none => s) s
/-- The action is carried out for a launch that has not been killed. -/
def State.act (s : State) (n : FaultNote) (a : Action) (l : Launch) : State :=
  match a with
  | .kill => s.killLaunch l.id 3
  | .hold => if n.kind = 1 then s else s.holdFor n l
  | .rearm =>
    if l.st ≠ .slipped ∧ l.st ≠ .stopped then s else
    let p := l.slipPhase n
    ((s.freeHeld l n.tick).stopLaunch l.id (l.st = .stopped && l.hold && l.stopAt ≠ some n.tick)).modLaunch l.id fun m =>
      { m with rearms := if l.slips then tset 0 m.rearms p (tget 0 m.rearms p + 1) else m.rearms, slipAt := n.tick :: m.slipAt }
  | .reexec => match s.taskAt n.vf n.g l.id with | some t => s.reexecute l t | none => s
  | .count => s
  | .endErr => s
/-- A note becomes its record, the interrupt of the launch's queue, and the action. -/
def State.settle (s : State) (n : FaultNote) : State :=
  let a := s.actionFor n
  let l := n.launch.bind s.launch
  let q := (l.map (·.q)).getD 0
  let s := s.logRecord n.vf (n.record a.num q)
  let told : Bool := match a with | .count => false | .endErr => decide (s.policy n.vf = 3) | _ => true
  let s := if told ∧ l.isSome then s.raise q else s
  let s := if a = .endErr then s.endFaulted n else s
  match l with
  | some l => if l.st = .retiring then s else s.act n a l
  | none => s
/-- A SLIP waits until the cube commands of its launch have stopped: the record names their restart point (R404). -/
def State.noteReady (s : State) (n : FaultNote) : Bool :=
  decide (n.code ≠ 0x0D ∨ n.kind = 3 ∨ n.launch = none) ||
    s.ctxs.all fun e => !(e.2.launch = n.launch && e.2.stop = .slipped) || (s.quad (quadOf e.1)).stopped e.1
/-- FAULT_RECORD. -/
def execFaultRecord (s : State) : Out :=
  match s.dealer.notes with
  | n :: rest => event (s.noteReady n) s (State.settle (s.modDealer fun d => { d with notes := rest }) n)
  | [] => .next s

/-! ### System calls (R149, R324, R431) -/

/-- The first requests that have their replies leave, in request order. -/
def replied : List SyscReq → List SyscReq × List EvRec
  | [] => ([], [])
  | r :: rest =>
    match r.reply with
    | some (st, v) => let (l, es) := replied rest; (l, { kind := 2, code := st, tag := r.seq, payload := v.toNat } :: es)
    | none => (r :: rest, [])
/-- Requests of an owner. -/
def State.syscOf (s : State) (v h : Nat) : List SyscReq :=
  if h < 3072 then (s.ctx h).sysc else ((s.savedAt v (slotOf h)).map (·.sysc)).getD []
/-- A request changes, and the replies that are due post (R71). -/
def State.modSysc (s : State) (v h seq : Nat) (f : SyscReq → SyscReq) : State :=
  let (l, es) := replied ((s.syscOf v h).map fun r => if r.seq = seq then f r else r)
  let s := if h < 3072 then s.modCtx h fun c => { c with sysc := l }
    else
      let g := slotOf h
      let w := s.frameGet v g 0x11180 8
      (s.modSaved v g fun d => { d with sysc := l }).framePut v g 0x11180 8 (w % 2 ^ 16 + l.length * 2 ^ 16)
  es.foldl (fun s e => s.postTo v h { e with time := s.tick }) s
/-- The first request that the Dealer has not taken: function, owner, request. -/
def State.syscDue (s : State) : Option (Nat × Nat × SyscReq) :=
  match s.ctxs.findSome? fun e => (e.2.sysc.find? fun r => !r.taken).map fun r => (e.2.vfid, e.1, r) with
  | some x => some x
  | none => s.vfs.findSome? fun v => v.2.saved.findSome? fun e => match e.2 with
    | some d => (d.sysc.find? fun r => !r.taken).map fun r => (v.1, frameOf e.1, r)
    | none => none
/-- The Dealer answers a request, or writes it to the host's ring. -/
def State.takeSysc (s : State) (v h : Nat) (r : SyscReq) : State :=
  let answer := fun (st : Nat) (x : Word) => s.modSysc v h r.seq fun r => { r with taken := true, reply := some (st, x) }
  if r.service = 0 then answer 0 (r.arg0 + r.arg1) else
  match (s.vf v).services.find? fun e => e.1 = r.service with
  | none => answer 1 0
  | some (_, ring) =>
    let made := leRead s.mem (ring + 8192) 8
    if (made + 2 ^ 64 - leRead s.mem (ring + 8200) 8) % 2 ^ 64 = 256 then answer 3 (BitVec.ofNat 64 (Config.number s.fresh 13))
    else
      let e := slotOf h % 4096 + v % 8 * 2 ^ 12 + r.seq % 2 ^ 16 * 2 ^ 16 + r.service % 2 ^ 16 * 2 ^ 32 + r.arg0.toNat * 2 ^ 64 + r.arg1.toNat * 2 ^ 128
      let s := s.modSysc v h r.seq fun r => { r with taken := true, ctx := slotOf h }
      ((s.dealerWrite (ring + 32 * (made % 256)) e 32).dealerWrite (ring + 8192) ((made + 1) % 2 ^ 64) 8).raise 63
/-- SYSC_REQUEST. -/
def execSyscRequest (s : State) : Out :=
  match s.syscDue with
  | some (v, h, r) => .next (s.takeSysc v h r)
  | none => .next s

/-- The Dealer's own work that is due. -/
def State.duePolicy (s : State) : Due :=
  match s.dealer.notes with
  | n :: _ => if s.noteReady n then some execFaultRecord else none
  | [] => none

end Sys2Proof.Machine
end

