-- ==== Sys2Proof/Machine/HostCmd.lean ====
section
/-! DEFINITION. Host commands (R429-R431, R434, R440, R442): queues, tables, contexts, services and tests. Checkpoints stand in
Checkpoint, function-level resets in Reset. -/

namespace Sys2Proof.Machine

/-! ### The shape of a command (R339, R429) -/

/-- A command on a privileged queue with no reserved bit of its entry set. -/
def State.hostOk (s : State) (c : QueueCmd) : Bool := (s.queue c.q).priv && c.clean
/-- A command whose effect is complete at once: the state and its STATUS. -/
def State.atOnce (s : State) (c : QueueCmd) (code : Nat) (f : State → State × Nat) : Out :=
  event (s.asked c code && !(s.queue c.q).begun) s
    (if s.hostOk c then (let (t, st) := f s; t.retire c.q st) else s.retire c.q 1)
/-- A refusal. -/
def refuse (s : State) : State × Nat := (s, 1)
/-- Done when the condition holds, else refused. -/
def doneIf (b : Bool) (s t : State) : State × Nat := if b then (t, 0) else (s, 1)
/-- The entry of a queue is under way. -/
def State.underWay (s : State) (q delay : Nat) : State :=
  s.setQueue q { s.queue q with begun := true, start := s.tick, due := s.tick + delay }
/-- A command that takes time: `start` begins it or refuses it, and it retires with the status of `fin`. -/
def State.inTwo (s : State) (c : QueueCmd) (code : Nat) (start : State → Option State) (fin : State → Option (State × Nat)) : Out :=
  if !s.asked c code then .next s
  else if (s.queue c.q).begun then
    match fin s with
    | some (t, st) => .next (t.retire c.q st)
    | none => .next s
  else if s.hostOk c then
    match start s with
    | some t => .next (if (t.queue c.q).begun then t else t.underWay c.q 0)
    | none => .next (s.retire c.q 1)
  else .next (s.retire c.q 1)
/-- An operand that names a function, and nothing else. -/
def funcArg (w : Word) : Option Nat := if w.toNat < 8 then some w.toNat else none
/-- An operand that names a context slot. -/
def slotArg (w : Word) : Option Nat := if w.toNat < 3072 then some w.toNat else none
/-- `n` bytes of HBM or host memory from `pa`: where the Dealer reads and writes operands. -/
def hostOperand (pa n : Nat) : Bool := decide ((tierOf pa = 3 ∨ tierOf pa = 6) ∧ tierOf (pa + n - 1) = tierOf pa)

/-- The function of a command's queue. -/
def State.queueVf (s : State) (c : QueueCmd) : Nat := (s.queue c.q).f 71 69

/-! ### Queues (R338, R340) -/

/-- A descriptor that can be mapped, and the window slot it takes: the lowest one free below 63. -/
def State.mapSlot (s : State) (c : QueueCmd) : Option Nat :=
  let a := c.opa.toNat
  let log := bits (leRead s.mem (a + 8) 1) 4 0
  if c.opb.toNat < 2 ∧ hostOperand a 64 ∧ 4 ≤ log ∧ log ≤ 16 then
    (List.range 63).find? fun n => !(s.queue n).mapped
  else none
/-- The bits of a queue descriptor that are no reserved field (R5, R338). -/
def descMask : BitVec 512 := BitVec.ofNat 512 (2 ^ 256 - 2 ^ 96 + (2 ^ 76 - 1))
/-- The descriptor is mapped; a pending wake is served by the TAIL that is read now. -/
def State.mapQueue (s : State) (n a : Nat) (priv : Bool) : State :=
  let d := BitVec.ofNat 512 (leRead s.mem a 64) &&& descMask
  let s := if d.getLsbD 74 then s.dealerWrite a (setBits d 74 74 0).toNat 64 else s
  (s.setQueue n { desc := setBits (setBits d 74 74 0) 73 73 1, addr := a, mapped := true, priv := priv }).modDealer fun x =>
    { x with unmapped := x.unmapped.filter (· ≠ a) }
/-- MAPQ. -/
def execMapq (c : QueueCmd) (s : State) : Out :=
  s.atOnce c 0x80 fun s =>
    match s.mapSlot c with
    | some n => ((s.dealerMet (s.queueVf c) [(c.opa.toNat, 64)]).mapQueue n c.opa.toNat (c.opb.getLsbD 0), 0)
    | none => refuse s
/-- The descriptor goes back to memory with MAPPED = 0. -/
def State.unmapQueue (s : State) (n : Nat) : State :=
  let q := s.queue n
  let s := (s.setQueue n {}).modDealer fun x => { x with unmapped := x.unmapped ++ [q.addr] }
  s.dealerWrite q.addr (setBits q.desc 73 73 0).toNat 64
/-- The queue that UNMAPQ names. -/
def State.unmapTarget (s : State) (c : QueueCmd) : Option Nat :=
  if c.opb ≠ 0 then none else
  (s.dealer.queueAt c.opa.toNat).bind fun e => if e.1 = 63 then none else some e.1
/-- UNMAPQ: the queue stops at once and leaves once its entry has retired; one that names its own queue retires first, and one for a queue
that another UNMAPQ is unmapping retires with the queue gone (log 58). -/
def execUnmapq (c : QueueCmd) (s : State) : Out :=
  let own := decide (s.unmapTarget c = some c.q)
  if s.asked c 0x81 && s.hostOk c && own then .next ((s.retire c.q 0).unmapQueue c.q)
  else s.inTwo c 0x81
    (fun s => (s.unmapTarget c).map fun n => s.setQueue n { s.queue n with unmap := some ((s.queue n).unmap.getD c.q) })
    (fun s =>
      match s.dealer.queueAt c.opa.toNat with
      | some (n, q) =>
        if q.unmap = none then some (s, 0)
        else if q.unmap = some c.q ∧ q.entry.isNone then some (s.unmapQueue n, 0) else none
      | none => some (s, 0))

/-! ### Tables (R351-R355, R373, R413) -/

/-- A function is idle: no running or held context, no pending engine command, no queued launch. -/
def State.idle (s : State) (v : Nat) : Bool :=
  s.ctxs.all (fun e => e.2.state = 0 || e.2.vfid ≠ v) && (s.vf v).saved.isEmpty && s.commands.all (fun k => k.vf ≠ v) &&
    s.dealer.launches.all fun l => l.vf ≠ v
/-- The quads, TSRAM and HBM of two entries are apart (R373). -/
def apart (a b : Nat) : Bool :=
  let meet := fun (x m y n : Nat) => decide (x < y + n ∧ y < x + m ∧ 0 < m ∧ 0 < n)
  let ts := fun (p t : Nat) => (bits p (256 + 16 * t + 7) (256 + 16 * t), bits p (256 + 16 * t + 15) (256 + 16 * t + 8))
  let hb := fun p : Nat => [(bits p 329 320, bits p 339 330), (bits p 349 340, bits p 359 350)]
  decide (bits a 255 64 &&& bits b 255 64 = 0) &&
    (List.range 4).all (fun t => !meet (ts a t).1 (ts a t).2 (ts b t).1 (ts b t).2) &&
    (hb a).all fun x => (hb b).all fun y => !meet x.1 x.2 y.1 y.2
/-- The save area of an entry lies inside its TSRAM partition (R413). -/
def saveAreaOk (p : Nat) : Bool :=
  let n := ((List.range 192).filter fun q => bit p (64 + q)).length * 16 * 0x12000
  let a := saveArea p
  n = 0 || (decide (tierOf a = 2 ∧ tierOf (a + n - 1) = 2 ∧ portTower a = portTower (a + n - 1)) && partOk p a && partOk p (a + n - 1))
/-- A partition entry that the Dealer writes for function `v`: not before a reset of the function has retired (R373, R413, R443). -/
def State.partGood (s : State) (v p : Nat) : Bool :=
  decide (bits p 3 1 < 4 ∧ bits p 31 24 = 0 ∧ bits p 383 360 = 0 ∧ bits p 1023 652 = 0) && s.idle v && !s.dealer.resets.any (fun r => r.1 = v) && saveAreaOk p &&
    (!bit p 0 || (List.range 8).all fun o =>
      o = v || !bit (s.vf o).part.toNat 0 || apart p (s.vf o).part.toNat)
/-- The 32 range entries and 64 attribute entries of a function are loaded from memory (R351, R353). -/
def State.loadTables (s : State) (v : Nat) : State :=
  let p := (s.vf v).part.toNat
  (s.dealerMet v [(bits p 511 448, 1024), (bits p 575 512, 512)]).modVf v fun x =>
    { x with ranges := table 0 32 fun i => BitVec.ofNat 256 (leRead s.mem (bits p 511 448 + 32 * i) 32)
             attrs := table 0 64 fun i => BitVec.ofNat 64 (leRead s.mem (bits p 575 512 + 8 * i) 8) }
/-- PARTWRITE. -/
def execPartwrite (c : QueueCmd) (s : State) : Out :=
  s.atOnce c 0x82 fun s =>
    match funcArg c.opa with
    | some v =>
      let p := leRead s.mem c.opb.toNat 128
      doneIf (hostOperand c.opb.toNat 128 && s.partGood v p) s
        (((s.dealerMet v [(c.opb.toNat, 128)]).modVf v fun x => { x with part := BitVec.ofNat 1024 p }).loadTables v)
    | none => refuse s
/-- RANGELOAD. -/
def execRangeload (c : QueueCmd) (s : State) : Out :=
  s.atOnce c 0x83 fun s =>
    match funcArg c.opa with
    | some v => doneIf (c.opb = 0) s (s.loadTables v)
    | none => refuse s
/-- WALKINV: one table entry, or all of the function; an attribute entry that it covers is read again (R353-R355). -/
def execWalkinv (c : QueueCmd) (s : State) : Out :=
  s.atOnce c 0x84 fun s =>
    match funcArg c.opa with
    | some v =>
      let all := decide (c.opb = BitVec.allOnes 64)
      let attr := fun i : Nat => bits (s.vf v).part.toNat 575 512 + 8 * i
      let read := (List.range 64).filter fun i => all || attr i = c.opb.toNat
      ((s.dealerMet v (read.map fun i => (attr i, 8))).modVf v fun x =>
        { x with walk := if all then [] else x.walk.filter fun e => e.1 ≠ c.opb.toNat
                 attrs := read.foldl (fun t i => tset 0 t i (BitVec.ofNat 64 (leRead s.mem (attr i) 8))) x.attrs }, 0)
    | none => refuse s

/-! ### Contexts (R409-R411, R418, R425) -/

/-- The launch that stands in a slot or in its frame. -/
def State.launchAt (s : State) (g : Nat) : Option Nat :=
  if (s.ctx g).state ≠ 0 then (s.ctx g).launch else (s.frameAt g).bind fun d => d.2.launch
/-- The context is on its way to its frame. -/
def Ctx.leaving (c : Ctx) : Bool := c.ask.isSome || c.stop = .preempting
/-- The context of a slot, or another of its launch where that stops as a whole (R41), is on its way to its frame. -/
def State.leaving (s : State) (g : Nat) : Bool :=
  (s.ctx g).leaving ||
    match s.launchAt g with
    | some id => (s.launch id).any (fun l => l.st = .stopped) && (s.liveOf id).any fun e => e.2.leaving
    | none => false
/-- PREEMPT: the context, and in a RIGID phase its launch, waits for the host once saved; it retires when all of them are. -/
def execPreempt (c : QueueCmd) (s : State) : Out :=
  s.inTwo c 0x85
    (fun s => (slotArg c.opa).bind fun g =>
      if c.opb ≠ 0 ∨ !(s.ctx g).runs then none
      else match s.inRigid g, (s.ctx g).launch with
        | true, some id => some (s.stopLaunch id true)
        | _, _ => some (s.askStop g true))
    (fun s => if s.leaving c.opa.toNat then none else some (s, 0))

/-- The launch of a slot waits for the host. -/
def State.launchHeld (s : State) (g : Nat) : Bool := ((s.launchAt g).bind s.launch).any fun l => l.hold
/-- A context is held: its frame waits for the host, alone or with its launch, or it is on its way there. -/
def State.held (s : State) (g : Nat) : Bool :=
  match s.frameAt g with
  | some (_, d) => d.stop = .held || s.launchHeld g
  | none => decide ((s.ctx g).state ≠ 0) && (s.leaving g || (s.ctx g).stop = .faulted || (s.ctx g).stop = .slipped) &&
      ((s.ctx g).hold || s.launchHeld g)
/-- An engine command or a stream of the context is held at its restart point. -/
def State.engineHeld (s : State) (g : Nat) : Bool :=
  s.commands.any (fun k => (k.g = g || k.g = frameOf g) && k.held.isSome) ||
    (List.range 8).any (fun n => ((s.ctx g).stream n).held) || (s.frameAt g).any fun d => d.2.streams.any fun t => t.2.held
/-- Held engine work of a context goes on from its restart point (R272, R410). -/
def State.resumeEngines (s : State) (g : Nat) : State :=
  let go := fun e : Nat × Stream => (e.1, if e.2.held then { e.2 with held := false, asked := s.tick } else e.2)
  let s := s.mapCmds fun k => if k.g = g ∨ k.g = frameOf g then { k with held := none } else k
  let s := s.modCtx g fun c => { c with st := c.st.map go }
  match s.frameAt g with
  | some (v, _) => s.modSaved v g fun d => { d with streams := d.streams.map go }
  | none => s
/-- A frame may be restored again. -/
def State.release' (s : State) (v g : Nat) : State :=
  s.modSaved v g fun d => if d.stop = .held then { d with stop := .saved, due := s.tick + 1 + Config.delay s.fresh 12 } else d
/-- A held launch may be re-armed, and every frame of it restored. -/
def State.unhold (s : State) (id : Nat) : State :=
  let s := (s.savedOf id).foldl (fun s d => s.release' d.1 d.2.1) s
  s.modLaunch id fun l => { l with hold := false }
/-- RESUME. -/
def State.resume (s : State) (g : Nat) : State :=
  let s := s.resumeEngines g
  if !s.held g then s else
  match s.launchHeld g, s.launchAt g, s.frameAt g with
  | true, some id, _ => s.unhold id
  | _, _, some (v, _) => s.release' v g
  | _, _, none => s.modCtx g fun c => { c with hold := false }
def execResume (c : QueueCmd) (s : State) : Out :=
  s.inTwo c 0x86
    (fun s => (slotArg c.opa).bind fun g => if c.opb = 0 ∧ (s.held g ∨ s.engineHeld g) then some (s.resume g) else none)
    (fun s => if s.leaving c.opa.toNat ∨ (s.frameAt c.opa.toNat).isSome then none else some (s, 0))

/-- REEXEC: a held restartable task. -/
def State.redoTask (s : State) (g : Nat) : Option State :=
  (s.launchAt g).bind fun id => (s.launch id).bind fun l => (s.taskAt l.vf g id).bind fun t =>
    if s.held g ∧ l.restartable t ∧ l.tries t < 2 then
      let s := s.reexecute l t
      some (if l.hold then s.unhold id else s)
    else none
/-- No task that the slot names waits to start again. -/
def State.redone (s : State) (g : Nat) : Bool := s.dealer.launches.all fun l => l.redos.all fun r => decide (r.slot ≠ g ∧ r.task ≠ g)
def execReexec (c : QueueCmd) (s : State) : Out :=
  s.inTwo c 0x88
    (fun s => (slotArg c.opa).bind fun g => if c.opb = 0 then s.redoTask g else none)
    (fun s => if s.redone c.opa.toNat then some (s, 0) else none)

/-! ### Quota, service level, services (R68, R431, R434) -/

/-- QUOTA. -/
def execQuota (c : QueueCmd) (s : State) : Out :=
  s.atOnce c 0x8A fun s =>
    match funcArg c.opa with
    | some v =>
      doneIf (decide (c.opb.toNat < 2 ^ 32 ∧ (s.vf v).used ≤ c.opb.toNat)) s
        (s.modVf v fun x => { x with part := setBits x.part 63 32 c.opb.toNat })
    | none => refuse s
/-- SERVICE: the level only rises, while the other queues and the launches are idle. -/
def execService (c : QueueCmd) (s : State) : Out :=
  s.atOnce c 0x8E fun s =>
    let n := c.opa.toNat
    let idle := s.dealer.launches.isEmpty && s.dealer.queues.all fun q => q.1 = c.q || q.2.entry.isNone
    doneIf (decide (n ≤ 3 ∧ bits s.dealer.bootstate.toNat 4 3 < n ∧ c.opb = 0) && idle) s
      (s.modDealer fun d => { d with bootstate := setBits d.bootstate 4 3 n })
/-- SVCREG. -/
def execSvcreg (c : QueueCmd) (s : State) : Out :=
  s.atOnce c 0x91 fun s =>
    let a := c.opa.toNat
    let v := bits a 2 0
    let n := bits a 31 16
    let ring := c.opb.toNat
    let others := fun x : Vf => x.services.filter fun e => e.1 ≠ n
    if bits a 15 3 ≠ 0 ∨ bits a 63 33 ≠ 0 ∨ n = 0 ∨ ring % 64 ≠ 0 then refuse s
    else if bit a 32 then doneIf (tierOf ring = 6) s (s.modVf v fun x => { x with services := (n, ring) :: others x })
    else (s.modVf v fun x => { x with services := others x }, 0)
/-- The unanswered request that a reply names: function, owner. -/
def State.unanswered (s : State) (g seq : Nat) : Option (Nat × Nat) :=
  let mine := fun r : SyscReq => r.taken && r.reply.isNone && decide (r.ctx = g ∧ r.seq = seq)
  match s.ctxs.find? fun e => e.2.sysc.any mine with
  | some e => some (e.2.vfid, e.1)
  | none => s.vfs.findSome? fun v => v.2.saved.findSome? fun e => match e.2 with
    | some d => if d.sysc.any mine then some (v.1, frameOf e.1) else none
    | none => none
/-- SVCREPLY. -/
def execSvcreply (c : QueueCmd) (s : State) : Out :=
  s.atOnce c 0x92 fun s =>
    let a := c.opa.toNat
    let st := bits a 39 32
    let seq := bits a 31 16
    if bits a 15 12 ≠ 0 ∨ bits a 63 40 ≠ 0 ∨ 3 < st then refuse s else
    match s.unanswered (bits a 11 0) seq with
    | some (v, h) => (s.modSysc v h seq fun r => { r with reply := some (st, c.opb) }, 0)
    | none => refuse s

/-! ### Tests and keys (R440, R442) -/

/-- The towers in `m`. -/
def towersIn (m : Nat) : List Nat := (List.range 4).filter fun t => bit m t
/-- The TSRAM and HBM of the towers in `m`. -/
def ofTowers (m pa : Nat) : Bool := (tierOf pa = 2 || tierOf pa = 3) && bit m (portTower pa)
/-- Words that a BIST run reports (R440). -/
def bistWords (m set : Nat) : Nat := (towersIn m).length * (48 + if set = 3 then 1 else 0)
/-- What an alarm leaves of a BIST run that it ends (R443). DESIGN CHOICE: the cubes stand as after a whole test, each byte of the march is left as it
was or zero, a free choice, and no results are written (log 86). -/
def State.bistCut (s : State) (m set : Nat) : State :=
  let s := if set = 3 then
      let keep := fun pa : Nat => !ofTowers m pa || Config.choice s.fresh (2 ^ 60 + pa)
      { s with mem := s.mem.filter fun e => keep e.1, memSoft := s.memSoft.filter keep }
    else s
  ((List.range 192).filter fun q => bit m (q / 48)).foldl (fun t q => t.modQuad q fun x => x.tested 255 (Config.number s.fresh (64 + q) % 256)) s
/-- Cube ticks of a test set (R230); of the march none is stated. -/
def bistTicks (set : Nat) : Nat := match set with | 0 => 2048 | 1 => 33024 | 2 => 512 | _ => 0
/-- A BIST run (R440): every set tests every layer of every cube, and leaves it zero; set 3 marches over TSRAM and HBM too. -/
def State.bist (s : State) (m set out : Nat) : State :=
  let quads := (List.range 192).filter fun q => bit m (q / 48)
  let res := fun i : Nat => Config.number s.fresh (64 + i)
  let s := if set = 3 then
      let keep := fun pa : Nat => !ofTowers m pa
      { s with mem := s.mem.filter fun e => keep e.1, memBad := s.memBad.filter keep, memSoft := s.memSoft.filter keep }
    else s
  let s := quads.foldl (fun s q => s.modQuad q fun x => x.tested 255 (res q % 256)) s
  let words := quads.map (fun q => (s.quad q).bistres) ++
    if set = 3 then (towersIn m).map fun t => res (192 + t) % 2 ^ 56 else []
  (words.zipIdx).foldl (fun s w => s.dealerWrite (out + 8 * w.2) w.1 8) s
/-- BIST: it takes the cube ticks of its set at least (R230); how many more, for gated ticks and the march, is free. One that an alarm has
ended retires with STATUS 1 (log 86). -/
def execBist (c : QueueCmd) (s : State) : Out :=
  let w := c.opa.toNat
  let m := bits w 3 0
  let set := bits w 5 4
  s.inTwo c 0x8B
    (fun s =>
      let uses := s.dealer.launches.any fun l => l.towers &&& m ≠ 0 || l.quads.any fun q => bit m (q / 48)
      if decide (bits w 63 6 = 0) && !uses && (m = 0 || hostOperand c.opb.toNat (8 * bistWords m set)) then
        some (s.underWay c.q (bistTicks set + Config.delay s.fresh 16))
      else none)
    (fun s =>
      if (s.queue c.q).failed then some (s.bistCut m set, 1)
      else if (s.queue c.q).due ≤ s.tick then some (s.bist m set c.opb.toNat, 0) else none)
/-- Bytes of a SHA2-192s signature. -/
def sigBytes : Nat := 16224
/-- ATTEST: the report and its signature; where the report holds what it holds is not stated. -/
def execAttest (c : QueueCmd) (s : State) : Out :=
  s.atOnce c 0x8C fun s =>
    let out := c.opb.toNat
    let nonce := leRead s.mem c.opa.toNat 32
    let ok := s.dealer.bootstate.getLsbD 10 && !s.dealer.secalarm.getLsbD 5 && hostOperand c.opa.toNat 32 && hostOperand out (64 + sigBytes)
    let body := (List.range 64).map fun k =>
      Config.report nonce s.dealer.defectCrc (bits s.dealer.bootstate.toNat 4 3) k
    let sign := (List.range sigBytes).map fun k => Config.signature s.fresh k
    let told := s.dealerMet (s.queueVf c) [(c.opa.toNat, 32)]
    doneIf ok s (((body ++ sign).zipIdx).foldl (fun s b => s.dealerWrite (out + b.2) b.1.toNat 1) told)
/-- KEYPROV: whether the blob's signature holds is a matter of the blob. -/
def execKeyprov (c : QueueCmd) (s : State) : Out :=
  s.atOnce c 0x8D fun s =>
    let ok := c.opb = 0 && !s.dealer.bootstate.getLsbD 10 && !s.dealer.secalarm.getLsbD 0 && hostOperand c.opa.toNat 1 &&
      Config.choice s.fresh 14
    doneIf ok s (s.modDealer fun d =>
      { d with bootstate := setBits d.bootstate 10 10 1, secalarm := setBits d.secalarm 5 5 0 })

end Sys2Proof.Machine
end

