-- ==== Sys2Proof/Machine/Checkpoint.lean ====
section
/-! DEFINITION. CHECKPOINT and RESTORE (R430), and the failure of the host's link. -/

namespace Sys2Proof.Machine

/-- A range of `n` GiB of HBM from GiB `b`, as far as it exists: first byte and length. -/
def hbmRange (b n : Nat) : Nat × Nat := (hbm (b * 2 ^ 30), (if b + n ≤ 512 then n else 512 - b) * 2 ^ 30)
/-- The memory of a scope, piece by piece: first byte and length. -/
def State.scopePieces (s : State) (w : Nat) : List (Nat × Nat) :=
  if bit w 3 then ((List.range 4).map fun t => (tsram t 0, 0x8000000)) ++ [(hbm 0, 0x8000000000)]
  else
    let p := (s.vf (bits w 2 0)).part.toNat
    let ts := (List.range 4).map fun t => (tsram t (bits p (256 + 16 * t + 7) (256 + 16 * t) * 2 ^ 20), bits p (256 + 16 * t + 15) (256 + 16 * t + 8) * 2 ^ 20)
    (ts ++ [hbmRange (bits p 329 320) (bits p 339 330), hbmRange (bits p 349 340) (bits p 359 350)]).filter fun e => decide (0 < e.2)
/-- Bytes of a scope. -/
def State.payload (s : State) (w : Nat) : Nat := ((s.scopePieces w).map (·.2)).sum
/-- The physical address of an image, when the target holds it: host memory, or a mirrored LIVE allocation. -/
def State.imageAt (s : State) (w : Nat) (a : Word) : Option Nat :=
  let n := 64 + s.payload w
  if bit w 4 then
    let e := (tget 0 (s.vf (bits w 2 0)).pool (bits a.toNat 47 36)).toNat
    if isKitty a ∧ bits a.toNat 35 0 = 0 ∧ bit e 0 ∧ bits e 2 1 = 0 ∧ bit e 3 ∧ n ≤ bits e 124 104 * 65536 then
      some (2 ^ 57 + bits e 15 4 * 2 ^ 40 + bits e 103 64)
    else none
  else if a.toNat % 4096 = 0 ∧ tierOf a.toNat = 6 ∧ tierOf (a.toNat + n - 1) = 6 then some a.toNat
  else none
/-- A checkpoint or restore is accepted: its scope is well formed and idle, and its target holds the image. -/
def State.transferOk (s : State) (c : QueueCmd) : Option Nat :=
  let w := c.opa.toNat
  let idle := if bit w 3 then (List.range 8).all s.idle else s.idle (bits w 2 0)
  if bits w 63 5 ≠ 0 ∨ !idle then none else s.imageAt w c.opb
/-- Where the image stands now: a mirrored allocation may have moved to its survivor, or be lost (R245). -/
def State.imageNow (s : State) (c : QueueCmd) : Option Nat :=
  let w := c.opa.toNat
  if bit w 4 then
    let e := (tget 0 (s.vf (bits w 2 0)).pool (bits c.opb.toNat 47 36)).toNat
    if bits e 2 1 = 2 ∨ !bit e 0 then none else some (2 ^ 57 + bits e 15 4 * 2 ^ 40 + bits e 103 64)
  else some c.opb.toNat
/-- The part of one range that lies in another: first byte and length. -/
def common (a b : Nat × Nat) : Nat × Nat := let lo := max a.1 b.1; (lo, min (a.1 + a.2) (b.1 + b.2) - lo)
/-- What reading the pieces of a scope meets is counted to the function that owns them (R248). -/
def State.scopeMet (s : State) (w : Nat) (read : List (Nat × Nat)) : State :=
  let owners := if bit w 3 then (List.range 8).filter fun v => bit (s.vf v).part.toNat 0 else [bits w 2 0]
  owners.foldl (fun s v => s.dealerMet v ((read.flatMap fun a => (s.scopePieces v).map (common a)).filter fun a => decide (0 < a.2))) s
/-- The first `n` bytes of a scope are copied between memory and an image; what is read may meet errors. -/
def State.transfer (s : State) (w at' n : Nat) (back : Bool) : State :=
  let taken := ((s.scopePieces w).foldl (fun (t : List (Nat × Nat) × Nat) e => (t.1 ++ [(e.1, min e.2 (n - t.2))], t.2 + min e.2 (n - t.2))) ([], 0)).1
  let s := if back then s.dealerMet (bits w 2 0) [(at' + 64, n)] else s.scopeMet w taken
  ((s.scopePieces w).foldl (fun (t : State × Nat) e =>
    let len := min e.2 (n - t.2)
    let m := at' + 64 + t.2
    (if back then t.1.rawCopy m e.1 len else t.1.rawCopy e.1 m len, t.2 + len)) (s, 0)).1
/-- A transfer under way begins: its end comes no sooner than the bytes take. -/
def State.beginTransfer (s : State) (c : QueueCmd) : State := s.underWay c.q (1 + Config.delay s.fresh 15)
/-- A transfer ends: whole, with what `fin` adds; or, when its link or its allocation is lost, after part of it. -/
def State.endTransfer (s : State) (c : QueueCmd) (back : Bool) (fin : State → Nat → State) : Option (State × Nat) :=
  let q := s.queue c.q
  let w := c.opa.toNat
  let some' := Config.number s.fresh 15 % (s.payload w + 1)
  match q.failed, s.imageNow c with
  | true, some a => some (s.transfer w a some' back, 5)
  | _, none => some (s, 5)
  | false, some a => if q.due ≤ s.tick then some (fin (s.transfer w a (s.payload w) back) a, 0) else none
/-- 64 bytes of an image's header, as the switches or the host hold them: no dirty line stays behind (R430). -/
def State.header (s : State) (a v : Nat) : State := (s.dealerWrite a v 64).cleanLines fun l => l = a / 64
/-- The header of an image. -/
def State.putHeader (s : State) (a len w tick : Nat) : State := s.header a (len + w * 2 ^ 64 + tick % 2 ^ 64 * 2 ^ 128)
/-- CHECKPOINT: an image has its header once it is complete. -/
def execCheckpoint (c : QueueCmd) (s : State) : Out :=
  s.inTwo c 0x8F
    (fun s => (s.transferOk c).map fun a => (s.header a 0).beginTransfer c)
    (fun s => s.endTransfer c false fun t a => t.putHeader a (s.payload c.opa.toNat) c.opa.toNat (s.queue c.q).start)
/-- RESTORE. -/
def execRestore (c : QueueCmd) (s : State) : Out :=
  s.inTwo c 0x90
    (fun s => (s.transferOk c).bind fun a =>
      let h := leRead (s.cleanLines fun l => l = a / 64).mem a 64
      if bits h 63 0 = s.payload c.opa.toNat ∧ bits h 127 64 = c.opa.toNat then some (s.beginTransfer c) else none)
    (fun s => s.endTransfer c true fun t _ => t)
/-- PCIE_FAILURE: transfers to and from host memory that are under way fail. -/
def execPcieFailure (s : State) : Out :=
  let fails := fun q : DQueue => q.begun && match q.entry with
    | some (_, e) => decide ((bits e.toNat 7 0 = 0x8F ∨ bits e.toNat 7 0 = 0x90) ∧ !bit e.toNat 68)
    | none => false
  .next (s.modDealer fun d => { d with queues := d.queues.map fun e => if fails e.2 then (e.1, { e.2 with failed := true }) else e })

end Sys2Proof.Machine
end

