-- ==== Sys2Proof/Machine/Reset.lean ====
section
/-! DEFINITION. Function-level reset (R72, R192, R336, R381, R403, R423) and the KILL that can cause one (R409). -/

namespace Sys2Proof.Machine

/-! ### Step 1: the function stops -/

/-- ENABLE goes on every queue of the function that the Dealer has mapped since boot. -/
def State.disable (s : State) (v : Nat) : State :=
  let off := fun q : DQueue => if q.mapped ∧ q.f 71 69 = v then { q with desc := setBits q.desc 72 72 0 } else q
  let s := s.modDealer fun d => { d with queues := d.queues.map fun (e : Nat × DQueue) => (e.1, off e.2) }
  s.dealer.unmapped.foldl (fun s a =>
    let d := BitVec.ofNat 512 (leRead s.mem a 64)
    if bits d.toNat 71 69 = v then s.dealerWrite a (setBits d 72 72 0).toNat 64 else s) s
/-- A context without a launch stops and is free. -/
def State.stopStray (s : State) (v : Nat) : State :=
  let strays := (s.ctxs.filter fun e => e.2.vfid = v && e.2.state ≠ 0 && e.2.launch.isNone).map (·.1)
  strays.foldl (fun s g => ((s.disown g).freeSlot g).dropLease g) s
/-- The launches of the function end with STATUS 4, and the reset begins; the barrier tags go in its third step. -/
def State.beginReset (s : State) (v q : Nat) : State :=
  let s := (s.dealer.launches.filter fun l => l.vf = v).foldl (fun s l => s.endLaunch l.id 4) s
  let s := (s.disable v).stopStray v
  s.modDealer fun d => { d with resets := d.resets ++ [(v, s.tick, q)] }

/-! ### Steps 2 to 5 -/

/-- Tagged requests have drained, or count as drained (R251, R307). -/
def State.drained (s : State) (v : Nat) : Bool :=
  match s.dealer.resets.find? fun r => r.1 = v with
  | some (_, t, _) =>
    s.dealer.launches.all (fun l => l.vf ≠ v) &&
      ((s.commands.all (fun k => k.vf ≠ v) && s.wq.all (fun e => e.vf ≠ v)) || decide (t + 2 ^ 24 ≤ s.tick))
  | none => false
/-- Quads granted to a function. -/
def State.quadsOf (s : State) (v : Nat) : List Nat := (List.range 192).filter fun q => bit (s.vf v).part.toNat (64 + q)
/-- What is left of the function's commands and queued writes is dropped. -/
def State.dropRest (s : State) (v : Nat) : State :=
  let keep := fun l : List Cmd => l.filter fun k => k.vf ≠ v
  let cores : Tbl Core := s.cores.map fun (e : Nat × Core) => (e.1, { e.2 with remq := keep e.2.remq, remLoose := keep e.2.remLoose })
  let towers : Tbl Tower := s.towers.map fun (e : Nat × Tower) => (e.1, { e.2 with trigCmds := keep e.2.trigCmds })
  { s with cores := cores, towers := towers, wq := s.wq.filter fun e => e.vf ≠ v }
/-- Step 3: tokens, barrier tags, triggers and byte-counting barriers. -/
def State.releaseTables (s : State) (v : Nat) : State :=
  let s := (s.toks.filter fun t => t.vf = v && t.st ≠ 3).foldl (fun s t => s.giveUpToken t.region) s
  let s := (List.range 8).foldl (fun s n => if (s.bar n).vf = v then s.setBar n { gen := (s.bar n).gen } else s) s
  let towers : Tbl Tower := s.towers.map fun (e : Nat × Tower) =>
    (e.1, { e.2 with trigs := e.2.trigs.filter (fun t => !(t.2.valid && t.2.vf = v)), fired := e.2.fired.filter (fun f => f.1 ≠ v),
                     bcs := e.2.bcs.filter fun b => !(b.2.bound && b.2.vf = v) })
  { s with towers := towers }
/-- A quad at its reset state; its counters, its governor and the first mismatches told stay. -/
def Quad.cleared (x : Quad) : Quad := { ctr := x.ctr, gov := x.gov, govNext := x.govNext, katTold := x.katTold }
/-- Step 4: registers, frames, cubes, buffers, Decks, arm registers, counters, services and the TSRAM partition. -/
def State.clearFunction (s : State) (v : Nat) : State :=
  let p := (s.vf v).part.toNat
  let qs := s.quadsOf v
  let slots := qs.flatMap fun q => (List.range 16).map (16 * q + ·)
  let s := slots.foldl (fun s g => s.setCtx g { ctr := (s.ctx g).ctr }) s
  let s := qs.foldl (fun s q => s.modQuad q Quad.cleared) s
  let units := slots ++ qs.flatMap fun q => [3072 + q, 3264 + q]
  let s := units.foldl (fun (s : State) u => s.setArm u {}) s
  let stage := fun st : Stage => if st.vf = v then { st with full := false, owned := false, owner := 0, line := [], flipped := none } else st
  let towers : Tbl Tower := s.towers.map fun (e : Nat × Tower) =>
    (e.1, { e.2 with deck := (List.range 16).foldl (fun d n => tset {} d n (stage (tget {} d n))) e.2.deck })
  let s := State.modVf { s with towers := towers } v fun x => { x with ctr := [], saved := [], services := [] }
  (List.range 4).foldl (fun s t =>
    s.zero (tsram t (bits p (256 + 16 * t + 7) (256 + 16 * t) * 2 ^ 20)) (bits p (256 + 16 * t + 15) (256 + 16 * t + 8) * 2 ^ 20)) s
/-- The kill of an alarm takes every launch once no reset runs (R424, R425). -/
def State.alarmKill (s : State) : State :=
  if s.dealer.alarmed ∧ s.dealer.resets.isEmpty then
    (s.dealer.launches.foldl (fun s l => s.killLaunch l.id 3) s).modDealer fun d => { d with alarmed := false }
  else s
/-- Steps 3 to 5: the reset record names the queue that caused the reset (R407, R423). -/
def State.finishReset (s : State) (v q : Nat) : State :=
  let s := (((s.dropRest v).releaseTables v).clearFunction v)
  let n : FaultNote := { kind := 3, code := 0, vf := v, g := 0, pc := 0, point := 0, tick := s.tick }
  let s := (s.logRecord v (n.record 4 q)).raise q
  State.alarmKill (s.modDealer fun d => { d with resets := d.resets.filter fun r => r.1 ≠ v })
/-- FLR. One for a function whose reset runs already joins it, and retires when it ends (log 55). -/
def execFlr (c : QueueCmd) (s : State) : Out :=
  s.inTwo c 0x89
    (fun s => (funcArg c.opa).bind fun v =>
      if c.opb ≠ 0 then none else some (if s.dealer.resets.any (fun r => r.1 = v) then s else s.beginReset v c.q))
    (fun s =>
      match s.dealer.resets.find? fun r => r.1 = c.opa.toNat with
      | some (v, _, q) => if q = c.q ∧ s.drained v then some (s.finishReset v q, 0) else none
      | none => some (s, 0))

/-! ### KILL (R409, R423) -/

/-- A killed launch that ran in a slot, or held it as a spare, has still to retire. -/
def State.dying (s : State) (g : Nat) : Bool :=
  s.dealer.launches.any fun l => decide (l.st = .retiring) &&
    ((l.phases.any fun p => p.engines.any fun e => decide (e.kind = 0 ∧ e.unit = g)) || l.spares.any fun p => decide (p.1 = g ∨ p.2 = g))
/-- KILL: a function that it leaves unrecoverable is reset. It retires when the launch has. -/
def execKill (c : QueueCmd) (s : State) : Out :=
  s.inTwo c 0x87
    (fun s => (slotArg c.opa).bind fun g => if c.opb ≠ 0 then none else
      (s.launchAt g).bind fun id => (s.launch id).map fun l =>
        let s := s.killLaunch id 3
        if Config.unrecoverable (s.policy l.vf) ∧ !s.dealer.resets.any (fun r => r.1 = l.vf) then s.beginReset l.vf c.q else s)
    (fun s =>
      match s.dealer.resets.find? fun r => r.2.2 = c.q with
      | some (v, _) => if s.drained v then some (s.finishReset v c.q, 0) else none
      | none => if s.dying c.opa.toNat then none else some (s, 0))

end Sys2Proof.Machine
end

