-- ==== Sys2Proof/Machine/Window.lean ====
section
/-! DEFINITION. What the host and the outside do through the management window and the aperture (R340, R402, R424, R426, R427,
R435-R439, R443). What the host reads stands in Boot. -/

namespace Sys2Proof.Machine

/-! ### Doorbells (R340) -/

/-- A write of TAIL to a mapped queue; one that is being unmapped latches it as a pending wake. -/
def DQueue.ring (q : DQueue) (tail : Nat) : DQueue :=
  let d := setBits q.desc 127 96 tail
  { q with desc := if q.unmap.isSome then setBits d 74 74 1 else d }
/-- The management window takes writes: the firmware's signature has not failed (R435). -/
def State.operable (s : State) : Bool := !s.dealer.bootstate.getLsbD 9
/-- A descriptor that the window of `f` shows: any to the physical function, its own to a virtual one (R426). -/
def shown (f : Option Nat) (d : BitVec 512) : Bool := f.all fun v => decide (bits d.toNat 71 69 = v)
/-- A doorbell through the window of `f`: `desc` is a slot of the window, or the address of a descriptor; one in memory keeps the wake in
PWAKE. -/
def State.ringBell (s : State) (f : Option Nat) (desc t : Nat) : Out :=
  if !s.operable then .next s
  else if desc < 64 then
    event ((s.queue desc).mapped && shown f (s.queue desc).desc) s (s.setQueue desc ((s.queue desc).ring t))
  else match s.dealer.queueAt desc with
    | some (n, q) => event (shown f q.desc) s (s.setQueue n (q.ring t))
    | none =>
      let d := BitVec.ofNat 512 (leRead s.mem desc 64)
      event (hostOperand desc 64 && shown f d) s (s.dealerWrite desc (setBits (setBits d 127 96 t) 74 74 1).toNat 64)
/-- DOORBELL. -/
def execDoorbell (desc : HostRef) (tail : BitVec 32) (s : State) : Out := s.ringBell desc.via desc.at' tail.toNat

/-! ### Power, thermal and margining registers (R436, R437, R439) -/

/-- The bits of `m` take the written value. -/
def writable (old w m : Word) : Word := (old &&& ~~~m) ||| (w &&& m)
/-- A write to DROOPCFG. -/
def State.putDroopcfg (s : State) (w : Word) : State := s.modDealer fun d => { d with droopcfg := writable d.droopcfg w 0x1FFFFC00 }
/-- DROOPCFG_WRITE. -/
def execDroopcfgWrite (w : Word) (s : State) : Out := event s.operable s (s.putDroopcfg w)
/-- A write to GOVCFG: from the next sample on. -/
def State.putGovcfg (s : State) (t : Nat) (w : Word) : State := s.modTower t fun x => { x with govcfg := writable x.govcfg w 0xFFFFFF }
/-- GOVCFG_WRITE. -/
def execGovcfgWrite (t : Nat) (w : Word) (s : State) : Out := event s.operable s (s.putGovcfg t w)
/-- No launch runs in the package. -/
def State.quietPackage (s : State) : Bool := s.dealer.launches.isEmpty
/-- A write to VMARGIN: while a launch runs, it only sets ERR. -/
def State.putVmargin (s : State) (r : Nat) (w : Word) : State :=
  s.modDealer fun d =>
    let old := tget 0 d.vmargin r
    let new := if s.quietPackage then writable old w 0xFF &&& ~~~(w &&& 0x100) else old ||| 0x100
    { d with vmargin := tset 0 d.vmargin r new }
/-- VMARGIN_WRITE. -/
def execVmarginWrite (r : Nat) (w : Word) (s : State) : Out := event s.operable s (s.putVmargin r w)
/-- A write to the low word of LMARGIN: START begins an eye measurement; while a launch runs, it only sets ERR. -/
def State.putLmargin (s : State) (p : Nat) (w : Word) : State :=
  s.modDealer fun d =>
    let old := tget 0 d.lmargin p
    let low := old.setWidth 64
    let new := writable low w 0x1FFFF &&& ~~~(w &&& 0x40000)
    let new := if w.getLsbD 16 then new &&& 0x5FFFF else new
    { d with lmargin := tset 0 d.lmargin p (if s.quietPackage then new.setWidth 128 else old ||| 0x40000) }
/-- LMARGIN_START. -/
def execLmarginStart (p : Nat) (w : Word) (s : State) : Out := event s.operable s (s.putLmargin p w)
/-- EYE_MEASUREMENT_END. -/
def execEyeMeasurementEnd (p : Nat) (errors : BitVec 32) (s : State) : Out :=
  let old := tget 0 s.dealer.lmargin p
  event (old.getLsbD 16 && !old.getLsbD 17) s
    (s.modDealer fun d => { d with lmargin := tset 0 d.lmargin p (setBits (setBits old 17 17 1) 63 32 errors.toNat) })

/-! ### Counters (R402, R427) -/

/-- A counter of a table becomes 0. -/
def cleared (t : Tbl Nat) (n i : Nat) : Tbl Nat := tset 0 t (ctrKey n i) 0
/-- A counter of an owner instance becomes 0; TICK keeps its value. LEASEHOLD, BTAG and BCB lose what they show, and TRIGFREE counts from
here. -/
def State.clearCounter (s : State) (n u i : Nat) : State :=
  if n = 0x13 ∨ n = 0x20 ∨ n = 0x21 ∨ n = 0x22 then s.modCtx u fun c => { c with ctr := cleared c.ctr n i }
  else if n = 0x10 ∨ n = 0x11 ∨ n = 0x12 ∨ n = 0x14 ∨ n = 0x18 ∨ n = 0x19 ∨ n = 0x1A then s.modVf u fun x => { x with ctr := cleared x.ctr n i }
  else if n = 0x03 ∨ n = 0x04 ∨ n = 0x16 ∨ n = 0x23 ∨ n = 0x24 then s.modQuad u fun x => { x with ctr := cleared x.ctr n i }
  else if n = 0x15 then s.modQuad u fun x => { x with katerr := tset 0 x.katerr i 0 }
  else if n = 0x05 then s.modQuad u fun x => { x with lease := { x.lease with count := 0 } }
  else if n = 0x06 then s.modQuad u fun x => { x with lease := { x.lease with grant := s.tick } }
  else if n = 0x07 then s.modQuad u fun x => { x with lease := { x.lease with holder := none, ended := false } }
  else if n = 0x08 then s.setBar i {}
  else if n = 0x09 then s.modTower u fun w =>
    let b := tget {} w.bcs i
    { w with bcs := tset {} w.bcs i { b with bound := false, posted := false, ovr := false, vf := 0, gen := 0 } }
  else if n = 0x0A then s.modTower u fun w => { w with trigSub := 64 - (w.trigs.filter fun e => e.2.valid).length }
  else if n = 0x17 ∨ n = 0x25 then s.modCore u fun x => { x with ctr := cleared x.ctr n i }
  else if n = 0x01 ∨ n = 0x02 then { s with pctr := cleared s.pctr n i }
  else s
/-- COUNTER_CLEAR. -/
def execCounterClear (n u i : Nat) (s : State) : Out := event s.operable s (s.clearCounter n u i)
/-- What the host reads of a counter: the owner instance is a slot, cube, quad, core, tower or function, or 0 (R402, R427). -/
def State.hostCounter (s : State) (n u i : Nat) : Nat :=
  if n = 0x10 ∨ n = 0x11 ∨ n = 0x12 ∨ n = 0x14 ∨ n = 0x18 ∨ n = 0x19 ∨ n = 0x1A then tget 0 (s.vf u).ctr (ctrKey n i)
  else
    let g := if n = 0x13 ∨ n = 0x20 ∨ n = 0x21 ∨ n = 0x22 then u
      else if n = 0x17 ∨ n = 0x25 then 4 * u
      else if n = 0x09 ∨ n = 0x0A then 768 * u
      else 16 * u
    s.counter g n i

/-! ### The security alarm (R424, R443) -/

/-- A write of ZEROISE: before the first launch after boot. -/
def State.putZeroise (s : State) (on : Bool) : State :=
  if s.dealer.launched then s else s.modDealer fun d => { d with secalarm := setBits d.secalarm 6 6 (if on then 1 else 0) }
/-- ZEROISE_WRITE. -/
def execZeroiseWrite (on : Bool) (s : State) : Out := .next (s.putZeroise on)
/-- The alarm is raised by cause `b`: every launch is killed, after a reset that runs; tests end, and the keys go when ZEROISE says so. -/
def State.alarm (s : State) (b : Nat) : State :=
  State.alarmKill (s.modDealer fun d =>
    let d := d.clearRails
    let test := fun q : DQueue => q.begun && q.entry.any fun e => decide (bits e.2.toNat 7 0 = 0x8B)
    let d := { d with secalarm := setBits (setBits d.secalarm b b 1) 0 0 1, alarmed := true,
                      queues := d.queues.map fun (q : Nat × DQueue) => if test q.2 then (q.1, { q.2 with failed := true }) else q,
                      lmargin := d.lmargin.map fun (e : Nat × BitVec 128) => if e.2.getLsbD 17 then e else (e.1, setBits e.2 16 16 0) }
    if d.secalarm.getLsbD 6 then { d with secalarm := setBits d.secalarm 5 5 1, bootstate := setBits d.bootstate 10 10 0 } else d)
/-- TAMPER. -/
def execTamper (s : State) : Out := .next (s.alarm 1)
/-- GLITCH. -/
def execGlitch (s : State) : Out := .next (s.alarm 2)
/-- FWSIG. -/
def execFwsig (s : State) : Out := .next (s.alarm 3)
/-- MGMT. -/
def execMgmt (s : State) : Out := .next (s.alarm 4)

/-! ### Other writes (R338, R407, R426, R427) -/

/-- A 64-bit word of a mapped queue's descriptor; HEAD and DONE are the Dealer's, OVERRUN is cleared by a one. -/
def DQueue.setWord (q : DQueue) (k : Nat) (w : Word) : DQueue :=
  let v := w.toNat
  match k with
  | 0 => { q with desc := setBits q.desc 63 0 v }
  | 1 =>
    let d := setBits q.desc 72 64 (bits v 8 0)
    let q : DQueue := { q with desc := if bit v 11 then setBits d 75 75 0 else d }
    q.ring (bits v 63 32)
  | 3 => { q with desc := setBits q.desc 255 192 v }
  | _ => q
/-- A write to the descriptors and fault logs that the window of `f` shows (R426, R427). -/
def State.writeShown (s : State) (f : Option Nat) (off : Nat) (w : Word) : State :=
  if 0x10000 ≤ off ∧ off < 0x11000 then
    let n := (off - 0x10000) / 64
    if (s.queue n).mapped ∧ shown f (s.queue n).desc then s.setQueue n ((s.queue n).setWord (off % 64 / 8) w) else s
  else if 0x5FFF8 ≤ off ∧ off < 0x60038 ∧ f.all (· = (off - 0x5FFF8) / 8) then
    s.modVf ((off - 0x5FFF8) / 8) fun x => { x with logOvf := x.logOvf && !w.getLsbD 0 }
  else s
/-- A write to another item of the management window; a read-only one ignores it. -/
def State.writeItem (s : State) (off : Nat) (w : Word) : State :=
  if off = 0x10 then s.modDealer fun d => { d with aperbase := w &&& ~~~0x3FFFFFFF }
  else if off = 0x40 then s.putZeroise (w.getLsbD 6)
  else if off = 0x100 then s.putDroopcfg w
  else if 0x108 ≤ off ∧ off < 0x128 then s.putGovcfg ((off - 0x108) / 8) w
  else if 0x200 ≤ off ∧ off < 0x240 then s.putVmargin ((off - 0x200) / 8) w
  else if 0x300 ≤ off ∧ off < 0x380 ∧ off % 16 = 0 then s.putLmargin ((off - 0x300) / 16) w
  else if 0x1000000 ≤ off ∧ w = 0 then
    let k := (off - 0x1000000) % 0x100000 / 8
    s.clearCounter ((off - 0x1000000) / 0x100000) (k / 16) (k % 16)
  else s
/-- REGISTER_WRITE: an aligned word, through the physical function's BAR0 or a virtual function's. Once the firmware has failed only SECALARM
takes a write (R435). -/
def execRegisterWrite (off : HostRef) (w : Word) (s : State) : Out :=
  event (decide (off.at' % 8 = 0) && (s.operable || decide (off = ⟨none, 0x40⟩))) s
    (let t := s.writeShown off.via off.at' w
     if off.via = none then t.writeItem off.at' w else t)
/-- HBM_APERTURE_WRITE: bytes from an offset of the 1 GiB aperture. -/
def execHbmApertureWrite (off : Nat) (data : List Byte) (s : State) : Out :=
  let pa := s.dealer.aperbase.toNat + off
  let n := data.length
  event (s.operable && decide (0 < n ∧ off + n ≤ 2 ^ 30 ∧ tierOf pa = 3 ∧ tierOf (pa + n - 1) = 3)) s
    (s.portWrite pa (data.zipIdx.map fun b => (⟨b.2, b.1, 0xFF⟩ : Sys2Proof.Cell)) 0)

end Sys2Proof.Machine
end

