-- ==== Sys2Proof/Machine/Boot.lean ====
section
/-! DEFINITION. Power-on reset and boot (R8, R9, R374, R376, R433-R435), and what the host reads in the management window
(R426, R427, R441). -/

namespace Sys2Proof.Machine

/-! ### The defect map (R9, R374) -/

/-- Dies in a set. -/
def dies (m : Nat) : List Nat := (List.range 9).filter fun i => bit m i
/-- LMAP for a set of failed dies: the layers above the one that failed move up. -/
def lmapOf (failed : Nat) : Nat :=
  match dies failed with
  | [f] => ((List.range 8).map fun i => (if i < f then i else i + 1) * 2 ^ (4 * i)).sum + f * 2 ^ 32
  | _ => 0xF76543210
/-- The map's word of a tower. -/
def defectWord (fuse boot : Nat) (off : Bool) : Nat :=
  let failed := fuse ||| boot
  fuse % 512 + boot % 512 * 2 ^ 9 + (if off then 2 ^ 18 else 0) + bits (lmapOf failed) 35 32 * 2 ^ 19
/-- One step of CRC-32 over a byte, bit-reflected. -/
def crcByte (c b : Nat) : Nat :=
  (List.range 8).foldl (fun x _ => if x % 2 = 1 then (x / 2) ^^^ 0xEDB88320 else x / 2) (c ^^^ b)
/-- CRC-32 of bytes under the IEEE 802.3 conventions. -/
def crc32 (l : List Nat) : Nat := (l.foldl crcByte 0xFFFFFFFF) ^^^ 0xFFFFFFFF
/-- The CRC of the map: words 1-5, word 5 zero. -/
def mapCrc (words : List Nat) : Nat :=
  crc32 ((words ++ [0]).flatMap fun w => (List.range 8).map fun i => bits w (8 * i + 7) (8 * i))
/-- The defect map: VERSION 1, NTOWER 4 and the CRC, the words of the towers, and word 5; zero before boot step 4 (R374, R441). -/
def State.defectMap (s : State) : List Nat :=
  if bits s.dealer.bootstate.toNat 2 0 < 4 then List.replicate 6 0
  else (1 + 4 * 2 ^ 16 + s.dealer.defectCrc * 2 ^ 32) :: ((List.range 4).map fun t => (s.tower t).defect) ++ [0]

/-! ### Boot (R435) -/

/-- What one boot finds: what its self-test fails, whether the firmware's signature fails, which towers fail their bring-up, and
whether the sparse path passes. -/
structure Found where
  boot : List Nat
  fwFail : Bool
  dead : List Nat
  sparse : Bool
/-- What the boot of moment `n` finds. -/
def found (n : Nat) : Found :=
  { boot := (List.range 4).map fun t => Config.number n (200 + t) % 512
    fwFail := Config.choice n 16
    dead := (List.range 4).filter fun t => Config.choice n (17 + t)
    sparse := Config.choice n 21 }
/-- A tower offers its layers: fewer than two of its dies have failed. -/
def towerGood (fuse boot : Nat) : Bool := decide ((dies (fuse ||| boot)).length < 2)
/-- BOOTSTATE. -/
def bootWord (step service up : Nat) (fwFail : Bool) : Word :=
  BitVec.ofNat 64 (step + service * 2 ^ 3 + up * 2 ^ 5 + if fwFail then 2 ^ 9 else 0)
/-- Steps 1 to 5 of a boot with fuses `fuse`, and the towers that step 6 has to bring up: what lies outside the package's own memory
stays. -/
def State.boot (s : State) (fuse : Nat → Nat) (f : Found) : State :=
  let failed := fun t : Nat => f.boot.getD t 0
  let good := fun t : Nat => towerGood (fuse t) (failed t)
  let off := fun t : Nat => !good t || (!f.fwFail && f.dead.contains t)
  let words := (List.range 4).map fun t => defectWord (fuse t) (failed t) (off t)
  let towers : Tbl Tower := (List.range 4).map fun t => (t, { lmap := lmapOf (fuse t ||| failed t), defect := words.getD t 0 })
  let dealer : Dealer :=
    { defectCrc := mapCrc words, bootstate := bootWord (if f.fwFail then 5 else 6) 0 0 f.fwFail,
      bring := if f.fwFail then [] else ((List.range 4).filter good).map fun t => (t, !f.dead.contains t),
      sparse := !f.fwFail && f.sparse, bringDue := 1 + Config.delay s.fresh 22 }
  let away := fun pa : Nat => decide (4 ≤ tierOf pa)
  { mem := s.mem.filter (fun c => away c.1), memBad := s.memBad.filter away, memSoft := s.memSoft.filter away,
    towers := towers, dealer := dealer, agenda := s.agenda, volts := s.volts, fresh := s.fresh, serial := s.serial }
/-- POWER_ON_RESET. -/
def execPowerOnReset (s : State) : Out := .next (s.boot (fun t => (Config.fuseFail t).toNat) (found s.fresh))

/-! ### Step 6 (R434, R435) -/

/-- Queue 63 as the firmware maps it. -/
def bootQueue : DQueue := { desc := setBits (setBits 0 68 64 4) 73 73 1, mapped := true, priv := true }
/-- A tower has been brought up: its TSRAM is zero; with the first, queue 63 is mapped and SERVICE is 1; after the last SERVICE is 2. -/
def State.bringTower (s : State) (t : Nat) (ok : Bool) : State :=
  let up := bits s.dealer.bootstate.toNat 8 5
  let up' := if ok then up ||| 2 ^ t else up
  let s := if ok then s.zero (tsram t 0) 0x8000000 else s
  let s := if ok ∧ up = 0 then s.setQueue 63 bootQueue else s
  s.modDealer fun d =>
    let level := if up' = 0 then 0 else if d.bring.length ≤ 1 then 2 else 1
    { d with bring := d.bring.drop 1, bringDue := s.tick + 1 + Config.delay s.fresh 22,
             bootstate := setBits (setBits d.bootstate 8 5 up') 4 3 (max (bits d.bootstate.toNat 4 3) level) }
/-- The next piece of boot step 6: a tower, in increasing t, and then the sparse-path self-test, which raises SERVICE to 3. -/
def State.bringUp (s : State) : Option State :=
  if s.tick < s.dealer.bringDue then none else
  match s.dealer.bring with
  | (t, ok) :: _ => some (s.bringTower t ok)
  | [] =>
    if s.dealer.sparse ∧ bits s.dealer.bootstate.toNat 8 5 ≠ 0 then
      some (s.modDealer fun d => { d with sparse := false, bootstate := setBits d.bootstate 4 3 3 })
    else none
def execBringUp (s : State) : Out := .next ((s.bringUp).getD s)

/-! ### What the host reads (R427) -/

/-- The 128 bits of an arm register (R379). -/
def Arm.word (a : Arm) : Nat :=
  let flag := fun (b : Bool) (i : Nat) => if b then 2 ^ i else 0
  a.tick + flag a.armed 64 + flag a.elastic 65 + flag a.started 66 + flag a.slipped 67
/-- The 128 bits of an ownership-token entry (R372). -/
def OwnTok.word (t : OwnTok) : Nat := 1 + t.st * 2 + t.vf * 8 + t.holder * 2 ^ 16 + t.region * 2 ^ 64
/-- The 768 bits of a trigger entry (R388). -/
def Trig.word (t : Trig) : Nat :=
  (if t.valid then 1 else 0) + t.vf * 2 + t.caddr * 2 ^ 64 + t.thresh.toNat * 2 ^ 128 + t.packet.toNat * 2 ^ 192
/-- The 256 bits of a byte-counting barrier (R392). -/
def ByteBar.image (b : ByteBar) : Nat := b.word + b.watch * 2 ^ 64 + b.acc * 2 ^ 128 + b.expect * 2 ^ 192
/-- The word at offset `o` of a table of `n`-byte items. -/
def itemWord (o n : Nat) (f : Nat → Nat) : Nat := bits (f (o / n)) (8 * (o % n) + 63) (8 * (o % n))
/-- The word that the host reads at an offset of the management window. -/
def State.windowRead (s : State) (off : Nat) : Word :=
  let d := s.dealer
  let within := fun (a n : Nat) => decide (a ≤ off ∧ off < a + n)
  BitVec.ofNat 64
    (if off = 0 then d.bootstate.toNat
    else if off = 0x10 then d.aperbase.toNat
    else if off = 0x40 then d.secalarm.toNat
    else if off = 0x100 then d.droopcfg.toNat
    else if within 0x108 32 then itemWord (off - 0x108) 8 fun t => (s.tower t).govcfg.toNat
    else if within 0x200 64 then itemWord (off - 0x200) 8 fun r => (tget 0 d.vmargin r).toNat
    else if within 0x300 128 then itemWord (off - 0x300) 16 fun p => (tget 0 d.lmargin p).toNat
    else if within 0x10000 4096 then itemWord (off - 0x10000) 64 fun n => (s.queue n).desc.toNat
    else if within 0x20000 1024 then itemWord (off - 0x20000) 128 fun v => (s.vf v).part.toNat
    else if within 0x30000 48 then itemWord (off - 0x30000) 8 fun k => s.defectMap.getD k 0
    else if within 0x5FFF8 64 then itemWord (off - 0x5FFF8) 8 fun v => if (s.vf v).logOvf then 1 else 0
    else if within 0x40000 0x10000 then itemWord (off - 0x40000) 32 fun k => ((s.vf (k / 256)).log.getD (k % 256) 0).toNat
    else if within 0x800000 (3456 * 16) then itemWord (off - 0x800000) 16 fun u => (s.arm u).word
    else if within 0x900000 0x10000 then itemWord (off - 0x900000) 16 fun k => (s.toks[k]?).elim 0 OwnTok.word
    else if within 0xA00000 64 then itemWord (off - 0xA00000) 8 fun n => (s.bar n).word
    else if within 0xA10000 (4 * 64 * 96) then itemWord (off - 0xA10000) 96 fun k => (tget {} (s.tower (k / 64)).trigs (k % 64)).word
    else if within 0xA80000 (4 * 16 * 32) then itemWord (off - 0xA80000) 32 fun k => (tget {} (s.tower (k / 16)).bcs (k % 16)).image
    else if 0x1000000 ≤ off then
      let k := (off - 0x1000000) % 0x100000 / 8
      s.hostCounter ((off - 0x1000000) / 0x100000) (k / 16) (k % 16)
    else 0)
/-- What a virtual function reads in its BAR0: its own descriptors and fault log (R426). -/
def State.vfRead (s : State) (v off : Nat) : Word :=
  let q := s.queue ((off - 0x10000) / 64)
  let own := decide (0x10000 ≤ off ∧ off < 0x11000) && q.mapped && shown (some v) q.desc
  let log := decide (0x40000 + 0x2000 * v ≤ off ∧ off < 0x42000 + 0x2000 * v ∧ off < 0x5FFF8) || decide (off = 0x5FFF8 + 8 * v)
  if own || log then s.windowRead off else 0

end Sys2Proof.Machine
end

