-- ==== Sys2Proof/Machine/Dispatch.lean ====
section
/-! DEFINITION. One arm per instruction and event: its meaning. -/

namespace Sys2Proof.Machine

def exec (i : Instr) (s : State) : Host.Outcome State Fault Refusal :=
  match i with
  | .nop k => Sys2Proof.Machine.execNop k s
  | .br o => Sys2Proof.Machine.execBr o s
  | .bc o => Sys2Proof.Machine.execBc o s
  | .call o => Sys2Proof.Machine.execCall o s
  | .ret o => Sys2Proof.Machine.execRet o s
  | .loop o => Sys2Proof.Machine.execLoop o s
  | .jt o => Sys2Proof.Machine.execJt o s
  | .bsel o => Sys2Proof.Machine.execBsel o s
  | .halt o => Sys2Proof.Machine.execHalt o s
  | .trap o => Sys2Proof.Machine.execTrap o s
  | .sysc o => Sys2Proof.Machine.execSysc o s
  | .rdcr o => Sys2Proof.Machine.execRdcr o s
  | .wrcr o => Sys2Proof.Machine.execWrcr o s
  | .rdid o => Sys2Proof.Machine.execRdid o s
  | .rdtick o => Sys2Proof.Machine.execRdtick o s
  | .rdgov o => Sys2Proof.Machine.execRdgov o s
  | .rdctr o => Sys2Proof.Machine.execRdctr o s
  | .fence o => Sys2Proof.Machine.execFence o s
  | .mod o => Sys2Proof.Machine.execMod o s
  | .bar o => Sys2Proof.Machine.execBar o s
  | .flagwait o => Sys2Proof.Machine.execFlagwait o s
  | .evwait o => Sys2Proof.Machine.execEvwait o s
  | .bcwait o => Sys2Proof.Machine.execBcwait o s
  | .tkwait o => Sys2Proof.Machine.execTkwait o s
  | .tkset o => Sys2Proof.Machine.execTkset o s
  | .stacq o => Sys2Proof.Machine.execStacq o s
  | .strel o => Sys2Proof.Machine.execStrel o s
  | .clease o => Sys2Proof.Machine.execClease o s
  | .crel o => Sys2Proof.Machine.execCrel o s
  | .evpop o => Sys2Proof.Machine.execEvpop o s
  | .evpeek o => Sys2Proof.Machine.execEvpeek o s
  | .add p o => Sys2Proof.Machine.execAdd p o s
  | .addI p o => Sys2Proof.Machine.execAddI p o s
  | .sub p o => Sys2Proof.Machine.execSub p o s
  | .subI p o => Sys2Proof.Machine.execSubI p o s
  | .and p o => Sys2Proof.Machine.execAnd p o s
  | .andI p o => Sys2Proof.Machine.execAndI p o s
  | .or p o => Sys2Proof.Machine.execOr p o s
  | .orI p o => Sys2Proof.Machine.execOrI p o s
  | .xor p o => Sys2Proof.Machine.execXor p o s
  | .xorI p o => Sys2Proof.Machine.execXorI p o s
  | .andn p o => Sys2Proof.Machine.execAndn p o s
  | .andnI p o => Sys2Proof.Machine.execAndnI p o s
  | .min p o => Sys2Proof.Machine.execMin p o s
  | .minI p o => Sys2Proof.Machine.execMinI p o s
  | .max p o => Sys2Proof.Machine.execMax p o s
  | .maxI p o => Sys2Proof.Machine.execMaxI p o s
  | .minu p o => Sys2Proof.Machine.execMinu p o s
  | .minuI p o => Sys2Proof.Machine.execMinuI p o s
  | .maxu p o => Sys2Proof.Machine.execMaxu p o s
  | .maxuI p o => Sys2Proof.Machine.execMaxuI p o s
  | .shl p o => Sys2Proof.Machine.execShl p o s
  | .shlI p o => Sys2Proof.Machine.execShlI p o s
  | .shr p o => Sys2Proof.Machine.execShr p o s
  | .shrI p o => Sys2Proof.Machine.execShrI p o s
  | .sar p o => Sys2Proof.Machine.execSar p o s
  | .sarI p o => Sys2Proof.Machine.execSarI p o s
  | .rol p o => Sys2Proof.Machine.execRol p o s
  | .rolI p o => Sys2Proof.Machine.execRolI p o s
  | .ror p o => Sys2Proof.Machine.execRor p o s
  | .rorI p o => Sys2Proof.Machine.execRorI p o s
  | .mul p o => Sys2Proof.Machine.execMul p o s
  | .mulI p o => Sys2Proof.Machine.execMulI p o s
  | .mulh p o => Sys2Proof.Machine.execMulh p o s
  | .mulhu p o => Sys2Proof.Machine.execMulhu p o s
  | .div p o => Sys2Proof.Machine.execDiv p o s
  | .divu p o => Sys2Proof.Machine.execDivu p o s
  | .rem p o => Sys2Proof.Machine.execRem p o s
  | .remu p o => Sys2Proof.Machine.execRemu p o s
  | .madd p o => Sys2Proof.Machine.execMadd p o s
  | .maddI p o => Sys2Proof.Machine.execMaddI p o s
  | .clz p o => Sys2Proof.Machine.execClz p o s
  | .ctz p o => Sys2Proof.Machine.execCtz p o s
  | .popc p o => Sys2Proof.Machine.execPopc p o s
  | .bswap p o => Sys2Proof.Machine.execBswap p o s
  | .mov p o => Sys2Proof.Machine.execMov p o s
  | .movx p o => Sys2Proof.Machine.execMovx p o s
  | .ext p o => Sys2Proof.Machine.execExt p o s
  | .ins p o => Sys2Proof.Machine.execIns p o s
  | .cmp p o => Sys2Proof.Machine.execCmp p o s
  | .cmpI p o => Sys2Proof.Machine.execCmpI p o s
  | .sel p o => Sys2Proof.Machine.execSel p o s
  | .li p o => Sys2Proof.Machine.execLi p o s
  | .lih p o => Sys2Proof.Machine.execLih p o s
  | .fadd p o => Sys2Proof.Machine.execFadd p o s
  | .faddI p o => Sys2Proof.Machine.execFaddI p o s
  | .fsub p o => Sys2Proof.Machine.execFsub p o s
  | .fsubI p o => Sys2Proof.Machine.execFsubI p o s
  | .fmul p o => Sys2Proof.Machine.execFmul p o s
  | .fmulI p o => Sys2Proof.Machine.execFmulI p o s
  | .ffma p o => Sys2Proof.Machine.execFfma p o s
  | .fmin p o => Sys2Proof.Machine.execFmin p o s
  | .fminI p o => Sys2Proof.Machine.execFminI p o s
  | .fmax p o => Sys2Proof.Machine.execFmax p o s
  | .fmaxI p o => Sys2Proof.Machine.execFmaxI p o s
  | .fcmp p o => Sys2Proof.Machine.execFcmp p o s
  | .fcmpI p o => Sys2Proof.Machine.execFcmpI p o s
  | .fcvt p o => Sys2Proof.Machine.execFcvt p o s
  | .fabs p o => Sys2Proof.Machine.execFabs p o s
  | .fneg p o => Sys2Proof.Machine.execFneg p o s
  | .vadd p o => Sys2Proof.Machine.execVadd p o s
  | .vaddI p o => Sys2Proof.Machine.execVaddI p o s
  | .vsub p o => Sys2Proof.Machine.execVsub p o s
  | .vsubI p o => Sys2Proof.Machine.execVsubI p o s
  | .vmul p o => Sys2Proof.Machine.execVmul p o s
  | .vmulI p o => Sys2Proof.Machine.execVmulI p o s
  | .vfma p o => Sys2Proof.Machine.execVfma p o s
  | .vmadd p o => Sys2Proof.Machine.execVmadd p o s
  | .vmin p o => Sys2Proof.Machine.execVmin p o s
  | .vminI p o => Sys2Proof.Machine.execVminI p o s
  | .vmax p o => Sys2Proof.Machine.execVmax p o s
  | .vmaxI p o => Sys2Proof.Machine.execVmaxI p o s
  | .vdot4 p o => Sys2Proof.Machine.execVdot4 p o s
  | .vabs p o => Sys2Proof.Machine.execVabs p o s
  | .vneg p o => Sys2Proof.Machine.execVneg p o s
  | .vand p o => Sys2Proof.Machine.execVand p o s
  | .vandI p o => Sys2Proof.Machine.execVandI p o s
  | .vor p o => Sys2Proof.Machine.execVor p o s
  | .vorI p o => Sys2Proof.Machine.execVorI p o s
  | .vxor p o => Sys2Proof.Machine.execVxor p o s
  | .vxorI p o => Sys2Proof.Machine.execVxorI p o s
  | .vnot p o => Sys2Proof.Machine.execVnot p o s
  | .vsel p o => Sys2Proof.Machine.execVsel p o s
  | .vcmp p o => Sys2Proof.Machine.execVcmp p o s
  | .vcmpI p o => Sys2Proof.Machine.execVcmpI p o s
  | .vshl p o => Sys2Proof.Machine.execVshl p o s
  | .vshlI p o => Sys2Proof.Machine.execVshlI p o s
  | .vshr p o => Sys2Proof.Machine.execVshr p o s
  | .vshrI p o => Sys2Proof.Machine.execVshrI p o s
  | .vsar p o => Sys2Proof.Machine.execVsar p o s
  | .vsarI p o => Sys2Proof.Machine.execVsarI p o s
  | .vclmul p o => Sys2Proof.Machine.execVclmul p o s
  | .vpopc p o => Sys2Proof.Machine.execVpopc p o s
  | .vclz p o => Sys2Proof.Machine.execVclz p o s
  | .vcvt p o => Sys2Proof.Machine.execVcvt p o s
  | .vwid p o => Sys2Proof.Machine.execVwid p o s
  | .vnar p o => Sys2Proof.Machine.execVnar p o s
  | .vsat p o => Sys2Proof.Machine.execVsat p o s
  | .vrnd p o => Sys2Proof.Machine.execVrnd p o s
  | .vcbdec p o => Sys2Proof.Machine.execVcbdec p o s
  | .vscale p o => Sys2Proof.Machine.execVscale p o s
  | .vrcp p o => Sys2Proof.Machine.execVrcp p o s
  | .vrsq p o => Sys2Proof.Machine.execVrsq p o s
  | .vsqrt p o => Sys2Proof.Machine.execVsqrt p o s
  | .vexp2 p o => Sys2Proof.Machine.execVexp2 p o s
  | .vlog2 p o => Sys2Proof.Machine.execVlog2 p o s
  | .vtanh p o => Sys2Proof.Machine.execVtanh p o s
  | .vsig p o => Sys2Proof.Machine.execVsig p o s
  | .vredsum p o => Sys2Proof.Machine.execVredsum p o s
  | .vredmax p o => Sys2Proof.Machine.execVredmax p o s
  | .vredmin p o => Sys2Proof.Machine.execVredmin p o s
  | .vperm p o => Sys2Proof.Machine.execVperm p o s
  | .vshuf p o => Sys2Proof.Machine.execVshuf p o s
  | .vbcast p o => Sys2Proof.Machine.execVbcast p o s
  | .vext p o => Sys2Proof.Machine.execVext p o s
  | .vtrn p o => Sys2Proof.Machine.execVtrn p o s
  | .xcp p o => Sys2Proof.Machine.execXcp p o s
  | .vandM p o => Sys2Proof.Machine.execVandM p o s
  | .vorM p o => Sys2Proof.Machine.execVorM p o s
  | .vxorM p o => Sys2Proof.Machine.execVxorM p o s
  | .vnotM p o => Sys2Proof.Machine.execVnotM p o s
  | .ldS o => Sys2Proof.Machine.execLdS o s
  | .ldT o => Sys2Proof.Machine.execLdT o s
  | .stS o => Sys2Proof.Machine.execStS o s
  | .stT o => Sys2Proof.Machine.execStT o s
  | .ldx o => Sys2Proof.Machine.execLdx o s
  | .stx o => Sys2Proof.Machine.execStx o s
  | .stxAdd o => Sys2Proof.Machine.execStxAdd o s
  | .dcopy o => Sys2Proof.Machine.execDcopy o s
  | .dcopyCsum o => Sys2Proof.Machine.execDcopyCsum o s
  | .rst o => Sys2Proof.Machine.execRst o s
  | .rld o => Sys2Proof.Machine.execRld o s
  | .amoAdd o => Sys2Proof.Machine.execAmoAdd o s
  | .amoAnd o => Sys2Proof.Machine.execAmoAnd o s
  | .amoOr o => Sys2Proof.Machine.execAmoOr o s
  | .amoXor o => Sys2Proof.Machine.execAmoXor o s
  | .amoMin o => Sys2Proof.Machine.execAmoMin o s
  | .amoMax o => Sys2Proof.Machine.execAmoMax o s
  | .amoSwap o => Sys2Proof.Machine.execAmoSwap o s
  | .amoCas o => Sys2Proof.Machine.execAmoCas o s
  | .redAdd o => Sys2Proof.Machine.execRedAdd o s
  | .redAnd o => Sys2Proof.Machine.execRedAnd o s
  | .redOr o => Sys2Proof.Machine.execRedOr o s
  | .redXor o => Sys2Proof.Machine.execRedXor o s
  | .redMin o => Sys2Proof.Machine.execRedMin o s
  | .redMax o => Sys2Proof.Machine.execRedMax o s
  | .redFadd o => Sys2Proof.Machine.execRedFadd o s
  | .kalloc o => Sys2Proof.Machine.execKalloc o s
  | .kallocM o => Sys2Proof.Machine.execKallocM o s
  | .kfree o => Sys2Proof.Machine.execKfree o s
  | .kquery o => Sys2Proof.Machine.execKquery o s
  | .tacq o => Sys2Proof.Machine.execTacq o s
  | .trel o => Sys2Proof.Machine.execTrel o s
  | .sbind o => Sys2Proof.Machine.execSbind o s
  | .sunbind o => Sys2Proof.Machine.execSunbind o s
  | .sstat o => Sys2Proof.Machine.execSstat o s
  | .cspush o => Sys2Proof.Machine.execCspush o s
  | .cspop o => Sys2Proof.Machine.execCspop o s
  | .cmm o => Sys2Proof.Machine.execCmm o s
  | .cmmz o => Sys2Proof.Machine.execCmmz o s
  | .cconv o => Sys2Proof.Machine.execCconv o s
  | .cplane o => Sys2Proof.Machine.execCplane o s
  | .csmeta o => Sys2Proof.Machine.execCsmeta o s
  | .cfill o => Sys2Proof.Machine.execCfill o s
  | .cswap o => Sys2Proof.Machine.execCswap o s
  | .crdacc o => Sys2Proof.Machine.execCrdacc o s
  | .cwracc o => Sys2Proof.Machine.execCwracc o s
  | .cdrain o => Sys2Proof.Machine.execCdrain o s
  | .ckat o => Sys2Proof.Machine.execCkat o s
  | .cseq o => Sys2Proof.Machine.execCseq o s
  | .cstat o => Sys2Proof.Machine.execCstat o s
  | .cbist o => Sys2Proof.Machine.execCbist o s
  | .trigArm o => Sys2Proof.Machine.execTrigArm o s
  | .trigCancel o => Sys2Proof.Machine.execTrigCancel o s
  | .bcarm o => Sys2Proof.Machine.execBcarm o s
  | .registerResultLanding g => Sys2Proof.Machine.execRegisterResultLanding g s
  | .codeIndexRefill c window => Sys2Proof.Machine.execCodeIndexRefill c window s
  | .haltComplete g => Sys2Proof.Machine.execHaltComplete g s
  | .copyEngineDispatch q => Sys2Proof.Machine.execCopyEngineDispatch q s
  | .engineTranslationFault u => Sys2Proof.Machine.execEngineTranslationFault u s
  | .copyCommandEnd q => Sys2Proof.Machine.execCopyCommandEnd q s
  | .remoteEngineDispatch c => Sys2Proof.Machine.execRemoteEngineDispatch c s
  | .remoteCommandEnd c n => Sys2Proof.Machine.execRemoteCommandEnd c n s
  | .cspushAccept c => Sys2Proof.Machine.execCspushAccept c s
  | .cspopDelivery q b => Sys2Proof.Machine.execCspopDelivery q b s
  | .streamTileFetch g n => Sys2Proof.Machine.execStreamTileFetch g n s
  | .streamTileLand g n => Sys2Proof.Machine.execStreamTileLand g n s
  | .streamTileTake g n => Sys2Proof.Machine.execStreamTileTake g n s
  | .streamEnd g n => Sys2Proof.Machine.execStreamEnd g n s
  | .writeQueueApply n => Sys2Proof.Machine.execWriteQueueApply n s
  | .cubeCommandDispatch q => Sys2Proof.Machine.execCubeCommandDispatch q s
  | .planeLayerStart q l => Sys2Proof.Machine.execPlaneLayerStart q l s
  | .planeLayerEnd q l => Sys2Proof.Machine.execPlaneLayerEnd q l s
  | .cubeCommandEnd q n => Sys2Proof.Machine.execCubeCommandEnd q n s
  | .cubeCommandStop g => Sys2Proof.Machine.execCubeCommandStop g s
  | .cubeRecovery q l face => Sys2Proof.Machine.execCubeRecovery q l face s
  | .cubeReadEnd q n => Sys2Proof.Machine.execCubeReadEnd q n s
  | .sequencerTransition q l => Sys2Proof.Machine.execSequencerTransition q l s
  | .leaseGrant q => Sys2Proof.Machine.execLeaseGrant q s
  | .leaseRunEnd q => Sys2Proof.Machine.execLeaseRunEnd q s
  | .stacqGrant t n => Sys2Proof.Machine.execStacqGrant t n s
  | .barrierCompletion n => Sys2Proof.Machine.execBarrierCompletion n s
  | .plannedCompletionDeadline n => Sys2Proof.Machine.execPlannedCompletionDeadline n s
  | .commStepEnd l => Sys2Proof.Machine.execCommStepEnd l s
  | .engineArmTick u => Sys2Proof.Machine.execEngineArmTick u s
  | .governorSample q l temps => Sys2Proof.Machine.execGovernorSample q l temps s
  | .governorStepChange q => Sys2Proof.Machine.execGovernorStepChange q s
  | .droopStart => Sys2Proof.Machine.execDroopStart s
  | .droopEnd => Sys2Proof.Machine.execDroopEnd s
  | .scrub u bad => Sys2Proof.Machine.execScrub u bad s
  | .kittySwitchLoss w => Sys2Proof.Machine.execKittySwitchLoss w s
  | .peerTimeout p => Sys2Proof.Machine.execPeerTimeout p s
  | .fwrite m => Sys2Proof.Machine.execFwrite m s
  | .flaginc m => Sys2Proof.Machine.execFlaginc m s
  | .poolreq m => Sys2Proof.Machine.execPoolreq m s
  | .poolrsp m => Sys2Proof.Machine.execPoolrsp m s
  | .tokreq m => Sys2Proof.Machine.execTokreq m s
  | .tokgrant m => Sys2Proof.Machine.execTokgrant m s
  | .tokrecall m => Sys2Proof.Machine.execTokrecall m s
  | .loss m => Sys2Proof.Machine.execLoss m s
  | .trigarr m => Sys2Proof.Machine.execTrigarr m s
  | .lineadd m => Sys2Proof.Machine.execLineadd m s
  | .ualinkRead m => Sys2Proof.Machine.execUalinkRead m s
  | .ualinkWrite m => Sys2Proof.Machine.execUalinkWrite m s
  | .ualinkAtomic m => Sys2Proof.Machine.execUalinkAtomic m s
  | .ualinkResponse m => Sys2Proof.Machine.execUalinkResponse m s
  | .unsupportedVendorMessage port vf => Sys2Proof.Machine.execUnsupportedVendorMessage port vf s
  | .launch c => Sys2Proof.Machine.execLaunch c s
  | .nopCmd c => Sys2Proof.Machine.execNopCmd c s
  | .phaseArm l => Sys2Proof.Machine.execPhaseArm l s
  | .imageLoad c => Sys2Proof.Machine.execImageLoad c s
  | .launchRetire l => Sys2Proof.Machine.execLaunchRetire l s
  | .dealerPoll => Sys2Proof.Machine.execDealerPoll s
  | .syscRequest => Sys2Proof.Machine.execSyscRequest s
  | .faultRecord => Sys2Proof.Machine.execFaultRecord s
  | .preemption g => Sys2Proof.Machine.execPreemption g s
  | .saveFrameWrite g => Sys2Proof.Machine.execSaveFrameWrite g s
  | .contextRestore g g2 => Sys2Proof.Machine.execContextRestore g g2 s
  | .mapq c => Sys2Proof.Machine.execMapq c s
  | .unmapq c => Sys2Proof.Machine.execUnmapq c s
  | .partwrite c => Sys2Proof.Machine.execPartwrite c s
  | .rangeload c => Sys2Proof.Machine.execRangeload c s
  | .walkinv c => Sys2Proof.Machine.execWalkinv c s
  | .preempt c => Sys2Proof.Machine.execPreempt c s
  | .resume c => Sys2Proof.Machine.execResume c s
  | .kill c => Sys2Proof.Machine.execKill c s
  | .reexec c => Sys2Proof.Machine.execReexec c s
  | .flr c => Sys2Proof.Machine.execFlr c s
  | .quota c => Sys2Proof.Machine.execQuota c s
  | .bist c => Sys2Proof.Machine.execBist c s
  | .attest c => Sys2Proof.Machine.execAttest c s
  | .keyprov c => Sys2Proof.Machine.execKeyprov c s
  | .service c => Sys2Proof.Machine.execService c s
  | .checkpoint c => Sys2Proof.Machine.execCheckpoint c s
  | .restore c => Sys2Proof.Machine.execRestore c s
  | .svcreg c => Sys2Proof.Machine.execSvcreg c s
  | .svcreply c => Sys2Proof.Machine.execSvcreply c s
  | .doorbell desc tail => Sys2Proof.Machine.execDoorbell desc tail s
  | .droopcfgWrite w => Sys2Proof.Machine.execDroopcfgWrite w s
  | .govcfgWrite t w => Sys2Proof.Machine.execGovcfgWrite t w s
  | .vmarginWrite r w => Sys2Proof.Machine.execVmarginWrite r w s
  | .lmarginStart p w => Sys2Proof.Machine.execLmarginStart p w s
  | .eyeMeasurementEnd p errors => Sys2Proof.Machine.execEyeMeasurementEnd p errors s
  | .counterClear n u ix => Sys2Proof.Machine.execCounterClear n u ix s
  | .zeroiseWrite on => Sys2Proof.Machine.execZeroiseWrite on s
  | .registerWrite off w => Sys2Proof.Machine.execRegisterWrite off w s
  | .tamper => Sys2Proof.Machine.execTamper s
  | .glitch => Sys2Proof.Machine.execGlitch s
  | .fwsig => Sys2Proof.Machine.execFwsig s
  | .mgmt => Sys2Proof.Machine.execMgmt s
  | .powerOnReset => Sys2Proof.Machine.execPowerOnReset s
  | .leaseChange q => Sys2Proof.Machine.execLeaseChange q s
  | .pcieFailure => Sys2Proof.Machine.execPcieFailure s
  | .hbmApertureWrite off data => Sys2Proof.Machine.execHbmApertureWrite off data s

end Sys2Proof.Machine
end

