-- ==== Sys2Proof/Machine/Issue.lean ====
section
/-! DEFINITION. Issuing and committing a bundle (R34, R35, R104-R112, R143), and the end of a tick (R21-R23). -/

namespace Sys2Proof.Machine

/-! ### The six syllables (R105-R107) -/

/-- Each syllable in slot order, stopping at the first that faults. -/
def issueAll : List Instr → State → Out
  | [], s => .next s
  | i :: rest, s =>
    match exec i s with
    | .next t => if t.issue.fault.isSome then .next t else issueAll rest t
    | o => o

/-! ### Commit -/

/-- A consumed tile leaves its register (R329). -/
def Ctx.consume (c : Ctx) (l : List Nat) : Ctx :=
  l.foldl (fun c n => c.setStream n { c.stream n with rfull := false, passed := (c.stream n).passed + 1 }) c

/-- Corrected halfwords and entries that the bundle at offset `pc` is read from (R112). -/
def Core.softCode (x : Core) (pc : Nat) : Nat :=
  let h := (x.image.map fun i => i.stream.getD pc 0).getD 0
  let words := (List.range (if h = 0xFFFE then 25 else 1)).map (pc + ·)
  (words.filter x.softHalf.contains).length + if x.softEntry.contains h then 1 else 0
/-- Corrected words of the registers and of the code are counted and told to a subscriber (R112, R248, R324). -/
def State.countEcc (s : State) (n : Nat) : State :=
  (List.range n).foldl (fun s _ =>
    let s := s.vfSat s.me.vfid 0x10 0 1
    if bit s.me.evcfg 3 then s.modCtx s.cur fun c => c.post { kind := 6, time := s.tick } else s) s

/-- What an attempt to issue a bundle met in its code and in the registers of `read`, the syllables that read theirs: corrected words are
counted, and the uncorrectable ones of `bad`, whose fault it is (R112, R248, R402). DESIGN CHOICE: a bundle that waits reads its code and its
registers at every attempt, and each of them counts, and tells of, what it meets (log 19). -/
def State.issueMet (s : State) (read bad : List Instr) : State :=
  let soft := (read.flatMap s.sources).eraseDups.filter s.me.soft.contains
  let poison := (bad.flatMap s.sources).eraseDups.filter s.me.poison.contains
  State.countEcc (s.vfSat s.me.vfid 0x11 0 poison.length) (soft.length + (s.core' (coreOf s.cur)).softCode s.me.pc)
/-- A fault of the bundle `b`: what the attempt met is counted, and the walk that failed leaves behind what it read (R354). -/
def State.faultMet (s : State) (b : List Instr) (f : FaultInfo) : State :=
  let s := s.issueMet (b.take (f.slot.num + 1)) (if f.code = 0x05 then b[f.slot.num]?.toList else [])
  if 0x10 ≤ f.code ∧ f.code ≤ 0x15 ∧ f.addr ≠ 0 then s.walked s.me.vfid s.cur f.addr else s
/-- The bundle commits: results fly, tiles are consumed, the program counter moves, a `crel` ends its run (R105), and the counters of R402
count. A loop-back to an invalid offset faults (R111); DESIGN CHOICE: in slot 0, slot C's, and once no syllable faults or blocks (log
70). -/
def State.commit (base s : State) : State :=
  let g := s.cur
  let k := s.issue
  let nx := (s.ctx g).pc + s.bundleSize
  let c := match k.next with | some n => { s.ctx g with pc := n } | none => (s.ctx g).advance nx
  let back := k.next.isNone && (s.ctx g).loopsBack nx
  if back && !((s.image g).map fun i => i.startsAt c.pc).getD false then (base.countEcc (k.ecc.eraseDups.length + (s.core' (coreOf g)).softCode (s.ctx g).pc)).takeFault { slot := .c, code := 0x03 }
  else
    let c := (k.results.foldl Ctx.fly c).consume k.consumed
    let ctr := ctrWrap c.ctr 0x20 0 1
    let ctr := if k.literal then ctrWrap ctr 0x22 0 1 else ctr
    let s := if k.crel then s.modQuad (quadOf g) fun q => { q with lease := { q.lease with ended := true } } else s
    let s := (s.setCtx g { c with state := if c.state = 0 then 0 else 1, wait := 0, ctr := ctr }).countEcc
      (k.ecc.eraseDups.length + (s.core' (coreOf g)).softCode (s.ctx g).pc)
    s.modCore (coreOf g) fun x =>
      { x with k := g % 4, issuedAt := some s.tick, ctr := if x.k = g % 4 ∨ x.issuedAt.isNone then x.ctr else ctrWrap x.ctr 0x25 0 1 }

/-- A SLIP met at issue marks the context's arm register and stops the launch (R20, R31, R379). -/
def State.slipTaken (s : State) (f : FaultInfo) : State :=
  if f.code = 0x0D ∧ s.me.launch.isSome then
    let s := s.setArm s.cur { s.arm s.cur with slipped := true }
    (s.modCtx s.cur fun c => { c with stop := .running }).slipStop s.me.vfid s.me.launch
  else s
/-- The bundle of context `g` issues (R34, R105-R107). -/
def State.issueBundle (s : State) (g : Nat) : Out :=
  let base : State := { s with cur := g, issue := {} }
  match base.fetch g with
  | .error c => .next ((State.issueMet (if c = 0x04 then base.vfSat base.me.vfid 0x11 0 1 else base) [] []).takeFault { slot := .c, code := c })
  | .ok (w, lit) =>
    match decodeBundle w with
    | .error _ => .fault .rejectedBundle
    | .ok b =>
      if bundleReject b ≠ none then .fault .rejectedBundle
      else
        match issueAll b { base with issue := { literal := lit } } with
        | .next t =>
          match t.issue.fault, t.issue.block with
          | some f, _ => .next (((base.faultMet b f).takeFault f).slipTaken f)
          | none, some (w, fx) => .next (((base.issueMet b []).blockOn w fx).blockEffect fx)
          | none, none => .next (base.commit t)
        | o => o

/-! ### One attempt -/

/-- One attempt; a context that blocks leaves its tick to the next in order (R34). DESIGN CHOICE: so does one whose bundle faults, of
which the manual does not say whether it uses up the tick (log 72). -/
def State.attempt (s : State) (g : Nat) : Out := State.issueBundle { s with fresh := s.fresh + 1, tried := g :: s.tried } g

/-! ### The end of a tick -/

/-- Blocked contexts count their ticks (R402). -/
def State.countBlocked (s : State) : State :=
  s.ctxs.foldl (fun s e => if e.2.state = 2 then s.ctxWrap e.1 0x21 e.2.wait 1 else s) s

/-- The tick counter advances (R21). -/
def State.tickOver (s : State) : State :=
  let s := ((s.countBlocked.triggersOver.endUnits).cubesOver).tokensOver.giveUp
  let s := if s.droop then { s with pctr := ctrWrap s.pctr 0x02 0 1 } else s
  { s with tick := s.tick + 1, tried := [], fresh := s.fresh + 1 }

/-! ### Events that are due -/

/-- The first of several. -/
def firstDue (l : List (Unit → Due)) : Due := l.findSome? fun f => f ()
/-- A launch's own work: its phases, images, engines and its end. -/
def State.dueLaunchAt (s : State) (l : Launch) : Due :=
  let cores := ((l.phases.flatMap fun (p : Phase) => p.images.map (·.1)) ++ l.redos.map fun (r : Redo) => r.slot / 4).eraseDups
  let units := ((l.work.filter fun w => w.st = 1).map (·.unit)) ++ l.redos.map (·.slot)
  firstDue
    [fun _ => (l.quads.find? fun q => (s.leaseDue q).isSome).map execLeaseChange,
     fun _ => (s.commDue l.id).map fun _ => execCommStepEnd l.id,
     fun _ => (s.phaseArm l).map fun _ => execPhaseArm l.id,
     fun _ => (cores.find? fun c => (s.imageDue c).isSome).map execImageLoad,
     fun _ => (units.find? fun u => (s.armTick u).isSome).map execEngineArmTick,
     fun _ => if s.retireDue l then some (execLaunchRetire l.id) else none]
/-- A Deck stage to grant. -/
def State.dueStage (s : State) : Due :=
  s.towers.findSome? fun t => t.2.deck.findSome? fun e => (s.stageDue t.1 e.1).map fun _ => execStacqGrant t.1 e.1
/-- What a host command of code `n` does. -/
def hostCommand (n : Nat) (c : QueueCmd) : Due :=
  match n with
  | 0x01 => some (execLaunch c)
  | 0x02 => some (execNopCmd c)
  | 0x80 => some (execMapq c)
  | 0x81 => some (execUnmapq c)
  | 0x82 => some (execPartwrite c)
  | 0x83 => some (execRangeload c)
  | 0x84 => some (execWalkinv c)
  | 0x85 => some (execPreempt c)
  | 0x86 => some (execResume c)
  | 0x87 => some (execKill c)
  | 0x88 => some (execReexec c)
  | 0x89 => some (execFlr c)
  | 0x8A => some (execQuota c)
  | 0x8B => some (execBist c)
  | 0x8C => some (execAttest c)
  | 0x8D => some (execKeyprov c)
  | 0x8E => some (execService c)
  | 0x8F => some (execCheckpoint c)
  | 0x90 => some (execRestore c)
  | 0x91 => some (execSvcreg c)
  | 0x92 => some (execSvcreply c)
  | _ => none
/-- A step that moves the queue's entry on: it begins, or it retires. -/
def State.dueQueueAt (s : State) (n : Nat) (q : DQueue) : Due :=
  match q.entry with
  | none => none
  | some (ix, e) =>
    (hostCommand (bits e.toNat 7 0) (cmdOf n ix e.toNat)).bind fun f =>
      if !q.begun then some f
      else match f s with
        | .next t => if (t.queue n).entry = q.entry then none else some f
        | _ => none
/-- The Dealer's work, and what the timetables ask for. -/
def State.dueDealer (s : State) : Due :=
  firstDue
    [fun _ => s.bringUp.map fun _ => execBringUp,
     fun _ => ((List.range 8).find? s.barDue).map execBarrierCompletion,
     fun _ => (s.ctxs.find? fun e => e.2.halting && (s.unwindDue e.1 || s.haltDone e.1)).map fun e => execHaltComplete e.1,
     fun _ => s.dueStage,
     fun _ => s.dealer.launches.findSome? s.dueLaunchAt,
     fun _ => ((List.range 8).find? fun n => (s.deadline n).isSome && s.tickDone).map execPlannedCompletionDeadline,
     fun _ => s.duePolicy,
     fun _ => s.duePreempt,
     fun _ => s.syscDue.map fun _ => execSyscRequest,
     fun _ => if s.pollReady then some execDealerPoll else none,
     fun _ => s.dealer.queues.findSome? fun q => s.dueQueueAt q.1 q.2]
/-- The internal event that is due now, in a fixed order. -/
def State.dueEvent (s : State) : Due :=
  firstDue
    [fun _ => s.dueLanding, fun _ => s.dueWrite, fun _ => s.dueStream, fun _ => s.dueCopy, fun _ => s.dueFabric, fun _ => s.dueCube,
     fun _ => s.dueDealer]

/-! ### The outside world -/

/-- The function whose memory an arrival from the fabric addresses. -/
def State.arrivalTo (s : State) (i : Instr) : Option Nat :=
  match i with
  | .fwrite m => (match m.dest with | .here v _ => some v | .away _ => none)
  | .lineadd m => (match m.dest with | .here v _ => some v | .away _ => none)
  | .flaginc m | .trigarr m => s.ownerOf m.pa
  | .ualinkRead m | .ualinkWrite m | .ualinkAtomic m => some m.vf
  | _ => none
/-- An arrival of tick `u` waits in its queue: while its function is reset (R423), and behind an answer that came before it (R345). -/
def State.withheldNow (s : State) (u : Nat) (i : Instr) : Bool :=
  (s.arrivalTo i).any s.resetting || (arrivalPort i).any fun p => s.answersWaiting.any fun a => decide (a.1 = p ∧ a.2 < u)
/-- The first event of an agenda whose tick has come and that need not wait, and the rest. What waits keeps back the later arrivals of its
port (R345); `held`: the ports of what waits. -/
def takeDue (t : Nat) (wait : Nat → Instr → Bool) (held : List Nat) : List (Nat × Instr) → Option (Instr × List (Nat × Instr))
  | [] => none
  | (u, i) :: rest =>
    if t < u then none
    else if wait u i || (arrivalPort i).any held.contains then
      (takeDue t wait ((arrivalPort i).toList ++ held) rest).map fun x => (x.1, (u, i) :: x.2)
    else some (i, rest)
/-- The event of the outside world that acts now. -/
def State.agendaHead (s : State) : Option (Instr × State) :=
  (takeDue s.tick s.withheldNow [] s.agenda).map fun x => (x.1, { s with agenda := x.2, fresh := s.fresh + 1 })

/-- A bundle as a literal at offset 0 of core 0's image, context 0 ready to issue it and the only one whose turn is left. -/
def State.placeBundle (s : State) (w : Nat) : State :=
  let stream := 0xFFFE :: (List.range 24).map fun j => bits w (16 * j + 15) (16 * j)
  let image : Image := { (((s.core' 0).image).getD {}) with stream := stream, interior := false :: List.replicate 24 true }
  let core := { s.core' 0 with image := some image, badHalf := [], softHalf := [], issuedAt := none }
  let ctx := { s.ctx 0 with pc := 0, state := 1, wait := 0, stop := .running, halting := false, unwound := false }
  let s := (s.setCore 0 core).setCtx 0 ctx
  { s with agenda := [], tried := (s.ctxs.map (·.1)).filter (· ≠ 0) }

end Sys2Proof.Machine
end

