-- ==== Sys2Proof/Machine/Step.lean ====
section
/-! DEFINITION. One step: the next event of the outside world, else an internal event that is due, else one issue
attempt, else the end of the tick. -/

namespace Sys2Proof.Machine

/-- One step. -/
def step (s : State) : Host.Outcome State Fault Refusal :=
  match s.agendaHead with
  | some (i, s) => if i.row.isSome ∨ !i.eventOk then .fault .noSuchUnit else exec i s
  | none =>
    match s.dueEvent with
    | some f => f { s with fresh := s.fresh + 1 }
    | none =>
      match s.nextIssue with
      | some (_, g) => s.attempt g
      | none => .next s.tickOver

/-- The bundle `w` stands as a literal at offset 0 of core 0's image, and context 0 issues it next. -/
def State.withFetchWord (s : State) (_nbits w : Nat) : State := s.placeBundle w

end Sys2Proof.Machine
end

