-- ==== Sys2Proof/Safety.lean ====
section
/-! DEFINITION. The terms of the claims: a safe step, which neither faults nor is refused by the model (the part's own faults
are next states, R404), and operands that a syllable can read and write at issue. -/

namespace Sys2Proof.Machine

/-- A source at issue: its words are not uncorrectable (R405), and in a stream it holds a tile of an input stream (R329). -/
def State.sourceReady (s : State) (r : RegId) : Bool :=
  !s.me.poison.contains r &&
    match s.me.boundTo r with
    | none => true
    | some n => !(s.me.stream n).out && (s.me.stream n).rfull
/-- A destination at issue: in a stream it is the register of an output stream, free, with no earlier write of it on its way (R330). -/
def State.targetReady (s : State) (r : RegId) : Bool :=
  match s.me.boundTo r with
  | none => true
  | some n => (s.me.stream n).out && !(s.me.stream n).rfull && !s.me.pending r && !s.commands.any fun k => k.g = s.cur && k.dest.contains r
/-- A destination of syllable `i` at issue: one of `cspop` is bound in no stream (R190). -/
def State.targetOpen (s : State) (i : Instr) (r : RegId) : Bool :=
  match i with
  | .cspop _ => (s.me.boundTo r).isNone
  | _ => s.targetReady r
/-- Every register of a syllable can be read or written at issue. -/
def State.operandsReady (s : State) (i : Instr) : Bool := (s.sources i).all s.sourceReady && (s.targets i).all (s.targetOpen i)

/-- The tile of an input stream that a read of `r` takes (R329). -/
def Ctx.taken (c : Ctx) (l : List Nat) (r : RegId) : List Nat :=
  match c.boundTo r with
  | none => l
  | some n => if l.contains n then l else l ++ [n]
/-- What the common checks note in the bundle at issue: the corrected words and the stream tiles that the syllable reads. -/
def State.noted (s : State) (i : Instr) : State :=
  { s with issue := { s.issue with ecc := s.issue.ecc ++ (s.sources i).filter s.me.soft.contains,
                                   consumed := (s.sources i).foldl s.me.taken s.issue.consumed } }

end Sys2Proof.Machine

namespace Sys2Proof

/-- The step answers a next state. -/
def Safe (s : Machine.State) : Prop := ∃ t, Machine.step s = .next t

/-- `n` steps in a row answer next states. -/
def SafeRun : Nat → Machine.State → Prop
  | 0, _ => True
  | n + 1, s => ∃ t, Machine.step s = .next t ∧ SafeRun n t

end Sys2Proof
end

