-- ==== Sys2Proof/Certificates/Slice0/Obligations.lean ====
section
/-! DEFINITION. The statements about the model, and the words they are made of: each is a claim of the manual's rules in terms
of `exec`, `step`, the decoder and the shared operations. -/

namespace Sys2Proof.Claims

open Sys2Proof.Machine

/-! ### Integer values as the rules read them (R78, R93, R129) -/

/-- An integer type of the S class. -/
abbrev scalarInt (t : BitVec 5) : Prop := 2 ≤ t.toNat ∧ t.toNat ≤ 9
/-- The low bits of a register at the width and the signedness of a type. -/
def operand (t : BitVec 5) (x : Word) : Int :=
  if isSignedFmt t then (x.setWidth (fmtWidth t)).toInt else ((x.setWidth (fmtWidth t)).toNat : Int)
/-- A pattern extended to 64 bits by its type. -/
def extend (t : BitVec 5) (b : BitVec (fmtWidth t)) : Word := if isSignedFmt t then b.signExtend 64 else b.setWidth 64
/-- An exact result: clamped to the type's range under `.sat`, else wrapped, then extended. -/
def narrow (t : BitVec 5) (sat : Bool) (v : Int) : Word :=
  let w := fmtWidth t
  let lo : Int := if isSignedFmt t then -(2 ^ (w - 1) : Nat) else 0
  let hi : Int := if isSignedFmt t then (2 ^ (w - 1) : Nat) - 1 else (2 ^ w : Nat) - 1
  extend t (BitVec.ofInt w (if sat then min (max v lo) hi else v))
/-- An immediate extended to 64 bits: with zeros under `.u`, else with its sign. -/
def imm64 (u : Bool) (imm : BitVec 23) : Word := if u then imm.setWidth 64 else imm.signExtend 64

/-- The next state of a syllable that gives one scalar result, within `n` ticks where LAT names no bound. -/
def gives (s : State) (i : Instr) (d : BitVec 7) (lat : BitVec 4) (n : Nat) (v : Word) : Out :=
  .next ((s.noted i).putS (s.spec 64 d) v (bound lat n))

/-- The two-source integer instructions of format FR: latency and function of R131 and R132. -/
def intFR (p : SPos) (o : FR) : List (Instr × Nat × (Int → Int → Int)) :=
  let w := fmtWidth o.ty
  let pat := fun v : Int => BitVec.ofInt w v
  [(.add p o, 1, fun a b => a + b), (.sub p o, 1, fun a b => a - b), (.mul p o, 3, fun a b => a * b),
   (.and p o, 1, fun a b => (pat a &&& pat b).toNat), (.or p o, 1, fun a b => (pat a ||| pat b).toNat),
   (.xor p o, 1, fun a b => (pat a ^^^ pat b).toNat), (.andn p o, 1, fun a b => (pat a &&& ~~~pat b).toNat),
   (.min p o, 1, min), (.minu p o, 1, min), (.max p o, 1, max), (.maxu p o, 1, max),
   (.mulh p o, 4, fun a b => a * b / (2 ^ w : Nat)), (.mulhu p o, 4, fun a b => a * b / (2 ^ w : Nat)),
   (.div p o, 24, fun a b => if b = 0 then -1 else Int.tdiv a b), (.divu p o, 24, fun a b => if b = 0 then -1 else Int.tdiv a b),
   (.rem p o, 24, fun a b => if b = 0 then a else Int.tmod a b), (.remu p o, 24, fun a b => if b = 0 then a else Int.tmod a b)]
/-- Those with an immediate. -/
def intFI (p : SPos) (o : FI) : List (Instr × Nat × (Int → Int → Int)) :=
  let w := fmtWidth o.ty
  let pat := fun v : Int => BitVec.ofInt w v
  [(.addI p o, 1, fun a b => a + b), (.subI p o, 1, fun a b => a - b), (.mulI p o, 3, fun a b => a * b),
   (.andI p o, 1, fun a b => (pat a &&& pat b).toNat), (.orI p o, 1, fun a b => (pat a ||| pat b).toNat),
   (.xorI p o, 1, fun a b => (pat a ^^^ pat b).toNat), (.andnI p o, 1, fun a b => (pat a &&& ~~~pat b).toNat),
   (.minI p o, 1, min), (.minuI p o, 1, min), (.maxI p o, 1, max), (.maxuI p o, 1, max)]
/-- A shift or rotate of a pattern by a count of any size. -/
inductive Turn | left | right | arith | rotl | rotr
def Turn.of {w : Nat} (k : Turn) (x : BitVec w) (c : Nat) : BitVec w :=
  match k with
  | .left => x <<< c
  | .right => x >>> c
  | .arith => x.sshiftRight c
  | .rotl => x.rotateLeft (c % w)
  | .rotr => x.rotateRight (c % w)
def shiftsFR (p : SPos) (o : FR) : List (Instr × Turn) :=
  [(.shl p o, .left), (.shr p o, .right), (.sar p o, .arith), (.rol p o, .rotl), (.ror p o, .rotr)]
def shiftsFI (p : SPos) (o : FI) : List (Instr × Turn) :=
  [(.shlI p o, .left), (.shrI p o, .right), (.sarI p o, .arith), (.rolI p o, .rotl), (.rorI p o, .rotr)]

/-! ### Scalar floating point (R139) -/

/-- The FP32 pattern in the low bits of a register. -/
def single (x : Word) : Nat := (x.setWidth 32).toNat
/-- The two-source forms of FP32: latency and function of the two patterns. -/
def floatFR (p : SPos) (o : FR) : List (Instr × Nat × (Nat → Nat → Nat)) :=
  [(.fadd p o, 4, fadd' 0x10 o.v false), (.fsub p o, 4, fsub' 0x10 o.v false), (.fmul p o, 4, fmul' 0x10 o.v false),
   (.fmin p o, 2, fpick 0x10 true), (.fmax p o, 2, fpick 0x10 false),
   (.fcmp p o, 2, fun a b => if condHolds o.xmod.toNat ((fdecode 0x10 a).cmp (fdecode 0x10 b)) then 1 else 0)]
/-- Those with a BF16 immediate. -/
def floatFI (p : SPos) (o : FI) : List (Instr × Nat × (Nat → Nat → Nat)) :=
  [(.faddI p o, 4, fadd' 0x10 o.v false), (.fsubI p o, 4, fsub' 0x10 o.v false), (.fmulI p o, 4, fmul' 0x10 o.v false),
   (.fminI p o, 2, fpick 0x10 true), (.fmaxI p o, 2, fpick 0x10 false),
   (.fcmpI p o, 2, fun a b => relMask ((fdecode 0x10 a).cmp (fdecode 0x10 b)))]
/-- The exact value of a finite pattern's decoding. -/
def ratio : FVal → ℚ
  | .fin neg m e => (if neg then -1 else 1) * m * (2 : ℚ) ^ e
  | _ => 0

/-! ### Tiles (R52, R156) -/

/-- An active element: its mask bit is 1, and it lies in the valid rows and columns. -/
def active (s : State) (p : Cl) (sh msk : BitVec 3) (k : Nat) : Bool :=
  (s.readM p msk.toNat).getLsbD k && (vshape (s.readSh sh.toNat)).valid k
/-- A tile and its enable bits hold `f k` in the elements `k` of width `w` that `on` selects, and write no other element. -/
def Holds (w : Nat) (val en : Tile) (on : Nat → Bool) (f : Nat → Nat) : Prop :=
  ∀ k < 4096 / w, elem w val k = f k % 2 ^ w ∧ elem w en k = if on k then 2 ^ w - 1 else 0
/-- The shape of a syllable counts a whole tile of elements of width `w`. -/
abbrev shapeFits (s : State) (sh : BitVec 3) (w : Nat) : Prop := (vshape (s.readSh sh.toNat)).ok w = true
/-- An elementwise syllable gives `f k` in the active elements of its destination, and changes nothing else. -/
def givesTile (s : State) (i : Instr) (p : Cl) (sh msk : BitVec 3) (d : BitVec 7) (w lat : Nat) (f : Nat → Nat) : Prop :=
  ∃ val en, Holds w val en (active s p sh msk) f ∧ exec i s = .next ((s.noted i).putV p (s.spec 64 d) val en lat)

/-- Elementwise forms of one source. -/
def tiles1 (p : Cl) (o : FR) : List (Instr × Nat × (Nat → Nat)) :=
  let w := fmtWidth o.ty
  [(.vabs p o, 2, tileAbs o.ty o.sat), (.vneg p o, 2, tileNeg o.ty o.sat), (.vnot p o, 1, fun a => a ^^^ (2 ^ w - 1)),
   (.vpopc p o, 2, popCount w), (.vclz p o, 2, lzCount w), (.vsat p o, 2, satTo o.ty o.ty2),
   (.vrnd p o, 3, toIntegral o.ty o.xmod.toNat), (.vrcp p o, 8, Fn.rcp.result o.ty), (.vrsq p o, 8, Fn.rsq.result o.ty),
   (.vsqrt p o, 8, Fn.sqrt.result o.ty), (.vexp2 p o, 8, Fn.exp2.result o.ty), (.vlog2 p o, 8, Fn.log2.result o.ty),
   (.vtanh p o, 8, Fn.tanh.result o.ty), (.vsig p o, 8, Fn.sig.result o.ty)]
/-- Elementwise forms of two sources. -/
def tiles2 (p : Cl) (o : FR) : List (Instr × Nat × (Nat → Nat → Nat)) :=
  let w := fmtWidth o.ty
  [(.vadd p o, if isFloat o.ty then 4 else 2, tileAdd o.ty o.v o.sat), (.vsub p o, if isFloat o.ty then 4 else 2, tileSub o.ty o.v o.sat),
   (.vmul p o, if isFloat o.ty then 4 else 3, tileMul o.ty o.v o.sat), (.vmin p o, 2, tileMin o.ty), (.vmax p o, 2, tileMax o.ty),
   (.vand p o, 1, (· &&& ·)), (.vor p o, 1, (· ||| ·)), (.vxor p o, 1, (· ^^^ ·)),
   (.vshl p o, 1, shiftOp .shl w), (.vshr p o, 1, shiftOp .shr w), (.vsar p o, 1, shiftOp .sar w)]
/-- Elementwise forms of three sources. -/
def tiles3 (p : Cl) (o : FR) : List (Instr × (Nat → Nat → Nat → Nat)) :=
  [(.vfma p o, ffma' o.ty o.v o.sat),
   (.vmadd p o, fun a b c => intResult o.ty o.sat (intDecode o.ty a * intDecode o.ty b + intDecode o.ty c))]
/-- Elementwise forms with an immediate: of an integer type, a count for a shift, or BF16. -/
def tilesI (p : Cl) (o : FI) : List (Instr × Nat × (Nat → Nat)) :=
  let w := fmtWidth o.ty
  let imm := if isFloat o.ty then bfImm o.ty o.imm.toNat else (imm64 o.v o.imm).toNat % 2 ^ w
  let rz := isFloat o.ty && o.v
  let count := (imm64 o.v o.imm).toNat
  [(.vaddI p o, if isFloat o.ty then 4 else 2, fun a => tileAdd o.ty rz o.sat a imm),
   (.vsubI p o, if isFloat o.ty then 4 else 2, fun a => tileSub o.ty rz o.sat a imm),
   (.vmulI p o, if isFloat o.ty then 4 else 3, fun a => tileMul o.ty rz o.sat a imm),
   (.vminI p o, 2, fun a => tileMin o.ty a imm), (.vmaxI p o, 2, fun a => tileMax o.ty a imm),
   (.vandI p o, 1, (· &&& imm)), (.vorI p o, 1, (· ||| imm)), (.vxorI p o, 1, (· ^^^ imm)),
   (.vshlI p o, 1, fun a => shiftOp .shl w a count), (.vshrI p o, 1, fun a => shiftOp .shr w a count),
   (.vsarI p o, 1, fun a => shiftOp .sar w a count)]

/-- The conversions: what becomes of a pattern of TYPE2. -/
def conversions (p : Cl) (o : FR) : List (Instr × (Nat → Nat)) :=
  [(.vcvt p o, convert o.ty o.ty2 o.v o.sat), (.vwid p o, convert o.ty o.ty2 false false), (.vnar p o, convert o.ty o.ty2 false o.sat)]
/-- The registers of a wide operand of `n` that stand in cluster `p`: number in the operand and offset from the specifier. -/
def wideHere (p : Cl) (pair : Bool) (n : Nat) : List (Nat × Nat) :=
  ((List.range n).filter fun j => (wideReg p pair n j).1 = p).map fun j => (j, (wideReg p pair n j).2)
/-- The cluster whose source, mask and shape the two syllables of a pair share. -/
def shared (p : Cl) (pair : Bool) : Cl := if pair then .a else p

/-- The reductions: identity and function. -/
def reductions (p : Cl) (o : FR) : List (Instr × Nat × (List Nat → Nat)) :=
  [(.vredsum p o, if isFloat o.ty then 2 ^ (fmtWidth o.ty2 - 1) else 0, fun l => quiet o.ty (sumOf o l)),
   (.vredmax p o, extreme o.ty true, fun l => quiet o.ty (treeFold (tileMax o.ty) 11 l)),
   (.vredmin p o, extreme o.ty false, fun l => quiet o.ty (treeFold (tileMin o.ty) 11 l))]

/-- Element `j` of a permute's result in cluster `p` is element `place j` of the operation, which a pair interleaves. -/
def place (p : Cl) (pair : Bool) (j : Nat) : Nat := if pair then 2 * j + (if p = .b then 1 else 0) else j
/-- The permutes: latency, whether the active test is that of the transposed shape, and the source of each element. -/
def permutes (s : State) (p : Cl) (o : FR) : List (Instr × Nat × Bool × (Nat → Nat)) :=
  let w := fmtWidth o.ty
  let h := (vshape (s.readSh o.sh.toNat)).forPair o.pair
  let n := if o.pair then 2 * (4096 / w) else 4096 / w
  let a := s.permSrc p o o.a w
  let b := s.permSrc p o o.b w
  let c := (s.rs o.c).toNat
  [(.vperm p o, 4, false, fun i => let x := b i + if w = 8 then 256 * o.xmod.toNat else 0; if x < n then a x else 0),
   (.vshuf p o, 3, false, shufPick o.xmod.toNat n c h a b),
   (.vbcast p o, 3, false, fun i => match o.xmod.toNat with
     | 0 => a (c % n)
     | 1 => a (c % h.rows * h.cols + i % h.cols)
     | 2 => a (i / h.cols * h.cols + c % h.cols)
     | _ => c % 2 ^ w),
   (.vext p o, 3, false, fun i => if i + c < n then a (i + c) else if i + c < 2 * n then b (i + c - n) else 0),
   (.vtrn p o, 3, true, fun j => a (j % h.rows * h.cols + j / h.rows))]
/-- The mask forms. -/
def maskForms (p : Cl) (o : FR) : List (Instr × (MaskReg → MaskReg → MaskReg)) :=
  [(.vandM p o, (· &&& ·)), (.vorM p o, (· ||| ·)), (.vxorM p o, (· ^^^ ·)), (.vnotM p o, fun a _ => ~~~a)]

/-- The class V forms of format FR that count with their shape register: the element width they count with, and whether the registers of
their wide operand are aligned. -/
def shapedFR (s : State) (p : Cl) (o : FR) : List (Instr × Nat × Bool) :=
  let w := fmtWidth o.ty
  let u := fmtWidth o.ty2
  let d := s.spec 64 o.d
  let wide := w = u || wideAligned o.pair (if u < w then w / u else u / w) (if u < w then d else s.spec 64 o.a)
  let plain : List Instr := (tiles1 p o).map Prod.fst ++ (tiles2 p o).map Prod.fst ++ (tiles3 p o).map Prod.fst ++ (permutes s p o).map Prod.fst ++
    [.vdot4 p o, .vsel p o, .vclmul p o, .vcmp p o]
  (plain.map fun i => (i, w, true)) ++
  ((conversions p o).map fun e => (e.1, Nat.min w u, wide)) ++ ((reductions p o).map fun e => (e.1, u, true)) ++
  [(Instr.vcbdec p o, 4, decide (d % 4 = 0)), (Instr.vscale p o, 16, if o.ty = 0x10 then d % 2 = 0 else true)]

/-! ### Control transfers (R111, R142) -/

/-- A bundle of the resident image starts at offset `t`. -/
abbrev isTarget (s : State) (t : Int) : Prop := ((s.image s.cur).any fun i => decide (0 ≤ t) && i.startsAt t.toNat) = true
/-- The next state of a transfer to `t`: the bundle's successor is noted, and nothing else changes. -/
def jumped (s : State) (i : Instr) (t : Int) : State :=
  { s.noted i with issue := { (s.noted i).issue with next := some t.toNat } }
/-- PC + OFF. -/
def relative (s : State) (off : BitVec 23) : Int := (s.me.pc : Int) + off.toInt
/-- The control registers and what each reads as (R60, R63-R69, R151). -/
def controlRegisters (s : State) : List (Nat × Word) :=
  let c := s.me
  let v := s.vf c.vfid
  [(0, c.memdef), (1, c.faultpt), (2, BitVec.ofNat 64 c.faultpc),
   (3, BitVec.ofNat 64 (1 + (if c.resumed then 64 else 0) + c.stage % 16 * 256)), (4, BitVec.ofNat 64 (c.vfid % 8)),
   (5, BitVec.ofNat 64 (c.evcfg % 16 + c.evq.length * 256 + if c.ovf then 2 ^ 15 else 0)),
   (6, BitVec.ofNat 64 (s.tower (towerOf s.cur)).lmap), (7, govWord (s.quad (quadOf s.cur))),
   (8, BitVec.ofNat 64 (bits v.part.toNat 63 32 + v.used % 2 ^ 32 * 2 ^ 32)), (9, c.lp0), (10, c.lp1), (11, c.largs)]

/-! ### Words that are not uncorrectable, and commands at issue (R58, R101, R405) -/

/-- No source register is uncorrectable. -/
abbrev sourcesSound (s : State) (i : Instr) : Prop := (s.sources i).any s.me.poison.contains = false
/-- The corrected words that a syllable reads are noted. -/
def eccNoted (s : State) (i : Instr) : State :=
  { s with issue := { s.issue with ecc := s.issue.ecc ++ (s.sources i).filter s.me.soft.contains } }
/-- The token that a command produces stands for no other command. -/
abbrev tokenFree (s : State) (o : FE) : Prop := (s.me.token o.tko.toNat).st ≠ .pending
/-- A command at the end of the queue of the quad's copy engine, its token PENDING. -/
def toCopyQueue (t : State) (k : Cmd) : Out := .next ((t.issued k).modQuad (quadOf t.cur) fun q => { q with copyq := q.copyq ++ [k] })
/-- At the end of the queue of the core's remote engine. -/
def toRemoteQueue (t : State) (k : Cmd) : Out := .next ((t.issued k).modCore (coreOf t.cur) fun c => { c with remq := c.remq ++ [k] })
/-- At the end of the cube's command queue. -/
def toCubeQueue (t : State) (k : Cmd) : Out := .next ((t.issued k).modQuad (quadOf t.cur) fun q => { q with cmdq := q.cmdq ++ [k] })
/-- Among the reads of the cube, which wait in no queue. -/
def toCubeReads (t : State) (k : Cmd) : Out := .next ((t.issued k).modQuad (quadOf t.cur) fun q => { q with reads := q.reads ++ [k] })
/-- In the trigger unit of tower `w`. -/
def toTriggerUnit (t : State) (w : Nat) (k : Cmd) : Out :=
  .next ((t.issued k).modTower w fun x => { x with trigCmds := x.trigCmds ++ [k] })
abbrev copyRoom (s : State) : Prop := (s.quad (quadOf s.cur)).copyq.length < 16
abbrev remoteRoom (s : State) : Prop := (s.core' (coreOf s.cur)).remq.length < 16
abbrev cubeRoom (s : State) : Prop := (s.quad (quadOf s.cur)).cmdq.length < 8
/-- The issuing context holds its cube's lease, and the run has room for one more command (R30-R32). -/
abbrev underLease (s : State) : Prop := s.holds s.cur = true ∧ (s.quad (quadOf s.cur)).lease.room s.tick = true
/-- The run counts the command. -/
def counted (s : State) (i : Instr) : State :=
  (s.noted i).modQuad (quadOf s.cur) fun x => { x with lease := { x.lease with count := x.lease.count + 1 } }
/-- No bit of a word outside `m`. -/
abbrev within (w : Word) (m : Nat) : Prop := w &&& ~~~(BitVec.ofNat 64 m) = 0
/-- The atomics (R287). -/
def atomics (o : FE) : List Instr :=
  [.amoAdd o, .amoAnd o, .amoOr o, .amoXor o, .amoMin o, .amoMax o, .amoSwap o, .amoCas o]
/-- The reductions (R288). -/
def reductionsE (o : FE) : List Instr := [.redAdd o, .redAnd o, .redOr o, .redXor o, .redMin o, .redMax o, .redFadd o]

end Sys2Proof.Claims

open Sys2Proof Sys2Proof.Machine Sys2Proof.Claims

/-! ### Class S: scalar integers (chapter 05) -/

/-- R93, R129, R131, R132: the integer instructions of two and three sources give their function of the operands, narrowed to TYPE and
extended, and change nothing else of the state at issue. An immediate is extended from bit 22 (or with zeros under `.u`) and
truncated to the width of TYPE; the immediate multiply-add adds s[D] as read at issue. -/
def Obligations.ScalarIntegerForms : Prop :=
  (∀ (s : State) (p : SPos) (o : FR), scalarInt o.ty → ∀ e ∈ intFR p o, s.operandsReady e.1 →
    exec e.1 s = gives s e.1 o.d o.lat e.2.1 (narrow o.ty o.sat (e.2.2 (operand o.ty (s.rs o.a)) (operand o.ty (s.rs o.b))))) ∧
  (∀ (s : State) (p : SPos) (o : FI), scalarInt o.ty → ∀ e ∈ intFI p o, s.operandsReady e.1 →
    exec e.1 s =
      gives s e.1 o.d o.lat e.2.1 (narrow o.ty o.sat (e.2.2 (operand o.ty (s.rs o.a)) (operand o.ty (imm64 o.v o.imm))))) ∧
  (∀ (s : State) (p : SPos),
    (∀ o : FR, scalarInt o.ty → s.operandsReady (.madd p o) →
      exec (.madd p o) s = gives s (.madd p o) o.d o.lat 3
        (narrow o.ty o.sat (operand o.ty (s.rs o.a) * operand o.ty (s.rs o.b) + operand o.ty (s.rs o.c)))) ∧
    (∀ o : FI, scalarInt o.ty → s.operandsReady (.maddI p o) →
      exec (.maddI p o) s = gives s (.maddI p o) o.d o.lat 3
        (narrow o.ty o.sat (operand o.ty (s.rs o.a) * operand o.ty (imm64 o.v o.imm) + operand o.ty (s.rs o.d)))))

/-- R133, R134: shifts and rotates of the low bits by an unsigned count of 64 bits, which the immediate form extends from bit 22
without truncating it to the width; the bit counts, of the low bits of s[A] at the width of TYPE; and the byte swap. -/
def Obligations.ShiftsAndBitCounts : Prop :=
  (∀ (s : State) (p : SPos),
    (∀ o : FR, scalarInt o.ty → ∀ e ∈ shiftsFR p o, s.operandsReady e.1 →
      exec e.1 s = gives s e.1 o.d o.lat 1 (extend o.ty (e.2.of ((s.rs o.a).setWidth _) (s.rs o.b).toNat))) ∧
    (∀ o : FI, scalarInt o.ty → ∀ e ∈ shiftsFI p o, s.operandsReady e.1 →
      exec e.1 s = gives s e.1 o.d o.lat 1 (extend o.ty (e.2.of ((s.rs o.a).setWidth _) (imm64 o.v o.imm).toNat)))) ∧
  (∀ (s : State) (p : SPos) (o : FR), scalarInt o.ty →
    let w := fmtWidth o.ty
    let x := (s.rs o.a).setWidth w
    (s.operandsReady (.clz p o) → ∃ n, exec (.clz p o) s = gives s (.clz p o) o.d o.lat 1 (BitVec.ofNat 64 n) ∧
      n ≤ w ∧ x.toNat < 2 ^ (w - n) ∧ (n < w → 2 ^ (w - n - 1) ≤ x.toNat)) ∧
    (s.operandsReady (.ctz p o) → ∃ n, exec (.ctz p o) s = gives s (.ctz p o) o.d o.lat 1 (BitVec.ofNat 64 n) ∧
      n ≤ w ∧ (∀ j < n, x.getLsbD j = false) ∧ (n < w → x.getLsbD n = true)) ∧
    (s.operandsReady (.popc p o) → exec (.popc p o) s = gives s (.popc p o) o.d o.lat 1
      (BitVec.ofNat 64 ((List.range w).filter fun j => x.getLsbD j).length)) ∧
    (s.operandsReady (.bswap p o) → ∃ y : BitVec w, exec (.bswap p o) s = gives s (.bswap p o) o.d o.lat 1 (extend o.ty y) ∧
      ∀ j < w / 8, y.extractLsb' (8 * j) 8 = x.extractLsb' (w - 8 - 8 * j) 8))

/-- R135-R138: moves between scalar and index registers, the select and the immediates; `ext` takes a field of s[A], and `ins` and
`lih` replace a field of a register and keep its other bits. -/
def Obligations.ScalarMovesAndFields : Prop :=
  (∀ (s : State) (p : SPos),
    (∀ o : FR, s.operandsReady (.mov p o) → exec (.mov p o) s = gives s (.mov p o) o.d o.lat 1 (s.rs o.a)) ∧
    (∀ o : FR, o.v → s.operandsReady (.movx p o) →
      exec (.movx p o) s = gives s (.movx p o) o.d o.lat 1 ((s.readX (s.spec 8 o.a)).setWidth 64)) ∧
    (∀ o : FR, !o.v → s.operandsReady (.movx p o) →
      exec (.movx p o) s = .next ((s.noted (.movx p o)).put ⟨.x, s.spec 8 o.d⟩ (((s.rs o.a).setWidth 16).setWidth 4096)
        (allBits 16) (bound o.lat 1))) ∧
    (∀ o : FR, s.operandsReady (.sel p o) →
      exec (.sel p o) s = gives s (.sel p o) o.d o.lat 1 (if s.rs o.c = 0 then s.rs o.b else s.rs o.a)) ∧
    (∀ o : FI, s.operandsReady (.li p o) → exec (.li p o) s = gives s (.li p o) o.d o.lat 1 (imm64 o.v o.imm))) ∧
  (∀ (s : State) (p : SPos) (o : FI),
    let pos := bits o.imm.toNat 5 0
    let len := bits o.imm.toNat 11 6 + 1
    let at' := 22 + 21 * bits o.imm.toNat 22 21
    (pos + len ≤ 64 → s.operandsReady (.ext p o) →
      exec (.ext p o) s = gives s (.ext p o) o.d o.lat 1
        (let f := (s.rs o.a).extractLsb' pos len; if o.ty = 8 then f.signExtend 64 else f.setWidth 64)) ∧
    (pos + len ≤ 64 → s.operandsReady (.ins p o) → ∃ v, exec (.ins p o) s = gives s (.ins p o) o.d o.lat 1 v ∧
      ∀ k < 64, v.getLsbD k = if pos ≤ k ∧ k < pos + len then (s.rs o.a).getLsbD (k - pos) else (s.rs o.d).getLsbD k) ∧
    (bits o.imm.toNat 22 21 < 2 → s.operandsReady (.lih p o) → ∃ v, exec (.lih p o) s = gives s (.lih p o) o.d o.lat 1 v ∧
      ∀ k < 64, v.getLsbD k = if at' ≤ k ∧ k < at' + 21 then o.imm.getLsbD (k - at') else (s.rs o.a).getLsbD k))

/-- R100, R137: `cmp` writes 1 when its condition holds, and the immediate form the relation mask. -/
def Obligations.ScalarCompares : Prop :=
  ∀ (s : State) (p : SPos),
    (∀ o : FR, scalarInt o.ty → s.operandsReady (.cmp p o) →
      let a := operand o.ty (s.rs o.a)
      let b := operand o.ty (s.rs o.b)
      let is := fun h : Prop => ∀ [Decidable h], exec (.cmp p o) s = gives s (.cmp p o) o.d o.lat 1 (if h then 1 else 0)
      (o.xmod = 0 → is (a = b)) ∧ (o.xmod = 1 → is (a ≠ b)) ∧ (o.xmod = 2 → is (a < b)) ∧ (o.xmod = 3 → is (a ≤ b)) ∧
        (o.xmod = 4 → is (b < a)) ∧ (o.xmod = 5 → is (b ≤ a))) ∧
    (∀ o : FI, scalarInt o.ty → s.operandsReady (.cmpI p o) →
      let a := operand o.ty (s.rs o.a)
      let b := operand o.ty (imm64 o.v o.imm)
      exec (.cmpI p o) s = gives s (.cmpI p o) o.d o.lat 1 (if a = b then 1 else if a < b then 2 else 4))

/-- R85, R92, R94, R139-R141: the scalar floating-point forms of two sources, the second a register or a BF16 immediate; the fused
multiply-add, the conversion, and the two that act on the sign bit alone. Sums and products of finite values are exact before the
one rounding. -/
def Obligations.ScalarFloatingPoint : Prop :=
  ((∀ (s : State) (p : SPos),
    (∀ o : FR, ∀ e ∈ floatFR p o, s.operandsReady e.1 →
      exec e.1 s = gives s e.1 o.d o.lat e.2.1 (BitVec.ofNat 64 (e.2.2 (single (s.rs o.a)) (single (s.rs o.b))))) ∧
    (∀ o : FI, ∀ e ∈ floatFI p o, s.operandsReady e.1 →
      exec e.1 s = gives s e.1 o.d o.lat e.2.1 (BitVec.ofNat 64 (e.2.2 (single (s.rs o.a)) (bfImm 0x10 o.imm.toNat))))) ∧
  (∀ (s : State) (p : SPos) (o : FR),
    (s.operandsReady (.ffma p o) → exec (.ffma p o) s = gives s (.ffma p o) o.d o.lat 4
      (BitVec.ofNat 64 (fround 0x10 o.v false
        (((fdecode 0x10 (single (s.rs o.a))).mul (fdecode 0x10 (single (s.rs o.b)))).add (fdecode 0x10 (single (s.rs o.c))))))) ∧
    (s.operandsReady (.fcvt p o) → exec (.fcvt p o) s = gives s (.fcvt p o) o.d o.lat 3
      (let x := convert o.ty o.ty2 o.v o.sat ((s.rs o.a).toNat % 2 ^ fmtWidth o.ty2)
       if isFloat o.ty then BitVec.ofNat 64 x else widen o.ty x)) ∧
    (s.operandsReady (.fabs p o) → exec (.fabs p o) s = gives s (.fabs p o) o.d o.lat 1
      (((s.rs o.a).setWidth 32 &&& 0x7FFFFFFF).setWidth 64)) ∧
    (s.operandsReady (.fneg p o) → exec (.fneg p o) s = gives s (.fneg p o) o.d o.lat 1
      (((s.rs o.a).setWidth 32 ^^^ 0x80000000).setWidth 64)))) ∧
  (∀ (s t : Bool) (m n : Nat) (e f : Int),
    ratio ((FVal.fin s m e).add (.fin t n f)) = ratio (.fin s m e) + ratio (.fin t n f) ∧
    ratio ((FVal.fin s m e).mul (.fin t n f)) = ratio (.fin s m e) * ratio (.fin t n f))

/-! ### Class V: tiles (chapter 06) -/

/-- R93, R94, R156, R160-R163, R166, R168, R170, R173, R174, R177: the elementwise forms of one, two and three sources, and those with an
immediate. The model's choices: the FP32 patterns of the special functions are free inside the bound of R177 (log entry 10), those of FP16
and BF16 are computed to 256 fraction bits (log entry 11), and so are `vsat.f16.bf16` of an infinity (free, log entry 33) and the 65,536 of
`vsat.bf16.f16` (log entry 71). -/
def Obligations.ElementwiseTiles : Prop :=
  (∀ (s : State) (p : Cl) (o : FR),
    let w := fmtWidth o.ty
    let a := fun k => elem w (s.rv p o.a) k
    let b := fun k => elem w (s.rv p o.b) k
    let c := fun k => elem w (s.rv p o.c) k
    shapeFits s o.sh w →
    (∀ e ∈ tiles1 p o, s.operandsReady e.1 → givesTile s e.1 p o.sh o.msk o.d w (bound o.lat e.2.1) fun k => e.2.2 (a k)) ∧
    (∀ e ∈ tiles2 p o, s.operandsReady e.1 → givesTile s e.1 p o.sh o.msk o.d w (bound o.lat e.2.1) fun k => e.2.2 (a k) (b k)) ∧
    (∀ e ∈ tiles3 p o, s.operandsReady e.1 → givesTile s e.1 p o.sh o.msk o.d w (bound o.lat 4) fun k => e.2 (a k) (b k) (c k))) ∧
  (∀ (s : State) (p : Cl) (o : FI), shapeFits s o.sh (fmtWidth o.ty) → ∀ e ∈ tilesI p o, s.operandsReady e.1 →
    givesTile s e.1 p o.sh o.msk o.d (fmtWidth o.ty) (bound o.lat e.2.1) fun k => e.2.2 (elem (fmtWidth o.ty) (s.rv p o.a) k))

/-- R163, R165, R169: dot products of four, the select, and the carry-less product, whose halves a pair divides. -/
def Obligations.DotSelectAndClmul : Prop :=
  ∀ (s : State) (p : Cl) (o : FR),
    let w := fmtWidth o.ty
    shapeFits s o.sh w →
    (s.operandsReady (.vdot4 p o) → givesTile s (.vdot4 p o) p o.sh o.msk o.d w (bound o.lat 4) fun k =>
      let u := fmtWidth o.ty2
      let term := fun j => intDecode o.ty2 (elem u (s.rv p o.a) (4 * k + j)) * intDecode o.ty2 (elem u (s.rv p o.b) (4 * k + j))
      intResult o.ty o.sat (intDecode o.ty (elem w (s.rv p o.c) k) + (term 0 + term 1 + term 2 + term 3))) ∧
    (s.operandsReady (.vsel p o) → givesTile s (.vsel p o) p o.sh o.msk o.d w (bound o.lat 1) fun k =>
      elem w (if (s.readM p (bits o.xmod.toNat 2 0)).getLsbD k then s.rv p o.a else s.rv p o.b) k) ∧
    (s.operandsReady (.vclmul p o) → ∃ val en,
      Holds w val en (active s (shared p o.pair) o.sh o.msk) (fun k =>
        let x := clmul w (elem w (s.rv (shared p o.pair) o.a) k) (elem w (s.rv (shared p o.pair) o.b) k)
        if (if o.pair then p = .b else o.xmod = 1) then x >>> w else x) ∧
      exec (.vclmul p o) s = .next ((s.noted (.vclmul p o)).putV p (s.spec 64 o.d) val en (bound o.lat 4)))

/-- R164: a tile compare writes all 1,024 bits of its mask, with zeros where an element is not active or does not exist. -/
def Obligations.TileCompares : Prop :=
  ∀ (s : State) (p : Cl),
    (∀ o : FR, shapeFits s o.sh (fmtWidth o.ty) → fmtWidth o.ty ≠ 0 → s.operandsReady (.vcmp p o) → ∃ m : MaskReg,
      exec (.vcmp p o) s = .next ((s.noted (.vcmp p o)).putM p (s.spec 8 o.d) m (BitVec.allOnes 1024) (bound o.lat 2)) ∧
      ∀ k < 1024, m.getLsbD k = (decide (k < 4096 / fmtWidth o.ty) && active s p o.sh o.msk k &&
        condHolds o.xmod.toNat (cmpIn o.ty (elem (fmtWidth o.ty) (s.rv p o.a) k) (elem (fmtWidth o.ty) (s.rv p o.b) k)))) ∧
    (∀ o : FI, shapeFits s o.sh (fmtWidth o.ty) → fmtWidth o.ty ≠ 0 → s.operandsReady (.vcmpI p o) → ∃ m : MaskReg,
      exec (.vcmpI p o) s = .next ((s.noted (.vcmpI p o)).putM p (bits o.d.toNat 2 0) m (BitVec.allOnes 1024) (bound o.lat 2)) ∧
      ∀ k < 1024, m.getLsbD k = (decide (k < 4096 / fmtWidth o.ty) && active s p o.sh o.msk k &&
        condHolds (bits o.d.toNat 6 4) (cmpIn o.ty (elem (fmtWidth o.ty) (s.rv p o.a) k) (tileImm o))))

/-- R54, R171, R172, R187: conversions. A wider result goes to the registers of a wide operand, element `k * i + j` of the
source to element `i` of register `j`; a narrower one gathers them; a pair shares its narrow operand. -/
def Obligations.Conversions : Prop :=
  ∀ (s : State) (p : Cl) (o : FR), ∀ e ∈ conversions p o,
    let wt := fmtWidth o.ty
    let wu := fmtWidth o.ty2
    let c := shared p o.pair
    let d := s.spec 64 o.d
    let a := s.spec 64 o.a
    let lat := bound o.lat 3
    s.operandsReady e.1 →
    (wt = wu → shapeFits s o.sh wt → givesTile s e.1 p o.sh o.msk o.d wt lat fun k => e.2 (elem wu (s.readV p a) k)) ∧
    (0 < wu → wu < wt → shapeFits s o.sh wu → wideAligned o.pair (wt / wu) d → ∃ val en : Nat → Tile,
      (∀ j < wt / wu, Holds wt (val j) (en j) (fun i => active s c o.sh o.msk (wt / wu * i + j))
        fun i => e.2 (elem wu (s.readV c a) (wt / wu * i + j))) ∧
      exec e.1 s = .next ((wideHere p o.pair (wt / wu)).foldl (fun t r => t.putV p (d + r.2) (val r.1) (en r.1) lat) (s.noted e.1))) ∧
    (0 < wt → wt < wu → shapeFits s o.sh wt → wideAligned o.pair (wu / wt) a → p = c → ∃ val en,
      Holds wt val en (active s p o.sh o.msk)
        (fun i => let r := wideReg p o.pair (wu / wt) (i % (wu / wt)); e.2 (elem wu (s.readV r.1 (a + r.2)) (i / (wu / wt)))) ∧
      exec e.1 s = .next ((s.noted e.1).putV p d val en lat)) ∧
    (wt < wu → shapeFits s o.sh wt → wideAligned o.pair (wu / wt) a → p ≠ c → exec e.1 s = .next (s.noted e.1))

/-- R175, R176: codebook decoding into four registers of BF16, and block scaling into one register, or two of FP32. -/
def Obligations.DecodeAndScale : Prop :=
  ∀ (s : State) (p : Cl) (o : FR),
    let d := s.spec 64 o.d
    (shapeFits s o.sh 4 → d % 4 = 0 → s.operandsReady (.vcbdec p o) → ∃ val en : Nat → Tile,
      (∀ j < 4, Holds 16 (val j) (en j) (fun i => active s p o.sh o.msk (4 * i + j)) fun i =>
        decodeBf16 (bookEntry (bookAt (s.quad (quadOf s.cur)) o.xmod.toNat)) 0x0B (elem 4 (s.rv p o.a) (4 * i + j))) ∧
      exec (.vcbdec p o) s = .next ([0, 1, 2, 3].foldl (fun t j => t.putV p (d + j) (val j) (en j) (bound o.lat 3)) (s.noted (.vcbdec p o)))) ∧
    (shapeFits s o.sh 16 → s.operandsReady (.vscale p o) →
      let blk := if o.xmod.getLsbD 0 then 32 else 8
      let val := fun i => fround o.ty o.v o.sat
        ((fdecode 0x0F (elem 16 (s.rv p o.a) i)).mul (scaleVal (o.xmod.getLsbD 1) (elem 8 (s.rv p o.b) (i / blk))))
      (o.ty = 0x0F → givesTile s (.vscale p o) p o.sh o.msk o.d 16 (bound o.lat 4) val) ∧
      (o.ty = 0x10 → d % 2 = 0 → ∃ v0 e0 v1 e1,
        Holds 32 v0 e0 (fun i => active s p o.sh o.msk (2 * i)) (fun i => val (2 * i)) ∧
        Holds 32 v1 e1 (fun i => active s p o.sh o.msk (2 * i + 1)) (fun i => val (2 * i + 1)) ∧
        exec (.vscale p o) s = .next (((s.noted (.vscale p o)).putV p d v0 e0 (bound o.lat 4)).putV p (d + 1) v1 e1 (bound o.lat 4))))

/-- R178, R179: a reduction gives one result for each row, each column or the whole tile, from the active elements and the
identity for the others, and writes those results alone. -/
def Obligations.Reductions : Prop :=
  ∀ (s : State) (p : Cl) (o : FR), ∀ e ∈ reductions p o,
    let wt := fmtWidth o.ty
    let wu := fmtWidth o.ty2
    let groups := (vshape (s.readSh o.sh.toNat)).groups o.xmod.toNat
    let result := fun l : List Nat =>
      e.2.2 (l.map fun k => if active s p o.sh o.msk k then elem wu (s.rv p o.a) k else e.2.1)
    0 < wt → shapeFits s o.sh wu → groups.length ≤ 4096 / wt → s.operandsReady e.1 → ∃ val en,
      exec e.1 s = .next ((s.noted e.1).putV p (s.spec 64 o.d) val en (bound o.lat 6)) ∧
      (∀ k, (h : k < groups.length) → elem wt val k = result groups[k] % 2 ^ wt) ∧
      (∀ k < 4096 / wt, elem wt en k = if k < groups.length then 2 ^ wt - 1 else 0)

/-- R180-R185: permutes, with each element's source, and the two halves of a pair. -/
def Obligations.Permutes : Prop :=
  ∀ (s : State) (p : Cl) (o : FR), ∀ e ∈ permutes s p o,
    let w := fmtWidth o.ty
    let h := (vshape (s.readSh o.sh.toNat)).forPair o.pair
    let g : VShape := if e.2.2.1 then { rows := h.cols, cols := h.rows, vrows := h.vcols, vcols := h.vrows } else h
    shapeFits s o.sh w → s.operandsReady e.1 → ∃ val en,
      Holds w val en (fun j => (s.readM p o.msk.toNat).getLsbD j && g.valid (place p o.pair j)) (fun j => e.2.2.2 (place p o.pair j)) ∧
      exec e.1 s = .next ((s.noted e.1).putV p (s.spec 64 o.d) val en (bound o.lat e.2.1))

/-- R167, R186: copies between the clusters, and the mask forms, which write every bit. -/
def Obligations.ClusterCopiesAndMaskForms : Prop :=
  ∀ (s : State) (p : Cl) (o : FR),
    (s.operandsReady (.xcp p o) → exec (.xcp p o) s =
      .next ((s.noted (.xcp p o)).putV p (s.spec 64 o.d) (s.rv (if p = .a then .b else .a) o.a) (allBits 4096) (bound o.lat 1))) ∧
    (∀ e ∈ maskForms p o, s.operandsReady e.1 → exec e.1 s =
      .next ((s.noted e.1).putM p (s.spec 8 o.d) (e.2 (s.readM p (s.spec 8 o.a)) (s.readM p (s.spec 8 o.b)))
        (BitVec.allOnes 1024) (bound o.lat 1)))

/-- R54, R56, R156, R175, R176, R178, R271, R274, R276-R279: a shape that does not count a whole tile faults SHAPE. That holds of every class
V form that counts with its shape register, register or immediate, at the element width it counts with (the narrower one of a conversion,
TYPE2 of a reduction), where the registers of a wide operand are aligned; where they are not, it faults BAD_OPERAND. It holds of a tile load
and store whose shape implies no element width, or another than that of the part, and of a gather or scatter, which counts words. -/
def Obligations.WrongShapeFaults : Prop :=
  (∀ (s : State) (p : Cl) (o : FR), ∀ e ∈ shapedFR s p o, s.operandsReady e.1 →
    (e.2.2 = true → ¬ shapeFits s o.sh e.2.1 → exec e.1 s = .next (s.takeFault { slot := p.slot, code := 0x09 })) ∧
    (e.2.2 = false → exec e.1 s = .next (s.takeFault { slot := p.slot, code := 0x08 }))) ∧
  (∀ (s : State) (p : Cl) (o : FI), ¬ shapeFits s o.sh (fmtWidth o.ty) → ∀ i ∈ .vcmpI p o :: (tilesI p o).map (·.1), s.operandsReady i →
    exec i s = .next (s.takeFault { slot := p.slot, code := 0x09 })) ∧
  (∀ (s : State) (o : FM), let m := s.eff
    let ea := s.rs o.a + s.rs o.b + BitVec.ofInt 64 (o.disp.toInt * (64 : Nat))
    m.space ≤ 2 → ea.toNat % 64 = 0 →
    (∀ i ∈ [Instr.ldT o, .stT o], (if i = .ldT o then m.ord < 2 else m.ord = 0 ∨ m.ord = 2) → sourcesSound s i →
      (∀ w ∈ [4, 8, 16, 32], ¬ shapeFits s o.sh w) → exec i s = .next (s.takeFault { slot := .e, code := 0x09 })) ∧
    (∀ parts wm dec, m.ord < 2 → sourcesSound s (.ldT o) → s.tileParts o m ea true (bound o.lat 16) = .ok parts →
      (∀ l ∈ parts.lines, partWidth o l.2.2 = (wm, dec)) → parts.lines ≠ [] → (if dec then o.ty = 0x0F else fmtWidth o.ty = wm) →
      s.spec 64 o.d % (if dec then 16 / wm else 1) = 0 → ¬ shapeFits s o.sh wm →
      exec (.ldT o) s = .next (s.takeFault { slot := .e, code := 0x09 })) ∧
    (∀ parts, m.ord = 0 ∨ m.ord = 2 → sourcesSound s (.stT o) → s.tileParts o m ea false 0 = .ok parts → parts.lines ≠ [] →
      (∀ l ∈ parts.lines, ∀ f, l.2.2.fmt = some f → fmtWidth (fmtOf f) = fmtWidth o.ty) → ¬ shapeFits s o.sh (fmtWidth o.ty) →
      exec (.stT o) s = .next (s.takeFault { slot := .e, code := 0x09 }))) ∧
  (∀ (s : State) (o : FE), s.eff.space = 0 → s.eff.ord = 0 → ¬ shapeFits s o.sh 32 → ∀ i ∈ [Instr.ldx o, .stx o, .stxAdd o],
    s.operandsReady i → exec i s = .next (s.takeFault { slot := .e, code := 0x09 }))

/-! ### Class C: transfers, halt and system calls (chapter 05) -/

/-- R111, R116, R142: `nop` changes nothing. `br`, `bc`, `call` and `ret` go to their target when it starts a bundle of the image, `bc`
only when s[A], as a signed value, meets COND; `call` gives the next sequential offset; and a transfer to an offset that starts no
bundle faults BAD_TARGET, that of a `bc` only when it is taken. -/
def Obligations.Transfers : Prop :=
  (∀ (s : State),
    (∀ k, exec (.nop k) s = .next s) ∧
    (∀ o : FB, isTarget s (relative s o.off) → s.operandsReady (.br o) → exec (.br o) s = .next (jumped s (.br o) (relative s o.off))) ∧
    (∀ o : FB, isTarget s (relative s o.off) → s.operandsReady (.bc o) →
      let v := (s.rs o.a).toInt
      let is := fun h : Prop => ∀ [Decidable h],
        exec (.bc o) s = .next (if h then jumped s (.bc o) (relative s o.off) else s.noted (.bc o))
      (o.cond = 0 → is (v = 0)) ∧ (o.cond = 1 → is (v ≠ 0)) ∧ (o.cond = 2 → is (v < 0)) ∧ (o.cond = 3 → is (0 ≤ v)) ∧
        (o.cond = 4 → is (0 < v)) ∧ (o.cond = 5 → is (v ≤ 0))) ∧
    (∀ o : FB, isTarget s (relative s o.off) → s.operandsReady (.call o) → exec (.call o) s =
      .next ((jumped s (.call o) (relative s o.off)).putS (s.spec 64 o.d)
        (BitVec.ofNat 64 (s.me.pc + if s.issue.literal then 25 else 1)) 1)) ∧
    (∀ o : FB, isTarget s (s.rs o.a).toNat → s.operandsReady (.ret o) →
      exec (.ret o) s = .next (jumped s (.ret o) (s.rs o.a).toNat))) ∧
  (∀ (s : State) (o : FB),
    (¬ isTarget s (relative s o.off) → ∀ i ∈ [Instr.br o, .call o], s.operandsReady i →
      exec i s = .next (s.takeFault { slot := .c, code := 0x03 })) ∧
    (¬ isTarget s (s.rs o.a).toNat → s.operandsReady (.ret o) → exec (.ret o) s = .next (s.takeFault { slot := .c, code := 0x03 })) ∧
    (¬ isTarget s (relative s o.off) → s.operandsReady (.bc o) →
      let v := (s.rs o.a).toInt
      let is := fun h : Prop => ∀ [Decidable h],
        exec (.bc o) s = .next (if h then s.takeFault { slot := .c, code := 0x03 } else s.noted (.bc o))
      (o.cond = 0 → is (v = 0)) ∧ (o.cond = 1 → is (v ≠ 0)) ∧ (o.cond = 2 → is (v < 0)) ∧ (o.cond = 3 → is (0 ≤ v)) ∧
        (o.cond = 4 → is (0 < v)) ∧ (o.cond = 5 → is (v ≤ 0))))

/-- R69, R111, R143-R145: `loop` keeps COUNT, START and END in its loop register, and skips the body when the count is 0; `jt` takes the
entry that s[A] names, or the default; `bsel` takes the smallest bucket that holds s[A] and writes the shape's bound and value. A count of
2^24 or more, and a value that no bucket holds, fault BAD_OPERAND; a target at which no bundle starts faults BAD_TARGET. -/
def Obligations.LoopsAndTables : Prop :=
  (∀ (s : State) (o : FB),
    (s.operandsReady (.loop o) →
      let n := (s.rs o.a).toNat
      let start : Nat := s.me.pc + if s.issue.literal then 25 else 1
      (2 ^ 24 ≤ n → exec (.loop o) s = .next (s.takeFault { slot := .c, code := 0x08 })) ∧
      (n < 2 ^ 24 → ¬ isTarget s (if n = 0 then relative s o.off else start) →
        exec (.loop o) s = .next (s.takeFault { slot := .c, code := 0x03 }))) ∧
    (s.operandsReady (.jt o) →
      let i := (s.rs o.a).toNat
      ¬ isTarget s (if i ≤ o.cond.toNat then (s.me.pc : Int) + ((s.readS (o.d.toNat + i)).setWidth 32).toInt else relative s o.off) →
      exec (.jt o) s = .next (s.takeFault { slot := .c, code := 0x03 })) ∧
    (∀ i, s.image s.cur = some i → s.operandsReady (.bsel o) →
      (((i.buckets.getD o.off.toNat []).all fun e => e.1 < (s.rs o.a).toNat) = true →
        exec (.bsel o) s = .next (s.takeFault { slot := .c, code := 0x08 })) ∧
      (∀ b, ((i.buckets.getD o.off.toNat []).find? fun e => (s.rs o.a).toNat ≤ e.1) = some b → ¬ isTarget s b.2 →
        exec (.bsel o) s = .next (s.takeFault { slot := .c, code := 0x03 })))) ∧
  ∀ (s : State) (o : FB),
    (let n := (s.rs o.a).toNat
     let start : Nat := s.me.pc + if s.issue.literal then 25 else 1
     let stop := relative s o.off
     n < 2 ^ 24 → o.d.toNat < 2 → isTarget s (if n = 0 then stop else start) → s.operandsReady (.loop o) →
      exec (.loop o) s = .next ((jumped s (.loop o) (if n = 0 then stop else start)).putCr (9 + o.d.toNat) (lpWord n start stop.toNat))) ∧
    (let i := (s.rs o.a).toNat
     let t := if i ≤ o.cond.toNat then (s.me.pc : Int) + ((s.readS (o.d.toNat + i)).setWidth 32).toInt else relative s o.off
     isTarget s t → s.operandsReady (.jt o) → exec (.jt o) s = .next (jumped s (.jt o) t)) ∧
    (∀ i b, s.image s.cur = some i → ((i.buckets.getD o.off.toNat []).find? fun e => (s.rs o.a).toNat ≤ e.1) = some b →
      isTarget s b.2 → s.operandsReady (.bsel o) → exec (.bsel o) s =
        .next ((jumped s (.bsel o) b.2).putSh (s.spec 8 o.d)
          (let v := (s.rs o.a).toNat
           match o.cond.toNat with
           | 0 => BitVec.ofNat 128 (b.1 % 2 ^ 7 * 2 ^ 64 + v % 2 ^ 7 * 2 ^ 78)
           | 1 => BitVec.ofNat 128 (b.1 % 2 ^ 7 * 2 ^ 71 + v % 2 ^ 7 * 2 ^ 85)
           | _ => BitVec.ofNat 128 (b.1 % 2 ^ 18 * 2 ^ 92 + v % 2 ^ 18 * 2 ^ 110))
          (match o.cond.toNat with
           | 0 => BitVec.ofNat 128 (127 * 2 ^ 64 + 127 * 2 ^ 78)
           | 1 => BitVec.ofNat 128 (127 * 2 ^ 71 + 127 * 2 ^ 85)
           | _ => BitVec.ofNat 128 (262143 * 2 ^ 92 + 262143 * 2 ^ 110)) 1))

/-- R147, R336: `halt` with no token to wait for ends the kernel: the context is halting, and its registers stay; a token that it waits for
blocks it. Once its results have landed, its event queue is emptied, its bound streams unbind, and its Deck stages are released with FULL
kept; its registers and memory stay. -/
def Obligations.HaltEndsTheKernel : Prop :=
  (∀ (s : State) (o : FX), s.operandsReady (.halt o) →
    (s.me.haltWaits = true → exec (.halt o) s = .next (s.blockOn 2 .none)) ∧
    (s.me.haltWaits = false → ∃ t, exec (.halt o) s = .next t ∧ (t.ctx s.cur).halting = true ∧ (t.ctx s.cur).evq = s.me.evq ∧
      (t.ctx s.cur).st = s.me.st ∧ (t.ctx s.cur).sreg = s.me.sreg ∧ (t.ctx s.cur).xreg = s.me.xreg ∧ (t.ctx s.cur).va = s.me.va ∧
      (t.ctx s.cur).vb = s.me.vb ∧ (t.ctx s.cur).ma = s.me.ma ∧ (t.ctx s.cur).mb = s.me.mb ∧ (t.ctx s.cur).sh = s.me.sh ∧
      (t.ctx s.cur).memdef = s.me.memdef ∧ (t.ctx s.cur).lp0 = s.me.lp0 ∧ (t.ctx s.cur).lp1 = s.me.lp1 ∧
      (t.ctx s.cur).faultpt = s.me.faultpt ∧ (t.ctx s.cur).faultpc = s.me.faultpc ∧ t.mem = s.mem)) ∧
  (∀ (s : State) (g : Nat), (s.ctx g).halting = true → (s.ctx g).unwound = false → (s.ctx g).inflight = [] →
    ∃ t, exec (.haltComplete g) s = .next t ∧ (t.ctx g).halting = true ∧ (t.ctx g).unwound = true ∧ (t.ctx g).evq = [] ∧
      (t.ctx g).sreg = (s.ctx g).sreg ∧ (t.ctx g).xreg = (s.ctx g).xreg ∧ (t.ctx g).va = (s.ctx g).va ∧
      (t.ctx g).vb = (s.ctx g).vb ∧ (t.ctx g).ma = (s.ctx g).ma ∧ (t.ctx g).mb = (s.ctx g).mb ∧ (t.ctx g).sh = (s.ctx g).sh ∧
      (t.ctx g).memdef = (s.ctx g).memdef ∧ (t.ctx g).lp0 = (s.ctx g).lp0 ∧ (t.ctx g).lp1 = (s.ctx g).lp1 ∧
      (t.ctx g).faultpt = (s.ctx g).faultpt ∧ (t.ctx g).faultpc = (s.ctx g).faultpc ∧ t.mem = s.mem ∧
      (∀ n < 8, ((s.ctx g).stream n).bound → ((t.ctx g).stream n).unbinding = 1) ∧
      (∀ w < 4, ∀ n < 16, let old := tget {} (s.tower w).deck n
        let new := tget {} (t.tower w).deck n
        old.buflen ≠ 0 → new.full = old.full ∧ new.buflen = old.buflen ∧ (old.owned ∧ old.owner = g → new.owned = false)))

/-- R62, R148, R407: `trap` takes the fault TRAP with its code as POINT: FAULTPT and FAULTPC are written, the context stops, and
the Dealer receives the record. -/
def Obligations.TrapTakesItsFault : Prop :=
  ∀ (s : State) (o : FX), s.operandsReady (.trap o) →
    ∃ t, exec (.trap o) s = .next t ∧
      (t.ctx s.cur).faultpt = BitVec.ofNat 64 (o.imm.toNat % 2 ^ 16 + 0x0C * 2 ^ 32 + 2 ^ 44) ∧ (t.ctx s.cur).faultpc = s.me.pc ∧
      (t.ctx s.cur).state = 3 ∧ (t.ctx s.cur).stop = .faulted ∧ (t.ctx s.cur).sreg = s.me.sreg ∧ t.mem = s.mem ∧
      ∃ n, t.dealer.notes = s.dealer.notes ++ [n] ∧ n.code = 0x0C ∧ n.g = s.cur ∧ n.pc = s.me.pc

/-- R149: `sysc` gives its sequence number and posts a request with the service and the two arguments, unless four wait. -/
def Obligations.SystemCallsPostRequests : Prop :=
  ∀ (s : State) (o : FX), s.operandsReady (.sysc o) →
    (s.me.sysc.length < 4 → exec (.sysc o) s =
      .next (((s.noted (.sysc o)).modCtx s.cur fun c =>
        { c with sysc := c.sysc ++ [{ seq := c.seq, service := o.imm.toNat % 2 ^ 16, arg0 := s.rs o.a, arg1 := s.rs o.b }],
                 seq := (c.seq + 1) % 2 ^ 16 }).putS (s.spec 64 o.d) (BitVec.ofNat 64 s.me.seq) 1)) ∧
    (4 ≤ s.me.sysc.length → exec (.sysc o) s = .next (s.blockOn 1 .none))

/-- R60, R151: `rdcr` gives each control register as it stands, the halves of the shapes among them, and 0 for an unassigned
number. -/
def Obligations.ControlRegisterReads : Prop :=
  ∀ (s : State) (o : FR), s.operandsReady (.rdcr o) →
    (∀ e ∈ controlRegisters s, o.b.toNat = e.1 → exec (.rdcr o) s = gives s (.rdcr o) o.d o.lat 2 e.2) ∧
    (∀ h < 8, o.b.toNat = 0x10 + 2 * h → exec (.rdcr o) s = gives s (.rdcr o) o.d o.lat 2 ((s.readSh h).extractLsb' 0 64)) ∧
    (∀ h < 8, o.b.toNat = 0x11 + 2 * h → exec (.rdcr o) s = gives s (.rdcr o) o.d o.lat 2 ((s.readSh h).extractLsb' 64 64)) ∧
    (12 ≤ o.b.toNat ∧ o.b.toNat < 16 ∨ 32 ≤ o.b.toNat → exec (.rdcr o) s = gives s (.rdcr o) o.d o.lat 2 0)

/-- R55, R57, R60, R61, R152: `wrcr` writes MEMDEF, EVQCFG, the loop registers and the halves of the shapes from the next bundle on, ignores
CTXCTL, and faults BAD_CR for every register that is read-only or unassigned. A reserved SCOPE or SPACE for MEMDEF faults BAD_OPERAND, and
a shape half out of range SHAPE. -/
def Obligations.ControlRegisterWrites : Prop :=
  ∀ (s : State) (o : FR), s.operandsReady (.wrcr o) →
    let v := s.rs o.a
    let n := o.b.toNat
    let whole := BitVec.ofNat 128 (2 ^ 64 - 1)
    (n = 0 → bits v.toNat 6 4 < 6 → bits v.toNat 9 7 < 6 → exec (.wrcr o) s = .next ((s.noted (.wrcr o)).putCr 0 v)) ∧
    (n = 3 → exec (.wrcr o) s = .next (s.noted (.wrcr o))) ∧
    (n = 5 ∨ n = 9 ∨ n = 10 → exec (.wrcr o) s = .next ((s.noted (.wrcr o)).putCr n v)) ∧
    (∀ h < 8, n = 0x10 + 2 * h → vecHalfOk v.toNat → exec (.wrcr o) s =
      .next ((s.noted (.wrcr o)).putSh h (v.setWidth 128 &&& BitVec.ofNat 128 (2 ^ 44 - 1)) whole 1)) ∧
    (∀ h < 8, n = 0x11 + 2 * h → cubeHalfOk v.toNat → exec (.wrcr o) s =
      .next ((s.noted (.wrcr o)).putSh h (v.setWidth 128 <<< 64) (whole <<< 64) 1)) ∧
    (n = 0 → 6 ≤ bits v.toNat 6 4 ∨ 6 ≤ bits v.toNat 9 7 → exec (.wrcr o) s = .next (s.takeFault { slot := .c, code := 0x08 })) ∧
    (∀ h < 8, (n = 0x10 + 2 * h ∧ vecHalfOk v.toNat = false) ∨ (n = 0x11 + 2 * h ∧ cubeHalfOk v.toNat = false) →
      exec (.wrcr o) s = .next (s.takeFault { slot := .c, code := 0x09 })) ∧
    (n ∈ [1, 2, 4, 6, 7, 8, 11, 12, 13, 14, 15] ∨ 32 ≤ n → exec (.wrcr o) s = .next (s.takeFault { slot := .c, code := 0x0A }))

/-- R13, R14, R153, R154, R400-R402: the identity, the tick counter as it stands at issue, the governor's steps with the bits for a RIGID
phase and a droop, and a counter of the package, the quad, the function or the context by NUMBER and INDEX: 0 for a number that does
not exist, and BAD_OPERAND for a selector above 16 bits. -/
def Obligations.IdentityTickAndCounters : Prop :=
  (∀ (s : State) (o : FR),
    (s.cur < 3072 → s.operandsReady (.rdid o) → ∃ v, exec (.rdid o) s = gives s (.rdid o) o.d o.lat 1 v ∧
      bits v.toNat 1 0 = s.cur % 4 ∧ bits v.toNat 3 2 = s.cur / 4 % 4 ∧ bits v.toNat 9 4 = s.cur / 16 % 48 ∧
      bits v.toNat 11 10 = s.cur / 768 ∧ bits v.toNat 15 12 = s.me.stage % 16 ∧ bits v.toNat 63 16 = s.cur / 4) ∧
    (s.operandsReady (.rdtick o) → exec (.rdtick o) s = gives s (.rdtick o) o.d o.lat 1 (BitVec.ofNat 64 s.tick)) ∧
    (s.operandsReady (.rdgov o) → exec (.rdgov o) s = gives s (.rdgov o) o.d o.lat 2
      (BitVec.ofNat 64 ((govWord (s.quad (quadOf s.cur))).toNat + s.stretchStep % 8 * 2 ^ 27 +
        (if s.towerRigid (towerOf s.cur) then 2 ^ 30 else 0) + if s.droop then 2 ^ 31 else 0)))) ∧
  (∀ (s : State) (o : FR), s.operandsReady (.rdctr o) →
    let sel := (s.rs o.a).toNat
    (sel < 65536 → exec (.rdctr o) s = gives s (.rdctr o) o.d o.lat 4 (BitVec.ofNat 64 (s.counter s.cur (sel % 256) (sel / 256)))) ∧
    (sel = 0 → exec (.rdctr o) s = gives s (.rdctr o) o.d o.lat 4 (BitVec.ofNat 64 s.tick)) ∧
    (sel = 0x20 → exec (.rdctr o) s = gives s (.rdctr o) o.d o.lat 4 (BitVec.ofNat 64 (tget 0 s.me.ctr (16 * 0x20)))) ∧
    (sel < 65536 → 0x26 ≤ sel % 256 → exec (.rdctr o) s = gives s (.rdctr o) o.d o.lat 4 0) ∧
    (65536 ≤ sel → exec (.rdctr o) s = .next (s.takeFault { slot := .c, code := 0x08 })))

/-! ### Class C: order and waiting -/

/-- R115, R305-R307, R318: `mod` notes the modifiers of the bundle's access; `fence` completes once its tokens are complete and the
accesses of its classes have been performed (the reads alone for an acquire), and blocks until then. Loads of those classes that are
on their way take their values; a release at POD scope writes the dirty lines back, and one that names no class and no token does
nothing. The model's choices: when a load on its way takes its value (log entry 8), and which accesses count as earlier and unperformed (log
entry 35). -/
def Obligations.FencesAndModifiers : Prop :=
  ∀ (s : State) (o : FX),
    let v := o.imm.toNat
    let toks := [o.d, o.a, o.b].take (bits v 22 21)
    let t := (s.noted (.fence o)).takeClasses (bits v 15 0)
    (s.operandsReady (.mod o) → exec (.mod o) s =
      .next { s.noted (.mod o) with issue := { (s.noted (.mod o)).issue with mod := some o.imm } }) ∧
    (s.operandsReady (.fence o) →
      (s.tokensPending toks = true → exec (.fence o) s = .next (s.blockOn 2 (.await (s.pendingOf toks)))) ∧
      (s.tokensPending toks = false → bits v 20 19 = 1 → s.readsPending s.cur (bits v 15 0) = false → exec (.fence o) s = .next t) ∧
      (s.tokensPending toks = false → bits v 20 19 = 1 → s.readsPending s.cur (bits v 15 0) = true →
        exec (.fence o) s = .next (s.blockOn 2 .none)) ∧
      (bits v 20 19 ≠ 1 → bits v 15 0 = 0 → bits v 22 21 = 0 → exec (.fence o) s = .next (s.noted (.fence o))) ∧
      (s.tokensPending toks = false → bits v 20 19 ≠ 1 → ¬ (bits v 15 0 = 0 ∧ bits v 22 21 = 0) →
        s.accessPending s.cur (bits v 15 0) = false → bits v 18 16 ≠ 5 → exec (.fence o) s = .next t) ∧
      (s.tokensPending toks = false → bits v 20 19 ≠ 1 → ¬ (bits v 15 0 = 0 ∧ bits v 22 21 = 0) →
        s.accessPending s.cur (bits v 15 0) = false → bits v 18 16 = 5 → exec (.fence o) s = .next (t.cleanLines fun _ => true)) ∧
      (s.tokensPending toks = false → bits v 20 19 ≠ 1 → ¬ (bits v 15 0 = 0 ∧ bits v 22 21 = 0) → s.accessPending s.cur (bits v 15 0) = true →
        exec (.fence o) s = .next (s.blockOn 2 (.flush (bits v 15 0)))))

/-- R317, R384: `bar` completes once GEN of its tag has moved since the context's arrival, and clears the arrival. Until then it blocks.
A context of the launch that owns the tag arrives at a blocked issue, once its accesses have been performed: ARRIVED counts one more, and
the generation it saw is recorded; while they have not been performed it blocks without arriving. A tag that is not owned, or that
another launch owns, faults PROTECT. -/
def Obligations.BarrierArrivals : Prop :=
  (∀ (s : State) (o : FX), s.operandsReady (.bar o) →
    let n := bits o.imm.toNat 2 0
    (∀ g, tget none s.me.arrivals n = some g → (s.bar n).gen ≠ g → exec (.bar o) s =
      .next (((s.noted (.bar o)).takeClasses 0xFFFF).modCtx s.cur fun c => { c with arrivals := tset none c.arrivals n none })) ∧
    (∀ g, tget none s.me.arrivals n = some g → (s.bar n).gen = g → exec (.bar o) s = .next (s.blockOn 4 .none)) ∧
    (tget none s.me.arrivals n = none → (s.bar n).owned = true → some (s.bar n).launch = s.me.launch →
      (s.accessPending s.cur 0xFFFF = false → exec (.bar o) s = .next (s.blockOn 4 (.arrive n))) ∧
      (s.accessPending s.cur 0xFFFF = true → exec (.bar o) s = .next (s.blockOn 4 (.flush 0xFFFF)))) ∧
    (tget none s.me.arrivals n = none → (s.bar n).owned = false ∨ some (s.bar n).launch ≠ s.me.launch →
      exec (.bar o) s = .next (s.takeFault { slot := .c, code := 0x11 }))) ∧
  (∀ (s : State) (n : Nat), let t := s.blockEffect (.arrive n)
    (t.bar n).arrived = (s.bar n).arrived + 1 ∧ (t.bar n).gen = (s.bar n).gen ∧
      tget none (t.ctx s.cur).arrivals n = some (s.bar n).gen ∧ t.mem = s.mem)

/-- R327, R387, R395-R397: the waits on event records, byte-counting barriers, tokens and a flag word, each of which blocks until what it
waits for, and `tkset`. A sound flag word that the context may read gives its value once it has reached s[B], modulo 2^64; on a page whose
token is not held it faults TOKEN. -/
def Obligations.Waits : Prop :=
  (∀ (s : State) (o : FX),
    (s.operandsReady (.evwait o) →
      (bits o.imm.toNat 6 0 ≤ s.me.evq.length → exec (.evwait o) s = .next (s.noted (.evwait o))) ∧
      (s.me.evq.length < bits o.imm.toNat 6 0 → exec (.evwait o) s = .next (s.blockOn 6 .none))) ∧
    (s.operandsReady (.bcwait o) →
      let b := tget {} (s.tower (towerOf s.cur)).bcs (bits o.imm.toNat 3 0)
      (b.vf ≠ s.me.vfid → exec (.bcwait o) s = .next (s.takeFault { slot := .c, code := 0x11 })) ∧
      (b.vf = s.me.vfid → b.posted = true → exec (.bcwait o) s = .next (s.blockOn 7 .none)) ∧
      (b.vf = s.me.vfid → b.posted = false → s.readsPending s.cur 0xFFFF = false →
        let t := (s.noted (.bcwait o)).takeClasses 0xFFFF
        exec (.bcwait o) s = .next (t.putS (t.spec 64 o.d) (BitVec.ofNat 64 b.word) 2))) ∧
    (s.operandsReady (.tkwait o) →
      let toks := [o.a, o.b, BitVec.ofNat 7 (bits o.imm.toNat 22 16)].take (bits o.imm.toNat 1 0)
      (s.tokensPending toks = true → exec (.tkwait o) s = .next (s.blockOn 10 (.await (s.pendingOf toks)))) ∧
      (s.tokensPending toks = false → ∃ v, exec (.tkwait o) s = .next ((s.noted (.tkwait o)).putS (s.spec 64 o.d) v 1) ∧
        ∀ k < 64, v.getLsbD k = match toks[k]? with | some x => decide ((s.me.token (s.spec 32 x)).st = .doneErr) | none => false)) ∧
    (s.operandsReady (.tkset o) →
      ((s.me.token (s.spec 32 o.d)).st = .pending → exec (.tkset o) s = .next (s.blockOn 2 .none)) ∧
      ((s.me.token (s.spec 32 o.d)).st ≠ .pending → exec (.tkset o) s =
        .next ((s.noted (.tkset o)).put ⟨.tk, s.spec 32 o.d⟩ (o.imm.setWidth 4096) (allBits 2) 1)))) ∧
  (∀ (s : State) (o : FX) (x : Xlate), s.operandsReady (.flagwait o) → s.xmap s.me.vfid (s.rs o.a) = .ok x → (s.rs o.a).toNat % 8 = 0 →
    x.tier = 2 ∨ x.tier = 3 → s.permOk s.me.vfid x true false = true → badIn s.memBad x.pa 8 = false →
      let v := s.readLe x.pa 8
      (s.tokenOk x 0 = false → exec (.flagwait o) s = .next (s.takeFault { slot := .c, code := 0x13, addr := s.rs o.a })) ∧
      (s.tokenOk x 0 = true →
      ((v + 2 ^ 64 - (s.rs o.b).toNat) % 2 ^ 64 < 2 ^ 63 → s.readsPending s.cur 0xFFFF = false →
        let t := (s.noted (.flagwait o)).takeClasses 0xFFFF
        exec (.flagwait o) s = .next (((t.fillWalk s.me.vfid x).eccMet s.me.vfid t.cur x.pa 8).putS (t.spec 64 o.d) (BitVec.ofNat 64 v) 2)) ∧
      (2 ^ 63 ≤ (v + 2 ^ 64 - (s.rs o.b).toNat) % 2 ^ 64 → exec (.flagwait o) s = .next (s.blockOn 5 (.watch x.pa)))))

/-- R105, R194, R337: `stacq` completes with the buffer's address for the stage's owner in the wanted state, and for a context that finds the
stage free in that state with nobody before it in line, which then owns it; `strel` completes for the owner once its accesses have been
performed, and flips FULL. Until then each blocks; another function's stage faults PROTECT, and an operand above 15, an owner that
wants the other state, or a `strel` of a stage that is not the context's own faults BAD_OPERAND. `clease` completes in a RIGID phase and
for the holder of the lease, and changes nothing; another context asks for the lease and blocks. `crel` completes: it has no effect in a
RIGID phase or without the lease, and the holder's run ends when its bundle commits. The model's choices: that `crel` acts at the commit (log
entry 51), that a context joins the line although the stage is free (log entry 75), and the order of the line (log entry 25). -/
def Obligations.StagesAndLeases : Prop :=
  (∀ (s : State) (o : FR),
    let n := (s.rs o.a).toNat
    let w := s.tower (towerOf s.cur)
    let st := tget {} w.deck n
    let full := o.xmod.getLsbD 0
    let mine := st.owned = true ∧ st.owner = s.cur
    let isFree := st.full = full ∧ st.owned = false ∧ (st.first full = none ∨ st.first full = some (s.cur, s.tick))
    let held := { st with owned := true, owner := s.cur, line := st.line.filter fun x => x.1 ≠ s.cur }
    let address := w.vbase + BitVec.ofNat 64 st.bufoff
    (s.operandsReady (.stacq o) →
      let t := (s.noted (.stacq o)).takeClasses 0xFFFF
      (n < 16 → st.vf = s.me.vfid → mine → st.full = full → s.readsPending s.cur 0xFFFF = false →
        exec (.stacq o) s = .next (t.putS (t.spec 64 o.d) address (bound o.lat 2))) ∧
      (n < 16 → st.vf = s.me.vfid → ¬ mine → isFree → s.readsPending s.cur 0xFFFF = false →
        let u := t.setTower (towerOf s.cur) { w with deck := tset {} w.deck n held }
        exec (.stacq o) s = .next (u.putS (u.spec 64 o.d) address (bound o.lat 2))) ∧
      (n < 16 → st.vf = s.me.vfid → ¬ mine → ¬ isFree → exec (.stacq o) s = .next (s.blockOn 8 (.wantStage (towerOf s.cur) n full))) ∧
      (n < 16 → st.vf = s.me.vfid → (mine ∧ st.full = full) ∨ (¬ mine ∧ isFree) → s.readsPending s.cur 0xFFFF = true →
        exec (.stacq o) s = .next (s.blockOn 2 .none)) ∧
      (n < 16 → st.vf ≠ s.me.vfid → exec (.stacq o) s = .next (s.takeFault { slot := .c, code := 0x11 })) ∧
      (16 ≤ n ∨ (st.vf = s.me.vfid ∧ mine ∧ st.full ≠ full) → exec (.stacq o) s = .next (s.takeFault { slot := .c, code := 0x08 }))) ∧
    (s.operandsReady (.strel o) →
      let t := (s.noted (.strel o)).takeClasses 0xFFFF
      (n < 16 → st.vf = s.me.vfid → mine → s.accessPending s.cur 0xFFFF = false → exec (.strel o) s =
        .next (t.modTower (towerOf s.cur) fun w =>
          { w with deck := tset {} w.deck n { st with full := !st.full, owned := false, flipped := some t.tick } })) ∧
      (n < 16 → st.vf = s.me.vfid → mine → s.accessPending s.cur 0xFFFF = true →
        exec (.strel o) s = .next (s.blockOn 2 (.flush 0xFFFF))) ∧
      (n < 16 → st.vf ≠ s.me.vfid → exec (.strel o) s = .next (s.takeFault { slot := .c, code := 0x11 })) ∧
      (16 ≤ n ∨ (st.vf = s.me.vfid ∧ ¬ mine) → exec (.strel o) s = .next (s.takeFault { slot := .c, code := 0x08 })))) ∧
  (∀ (s : State) (o : FR),
    (s.operandsReady (.clease o) →
      (s.inRigid s.cur = true ∨ s.holds s.cur = true → exec (.clease o) s = .next (s.noted (.clease o))) ∧
      (s.inRigid s.cur = false → s.holds s.cur = false → exec (.clease o) s = .next (s.blockOn 9 .wantLease))) ∧
    (s.operandsReady (.crel o) →
      (s.inRigid s.cur = true ∨ s.holds s.cur = false → exec (.crel o) s = .next (s.noted (.crel o))) ∧
      (s.inRigid s.cur = false → s.holds s.cur = true → exec (.crel o) s =
        .next { s.noted (.crel o) with issue := { (s.noted (.crel o)).issue with crel := true } }))) ∧
  (∀ (s t : State), t.issue.fault = none → (s.commit t).issue.fault = none →
    (t.issue.crel = true → (s.commit t).quad (quadOf t.cur) =
      { t.quad (quadOf t.cur) with lease := { (t.quad (quadOf t.cur)).lease with ended := true } }) ∧
    (t.issue.crel = false → (s.commit t).quad (quadOf t.cur) = t.quad (quadOf t.cur)))

/-- R323, R326: `evpop` gives the oldest record's two words and drops it, `evpeek` leaves it; both give zeros when there is none. A record
posted in the tick of the issue is not seen, and stays. The model's choice: the tick of a record that came back with a frame is taken from
the supplement (log entry 36). -/
def Obligations.EventRecords : Prop :=
  ∀ (s : State) (o : FR),
    let seen := s.me.evq.head?.filter fun r => r.time ≠ s.tick
    let w := match seen with | some r => r.word | none => 0
    let given := fun i : Instr => ((s.noted i).putS (s.spec 64 o.d) (w.extractLsb' 0 64) (bound o.lat 2)).putS (s.spec 64 o.c)
      (w.extractLsb' 64 64) (bound o.lat 2)
    (s.operandsReady (.evpop o) → exec (.evpop o) s = .next ((given (.evpop o)).modCtx s.cur fun c => { c with evq := if seen.isSome then s.me.evq.drop 1 else s.me.evq })) ∧
    (s.operandsReady (.evpeek o) → exec (.evpeek o) s = .next (given (.evpeek o)))

/-! ### Class E: direct accesses (R274-R277) -/

/-- R122, R274, R275, R301-R304, R341: a scalar load and a scalar store of a part that passes their checks, once what they are ordered
after has been performed. The load gives the bytes in little-endian order, extended by TYPE (an uncorrectable byte as 0xFF), as they
stand at issue or, where memory was sound, when it lands; the store enters the write queue with the bytes of s[D], behind the
waiting stores of its class and those of its line by others. The model's choices: which of the two moments gives the load's value, and the
store's place in the queue (free, log entry 8), and the delay of the store within the bound of its tier (log entry 3). -/
def Obligations.ScalarLoadsAndStores : Prop :=
  ∀ (s : State) (o : FM) (x : Xlate),
    let m := s.eff
    let n := fmtWidth o.ty / 8
    let ea := s.rs o.a + s.rs o.b + BitVec.ofInt 64 (o.disp.toInt * n)
    let plain := ∀ f, x.fmt = some f → fmtWidth (fmtOf f) = fmtWidth o.ty
    m.space ≤ 2 → ea.toNat % n = 0 →
    (∀ t, m.ord < 2 → sourcesSound s (.ldS o) → s.directPart m ea n true (bound o.lat 16) = .ok x →
      (o.v = false → plain ∧ ∀ f, x.fmt = some f → decodes (fmtOf f) = false) → (eccNoted s (.ldS o)).ordered m = .ok t →
      let v := t.directRead x n
      let bad := t.directBad x n
      let u := t.directDone x [(x.pa, n)]
      let u := if bad then u.fmUncorr ea else u
      exec (.ldS o) s = .next ((u.putS (u.spec 64 o.d)
        (BitVec.ofNat 64 (if isSignedFmt o.ty then wrapInt 64 (toSigned (8 * n) v) else v)) (bound o.lat 16)).mayTake ⟨.s, u.spec 64 o.d⟩ m bad
          [{ lo := 0, wd := 64, face := decide (x.tier = 1), pa := x.pa, w := 8 * n, sx := isSignedFmt o.ty }])) ∧
    (∀ f t, m.ord < 2 → sourcesSound s (.ldS o) → s.directPart m ea n true (bound o.lat 16) = .ok x → o.v = false → x.fmt = some f →
      fmtOf f = 0x0C ∨ fmtOf f = 0x0D → o.ty = 0x0F → (eccNoted s (.ldS o)).ordered m = .ok t →
      let bad := t.directBad x 1
      let u := t.directDone x [(x.pa, 1)]
      let u := if bad then u.fmUncorr ea else u
      exec (.ldS o) s = .next ((u.putS (u.spec 64 o.d)
        (BitVec.ofNat 64 (fround 0x0F false false (fdecode (fmtOf f) (t.directRead x 1)))) (bound o.lat 16)).mayTake ⟨.s, u.spec 64 o.d⟩ m bad
          [{ lo := 0, wd := 64, face := decide (x.tier = 1), pa := x.pa, w := 8, sx := isSignedFmt o.ty, dec := some (fmtOf f, 0) }])) ∧
    (∀ t, m.ord = 0 ∨ m.ord = 2 → sourcesSound s (.stS o) → s.directPart m ea n false 0 = .ok x → plain →
      (eccNoted s (.stS o)).ordered m = .ok t →
      let u := t.fillWalk t.me.vfid x
      let e : WqEntry :=
        { n := u.serial + 1, g := u.cur, pc := u.me.pc, vf := u.me.vfid, pa := x.pa, quad := quadOf u.cur,
          face := decide (x.tier = 1), mods := m, op := .store (cellsOf (t.rs o.d).toNat n), at' := u.tick,
          due := u.tick + 1 + tierDelay (if decide (x.tier = 1) = true then 1 else tierOf x.pa) (u.serial + 1) 0 }
      ∃ a b, u.wq = a ++ b ∧ exec (.stS o) s = .next { u with serial := u.serial + 1, wq := a ++ e :: b } ∧
        ∀ y ∈ b, ¬ (y.g = e.g ∧ y.mods.cls = m.cls) ∧ ¬ (y.sameLine e = true ∧ y.g ≠ e.g))

/-- R122, R271, R274, R276, R277, R301-R304: a tile load and a tile store whose lines pass their checks. A load from a part that decodes
fills `r` registers with BF16, element `r * i + j` in element `i` of register `j`, and no other element; errors count in the bytes of
the active elements alone. A store puts one entry per active line into the write queue, with the active elements' bits. The model's choices:
at which moment a load takes its values (log entry 8), and where an access is cut into parts (log entry 27). -/
def Obligations.TileLoadsAndStores : Prop :=
  ∀ (s : State) (o : FM) (parts : TileParts) (wm : Nat) (dec : Bool),
    let m := s.eff
    let ea := s.rs o.a + s.rs o.b + BitVec.ofInt 64 (o.disp.toInt * (64 : Nat))
    let cl : Cl := if o.msk.getLsbD 2 then .b else .a
    let d := s.spec 64 o.d
    m.space ≤ 2 → ea.toNat % 64 = 0 →
    (∀ t, m.ord < 2 → sourcesSound s (.ldT o) → s.tileParts o m ea true (bound o.lat 16) = .ok parts →
      (∀ l ∈ parts.lines, partWidth o l.2.2 = (wm, dec)) → parts.lines ≠ [] → (if dec then o.ty = 0x0F else fmtWidth o.ty = wm) →
      parts.shape.ok wm = true → (∀ j < if dec then 16 / wm else 1, s.targetReady ⟨tileFile cl, d + j⟩ = true) →
      d % (if dec then 16 / wm else 1) = 0 → (eccNoted s (.ldT o)).ordered m = .ok t →
      let r := if dec then 16 / wm else 1
      let w := if dec then 16 else wm
      let q := t.quad (quadOf t.cur)
      let line := fun k => parts.lines.find? fun l => l.1 = lineOf wm k
      let val := fun k => match line k with
        | none => 0
        | some (j, _, x) =>
          let e := bits (t.directRead x 64) (wm * k + wm - 1 - 512 * j) (wm * k - 512 * j)
          if dec then decodeBf16 (bookEntry (bookAt q (cbslotOf (x.fmt.getD 0)))) (fmtOf (x.fmt.getD 0)) e else e
      let on := (List.range (elems wm)).filter fun i => parts.act.getD i false
      let ranges := fun l : Nat × Nat × Xlate =>
        (on.filter fun i => lineOf wm i = l.1).map fun i => (l.2.2.pa + (wm * i - 512 * l.1) / 8, (wm + 7) / 8)
      let bad := parts.lines.any fun l => (ranges l).any fun e => t.directBad { l.2.2 with pa := e.1 } e.2
      let u := parts.lines.foldl (fun u l => u.directDone l.2.2 (ranges l)) t
      let u := if bad then u.fmUncorr ea else u
      ∃ late : Nat → List LateElem,
        (∀ j, ∀ e ∈ late j, ∃ i ∈ on, ∃ l, i % r = j ∧ line i = some l ∧ e.lo = w * (i / r) ∧ e.wd = w ∧ e.w = wm ∧ e.bit = wm * i % 8 ∧
          e.pa = l.2.2.pa + (wm * i - 512 * l.1) / 8 ∧ e.face = decide (l.2.2.tier = 1)) ∧
        exec (.ldT o) s = .next ((List.range r).foldl (fun u j =>
          (u.giveTile cl (d + j) w ((List.range (elems w)).map fun i => parts.act.getD (r * i + j) false) (bound o.lat 16)
            fun i => val (r * i + j)).mayTake ⟨tileFile cl, d + j⟩ m bad (late j)) u)) ∧
    (∀ t, m.ord = 0 ∨ m.ord = 2 → sourcesSound s (.stT o) → s.tileParts o m ea false 0 = .ok parts → parts.lines ≠ [] →
      (∀ l ∈ parts.lines, ∀ f, l.2.2.fmt = some f → fmtWidth (fmtOf f) = fmtWidth o.ty) → parts.shape.ok (fmtWidth o.ty) = true →
      s.me.boundTo ⟨tileFile cl, d⟩ = none → (eccNoted s (.stT o)).ordered m = .ok t →
      exec (.stT o) s = .next (parts.lines.foldl (fun u l =>
        u.directStore l.2.2 m (tileCells (fmtWidth o.ty) (t.rv cl o.d) parts.act (64 * l.1) 64)) t))

/-! ### Class E: commands at issue (R58, R101) -/

/-- R58, R147: at issue a command's token is PENDING and stands for that command, and no other token changes. -/
def Obligations.IssuedTokensArePending : Prop :=
  ∀ (s : State) (k : Cmd),
    ((s.issued k).me.token k.tok).st = .pending ∧ ((s.issued k).me.token k.tok).by' = k.serial ∧ (s.issued k).serial = k.serial ∧
      (∀ n, n ≠ k.tok → (s.issued k).me.token n = s.me.token n) ∧ (s.issued k).mem = s.mem ∧ (s.issued k).me.sreg = s.me.sreg

/-- R278-R280, R284: gathers, scatters and copies enter the copy engine's queue with what their issue reads: address or descriptors,
indices, data and the active elements; a chained checksum is noted. -/
def Obligations.CopyEngineCommandsIssue : Prop :=
  ∀ (s : State) (o : FE) (act : MaskReg), s.eff.space = 0 → s.eff.ord = 0 → tokenFree s o → copyRoom s →
    (s.feActive o 32 = .ok act →
      let k := fun i : Instr => { s.newCmd i o s.eff with act := act, sa := s.rs o.a, tb := s.rv (feCl o) o.b }
      (s.operandsReady (.ldx o) → exec (.ldx o) s =
        toCopyQueue (s.noted (.ldx o)) { k (.ldx o) with dest := [⟨tileFile (feCl o), s.spec 64 o.d⟩] }) ∧
      (s.operandsReady (.stx o) → exec (.stx o) s = toCopyQueue (s.noted (.stx o)) { k (.stx o) with td := s.rv (feCl o) o.d }) ∧
      (s.operandsReady (.stxAdd o) → exec (.stxAdd o) s =
        toCopyQueue (s.noted (.stxAdd o)) { k (.stxAdd o) with td := s.rv (feCl o) o.d })) ∧
    (let k := fun i : Instr => { s.newCmd i o s.eff with sd := s.rs o.d, sa := s.rs o.a, sb := s.rs o.b }
     let t := s.me.token o.tka.toNat
     let named := decide (1 ≤ o.ntk.toNat) && t.csum
     (s.operandsReady (.dcopy o) → exec (.dcopy o) s = toCopyQueue (s.noted (.dcopy o)) (k (.dcopy o))) ∧
     (s.operandsReady (.dcopyCsum o) → exec (.dcopyCsum o) s = toCopyQueue (s.noted (.dcopyCsum o))
       { k (.dcopyCsum o) with chained := named, chain := if named ∧ t.st = .pending then some t.by' else none,
                               chainOk := decide (t.st ≠ .doneErr), sum := if named then t.sum else 0 }))

/-- R285, R286, R301-R303: `rst` and `rld` of aligned blocks whose active lines translate enter the core's remote engine, once what they
are ordered after has been performed. -/
def Obligations.RemoteBlocksIssue : Prop :=
  ∀ (s : State) (o : FE) (act : MaskReg) (lines : List (Word × Xlate)),
    let m := s.eff
    let ea := s.rs o.a
    let pas := lines.map fun l => (l.1, l.2.pa)
    m.space = 0 ∨ m.space = 4 ∨ m.space = 5 → ea.toNat % 64 = 0 → s.feActive o 8 = .ok act → tokenFree s o → remoteRoom s →
    (∀ t, m.ord = 0 ∨ m.ord = 2 → s.remoteLines o m ea act true = .ok lines → lines ≠ [] → s.rs o.d = 0 → s.operandsReady (.rst o) →
      (s.noted (.rst o)).ordered m = .ok t →
      exec (.rst o) s = toRemoteQueue (t.fillWalks lines)
        { t.newCmd (.rst o) o m with sa := ea, sd := 0, tb := t.rv (feCl o) o.b, act := act, pas := pas }) ∧
    (∀ f t, m.ord = 0 ∨ m.ord = 2 → s.remoteLines o m ea act true = .ok lines → lines ≠ [] → s.rs o.d ≠ 0 → (s.rs o.d).toNat % 8 = 0 →
      s.xlate s.me.vfid (s.rs o.d) false true m.cache = .ok f → (∀ l ∈ lines, targetOf l.2.pa = targetOf f.pa) → s.operandsReady (.rst o) →
      (s.noted (.rst o)).ordered m = .ok t →
      exec (.rst o) s = toRemoteQueue (t.fillWalks (lines ++ [(s.rs o.d, f)]))
        { t.newCmd (.rst o) o m with sa := ea, sd := s.rs o.d, tb := t.rv (feCl o) o.b, act := act, flag := some f.pa, pas := pas }) ∧
    (∀ t, m.ord < 2 → s.remoteLines o m ea act false = .ok lines → s.operandsReady (.rld o) → (s.noted (.rld o)).ordered m = .ok t →
      exec (.rld o) s = toRemoteQueue (t.fillWalks lines)
        { t.newCmd (.rld o) o m with sa := ea, act := act, pas := pas, parts := partsOf lines, dest := [⟨tileFile (feCl o), t.spec 64 o.d⟩] })

/-- R235, R240, R287, R288: atomics and scalar reductions of an aligned word of 4 or 8 bytes that translates enter the core's remote engine with
their operands; an atomic will give the word it replaced. A tile reduction enters it when its active words lie in one part, that of
the first of them, and each may be read and written; it faults SPAN when one lies in another part, and else PROTECT at the first that may not be
accessed or lies outside the partition. The model's choices: what counts as one part, an unmapped word among them, and the point of the fault
(log entry 41). -/
def Obligations.AtomicsAndReductionsIssue : Prop :=
  ∀ (s : State) (o : FE) (x : Xlate),
    let m := s.eff
    let ea := s.rs o.a
    tokenFree s o → remoteRoom s →
    (ea.toNat % (wordWidth o / 8) = 0 → s.remotePart m ea true true false = .ok x →
      (∀ i ∈ atomics o, ∀ t, s.operandsReady i → (s.noted i).ordered m = .ok t → exec i s = toRemoteQueue (t.fillWalks [(ea, x)])
        { t.newCmd i o m with sa := ea, sb := t.rs o.b, sd := t.rs o.d, pas := [(ea, x.pa)], dest := [⟨.s, t.spec 64 o.d⟩] }) ∧
      (m.ord = 0 ∨ m.ord = 2 → o.d.getLsbD 0 = false → ∀ i ∈ reductionsE o, ∀ t, s.operandsReady i → (s.noted i).ordered m = .ok t →
        exec i s = toRemoteQueue (t.fillWalks [(ea, x)]) { t.newCmd i o m with sa := ea, sb := t.rs o.b, pas := [(ea, x.pa)] })) ∧
    (∀ (act : MaskReg) (first : Nat), m.ord = 0 ∨ m.ord = 2 → o.d.getLsbD 0 = true → ea.toNat % 64 = 0 → s.feActive o 32 = .ok act →
      (∀ j < first, act.getLsbD j = false) → (first < 128 ∧ act.getLsbD first = true) ∨ (first = 0 ∧ ∀ j < 128, act.getLsbD j = false) →
      let word := fun j : Nat => ea + BitVec.ofNat 64 (4 * j)
      s.remotePart m (word first) true true false = .ok x → ∀ i ∈ reductionsE o, s.operandsReady i →
      (∀ j < 128, act.getLsbD j = true → (∃ y, s.xmap s.me.vfid (word j) = .ok y ∧ y.part = x.part) →
        (∀ k < 128, act.getLsbD k = true → ∃ y, s.xmap s.me.vfid (word k) = .ok y ∧ y.part = x.part) →
        (∀ y, s.xmap s.me.vfid (word j) = .ok y → s.permOk s.me.vfid y true true = false) →
        (∀ k < j, act.getLsbD k = true → ∀ y, s.xmap s.me.vfid (word k) = .ok y → s.permOk s.me.vfid y true true = true) →
        exec i s = .next (s.takeFault { slot := .e, code := 0x11, addr := word j })) ∧
      ((∀ j < 128, act.getLsbD j = true → ∃ y, s.xmap s.me.vfid (word j) = .ok y ∧ y.part = x.part ∧ s.permOk s.me.vfid y true true = true) →
        ∀ t, (s.noted i).ordered m = .ok t → exec i s = toRemoteQueue (t.fillWalks [(ea, x)])
          { t.newCmd i o m with sa := ea, tb := t.rv (feCl o) o.b, act := act, pas := [(ea, x.pa - 4 * first)], count := 1 }) ∧
      ((∃ j < 128, act.getLsbD j = true ∧ ∀ y, s.xmap s.me.vfid (word j) = .ok y → y.part ≠ x.part) →
        exec i s = .next (s.takeFault { slot := .e, code := 0x15, addr := ea })))

/-- R290-R292, R301, R303: with a free product token and room in the queue, the pool instructions and the ownership tokens enter the core's remote
engine with their operands, a `tacq` once what it is ordered after has been performed; `trel` is a release first, at POD scope: it blocks until the context's accesses have been performed, and writes
the dirty lines back. A size of 0 or above 1,048,576 units, and for `kfree` and `kquery` an address that is no Kitty allocation's first,
fault BAD_OPERAND; a region of another tier than PEER or KITTY faults TIER, and one that the context may not access PROTECT. -/
def Obligations.PoolAndOwnershipIssue : Prop :=
  ∀ (s : State) (o : FE), tokenFree s o → remoteRoom s →
    let a := s.rs o.a
    let two : List RegId := [⟨.s, s.spec 64 o.d⟩, ⟨.s, s.spec 64 o.b⟩]
    (∀ i ∈ [Instr.kalloc o, .kallocM o], s.operandsReady i →
      (1 ≤ a.toNat ∧ a.toNat ≤ 1048576 → exec i s = toRemoteQueue (s.noted i) { s.newCmd i o {} with sa := a, dest := two }) ∧
      (a.toNat = 0 ∨ 1048576 < a.toNat → exec i s = .next (s.takeFault { slot := .e, code := 0x08 }))) ∧
    (isKitty a = true → bits a.toNat 35 0 = 0 →
      (s.operandsReady (.kfree o) → exec (.kfree o) s =
        toRemoteQueue (s.noted (.kfree o)) { s.newCmd (.kfree o) o {} with sa := a, dest := [⟨.s, s.spec 64 o.d⟩] }) ∧
      (s.operandsReady (.kquery o) → exec (.kquery o) s =
        toRemoteQueue (s.noted (.kquery o)) { s.newCmd (.kquery o) o {} with sa := a, dest := two })) ∧
    (isKitty a = false ∨ bits a.toNat 35 0 ≠ 0 → ∀ i ∈ [Instr.kfree o, .kquery o], s.operandsReady i →
      exec i s = .next (s.takeFault { slot := .e, code := 0x08 })) ∧
    (∀ x, s.xmap s.me.vfid a = .ok x → s.permOk s.me.vfid x false false = true →
      let k := fun i : Instr =>
        { s.newCmd i o { cls := bits s.me.memdef.toNat 3 0, scope := 5 } with
          sa := a, pas := [(a, x.pa)], dest := [⟨.s, s.spec 64 o.d⟩] }
      (x.tier = 4 ∨ x.tier = 5 →
        (s.operandsReady (.tacq o) →
          (∀ t, ((s.noted (.tacq o)).fillWalk s.me.vfid x).ordered (k (.tacq o)).mods = .ok t →
            exec (.tacq o) s = toRemoteQueue t (k (.tacq o))) ∧
          (∀ w fx, ((s.noted (.tacq o)).fillWalk s.me.vfid x).ordered (k (.tacq o)).mods = .error (.block w fx) → exec (.tacq o) s = .next (s.blockOn w fx))) ∧
        (s.operandsReady (.trel o) →
          (s.accessPending s.cur 0xFFFF = false →
            exec (.trel o) s =
              toRemoteQueue ((((s.noted (.trel o)).fillWalk s.me.vfid x).takeClasses 0xFFFF).cleanLines fun _ => true) (k (.trel o))) ∧
          (s.accessPending s.cur 0xFFFF = true → exec (.trel o) s = .next (s.blockOn 2 (.flush 0xFFFF))))) ∧
      (x.tier ≠ 4 → x.tier ≠ 5 → ∀ i ∈ [Instr.tacq o, .trel o], s.operandsReady i →
        exec i s = .next (s.takeFault { slot := .e, code := 0x12, addr := a }))) ∧
    (∀ x, s.xmap s.me.vfid a = .ok x → s.permOk s.me.vfid x false false = false → ∀ i ∈ [Instr.tacq o, .trel o], s.operandsReady i →
      exec i s = .next (s.takeFault { slot := .e, code := 0x11, addr := a }))

/-- R188, R189, R293: `sbind` binds a free slot and register at issue, under the shape it reads; `sunbind`, `sstat`, `cspop`, and a
`cspush` to a buffer whose key is its shape's, enter the core's remote engine. -/
def Obligations.StreamsAndBuffersIssue : Prop :=
  (∀ (s : State) (o : FE), tokenFree s o →
    (let n := bits o.d.toNat 2 0
     let shape := (s.readSh o.sh.toNat).extractLsb' 0 64
     let m := s.me.memdef.toNat
     let k := { s.newCmd (.sbind o) o { cls := bits m 3 0, scope := bits m 6 4 } with point := n, sa := s.rs o.a }
     (s.me.stream n).bound = false → s.me.boundTo ⟨tileFile (feCl o), s.spec 64 o.b⟩ = none → (shapeWidth shape).isSome → copyRoom s →
     s.operandsReady (.sbind o) → ∃ t, toCopyQueue (s.noted (.sbind o)) k = .next t ∧ exec (.sbind o) s =
       .next (t.modCtx s.cur fun c => c.setStream n
         { bound := true, out := bit o.d.toNat 3, cluster := o.msk.getLsbD 2, reg := s.spec 64 o.b, token := o.tko.toNat,
           desc := s.rs o.a, shape := shape, cls := bits m 3 0, scope := bits m 6 4, by' := s.serial + 1, pc := s.me.pc })) ∧
    (remoteRoom s →
      (s.operandsReady (.sunbind o) → exec (.sunbind o) s =
        toRemoteQueue (s.noted (.sunbind o)) { s.newCmd (.sunbind o) o {} with point := bits o.d.toNat 2 0 }) ∧
      (s.operandsReady (.sstat o) → exec (.sstat o) s = toRemoteQueue (s.noted (.sstat o))
        { s.newCmd (.sstat o) o {} with point := bits o.a.toNat 2 0, dest := [⟨.s, s.spec 64 o.d⟩] }))) ∧
  (∀ (s : State) (o : FE), tokenFree s o → remoteRoom s →
    (let q := quadOf s.cur
     let b := bits o.d.toNat 1 0
     let sh := s.readSh o.sh.toNat
     ∀ key, condKey (vshape sh) = some key → (tget {} (s.quad q).cond b).recs ≠ [] → (tget {} (s.quad q).cond b).key = some key →
     s.operandsReady (.cspush o) → exec (.cspush o) s = toRemoteQueue (s.noted (.cspush o))
       { s.newCmd (.cspush o) o {} with
         point := b, shape := sh, tb := s.rv (feCl o) o.a, act := s.readM (feCl o) (s.spec 8 o.b),
         flag := if o.d.getLsbD 2 then some 1 else none }) ∧
    (s.operandsReady (.cspop o) → exec (.cspop o) s = toRemoteQueue (s.noted (.cspop o))
      { s.newCmd (.cspop o) o {} with
        point := bits o.a.toNat 1 0,
        dest := [⟨tileFile (feCl o), s.spec 64 o.d⟩, ⟨maskFile (feCl o), s.spec 8 o.b⟩, ⟨.sh, o.sh.toNat⟩] }))

/-- R195, R197, R199, R207-R212, R216-R222, R228-R230: products and `cplane` with lawful operand words and shapes, and the other cube
instructions, enter the cube's queue, the copy engine's (`cfill`) or the cube's reads (`crdacc`, and `cstat`, which needs no lease),
and count against the lease. -/
def Obligations.CubeCommandsIssue : Prop :=
  (∀ (s : State) (o : FE), underLease s → tokenFree s o → cubeRoom s →
    let w := s.rs o.a
    let b := s.rs o.b
    let h := s.readSh o.sh.toNat
    let n := bits o.d.toNat 1 0
    let lm := lmaskOf w
    cubeHalfOk (h.toNat / 2 ^ 64) = true →
    (∀ i ∈ [Instr.cmm o, .cmmz o, .cconv o], operandOk w.toNat = true → (isPlane i = true → n = 0) →
      (isSparse i = true → b.toNat < 32) → (isConv i = true → b.toNat % 64 = 0 ∧ b.toNat < 2 ^ 18) →
      (if isPlane i then kOf h else (kOf h + (layersOf lm).length - 1) / (layersOf lm).length) ≤ 8192 →
      s.stopHolds (if isPlane i then [] else [n]) lm = false → s.operandsReady i →
      exec i s = toCubeQueue (counted s i) { s.newCmd i o s.defMods with sa := w, sb := b, shape := h }) ∧
    (within w lmaskBits → kOf h ≤ 8192 → s.stopHolds [] lm = false → s.operandsReady (.cplane o) →
      exec (.cplane o) s = toCubeQueue (counted s (.cplane o)) { s.newCmd (.cplane o) o s.defMods with sa := w, shape := h })) ∧
  (∀ (s : State) (o : FE), tokenFree s o →
    let w := s.rs o.a
    let b := s.rs o.b
    let lm := lmaskOf w
    let k := fun i : Instr => s.newCmd i o {}
    (underLease s → cubeRoom s →
      (within w (lmaskBits + 31) → s.operandsReady (.csmeta o) →
        exec (.csmeta o) s = toCubeQueue (counted s (.csmeta o)) { s.newCmd (.csmeta o) o s.defMods with sa := w, sb := b }) ∧
      (within w (lmaskBits + 63) → s.operandsReady (.cseq o) →
        exec (.cseq o) s = toCubeQueue (counted s (.cseq o)) { s.newCmd (.cseq o) o s.defMods with sa := w, sb := b }) ∧
      (within w (lmaskBits + 3 * 2 ^ 24) → lm ≠ 0 → bits w.toNat 25 24 ≠ 0 → s.stopHolds [] lm = false → s.operandsReady (.cswap o) →
        exec (.cswap o) s = toCubeQueue (counted s (.cswap o)) { k (.cswap o) with sa := w }) ∧
      (selectorOk b.toNat = true → s.stopHolds [selTarget b.toNat] (if b.getLsbD 7 then 2 ^ bits b.toNat 10 8 else 0) = false → s.operandsReady (.cwracc o) →
        exec (.cwracc o) s = toCubeQueue (counted s (.cwracc o)) { k (.cwracc o) with sb := b, td := s.rv (feCl o) o.a }) ∧
      (within w lmaskBits → (o.d.getLsbD 0 = true → lm ≠ 0) → s.operandsReady (.cdrain o) →
        exec (.cdrain o) s = toCubeQueue (counted s (.cdrain o)) { k (.cdrain o) with sa := w }) ∧
      (within w (2 ^ 35 - 1) → s.operandsReady (.ckat o) →
        exec (.ckat o) s = toCubeQueue (counted s (.ckat o)) { k (.ckat o) with sa := w, sb := b }) ∧
      (within w (lmaskBits + 3) → bits w.toNat 1 0 ≠ 3 → s.operandsReady (.cbist o) →
        exec (.cbist o) s = toCubeQueue (counted s (.cbist o)) { k (.cbist o) with sa := w })) ∧
    (underLease s → copyRoom s → fillOk (s.rs o.d).toNat w.toNat = true → s.operandsReady (.cfill o) →
      exec (.cfill o) s = toCopyQueue (counted s (.cfill o))
        { s.newCmd (.cfill o) o s.defMods with sd := s.rs o.d, sa := w, sb := b, act := (s.quad (quadOf s.cur)).backPhases (bits w.toNat 18 18) }) ∧
    (underLease s → selectorOk w.toNat = true → s.operandsReady (.crdacc o) →
      exec (.crdacc o) s = toCubeReads (counted s (.crdacc o))
        { k (.crdacc o) with sa := w, dest := [⟨tileFile (feCl o), s.spec 64 o.d⟩, ⟨.s, s.spec 64 o.b⟩] }) ∧
    (within w 0xFFFF → bits w.toNat 7 0 ≤ 5 → s.operandsReady (.cstat o) →
      exec (.cstat o) s = toCubeReads (s.noted (.cstat o)) { k (.cstat o) with sa := w, dest := [⟨.s, s.spec 64 o.d⟩] }))

/-- R31, R32, R195, R205: without the lease a cube instruction faults NO_LEASE; while its context's request waits it blocks, and past
the run's limit it waits for a new grant, or slips in a RIGID phase. -/
def Obligations.CubeCommandsNeedTheLease : Prop :=
  ∀ (s : State) (o : FE),
    let l := (s.quad (quadOf s.cur)).lease
    ∀ i ∈ [Instr.cmm o, .cmmz o, .cconv o, .cplane o, .csmeta o, .cseq o, .cfill o, .cswap o, .crdacc o, .cwracc o, .cdrain o, .ckat o, .cbist o],
      s.operandsReady i →
      (s.holds s.cur = false → s.inRigid s.cur = true ∨ l.reqs.contains (s.cur % 16) = false →
        exec i s = .next (s.takeFault { slot := .e, code := 0x0B })) ∧
      (s.holds s.cur = false → s.inRigid s.cur = false → l.reqs.contains (s.cur % 16) = true → exec i s = .next (s.blockOn 9 .none)) ∧
      (s.holds s.cur = true → l.room s.tick = false → s.inRigid s.cur = false → exec i s = .next (s.blockOn 9 .wantLease)) ∧
      (s.holds s.cur = true → l.room s.tick = false → s.inRigid s.cur = true → exec i s = .next (s.takeFault { slot := .e, code := 0x0D }))

/-- R391, R394: `trig.arm` and `trig.cancel` of readable words reach the trigger unit of the counter's tower; `bcarm` binds a barrier
of its tower to a word and posts its count with the bundle. A barrier that is bound already keeps its state under the word that it watches,
is bound afresh to another word, and is unbound by address 0 and count 0; a count for a posted one, and address 0 with a count, fault
BAD_OPERAND, and another function's barrier PROTECT. The model's choice: the ticks that an arm or a cancel takes, fewer than 120 (log entry
3). -/
def Obligations.TriggersAndByteBarriersIssue : Prop :=
  ∀ (s : State) (o : FE), tokenFree s o →
    let a := s.rs o.a
    (∀ x y, s.trigPart a 8 = .ok x → s.trigPart (s.rs o.d) 64 = .ok y → s.operandsReady (.trigArm o) → ∃ due,
      exec (.trigArm o) s = toTriggerUnit ((s.noted (.trigArm o)).fillWalks [(a, x), (s.rs o.d, y)]) (portTower x.pa)
        { s.newCmd (.trigArm o) o {} with sa := a, sb := s.rs o.b, sd := s.rs o.d, pas := [(a, x.pa), (s.rs o.d, y.pa)], due := due } ∧
      s.tick ≤ due ∧ due < s.tick + 120) ∧
    (∀ x, s.trigPart a 8 = .ok x → s.operandsReady (.trigCancel o) → ∃ due,
      exec (.trigCancel o) s = toTriggerUnit ((s.noted (.trigCancel o)).fillWalks [(a, x)]) (portTower x.pa)
        { s.newCmd (.trigCancel o) o {} with sa := a, pas := [(a, x.pa)], dest := [⟨.s, s.spec 64 o.d⟩], due := due } ∧
      s.tick ≤ due ∧ due < s.tick + 120) ∧
    (∀ x, let n := bits o.d.toNat 3 0
      let t := towerOf s.cur
      let b := tget {} (s.tower t).bcs n
      let k := { s.newCmd (.bcarm o) o {} with due := s.tick + 1 }
      b.bound = false → s.operandsReady (.bcarm o) → k.after = [] →
      (a = 0 → s.rs o.b = 0 → exec (.bcarm o) s = toTriggerUnit ((s.noted (.bcarm o)).modBc t n fun _ => {}) t k) ∧
      (a ≠ 0 → a.toNat % 8 = 0 → s.xmap s.me.vfid a = .ok x → x.tier = 2 ∨ x.tier = 3 → portTower x.pa = t →
        s.permOk s.me.vfid x false true = true → s.rs o.b ≠ 0 →
        exec (.bcarm o) s = toTriggerUnit (((s.noted (.bcarm o)).fillWalk s.me.vfid x).modBc t n fun _ =>
          { b with watch := x.pa, acc := 0, posted := true, ovr := false, bound := true, vf := s.me.vfid, expect := (s.rs o.b).toNat }) t k)) ∧
    (let n := bits o.d.toNat 3 0
     let t := towerOf s.cur
     let b := tget {} (s.tower t).bcs n
     let k := { s.newCmd (.bcarm o) o {} with due := s.tick + 1 }
     let c := s.rs o.b
     s.operandsReady (.bcarm o) →
      (b.bound = true → b.vf ≠ s.me.vfid → exec (.bcarm o) s = .next (s.takeFault { slot := .e, code := 0x11 })) ∧
      (b.bound = true → b.vf = s.me.vfid →
        (a = 0 → c = 0 → k.after = [] → exec (.bcarm o) s = toTriggerUnit ((s.noted (.bcarm o)).modBc t n fun _ => {}) t k) ∧
        (a = 0 → c ≠ 0 → exec (.bcarm o) s = .next (s.takeFault { slot := .e, code := 0x08 })) ∧
        (∀ x, a ≠ 0 → a.toNat % 8 = 0 → s.xmap s.me.vfid a = .ok x → x.tier = 2 ∨ x.tier = 3 → portTower x.pa = t →
          s.permOk s.me.vfid x false true = true →
          let b' := if b.watch = x.pa then b else { b with watch := x.pa, acc := 0, posted := false, ovr := false, bound := true, vf := s.me.vfid }
          let act := fun y => toTriggerUnit (((s.noted (.bcarm o)).fillWalk s.me.vfid x).modBc t n fun _ => y) t k
          (c = 0 → k.after = [] → exec (.bcarm o) s = act b') ∧
          (c ≠ 0 → b'.posted = false → k.after = [] → exec (.bcarm o) s = act { b' with expect := c.toNat, posted := true, ovr := false }) ∧
          (c ≠ 0 → b'.posted = true → exec (.bcarm o) s = .next (s.takeFault { slot := .e, code := 0x08 })))))

/-! ### Events of a context (R47, R51, R104, R109, R147, R410-R414) -/

/-- R48, R51, R104, R304: s0 reads as zero, ma0 and mb0 as all ones. A result whose bound has passed writes its bits into its register:
a scalar, an index register, a tile, a mask or a shape takes the written bits and keeps the others; MEMDEF keeps bits 13:0, EVQCFG its
low four bits (a 1 in bit 15 clears OVF), LP0 and LP1 the whole word; a token is DONE, or DONE_ERR for a value other than 0. s0, ma0 and
mb0 discard what is written, and every other register, the program counter and the fault registers keep what they hold. A scalar load
that is not settled lands the bits it took at issue, or those that stand in memory as it lands. The model's choices: which of the two (free,
log entry 8), that a result lands once its bound has passed (log entry 5), and the marks that tell a result of which a later one has taken the
register, whole or in part (log entry 6). -/
def Obligations.ResultsLand : Prop :=
  (∀ (s : State) (p : Cl), s.readS 0 = 0 ∧ s.readM p 0 = BitVec.allOnes 1024) ∧
  (∀ (s : State) (g : Nat) (e : InFlight), let c := s.ctx g
    let v := e.takeLate s g
    c.inflight = [e] → e.due ≤ s.tick → e.dead = false → e.mixed = false → c.boundTo e.reg = none →
    exec (.registerResultLanding g) s = .next (s.setCtx g (({ c with inflight := [] } : Ctx).write e.reg v.val e.en)) ∧
      (e.late = none → v = e) ∧
      (∀ x k, e.late = some { cls := k, elems := [x] } → x.lo = 0 → x.wd ≤ 4096 →
        v.val = e.val ∨ ∀ i < x.wd, v.val.getLsbD i = (x.value s (quadOf g)).testBit i)) ∧
  (∀ (c : Ctx) (n : Nat) (v e : Tile),
    let old := fun (w : Nat) (o : BitVec w) => (o &&& ~~~(e.setWidth w)) ||| (v.setWidth w &&& e.setWidth w)
    (c.write ⟨.s, n⟩ v e).sreg = (if n = 0 then c.sreg else tset 0 c.sreg n (old 64 (tget 0 c.sreg n))) ∧
    (c.write ⟨.x, n⟩ v e).xreg = tset 0 c.xreg n (old 16 (tget 0 c.xreg n)) ∧
    (c.write ⟨.va, n⟩ v e).va = tset 0 c.va n ((tget 0 c.va n &&& ~~~e) ||| (v &&& e)) ∧
    (c.write ⟨.vb, n⟩ v e).vb = tset 0 c.vb n ((tget 0 c.vb n &&& ~~~e) ||| (v &&& e)) ∧
    (c.write ⟨.ma, n⟩ v e).ma = (if n = 0 then c.ma else tset 0 c.ma n (old 1024 (tget 0 c.ma n))) ∧
    (c.write ⟨.mb, n⟩ v e).mb = (if n = 0 then c.mb else tset 0 c.mb n (old 1024 (tget 0 c.mb n))) ∧
    (c.write ⟨.sh, n⟩ v e).sh = tset resetShape c.sh n (old 128 (tget resetShape c.sh n)) ∧
    ((c.write ⟨.tk, n⟩ v e).token n).st = (if v = 0 then .done else .doneErr) ∧
    ∀ m, m ≠ n → (c.write ⟨.tk, n⟩ v e).token m = c.token m) ∧
  (∀ (c : Ctx) (v e : Tile), let cr := fun n : Nat => c.write ⟨.cr, n⟩ v e
    let w : Word := v.setWidth 64
    (cr 0).memdef = w &&& 0x3FFF ∧ (cr 5).evcfg = w.toNat % 16 ∧ ((cr 5).ovf = true ↔ c.ovf = true ∧ w.getLsbD 15 = false) ∧
      (cr 9).lp0 = w ∧ (cr 10).lp1 = w) ∧
  (∀ (c : Ctx) (r : RegId) (v e : Tile), let d := c.write r v e
    d.pc = c.pc ∧ d.state = c.state ∧ d.inflight = c.inflight ∧ d.evq = c.evq ∧ d.faultpt = c.faultpt ∧ d.faultpc = c.faultpc ∧
      d.st = c.st ∧ (r.file ≠ .s → d.sreg = c.sreg) ∧ (r.file ≠ .x → d.xreg = c.xreg) ∧ (r.file ≠ .va → d.va = c.va) ∧
      (r.file ≠ .vb → d.vb = c.vb) ∧ (r.file ≠ .ma → d.ma = c.ma) ∧ (r.file ≠ .mb → d.mb = c.mb) ∧ (r.file ≠ .sh → d.sh = c.sh) ∧
      (r.file ≠ .tk → d.tk = c.tk) ∧ (r ≠ ⟨.cr, 0⟩ → d.memdef = c.memdef) ∧ (r ≠ ⟨.cr, 5⟩ → d.evcfg = c.evcfg ∧ d.ovf = c.ovf) ∧
      (r ≠ ⟨.cr, 9⟩ → d.lp0 = c.lp0) ∧ (r ≠ ⟨.cr, 10⟩ → d.lp1 = c.lp1))

/-- R109, R147, R410-R414, R421: the other events of a context. A refilled window of the code stream stands in its core, and the errors
that the fetch ahead met are counted, no more than the window holds; a halted context whose results have landed and whose slots are
unbound leaves its slot; a pre-emption stops its context at a bundle boundary with its registers kept; the frame of a stopped context
holds PC, MEMDEF, FAULTPT, FAULTPC, CTXCTL, EVCFG, LP0 and LP1 at their places, where no trigger acts on its bytes, and what the Dealer keeps
beside it has the context's launch, tokens, service requests and arrivals; and a restored context goes on with VALID of FAULTPT clear. The model's choices: how many of the
window's errors the fetch ahead meets (free, log entry 65), and what a restored context brings with it, RESUMED set among it (log entry
68). -/
def Obligations.ContextEvents : Prop :=
  ∀ (s : State) (g : Nat),
    (∀ (c w : Nat) (i : Image), (s.core' c).image = some i → 8192 * w < i.stream.length →
      ∃ n ≤ (s.core' c).fetchErrors i w, exec (.codeIndexRefill c w) s = .next (s.setCore c { s.core' c with
        window := w, ctr := if n = 0 then (s.core' c).ctr else ctrSat (s.core' c).ctr 0x17 0 32 n })) ∧
    ((s.ctx g).halting = true → (s.ctx g).unwound = true → (s.ctx g).inflight = [] → (∀ n < 8, ((s.ctx g).stream n).bound = false) →
      exec (.haltComplete g) s = .next ((s.disown g).freeSlot g)) ∧
    (∀ t, (s.ctx g).ask = some t → t ≤ s.tick → s.canPreempt g = true → ∃ u, exec (.preemption g) s = .next u ∧
      (u.ctx g).stop = .preempting ∧ (u.ctx g).state = 3 ∧ (u.ctx g).pc = (s.ctx g).pc ∧ (u.ctx g).sreg = (s.ctx g).sreg ∧
      (u.ctx g).xreg = (s.ctx g).xreg ∧ (u.ctx g).va = (s.ctx g).va ∧ (u.ctx g).vb = (s.ctx g).vb ∧ (u.ctx g).ma = (s.ctx g).ma ∧
      (u.ctx g).mb = (s.ctx g).mb ∧ (u.ctx g).sh = (s.ctx g).sh ∧ (u.ctx g).memdef = (s.ctx g).memdef ∧ (u.ctx g).lp0 = (s.ctx g).lp0 ∧
      (u.ctx g).lp1 = (s.ctx g).lp1 ∧ (u.ctx g).evq = (s.ctx g).evq ∧ u.mem = s.mem) ∧
    (s.canSave g = true → ∃ u d, exec (.saveFrameWrite g) s = .next u ∧ u.savedAt (s.ctx g).vfid g = some d ∧
      d.launch = (s.ctx g).launch ∧ d.toks = (s.ctx g).tk ∧ d.sysc = (s.ctx g).sysc ∧ d.arrivals = (s.ctx g).arrivals ∧
      ((∀ w ∈ s.towers, w.2.trigs = []) → let c := s.ctx g
        ∀ i < 8, leRead u.mem (s.frameBase c.vfid g + 0x10D40 + 8 * i) 8 =
          [c.pc, c.memdef.toNat, c.faultpt.toNat, c.faultpc, { c with stage := 0 }.ctxctl,
            c.evcfg % 16 + c.evq.length * 256 + (if c.ovf then 2 ^ 15 else 0), c.lp0.toNat, c.lp1.toNat].getD i 0 % 2 ^ 64)) ∧
    (∀ h v d, s.frameAt g = some (v, d) → s.canRestore v h d = true → (s.image h).map (·.addr) = some d.image →
      exec (.contextRestore g h) s = .next (s.restore v g h d)) ∧
    (∀ (m : List Host.Cell) (b v : Nat) (d : Saved), (readFrame m b v d).resumed = true ∧ (readFrame m b v d).resume.faultpt.getLsbD 44 = false ∧
      (readFrame m b v d).resume.state = 1 ∧ (readFrame m b v d).launch = d.launch ∧
      (readFrame m b v d).pc = leRead (m.filter fun c => decide (b ≤ c.1 ∧ c.1 < b + 0x12000)) (b + 0x10D40) 8)

/-! ### Queued writes (R238, R289, R315, R341, R386) -/

/-- R318, R341, R386: a queued write whose time has come is performed, and at POD scope its line is written back: a store's bytes, a
reduction's contribution, or a flag's increment.
The bytes of a store to plain memory take the stored bits under their enables, and every other byte reads as before. -/
def Obligations.QueuedWritesArePerformed : Prop :=
  ∀ (s : State) (e : WqEntry), (s.wq.find? fun x => x.n = e.n) = some e → s.entryReady e = true →
    let u : State := { s with wq := s.wq.filter fun x => x.n ≠ e.n }
    let backed := fun t : State => if e.mods.scope = 5 then t.cleanLines fun l => l = e.pa / 64 else t
    (∀ cells, e.op = .store cells → e.face = false → e.flag = none → u.portError e.vf e.va e.pa = none →
      exec (.writeQueueApply e.n) s = .next (backed (u.performWrite e.pa cells e.mods.cache))) ∧
    (∀ cells, e.op = .store cells → e.face = true → exec (.writeQueueApply e.n) s = .next (u.modQuad e.quad fun q => q.faceStore e.pa cells)) ∧
    (∀ i w o v n, e.op = .reduce i w [(o, [v])] n → u.portError e.vf e.va e.pa = none → badIn s.memBad (e.pa + o) (w / 8) = false →
      exec (.writeQueueApply e.n) s = .next
        (backed ((u.engineMeets (accessOf e.vf e.g) (e.pa + o) (w / 8)).performWrite (e.pa + o)
          (cellsOf (redStep i w (s.readLe (e.pa + o) (w / 8)) v) (w / 8)) e.mods.cache))) ∧
    (∀ b, e.op = .increment b → u.portError e.vf e.va e.pa = none →
      exec (.writeQueueApply e.n) s = .next (u.incrementFlag e.vf e.g e.pa b e.mods.scope)) ∧
    (∀ cells, e.op = .store cells → e.face = false → e.flag = none → memWf s.mem = true → s.cache = [] → tierOf e.pa < 4 →
      (∀ t n, tget {} (s.tower t).trigs n = {}) → ∃ t, exec (.writeQueueApply e.n) s = .next t ∧
        (∀ a, (∀ c ∈ cells, a ≠ e.pa + c.off) → byteAt t.mem a = byteAt s.mem a) ∧
        ((cells.map (·.off)).Nodup → ∀ c ∈ cells,
          byteAt t.mem (e.pa + c.off) = (byteAt s.mem (e.pa + c.off) &&& ~~~c.en) ||| (c.val &&& c.en)) ∧
        t.ctxs = s.ctxs ∧ t.quads = s.quads ∧ t.cache = [])

/-! ### Engines at work (R188-R190, R272, R273, R280, R286-R293, R329-R331) -/

/-- R188-R190, R272, R280, R312, R345: the copy engine takes the head of its queue once its tokens are complete, for one tick and one
more for every 128 bytes at least; a command that has done its work ends; a fault holds it at its restart point and reaches the Dealer.
The remote engine dispatches pool commands, `rld` and `rst`, and ends a command that can end; a response is noted, a failed one as
PEER_FAIL; and a conditional buffer takes the selected rows of a push and gives its first rows to a pop: as many as a tile holds, no
further than the first mark, with the mask of their valid elements and their shape. A command whose writes meet a full port waits. The
model's choices: the ticks that a command takes beside one for every 128 bytes (log entry 3), and when a held command leaves the engine (log
entry 38). -/
def Obligations.EnginesTakeAndEndCommands : Prop :=
  ∀ (s : State),
    (∀ q k rest, (s.quad q).copyRun = none → (s.quad q).copyHeld = [] → (s.quad q).copyq = k :: rest → s.ready k = true →
      s.engineOpen (3264 + q) k = true → k.started = false → (∀ o, k.instr ≠ .sbind o) →
      ∃ k', exec (.copyEngineDispatch q) s = .next
          (((s.setQuad q { s.quad q with copyq := rest }).startReads k).modQuad q fun x => { x with copyRun := some k' }) ∧
        k'.instr = k.instr ∧ k'.tok = k.tok ∧ k'.serial = k.serial ∧ k'.at' = s.tick ∧ s.tick + 1 + (k'.toMove + 127) / 128 ≤ k'.due) ∧
    (∀ q k, (s.quad q).copyRun = some k → k.due ≤ s.tick → (s.work k).fault = none → (s.work k).room = true → k.flag.all s.portRoom = true →
      exec (.copyCommandEnd q) s = .next ((s.work k).finish.modQuad q fun x => { x with copyRun := none })) ∧
    (∀ q k, (s.quad q).copyRun = some k → (s.work k).room = false ∨ k.flag.all s.portRoom = false →
      exec (.copyCommandEnd q) s = .next s ∧ exec (.engineTranslationFault (.copy q)) s = .next s) ∧
    (∀ q k code va point, (s.quad q).copyRun = some k → k.due ≤ s.tick → (s.work k).room = true → k.flag.all s.portRoom = true →
      (s.work k).fault = some (code, va, point) →
      ∃ t, exec (.engineTranslationFault (.copy q)) s = .next t ∧ (t.quad q).copyRun = none ∧
        (∃ h ∈ (t.quad q).copyHeld, h.serial = (s.work k).k.serial ∧ h.held = some code ∧ h.point = point) ∧
        ∃ n ∈ t.dealer.notes, n.kind = 1 ∧ n.code = code ∧ n.addr = va) ∧
    (∀ c k, s.remoteReady c = some k → isPool k.instr = true ∨ (∃ o, k.instr = .rld o ∨ k.instr = .rst o) →
      ∃ k', exec (.remoteEngineDispatch c) s =
          .next ((s.modCore c fun x => { x with remq := x.remq.tail }).modCore c fun x => { x with remLoose := x.remLoose ++ [k'] }) ∧
        k'.instr = k.instr ∧ k'.serial = k.serial ∧ k'.started = true ∧ k'.at' = s.tick ∧ s.tick < k'.due) ∧
    (∀ c n k, s.looseAt c n = some k → s.canEnd k = true → exec (.remoteCommandEnd c n) s =
      .next (State.finishLoose (s.modCore c fun x => { x with remLoose := x.remLoose.filter fun h => h.serial ≠ n }) k)) ∧
    (∀ m k, s.answers m = some k → exec (.ualinkResponse m) s =
      .next (s.setLoose m.c { k with rsp := some (if m.failed then 0x22 else 0, 0, 0) })) ∧
    (∀ c k, s.pushReady c = some k → ∃ t, exec (.cspushAccept c) s = .next t ∧
      let old := tget {} (s.quad (c / 4)).cond k.point
      let new := tget {} (t.quad (c / 4)).cond k.point
      new.key = old.key ∧ new.recs = old.recs ++ k.pushRows ∧
        new.marks = if k.flag.isSome then old.marks ++ [(old.recs ++ k.pushRows).length] else old.marks) ∧
    (∀ q b c k key, s.popReady q b = some (c, k, key) → ∃ t, exec (.cspopDelivery q b) s = .next t ∧
      let old := tget {} (s.quad q).cond b
      let n := Nat.min (keyRows key) (old.marks.headD old.recs.length)
      (tget {} (t.quad q).cond b).key = old.key ∧ (tget {} (t.quad q).cond b).recs = old.recs.drop n) ∧
    (∀ q b c k cols vcols w d e f, s.popReady q b = some (c, k, cols, vcols, w) → k.dest = [d, e, f] →
      let old := tget {} (s.quad q).cond b
      let nr := 4096 / (cols * w)
      let n := Nat.min nr (old.marks.headD old.recs.length)
      let marks := (if old.marks ≠ [] ∧ n = old.marks.headD 0 then old.marks.tail else old.marks).map fun m => m - n
      ∃ (tile : Tile) (mask : MaskReg), exec (.cspopDelivery q b) s = .next
          (((s.modCore c fun x => { x with remq := x.remq.tail }).modQuad q fun x =>
            { x with cond := tset {} x.cond b { old with recs := old.recs.drop n, marks := marks } }).endCmd k
          [(d, tile, allBits (cols * w * n)), (e, mask.setWidth 4096, allBits 1024),
           (f, BitVec.ofNat 4096 (nr + cols * 2 ^ 11 + n * 2 ^ 22 + vcols * 2 ^ 33), allBits 64)] 0 false) ∧
        ((∀ r ∈ old.recs.take n, r < 2 ^ (cols * w)) → ∀ i < n, i < old.recs.length →
          (tile.extractLsb' (cols * w * i) (cols * w)).toNat = old.recs.getD i 0) ∧
        ∀ i < 1024, mask.getLsbD i = decide (i / cols < n ∧ i % cols < vcols))

/-- R56, R259, R272, R293, R329-R332, R341: the engine of an input stream that has a buffer free and a tile left reads the elements of its next
tile in order: FILL where the shape masks the element, at a pad and outside the view, which is counted, and else the bits that stand at
its address. Its first tile lands in a free register. An output stream's engine takes the tile of its register, and writes the first
tile that it has taken, that of a saved context too, element by element, nothing where the shape masks one, at a pad or outside the view,
once the ports have room; at POD scope every dirty line is written back. An element that meets a fault holds the stream at its tile, and the
Dealer hears of it. A stream that is over ends: its slot is unbound and holds no tile. The model's choices: that a stream accesses memory with
CACHE 0, and the POINT and restart tile of its fault (log entry 40). -/
def Obligations.StreamsMoveTiles : Prop :=
  (∀ (k : Cmd) (l : Layout) (h : VShape) (tile i : Nat) (a : TileAcc), a.fault = none → let b := a.fetch k l h tile i
    (h.valid i = false → b = { a with vals := a.vals ++ [l.fillBits] }) ∧
    (h.valid i = true → l.tileElem h tile i = none → b = { a with vals := a.vals ++ [l.fillBits], oob := a.oob + 1 }) ∧
    (∀ x, h.valid i = true → l.tileElem h tile i = some x → l.stored x = none → b = { a with vals := a.vals ++ [l.fillBits] }) ∧
    (∀ x y p, h.valid i = true → l.tileElem h tile i = some x → l.stored x = some y →
      a.s.xlate k.vf (byteOf (l.bitAddr y)) true false 0 = .ok p → a.s.accessError p = none → tierOf p.pa < 4 → k.g < 3072 →
      b.vals = a.vals ++ [a.s.readElem p.pa (l.bitAddr y) l.w] ∧ b.oob = a.oob ∧ b.fault = none) ∧
    (∀ x y p e, h.valid i = true → l.tileElem h tile i = some x → l.stored x = some y →
      a.s.xlate k.vf (byteOf (l.bitAddr y)) true false 0 = .ok p → a.s.accessError p = some e →
      b = { a with vals := a.vals ++ [2 ^ l.w - 1], errs := e :: a.errs }) ∧
    (∀ x y c e va m, h.valid i = true → l.tileElem h tile i = some x → l.stored x = some y →
      a.s.xlate k.vf (byteOf (l.bitAddr y)) true false 0 = .error (.fault c e va m) →
      b = { a with fault := some (c, byteOf (l.bitAddr y)) })) ∧
  (∀ (k : Cmd) (l : Layout) (h : VShape) (tile i : Nat) (data : Tile) (a : TileAcc), a.fault = none → let b := TileAcc.put k l h tile data a i
    (h.valid i = false → b = a) ∧
    (h.valid i = true → l.tileElem h tile i = none → b = { a with oob := a.oob + 1 }) ∧
    (∀ x, h.valid i = true → l.tileElem h tile i = some x → l.stored x = none → b = a) ∧
    (∀ x y p, h.valid i = true → l.tileElem h tile i = some x → l.stored x = some y →
      a.s.xlate k.vf (byteOf (l.bitAddr y)) false true 0 = .ok p → a.s.accessError p = none →
      b.s = (a.s.fillWalkFor k.vf k.g p).portWrite p.pa (elemCells (l.bitAddr y) l.w (elem l.w data i)) 0 ∧ b.fault = none ∧
        b.room = (a.room && a.s.portRoom p.pa)) ∧
    (∀ x y p e, h.valid i = true → l.tileElem h tile i = some x → l.stored x = some y →
      a.s.xlate k.vf (byteOf (l.bitAddr y)) false true 0 = .ok p → a.s.accessError p = some e → b = { a with errs := e :: a.errs })) ∧
  ∀ (s : State) (g n : Nat),
    let t := s.slotStream g n
    let k := s.streamCmd g t
    (∀ l h w, t.walk = some (l, h, w) → t.bound = true → t.held = false → t.due ≤ s.tick →
      (savedSlot g = none → t.out = false → t.unbinding = 0 → (s.ctx g).stop ≠ .preempting → t.tiles.length < 4 → t.next < t.total →
        s.streamNext g n = some ((List.range (elems w)).foldl (TileAcc.fetch k l h t.next) { s := s })) ∧
      (∀ i data rest, t.out = true → t.tiles = (i, data) :: rest →
        let a := ((List.range (elems w)).foldl (TileAcc.put k l h i data) { s := s }).done
        (a.room = true → s.streamNext g n = some a) ∧ (a.room = false → s.streamNext g n = none))) ∧
    (∀ a, s.streamNext g n = some a → t.out = false → a.fault = none → ∃ u, exec (.streamTileFetch g n) s = .next u ∧
      let t' := u.slotStream g n
      t'.tiles = t.tiles ++ [(t.next, packTile ((t.walk.map fun x => x.2.2).getD 8) a.vals)] ∧ t'.next = t.next + 1 ∧
        t'.passed = t.passed ∧ t'.oob = t.oob + a.oob) ∧
    (∀ i data rest, s.canLand g n = true → t.tiles = (i, data) :: rest → ∃ u, exec (.streamTileLand g n) s = .next u ∧
      (u.slotStream g n).rfull = true ∧ (u.slotStream g n).tiles = rest ∧
        (t.cluster = false → (u.ctx g).va = tset 0 (s.ctx g).va t.reg data ∧ (u.ctx g).vb = (s.ctx g).vb) ∧
        (t.cluster = true → (u.ctx g).vb = tset 0 (s.ctx g).vb t.reg data ∧ (u.ctx g).va = (s.ctx g).va) ∧
        (u.ctx g).sreg = (s.ctx g).sreg ∧ u.mem = s.mem) ∧
    (s.canTake g n = true → ∃ u, exec (.streamTileTake g n) s = .next u ∧
      let t' := u.slotStream g n
      t'.rfull = false ∧ t'.passed = t.passed + 1 ∧
        t'.tiles = t.tiles ++ [(t.passed, (s.ctx g).tile (if t.cluster then .b else .a) t.reg)] ∧ u.mem = s.mem) ∧
    (∀ a, s.canTake g n = false → s.streamNext g n = some a → t.out = true → a.fault = none → ∃ u, exec (.streamTileTake g n) s = .next u ∧
      (u.slotStream g n).tiles = t.tiles.drop 1 ∧ (u.slotStream g n).passed = t.passed ∧
        (savedSlot g = none → u.mem = (if t.scope = 5 then a.s.cleanLines fun _ => true else a.s).mem)) ∧
    (∀ a code va, s.streamNext g n = some a → a.fault = some (code, va) →
      ∃ u, exec (.engineTranslationFault (.stream g n)) s = .next u ∧ (u.slotStream g n).held = true ∧
        ∃ x ∈ u.dealer.notes, x.kind = 1 ∧ x.code = code ∧ x.g = ownerSlot g ∧ x.addr = va ∧
          x.point = if t.out then (t.tiles.head?.map (·.1)).getD t.next else t.next) ∧
    (s.streamOver g n = true → ∃ u, exec (.streamEnd g n) s = .next u ∧ (u.slotStream g n).bound = false ∧ (u.slotStream g n).tiles = [])

/-! ### The cube at work (R196, R199, R204-R206, R215-R230, R369) -/

/-- R89-R91, R196, R199, R205-R230, R369: the cube at work. It dispatches the head of its queue once its layers are idle and its tokens
complete; a product runs for 80 ticks and one more for every 8 bits of the wider operand. A product's end writes the valid rows and
columns of its target and nothing else: integer sums modulo 2^32, floating sums position by position and then layer by layer from the
highest, block-scaled ones in groups of eight. `cswap` exchanges the named phases, `cwracc` writes two rows, `crdacc` reads two, with
the steps completed; `cdrain` with JOIN gives SKEW and LASTL; `csmeta` and `cseq` load their tables, an invalid sequencer table as none;
`ckat` compares its signature and counts a mismatch; and `cbist` leaves what it tests zero. A stop request leaves stop records with
restart points; a recovery takes the accumulators back from their shadows. A layer's sequencer holds a WAIT until its condition does
and then takes the transition that COND picks. A plane product and a `cplane` join the queues of their layers, and a product whose headers
fail its check ends with code 1. The model's choices: a WAIT tests COND on the counters before COP, and JOIN alone clears the finish ticks
(log entry 49); a stop in the fill part keeps the restart point (log entry 50); and the ticks of `csmeta` and `cseq` (log entry 47). -/
def Obligations.CubeRunsItsCommands : Prop :=
  (∀ (s : State) y k lmask pl a b r, s.planRun y k lmask pl a b = some r → r.ticks = 0 ∧ r.start = s.tick ∧ r.total = 80 + r.steps ∧
    r.wid = max (hdrWidth r.hw) (hdrWidth r.hs) ∧ (isSparse k.instr = false → r.steps = (r.q * r.wid + 7) / 8)) ∧
  (∀ (r : CubeRun) (y : Quad),
    (vmOf r.cmd.shape ≤ 64 → vnOf r.cmd.shape ≤ 64 → ∀ t m n, m < 64 → n < 64 → tget 0 (r.accumulate y).acc (accKey t m n) =
      if t = r.target ∧ m < vmOf r.cmd.shape ∧ n < vnOf r.cmd.shape then r.word y r.q m n else tget 0 y.acc (accKey t m n)) ∧
    (∀ m n, m < vmOf r.cmd.shape → n < vnOf r.cmd.shape →
      let base := if r.zero then 0 else (tget 0 y.acc (accKey r.target m n)).toNat
      (r.integer = false → r.word y r.q m n =
        BitVec.ofNat 32 (r.combine base (r.layers.zipIdx.map fun e => (r.cell y r.q e.2 e.1 m n).1).reverse)) ∧
      (r.integer = true → r.scaled = false → r.point = 0 → r.part = [] → r.word y r.q m n = BitVec.ofNat 32 (base +
        (r.layers.zipIdx.map fun e => ((List.range r.q).map fun j =>
          if r.base e.2 + j < vkOf r.cmd.shape then r.west y e.2 e.1 m j * (r.south y e.1 n j).getD 0 else 0).sum).sum))) ∧
    (∀ upto i l m n, r.integer = false → r.scaled = false → r.point = 0 → r.part = [] →
      (r.cell y upto i l m n).1 = (List.range upto).foldl (fun p j =>
        match (if r.base i + j < vkOf r.cmd.shape then r.south y l n j else none) with
        | some b => rne32 ((f32 p).add ((f32 (r.west y i l m j)).mul (f32 b)))
        | none => p) 0) ∧
    (∀ i l m n (b : Nat → Nat), r.scaled = true → r.point = 0 → r.part = [] → r.open' = [] → 8 ≤ r.q → r.base i + 8 ≤ vkOf r.cmd.shape →
      (∀ j < 8, r.south y l n j = some (b j)) → (r.cell y 8 i l m n).1 = rne32 ((f32 0).add (f32 (rne32
        (((List.range 8).foldl (fun (t : FVal) j => t.add ((f32 (r.west y i l m j)).mul (f32 (b j)))) (.fin false 0 0)).mul
          ((r.scale y l 0 m 7).mul (r.scale y l 1 n 7))))))) ∧
    (∀ base p ps, r.integer = false → let t := ps.foldl (fun t p => rne32 ((f32 t).add (f32 p))) p
      r.combine base (p :: ps) =
        rne32 ((f32 base).add (f32 (match r.tensor with | some k => rne32 ((f32 t).mul k) | none => t))))) ∧
  (∀ (k : Cmd) (word : Nat → Nat → BitVec 32) (i : Nat), i < 128 →
    elem 32 (k.readRows word) i = (word (2 * bits k.sa.toNat 4 0 + i / 64) (i % 64)).toNat) ∧
  (∀ (y : Quad) (lmask : Nat), let fs := (layersOf lmask).filterMap fun l => (tget none y.fin l).map fun f => (l, f)
    (fs = [] → y.joinWord lmask = lmask * 2 ^ 40) ∧
    (fs ≠ [] → ∃ top ∈ fs, ∃ low ∈ fs, (∀ e ∈ fs, e.2 ≤ top.2 ∧ low.2 ≤ e.2 ∧ (e.2 = top.2 → top.1 ≤ e.1)) ∧
      y.joinWord lmask = (top.2 - low.2) % 2 ^ 32 + top.1 * 2 ^ 32 + lmask * 2 ^ 40)) ∧
  ∀ (s : State) (q : Nat),
    let x := s.quad q
    (∀ k rest, x.redo = [] → x.stops = [] → x.parked = [] → x.cmdq = k :: rest → x.takes k = true → s.ready k = true →
      s.engineOpen (3072 + q) k = true → k.started = false →
      let logged := { x with cmdq := rest, log := x.log ++ [(k, 255, false)], undone := x.undone.filter fun e => e.1 ≠ k.serial }
      let run : CubeRun := { cmd := k, start := s.tick }
      (∀ o, k.instr = .cswap o → exec (.cubeCommandDispatch q) s =
        .next (s.setQuad q { logged with runs := x.runs ++ [{ run with lmask := lmaskOf k.sa, total := 2 }] })) ∧
      (∀ o, k.instr = .ckat o → exec (.cubeCommandDispatch q) s =
        .next (s.setQuad q { logged with runs := x.runs ++ [{ run with lmask := 2 ^ bits k.sa.toNat 34 32, total := 144 }] })) ∧
      (∀ o r, k.instr = .cmm o ∨ k.instr = .cmmz o → o.d.getLsbD 2 = false →
        s.planRun logged k (lmaskOf k.sa) none (bits k.sa.toNat 17 0) (bits k.sa.toNat 41 24) = some r →
        exec (.cubeCommandDispatch q) s = .next (s.setQuad q { logged with runs := x.runs ++ [r] })) ∧
      (∀ o, k.instr = .cconv o ∨ ((k.instr = .cmm o ∨ k.instr = .cmmz o) ∧ o.d.getLsbD 2 = false) →
        let plan := s.planRun logged k (lmaskOf k.sa) none (bits k.sa.toNat 17 0) (bits k.sa.toNat 41 24)
        (∀ r, plan = some r → exec (.cubeCommandDispatch q) s = .next (s.setQuad q { logged with runs := x.runs ++ [r] })) ∧
        (plan = none → exec (.cubeCommandDispatch q) s = .next ((s.setQuad q logged).endCmd { k with errs := [1] } [] 0 false))) ∧
      (∀ o, k.instr = .cplane o ∨ ((k.instr = .cmm o ∨ k.instr = .cmmz o) ∧ o.d.getLsbD 2 = true) → let m := lmaskOf k.sa
        (m = 0 → exec (.cubeCommandDispatch q) s = .next ((s.setQuad q logged).endCmd k [] 0 false)) ∧
        (m ≠ 0 → ∃ pq, exec (.cubeCommandDispatch q) s = .next (s.setQuad q { logged with planeq := pq, planes := x.planes ++ [(k, m)] }) ∧
          ∀ l < 8, tget [] pq l = tget [] x.planeq l ++ if bit m l then [k.serial] else [])) ∧
      (∀ o, k.instr = .cwracc o → exec (.cubeCommandDispatch q) s =
        .next (s.setQuad q { logged with runs := x.runs ++ [{ run with lmask := k.touches, total := 8 }] })) ∧
      (∀ o, k.instr = .cdrain o → exec (.cubeCommandDispatch q) s = .next (s.setQuad q { logged with runs := x.runs ++ [run] })) ∧
      (∀ o, k.instr = .csmeta o ∨ k.instr = .cseq o → ∃ n, exec (.cubeCommandDispatch q) s =
        .next (s.setQuad q { logged with runs :=
          x.runs ++ [{ run with cmd := { k with asked := s.tick }, lmask := lmaskOf k.sa, total := n + 1 }] })) ∧
      (∀ o, k.instr = .cbist o → exec (.cubeCommandDispatch q) s = .next (s.setQuad q { logged with runs := x.runs ++
        [{ run with lmask := 255, total := match bits k.sa.toNat 1 0 with | 0 => 2048 | 1 => 33024 | _ => 512 }] }))) ∧
    (∀ l k, x.planeHead l = some k → exec (.planeLayerStart q l) s = .next (s.planeStart q l k)) ∧
    (∀ l r, x.planeEnded l = some r → x.badRead = none → exec (.planeLayerEnd q l) s = .next (s.planeEnd q l r) ∧
      (r.product = true → ((s.planeEnd q l r).quad q).acc = (r.accumulate x).acc)) ∧
    (∀ n r, x.ended n = some r → x.badRead = none → exec (.cubeCommandEnd q n) s = .next (s.cubeEnd q r) ∧
      let k := r.cmd
      let y := (s.cubeEnd q r).quad q
      let dropped := s.modQuad q fun x =>
        { x with runs := x.runs.filter fun t => !(t.cmd.serial = k.serial && t.plane = r.plane)
                 log := x.log.map fun e => if e.1.serial = k.serial then (e.1, e.2.1, true) else e }
      (r.product = true → y.acc = (r.accumulate x).acc) ∧
      (∀ o, k.instr = .cswap o → ∀ l < 8, ∀ f < 2, let named := bit (lmaskOf k.sa) l && bit k.sa.toNat (24 + f)
        facePhase y l f false = (if named then 1 - facePhase x l f false else facePhase x l f false) ∧
          (named = true → tget resetHdr y.hdr (hdrKey l f (facePhase x l f false)) = resetHdr)) ∧
      (∀ o, k.instr = .cwracc o → let g := selTarget k.sb.toNat
        let rp := bits k.sb.toNat 4 0
        (∀ i < 128, tget 0 y.acc (accKey g (2 * rp + i / 64) (i % 64)) = BitVec.ofNat 32 (elem 32 k.td i)) ∧
        ∀ a, (∀ i < 128, a ≠ accKey g (2 * rp + i / 64) (i % 64)) → tget 0 y.acc a = tget 0 x.acc a) ∧
      (∀ o, k.instr = .cdrain o → let w := x.joinWord (lmaskOf k.sa)
        (o.d.getLsbD 0 = true → y.join = BitVec.ofNat 64 w ∧ y.fin = []) ∧ (o.d.getLsbD 0 = false → y.join = x.join ∧ y.fin = x.fin) ∧
          ∃ u : State, s.cubeEnd q r = u.endCmd k [] w true) ∧
      (∀ o t v, k.instr = .csmeta o → cubeRead k k.sb (32 * (layersOf (lmaskOf k.sa)).length) dropped = (t, some v) →
        ∀ e ∈ (layersOf (lmaskOf k.sa)).zipIdx, tget 0 y.smeta (32 * e.1 + bits k.sa.toNat 4 0) = BitVec.ofNat 256 (v >>> (256 * e.2))) ∧
      (∀ o t v, k.instr = .cseq o → let n := bits k.sa.toNat 5 0 + 1
        cubeRead k k.sb (16 * n) dropped = (t, some v) → ∀ l ∈ layersOf (lmaskOf k.sa),
          ((∀ i < n, seqOk n (bits v (128 * i + 127) (128 * i)) = true) → tget 0 y.slen l = n ∧
            ∀ i < 64, tget 0 y.stab (64 * l + i) = if i < n then BitVec.ofNat 128 (v >>> (128 * i)) else 0) ∧
          (∀ i < n, seqOk n (bits v (128 * i + 127) (128 * i)) = false → tget 0 y.slen l = 0)) ∧
      (∀ o, k.instr = .ckat o → let l := bits k.sa.toNat 34 32
        let sig := katSig (bits k.sa.toNat 31 0)
        (sig = k.sb.toNat → s.cubeEnd q r = dropped.endCmd k [] sig true ∧ y.katerr = x.katerr) ∧
        (sig ≠ k.sb.toNat → tget 0 y.katerr l = satAdd 16 (tget 0 x.katerr l) 1 ∧
          ∃ u : State, s.cubeEnd q r = u.endCmd { k with errs := [4] } [] sig true)) ∧
      (∀ o, k.instr = .cbist o → let m := lmaskOf k.sa
        y.bistres &&& m = y.bistres ∧ (∀ g < 4, ∀ m < 64, ∀ n < 64, tget 0 y.acc (accKey g m n) = 0) ∧
          ∀ l ∈ layersOf m, tget 0 y.slen l = 0 ∧ (∀ a < 2 ^ 20, byteAt y.face (2 ^ 20 * l + a) = 0) ∧
            (∀ h < 4, tget resetHdr y.hdr (4 * l + h) = 0) ∧ (∀ m < 64, ∀ n < 64, tget 0 y.acc (accKey (4 + l) m n) = 0) ∧
            (∀ i < 32, tget 0 y.smeta (32 * l + i) = 0) ∧ ∀ i < 64, tget 0 y.stab (64 * l + i) = 0)) ∧
    (∀ g, quadOf g = q → (s.ctx g).stop = .preempting ∨ (s.ctx g).stop = .slipped → x.toStop g = true →
      exec (.cubeCommandStop g) s = .next (s.stopCube g) ∧ ∀ r ∈ x.runs, r.stops g = true → r ∉ ((s.stopCube g).quad q).runs ∧
        ∃ z ∈ ((s.stopCube g).quad q).stops, z.target = r.target ∧ z.run.point = if r.ticks < 8 then r.point else r.done') ∧
    (∀ l f, x.badRead = some (l, f) → exec (.cubeRecovery q l f) s = .next (s.recover q l f) ∧
      ∀ g ∈ [0, 1, 2, 3, 4 + l], ∀ m < 64, ∀ n < 64,
        tget 0 ((s.recover q l f).quad q).acc (accKey g m n) = tget 0 x.shadow (accKey g m n)) ∧
    (∀ was k o, k.instr = .crdacc o → k.started = false → s.ready k = true → k.due = 0 → k.count = 0 → let t := selTarget k.sa.toNat
      let z := (s.readStep was x k).2
      (∀ r, (x.stops.find? fun r => r.target = t) = some r →
        z.td = k.readRows (r.run.word x r.run.snapPoint) ∧ z.sum = r.run.point ∧ z.due = s.tick + 72) ∧
      ((x.stops.find? fun r => r.target = t) = none → (x.runs.find? fun r => r.product && r.writes = some t) = none →
        z.td = k.readRows (x.accWord t) ∧ z.sum = 2 ^ 64 - 1 ∧ z.due = s.tick + 8) ∧
      (∀ r, (x.stops.find? fun r => r.target = t) = none → (x.runs.find? fun r => r.product && r.writes = some t) = some r →
        r.wasDrained was = false → r.reached was = true → r.snapAt = true →
        z.td = k.readRows (r.word x r.done') ∧ z.sum = r.done' ∧ z.due = s.tick + 72)) ∧
    (∀ n k o d e, s.readDue q n = some k → k.instr = .crdacc o → k.dest = [d, e] → exec (.cubeReadEnd q n) s =
      .next ((s.setQuad q { x with reads := x.reads.filter fun h => h.serial ≠ k.serial }).endCmd { k with sum := 0 }
        [(d, k.td, allBits 4096), (e, BitVec.ofNat 4096 k.sum, allBits 64)] 0 false)) ∧
    (∀ n k o d, s.readDue q n = some k → k.instr = .cstat o → k.dest = [d] → exec (.cubeReadEnd q n) s =
      .next ((s.setQuad q { x with reads := x.reads.filter fun h => h.serial ≠ k.serial }).endCmd k
        [(d, BitVec.ofNat 4096 (x.status k.sa.toNat), allBits 64)] 0 false)) ∧
    (∀ l, x.seqDue l = true →
      let z := x.seq l
      let e := x.entry l
      let go := fun n : Nat => (s.setQuad q (x.setSeq l { z with c := seqCount e z.c, state := n, acted := false, ticks := 0 })).seqEnter q l
      (bits e 1 0 = 2 → x.seqCond l e z.c = false → exec (.sequencerTransition q l) s = .next (s.setQuad q (x.setSeq l { z with ticks := 0 }))) ∧
      (bits e 1 0 = 2 → x.seqCond l e z.c = true → exec (.sequencerTransition q l) s = .next (go (bits e 17 12))) ∧
      (bits e 1 0 ≠ 2 → exec (.sequencerTransition q l) s =
        .next (go (if x.seqCond l e (seqCount e z.c) then bits e 17 12 else bits e 23 18)))) ∧
    (∀ keep, ∀ l < 8, ∀ f < 2, facePhase (x.swap [f] (2 ^ l) keep) l f false = 1 - facePhase x l f false ∧
      ∀ m < 8, ∀ h < 2, (m, h) ≠ (l, f) → facePhase (x.swap [f] (2 ^ l) keep) m h false = facePhase x m h false)

/-! ### Timetables, leases, barriers and Deck stages (chapter 12) -/

/-- R15-R20, R26-R33, R47, R113, R336, R337, R348, R358-R360, R380-R383: timetables at work. A free lease goes, as a tick begins, to the
request that comes first in the rotation of cores and contexts, with a fresh run. A run that its holder ended, or that has reached a
limit, frees the lease once its commands have dispatched; at a limit a holder that still runs asks again. A planned run takes its
holder. A stage goes to the first in line for its state. A complete barrier steps GEN. A missing arrival slips at the deadline. A
communication step ends with the open table and the next Trick; in a RIGID phase each engine with a transfer left over slips. A
launch's first phase is prepared with its tags, and armed at a base tick that is a multiple of 64 and not past; an image that passes is
placed, with its codebooks, and one that fails kills its launch with STATUS 2. An armed engine that is ready starts, a context with the
entry values of R47; a RIGID one that is not ready when its tick ends slips. A launch that has ended leaves, its tags free. The model's
choices: a grant comes before the first attempt of a tick, a run ends once the commands that its holder brought from a stop have dispatched
too, and a holder that a limit cut off asks again (log entry 51); a missing arrival is judged at the end of the tick, with a record for each
party (log entry 31); and the base tick, free among the multiples of 64, with the tags' parties set as a phase starts (log entry 30). -/
def Obligations.TimetablesRun : Prop :=
  ∀ (s : State),
    (∀ q h, (s.quad q).lease.holder = none → s.tried = [] → h ∈ (s.quad q).lease.reqs → h < 16 →
      let l := (s.quad q).lease
      let rank := fun j : Nat => (j / 4 + 3 - l.lastCore % 4) % 4 * 4 + (j % 4 + 3 - tget 3 l.lastK (j / 4) % 4) % 4
      (∀ j ∈ l.reqs, j < 16 → rank h ≤ rank j) →
      ∃ t, exec (.leaseGrant q) s = .next t ∧ (t.quad q).lease.holder = some h ∧ (t.quad q).lease.count = 0 ∧
        (t.quad q).lease.grant = s.tick ∧ (t.quad q).lease.ended = false ∧ (t.quad q).lease.reqs = l.reqs.filter (· ≠ h) ∧
        (t.quad q).lease.lastCore = h / 4 ∧ tget 3 (t.quad q).lease.lastK (h / 4) = h % 4) ∧
    (∀ q h, let x := s.quad q
      x.lease.holder = some h → s.inRigid (16 * q + h) = false → (∀ k ∈ x.cmdq, k.g ≠ 16 * q + h) →
      (∀ k ∈ x.copyq, k.g = 16 * q + h → ∀ o, k.instr ≠ .cfill o) →
      (∀ k ∈ x.reads, k.g = 16 * q + h → (∃ o, k.instr = .crdacc o) → k.started = true) →
      (∀ r ∈ x.stops, r.run.cmd.g ≠ 16 * q + h) → (∀ k ∈ x.parked, k.g ≠ 16 * q + h) →
      (x.lease.ended = true → exec (.leaseRunEnd q) s =
        .next (s.setQuad q { x with lease := { x.lease with holder := none, ended := false } })) ∧
      (x.lease.ended = false → x.lease.room s.tick = false → exec (.leaseRunEnd q) s =
        .next (s.setQuad q { x with lease := { x.lease with
          holder := none, ended := false
          reqs := x.lease.reqs ++ if (s.ctx (16 * q + h)).alive && !x.lease.reqs.contains h then [h] else [] } }))) ∧
    (∀ q l e, s.leaseDue q = some (l, e) → l.t0 + e.start ≤ s.tick ∧ ∃ t, exec (.leaseChange q) s = .next t ∧
      (t.quad e.quad).lease.holder = some (4 * e.core + e.k) ∧ (t.quad e.quad).lease.count = 0 ∧ (t.quad e.quad).lease.grant = s.tick) ∧
    (∀ t n g b u, let st := tget {} (s.tower t).deck n
      (st.inOrder.find? fun x => x.2.1 = st.full && (s.ctx x.1).state ≠ 0) = some (g, b, u) → st.owned = false → st.flipped ≠ some s.tick →
      ∃ v, exec (.stacqGrant t n) s = .next v ∧ let st' := tget {} (v.tower t).deck n
        st'.owned = true ∧ st'.owner = g ∧ st'.full = st.full ∧ st'.line = st.inOrder.filter fun x => x.1 ≠ g) ∧
    (∀ n u, (s.bar n).doneAt = some u → u ≤ s.tick → (∀ l, s.launch (s.bar n).launch = some l → l.st ≠ .stopped) → ∃ t, exec (.barrierCompletion n) s = .next t ∧
      t.bars = tset {} s.bars n { s.bar n with gen := ((s.bar n).gen + 1) % 2 ^ 16, arrived := 0, heldB := false, doneAt := none }) ∧
    (∀ n l p, s.deadline n = some (l, p) → s.tickDone = true → ∃ t, exec (.plannedCompletionDeadline n) s = .next t ∧
      t.dealer.notes.length = s.dealer.notes.length + (s.missing l p n).length ∧ ∀ x ∈ t.dealer.notes, x ∈ s.dealer.notes ∨ x.code = 0x0D) ∧
    (∀ id l p k u, s.commDue id = some (l, p, k, u) →
      let v := (s.setBank l 4).modLaunch l.id fun l => { l with commEnd := none, trick := l.trick + 1 }
      (p.elastic = true → exec (.commStepEnd id) s = .next v) ∧
      (p.elastic = false → ∃ t, exec (.commStepEnd id) s = .next t ∧
        t.dealer.notes.length = s.dealer.notes.length + (v.lateUnits l k u).length ∧ ∀ x ∈ t.dealer.notes, x ∈ s.dealer.notes ∨ x.code = 0x0D)) ∧
    (∀ id l p, s.launch id = some l → l.st = .running → l.phases[0]? = some p →
      (l.armed = 0 → s.delayed l = false → ∃ t, exec (.phaseArm id) s = .next t ∧ (∀ n ∈ l.tags, (t.bar n).owned = true ∧
        (t.bar n).launch = l.id ∧ (t.bar n).vf = l.vf ∧ (t.bar n).gen = (s.bar n).gen ∧ (t.bar n).arrived = 0) ∧
        ∃ l', t.launch id = some l' ∧ l'.armed = 1) ∧
      (l.armed ≠ 0 → l.timed = false → (p.images.all fun x => s.placed l x.1 x.2) = true → (∀ e ∈ p.engines, s.armFree e.unit = true) →
        (p.engines.map (·.unit)).Nodup → ∃ t base, exec (.phaseArm id) s = .next t ∧ base % 64 = 0 ∧ s.tick ≤ base ∧
          ∀ e ∈ p.engines, t.arm e.unit = { tick := base + e.start, armed := true, elastic := p.elastic })) ∧
    (∀ c l a, s.imageDue c = some (l, a) →
      (∀ f, s.readImage a = .ok f → ∃ t, exec (.imageLoad c) s = .next t ∧ (t.core' c).image = some f.image ∧ (t.core' c).badHalf = [] ∧
        (t.core' c).badEntry = [] ∧ (t.quad (c / 4)).book = f.image.books.foldl (fun t b => tset 0 t b.1 b.2) (s.quad (c / 4)).book) ∧
      (∀ r, s.readImage a = .error r → exec (.imageLoad c) s =
        .next ((s.modDealer fun d => { d with rejects := d.rejects ++ [r] }).killLaunch l.id 2))) ∧
    (∀ u l n p e, s.redoReady u = none → s.armed u = some (l, n, p, e) → e.unit = u → l.st = .running →
      (s.unitReady l n p e = true → ∃ t, exec (.engineArmTick u) s = .next t ∧ (t.arm u).started = true ∧
        (e.kind = 0 → (t.ctx u).pc = e.entry ∧ (t.ctx u).state = 1 ∧ (t.ctx u).stage = e.stage ∧
          (t.ctx u).vfid = l.vf ∧ (t.ctx u).largs = l.args ∧ (t.ctx u).launch = some l.id ∧ (t.ctx u).sreg = [] ∧ (t.ctx u).xreg = [] ∧
          (t.ctx u).va = [] ∧ (t.ctx u).vb = [] ∧ (t.ctx u).ma = [] ∧ (t.ctx u).mb = [] ∧ (t.ctx u).tk = [] ∧ (t.ctx u).evq = [] ∧
          (t.ctx u).memdef = 0 ∧ (t.ctx u).faultpt = 0 ∧ (t.ctx u).lp0 = 0 ∧ (t.ctx u).lp1 = 0)) ∧
      (s.unitReady l n p e = false → p.elastic = true → exec (.engineArmTick u) s = .next s) ∧
      (s.unitReady l n p e = false → p.elastic = false → s.tickDone = true → ∃ t, exec (.engineArmTick u) s = .next t ∧
        (t.arm u).slipped = true ∧ (t.arm u).started = false ∧ ∃ x ∈ t.dealer.notes, x.code = 0x0D ∧ x.launch = some l.id)) ∧
    (∀ id l, s.launch id = some l → s.retireDue l = true → ∃ t, exec (.launchRetire id) s = .next t ∧
      t.dealer.launches = (s.dealer.launches.filter fun m => m.id ≠ id) ∧
      ((∀ r ∈ s.dealer.resets, r.1 ≠ l.vf) → ∀ n ∈ l.tags, (s.bar n).launch = l.id → (t.bar n).owned = false))

/-! ### Governor, droop and scrub (R22, R24, R249, R399, R437) -/

/-- R22, R24, R249, R436, R437: a sample at a tick divisible by 8 takes the largest sensor of the layer, in thousandths of a degree, after
the change that the last sample asked for; it asks for the step that its threshold or its hysteresis gives, so that it falls below
the hysteresis, to the largest step whose threshold is met or to 0, and at another tick it does nothing. The steps change at a tick divisible by 8. A droop event takes one reading of the core voltage: the droop bit rises below
the threshold, and is counted, and falls at the recovery level. A scrub pass clears corrected words of its store and marks the uncorrectable
ones. The model's choices: temperatures in whole thousandths of a degree, and a change at the first tick divisible by 8 after that of its
sample (log entry 52). -/
def Obligations.GovernorDroopAndScrub : Prop :=
  ∀ (s : State),
    (∀ q l temps, (s.tick % 8 ≠ 0 → exec (.governorSample q l temps) s = .next s) ∧
      (s.tick % 8 = 0 → let u := if s.govDue q = [] then s else s.govChange q (s.govDue q)
        let x := u.quad q
        let cur := tget 0 x.gov l
        let n := govStep (u.tower (q / 48)).govcfg.toNat cur (hottest temps)
        exec (.governorSample q l temps) s =
          .next (u.setQuad q { x with govNext := tset 0 x.govNext l (if n = cur then 0 else 8 * (u.tick + 1) + n) }))) ∧
    (∀ temps, (∀ t ∈ temps, t ≤ hottest temps) ∧ (temps ≠ [] → hottest temps ∈ temps)) ∧
    (∀ cfg cur (temp : Int), let theta := fun k : Nat => ((1000 * (bits cfg 7 0 + (k - 1) * Nat.max (bits cfg 11 8) 1) : Nat) : Int)
      let n := govStep cfg cur temp
      ((1000 * bits cfg 23 16 : Nat) ≤ temp → n = 7) ∧
      (temp < (1000 * bits cfg 23 16 : Nat) → cur ≤ 7 → n ≤ 7 ∧ (cur < n → theta n ≤ temp) ∧
        (n < cur → temp < theta cur - (1000 * bits cfg 15 12 : Nat) ∧ (n = 0 ∨ theta n ≤ temp)) ∧
        (1 ≤ cur → temp < theta cur - (1000 * bits cfg 15 12 : Nat) → n < cur) ∧ (n ≠ cur → ∀ k ≤ 7, n < k → 1 ≤ k → temp < theta k) ∧
        (n = cur → ∀ k ≤ 7, n < k → temp < theta k))) ∧
    (∀ q, s.govDue q ≠ [] → exec (.governorStepChange q) s = .next (s.govChange q (s.govDue q)) ∧ s.tick % 8 = 0 ∧
      ∀ l n, s.govDue q = [(l, n)] → tget 0 ((s.govChange q [(l, n)]).quad q).gov l = n) ∧
    (∀ mv rest, s.volts = mv :: rest → s.droop = false → (mv < droopLevel s.dealer.droopcfg.toNat →
        ∃ t, exec .droopStart s = .next t ∧ t.droop = true ∧ t.pctr = ctrSat s.pctr 0x01 0 32 1) ∧
      (droopLevel s.dealer.droopcfg.toNat ≤ mv → exec .droopStart s = .next { s with volts := rest })) ∧
    (∀ mv rest, s.volts = mv :: rest → s.droop = true → let level := droopLevel s.dealer.droopcfg.toNat + bits s.dealer.droopcfg.toNat 25 18
      (level ≤ mv → ∃ t, exec .droopEnd s = .next t ∧ t.droop = false ∧ t.pctr = s.pctr) ∧
      (mv < level → exec .droopEnd s = .next { s with volts := rest })) ∧
    (∀ u bad, ∃ t, exec (.scrub u bad) s = .next t ∧ t.memSoft = s.memSoft.filter (fun a => !scrubbed u a) ∧
      (∀ a ∈ s.memBad, a ∈ t.memBad) ∧ (∀ a ∈ bad, scrubbed u a = true → eccUnit a ∈ t.memBad) ∧ t.mem = s.mem)

/-! ### The fabric (R241-R247, R264, R273, R291, R292, R345, R372, R392, R432, R467) -/

/-- R241-R247, R273, R290-R292, R319, R324, R372: a pool request leaves once; a `kalloc` response that fits its request fills the pool map and
charges the quota, a `kfree` response frees the entry, a `kquery` response is noted with its entry, and a refusal is noted with its
status. A lost switch is noted with its lines dropped; a peer silent for 2^24 ticks is dead; a reported loss makes a LIVE plain
allocation LOST, and a mirrored one DEGRADED or LOST (which copies are gone is a free choice). A token is lent to one package at a time,
the others wait their turn; a granted one is HELD, and answers the `tacq` that waits for it; a recalled one is RELEASING, its dirty
lines written back, and leaves at the end of the tick with every line of its region. The model's choices: which of the switch's answers
fit a request (log entry 13), which copies of a mirrored allocation are gone, and what a loss does here (log entry 42), and that TOKGRANT of a
LENT token is its return, with the list of those who wait and the state RELEASING (log entry 43). -/
def Obligations.PoolAndTokenMessages : Prop :=
  ∀ (s : State),
    (∀ m k, s.poolSend m = some k → exec (.poolreq m) s = .next (s.setLoose m.c { k with point := 1, asked := s.tick })) ∧
    (∀ (m : PoolRsp) k, m.n ≠ 0 → s.looseAt m.c m.n = some k → k.point = 1 → k.rsp = none → s.unreachable k = false →
      let entry := cleanEntry m.entry
      let n := m.num.toNat
      let told := fun t : State => t.setLoose m.c { k with rsp := some (m.status.toNat, n, entry) }
      (∀ o, k.instr = .kalloc o ∨ k.instr = .kallocM o →
        (m.status = 0 → s.allocFits k entry n = true → ∃ t, exec (.poolrsp m) s = .next (told t) ∧
          tget 0 (t.vf k.vf).pool n = entry ∧ (t.vf k.vf).used = (s.vf k.vf).used + chargedUnits entry ∧
          t.allocs = s.allocs ++ [{ switch := s.homeOf k.vf, tenant := s.tenantOf k.vf, num := n, charge := k.vf }]) ∧
        (1 ≤ m.status.toNat ∧ m.status.toNat ≤ 3 → exec (.poolrsp m) s = .next (told s))) ∧
      (∀ o, k.instr = .kfree o → (m.status = 0 → n = kittyNum k.sa → let own := tget 0 (s.vf k.vf).pool n
          bit own.toNat 0 = false ∨ genOf entry = (genOf own + 1) % 65536 → exec (.poolrsp m) s = .next (told (s.poolFree k.vf n))) ∧
        (m.status = 5 → exec (.poolrsp m) s = .next (told s))) ∧
      (∀ o, k.instr = .kquery o → n = kittyNum k.sa → bits entry.toNat 2 1 ≠ 3 →
        exec (.poolrsp m) s = .next (told (s.modVf k.vf fun x => { x with pool := tset 0 x.pool n entry })))) ∧
    (∀ w, w ∉ s.lostSw → ∃ t, exec (.kittySwitchLoss w) s = .next t ∧ t.lostSw = w :: s.lostSw ∧
      ∀ l ∈ t.cache, ¬ (tierOf (64 * l.1) = 5 ∧ bits (64 * l.1) 51 40 = w)) ∧
    (∀ p, s.overdue.contains (peerTarget p) = true → p ∉ s.deadPeers →
      exec (.peerTimeout p) s = .next { s with deadPeers := p :: s.deadPeers }) ∧
    (∀ (m : LossMsg) v n, v < 8 → m.nums = [n] → (∀ u < 8, s.homeOf u = m.switch ∧ s.tenantOf u = m.tenant ↔ u = v) →
      let e := tget 0 (s.vf v).pool n
      bit e.toNat 0 = true → bits e.toNat 2 1 ≠ 2 → ∃ d, exec (.loss m) s = .next (s.applyLoss v n d) ∧
        tget 0 ((s.applyLoss v n d).vf v).pool n = d ∧
        ((bit e.toNat 3 = false ∨ bits e.toNat 2 1 ≠ 0) → d = lostEntry e) ∧
        (d = lostEntry e ∨ d = degradedEntry e true ∨ d = degradedEntry e false)) ∧
    (∀ m, tierOf (m.region * 0x200000) = 2 ∨ tierOf (m.region * 0x200000) = 3 →
      (s.ownTok m.region = none → s.toks.length < 4096 →
        exec (.tokreq m) s = .next { s with toks := s.toks ++ [{ region := m.region, st := 3, holder := m.pkg }] }) ∧
      (∀ t, s.ownTok m.region = some t → t.st = 3 → t.holder ≠ m.pkg → t.want.contains m.pkg = false → exec (.tokreq m) s =
        .next { s with toks := s.toks.map fun t => if t.region = m.region then { t with want := t.want ++ [m.pkg] } else t })) ∧
    (∀ m t, s.ownTok m.region = some t → t.st = 1 → ∃ u, exec (.tokgrant m) s = .next u ∧
      u.toks = (s.toks.map fun x => if x.region = m.region then { x with st := 0 } else x) ∧ u.mem = s.mem ∧ u.cache = s.cache ∧
      ∀ c o, ∀ k ∈ (s.core' c).remLoose, k.instr = .tacq o → k.region = m.region → k.rsp = none →
        { k with rsp := some (0, 0, 0) } ∈ (u.core' c).remLoose) ∧
    (∀ m t, s.ownTok m.region = some t → t.st = 3 → t.holder = m.pkg → 
      let home := fun x : OwnTok => match x.want with | [] => none | p :: rest => some { x with holder := p, want := rest }
      exec (.tokgrant m) s = .next { s with toks := s.toks.filterMap fun x => if x.region ≠ m.region then some x else home x }) ∧
    (∀ m t, s.ownTok m.region = some t → t.st = 0 → exec (.tokrecall m) s = .next
      { s.cleanLines (inRegion m.region) with toks := s.toks.map fun t => if t.region = m.region then { t with st := 2 } else t }) ∧
    (∀ t ∈ s.toks, t.st = 2 → s.releasing t.region = false → (∀ l ∈ s.tokensOver.cache, inRegion t.region l.1 = false) ∧
      ∀ x ∈ s.tokensOver.toks, x.region = t.region → x.st = 3)

/-- R264, R341, R345, R354, R392, R432, R467: what arrives is translated by the function's own tables, and what those walks met is noted. A
write lands whole behind the queued writes of its lines, and then its flag counts; one that does not translate writes nothing. A tagged
arrival counts the flag of the function that owns it; the bytes of a flag increment reach the barriers; a line add adds its elements in
order; an atomic takes one step; a read changes no memory; and a message of no known kind is counted. The model's choices: a write that
translates in part writes nothing (log entry 44), and bytes that another package stores at a peer or a switch stand in this model's memory
(log entry 12). -/
def Obligations.ArrivalsActOnMemory : Prop :=
  ∀ (s : State),
    (∀ v (va : Word) (cells : List Sys2Proof.Cell) b pa, cells ≠ [] → (∀ c ∈ cells, (va + BitVec.ofNat 64 c.off).toNat / 4096 = b) →
      s.inbound v (BitVec.ofNat 64 (4096 * b)) false true = some pa → s.inboundWrite v va cells =
        some (s.portWrite pa (cells.map fun c => { c with off := (va + BitVec.ofNat 64 c.off).toNat % 4096 }) 0)) ∧
    (∀ pa cells cache, s.wq = [] → s.portWrite pa cells cache = s.performWrite pa cells cache) ∧
    (∀ (m : WriteMsg) v va, m.dest = .here v va → let u := s.writeNotes v va m.cells
      (m.flag = none → (∀ t, u.inboundWrite v va m.cells = some t → exec (.fwrite m) s = .next t) ∧
        (u.inboundWrite v va m.cells = none → exec (.fwrite m) s = .next u)) ∧
      (∀ w f t pa, m.flag = some (.here w f) → (u.inboundNote w f).inboundWrite v va m.cells = some t → f.toNat % 8 = 0 →
        t.inbound w f false true = some pa → exec (.fwrite m) s = .next (t.portIncrement w nobody pa m.bytes 0))) ∧
    (∀ (m : WriteMsg) pa, m.dest = .away pa → m.flag = none → s.awayOk pa = true →
      exec (.fwrite m) s = .next { s with mem := awayWrite s.mem pa m.cells }) ∧
    (∀ m : FlagMsg, tierOf m.pa = 2 ∨ tierOf m.pa = 3 → exec (.flaginc m) s = .next (s.countBytes m.pa m.bytes) ∧
      (m.pa % 8 = 0 → exec (.trigarr m) s = .next (s.portIncrement ((s.ownerOf m.pa).getD 0) nobody m.pa m.bytes 0))) ∧
    (∀ (m : LineMsg) v va pa, m.dest = .here v va → va.toNat % 64 = 0 → let u := s.inboundNote v va
      u.inbound v va true true = some pa →
      let w := (m.elems.map fun e => eccUnit (pa + e.1 * m.ew / 8)).eraseDups.foldl (fun s a => s.engineMeets (accessOf v nobody) a 1)
        (u.drainLine pa)
      exec (.lineadd m) s = .next (w.performWrite pa (lineCells m.ew (lineAdds m (w.readLe pa 64))) 0)) ∧
    (∀ m : LinkReq, let cells := (m.data.zipIdx).map fun e => (⟨e.2, e.1, 0xFF⟩ : Sys2Proof.Cell)
      (∀ t, (s.writeNotes m.vf m.va cells).inboundWrite m.vf m.va cells = some t → exec (.ualinkWrite m) s = .next t) ∧
      (∀ pa v, m.n = 4 ∨ m.n = 8 → m.va.toNat % m.n = 0 → let u := s.inboundNote m.vf m.va
        u.inbound m.vf m.va true true = some pa → let w := (u.drainLine pa).engineMeets (accessOf m.vf nobody) pa m.n
        badIn w.memBad pa m.n = false → amoStep (linkOp m.op) (8 * m.n) (w.readLe pa m.n) m.operand.toNat m.compare.toNat = some v →
        exec (.ualinkAtomic m) s = .next (w.performWrite pa (cellsOf v m.n) 0)) ∧
      ∃ t, exec (.ualinkRead m) s = .next t ∧ t.mem = s.mem ∧ t.cache = s.cache ∧ t.ctxs = s.ctxs) ∧
    (∀ port v, exec (.unsupportedVendorMessage port v) s = .next (s.vfSat v 0x11 4 1))

/-! ### The Dealer (R42, R149, R338-R340, R407, R423-R440) -/

/-- R15, R42, R149, R338, R339, R407, R431, R439: a poll comes within 78 ticks of the last, which is 1 µs at the slowest tick of 12.8 ns; NOP
retires its entry with its status, DONE counted; a launch with a reserved bit set, or for a function that may not launch, is refused, one
whose timetable or images do not pass is rejected, and one whose timetable and images pass is under way; a fault record is settled; and the
Dealer answers service 0 itself with the sum of its arguments. The model's choices: the number of ticks of each cycle (free, log entry 24),
and that the Dealer takes the bits of an uncorrectable word as they stand, and counts it (log entry 81). -/
def Obligations.DealerServesItsQueues : Prop :=
  ∀ (s : State),
    (s.pollReady = true → ∃ t, exec .dealerPoll s = .next t ∧ s.tick < t.dealer.pollDue ∧ t.dealer.pollDue ≤ s.tick + 78) ∧
    (∀ c, s.asked c 0x02 = true → exec (.nopCmd c) s = .next (s.retire c.q (if c.clean then 0 else 1))) ∧
    (∀ c, s.asked c 0x01 = true → (s.queue c.q).begun = false →
      let v := (s.queue c.q).f 71 69
      let u := s.modDealer Dealer.clearRails
      let w := u.dealerMet v (u.launchReads c.opa.toNat)
      (c.clean = false → exec (.launch c) s = .next (u.retire c.q 1)) ∧
      (c.clean = true → s.refuses v = true → exec (.launch c) s = .next (u.retire c.q 1)) ∧
      (c.clean = true → s.refuses v = false →
        (w.readTimetable c.opa.toNat = none → exec (.launch c) s = .next (w.retire c.q 2)) ∧
        (∀ t, w.readTimetable c.opa.toNat = some t → w.timetableOk v c.opa.toNat t = false → exec (.launch c) s = .next (w.retire c.q 2)) ∧
        (∀ t r, w.readTimetable c.opa.toNat = some t → w.timetableOk v c.opa.toNat t = true → w.readImages t = .error r →
          exec (.launch c) s = .next ((w.modDealer fun d => { d with rejects := d.rejects ++ [r] }).retire c.q 2)) ∧
        (∀ t fs, w.readTimetable c.opa.toNat = some t → w.timetableOk v c.opa.toNat t = true → w.readImages t = .ok fs →
          (fs.all fun f => w.inRanges v f.image.addr f.span) = true → (t.phases.all fun p => w.imagesOk v p fs) = true →
          ∃ x, exec (.launch c) s = .next x ∧ x.dealer.nextLaunch = s.dealer.nextLaunch + 1 ∧ x.dealer.launched = true ∧
            (x.queue c.q).begun = true ∧ x.mem = s.mem ∧ x.ctxs = s.ctxs ∧
            ∃ l, x.dealer.launches = s.dealer.launches ++ [l] ∧ l.id = s.dealer.nextLaunch ∧ l.q = c.q ∧ l.ix = c.ix ∧ l.args = c.opb ∧
              l.vf = v ∧ l.phases = t.phases ∧ l.st = .running ∧ l.armed = 0))) ∧
    (∀ n rest, s.dealer.notes = n :: rest → s.noteReady n = true →
      exec .faultRecord s = .next ((s.modDealer fun d => { d with notes := rest }).settle n)) ∧
    (∀ v h r, s.syscDue = some (v, h, r) → r.service = 0 → exec .syscRequest s =
      .next (s.modSysc v h r.seq fun x => { x with taken := true, reply := some (0, r.arg0 + r.arg1) }))

/-- R68, R338, R340, R351-R355, R373, R409-R411, R413, R418, R423, R429-R431, R434, R440, R442: the host commands. On a queue that is not
privileged, or with a reserved bit of its entry set, each retires with STATUS 1. One that passes its checks retires with STATUS 0 and its
effect: MAPQ maps the descriptor, PARTWRITE writes the entry and loads the function's tables, RANGELOAD loads them, WALKINV drops cached
entries and reads again the attribute entries that it covers, QUOTA sets KQUOTA, ATTEST writes a report of 64 bytes
and its signature, KEYPROV provisions the keys if the blob's signature holds, and is refused if not, SERVICE raises the level, SVCREG and
SVCREPLY register and answer. UNMAPQ, PREEMPT, RESUME, KILL, REEXEC, FLR, BIST, CHECKPOINT and RESTORE are under way from then on, and retire
with STATUS 0 once what they wait for is over: a KILL once the launches that it killed have retired, a BIST after its tests' ticks, or with
STATUS 1 when an alarm has cut it short (log entry 86); a transfer whose link has failed, or whose allocation is lost, with STATUS 5. The model's
choices: the signature of 16,224 bytes and the free verdict on the keys (log entry 15); Config.unrecoverable, and that an FLR joins a reset
that runs (log entry 55); the slot of MAPQ and an UNMAPQ that joins another or names its own queue (log entry 58); when a transfer moves and
what it needs (log entry 63); the operands' ranges and BIST's words (log entry 69); and what the Dealer reads from a bad word (log entry 81). -/
def Obligations.HostCommandsTakeEffect : Prop :=
  (∀ (s : State) (c : QueueCmd), s.hostOk c = false → (s.queue c.q).begun = false → ∀ e ∈ [(Instr.mapq c, 0x80), (.unmapq c, 0x81),
      (.partwrite c, 0x82), (.rangeload c, 0x83), (.walkinv c, 0x84), (.preempt c, 0x85), (.resume c, 0x86), (.kill c, 0x87),
      (.reexec c, 0x88), (.flr c, 0x89), (.quota c, 0x8A), (.bist c, 0x8B), (.attest c, 0x8C), (.keyprov c, 0x8D), (.service c, 0x8E),
      (.checkpoint c, 0x8F), (.restore c, 0x90), (.svcreg c, 0x91), (.svcreply c, 0x92)],
    s.asked c e.2 = true → exec e.1 s = .next (s.retire c.q 1)) ∧
  (∀ (s : State) (c : QueueCmd), s.hostOk c = true → (s.queue c.q).begun = false →
    (∀ n, s.asked c 0x80 = true → s.mapSlot c = some n →
      exec (.mapq c) s =
      .next (((s.dealerMet (s.queueVf c) [(c.opa.toNat, 64)]).mapQueue n c.opa.toNat (c.opb.getLsbD 0)).retire c.q 0)) ∧
    (∀ n, s.asked c 0x81 = true → s.unmapTarget c = some n →
      (n ≠ c.q → exec (.unmapq c) s = 
        .next ((s.setQueue n { s.queue n with unmap := some ((s.queue n).unmap.getD c.q) }).underWay c.q 0)) ∧
      (n = c.q → exec (.unmapq c) s = .next ((s.retire c.q 0).unmapQueue c.q))) ∧
    (∀ v, s.asked c 0x82 = true → funcArg c.opa = some v → hostOperand c.opb.toNat 128 = true →
      s.partGood v (leRead s.mem c.opb.toNat 128) = true → exec (.partwrite c) s =
        .next ((((s.dealerMet v [(c.opb.toNat, 128)]).modVf v fun x =>
          { x with part := BitVec.ofNat 1024 (leRead s.mem c.opb.toNat 128) }).loadTables v).retire c.q 0)) ∧
    (∀ v, s.asked c 0x83 = true → funcArg c.opa = some v → c.opb = 0 → exec (.rangeload c) s = .next ((s.loadTables v).retire c.q 0)) ∧
    (∀ v, s.asked c 0x84 = true → funcArg c.opa = some v → let all := decide (c.opb = BitVec.allOnes 64)
      let at' := fun i : Nat => bits (s.vf v).part.toNat 575 512 + 8 * i
      let read := (List.range 64).filter fun i => all || at' i = c.opb.toNat
      ∃ attrs, exec (.walkinv c) s = .next (((s.dealerMet v (read.map fun i => (at' i, 8))).modVf v fun x =>
          { x with walk := if all then [] else x.walk.filter fun e => e.1 ≠ c.opb.toNat
                   attrs := attrs }).retire c.q 0) ∧
        ∀ i < 64, tget 0 attrs i =
          if all || at' i = c.opb.toNat then BitVec.ofNat 64 (leRead s.mem (at' i) 8) else tget 0 (s.vf v).attrs i) ∧
    (∀ g, s.asked c 0x85 = true → slotArg c.opa = some g → c.opb = 0 → (s.ctx g).runs = true →
      (s.inRigid g = false → exec (.preempt c) s = .next ((s.askStop g true).underWay c.q 0)) ∧
      (∀ id, s.inRigid g = true → (s.ctx g).launch = some id → ((s.stopLaunch id true).queue c.q).begun = false →
        exec (.preempt c) s = .next ((s.stopLaunch id true).underWay c.q 0))) ∧
    (∀ g, s.asked c 0x86 = true → slotArg c.opa = some g → c.opb = 0 → s.held g = true ∨ s.engineHeld g = true →
      ((s.resume g).queue c.q).begun = false → exec (.resume c) s = .next ((s.resume g).underWay c.q 0)) ∧
    (∀ g id l, s.asked c 0x87 = true → slotArg c.opa = some g → c.opb = 0 → s.launchAt g = some id → s.launch id = some l →
      let u := s.killLaunch id 3
      let v := if Config.unrecoverable (u.policy l.vf) then u.beginReset l.vf c.q else u
      (∀ r ∈ u.dealer.resets, r.1 ≠ l.vf) → (v.queue c.q).begun = false → exec (.kill c) s = .next (v.underWay c.q 0)) ∧
    (∀ g u, s.asked c 0x88 = true → slotArg c.opa = some g → c.opb = 0 → s.redoTask g = some u → (u.queue c.q).begun = false →
      exec (.reexec c) s = .next (u.underWay c.q 0)) ∧
    (∀ v, s.asked c 0x89 = true → funcArg c.opa = some v → c.opb = 0 → (∀ r ∈ s.dealer.resets, r.1 ≠ v) →
      ((s.beginReset v c.q).queue c.q).begun = false → exec (.flr c) s = .next ((s.beginReset v c.q).underWay c.q 0)) ∧
    (∀ v, s.asked c 0x89 = true → funcArg c.opa = some v → c.opb = 0 → (∃ r ∈ s.dealer.resets, r.1 = v) →
      exec (.flr c) s = .next (s.underWay c.q 0)) ∧
    (∀ v, s.asked c 0x8A = true → funcArg c.opa = some v → c.opb.toNat < 2 ^ 32 → (s.vf v).used ≤ c.opb.toNat → exec (.quota c) s =
      .next ((s.modVf v fun x => { x with part := setBits x.part 63 32 c.opb.toNat }).retire c.q 0)) ∧
    (s.asked c 0x8B = true → bits c.opa.toNat 63 6 = 0 → let m := bits c.opa.toNat 3 0
      let set := bits c.opa.toNat 5 4
      (∀ l ∈ s.dealer.launches, l.towers &&& m = 0 ∧ ∀ q ∈ l.quads, bit m (q / 48) = false) →
      m = 0 ∨ hostOperand c.opb.toNat (8 * bistWords m set) = true →
      exec (.bist c) s = .next (s.underWay c.q (bistTicks set + Config.delay s.fresh 16))) ∧
    (s.asked c 0x8C = true → s.dealer.bootstate.getLsbD 10 = true → s.dealer.secalarm.getLsbD 5 = false →
      hostOperand c.opa.toNat 32 = true → hostOperand c.opb.toNat (64 + sigBytes) = true → ∃ out : List Byte,
        out.length = 64 + sigBytes ∧ exec (.attest c) s =
          .next (((out.zipIdx).foldl (fun u b => u.dealerWrite (c.opb.toNat + b.2) b.1.toNat 1)
            (s.dealerMet (s.queueVf c) [(c.opa.toNat, 32)])).retire c.q 0)) ∧
    (s.asked c 0x8D = true → c.opb = 0 → s.dealer.bootstate.getLsbD 10 = false → s.dealer.secalarm.getLsbD 0 = false →
      hostOperand c.opa.toNat 1 = true → exec (.keyprov c) s =
        .next (if Config.choice s.fresh 14 then (s.modDealer fun d =>
          { d with bootstate := setBits d.bootstate 10 10 1, secalarm := setBits d.secalarm 5 5 0 }).retire c.q 0 else s.retire c.q 1)) ∧
    (s.asked c 0x8E = true → c.opa.toNat ≤ 3 → bits s.dealer.bootstate.toNat 4 3 < c.opa.toNat → c.opb = 0 → s.dealer.launches = [] →
      (∀ q ∈ s.dealer.queues, q.1 = c.q ∨ q.2.entry = none) → exec (.service c) s =
        .next ((s.modDealer fun d => { d with bootstate := setBits d.bootstate 4 3 c.opa.toNat }).retire c.q 0)) ∧
    (∀ a, s.asked c 0x8F = true → s.transferOk c = some a →
      exec (.checkpoint c) s = .next ((s.header a 0).beginTransfer c)) ∧
    (∀ a, s.asked c 0x90 = true → s.transferOk c = some a → let h := leRead (s.cleanLines fun l => l = a / 64).mem a 64
      bits h 63 0 = s.payload c.opa.toNat → bits h 127 64 = c.opa.toNat → exec (.restore c) s = .next (s.beginTransfer c)) ∧
    (s.asked c 0x91 = true →
      let n := bits c.opa.toNat 31 16
      let v := bits c.opa.toNat 2 0
      bits c.opa.toNat 15 3 = 0 → bits c.opa.toNat 63 33 = 0 → n ≠ 0 → c.opb.toNat % 64 = 0 →
      (c.opa.getLsbD 32 = true → tierOf c.opb.toNat = 6 → exec (.svcreg c) s =
        .next ((s.modVf v fun x => { x with services := (n, c.opb.toNat) :: x.services.filter fun e => e.1 ≠ n }).retire c.q 0)) ∧
      (c.opa.getLsbD 32 = false → exec (.svcreg c) s =
        .next ((s.modVf v fun x => { x with services := x.services.filter fun e => e.1 ≠ n }).retire c.q 0))) ∧
    (∀ v h, s.asked c 0x92 = true → bits c.opa.toNat 15 12 = 0 → bits c.opa.toNat 63 40 = 0 → bits c.opa.toNat 39 32 ≤ 3 →
      s.unanswered (bits c.opa.toNat 11 0) (bits c.opa.toNat 31 16) = some (v, h) → exec (.svcreply c) s =
        .next ((s.modSysc v h (bits c.opa.toNat 31 16) fun r => { r with reply := some (bits c.opa.toNat 39 32, c.opb) }).retire c.q 0))) ∧
  (∀ (s : State) (c : QueueCmd), (s.queue c.q).begun = true →
    (∀ n q, s.asked c 0x81 = true → s.hostOk c = true → s.unmapTarget c ≠ some c.q → s.dealer.queueAt c.opa.toNat = some (n, q) →
      (q.unmap = some c.q → q.entry = none → exec (.unmapq c) s = .next ((s.unmapQueue n).retire c.q 0)) ∧
      (q.unmap = some c.q → q.entry ≠ none → exec (.unmapq c) s = .next s) ∧
      (q.unmap = none → exec (.unmapq c) s = .next (s.retire c.q 0))) ∧
    (s.asked c 0x81 = true → s.dealer.queueAt c.opa.toNat = none → exec (.unmapq c) s = .next (s.retire c.q 0)) ∧
    (s.asked c 0x85 = true → s.leaving c.opa.toNat = false → exec (.preempt c) s = .next (s.retire c.q 0)) ∧
    (s.asked c 0x86 = true → s.leaving c.opa.toNat = false → s.frameAt c.opa.toNat = none → exec (.resume c) s = .next (s.retire c.q 0)) ∧
    (s.asked c 0x87 = true → (∀ r ∈ s.dealer.resets, r.2.2 ≠ c.q) →
      (s.dying c.opa.toNat = false → exec (.kill c) s = .next (s.retire c.q 0)) ∧
      (s.dying c.opa.toNat = true → exec (.kill c) s = .next s)) ∧
    (s.asked c 0x8B = true → let m := bits c.opa.toNat 3 0
      let set := bits c.opa.toNat 5 4
      ((s.queue c.q).failed = true → exec (.bist c) s = .next ((s.bistCut m set).retire c.q 1)) ∧
      ((s.queue c.q).failed = false → (s.queue c.q).due ≤ s.tick → exec (.bist c) s = .next ((s.bist m set c.opb.toNat).retire c.q 0)) ∧
      ((s.queue c.q).failed = false → s.tick < (s.queue c.q).due → exec (.bist c) s = .next s)) ∧
    (∀ v t, s.asked c 0x87 = true → (s.dealer.resets.find? fun r => r.2.2 = c.q) = some (v, t, c.q) → s.drained v = true →
      exec (.kill c) s = .next ((s.finishReset v c.q).retire c.q 0)) ∧
    (s.asked c 0x88 = true → s.redone c.opa.toNat = true → exec (.reexec c) s = .next (s.retire c.q 0)) ∧
    (∀ v t q, s.asked c 0x89 = true → (s.dealer.resets.find? fun r => r.1 = c.opa.toNat) = some (v, t, q) →
      (q = c.q → s.drained v = true → exec (.flr c) s = .next ((s.finishReset v c.q).retire c.q 0)) ∧
      (q ≠ c.q ∨ s.drained v = false → exec (.flr c) s = .next s)) ∧
    (s.asked c 0x89 = true → (∀ r ∈ s.dealer.resets, r.1 ≠ c.opa.toNat) → exec (.flr c) s = .next (s.retire c.q 0)) ∧
    (∀ i, (i = .checkpoint c ∧ s.asked c 0x8F = true) ∨ (i = .restore c ∧ s.asked c 0x90 = true) →
      (s.queue c.q).failed = true ∨ s.imageNow c = none → ∃ t : State, exec i s = .next (t.retire c.q 5)) ∧
    (∀ a, (s.queue c.q).failed = false → (s.queue c.q).due ≤ s.tick → s.imageNow c = some a → let w := c.opa.toNat
      (s.asked c 0x8F = true → ∃ t, t = s.transfer w a (s.payload w) false ∧
        exec (.checkpoint c) s = .next ((t.putHeader a (s.payload w) w (s.queue c.q).start).retire c.q 0)) ∧
      (s.asked c 0x90 = true → exec (.restore c) s = .next ((s.transfer w a (s.payload w) true).retire c.q 0))))

/-- R8, R340, R402, R407, R424-R427, R430, R435-R439, R443: what the host and the outside do at the management window, the aperture and
the pins. A doorbell writes TAIL, through a virtual function's BAR0 for its own descriptors only. A register keeps the bits that a write
does not name; margining waits for an idle package; a counter is cleared; and once the firmware's signature has failed only SECALARM
takes a write. An alarm is latched with its cause and kills every launch, after a reset that runs. A power-on reset leaves the package
without contexts, launches or pending work, its ticks at 0. A failed host link fails the transfers to host memory. The model's choices: what a
power-on drops and what the window takes after a failed signature, APERBASE's low bits (log entry 61), and how a doorbell names its slot (log
entry 58). -/
def Obligations.WindowAlarmsAndBoot : Prop :=
  ∀ (s : State),
    (s.operable = true →
      (∀ f d tail, d < 64 → (s.queue d).mapped = true → shown f (s.queue d).desc = true →
        exec (.doorbell ⟨f, d⟩ tail) s = .next (s.setQueue d ((s.queue d).ring tail.toNat))) ∧
      (∀ v d tail, d < 64 → bits (s.queue d).desc.toNat 71 69 ≠ v → exec (.doorbell ⟨some v, d⟩ tail) s = .next s) ∧
      (∀ w, exec (.droopcfgWrite w) s =
        .next (s.modDealer fun d => { d with droopcfg := (d.droopcfg &&& ~~~0x1FFFFC00) ||| (w &&& 0x1FFFFC00) })) ∧
      (∀ t w, exec (.govcfgWrite t w) s =
        .next (s.modTower t fun x => { x with govcfg := (x.govcfg &&& ~~~0xFFFFFF) ||| (w &&& 0xFFFFFF) })) ∧
      (∀ r w, s.dealer.launches ≠ [] → exec (.vmarginWrite r w) s =
        .next (s.modDealer fun d => { d with vmargin := tset 0 d.vmargin r (tget 0 d.vmargin r ||| 0x100) })) ∧
      (∀ r w, s.dealer.launches = [] → exec (.vmarginWrite r w) s = .next (s.modDealer fun d =>
        { d with vmargin := tset 0 d.vmargin r (((tget 0 d.vmargin r &&& ~~~0xFF) ||| (w &&& 0xFF)) &&& ~~~(w &&& 0x100)) })) ∧
      (∀ p w, s.dealer.launches ≠ [] → exec (.lmarginStart p w) s =
        .next (s.modDealer fun d => { d with lmargin := tset 0 d.lmargin p (tget 0 d.lmargin p ||| 0x40000) })) ∧
      (∀ p (w : Word), s.dealer.launches = [] → w.getLsbD 16 = true → ∃ x, exec (.lmarginStart p w) s =
        .next (s.modDealer fun d => { d with lmargin := tset 0 d.lmargin p x }) ∧ x.getLsbD 16 = true ∧ x.getLsbD 17 = false) ∧
      (∀ u i, (∀ n ∈ [0x13, 0x20, 0x21, 0x22], exec (.counterClear n u i) s =
          .next (s.modCtx u fun c => { c with ctr := tset 0 c.ctr (ctrKey n i) 0 })) ∧
        (∀ n ∈ [0x10, 0x11, 0x12, 0x14, 0x18, 0x19, 0x1A], exec (.counterClear n u i) s =
          .next (s.modVf u fun c => { c with ctr := tset 0 c.ctr (ctrKey n i) 0 })) ∧
        (∀ n ∈ [0x03, 0x04, 0x16, 0x23, 0x24], exec (.counterClear n u i) s =
          .next (s.modQuad u fun c => { c with ctr := tset 0 c.ctr (ctrKey n i) 0 })) ∧
        (∀ n ∈ [0x17, 0x25], exec (.counterClear n u i) s = .next (s.modCore u fun c => { c with ctr := tset 0 c.ctr (ctrKey n i) 0 })) ∧
        exec (.counterClear 0x00 u i) s = .next s) ∧
      (∀ w, exec (.registerWrite ⟨none, 0x10⟩ w) s = .next (s.modDealer fun d => { d with aperbase := w &&& ~~~0x3FFFFFFF }) ∧
        ∀ v, exec (.registerWrite ⟨some v, 0x10⟩ w) s = .next s) ∧
      (∀ off data, data ≠ [] → off + data.length ≤ 2 ^ 30 → tierOf (s.dealer.aperbase.toNat + off) = 3 →
        tierOf (s.dealer.aperbase.toNat + off + data.length - 1) = 3 → exec (.hbmApertureWrite off data) s =
          .next (s.portWrite (s.dealer.aperbase.toNat + off) (data.zipIdx.map fun b => (⟨b.2, b.1, 0xFF⟩ : Sys2Proof.Cell)) 0))) ∧
    (s.operable = false → ∀ b tail r n d off w data, ∀ i ∈ [Instr.doorbell b tail, .droopcfgWrite w, .govcfgWrite r w, .vmarginWrite r w,
      .lmarginStart r w, .counterClear n r d, .hbmApertureWrite off data], exec i s = .next s) ∧
    (∀ p e, (tget 0 s.dealer.lmargin p).getLsbD 16 = true → (tget 0 s.dealer.lmargin p).getLsbD 17 = false → ∃ x,
      exec (.eyeMeasurementEnd p e) s = .next (s.modDealer fun d => { d with lmargin := tset 0 d.lmargin p x }) ∧
      x.getLsbD 17 = true ∧ bits x.toNat 63 32 = e.toNat) ∧
    (∀ on, (s.dealer.launched = false → exec (.zeroiseWrite on) s =
        .next (s.modDealer fun d => { d with secalarm := setBits d.secalarm 6 6 (if on then 1 else 0) })) ∧
      (s.dealer.launched = true → exec (.zeroiseWrite on) s = .next s)) ∧
    (∀ e ∈ [(Instr.tamper, 1), (.glitch, 2), (.fwsig, 3), (.mgmt, 4)], ∃ t, exec e.1 s = .next t ∧ t.dealer.secalarm.getLsbD 0 = true ∧
      t.dealer.secalarm.getLsbD e.2 = true ∧ (s.dealer.resets = [] → ∀ l ∈ t.dealer.launches, l.st = .retiring) ∧
      (s.dealer.resets ≠ [] → t.dealer.alarmed = true ∧ t.dealer.launches = s.dealer.launches)) ∧
    (∃ t, exec .powerOnReset s = .next t ∧ t.tick = 0 ∧ t.ctxs = [] ∧ t.cores = [] ∧ t.quads = [] ∧ t.vfs = [] ∧ t.wq = [] ∧ t.cache = [] ∧
      t.bars = [] ∧ t.arms = [] ∧ t.dealer.launches = [] ∧ t.dealer.secalarm = 0x40 ∧ t.dealer.droopcfg = 0x10287AEE ∧
      bits t.dealer.bootstate.toNat 2 0 ∈ [5, 6] ∧ ∀ c ∈ t.mem, 4 ≤ tierOf c.1) ∧
    (∃ t, exec .pcieFailure s = .next t ∧ t.mem = s.mem ∧ t.ctxs = s.ctxs ∧
      ∀ e ∈ t.dealer.queues, e.2.failed = false → e.2.begun = true → ∀ i x, e.2.entry = some (i, x) → x.getLsbD 68 = false →
        bits x.toNat 7 0 ≠ 0x8F ∧ bits x.toNat 7 0 ≠ 0x90)

/-! ### Encodings (R95-R101, R116-R121) -/

/-- R96-R98, R118: words written out field by field from bit 63 are the instructions they stand for: in slot C `br` with OFF = -2, in SA
`add` of I32, in SB `li` of 5, in VA `vfma` of FP32, in VB `vadd` of I16 with an immediate, in E a scalar load of I64. -/
def Obligations.WrittenWordsDecode : Prop :=
  decodeSyl .c 0b000001_000_0_0000_000_000_0000000_0000000_000_0000_11111111111111111111110#64 =
    .ok (.br { v := false, lat := 0, sh := 0, msk := 0, d := 0, a := 0, cond := 0, off := -2 }) ∧
  decodeSyl .sa 0b000001_000_0_0001_000_000_0000011_0000001_0000010_0000000_00110_00000_0_0_0000#64 =
    .ok (.add .sa { v := false, lat := 1, sh := 0, msk := 0, d := 3, a := 1, b := 2, c := 0, ty := 6, ty2 := 0, sat := false, pair := false,
                    xmod := 0 }) ∧
  decodeSyl .sb 0b001011_000_0_0000_000_000_0000111_0000000_01000_0_0_00000000000000000000101#64 =
    .ok (.li .sb { v := false, lat := 0, sh := 0, msk := 0, d := 7, a := 0, ty := 8, f := false, sat := false, imm := 5 }) ∧
  decodeSyl .va 0b000001_011_0_0000_010_001_0001000_0000001_0000010_0000011_10000_00000_0_0_0000#64 =
    .ok (.vfma .a { v := false, lat := 0, sh := 2, msk := 1, d := 8, a := 1, b := 2, c := 3, ty := 16, ty2 := 0, sat := false, pair := false,
                    xmod := 0 }) ∧
  decodeSyl .vb 0b000010_000_0_0000_000_000_0000101_1001001_00100_0_1_11111111111111111111111#64 =
    .ok (.vaddI .b { v := false, lat := 0, sh := 0, msk := 0, d := 5, a := 0x49, ty := 4, f := false, sat := true, imm := -1 }) ∧
  decodeSyl .e 0b000001_000_0_0000_000_000_0001010_0000110_0000000_11111111111111_01000_0000#64 =
    .ok (.ldS { v := false, lat := 0, sh := 0, msk := 0, d := 10, a := 6, b := 0, disp := -1, ty := 8 })

/-- R95-R98, R118: six syllables in slot order, with every operand at every value that their formats hold, come back from their bundle's
384 bits. -/
def Obligations.BundlesRoundTrip : Prop :=
  ∀ b : List Instr, b.map Instr.slot = slots → (∀ i ∈ b, i.row.isSome = true) → decodeBundle (encodeBundle b) = .ok b

/-- R96-R98, R116, R118: a word that decodes in a slot is the word of that instruction, which stands in that slot, so no two words of a slot
mean one instruction. The zero word is `nop` in every slot, which changes nothing, and the zero bundle is six of them; a word of OP 0 that
is not zero has no meaning (BAD_FIELD, reason 2), nor has one whose OP its class does not list. -/
def Obligations.DecodedWordsEncodeBack : Prop :=
  (∀ k, decodeSyl k 0 = .ok (.nop k) ∧ ∀ s, exec (.nop k) s = .next s) ∧ decodeBundle 0 = .ok (slots.map Instr.nop) ∧
  ∀ (k : Slot) (w : BitVec 64),
    (∀ i, decodeSyl k w = .ok i → i.slot = k ∧ encode i = w ∧ i.row.isSome = true) ∧
    (w ≠ 0 → w.extractLsb' 58 6 = 0 → decodeSyl k w = .error .badField) ∧
    (16 ≤ (w.extractLsb' 58 6).toNat → k = .sa ∨ k = .sb ∨ k = .e → decodeSyl k w = .error .badOp)

/-! ### Steps (R34, R35, R95, R105-R112) -/

/-- R34, R105-R112, R143: when no event acts, a step issues the next context's bundle. The halfword at PC names it: 0 is the bundle of six
`nop`, up to 0x7FF a dictionary entry, 0xFFFE a literal. Its syllables run in slot order, each as `exec` says, and the bundle commits
unless one of them faults or blocks; what the attempt met is counted all the same. A bundle that cannot be fetched faults in slot C. An
event of the outside world acts as `exec` says. -/
def Obligations.StepRunsTheBundle : Prop :=
  ∀ (s : State),
    (∀ turn g w lit b, s.agendaHead = none → s.dueEvent = none → s.nextIssue = some (turn, g) →
      let base : State := { s with fresh := s.fresh + 1, tried := g :: s.tried, cur := g, issue := {} }
      let at' : State := { base with issue := { literal := lit } }
      base.fetch g = .ok (w, lit) → decodeBundle w = .ok b → bundleReject b = none →
      (∀ t, issueAll b at' = .next t →
        (t.issue.fault = none → t.issue.block = none → step s = .next (base.commit t)) ∧
        (∀ f, t.issue.fault = some f → step s = .next (((base.faultMet b f).takeFault f).slipTaken f)) ∧
        (∀ x fx, t.issue.fault = none → t.issue.block = some (x, fx) →
          step s = .next (((base.issueMet b []).blockOn x fx).blockEffect fx))) ∧
      (∀ i t, b.filter (fun j => !j.isNop) = [i] → exec i at' = .next t → t.issue.fault = none → t.issue.block = none →
        step s = .next (base.commit t))) ∧
    (∀ turn g e, s.agendaHead = none → s.dueEvent = none → s.nextIssue = some (turn, g) →
      let base : State := { s with fresh := s.fresh + 1, tried := g :: s.tried, cur := g, issue := {} }
      base.fetch g = .error e → step s = .next ((State.issueMet (if e = 0x04 then base.vfSat base.me.vfid 0x11 0 1 else base) [] []).takeFault
        { slot := .c, code := e })) ∧
    (∀ i t, s.agendaHead = some (i, t) → i.row = none → i.eventOk = true → step s = exec i t) ∧
    (∀ i rest t, exec i s = .next t → issueAll [] s = .next s ∧ (t.issue.fault = none → issueAll (i :: rest) s = issueAll rest t) ∧
      (t.issue.fault ≠ none → issueAll (i :: rest) s = .next t)) ∧
    (∀ g i h, (s.core' (coreOf g)).image = some i → (s.core' (coreOf g)).badHalf = [] → (s.core' (coreOf g)).badEntry = [] →
      let pc := (s.ctx g).pc
      (i.stream.length ≤ pc → s.fetch g = .error 0x03) ∧
      (pc < i.stream.length → i.stream.getD pc 0 = h →
        (h = 0 → s.fetch g = .ok (0, false)) ∧
        (1 ≤ h → h < 0x800 → h < i.entries.length → s.fetch g = .ok (i.entries.getD h 0, false)) ∧
        (1 ≤ h → h < 0x800 → i.entries.length ≤ h → s.fetch g = .error 0x01) ∧
        (0x800 ≤ h → h ≠ 0xFFFE → s.fetch g = .error 0x02) ∧
        (h = 0xFFFE → ∃ w, s.fetch g = .ok (w, true) ∧
          ∀ j < 24, bits w (16 * j + 15) (16 * j) = i.stream.getD (pc + 1 + j) 0 % 2 ^ 16)))

/-- R62, R104-R106, R111, R143: a bundle that commits changes neither memory nor what a register holds: its results fly, the program counter,
the loop registers and the context's counters move, and a `crel` ends its quad's run. A sequential advance to `nx` looks at LP1, then at
LP0: where END is `nx`, a COUNT above 1 falls by one and the counter goes to START, and a COUNT of 1 becomes 0. A transfer leaves both
alone. A bundle that loops back to an offset at which no bundle starts faults BAD_TARGET (the model's choice: in slot C, and once no syllable
faults or blocks, log entry 70). A bundle that faults leaves every register, and
writes FAULTPT, FAULTPC and CTXCTL alone. -/
def Obligations.CommitAndFaultFrame : Prop :=
  (∀ (c : Ctx) (nx n1 s1 e1 n0 s0 e0 : Nat), n1 < 2 ^ 24 → s1 < 2 ^ 20 → e1 < 2 ^ 20 → n0 < 2 ^ 24 → s0 < 2 ^ 20 → e0 < 2 ^ 20 →
    c.lp1 = BitVec.ofNat 64 (n1 + s1 * 2 ^ 24 + e1 * 2 ^ 44) → c.lp0 = BitVec.ofNat 64 (n0 + s0 * 2 ^ 24 + e0 * 2 ^ 44) →
    let d := c.advance nx
    let drop := fun n s e : Nat => BitVec.ofNat 64 (n - 1 + s * 2 ^ 24 + e * 2 ^ 44)
    { d with pc := c.pc, lp0 := c.lp0, lp1 := c.lp1 } = c ∧
    (e1 = nx → 1 < n1 → d.pc = s1 ∧ d.lp1 = drop n1 s1 e1 ∧ d.lp0 = c.lp0) ∧
    (e1 ≠ nx ∨ n1 ≤ 1 → d.lp1 = (if e1 = nx ∧ n1 = 1 then drop n1 s1 e1 else c.lp1) ∧
      (e0 = nx → 1 < n0 → d.pc = s0 ∧ d.lp0 = drop n0 s0 e0) ∧
      (e0 ≠ nx ∨ n0 ≤ 1 → d.pc = nx ∧ d.lp0 = if e0 = nx ∧ n0 = 1 then drop n0 s0 e0 else c.lp0))) ∧
  ∀ (s t : State), t.cur = s.cur →
    let nx := t.me.pc + if t.issue.literal then 25 else 1
    (t.me.state = 1 → t.issue.fault = none →
      t.issue.next.isSome = true ∨ t.me.loopsBack nx = false ∨ (∃ i, t.image s.cur = some i ∧ i.startsAt (t.me.advance nx).pc = true) →
      let u := s.commit t
      u.issue.fault = none ∧ u.mem = t.mem ∧ u.wq = t.wq ∧ u.tick = t.tick ∧ u.me.sreg = t.me.sreg ∧ u.me.xreg = t.me.xreg ∧
        u.me.va = t.me.va ∧ u.me.vb = t.me.vb ∧ u.me.ma = t.me.ma ∧ u.me.mb = t.me.mb ∧ u.me.sh = t.me.sh ∧ u.me.tk = t.me.tk ∧
        u.me.memdef = t.me.memdef ∧ u.me.state = 1 ∧ (∀ g, g ≠ s.cur → u.ctx g = t.ctx g) ∧
        (t.issue.crel = false → u.quads = t.quads) ∧ (∀ q, q ≠ quadOf s.cur → u.quad q = t.quad q) ∧
        (t.issue.crel = true → u.quad (quadOf s.cur) =
          { t.quad (quadOf s.cur) with lease := { (t.quad (quadOf s.cur)).lease with ended := true } }) ∧
        (∀ n, t.issue.next = some n → u.me.pc = n ∧ u.me.lp0 = t.me.lp0 ∧ u.me.lp1 = t.me.lp1) ∧
        (t.issue.next = none → u.me.pc = (t.me.advance nx).pc ∧ u.me.lp0 = (t.me.advance nx).lp0 ∧ u.me.lp1 = (t.me.advance nx).lp1)) ∧
    (∀ i, t.issue.next = none → t.me.loopsBack nx = true → t.image s.cur = some i → i.startsAt (t.me.advance nx).pc = false →
      s.commit t = (s.countEcc (t.issue.ecc.eraseDups.length + (t.core' (coreOf s.cur)).softCode t.me.pc)).takeFault { slot := .c, code := 0x03 }) ∧
    (∀ f, f.mark = none → let u := s.takeFault f
      u.mem = s.mem ∧ u.wq = s.wq ∧ u.cores = s.cores ∧ u.quads = s.quads ∧ u.vfs = s.vfs ∧
        u.me.faultpt = BitVec.ofNat 64 (f.point % 2 ^ 32 + f.code % 256 * 2 ^ 32 + f.slot.num * 2 ^ 40 + 2 ^ 44) ∧ u.me.faultpc = s.me.pc ∧
        u.me.state = 3 ∧ u.me.pc = s.me.pc ∧ u.me.sreg = s.me.sreg ∧ u.me.xreg = s.me.xreg ∧ u.me.va = s.me.va ∧ u.me.vb = s.me.vb ∧
        u.me.ma = s.me.ma ∧ u.me.mb = s.me.mb ∧ u.me.sh = s.me.sh ∧ u.me.memdef = s.me.memdef ∧ u.me.evcfg = s.me.evcfg ∧
        u.me.st = s.me.st ∧ u.me.inflight = s.me.inflight ∧ u.me.tk = s.me.tk ∧
        u.me.lp0 = s.me.lp0 ∧ u.me.lp1 = s.me.lp1 ∧ u.me.evq = s.me.evq ∧ ∀ g, g ≠ s.cur → u.ctx g = s.ctx g)

/-- The model's own: every instruction and every event answers a next state in every state (log entry 18). So a step stops a run in two
cases alone, and no step is refused: at an event of the outside world that is an instruction or names a unit that does not exist, and at
the issue of a bundle that the loader rejects. -/
def Obligations.EveryMeaningAnswers : Prop :=
  (∀ (i : Instr) (s : State), ∃ t, exec i s = .next t) ∧
  ∀ (s : State),
    let noUnit := ∃ i t, s.agendaHead = some (i, t) ∧ (i.row.isSome = true ∨ i.eventOk = false)
    let rejected := s.agendaHead = none ∧ s.dueEvent = none ∧ ∃ turn g w lit, s.nextIssue = some (turn, g) ∧
      State.fetch { s with fresh := s.fresh + 1, tried := g :: s.tried, cur := g, issue := {} } g = .ok (w, lit) ∧
      ((∃ e, decodeBundle w = .error e) ∨ ∃ b, decodeBundle w = .ok b ∧ bundleReject b ≠ none)
    (noUnit → step s = .fault .noSuchUnit) ∧ (rejected → step s = .fault .rejectedBundle) ∧ (¬ noUnit → ¬ rejected → ∃ t, step s = .next t)

/-! ### Invariants and reset -/

/-- The model's own (log entry 7): memory lists its bytes at strictly rising addresses, none of them equal to what an unlisted byte reads as;
every step keeps it so. -/
def Obligations.StepsKeepMemoryCanonical : Prop := ∀ s t : State, memWf s.mem = true → step s = .next t → memWf t.mem = true

/-- R55, R376, R435-R437: at power-on reset the tick counter is 0, no context runs, no queue is mapped, DROOPCFG and GOVCFG hold their reset
values, boot is at step 0, and memory, in canonical form, lists nothing. The model's choices: scalar registers at 0 (log entry 16), and the
memory that lists nothing, whose bytes read as 0 (log entry 7). -/
def Obligations.ResetState : Prop :=
  let s := State.reset
  s.tick = 0 ∧ s.mem = [] ∧ memWf s.mem = true ∧ (∀ g, (s.ctx g).state = 0) ∧ (∀ n, (s.queue n).mapped = false) ∧ s.wq = [] ∧
    s.dealer.droopcfg = 0x10287AEE ∧ (∀ t, (s.tower t).govcfg = 0x6E325F) ∧ bits s.dealer.bootstate.toNat 2 0 = 0 ∧ s.dealer.launches = [] ∧
    (∀ n, s.readSh n = resetShape) ∧ (∀ n, s.readS n = 0)

/-! ### Translation, protection and isolation (R235-R242, R247, R350-R355, R373) -/

/-- R235, R237, R238, R242, R247, R350-R354, R373: an address goes to its function's lowest-numbered valid range entry that covers it, at
PBASE plus its distance from BASE; a Kitty address to its pool entry; any other with bits [63:48] zero to the page tables, from PTROOT. A TIER
that is not the window's, an illegal FMT, or nothing that maps it, is BAD_ADDRESS, and a walk through a bad or marked entry
TRANSLATE_POISON. No R or W, or outside the partition, is PROTECT; an absent token TOKEN; another tier than TSRAM, or a LAT too small,
TIER; a FACE access without the lease NO_LEASE. So every access that passes lies in its function's partition, two functions' partitions
share no byte of TSRAM or HBM, and a store puts into the write queue only bytes of its function's own. The model's choices: PROTECT is judged
before TOKEN (log entry 32), the attribute entries are those last loaded (log entry 78), the order of a FACE access's checks (log entry 27),
and that a cached entry or the memory's may be used until an invalidation (log entry 23). -/
def Obligations.TranslationProtectsFunctions : Prop :=
  (∀ e : Nat, rangeValid e = true ↔ e.testBit 192 = true ∧ bits e 63 0 ≤ bits e 127 64 ∧ bits e 63 0 % 4096 = 0 ∧
    (bits e 127 64 + 1 - bits e 63 0) % 4096 = 0 ∧ bits e 185 128 % 4096 = 0 ∧ (bits e 197 195 = 2 ∨ bits e 197 195 = 3 ∨ bits e 197 195 = 4) ∧
    bits e 191 186 = 0 ∧ e.testBit 199 = false ∧ bits e 255 240 = 0) ∧
  (∀ f : BitVec 40, fmtLegal f = true ↔ fmtWidth (fmtOf f) ≠ 0 ∧ bits f.toNat 7 5 < 5 ∧
    (bits f.toNat 7 5 = 0 ∨ fmtOf f ∈ [0x0A, 0x0B, 0x0C, 0x0D]) ∧ (bits f.toNat 11 8 = 0 ∨ fmtOf f = 0x0B) ∧
    (f.getLsbD 12 = false ∨ fmtOf f ∈ [0x0A, 0x0B, 0x0C, 0x0D])) ∧
  (∀ (s : State) (v : Nat) (va : Word),
    let a := va.toNat
    let bad : Except Halt Xlate := .error (.fault 0x10 0 va none)
    let entry := fun i => (tget 0 (s.vf v).ranges i).toNat
    let hit := fun i => rangeValid (entry i) = true ∧ bits (entry i) 63 0 ≤ a ∧ a ≤ bits (entry i) 127 64
    let fits := fun x : Xlate => x.tier = tierOf x.pa ∧ ∀ f, x.fmt = some f → fmtLegal f = true
    (∀ i < 32, isKitty va = false → hit i → (∀ j < i, ¬hit j) →
      let e := entry i
      let x : Xlate := { pa := bits e 185 128 + (a - bits e 63 0), tier := bits e 197 195, fmt := some (BitVec.ofNat 40 (bits e 239 200)),
                         map := i, r := e.testBit 193, w := e.testBit 194, tokreq := e.testBit 198 }
      (fits x → s.xmap v va = .ok x) ∧ (¬fits x → s.xmap v va = bad)) ∧
    ((∀ i < 32, ¬hit i) → isKitty va = false →
      (bits a 63 48 ≠ 0 → s.xmap v va = bad) ∧
      (bits a 63 48 = 0 → ∀ r, s.walk v a 3 (bits (s.vf v).part.toNat 447 384) [] = r →
        (∀ x, r = .ok x → (fits x → s.xmap v va = .ok x) ∧ (¬fits x → s.xmap v va = bad)) ∧
        (∀ c p q m, r = .error (.fault c p q m) → s.xmap v va = .error (.fault c p va m)))) ∧
    (bits a 63 48 = 0xFFFF → let e := (tget 0 (s.vf v).pool (bits a 47 36)).toNat
      (e.testBit 0 = false ∨ bits e 124 104 * 0x10000 ≤ bits a 35 0 → s.xmap v va = bad) ∧
      (e.testBit 0 = true → bits a 35 0 < bits e 124 104 * 0x10000 → ∃ x, s.xkitty v va = .ok x ∧ x.r = true ∧ x.w = true ∧ x.fmt = none ∧
        x.pa = 0x0200000000000000 + bits e 15 4 * 2 ^ 40 + (bits e 103 64 + bits a 35 0) % 2 ^ 40 ∧ x.tier = 5 ∧
        (x.lost = true ↔ bits e 2 1 = 2) ∧ s.xmap v va = .ok x)) ∧
    (∀ (lv table pa : Nat) (fills : List (Nat × Word)), pa = table + 8 * bits a (20 + 9 * lv) (12 + 9 * lv) →
      (tierOf pa ≠ 2 → tierOf pa ≠ 3 → s.walk v a lv table fills = .error (.code 0x10)) ∧
      (tierOf pa = 2 ∨ tierOf pa = 3 →
        (∀ h, s.walkRead v pa = .error h → s.walk v a lv table fills = .error h) ∧
        (∀ e, s.walkRead v pa = .ok e → let n := e.toNat
          let at' := (tget 0 (s.vf v).attrs (bits n 9 4)).toNat
          let size := 2 ^ (12 + 9 * lv)
          (n.testBit 0 = false ∨ bits n 11 10 ≠ 0 ∨ bits n 63 58 ≠ 0 ∨ (n.testBit 1 = true ∧ lv = 3) ∨ (n.testBit 1 = false ∧ lv = 0) →
            s.walk v a lv table fills = .error (.code 0x10)) ∧
          (n.testBit 0 = true → bits n 11 10 = 0 → bits n 63 58 = 0 →
            (∀ k, lv = k + 1 → n.testBit 1 = false → s.walk v a lv table fills =
              if bits n 9 4 = 0 then s.walk v a k (bits n 57 12 * 4096) (fills ++ [(pa, e)]) else .error (.code 0x10)) ∧
            (lv ≠ 3 → n.testBit 1 = true → s.walk v a lv table fills =
              if bits n 57 12 * 4096 % size = 0 ∧ bits at' 63 44 = 0 ∧ (bits at' 42 40 = 2 ∨ bits at' 42 40 = 3 ∨ bits at' 42 40 = 4) then
                .ok { pa := bits n 57 12 * 4096 + a % size, tier := bits at' 42 40, fmt := some (BitVec.ofNat 40 (bits at' 39 0)),
                      map := 64 + a / size * size, r := n.testBit 2, w := n.testBit 3, tokreq := at'.testBit 43, fills := fills ++ [(pa, e)] }
              else .error (.code 0x10)))))) ∧
    (∀ pa, let cached := (s.vf v).walk.find? fun e => e.1 = pa
      (cached = none → s.walkRead v pa = if badIn s.memBad pa 8 then .error (.fault 0x14 0 0 (some pa)) else
        .ok (BitVec.ofNat 64 (leRead s.mem pa 8))) ∧
      (∀ k w, cached = some (k, w) → (w.poison = true → s.walkRead v pa = .error (.fault 0x14 0 0 none)) ∧
        (w.poison = false → s.walkRead v pa = .ok w.val ∨ s.walkRead v pa = .ok (BitVec.ofNat 64 (leRead s.mem pa 8))))) ∧
    (∀ (x : Xlate) (rd wr : Bool) (cache : Nat), s.xmap v va = .ok x →
      ((rd = true ∧ x.r = false) ∨ (wr = true ∧ x.w = false) ∨ partOk (s.vf v).part.toNat x.pa = false →
        s.xlate v va rd wr cache = .error (.fault 0x11 0 va none)) ∧
      ((rd = true → x.r = true) → (wr = true → x.w = true) → partOk (s.vf v).part.toNat x.pa = true →
        s.xlate v va rd wr cache = if (x.tokreq = true ∨ (4 ≤ x.tier ∧ cache = 2)) ∧ s.hasToken x.pa = false then
          .error (.fault 0x13 0 va none) else .ok x))) ∧
  (∀ (s : State) (m : Mods) (va : Word) (n lat : Nat) (load : Bool),
    (m.space = 1 → (bits va.toNat 63 23 ≠ 0 ∨ 2 ^ 18 < bits va.toNat 17 0 + n →
        s.directPart m va n load lat = .error (.fault 0x10 0 va none)) ∧
      (bits va.toNat 63 23 = 0 → bits va.toNat 17 0 + n ≤ 2 ^ 18 →
        (s.holds s.cur = false → s.directPart m va n load lat = .error (.fault 0x0B 0 va none)) ∧
        (s.holds s.cur = true → ∃ x, s.directPart m va n load lat = .ok x ∧ x.tier = 1 ∧ x.fmt = none ∧ x.pa % 2 ^ 18 = bits va.toNat 17 0 ∧
          x.pa / 2 ^ 18 % 2 = bits va.toNat 18 18 ∧ x.pa / 2 ^ 20 = bits va.toNat 22 20 ∧ (x.pa / 2 ^ 19 % 2 = 1 ↔
            (bit (s.quad (quadOf s.cur)).front (2 * bits va.toNat 22 20 + bits va.toNat 18 18) ≠ va.getLsbD 19))))) ∧
    (m.space ≠ 1 → ∀ x, s.xmap s.me.vfid va = .ok x → s.permOk s.me.vfid x load (!load) = true →
      let far := portTower x.pa ≠ towerOf s.cur
      (x.tier ≠ 2 ∨ (load = true ∧ (lat < 32 ∨ (far ∧ lat < 56))) → s.directPart m va n load lat = .error (.fault 0x12 0 va none)) ∧
      (x.tier = 2 → (load = true → 32 ≤ lat ∧ (far → 56 ≤ lat)) → s.tokenOk x m.cache = true → s.directPart m va n load lat = .ok x))) ∧
  (∀ p t x : Nat, t < 4 → x < 2 ^ 27 → (partOk p (0x1000000000 + 0x10000000 * t + x) = true ↔
    bits p (256 + 16 * t + 7) (256 + 16 * t) * 2 ^ 20 ≤ x ∧
      x < (bits p (256 + 16 * t + 7) (256 + 16 * t) + bits p (256 + 16 * t + 15) (256 + 16 * t + 8)) * 2 ^ 20)) ∧
  (∀ p x : Nat, x < 2 ^ 39 → (partOk p (0x100000000000 + x) = true ↔
    (bits p 329 320 * 2 ^ 30 ≤ x ∧ x < (bits p 329 320 + bits p 339 330) * 2 ^ 30) ∨
      (bits p 349 340 * 2 ^ 30 ≤ x ∧ x < (bits p 349 340 + bits p 359 350) * 2 ^ 30))) ∧
  (∀ (s : State) (v p o pa : Nat), s.partGood v p = true → p.testBit 0 = true → o < 8 → o ≠ v → (s.vf o).part.getLsbD 0 = true →
    partOk p pa = true → partOk (s.vf o).part.toNat pa = true → tierOf pa ≠ 2 ∧ tierOf pa ≠ 3) ∧
  (∀ (s : State) (va : Word) (x : Xlate),
    (∀ v rd wr cache, s.xlate v va rd wr cache = .ok x → partOk (s.vf v).part.toNat x.pa = true ∧ x.tier = tierOf x.pa) ∧
    (∀ m n load lat, s.directPart m va n load lat = .ok x → (m.space = 1 ∧ x.tier = 1 ∧ s.holds s.cur = true) ∨
      (x.tier = 2 ∧ tierOf x.pa = 2 ∧ partOk (s.vf s.me.vfid).part.toNat x.pa = true)) ∧
    (∀ m rd wr far, s.remotePart m va rd wr far = .ok x → partOk (s.vf s.me.vfid).part.toNat x.pa = true ∧ x.tier = tierOf x.pa ∧
      x.tier ≠ 6)) ∧
  (∀ (s t : State) (o : FM), ∀ i ∈ [Instr.stS o, .stT o], exec i s = .next t →
    ∀ e ∈ t.wq, e ∈ s.wq ∨ (e.vf = s.me.vfid ∧ ((e.face = true ∧ e.quad = quadOf s.cur ∧ s.holds s.cur = true) ∨
      (e.face = false ∧ tierOf e.pa = 2 ∧ partOk (s.vf s.me.vfid).part.toNat e.pa = true))))
end

