-- ==== Sys2Proof/Laws/Encoding.lean ====
section
/-! SUPPORT. The encoder and the decoder of a syllable agree, field by field and format by format (R96, R98, R118). -/

namespace Sys2Proof.Laws

/-! ### Fields of a concatenation -/

theorem extract_append_hi {m n : Nat} (x : BitVec m) (y : BitVec n) (k l : Nat) (h : n ≤ k) :
    (x ++ y).extractLsb' k l = x.extractLsb' (k - n) l := by
  apply BitVec.eq_of_getLsbD_eq; intro i hi
  simp only [BitVec.getLsbD_extractLsb', BitVec.getLsbD_append]
  have : ¬ (k + i < n) := by omega
  simp [this, Nat.sub_add_comm h, hi]
theorem extract_append_lo {m n : Nat} (x : BitVec m) (y : BitVec n) (k l : Nat) (h : k + l ≤ n) :
    (x ++ y).extractLsb' k l = y.extractLsb' k l := by
  apply BitVec.eq_of_getLsbD_eq; intro i hi
  simp only [BitVec.getLsbD_extractLsb', BitVec.getLsbD_append]
  have : k + i < n := by omega
  simp [this]
theorem getLsbD_append_hi {m n : Nat} (x : BitVec m) (y : BitVec n) (k : Nat) (h : n ≤ k) :
    (x ++ y).getLsbD k = x.getLsbD (k - n) := by
  simp [BitVec.getLsbD_append]; omega
theorem getLsbD_append_lo {m n : Nat} (x : BitVec m) (y : BitVec n) (k : Nat) (h : k < n) :
    (x ++ y).getLsbD k = y.getLsbD k := by
  simp [BitVec.getLsbD_append]; omega
theorem extract_self {n : Nat} (x : BitVec n) (k : Nat) (h : k = 0) : x.extractLsb' k n = x := by subst h; simp
theorem getLsbD_flag (b : Bool) (k : Nat) (h : k = 0) : (flag b).getLsbD k = b := by subst h; cases b <;> rfl

/-- A field of the head of a word. -/
theorem extract_head (x : BitVec 34) (y : BitVec 30) (k l : Nat) (h : 30 ≤ k) :
    BitVec.extractLsb' k l (x ++ y : BitVec 64) = x.extractLsb' (k - 30) l := extract_append_hi x y k l h
/-- A field of its tail. -/
theorem extract_tail (x : BitVec 34) (y : BitVec 30) (k l : Nat) (h : k + l ≤ 30) :
    BitVec.extractLsb' k l (x ++ y : BitVec 64) = y.extractLsb' k l := extract_append_lo x y k l h
theorem bit_head (x : BitVec 34) (y : BitVec 30) (k : Nat) (h : 30 ≤ k) :
    BitVec.getLsbD (x ++ y : BitVec 64) k = x.getLsbD (k - 30) := getLsbD_append_hi x y k h
theorem bit_tail (x : BitVec 34) (y : BitVec 30) (k : Nat) (h : k < 30) :
    BitVec.getLsbD (x ++ y : BitVec 64) k = y.getLsbD k := getLsbD_append_lo x y k h

/-! ### The fields of the head (R96) -/

theorem head_op (op : BitVec 6) (f3 : BitVec 3) (v : Bool) (lat : BitVec 4) (sh msk : BitVec 3) (d a : BitVec 7) :
    (sylHead op f3 v lat sh msk d a).extractLsb' 28 6 = op := by
  show BitVec.extractLsb' (n := 6 + 3 + 1 + 4 + 3 + 3 + 7 + 7) 28 6 (op ++ f3 ++ flag v ++ lat ++ sh ++ msk ++ d ++ a) = op
  simp (disch := decide) only [extract_append_hi, extract_self]
theorem head_f3 (op : BitVec 6) (f3 : BitVec 3) (v : Bool) (lat : BitVec 4) (sh msk : BitVec 3) (d a : BitVec 7) :
    (sylHead op f3 v lat sh msk d a).extractLsb' 25 3 = f3 := by
  show BitVec.extractLsb' (n := 6 + 3 + 1 + 4 + 3 + 3 + 7 + 7) 25 3 (op ++ f3 ++ flag v ++ lat ++ sh ++ msk ++ d ++ a) = f3
  simp (disch := decide) only [extract_append_hi, extract_append_lo, extract_self]
theorem head_v (op : BitVec 6) (f3 : BitVec 3) (v : Bool) (lat : BitVec 4) (sh msk : BitVec 3) (d a : BitVec 7) :
    (sylHead op f3 v lat sh msk d a).getLsbD 24 = v := by
  show BitVec.getLsbD (w := 6 + 3 + 1 + 4 + 3 + 3 + 7 + 7) (op ++ f3 ++ flag v ++ lat ++ sh ++ msk ++ d ++ a) 24 = v
  simp (disch := decide) only [getLsbD_append_hi, getLsbD_append_lo, getLsbD_flag]
theorem head_lat (op : BitVec 6) (f3 : BitVec 3) (v : Bool) (lat : BitVec 4) (sh msk : BitVec 3) (d a : BitVec 7) :
    (sylHead op f3 v lat sh msk d a).extractLsb' 20 4 = lat := by
  show BitVec.extractLsb' (n := 6 + 3 + 1 + 4 + 3 + 3 + 7 + 7) 20 4 (op ++ f3 ++ flag v ++ lat ++ sh ++ msk ++ d ++ a) = lat
  simp (disch := decide) only [extract_append_hi, extract_append_lo, extract_self]
theorem head_sh (op : BitVec 6) (f3 : BitVec 3) (v : Bool) (lat : BitVec 4) (sh msk : BitVec 3) (d a : BitVec 7) :
    (sylHead op f3 v lat sh msk d a).extractLsb' 17 3 = sh := by
  show BitVec.extractLsb' (n := 6 + 3 + 1 + 4 + 3 + 3 + 7 + 7) 17 3 (op ++ f3 ++ flag v ++ lat ++ sh ++ msk ++ d ++ a) = sh
  simp (disch := decide) only [extract_append_hi, extract_append_lo, extract_self]
theorem head_msk (op : BitVec 6) (f3 : BitVec 3) (v : Bool) (lat : BitVec 4) (sh msk : BitVec 3) (d a : BitVec 7) :
    (sylHead op f3 v lat sh msk d a).extractLsb' 14 3 = msk := by
  show BitVec.extractLsb' (n := 6 + 3 + 1 + 4 + 3 + 3 + 7 + 7) 14 3 (op ++ f3 ++ flag v ++ lat ++ sh ++ msk ++ d ++ a) = msk
  simp (disch := decide) only [extract_append_hi, extract_append_lo, extract_self]
theorem head_d (op : BitVec 6) (f3 : BitVec 3) (v : Bool) (lat : BitVec 4) (sh msk : BitVec 3) (d a : BitVec 7) :
    (sylHead op f3 v lat sh msk d a).extractLsb' 7 7 = d := by
  show BitVec.extractLsb' (n := 6 + 3 + 1 + 4 + 3 + 3 + 7 + 7) 7 7 (op ++ f3 ++ flag v ++ lat ++ sh ++ msk ++ d ++ a) = d
  simp (disch := decide) only [extract_append_hi, extract_append_lo, extract_self]
theorem head_a (op : BitVec 6) (f3 : BitVec 3) (v : Bool) (lat : BitVec 4) (sh msk : BitVec 3) (d a : BitVec 7) :
    (sylHead op f3 v lat sh msk d a).extractLsb' 0 7 = a := by
  show BitVec.extractLsb' (n := 6 + 3 + 1 + 4 + 3 + 3 + 7 + 7) 0 7 (op ++ f3 ++ flag v ++ lat ++ sh ++ msk ++ d ++ a) = a
  simp (disch := decide) only [extract_append_lo, extract_self]

/-! ### Format FR (R98) -/

theorem FR.tail_b (b : BitVec 7) (c : BitVec 7) (ty : BitVec 5) (ty2 : BitVec 5) (sat : Bool) (pair : Bool) (xmod : BitVec 4) :
    BitVec.extractLsb' 23 7 ((b ++ c ++ ty ++ ty2 ++ flag sat ++ flag pair ++ xmod) : BitVec 30) = b := by
  show BitVec.extractLsb' (n := 7 + 7 + 5 + 5 + 1 + 1 + 4) 23 7 (b ++ c ++ ty ++ ty2 ++ flag sat ++ flag pair ++ xmod) = b
  simp (disch := decide) only [extract_append_hi, extract_self]
theorem FR.tail_c (b : BitVec 7) (c : BitVec 7) (ty : BitVec 5) (ty2 : BitVec 5) (sat : Bool) (pair : Bool) (xmod : BitVec 4) :
    BitVec.extractLsb' 16 7 ((b ++ c ++ ty ++ ty2 ++ flag sat ++ flag pair ++ xmod) : BitVec 30) = c := by
  show BitVec.extractLsb' (n := 7 + 7 + 5 + 5 + 1 + 1 + 4) 16 7 (b ++ c ++ ty ++ ty2 ++ flag sat ++ flag pair ++ xmod) = c
  simp (disch := decide) only [extract_append_hi, extract_append_lo, extract_self]
theorem FR.tail_ty (b : BitVec 7) (c : BitVec 7) (ty : BitVec 5) (ty2 : BitVec 5) (sat : Bool) (pair : Bool) (xmod : BitVec 4) :
    BitVec.extractLsb' 11 5 ((b ++ c ++ ty ++ ty2 ++ flag sat ++ flag pair ++ xmod) : BitVec 30) = ty := by
  show BitVec.extractLsb' (n := 7 + 7 + 5 + 5 + 1 + 1 + 4) 11 5 (b ++ c ++ ty ++ ty2 ++ flag sat ++ flag pair ++ xmod) = ty
  simp (disch := decide) only [extract_append_hi, extract_append_lo, extract_self]
theorem FR.tail_ty2 (b : BitVec 7) (c : BitVec 7) (ty : BitVec 5) (ty2 : BitVec 5) (sat : Bool) (pair : Bool) (xmod : BitVec 4) :
    BitVec.extractLsb' 6 5 ((b ++ c ++ ty ++ ty2 ++ flag sat ++ flag pair ++ xmod) : BitVec 30) = ty2 := by
  show BitVec.extractLsb' (n := 7 + 7 + 5 + 5 + 1 + 1 + 4) 6 5 (b ++ c ++ ty ++ ty2 ++ flag sat ++ flag pair ++ xmod) = ty2
  simp (disch := decide) only [extract_append_hi, extract_append_lo, extract_self]
theorem FR.tail_sat (b : BitVec 7) (c : BitVec 7) (ty : BitVec 5) (ty2 : BitVec 5) (sat : Bool) (pair : Bool) (xmod : BitVec 4) :
    BitVec.getLsbD ((b ++ c ++ ty ++ ty2 ++ flag sat ++ flag pair ++ xmod) : BitVec 30) 5 = sat := by
  show BitVec.getLsbD (w := 7 + 7 + 5 + 5 + 1 + 1 + 4) (b ++ c ++ ty ++ ty2 ++ flag sat ++ flag pair ++ xmod) 5 = sat
  simp (disch := decide) only [getLsbD_append_hi, getLsbD_append_lo, getLsbD_flag]
theorem FR.tail_pair (b : BitVec 7) (c : BitVec 7) (ty : BitVec 5) (ty2 : BitVec 5) (sat : Bool) (pair : Bool) (xmod : BitVec 4) :
    BitVec.getLsbD ((b ++ c ++ ty ++ ty2 ++ flag sat ++ flag pair ++ xmod) : BitVec 30) 4 = pair := by
  show BitVec.getLsbD (w := 7 + 7 + 5 + 5 + 1 + 1 + 4) (b ++ c ++ ty ++ ty2 ++ flag sat ++ flag pair ++ xmod) 4 = pair
  simp (disch := decide) only [getLsbD_append_hi, getLsbD_append_lo, getLsbD_flag]
theorem FR.tail_xmod (b : BitVec 7) (c : BitVec 7) (ty : BitVec 5) (ty2 : BitVec 5) (sat : Bool) (pair : Bool) (xmod : BitVec 4) :
    BitVec.extractLsb' 0 4 ((b ++ c ++ ty ++ ty2 ++ flag sat ++ flag pair ++ xmod) : BitVec 30) = xmod := by
  show BitVec.extractLsb' (n := 7 + 7 + 5 + 5 + 1 + 1 + 4) 0 4 (b ++ c ++ ty ++ ty2 ++ flag sat ++ flag pair ++ xmod) = xmod
  simp (disch := decide) only [extract_append_lo, extract_self]
theorem FR.word_op (op : BitVec 6) (f3 : BitVec 3) (o : FR) : sylOp (o.word op f3) = op :=
  (extract_head _ _ 58 6 (by decide)).trans (head_op ..)
theorem FR.word_f3 (op : BitVec 6) (f3 : BitVec 3) (o : FR) : sylF3 (o.word op f3) = f3 :=
  (extract_head _ _ 55 3 (by decide)).trans (head_f3 ..)
theorem FR.ofWord_word (op : BitVec 6) (f3 : BitVec 3) (o : FR) : FR.ofWord (o.word op f3) = o := by
  cases o
  simp only [FR.ofWord, FR.mk.injEq]
  exact ⟨(bit_head _ _ 54 (by decide)).trans (head_v ..),
    (extract_head _ _ 50 4 (by decide)).trans (head_lat ..),
    (extract_head _ _ 47 3 (by decide)).trans (head_sh ..),
    (extract_head _ _ 44 3 (by decide)).trans (head_msk ..),
    (extract_head _ _ 37 7 (by decide)).trans (head_d ..),
    (extract_head _ _ 30 7 (by decide)).trans (head_a ..),
    (extract_tail _ _ 23 7 (by decide)).trans (FR.tail_b ..),
    (extract_tail _ _ 16 7 (by decide)).trans (FR.tail_c ..),
    (extract_tail _ _ 11 5 (by decide)).trans (FR.tail_ty ..),
    (extract_tail _ _ 6 5 (by decide)).trans (FR.tail_ty2 ..),
    (bit_tail _ _ 5 (by decide)).trans (FR.tail_sat ..),
    (bit_tail _ _ 4 (by decide)).trans (FR.tail_pair ..),
    (extract_tail _ _ 0 4 (by decide)).trans (FR.tail_xmod ..)⟩

/-! ### Format FI (R98) -/

theorem FI.tail_ty (ty : BitVec 5) (f : Bool) (sat : Bool) (imm : BitVec 23) :
    BitVec.extractLsb' 25 5 ((ty ++ flag f ++ flag sat ++ imm) : BitVec 30) = ty := by
  show BitVec.extractLsb' (n := 5 + 1 + 1 + 23) 25 5 (ty ++ flag f ++ flag sat ++ imm) = ty
  simp (disch := decide) only [extract_append_hi, extract_self]
theorem FI.tail_f (ty : BitVec 5) (f : Bool) (sat : Bool) (imm : BitVec 23) :
    BitVec.getLsbD ((ty ++ flag f ++ flag sat ++ imm) : BitVec 30) 24 = f := by
  show BitVec.getLsbD (w := 5 + 1 + 1 + 23) (ty ++ flag f ++ flag sat ++ imm) 24 = f
  simp (disch := decide) only [getLsbD_append_hi, getLsbD_append_lo, getLsbD_flag]
theorem FI.tail_sat (ty : BitVec 5) (f : Bool) (sat : Bool) (imm : BitVec 23) :
    BitVec.getLsbD ((ty ++ flag f ++ flag sat ++ imm) : BitVec 30) 23 = sat := by
  show BitVec.getLsbD (w := 5 + 1 + 1 + 23) (ty ++ flag f ++ flag sat ++ imm) 23 = sat
  simp (disch := decide) only [getLsbD_append_hi, getLsbD_append_lo, getLsbD_flag]
theorem FI.tail_imm (ty : BitVec 5) (f : Bool) (sat : Bool) (imm : BitVec 23) :
    BitVec.extractLsb' 0 23 ((ty ++ flag f ++ flag sat ++ imm) : BitVec 30) = imm := by
  show BitVec.extractLsb' (n := 5 + 1 + 1 + 23) 0 23 (ty ++ flag f ++ flag sat ++ imm) = imm
  simp (disch := decide) only [extract_append_lo, extract_self]
theorem FI.word_op (op : BitVec 6) (f3 : BitVec 3) (o : FI) : sylOp (o.word op f3) = op :=
  (extract_head _ _ 58 6 (by decide)).trans (head_op ..)
theorem FI.word_f3 (op : BitVec 6) (f3 : BitVec 3) (o : FI) : sylF3 (o.word op f3) = f3 :=
  (extract_head _ _ 55 3 (by decide)).trans (head_f3 ..)
theorem FI.ofWord_word (op : BitVec 6) (f3 : BitVec 3) (o : FI) : FI.ofWord (o.word op f3) = o := by
  cases o
  simp only [FI.ofWord, FI.mk.injEq]
  exact ⟨(bit_head _ _ 54 (by decide)).trans (head_v ..),
    (extract_head _ _ 50 4 (by decide)).trans (head_lat ..),
    (extract_head _ _ 47 3 (by decide)).trans (head_sh ..),
    (extract_head _ _ 44 3 (by decide)).trans (head_msk ..),
    (extract_head _ _ 37 7 (by decide)).trans (head_d ..),
    (extract_head _ _ 30 7 (by decide)).trans (head_a ..),
    (extract_tail _ _ 25 5 (by decide)).trans (FI.tail_ty ..),
    (bit_tail _ _ 24 (by decide)).trans (FI.tail_f ..),
    (bit_tail _ _ 23 (by decide)).trans (FI.tail_sat ..),
    (extract_tail _ _ 0 23 (by decide)).trans (FI.tail_imm ..)⟩

/-! ### Format FM (R98) -/

theorem FM.tail_b (b : BitVec 7) (disp : BitVec 14) (ty : BitVec 5) :
    BitVec.extractLsb' 23 7 ((b ++ disp ++ ty ++ 0#4) : BitVec 30) = b := by
  show BitVec.extractLsb' (n := 7 + 14 + 5 + 4) 23 7 (b ++ disp ++ ty ++ 0#4) = b
  simp (disch := decide) only [extract_append_hi, extract_self]
theorem FM.tail_disp (b : BitVec 7) (disp : BitVec 14) (ty : BitVec 5) :
    BitVec.extractLsb' 9 14 ((b ++ disp ++ ty ++ 0#4) : BitVec 30) = disp := by
  show BitVec.extractLsb' (n := 7 + 14 + 5 + 4) 9 14 (b ++ disp ++ ty ++ 0#4) = disp
  simp (disch := decide) only [extract_append_hi, extract_append_lo, extract_self]
theorem FM.tail_ty (b : BitVec 7) (disp : BitVec 14) (ty : BitVec 5) :
    BitVec.extractLsb' 4 5 ((b ++ disp ++ ty ++ 0#4) : BitVec 30) = ty := by
  show BitVec.extractLsb' (n := 7 + 14 + 5 + 4) 4 5 (b ++ disp ++ ty ++ 0#4) = ty
  simp (disch := decide) only [extract_append_hi, extract_append_lo, extract_self]
theorem FM.tail_zero (b : BitVec 7) (disp : BitVec 14) (ty : BitVec 5) :
    BitVec.extractLsb' 0 4 ((b ++ disp ++ ty ++ 0#4) : BitVec 30) = 0#4 := by
  show BitVec.extractLsb' (n := 7 + 14 + 5 + 4) 0 4 (b ++ disp ++ ty ++ 0#4) = 0#4
  simp (disch := decide) only [extract_append_lo, extract_self]
theorem FM.word_op (op : BitVec 6) (f3 : BitVec 3) (o : FM) : sylOp (o.word op f3) = op :=
  (extract_head _ _ 58 6 (by decide)).trans (head_op ..)
theorem FM.word_f3 (op : BitVec 6) (f3 : BitVec 3) (o : FM) : sylF3 (o.word op f3) = f3 :=
  (extract_head _ _ 55 3 (by decide)).trans (head_f3 ..)
theorem FM.ofWord_word (op : BitVec 6) (f3 : BitVec 3) (o : FM) : FM.ofWord (o.word op f3) = o := by
  cases o
  simp only [FM.ofWord, FM.mk.injEq]
  exact ⟨(bit_head _ _ 54 (by decide)).trans (head_v ..),
    (extract_head _ _ 50 4 (by decide)).trans (head_lat ..),
    (extract_head _ _ 47 3 (by decide)).trans (head_sh ..),
    (extract_head _ _ 44 3 (by decide)).trans (head_msk ..),
    (extract_head _ _ 37 7 (by decide)).trans (head_d ..),
    (extract_head _ _ 30 7 (by decide)).trans (head_a ..),
    (extract_tail _ _ 23 7 (by decide)).trans (FM.tail_b ..),
    (extract_tail _ _ 9 14 (by decide)).trans (FM.tail_disp ..),
    (extract_tail _ _ 4 5 (by decide)).trans (FM.tail_ty ..)⟩
theorem FM.word_zero (op : BitVec 6) (f3 : BitVec 3) (o : FM) : (o.word op f3).extractLsb' 0 4 = 0 :=
  (extract_tail _ _ 0 4 (by decide)).trans (FM.tail_zero ..)

/-! ### Format FE (R98) -/

theorem FE.tail_b (b : BitVec 7) (tko : BitVec 5) (tka : BitVec 5) (tkb : BitVec 5) (tkc : BitVec 5) (ntk : BitVec 3) :
    BitVec.extractLsb' 23 7 ((b ++ tko ++ tka ++ tkb ++ tkc ++ ntk) : BitVec 30) = b := by
  show BitVec.extractLsb' (n := 7 + 5 + 5 + 5 + 5 + 3) 23 7 (b ++ tko ++ tka ++ tkb ++ tkc ++ ntk) = b
  simp (disch := decide) only [extract_append_hi, extract_self]
theorem FE.tail_tko (b : BitVec 7) (tko : BitVec 5) (tka : BitVec 5) (tkb : BitVec 5) (tkc : BitVec 5) (ntk : BitVec 3) :
    BitVec.extractLsb' 18 5 ((b ++ tko ++ tka ++ tkb ++ tkc ++ ntk) : BitVec 30) = tko := by
  show BitVec.extractLsb' (n := 7 + 5 + 5 + 5 + 5 + 3) 18 5 (b ++ tko ++ tka ++ tkb ++ tkc ++ ntk) = tko
  simp (disch := decide) only [extract_append_hi, extract_append_lo, extract_self]
theorem FE.tail_tka (b : BitVec 7) (tko : BitVec 5) (tka : BitVec 5) (tkb : BitVec 5) (tkc : BitVec 5) (ntk : BitVec 3) :
    BitVec.extractLsb' 13 5 ((b ++ tko ++ tka ++ tkb ++ tkc ++ ntk) : BitVec 30) = tka := by
  show BitVec.extractLsb' (n := 7 + 5 + 5 + 5 + 5 + 3) 13 5 (b ++ tko ++ tka ++ tkb ++ tkc ++ ntk) = tka
  simp (disch := decide) only [extract_append_hi, extract_append_lo, extract_self]
theorem FE.tail_tkb (b : BitVec 7) (tko : BitVec 5) (tka : BitVec 5) (tkb : BitVec 5) (tkc : BitVec 5) (ntk : BitVec 3) :
    BitVec.extractLsb' 8 5 ((b ++ tko ++ tka ++ tkb ++ tkc ++ ntk) : BitVec 30) = tkb := by
  show BitVec.extractLsb' (n := 7 + 5 + 5 + 5 + 5 + 3) 8 5 (b ++ tko ++ tka ++ tkb ++ tkc ++ ntk) = tkb
  simp (disch := decide) only [extract_append_hi, extract_append_lo, extract_self]
theorem FE.tail_tkc (b : BitVec 7) (tko : BitVec 5) (tka : BitVec 5) (tkb : BitVec 5) (tkc : BitVec 5) (ntk : BitVec 3) :
    BitVec.extractLsb' 3 5 ((b ++ tko ++ tka ++ tkb ++ tkc ++ ntk) : BitVec 30) = tkc := by
  show BitVec.extractLsb' (n := 7 + 5 + 5 + 5 + 5 + 3) 3 5 (b ++ tko ++ tka ++ tkb ++ tkc ++ ntk) = tkc
  simp (disch := decide) only [extract_append_hi, extract_append_lo, extract_self]
theorem FE.tail_ntk (b : BitVec 7) (tko : BitVec 5) (tka : BitVec 5) (tkb : BitVec 5) (tkc : BitVec 5) (ntk : BitVec 3) :
    BitVec.extractLsb' 0 3 ((b ++ tko ++ tka ++ tkb ++ tkc ++ ntk) : BitVec 30) = ntk := by
  show BitVec.extractLsb' (n := 7 + 5 + 5 + 5 + 5 + 3) 0 3 (b ++ tko ++ tka ++ tkb ++ tkc ++ ntk) = ntk
  simp (disch := decide) only [extract_append_lo, extract_self]
theorem FE.word_op (op : BitVec 6) (f3 : BitVec 3) (o : FE) : sylOp (o.word op f3) = op :=
  (extract_head _ _ 58 6 (by decide)).trans (head_op ..)
theorem FE.word_f3 (op : BitVec 6) (f3 : BitVec 3) (o : FE) : sylF3 (o.word op f3) = f3 :=
  (extract_head _ _ 55 3 (by decide)).trans (head_f3 ..)
theorem FE.ofWord_word (op : BitVec 6) (f3 : BitVec 3) (o : FE) : FE.ofWord (o.word op f3) = o := by
  cases o
  simp only [FE.ofWord, FE.mk.injEq]
  exact ⟨(bit_head _ _ 54 (by decide)).trans (head_v ..),
    (extract_head _ _ 50 4 (by decide)).trans (head_lat ..),
    (extract_head _ _ 47 3 (by decide)).trans (head_sh ..),
    (extract_head _ _ 44 3 (by decide)).trans (head_msk ..),
    (extract_head _ _ 37 7 (by decide)).trans (head_d ..),
    (extract_head _ _ 30 7 (by decide)).trans (head_a ..),
    (extract_tail _ _ 23 7 (by decide)).trans (FE.tail_b ..),
    (extract_tail _ _ 18 5 (by decide)).trans (FE.tail_tko ..),
    (extract_tail _ _ 13 5 (by decide)).trans (FE.tail_tka ..),
    (extract_tail _ _ 8 5 (by decide)).trans (FE.tail_tkb ..),
    (extract_tail _ _ 3 5 (by decide)).trans (FE.tail_tkc ..),
    (extract_tail _ _ 0 3 (by decide)).trans (FE.tail_ntk ..)⟩

/-! ### Format FB (R98) -/

theorem FB.tail_zero (cond : BitVec 4) (off : BitVec 23) :
    BitVec.extractLsb' 27 3 ((0#3 ++ cond ++ off) : BitVec 30) = 0#3 := by
  show BitVec.extractLsb' (n := 3 + 4 + 23) 27 3 (0#3 ++ cond ++ off) = 0#3
  simp (disch := decide) only [extract_append_hi, extract_self]
theorem FB.tail_cond (cond : BitVec 4) (off : BitVec 23) :
    BitVec.extractLsb' 23 4 ((0#3 ++ cond ++ off) : BitVec 30) = cond := by
  show BitVec.extractLsb' (n := 3 + 4 + 23) 23 4 (0#3 ++ cond ++ off) = cond
  simp (disch := decide) only [extract_append_hi, extract_append_lo, extract_self]
theorem FB.tail_off (cond : BitVec 4) (off : BitVec 23) :
    BitVec.extractLsb' 0 23 ((0#3 ++ cond ++ off) : BitVec 30) = off := by
  show BitVec.extractLsb' (n := 3 + 4 + 23) 0 23 (0#3 ++ cond ++ off) = off
  simp (disch := decide) only [extract_append_lo, extract_self]
theorem FB.word_op (op : BitVec 6) (f3 : BitVec 3) (o : FB) : sylOp (o.word op f3) = op :=
  (extract_head _ _ 58 6 (by decide)).trans (head_op ..)
theorem FB.word_f3 (op : BitVec 6) (f3 : BitVec 3) (o : FB) : sylF3 (o.word op f3) = f3 :=
  (extract_head _ _ 55 3 (by decide)).trans (head_f3 ..)
theorem FB.ofWord_word (op : BitVec 6) (f3 : BitVec 3) (o : FB) : FB.ofWord (o.word op f3) = o := by
  cases o
  simp only [FB.ofWord, FB.mk.injEq]
  exact ⟨(bit_head _ _ 54 (by decide)).trans (head_v ..),
    (extract_head _ _ 50 4 (by decide)).trans (head_lat ..),
    (extract_head _ _ 47 3 (by decide)).trans (head_sh ..),
    (extract_head _ _ 44 3 (by decide)).trans (head_msk ..),
    (extract_head _ _ 37 7 (by decide)).trans (head_d ..),
    (extract_head _ _ 30 7 (by decide)).trans (head_a ..),
    (extract_tail _ _ 23 4 (by decide)).trans (FB.tail_cond ..),
    (extract_tail _ _ 0 23 (by decide)).trans (FB.tail_off ..)⟩
theorem FB.word_zero (op : BitVec 6) (f3 : BitVec 3) (o : FB) : (o.word op f3).extractLsb' 27 3 = 0 :=
  (extract_tail _ _ 27 3 (by decide)).trans (FB.tail_zero ..)

/-! ### Format FX (R98) -/

theorem FX.tail_b (b : BitVec 7) (imm : BitVec 23) :
    BitVec.extractLsb' 23 7 ((b ++ imm) : BitVec 30) = b := by
  show BitVec.extractLsb' (n := 7 + 23) 23 7 (b ++ imm) = b
  simp (disch := decide) only [extract_append_hi, extract_self]
theorem FX.tail_imm (b : BitVec 7) (imm : BitVec 23) :
    BitVec.extractLsb' 0 23 ((b ++ imm) : BitVec 30) = imm := by
  show BitVec.extractLsb' (n := 7 + 23) 0 23 (b ++ imm) = imm
  simp (disch := decide) only [extract_append_lo, extract_self]
theorem FX.word_op (op : BitVec 6) (f3 : BitVec 3) (o : FX) : sylOp (o.word op f3) = op :=
  (extract_head _ _ 58 6 (by decide)).trans (head_op ..)
theorem FX.word_f3 (op : BitVec 6) (f3 : BitVec 3) (o : FX) : sylF3 (o.word op f3) = f3 :=
  (extract_head _ _ 55 3 (by decide)).trans (head_f3 ..)
theorem FX.ofWord_word (op : BitVec 6) (f3 : BitVec 3) (o : FX) : FX.ofWord (o.word op f3) = o := by
  cases o
  simp only [FX.ofWord, FX.mk.injEq]
  exact ⟨(bit_head _ _ 54 (by decide)).trans (head_v ..),
    (extract_head _ _ 50 4 (by decide)).trans (head_lat ..),
    (extract_head _ _ 47 3 (by decide)).trans (head_sh ..),
    (extract_head _ _ 44 3 (by decide)).trans (head_msk ..),
    (extract_head _ _ 37 7 (by decide)).trans (head_d ..),
    (extract_head _ _ 30 7 (by decide)).trans (head_a ..),
    (extract_tail _ _ 23 7 (by decide)).trans (FX.tail_b ..),
    (extract_tail _ _ 0 23 (by decide)).trans (FX.tail_imm ..)⟩

end Sys2Proof.Laws
end

