-- ==== Sys2Proof/Laws/Gate.lean ====
section
/-! SUPPORT. The common checks of a syllable at issue, said once (R59, R329, R330, R405). -/

namespace Sys2Proof.Machine

@[simp] theorem noted_me (s : State) (i : Instr) : (s.noted i).me = s.me := rfl
@[simp] theorem noted_rs (s : State) (i : Instr) (x : BitVec 7) : (s.noted i).rs x = s.rs x := rfl
@[simp] theorem noted_spec (s : State) (i : Instr) (F : Nat) (x : BitVec 7) : (s.noted i).spec F x = s.spec F x := rfl
@[simp] theorem noted_readX (s : State) (i : Instr) (n : Nat) : (s.noted i).readX n = s.readX n := rfl
@[simp] theorem noted_readV (s : State) (i : Instr) (p : Cl) (n : Nat) : (s.noted i).readV p n = s.readV p n := rfl
@[simp] theorem noted_readM (s : State) (i : Instr) (p : Cl) (n : Nat) : (s.noted i).readM p n = s.readM p n := rfl
@[simp] theorem noted_readSh (s : State) (i : Instr) (n : Nat) : (s.noted i).readSh n = s.readSh n := rfl
@[simp] theorem noted_cur (s : State) (i : Instr) : (s.noted i).cur = s.cur := rfl
@[simp] theorem noted_tick (s : State) (i : Instr) : (s.noted i).tick = s.tick := rfl
@[simp] theorem noted_mem (s : State) (i : Instr) : (s.noted i).mem = s.mem := rfl
@[simp] theorem noted_quad (s : State) (i : Instr) (q : Nat) : (s.noted i).quad q = s.quad q := rfl

/-- A check that accepts every element accepts the list. -/
theorem checkAll_ok {α : Type} (f : α → Except Halt Unit) (l : List α) (h : ∀ x ∈ l, f x = .ok ()) : checkAll f l = .ok () := by
  have key : ∀ g : α → Option Halt, (∀ x ∈ l, g x = none) → l.filterMap g = [] := fun g hg => List.filterMap_eq_nil_iff.2 hg
  unfold checkAll
  rw [key _ fun x hx => by rw [h x hx]]
  rfl

/-- A source that is ready is read, and a stream's tile is noted. -/
theorem streamRead_ready (s : State) (r : RegId) (h : s.sourceReady r = true) :
    s.streamRead r = .ok { s with issue := { s.issue with consumed := s.me.taken s.issue.consumed r } } := by
  unfold State.sourceReady at h
  unfold State.streamRead Ctx.taken
  cases hb : s.me.boundTo r with
  | none => rfl
  | some n => simp_all

/-- A destination that is ready is accepted. -/
theorem streamWrite_ready (s : State) (r : RegId) (h : s.targetReady r = true) : s.streamWrite r = .ok () := by
  unfold State.targetReady at h
  unfold State.streamWrite
  cases hb : s.me.boundTo r with
  | none => rfl
  | some n => simp_all

/-- A list of ready sources is read in order. -/
theorem foldRead_ready (l : List RegId) (s : State) (h : ∀ r ∈ l, s.sourceReady r = true) :
    l.foldlM State.streamRead s = .ok { s with issue := { s.issue with consumed := l.foldl s.me.taken s.issue.consumed } } := by
  induction l generalizing s with
  | nil => rfl
  | cons r l ih =>
    rw [List.foldlM_cons, streamRead_ready s r (h r (by simp))]
    exact ih _ fun x hx => h x (by simp [hx])

/-- An open destination passes its check. -/
theorem targetGate_open (s : State) (i : Instr) (r : RegId) (h : s.targetOpen i r = true) : s.targetGate i r = .ok () := by
  by_cases hc : ∃ o, i = .cspop o
  · obtain ⟨o, rfl⟩ := hc
    simp only [State.targetOpen] at h
    simp only [State.targetGate, ensure, h, if_true]
  · have ho : s.targetOpen i r = s.targetReady r := by
      unfold State.targetOpen; split
      · exact absurd ⟨_, rfl⟩ hc
      · rfl
    have hg : s.targetGate i r = s.streamWrite r := by
      unfold State.targetGate; split
      · exact absurd ⟨_, rfl⟩ hc
      · rfl
    exact hg.trans (streamWrite_ready s r (ho ▸ h))

/-- With its operands ready a syllable passes the common checks, which note what it reads and change nothing else. -/
theorem gate_ready (s : State) (i : Instr) (h : s.operandsReady i = true) : s.gate i = .ok (s.noted i) := by
  simp only [State.operandsReady, Bool.and_eq_true, List.all_eq_true] at h
  obtain ⟨hs, ht⟩ := h
  have hp : (s.sources i).any s.me.poison.contains = false := by
    rw [List.any_eq_false]; intro r hr
    have := hs r hr
    simp only [State.sourceReady, Bool.and_eq_true] at this
    simpa using this.1
  have hpg : s.poisonGate i = .ok { s with issue := { s.issue with ecc := s.issue.ecc ++ (s.sources i).filter s.me.soft.contains } } := by
    simp only [State.poisonGate, hp]; rfl
  unfold State.gate
  rw [hpg]
  show State.streamGate _ i = _
  unfold State.streamGate
  generalize he : ({ s with issue := { s.issue with ecc := s.issue.ecc ++ (s.sources i).filter s.me.soft.contains } } : State) = t
  have hts : ∀ r ∈ t.sources i, t.sourceReady r = true := by subst he; exact hs
  have htt : ∀ r ∈ t.targets i, t.targetOpen i r = true := by subst he; exact ht
  have h1 := checkAll_ok (fun r => (t.streamRead r).map fun _ => ()) (t.sources i)
    fun r hr => by rw [streamRead_ready t r (hts r hr)]; rfl
  have h2 := checkAll_ok (t.targetGate i) (t.targets i) fun r hr => targetGate_open t i r (htt r hr)
  show (checkAll _ (t.sources i)).bind (fun _ => (checkAll (t.targetGate i) (t.targets i)).bind
    fun _ => (t.sources i).foldlM State.streamRead t) = _
  rw [h1, h2]
  refine (foldRead_ready (t.sources i) t hts).trans ?_
  subst he
  rfl

/-- A syllable with its operands ready ends as its own effect ends. -/
theorem syl_ready (s : State) (i : Instr) (f : State → Except Halt State) (h : s.operandsReady i = true) :
    s.syl i f = settle i.slot s (f (s.noted i)) := by
  simp only [State.syl, gate_ready s i h, Except.bind]

/-- A syllable's own effect, its fault and its block are all next states. -/
theorem settle_next (k : Slot) (s : State) (r : Except Halt State) : ∃ t, settle k s r = .next t := by
  unfold settle
  split <;> exact ⟨_, rfl⟩
/-- A syllable behind the common checks answers a next state. -/
theorem syl_next (s : State) (i : Instr) (f : State → Except Halt State) : ∃ t, s.syl i f = .next t := settle_next _ _ _

end Sys2Proof.Machine
end

