-- ==== Sys2Proof/Laws/Memory.lean ====
section
/-! SUPPORT. Tables and memory: reading after writing, and the canonical form that every memory operation keeps (R3, R246, R341). -/

namespace Sys2Proof.Machine

/-! ### Sparse tables -/

section Table
variable {α : Type} [DecidableEq α] (d : α)

omit [DecidableEq α] in
theorem tget_tput_self (t : Tbl α) (k : Nat) (v : α) : tget d (tput t k v) k = v := by
  induction t with
  | nil => simp [tput, tget]
  | cons e t ih =>
    unfold tput
    split_ifs with h1 h2
    · simp [tget]
    · simp [tget]
    · simp [tget, Ne.symm h2, ih]
omit [DecidableEq α] in
theorem tget_tput_ne (t : Tbl α) (k j : Nat) (v : α) (h : j ≠ k) : tget d (tput t k v) j = tget d t j := by
  induction t with
  | nil => simp [tput, tget, Ne.symm h]
  | cons e t ih =>
    unfold tput
    split_ifs with h1 h2
    · simp [tget, Ne.symm h]
    · subst h2
      simp [tget, Ne.symm h]
    · simp [tget, ih]
omit [DecidableEq α] in
theorem tget_drop (t : Tbl α) (k j : Nat) : tget d (t.filter fun e => e.1 ≠ k) j = if j = k then d else tget d t j := by
  induction t with
  | nil => simp [tget]
  | cons e t ih =>
    by_cases hk : e.1 = k
    · by_cases hj : j = k <;> simp_all [tget]
      exact fun h => absurd h.symm hj
    · by_cases hj : j = k <;> simp_all [tget]

/-- A table reads what was written. -/
@[simp] theorem tget_tset_self (t : Tbl α) (k : Nat) (v : α) : tget d (tset d t k v) k = v := by
  unfold tset
  split_ifs with hv
  · rw [tget_drop, if_pos rfl, hv]
  · exact tget_tput_self d t k v

/-- A write leaves every other entry alone. -/
theorem tget_tset_ne (t : Tbl α) (k j : Nat) (v : α) (h : j ≠ k) : tget d (tset d t k v) j = tget d t j := by
  unfold tset
  split_ifs with hv
  · rw [tget_drop, if_neg h]
  · exact tget_tput_ne d t k j v h

theorem twfFrom_mono (t : Tbl α) {a b : Nat} (h : a ≤ b) (ht : twfFrom d b t = true) : twfFrom d a t = true := by
  cases t with
  | nil => rfl
  | cons e t =>
    obtain ⟨i, w⟩ := e
    simp only [twfFrom, Bool.and_eq_true, decide_eq_true_eq] at ht ⊢
    exact ⟨⟨le_trans h ht.1.1, ht.1.2⟩, ht.2⟩

theorem tget_below (t : Tbl α) (lo k : Nat) (h : k < lo) (ht : twfFrom d lo t = true) : tget d t k = d := by
  induction t generalizing lo with
  | nil => rfl
  | cons e t ih =>
    obtain ⟨i, w⟩ := e
    simp only [twfFrom, Bool.and_eq_true, decide_eq_true_eq] at ht
    have hne : i ≠ k := by omega
    simp only [tget, hne, if_false]
    exact ih (i + 1) (by omega) ht.2

theorem twfFrom_tput (t : Tbl α) (lo k : Nat) (v : α) (hk : lo ≤ k) (hv : v ≠ d) (ht : twfFrom d lo t = true) :
    twfFrom d lo (tput t k v) = true := by
  induction t generalizing lo with
  | nil => simp [tput, hv, twfFrom, hk]
  | cons e t ih =>
    obtain ⟨i, w⟩ := e
    simp only [twfFrom, Bool.and_eq_true, decide_eq_true_eq] at ht
    obtain ⟨⟨h1, h2⟩, h3⟩ := ht
    unfold tput
    split_ifs with hki hki'
    · simp only [twfFrom, Bool.and_eq_true, decide_eq_true_eq]
      exact ⟨⟨hk, hv⟩, ⟨by omega, h2⟩, h3⟩
    · subst hki'
      simp only [twfFrom, Bool.and_eq_true, decide_eq_true_eq]
      exact ⟨⟨hk, hv⟩, h3⟩
    · simp only [twfFrom, Bool.and_eq_true, decide_eq_true_eq]
      exact ⟨⟨h1, h2⟩, ih (i + 1) (by omega) h3⟩
theorem twfFrom_drop (t : Tbl α) (lo k : Nat) (ht : twfFrom d lo t = true) : twfFrom d lo (t.filter fun e => e.1 ≠ k) = true := by
  induction t generalizing lo with
  | nil => rfl
  | cons e t ih =>
    obtain ⟨i, w⟩ := e
    simp only [twfFrom, Bool.and_eq_true, decide_eq_true_eq] at ht
    by_cases hk : i = k
    · simpa [List.filter_cons, hk] using ih lo (twfFrom_mono d t (by omega) ht.2)
    · simpa [List.filter_cons, hk, twfFrom, ht.1.1, ht.1.2] using ih (i + 1) ht.2

/-- A write keeps a table canonical. -/
theorem twf_tset (t : Tbl α) (k : Nat) (v : α) (ht : twf d t = true) : twf d (tset d t k v) = true := by
  unfold tset
  split_ifs with hv
  · exact twfFrom_drop d t 0 k ht
  · exact twfFrom_tput d t 0 k v (Nat.zero_le k) hv ht

/-- Canonical means: keys strictly rising and nothing listed that is the default. -/
theorem twfFrom_iff (t : Tbl α) (lo : Nat) :
    twfFrom d lo t = true ↔ (∀ e ∈ t, lo ≤ e.1 ∧ e.2 ≠ d) ∧ t.Pairwise fun a b => a.1 < b.1 := by
  induction t generalizing lo with
  | nil => simp [twfFrom]
  | cons e t ih =>
    obtain ⟨i, w⟩ := e
    simp only [twfFrom, Bool.and_eq_true, decide_eq_true_eq, ih, List.mem_cons, List.pairwise_cons]
    constructor
    · rintro ⟨⟨h1, h2⟩, h3, h4⟩
      refine ⟨?_, fun a ha => (h3 a ha).1, h4⟩
      rintro a (rfl | ha)
      · exact ⟨h1, h2⟩
      · exact ⟨by have := (h3 a ha).1; omega, (h3 a ha).2⟩
    · rintro ⟨h1, h2, h3⟩
      exact ⟨h1 _ (.inl rfl), fun a ha => ⟨h2 a ha, (h1 a (.inr ha)).2⟩, h3⟩

theorem twf_iff (t : Tbl α) : twf d t = true ↔ (∀ e ∈ t, e.2 ≠ d) ∧ t.Pairwise fun a b => a.1 < b.1 := by
  unfold twf; rw [twfFrom_iff]; simp

/-- Leaving entries out keeps a table canonical. -/
theorem twf_filter (t : Tbl α) (p : Nat × α → Bool) (ht : twf d t = true) : twf d (t.filter p) = true := by
  rw [twf_iff] at ht ⊢
  exact ⟨fun e he => ht.1 e (List.mem_of_mem_filter he), ht.2.filter p⟩

end Table

/-! ### Bytes -/

theorem byteAt_setByte_self (m : List Host.Cell) (a : Nat) (b : Byte) : byteAt (setByte m a b) a = b :=
  tget_tset_self 0 m a b
theorem byteAt_setByte_ne (m : List Host.Cell) (a c : Nat) (b : Byte) (h : c ≠ a) : byteAt (setByte m a b) c = byteAt m c :=
  tget_tset_ne 0 m a c b h
theorem memWf_setByte (m : List Host.Cell) (a : Nat) (b : Byte) (h : memWf m = true) : memWf (setByte m a b) = true :=
  twf_tset 0 m a b h
theorem memWf_filter (m : List Host.Cell) (p : Host.Cell → Bool) (h : memWf m = true) : memWf (m.filter p) = true :=
  twf_filter 0 m p h

theorem memWf_leWrite (m : List Host.Cell) (a v n : Nat) (h : memWf m = true) : memWf (leWrite m a v n) = true := by
  induction n generalizing m a v with
  | zero => exact h
  | succ n ih => exact ih _ _ _ (memWf_setByte m a _ h)
/-- A little-endian write leaves the bytes outside it alone. -/
theorem byteAt_leWrite_out (m : List Host.Cell) (a v n c : Nat) (h : c < a ∨ a + n ≤ c) : byteAt (leWrite m a v n) c = byteAt m c := by
  induction n generalizing m a v with
  | zero => rfl
  | succ n ih => exact (ih _ _ _ (by omega)).trans (byteAt_setByte_ne m a c _ (by omega))
/-- Reading back a little-endian write. -/
theorem leRead_leWrite (m : List Host.Cell) (a v n : Nat) : leRead (leWrite m a v n) a n = v % 256 ^ n := by
  induction n generalizing m a v with
  | zero => simp [leRead, Nat.mod_one]
  | succ n ih =>
    simp only [leRead, leWrite]
    rw [byteAt_leWrite_out _ _ _ _ _ (.inl (Nat.lt_succ_self a)), byteAt_setByte_self m a _, ih]
    have hv : (BitVec.ofNat 8 v).toNat = v % 256 := by simp
    rw [hv, pow_succ, Nat.mul_comm (256 ^ n) 256, Nat.mod_mul]
theorem leRead_leWrite_out (m : List Host.Cell) (a v n c k : Nat) (h : c + k ≤ a ∨ a + n ≤ c) :
    leRead (leWrite m a v n) c k = leRead m c k := by
  induction k generalizing c with
  | zero => rfl
  | succ k ih => simp only [leRead]; rw [byteAt_leWrite_out _ _ _ _ _ (by omega), ih _ (by omega)]

/-! ### Operations on memory keep its canonical form -/

/-- A fold of steps that keep a property keeps it. -/
theorem foldl_keeps {α β : Type} (p : α → Prop) (f : α → β → α) (hf : ∀ a b, p a → p (f a b)) (l : List β) (a : α) (h : p a) :
    p (l.foldl f a) := by
  induction l generalizing a with
  | nil => exact h
  | cons b l ih => exact ih _ (hf a b h)

theorem memWf_writeBack (m : List Host.Cell) (l : Nat × CacheLine) (h : memWf m = true) : memWf (writeBack m l) = true := by
  unfold writeBack; split
  · exact memWf_leWrite _ _ _ _ h
  · exact h
theorem memWf_cacheFill (s : State) (n : Nat) (k : Bool) (h : memWf s.mem = true) : memWf (s.cacheFill n k).mem = true := by
  unfold State.cacheFill
  split
  · exact h
  · show memWf (if _ then s else _).mem = true
    split
    · exact h
    · split
      · exact h
      · exact memWf_writeBack _ _ h
theorem memWf_cacheRead (s : State) (pa n c : Nat) (h : memWf s.mem = true) : memWf (s.cacheRead pa n c).mem = true := by
  unfold State.cacheRead
  split
  · exact h
  · exact foldl_keeps (fun t : State => memWf t.mem = true) _ (fun t i => memWf_cacheFill t _ _) _ _ h
theorem memWf_cleanLines (s : State) (p : Nat → Bool) (h : memWf s.mem = true) : memWf (s.cleanLines p).mem = true := by
  refine foldl_keeps (fun m => memWf m = true) _ (fun m l hm => ?_) _ _ h
  split
  · exact memWf_writeBack _ _ hm
  · exact hm
@[simp] theorem dropLines_mem (s : State) (p : Nat → Bool) : (s.dropLines p).mem = s.mem := rfl
theorem memWf_putByte (s : State) (a : Nat) (v e : Byte) (h : memWf s.mem = true) : memWf (s.putByte a v e).mem = true := by
  unfold State.putByte; split
  · exact h
  · exact memWf_setByte _ _ _ h
theorem memWf_storeCells (s : State) (pa : Nat) (cells : List Sys2Proof.Cell) (c : Nat) (h : memWf s.mem = true) :
    memWf (s.storeCells pa cells c).mem = true := by
  unfold State.storeCells
  have h1 : ∀ u : State, memWf u.mem = true → memWf (if c = 3 then u.cleanLines
      (fun l => cells.any fun c => (pa + c.off) / 64 = l) else u).mem = true := by
    intro u hu; split
    · exact memWf_cleanLines _ _ hu
    · exact hu
  refine h1 _ (foldl_keeps (fun t : State => memWf t.mem = true) _ (fun t x => memWf_putByte t _ _ _) _ _ ?_)
  split
  · exact foldl_keeps (fun t : State => memWf t.mem = true) _ (fun t x => memWf_cacheFill t _ _) _ _ h
  · exact h
theorem memWf_awayWrite (m : List Host.Cell) (pa : Nat) (cells : List Sys2Proof.Cell) (h : memWf m = true) :
    memWf (awayWrite m pa cells) = true :=
  foldl_keeps (fun m => memWf m = true) _ (fun m _ => memWf_setByte m _ _) _ _ h
theorem memWf_wipe (m : List Host.Cell) (a n : Nat) (h : memWf m = true) : memWf (wipe m a n) = true := memWf_filter _ _ h
/-- A block copied over another keeps memory canonical. -/
theorem memWf_blit (m : List Host.Cell) (src dst n : Nat) (h : memWf m = true) : memWf (blit m src dst n) = true := by
  unfold memWf at h ⊢
  rw [twf_iff] at h ⊢
  obtain ⟨h1, h2⟩ := h
  unfold blit
  constructor
  · intro e he
    simp only [List.mem_append, List.mem_filter, List.mem_map] at he
    rcases he with (he | ⟨x, hx, rfl⟩) | he
    · exact h1 _ he.1
    · exact h1 x hx.1
    · exact h1 _ he.1
  · rw [List.pairwise_append, List.pairwise_append]
    refine ⟨⟨h2.filter _, ?_, ?_⟩, h2.filter _, ?_⟩
    · rw [List.pairwise_map]
      refine (h2.filter _).imp_of_mem ?_
      intro a b ha hb hab
      simp only [List.mem_filter, decide_eq_true_eq] at ha hb
      show a.1 - src + dst < b.1 - src + dst
      omega
    · intro a ha b hb
      simp only [List.mem_filter, List.mem_map, decide_eq_true_eq] at ha hb
      obtain ⟨x, hx, rfl⟩ := hb
      show a.1 < x.1 - src + dst
      omega
    · intro a ha b hb
      simp only [List.mem_append, List.mem_filter, List.mem_map, decide_eq_true_eq] at ha hb
      rcases ha with ha | ⟨x, hx, rfl⟩
      · omega
      · show x.1 - src + dst < b.1
        omega

/-! ### Performed writes -/

/-- The memory of `t` is canonical when that of `s` is. -/
def Keeps (s t : State) : Prop := memWf s.mem = true → memWf t.mem = true
theorem Keeps.rfl {s : State} : Keeps s s := id
theorem Keeps.of_eq {s t : State} (h : t.mem = s.mem) : Keeps s t := fun hs => by rw [h]; exact hs
theorem Keeps.trans {s t u : State} (h : Keeps s t) (k : Keeps t u) : Keeps s u := fun hs => k (h hs)
theorem Keeps.foldl {β : Type} (f : State → β → State) (h : ∀ s b, Keeps s (f s b)) (l : List β) (s : State) : Keeps s (l.foldl f s) :=
  fun hs => foldl_keeps (fun t : State => memWf t.mem = true) f (fun t b => h t b) l s hs

theorem mem_foldl {β : Type} (f : State → β → State) (h : ∀ s b, (f s b).mem = s.mem) (l : List β) (s : State) : (l.foldl f s).mem = s.mem := by
  induction l generalizing s with
  | nil => rfl
  | cons b l ih => exact (ih _).trans (h s b)

@[simp] theorem enqueue_mem (s : State) (e : WqEntry) : (s.enqueue e).mem = s.mem := rfl
@[simp] theorem countBytes_mem (s : State) (pa n : Nat) : (s.countBytes pa n).mem = s.mem := by
  unfold State.countBytes
  exact mem_foldl _ (fun _ _ => by rfl) _ _
@[simp] theorem meldFlush_mem (s : State) (g m : Nat) : (s.meldFlush g m).mem = s.mem := by
  unfold State.meldFlush
  dsimp only
  rw [mem_foldl State.meldOut (fun _ _ => by rfl)]
  rfl

theorem ringTail_keeps (s t : State) (v pa : Nat) (h : s.ringTail v pa = some t) : Keeps s t := by
  intro hs
  unfold State.ringTail at h
  split at h
  · split at h
    · cases h; exact hs
    · cases h
  · dsimp only at h
    split at h
    · cases h; exact memWf_leWrite _ _ _ _ (memWf_leWrite _ _ _ _ hs)
    · cases h
/-- A fired packet rings a doorbell or queues its write. -/
theorem firePacket_keeps (s t : State) (v p : Nat) (h : s.firePacket v p = some t) : Keeps s t := by
  unfold State.firePacket at h
  dsimp only at h
  split at h
  · obtain ⟨x, -, hx⟩ := Option.bind_eq_some_iff.1 h
    exact ringTail_keeps _ _ _ _ hx
  · obtain ⟨x, -, hx⟩ := Option.bind_eq_some_iff.1 h
    split at hx
    · cases hx
    · split at hx
      · split at hx
        · cases hx
        · cases hx; exact Keeps.of_eq (by rfl)
      · obtain ⟨y, -, hy⟩ := Option.bind_eq_some_iff.1 hx
        split at hy
        · cases hy
        · cases hy; exact Keeps.of_eq (by rfl)
  · obtain ⟨x, -, hx⟩ := Option.bind_eq_some_iff.1 h
    split at hx
    · cases hx
    · cases hx; exact Keeps.of_eq (by rfl)
@[simp] theorem vfSat_mem (s : State) (v i j n : Nat) : (s.vfSat v i j n).mem = s.mem := rfl
@[simp] theorem countSoft_mem (s : State) (v pa n : Nat) : (s.countSoft v pa n).mem = s.mem := by
  unfold State.countSoft
  exact mem_foldl _ (fun _ _ => by rfl) _ _
@[simp] theorem countBad_mem (s : State) (v pa n : Nat) : (s.countBad v pa n).mem = s.mem := by
  unfold State.countBad
  exact mem_foldl _ (fun _ _ => by rfl) _ _
@[simp] theorem keepWalk_mem (s : State) (v : Nat) (l : List (Nat × Word)) : (s.keepWalk v l).mem = s.mem := by
  unfold State.keepWalk
  split
  · rfl
  exact (rfl : (State.modVf _ _ _).mem = State.mem _).trans <| mem_foldl (fun (t : State) (e : Nat × Word) => t.countSoft v e.1 8) (fun _ _ => countSoft_mem _ _ _ _) _ _
@[simp] theorem markWalk_mem (s : State) (v a : Nat) : (s.markWalk v a).mem = s.mem := by
  unfold State.markWalk
  split <;> rfl
@[simp] theorem walkKept_mem (s : State) (v : Nat) (va : Word) : (s.walkKept v va).mem = s.mem := by
  unfold State.walkKept
  dsimp only
  split <;> simp
@[simp] theorem packetWalks_mem (s : State) (v p : Nat) : (s.packetWalks v p).mem = s.mem := by
  unfold State.packetWalks
  dsimp only
  split <;> simp
theorem cleanLines_keeps (s : State) (p : Nat → Bool) : Keeps s (s.cleanLines p) := memWf_cleanLines s p
/-- A fire, from a state with the same memory: the packet's walks and the release, then the packet or the count of a dropped one. -/
theorem fire_keeps (s t u : State) (ht : t.mem = s.mem) (v p i j n : Nat) (q : Nat → Bool)
    (hu : u = match ((t.packetWalks v p).cleanLines q).firePacket v p with
      | some s' => s'
      | none => ((t.packetWalks v p).cleanLines q).vfSat v i j n) : Keeps s u := by
  have k : Keeps s ((t.packetWalks v p).cleanLines q) := (Keeps.of_eq (by rw [packetWalks_mem, ht])).trans (cleanLines_keeps _ q)
  subst hu
  split
  · rename_i h; exact k.trans (firePacket_keeps _ _ _ _ h)
  · exact k.trans (Keeps.of_eq (vfSat_mem _ _ _ _ _))
theorem testTrigger_keeps (s : State) (w : Nat) : Keeps s (s.testTrigger w) := by
  unfold State.testTrigger
  split
  · exact Keeps.rfl
  · extract_lets
    split
    · exact Keeps.rfl
    · extract_lets
      split
      · exact fire_keeps s _ _ (rfl : (s.modTower _ _).mem = s.mem) _ _ _ _ _ _ rfl
      · exact Keeps.rfl
theorem storeCells_keeps (s : State) (pa : Nat) (cells : List Sys2Proof.Cell) (c : Nat) : Keeps s (s.storeCells pa cells c) :=
  memWf_storeCells s pa cells c
theorem performWrite_keeps (s : State) (pa : Nat) (cells : List Sys2Proof.Cell) (c : Nat) : Keeps s (s.performWrite pa cells c) :=
  (storeCells_keeps s pa cells c).trans (Keeps.foldl _ testTrigger_keeps _ _)
/-! A record for a saved context is written into its frame. -/
theorem framePut_keeps (s : State) (v g off n val : Nat) : Keeps s (s.framePut v g off n val) := by
  unfold State.framePut
  exact performWrite_keeps _ _ _ _
@[simp] theorem modSaved_mem (s : State) (v g : Nat) (f : Saved → Saved) : (s.modSaved v g f).mem = s.mem := rfl
theorem modSaved_keeps (s : State) (v g : Nat) (f : Saved → Saved) : Keeps s (s.modSaved v g f) := Keeps.of_eq rfl
theorem modCtx_keeps (s : State) (g : Nat) (f : Ctx → Ctx) : Keeps s (s.modCtx g f) := Keeps.of_eq rfl
theorem framePost_keeps (s : State) (v g : Nat) (r : EvRec) : Keeps s (s.framePost v g r) := by
  unfold State.framePost
  extract_lets cfg n recent old l s1 s2
  have k1 : Keeps s s1 := Keeps.foldl _ (fun _ _ => framePut_keeps _ _ _ _ _ _) _ _
  have k : Keeps s s2 := k1.trans (modSaved_keeps _ _ _ _)
  clear_value s2
  split
  · exact k.trans (framePut_keeps _ _ _ _ _ _)
  · exact (k.trans (framePut_keeps _ _ _ _ _ _)).trans (modCtx_keeps _ _ _)
theorem postTo_keeps (s : State) (v g : Nat) (r : EvRec) : Keeps s (s.postTo v g r) := by
  unfold State.postTo
  split
  · exact Keeps.of_eq rfl
  split
  · exact framePost_keeps _ _ _ _
  · exact Keeps.rfl
theorem tellSoft_keeps (s : State) (v g u : Nat) : Keeps s (s.tellSoft v g u) := by
  unfold State.tellSoft
  split
  · exact postTo_keeps _ _ _ _
  · exact Keeps.rfl
theorem eccMet_keeps (s : State) (v g pa n : Nat) : Keeps s (s.eccMet v g pa n) :=
  (Keeps.of_eq (countBad_mem s v pa n)).trans
    (Keeps.foldl _ (fun t u => (Keeps.of_eq (vfSat_mem t v 0x10 (eccTier u) 1)).trans (tellSoft_keeps _ v g u)) _ _)
theorem dealerMet_keeps (s : State) (v : Nat) (l : List (Nat × Nat)) : Keeps s (s.dealerMet v l) :=
  Keeps.foldl _ (fun _ _ => eccMet_keeps _ _ _ _ _) _ _
theorem walkTold_keeps (s : State) (v g : Nat) (l : List (Nat × Word)) : Keeps s (s.walkTold v g l) :=
  (Keeps.of_eq (keepWalk_mem s v l)).trans (Keeps.foldl _ (fun _ _ => tellSoft_keeps _ _ _ _) _ _)
theorem fillWalkFor_keeps (s : State) (v g : Nat) (x : Xlate) : Keeps s (s.fillWalkFor v g x) := walkTold_keeps _ _ _ _
theorem fillWalk_keeps (s : State) (v : Nat) (x : Xlate) : Keeps s (s.fillWalk v x) := walkTold_keeps _ _ _ _
theorem walked_keeps (s : State) (v g : Nat) (va : Word) : Keeps s (s.walked v g va) := by
  unfold State.walked
  dsimp only
  split
  · exact (walkTold_keeps _ _ _ _).trans (Keeps.of_eq (markWalk_mem _ _ _))
  · exact walkTold_keeps _ _ _ _
theorem incrementFlag_keeps (s : State) (v g pa n c : Nat) : Keeps s (s.incrementFlag v g pa n c) := by
  unfold State.incrementFlag
  extract_lets old s1
  have k : Keeps s s1 := (eccMet_keeps _ _ _ _ _).trans (performWrite_keeps _ _ _ _)
  refine Keeps.trans ?_ (Keeps.of_eq (countBytes_mem _ _ _))
  split
  · exact k.trans (cleanLines_keeps _ _)
  · exact k
theorem cacheRead_keeps (s : State) (pa n c : Nat) : Keeps s (s.cacheRead pa n c) := memWf_cacheRead s pa n c
theorem testRange_keeps (s : State) (a n : Nat) : Keeps s (s.testRange a n) := Keeps.foldl _ testTrigger_keeps _ _
theorem rawCopy_keeps (s : State) (src dst n : Nat) : Keeps s (s.rawCopy src dst n) := by
  intro hs
  unfold State.rawCopy
  dsimp only
  apply testRange_keeps
  apply memWf_blit
  rw [dropLines_mem]
  exact memWf_cleanLines s _ hs
theorem zero_keeps (s : State) (a n : Nat) : Keeps s (s.zero a n) := memWf_wipe _ _ _
theorem clearCovered_keeps (s : State) (l : List (Nat × Byte)) : Keeps s (s.clearCovered l) := Keeps.of_eq rfl
theorem setSlotStream_keeps (s : State) (h n : Nat) (t : Stream) : Keeps s (s.setSlotStream h n t) := by
  unfold State.setSlotStream
  split
  · exact Keeps.of_eq rfl
  · exact (framePut_keeps _ _ _ _ _ _).trans (modSaved_keeps _ _ _ _)

end Sys2Proof.Machine
end

