-- ==== Sys2Proof/Laws/Number.lean ====
section
/-! SUPPORT. What the integer conversions and the elements of a tile come to (R52, R78, R129). -/

namespace Sys2Proof.Machine

/-- The width of an integer type of the S class. -/
theorem fmtWidth_scalar (t : BitVec 5) (h : 2 ≤ t.toNat ∧ t.toNat ≤ 9) :
    fmtWidth t = 8 ∨ fmtWidth t = 16 ∨ fmtWidth t = 32 ∨ fmtWidth t = 64 := by
  have key : ∀ n : Fin 32, 2 ≤ n.val ∧ n.val ≤ 9 →
      fmtWidth (BitVec.ofFin n) = 8 ∨ fmtWidth (BitVec.ofFin n) = 16 ∨ fmtWidth (BitVec.ofFin n) = 32 ∨
        fmtWidth (BitVec.ofFin n) = 64 := by decide
  exact key t.toFin h

/-- `wrapInt` is the pattern of two's complement. -/
theorem wrapInt_toNat (w : Nat) (v : Int) : wrapInt w v = (BitVec.ofInt w v).toNat := by
  simp [wrapInt, BitVec.toNat_ofInt]

/-- Two's complement read of a pattern. -/
theorem toSigned_toInt (w v : Nat) (hw : 0 < w) : toSigned w v = (BitVec.ofNat w v).toInt := by
  unfold toSigned
  rw [BitVec.toInt_eq_toNat_cond, BitVec.toNat_ofNat]
  obtain ⟨k, rfl⟩ : ∃ k, w = k + 1 := ⟨w - 1, by omega⟩
  have h : 2 ^ (k + 1) = 2 * 2 ^ k := by ring
  simp only [Nat.add_sub_cancel, h]
  split <;> split <;> omega

/-- The value of a pattern in an integer format, read from a word. -/
theorem intDecode_word (t : BitVec 5) (x : Word) (hw : 0 < fmtWidth t) :
    intDecode t x.toNat =
      if isSignedFmt t then (x.setWidth (fmtWidth t)).toInt else ((x.setWidth (fmtWidth t)).toNat : Int) := by
  unfold intDecode
  split
  · rw [toSigned_toInt _ _ hw]; congr 1; apply BitVec.eq_of_toNat_eq; simp
  · simp

/-- A pattern widened to 64 bits is extended by its signedness. -/
theorem widen_pattern (t : BitVec 5) (b : BitVec (fmtWidth t)) (hw : 0 < fmtWidth t) :
    BitVec.ofNat 64 (wrapInt 64 (intDecode t b.toNat)) = if isSignedFmt t then b.signExtend 64 else b.setWidth 64 := by
  rw [wrapInt_toNat, BitVec.ofNat_toNat, BitVec.setWidth_eq]
  unfold intDecode
  split
  · rw [toSigned_toInt _ _ hw, BitVec.ofNat_toNat, BitVec.setWidth_eq]; rfl
  · apply BitVec.eq_of_toNat_eq
    have := b.isLt
    rw [Nat.mod_eq_of_lt this, BitVec.toNat_ofInt, BitVec.toNat_setWidth]
    omega

end Sys2Proof.Machine
end

