-- ==== Sys2Proof/Laws/Order.lean ====
section
/-! SUPPORT. The order of an access at issue, said once: what it waits for, and what it changes (R301-R308, R316-R318). -/

namespace Sys2Proof.Machine

/-! ### Loads that take their values (R304) -/

/-- With no load unsettled nothing changes. -/
theorem takeClasses_settled (s : State) (m : Nat) (h : s.me.inflight.all (·.late.isNone) = true) : s.takeClasses m = s := by
  simp only [State.takeClasses, h, if_true]
@[simp] theorem takeClasses_mem (s : State) (m : Nat) : (s.takeClasses m).mem = s.mem := by unfold State.takeClasses; split <;> rfl
@[simp] theorem takeClasses_cache (s : State) (m : Nat) : (s.takeClasses m).cache = s.cache := by unfold State.takeClasses; split <;> rfl
@[simp] theorem takeClasses_wq (s : State) (m : Nat) : (s.takeClasses m).wq = s.wq := by unfold State.takeClasses; split <;> rfl
@[simp] theorem takeClasses_cores (s : State) (m : Nat) : (s.takeClasses m).cores = s.cores := by unfold State.takeClasses; split <;> rfl
@[simp] theorem takeClasses_quads (s : State) (m : Nat) : (s.takeClasses m).quads = s.quads := by unfold State.takeClasses; split <;> rfl
@[simp] theorem takeClasses_towers (s : State) (m : Nat) : (s.takeClasses m).towers = s.towers := by unfold State.takeClasses; split <;> rfl
@[simp] theorem takeClasses_vfs (s : State) (m : Nat) : (s.takeClasses m).vfs = s.vfs := by unfold State.takeClasses; split <;> rfl
@[simp] theorem takeClasses_dealer (s : State) (m : Nat) : (s.takeClasses m).dealer = s.dealer := by unfold State.takeClasses; split <;> rfl
@[simp] theorem takeClasses_cur (s : State) (m : Nat) : (s.takeClasses m).cur = s.cur := by unfold State.takeClasses; split <;> rfl
@[simp] theorem takeClasses_issue (s : State) (m : Nat) : (s.takeClasses m).issue = s.issue := by unfold State.takeClasses; split <;> rfl
@[simp] theorem takeClasses_tick (s : State) (m : Nat) : (s.takeClasses m).tick = s.tick := by unfold State.takeClasses; split <;> rfl

/-! ### Releases and acquires (R305, R317) -/

/-- A release goes on when the accesses of its classes have been performed, and then settles their loads; else it blocks. -/
theorem release_eq (s : State) (m wait : Nat) : s.release m wait =
    if s.accessPending s.cur m = true then .error (.block wait (.flush m)) else .ok (s.takeClasses m) := by
  unfold State.release unblocked
  cases s.accessPending s.cur m <;> rfl
/-- An acquire goes on when the reads of its classes have been performed, and then settles their loads; else it blocks. -/
theorem acquire_eq (s : State) (m : Nat) : s.acquire m =
    if s.readsPending s.cur m = true then .error (.block 2 .none) else .ok (s.takeClasses m) := by
  unfold State.acquire unblocked
  cases s.readsPending s.cur m <;> rfl

/-- All that the order of an access can do: block with cause 2; or go on, the earlier accesses of its class performed and their loads
settled, and for a release at POD scope the dirty lines written back too. -/
theorem ordered_cases (s : State) (m : Mods) :
    (∃ fx, s.ordered m = .error (.block 2 fx)) ∨
    (s.classReady m.cls = .ok () ∧ ((m.ord < 2 ∧ s.ordered m = .ok (s.takeClasses (2 ^ m.cls))) ∨
      (2 ≤ m.ord ∧ (s.takeClasses (2 ^ m.cls)).accessPending s.cur (2 ^ m.cls) = false ∧
        s.ordered m = .ok (((s.takeClasses (2 ^ m.cls)).takeClasses (2 ^ m.cls)).podRelease m.scope)))) := by
  have hc : s.classReady m.cls = .ok () ∨ s.classReady m.cls = .error (.block 2 .none) := by
    unfold State.classReady unblocked
    dsimp only
    split
    · exact .inl rfl
    · exact .inr rfl
  rcases hc with hc | hc
  · by_cases ho : 2 ≤ m.ord
    · cases hp : (s.takeClasses (2 ^ m.cls)).accessPending s.cur (2 ^ m.cls)
      · exact .inr ⟨hc, .inr ⟨ho, rfl, by simp [State.ordered, hc, bind, Except.bind, ho, release_eq, hp, State.orderDone]⟩⟩
      · exact .inl ⟨.flush (2 ^ m.cls), by simp only [State.ordered, hc, bind, Except.bind, ho, release_eq, takeClasses_cur, hp, if_true]⟩
    · exact .inr ⟨hc, .inl ⟨by omega, by simp [State.ordered, hc, bind, Except.bind, ho]⟩⟩
  · exact .inl ⟨.none, by simp only [State.ordered, hc, bind, Except.bind]⟩

end Sys2Proof.Machine
end

