-- ==== Sys2Proof/Laws/PerInstr.lean ====
section
/-! SUPPORT. Statements about every instruction, one lemma a constructor (R95-R98, R118). -/

namespace Sys2Proof.Laws

/-- A word of a row of the opcode maps is not all zero. -/
theorem ne_zero_of_op (w : BitVec 64) (op : BitVec 6) (h : sylOp w = op) (hop : op ≠ 0) : w ≠ 0 := by
  rintro rfl; exact hop (h.symm.trans rfl)
theorem decodeSyl_c (w : BitVec 64) (op : BitVec 6) (h : sylOp w = op) (hop : op ≠ 0) : decodeSyl .c w = decodeC w := by
  unfold decodeSyl; rw [if_neg (ne_zero_of_op w op h hop), if_neg (h ▸ hop)]
theorem decodeSyl_e (w : BitVec 64) (op : BitVec 6) (h : sylOp w = op) (hop : op ≠ 0) : decodeSyl .e w = decodeE w := by
  unfold decodeSyl; rw [if_neg (ne_zero_of_op w op h hop), if_neg (h ▸ hop)]
theorem decodeSyl_s (p : SPos) (w : BitVec 64) (op : BitVec 6) (h : sylOp w = op) (hop : op ≠ 0) :
    decodeSyl p.slot w = decodeS p w := by
  cases p <;> (unfold decodeSyl; rw [if_neg (ne_zero_of_op w op h hop), if_neg (h ▸ hop)]; rfl)
theorem decodeSyl_v (p : Cl) (w : BitVec 64) (op : BitVec 6) (h : sylOp w = op) (hop : op ≠ 0) :
    decodeSyl p.slot w = decodeV p w := by
  cases p <;> (unfold decodeSyl; rw [if_neg (ne_zero_of_op w op h hop), if_neg (h ▸ hop)]; rfl)

end Sys2Proof.Laws

/-! ### A syllable's word decodes to the syllable -/

namespace Sys2Proof.Laws.RoundTrip

/-- In its own slot the word of a syllable decodes to it. -/
def Statement (i : Instr) : Prop := i.row.isSome = true → decodeSyl i.slot (encode i) = .ok i

theorem nop (k : Slot) : Statement (.nop k) := by
  cases k <;> exact fun _ => rfl
theorem br (o : FB) : Statement (.br o) := fun _ =>
  (decodeSyl_c (FB.word 1 0 o) 1 (FB.word_op ..) (by decide)).trans (by
    unfold decodeC; rw [FB.word_op, FB.word_f3]
    show fbWord _ _ = _
    unfold fbWord; rw [FB.word_zero, FB.ofWord_word]; rfl)
theorem bc (o : FB) : Statement (.bc o) := fun _ =>
  (decodeSyl_c (FB.word 1 1 o) 1 (FB.word_op ..) (by decide)).trans (by
    unfold decodeC; rw [FB.word_op, FB.word_f3]
    show fbWord _ _ = _
    unfold fbWord; rw [FB.word_zero, FB.ofWord_word]; rfl)
theorem call (o : FB) : Statement (.call o) := fun _ =>
  (decodeSyl_c (FB.word 1 2 o) 1 (FB.word_op ..) (by decide)).trans (by
    unfold decodeC; rw [FB.word_op, FB.word_f3]
    show fbWord _ _ = _
    unfold fbWord; rw [FB.word_zero, FB.ofWord_word]; rfl)
theorem ret (o : FB) : Statement (.ret o) := fun _ =>
  (decodeSyl_c (FB.word 1 3 o) 1 (FB.word_op ..) (by decide)).trans (by
    unfold decodeC; rw [FB.word_op, FB.word_f3]
    show fbWord _ _ = _
    unfold fbWord; rw [FB.word_zero, FB.ofWord_word]; rfl)
theorem loop (o : FB) : Statement (.loop o) := fun _ =>
  (decodeSyl_c (FB.word 1 4 o) 1 (FB.word_op ..) (by decide)).trans (by
    unfold decodeC; rw [FB.word_op, FB.word_f3]
    show fbWord _ _ = _
    unfold fbWord; rw [FB.word_zero, FB.ofWord_word]; rfl)
theorem jt (o : FB) : Statement (.jt o) := fun _ =>
  (decodeSyl_c (FB.word 1 5 o) 1 (FB.word_op ..) (by decide)).trans (by
    unfold decodeC; rw [FB.word_op, FB.word_f3]
    show fbWord _ _ = _
    unfold fbWord; rw [FB.word_zero, FB.ofWord_word]; rfl)
theorem bsel (o : FB) : Statement (.bsel o) := fun _ =>
  (decodeSyl_c (FB.word 1 6 o) 1 (FB.word_op ..) (by decide)).trans (by
    unfold decodeC; rw [FB.word_op, FB.word_f3]
    show fbWord _ _ = _
    unfold fbWord; rw [FB.word_zero, FB.ofWord_word]; rfl)
theorem halt (o : FX) : Statement (.halt o) := fun _ =>
  (decodeSyl_c (FX.word 2 0 o) 2 (FX.word_op ..) (by decide)).trans (by
    unfold decodeC; rw [FX.word_op, FX.word_f3, FX.ofWord_word]; rfl)
theorem trap (o : FX) : Statement (.trap o) := fun _ =>
  (decodeSyl_c (FX.word 2 1 o) 2 (FX.word_op ..) (by decide)).trans (by
    unfold decodeC; rw [FX.word_op, FX.word_f3, FX.ofWord_word]; rfl)
theorem sysc (o : FX) : Statement (.sysc o) := fun _ =>
  (decodeSyl_c (FX.word 2 2 o) 2 (FX.word_op ..) (by decide)).trans (by
    unfold decodeC; rw [FX.word_op, FX.word_f3, FX.ofWord_word]; rfl)
theorem rdcr (o : FR) : Statement (.rdcr o) := fun _ =>
  (decodeSyl_c (FR.word 3 0 o) 3 (FR.word_op ..) (by decide)).trans (by
    unfold decodeC; rw [FR.word_op, FR.word_f3, FR.ofWord_word]; rfl)
theorem wrcr (o : FR) : Statement (.wrcr o) := fun _ =>
  (decodeSyl_c (FR.word 3 1 o) 3 (FR.word_op ..) (by decide)).trans (by
    unfold decodeC; rw [FR.word_op, FR.word_f3, FR.ofWord_word]; rfl)
theorem rdid (o : FR) : Statement (.rdid o) := fun _ =>
  (decodeSyl_c (FR.word 3 2 o) 3 (FR.word_op ..) (by decide)).trans (by
    unfold decodeC; rw [FR.word_op, FR.word_f3, FR.ofWord_word]; rfl)
theorem rdtick (o : FR) : Statement (.rdtick o) := fun _ =>
  (decodeSyl_c (FR.word 3 3 o) 3 (FR.word_op ..) (by decide)).trans (by
    unfold decodeC; rw [FR.word_op, FR.word_f3, FR.ofWord_word]; rfl)
theorem rdgov (o : FR) : Statement (.rdgov o) := fun _ =>
  (decodeSyl_c (FR.word 3 4 o) 3 (FR.word_op ..) (by decide)).trans (by
    unfold decodeC; rw [FR.word_op, FR.word_f3, FR.ofWord_word]; rfl)
theorem rdctr (o : FR) : Statement (.rdctr o) := fun _ =>
  (decodeSyl_c (FR.word 3 5 o) 3 (FR.word_op ..) (by decide)).trans (by
    unfold decodeC; rw [FR.word_op, FR.word_f3, FR.ofWord_word]; rfl)
theorem fence (o : FX) : Statement (.fence o) := fun _ =>
  (decodeSyl_c (FX.word 4 0 o) 4 (FX.word_op ..) (by decide)).trans (by
    unfold decodeC; rw [FX.word_op, FX.word_f3, FX.ofWord_word]; rfl)
theorem mod (o : FX) : Statement (.mod o) := fun _ =>
  (decodeSyl_c (FX.word 4 1 o) 4 (FX.word_op ..) (by decide)).trans (by
    unfold decodeC; rw [FX.word_op, FX.word_f3, FX.ofWord_word]; rfl)
theorem bar (o : FX) : Statement (.bar o) := fun _ =>
  (decodeSyl_c (FX.word 5 0 o) 5 (FX.word_op ..) (by decide)).trans (by
    unfold decodeC; rw [FX.word_op, FX.word_f3, FX.ofWord_word]; rfl)
theorem flagwait (o : FX) : Statement (.flagwait o) := fun _ =>
  (decodeSyl_c (FX.word 5 1 o) 5 (FX.word_op ..) (by decide)).trans (by
    unfold decodeC; rw [FX.word_op, FX.word_f3, FX.ofWord_word]; rfl)
theorem evwait (o : FX) : Statement (.evwait o) := fun _ =>
  (decodeSyl_c (FX.word 5 2 o) 5 (FX.word_op ..) (by decide)).trans (by
    unfold decodeC; rw [FX.word_op, FX.word_f3, FX.ofWord_word]; rfl)
theorem bcwait (o : FX) : Statement (.bcwait o) := fun _ =>
  (decodeSyl_c (FX.word 5 3 o) 5 (FX.word_op ..) (by decide)).trans (by
    unfold decodeC; rw [FX.word_op, FX.word_f3, FX.ofWord_word]; rfl)
theorem tkwait (o : FX) : Statement (.tkwait o) := fun _ =>
  (decodeSyl_c (FX.word 5 4 o) 5 (FX.word_op ..) (by decide)).trans (by
    unfold decodeC; rw [FX.word_op, FX.word_f3, FX.ofWord_word]; rfl)
theorem tkset (o : FX) : Statement (.tkset o) := fun _ =>
  (decodeSyl_c (FX.word 5 5 o) 5 (FX.word_op ..) (by decide)).trans (by
    unfold decodeC; rw [FX.word_op, FX.word_f3, FX.ofWord_word]; rfl)
theorem stacq (o : FR) : Statement (.stacq o) := fun _ =>
  (decodeSyl_c (FR.word 6 0 o) 6 (FR.word_op ..) (by decide)).trans (by
    unfold decodeC; rw [FR.word_op, FR.word_f3, FR.ofWord_word]; rfl)
theorem strel (o : FR) : Statement (.strel o) := fun _ =>
  (decodeSyl_c (FR.word 6 1 o) 6 (FR.word_op ..) (by decide)).trans (by
    unfold decodeC; rw [FR.word_op, FR.word_f3, FR.ofWord_word]; rfl)
theorem clease (o : FR) : Statement (.clease o) := fun _ =>
  (decodeSyl_c (FR.word 6 2 o) 6 (FR.word_op ..) (by decide)).trans (by
    unfold decodeC; rw [FR.word_op, FR.word_f3, FR.ofWord_word]; rfl)
theorem crel (o : FR) : Statement (.crel o) := fun _ =>
  (decodeSyl_c (FR.word 6 3 o) 6 (FR.word_op ..) (by decide)).trans (by
    unfold decodeC; rw [FR.word_op, FR.word_f3, FR.ofWord_word]; rfl)
theorem evpop (o : FR) : Statement (.evpop o) := fun _ =>
  (decodeSyl_c (FR.word 7 0 o) 7 (FR.word_op ..) (by decide)).trans (by
    unfold decodeC; rw [FR.word_op, FR.word_f3, FR.ofWord_word]; rfl)
theorem evpeek (o : FR) : Statement (.evpeek o) := fun _ =>
  (decodeSyl_c (FR.word 7 1 o) 7 (FR.word_op ..) (by decide)).trans (by
    unfold decodeC; rw [FR.word_op, FR.word_f3, FR.ofWord_word]; rfl)
theorem add (p : SPos) (o : FR) : Statement (.add p o) := fun _ =>
  (decodeSyl_s p (FR.word 1 0 o) 1 (FR.word_op ..) (by decide)).trans (by
    unfold decodeS; rw [FR.word_op, FR.word_f3, FR.ofWord_word]; rfl)
theorem addI (p : SPos) (o : FI) : Statement (.addI p o) := fun _ =>
  (decodeSyl_s p (FI.word 2 0 o) 2 (FI.word_op ..) (by decide)).trans (by
    unfold decodeS; rw [FI.word_op, FI.word_f3, FI.ofWord_word]; rfl)
theorem sub (p : SPos) (o : FR) : Statement (.sub p o) := fun _ =>
  (decodeSyl_s p (FR.word 1 1 o) 1 (FR.word_op ..) (by decide)).trans (by
    unfold decodeS; rw [FR.word_op, FR.word_f3, FR.ofWord_word]; rfl)
theorem subI (p : SPos) (o : FI) : Statement (.subI p o) := fun _ =>
  (decodeSyl_s p (FI.word 2 1 o) 2 (FI.word_op ..) (by decide)).trans (by
    unfold decodeS; rw [FI.word_op, FI.word_f3, FI.ofWord_word]; rfl)
theorem and (p : SPos) (o : FR) : Statement (.and p o) := fun _ =>
  (decodeSyl_s p (FR.word 1 2 o) 1 (FR.word_op ..) (by decide)).trans (by
    unfold decodeS; rw [FR.word_op, FR.word_f3, FR.ofWord_word]; rfl)
theorem andI (p : SPos) (o : FI) : Statement (.andI p o) := fun _ =>
  (decodeSyl_s p (FI.word 2 2 o) 2 (FI.word_op ..) (by decide)).trans (by
    unfold decodeS; rw [FI.word_op, FI.word_f3, FI.ofWord_word]; rfl)
theorem or (p : SPos) (o : FR) : Statement (.or p o) := fun _ =>
  (decodeSyl_s p (FR.word 1 3 o) 1 (FR.word_op ..) (by decide)).trans (by
    unfold decodeS; rw [FR.word_op, FR.word_f3, FR.ofWord_word]; rfl)
theorem orI (p : SPos) (o : FI) : Statement (.orI p o) := fun _ =>
  (decodeSyl_s p (FI.word 2 3 o) 2 (FI.word_op ..) (by decide)).trans (by
    unfold decodeS; rw [FI.word_op, FI.word_f3, FI.ofWord_word]; rfl)
theorem xor (p : SPos) (o : FR) : Statement (.xor p o) := fun _ =>
  (decodeSyl_s p (FR.word 1 4 o) 1 (FR.word_op ..) (by decide)).trans (by
    unfold decodeS; rw [FR.word_op, FR.word_f3, FR.ofWord_word]; rfl)
theorem xorI (p : SPos) (o : FI) : Statement (.xorI p o) := fun _ =>
  (decodeSyl_s p (FI.word 2 4 o) 2 (FI.word_op ..) (by decide)).trans (by
    unfold decodeS; rw [FI.word_op, FI.word_f3, FI.ofWord_word]; rfl)
theorem andn (p : SPos) (o : FR) : Statement (.andn p o) := fun _ =>
  (decodeSyl_s p (FR.word 1 5 o) 1 (FR.word_op ..) (by decide)).trans (by
    unfold decodeS; rw [FR.word_op, FR.word_f3, FR.ofWord_word]; rfl)
theorem andnI (p : SPos) (o : FI) : Statement (.andnI p o) := fun _ =>
  (decodeSyl_s p (FI.word 2 5 o) 2 (FI.word_op ..) (by decide)).trans (by
    unfold decodeS; rw [FI.word_op, FI.word_f3, FI.ofWord_word]; rfl)
theorem min (p : SPos) (o : FR) : Statement (.min p o) := fun _ =>
  (decodeSyl_s p (FR.word 1 6 o) 1 (FR.word_op ..) (by decide)).trans (by
    unfold decodeS; rw [FR.word_op, FR.word_f3, FR.ofWord_word]; rfl)
theorem minI (p : SPos) (o : FI) : Statement (.minI p o) := fun _ =>
  (decodeSyl_s p (FI.word 2 6 o) 2 (FI.word_op ..) (by decide)).trans (by
    unfold decodeS; rw [FI.word_op, FI.word_f3, FI.ofWord_word]; rfl)
theorem max (p : SPos) (o : FR) : Statement (.max p o) := fun _ =>
  (decodeSyl_s p (FR.word 1 7 o) 1 (FR.word_op ..) (by decide)).trans (by
    unfold decodeS; rw [FR.word_op, FR.word_f3, FR.ofWord_word]; rfl)
theorem maxI (p : SPos) (o : FI) : Statement (.maxI p o) := fun _ =>
  (decodeSyl_s p (FI.word 2 7 o) 2 (FI.word_op ..) (by decide)).trans (by
    unfold decodeS; rw [FI.word_op, FI.word_f3, FI.ofWord_word]; rfl)
theorem minu (p : SPos) (o : FR) : Statement (.minu p o) := fun _ =>
  (decodeSyl_s p (FR.word 3 0 o) 3 (FR.word_op ..) (by decide)).trans (by
    unfold decodeS; rw [FR.word_op, FR.word_f3, FR.ofWord_word]; rfl)
theorem minuI (p : SPos) (o : FI) : Statement (.minuI p o) := fun _ =>
  (decodeSyl_s p (FI.word 4 0 o) 4 (FI.word_op ..) (by decide)).trans (by
    unfold decodeS; rw [FI.word_op, FI.word_f3, FI.ofWord_word]; rfl)
theorem maxu (p : SPos) (o : FR) : Statement (.maxu p o) := fun _ =>
  (decodeSyl_s p (FR.word 3 1 o) 3 (FR.word_op ..) (by decide)).trans (by
    unfold decodeS; rw [FR.word_op, FR.word_f3, FR.ofWord_word]; rfl)
theorem maxuI (p : SPos) (o : FI) : Statement (.maxuI p o) := fun _ =>
  (decodeSyl_s p (FI.word 4 1 o) 4 (FI.word_op ..) (by decide)).trans (by
    unfold decodeS; rw [FI.word_op, FI.word_f3, FI.ofWord_word]; rfl)
theorem shl (p : SPos) (o : FR) : Statement (.shl p o) := fun _ =>
  (decodeSyl_s p (FR.word 3 2 o) 3 (FR.word_op ..) (by decide)).trans (by
    unfold decodeS; rw [FR.word_op, FR.word_f3, FR.ofWord_word]; rfl)
theorem shlI (p : SPos) (o : FI) : Statement (.shlI p o) := fun _ =>
  (decodeSyl_s p (FI.word 4 2 o) 4 (FI.word_op ..) (by decide)).trans (by
    unfold decodeS; rw [FI.word_op, FI.word_f3, FI.ofWord_word]; rfl)
theorem shr (p : SPos) (o : FR) : Statement (.shr p o) := fun _ =>
  (decodeSyl_s p (FR.word 3 3 o) 3 (FR.word_op ..) (by decide)).trans (by
    unfold decodeS; rw [FR.word_op, FR.word_f3, FR.ofWord_word]; rfl)
theorem shrI (p : SPos) (o : FI) : Statement (.shrI p o) := fun _ =>
  (decodeSyl_s p (FI.word 4 3 o) 4 (FI.word_op ..) (by decide)).trans (by
    unfold decodeS; rw [FI.word_op, FI.word_f3, FI.ofWord_word]; rfl)
theorem sar (p : SPos) (o : FR) : Statement (.sar p o) := fun _ =>
  (decodeSyl_s p (FR.word 3 4 o) 3 (FR.word_op ..) (by decide)).trans (by
    unfold decodeS; rw [FR.word_op, FR.word_f3, FR.ofWord_word]; rfl)
theorem sarI (p : SPos) (o : FI) : Statement (.sarI p o) := fun _ =>
  (decodeSyl_s p (FI.word 4 4 o) 4 (FI.word_op ..) (by decide)).trans (by
    unfold decodeS; rw [FI.word_op, FI.word_f3, FI.ofWord_word]; rfl)
theorem rol (p : SPos) (o : FR) : Statement (.rol p o) := fun _ =>
  (decodeSyl_s p (FR.word 3 5 o) 3 (FR.word_op ..) (by decide)).trans (by
    unfold decodeS; rw [FR.word_op, FR.word_f3, FR.ofWord_word]; rfl)
theorem rolI (p : SPos) (o : FI) : Statement (.rolI p o) := fun _ =>
  (decodeSyl_s p (FI.word 4 5 o) 4 (FI.word_op ..) (by decide)).trans (by
    unfold decodeS; rw [FI.word_op, FI.word_f3, FI.ofWord_word]; rfl)
theorem ror (p : SPos) (o : FR) : Statement (.ror p o) := fun _ =>
  (decodeSyl_s p (FR.word 3 6 o) 3 (FR.word_op ..) (by decide)).trans (by
    unfold decodeS; rw [FR.word_op, FR.word_f3, FR.ofWord_word]; rfl)
theorem rorI (p : SPos) (o : FI) : Statement (.rorI p o) := fun _ =>
  (decodeSyl_s p (FI.word 4 6 o) 4 (FI.word_op ..) (by decide)).trans (by
    unfold decodeS; rw [FI.word_op, FI.word_f3, FI.ofWord_word]; rfl)
theorem mul (p : SPos) (o : FR) : Statement (.mul p o) := fun _ =>
  (decodeSyl_s p (FR.word 5 0 o) 5 (FR.word_op ..) (by decide)).trans (by
    unfold decodeS; rw [FR.word_op, FR.word_f3, FR.ofWord_word]; rfl)
theorem mulI (p : SPos) (o : FI) : Statement (.mulI p o) := fun _ =>
  (decodeSyl_s p (FI.word 6 0 o) 6 (FI.word_op ..) (by decide)).trans (by
    unfold decodeS; rw [FI.word_op, FI.word_f3, FI.ofWord_word]; rfl)
theorem mulh (p : SPos) (o : FR) : Statement (.mulh p o) := fun _ =>
  (decodeSyl_s p (FR.word 5 1 o) 5 (FR.word_op ..) (by decide)).trans (by
    unfold decodeS; rw [FR.word_op, FR.word_f3, FR.ofWord_word]; rfl)
theorem mulhu (p : SPos) (o : FR) : Statement (.mulhu p o) := fun _ =>
  (decodeSyl_s p (FR.word 5 2 o) 5 (FR.word_op ..) (by decide)).trans (by
    unfold decodeS; rw [FR.word_op, FR.word_f3, FR.ofWord_word]; rfl)
theorem div (p : SPos) (o : FR) : Statement (.div p o) := fun _ =>
  (decodeSyl_s p (FR.word 5 3 o) 5 (FR.word_op ..) (by decide)).trans (by
    unfold decodeS; rw [FR.word_op, FR.word_f3, FR.ofWord_word]; rfl)
theorem divu (p : SPos) (o : FR) : Statement (.divu p o) := fun _ =>
  (decodeSyl_s p (FR.word 5 4 o) 5 (FR.word_op ..) (by decide)).trans (by
    unfold decodeS; rw [FR.word_op, FR.word_f3, FR.ofWord_word]; rfl)
theorem rem (p : SPos) (o : FR) : Statement (.rem p o) := fun _ =>
  (decodeSyl_s p (FR.word 5 5 o) 5 (FR.word_op ..) (by decide)).trans (by
    unfold decodeS; rw [FR.word_op, FR.word_f3, FR.ofWord_word]; rfl)
theorem remu (p : SPos) (o : FR) : Statement (.remu p o) := fun _ =>
  (decodeSyl_s p (FR.word 5 6 o) 5 (FR.word_op ..) (by decide)).trans (by
    unfold decodeS; rw [FR.word_op, FR.word_f3, FR.ofWord_word]; rfl)
theorem madd (p : SPos) (o : FR) : Statement (.madd p o) := fun _ =>
  (decodeSyl_s p (FR.word 5 7 o) 5 (FR.word_op ..) (by decide)).trans (by
    unfold decodeS; rw [FR.word_op, FR.word_f3, FR.ofWord_word]; rfl)
theorem maddI (p : SPos) (o : FI) : Statement (.maddI p o) := fun _ =>
  (decodeSyl_s p (FI.word 6 7 o) 6 (FI.word_op ..) (by decide)).trans (by
    unfold decodeS; rw [FI.word_op, FI.word_f3, FI.ofWord_word]; rfl)
theorem clz (p : SPos) (o : FR) : Statement (.clz p o) := fun _ =>
  (decodeSyl_s p (FR.word 7 0 o) 7 (FR.word_op ..) (by decide)).trans (by
    unfold decodeS; rw [FR.word_op, FR.word_f3, FR.ofWord_word]; rfl)
theorem ctz (p : SPos) (o : FR) : Statement (.ctz p o) := fun _ =>
  (decodeSyl_s p (FR.word 7 1 o) 7 (FR.word_op ..) (by decide)).trans (by
    unfold decodeS; rw [FR.word_op, FR.word_f3, FR.ofWord_word]; rfl)
theorem popc (p : SPos) (o : FR) : Statement (.popc p o) := fun _ =>
  (decodeSyl_s p (FR.word 7 2 o) 7 (FR.word_op ..) (by decide)).trans (by
    unfold decodeS; rw [FR.word_op, FR.word_f3, FR.ofWord_word]; rfl)
theorem bswap (p : SPos) (o : FR) : Statement (.bswap p o) := fun _ =>
  (decodeSyl_s p (FR.word 7 3 o) 7 (FR.word_op ..) (by decide)).trans (by
    unfold decodeS; rw [FR.word_op, FR.word_f3, FR.ofWord_word]; rfl)
theorem mov (p : SPos) (o : FR) : Statement (.mov p o) := fun _ =>
  (decodeSyl_s p (FR.word 7 6 o) 7 (FR.word_op ..) (by decide)).trans (by
    unfold decodeS; rw [FR.word_op, FR.word_f3, FR.ofWord_word]; rfl)
theorem movx (p : SPos) (o : FR) : Statement (.movx p o) := fun _ =>
  (decodeSyl_s p (FR.word 7 7 o) 7 (FR.word_op ..) (by decide)).trans (by
    unfold decodeS; rw [FR.word_op, FR.word_f3, FR.ofWord_word]; rfl)
theorem ext (p : SPos) (o : FI) : Statement (.ext p o) := fun _ =>
  (decodeSyl_s p (FI.word 8 0 o) 8 (FI.word_op ..) (by decide)).trans (by
    unfold decodeS; rw [FI.word_op, FI.word_f3, FI.ofWord_word]; rfl)
theorem ins (p : SPos) (o : FI) : Statement (.ins p o) := fun _ =>
  (decodeSyl_s p (FI.word 8 1 o) 8 (FI.word_op ..) (by decide)).trans (by
    unfold decodeS; rw [FI.word_op, FI.word_f3, FI.ofWord_word]; rfl)
theorem cmp (p : SPos) (o : FR) : Statement (.cmp p o) := fun _ =>
  (decodeSyl_s p (FR.word 9 0 o) 9 (FR.word_op ..) (by decide)).trans (by
    unfold decodeS; rw [FR.word_op, FR.word_f3, FR.ofWord_word]; rfl)
theorem cmpI (p : SPos) (o : FI) : Statement (.cmpI p o) := fun _ =>
  (decodeSyl_s p (FI.word 10 0 o) 10 (FI.word_op ..) (by decide)).trans (by
    unfold decodeS; rw [FI.word_op, FI.word_f3, FI.ofWord_word]; rfl)
theorem sel (p : SPos) (o : FR) : Statement (.sel p o) := fun _ =>
  (decodeSyl_s p (FR.word 9 1 o) 9 (FR.word_op ..) (by decide)).trans (by
    unfold decodeS; rw [FR.word_op, FR.word_f3, FR.ofWord_word]; rfl)
theorem li (p : SPos) (o : FI) : Statement (.li p o) := fun _ =>
  (decodeSyl_s p (FI.word 11 0 o) 11 (FI.word_op ..) (by decide)).trans (by
    unfold decodeS; rw [FI.word_op, FI.word_f3, FI.ofWord_word]; rfl)
theorem lih (p : SPos) (o : FI) : Statement (.lih p o) := fun _ =>
  (decodeSyl_s p (FI.word 11 1 o) 11 (FI.word_op ..) (by decide)).trans (by
    unfold decodeS; rw [FI.word_op, FI.word_f3, FI.ofWord_word]; rfl)
theorem fadd (p : SPos) (o : FR) : Statement (.fadd p o) := fun _ =>
  (decodeSyl_s p (FR.word 12 0 o) 12 (FR.word_op ..) (by decide)).trans (by
    unfold decodeS; rw [FR.word_op, FR.word_f3, FR.ofWord_word]; rfl)
theorem faddI (p : SPos) (o : FI) : Statement (.faddI p o) := fun _ =>
  (decodeSyl_s p (FI.word 13 0 o) 13 (FI.word_op ..) (by decide)).trans (by
    unfold decodeS; rw [FI.word_op, FI.word_f3, FI.ofWord_word]; rfl)
theorem fsub (p : SPos) (o : FR) : Statement (.fsub p o) := fun _ =>
  (decodeSyl_s p (FR.word 12 1 o) 12 (FR.word_op ..) (by decide)).trans (by
    unfold decodeS; rw [FR.word_op, FR.word_f3, FR.ofWord_word]; rfl)
theorem fsubI (p : SPos) (o : FI) : Statement (.fsubI p o) := fun _ =>
  (decodeSyl_s p (FI.word 13 1 o) 13 (FI.word_op ..) (by decide)).trans (by
    unfold decodeS; rw [FI.word_op, FI.word_f3, FI.ofWord_word]; rfl)
theorem fmul (p : SPos) (o : FR) : Statement (.fmul p o) := fun _ =>
  (decodeSyl_s p (FR.word 12 2 o) 12 (FR.word_op ..) (by decide)).trans (by
    unfold decodeS; rw [FR.word_op, FR.word_f3, FR.ofWord_word]; rfl)
theorem fmulI (p : SPos) (o : FI) : Statement (.fmulI p o) := fun _ =>
  (decodeSyl_s p (FI.word 13 2 o) 13 (FI.word_op ..) (by decide)).trans (by
    unfold decodeS; rw [FI.word_op, FI.word_f3, FI.ofWord_word]; rfl)
theorem ffma (p : SPos) (o : FR) : Statement (.ffma p o) := fun _ =>
  (decodeSyl_s p (FR.word 12 3 o) 12 (FR.word_op ..) (by decide)).trans (by
    unfold decodeS; rw [FR.word_op, FR.word_f3, FR.ofWord_word]; rfl)
theorem fmin (p : SPos) (o : FR) : Statement (.fmin p o) := fun _ =>
  (decodeSyl_s p (FR.word 12 4 o) 12 (FR.word_op ..) (by decide)).trans (by
    unfold decodeS; rw [FR.word_op, FR.word_f3, FR.ofWord_word]; rfl)
theorem fminI (p : SPos) (o : FI) : Statement (.fminI p o) := fun _ =>
  (decodeSyl_s p (FI.word 13 4 o) 13 (FI.word_op ..) (by decide)).trans (by
    unfold decodeS; rw [FI.word_op, FI.word_f3, FI.ofWord_word]; rfl)
theorem fmax (p : SPos) (o : FR) : Statement (.fmax p o) := fun _ =>
  (decodeSyl_s p (FR.word 12 5 o) 12 (FR.word_op ..) (by decide)).trans (by
    unfold decodeS; rw [FR.word_op, FR.word_f3, FR.ofWord_word]; rfl)
theorem fmaxI (p : SPos) (o : FI) : Statement (.fmaxI p o) := fun _ =>
  (decodeSyl_s p (FI.word 13 5 o) 13 (FI.word_op ..) (by decide)).trans (by
    unfold decodeS; rw [FI.word_op, FI.word_f3, FI.ofWord_word]; rfl)
theorem fcmp (p : SPos) (o : FR) : Statement (.fcmp p o) := fun _ =>
  (decodeSyl_s p (FR.word 12 6 o) 12 (FR.word_op ..) (by decide)).trans (by
    unfold decodeS; rw [FR.word_op, FR.word_f3, FR.ofWord_word]; rfl)
theorem fcmpI (p : SPos) (o : FI) : Statement (.fcmpI p o) := fun _ =>
  (decodeSyl_s p (FI.word 13 6 o) 13 (FI.word_op ..) (by decide)).trans (by
    unfold decodeS; rw [FI.word_op, FI.word_f3, FI.ofWord_word]; rfl)
theorem fcvt (p : SPos) (o : FR) : Statement (.fcvt p o) := fun _ =>
  (decodeSyl_s p (FR.word 12 7 o) 12 (FR.word_op ..) (by decide)).trans (by
    unfold decodeS; rw [FR.word_op, FR.word_f3, FR.ofWord_word]; rfl)
theorem fabs (p : SPos) (o : FR) : Statement (.fabs p o) := fun _ =>
  (decodeSyl_s p (FR.word 14 0 o) 14 (FR.word_op ..) (by decide)).trans (by
    unfold decodeS; rw [FR.word_op, FR.word_f3, FR.ofWord_word]; rfl)
theorem fneg (p : SPos) (o : FR) : Statement (.fneg p o) := fun _ =>
  (decodeSyl_s p (FR.word 14 1 o) 14 (FR.word_op ..) (by decide)).trans (by
    unfold decodeS; rw [FR.word_op, FR.word_f3, FR.ofWord_word]; rfl)
theorem vadd (p : Cl) (o : FR) : Statement (.vadd p o) := fun _ =>
  (decodeSyl_v p (FR.word 1 0 o) 1 (FR.word_op ..) (by decide)).trans (by
    unfold decodeV; rw [FR.word_op, FR.word_f3, FR.ofWord_word]; rfl)
theorem vaddI (p : Cl) (o : FI) : Statement (.vaddI p o) := fun _ =>
  (decodeSyl_v p (FI.word 2 0 o) 2 (FI.word_op ..) (by decide)).trans (by
    unfold decodeV; rw [FI.word_op, FI.word_f3, FI.ofWord_word]; rfl)
theorem vsub (p : Cl) (o : FR) : Statement (.vsub p o) := fun _ =>
  (decodeSyl_v p (FR.word 1 1 o) 1 (FR.word_op ..) (by decide)).trans (by
    unfold decodeV; rw [FR.word_op, FR.word_f3, FR.ofWord_word]; rfl)
theorem vsubI (p : Cl) (o : FI) : Statement (.vsubI p o) := fun _ =>
  (decodeSyl_v p (FI.word 2 1 o) 2 (FI.word_op ..) (by decide)).trans (by
    unfold decodeV; rw [FI.word_op, FI.word_f3, FI.ofWord_word]; rfl)
theorem vmul (p : Cl) (o : FR) : Statement (.vmul p o) := fun _ =>
  (decodeSyl_v p (FR.word 1 2 o) 1 (FR.word_op ..) (by decide)).trans (by
    unfold decodeV; rw [FR.word_op, FR.word_f3, FR.ofWord_word]; rfl)
theorem vmulI (p : Cl) (o : FI) : Statement (.vmulI p o) := fun _ =>
  (decodeSyl_v p (FI.word 2 2 o) 2 (FI.word_op ..) (by decide)).trans (by
    unfold decodeV; rw [FI.word_op, FI.word_f3, FI.ofWord_word]; rfl)
theorem vfma (p : Cl) (o : FR) : Statement (.vfma p o) := fun _ =>
  (decodeSyl_v p (FR.word 1 3 o) 1 (FR.word_op ..) (by decide)).trans (by
    unfold decodeV; rw [FR.word_op, FR.word_f3, FR.ofWord_word]; rfl)
theorem vmadd (p : Cl) (o : FR) : Statement (.vmadd p o) := fun _ =>
  (decodeSyl_v p (FR.word 1 4 o) 1 (FR.word_op ..) (by decide)).trans (by
    unfold decodeV; rw [FR.word_op, FR.word_f3, FR.ofWord_word]; rfl)
theorem vmin (p : Cl) (o : FR) : Statement (.vmin p o) := fun _ =>
  (decodeSyl_v p (FR.word 1 5 o) 1 (FR.word_op ..) (by decide)).trans (by
    unfold decodeV; rw [FR.word_op, FR.word_f3, FR.ofWord_word]; rfl)
theorem vminI (p : Cl) (o : FI) : Statement (.vminI p o) := fun _ =>
  (decodeSyl_v p (FI.word 2 5 o) 2 (FI.word_op ..) (by decide)).trans (by
    unfold decodeV; rw [FI.word_op, FI.word_f3, FI.ofWord_word]; rfl)
theorem vmax (p : Cl) (o : FR) : Statement (.vmax p o) := fun _ =>
  (decodeSyl_v p (FR.word 1 6 o) 1 (FR.word_op ..) (by decide)).trans (by
    unfold decodeV; rw [FR.word_op, FR.word_f3, FR.ofWord_word]; rfl)
theorem vmaxI (p : Cl) (o : FI) : Statement (.vmaxI p o) := fun _ =>
  (decodeSyl_v p (FI.word 2 6 o) 2 (FI.word_op ..) (by decide)).trans (by
    unfold decodeV; rw [FI.word_op, FI.word_f3, FI.ofWord_word]; rfl)
theorem vdot4 (p : Cl) (o : FR) : Statement (.vdot4 p o) := fun _ =>
  (decodeSyl_v p (FR.word 1 7 o) 1 (FR.word_op ..) (by decide)).trans (by
    unfold decodeV; rw [FR.word_op, FR.word_f3, FR.ofWord_word]; rfl)
theorem vabs (p : Cl) (o : FR) : Statement (.vabs p o) := fun _ =>
  (decodeSyl_v p (FR.word 3 0 o) 3 (FR.word_op ..) (by decide)).trans (by
    unfold decodeV; rw [FR.word_op, FR.word_f3, FR.ofWord_word]; rfl)
theorem vneg (p : Cl) (o : FR) : Statement (.vneg p o) := fun _ =>
  (decodeSyl_v p (FR.word 3 1 o) 3 (FR.word_op ..) (by decide)).trans (by
    unfold decodeV; rw [FR.word_op, FR.word_f3, FR.ofWord_word]; rfl)
theorem vand (p : Cl) (o : FR) : Statement (.vand p o) := fun _ =>
  (decodeSyl_v p (FR.word 3 2 o) 3 (FR.word_op ..) (by decide)).trans (by
    unfold decodeV; rw [FR.word_op, FR.word_f3, FR.ofWord_word]; rfl)
theorem vandI (p : Cl) (o : FI) : Statement (.vandI p o) := fun _ =>
  (decodeSyl_v p (FI.word 4 2 o) 4 (FI.word_op ..) (by decide)).trans (by
    unfold decodeV; rw [FI.word_op, FI.word_f3, FI.ofWord_word]; rfl)
theorem vor (p : Cl) (o : FR) : Statement (.vor p o) := fun _ =>
  (decodeSyl_v p (FR.word 3 3 o) 3 (FR.word_op ..) (by decide)).trans (by
    unfold decodeV; rw [FR.word_op, FR.word_f3, FR.ofWord_word]; rfl)
theorem vorI (p : Cl) (o : FI) : Statement (.vorI p o) := fun _ =>
  (decodeSyl_v p (FI.word 4 3 o) 4 (FI.word_op ..) (by decide)).trans (by
    unfold decodeV; rw [FI.word_op, FI.word_f3, FI.ofWord_word]; rfl)
theorem vxor (p : Cl) (o : FR) : Statement (.vxor p o) := fun _ =>
  (decodeSyl_v p (FR.word 3 4 o) 3 (FR.word_op ..) (by decide)).trans (by
    unfold decodeV; rw [FR.word_op, FR.word_f3, FR.ofWord_word]; rfl)
theorem vxorI (p : Cl) (o : FI) : Statement (.vxorI p o) := fun _ =>
  (decodeSyl_v p (FI.word 4 4 o) 4 (FI.word_op ..) (by decide)).trans (by
    unfold decodeV; rw [FI.word_op, FI.word_f3, FI.ofWord_word]; rfl)
theorem vnot (p : Cl) (o : FR) : Statement (.vnot p o) := fun _ =>
  (decodeSyl_v p (FR.word 3 5 o) 3 (FR.word_op ..) (by decide)).trans (by
    unfold decodeV; rw [FR.word_op, FR.word_f3, FR.ofWord_word]; rfl)
theorem vsel (p : Cl) (o : FR) : Statement (.vsel p o) := fun _ =>
  (decodeSyl_v p (FR.word 3 6 o) 3 (FR.word_op ..) (by decide)).trans (by
    unfold decodeV; rw [FR.word_op, FR.word_f3, FR.ofWord_word]; rfl)
theorem vcmp (p : Cl) (o : FR) : Statement (.vcmp p o) := fun _ =>
  (decodeSyl_v p (FR.word 3 7 o) 3 (FR.word_op ..) (by decide)).trans (by
    unfold decodeV; rw [FR.word_op, FR.word_f3, FR.ofWord_word]; rfl)
theorem vcmpI (p : Cl) (o : FI) : Statement (.vcmpI p o) := fun _ =>
  (decodeSyl_v p (FI.word 4 7 o) 4 (FI.word_op ..) (by decide)).trans (by
    unfold decodeV; rw [FI.word_op, FI.word_f3, FI.ofWord_word]; rfl)
theorem vshl (p : Cl) (o : FR) : Statement (.vshl p o) := fun _ =>
  (decodeSyl_v p (FR.word 5 0 o) 5 (FR.word_op ..) (by decide)).trans (by
    unfold decodeV; rw [FR.word_op, FR.word_f3, FR.ofWord_word]; rfl)
theorem vshlI (p : Cl) (o : FI) : Statement (.vshlI p o) := fun _ =>
  (decodeSyl_v p (FI.word 6 0 o) 6 (FI.word_op ..) (by decide)).trans (by
    unfold decodeV; rw [FI.word_op, FI.word_f3, FI.ofWord_word]; rfl)
theorem vshr (p : Cl) (o : FR) : Statement (.vshr p o) := fun _ =>
  (decodeSyl_v p (FR.word 5 1 o) 5 (FR.word_op ..) (by decide)).trans (by
    unfold decodeV; rw [FR.word_op, FR.word_f3, FR.ofWord_word]; rfl)
theorem vshrI (p : Cl) (o : FI) : Statement (.vshrI p o) := fun _ =>
  (decodeSyl_v p (FI.word 6 1 o) 6 (FI.word_op ..) (by decide)).trans (by
    unfold decodeV; rw [FI.word_op, FI.word_f3, FI.ofWord_word]; rfl)
theorem vsar (p : Cl) (o : FR) : Statement (.vsar p o) := fun _ =>
  (decodeSyl_v p (FR.word 5 2 o) 5 (FR.word_op ..) (by decide)).trans (by
    unfold decodeV; rw [FR.word_op, FR.word_f3, FR.ofWord_word]; rfl)
theorem vsarI (p : Cl) (o : FI) : Statement (.vsarI p o) := fun _ =>
  (decodeSyl_v p (FI.word 6 2 o) 6 (FI.word_op ..) (by decide)).trans (by
    unfold decodeV; rw [FI.word_op, FI.word_f3, FI.ofWord_word]; rfl)
theorem vclmul (p : Cl) (o : FR) : Statement (.vclmul p o) := fun _ =>
  (decodeSyl_v p (FR.word 5 3 o) 5 (FR.word_op ..) (by decide)).trans (by
    unfold decodeV; rw [FR.word_op, FR.word_f3, FR.ofWord_word]; rfl)
theorem vpopc (p : Cl) (o : FR) : Statement (.vpopc p o) := fun _ =>
  (decodeSyl_v p (FR.word 5 4 o) 5 (FR.word_op ..) (by decide)).trans (by
    unfold decodeV; rw [FR.word_op, FR.word_f3, FR.ofWord_word]; rfl)
theorem vclz (p : Cl) (o : FR) : Statement (.vclz p o) := fun _ =>
  (decodeSyl_v p (FR.word 5 5 o) 5 (FR.word_op ..) (by decide)).trans (by
    unfold decodeV; rw [FR.word_op, FR.word_f3, FR.ofWord_word]; rfl)
theorem vcvt (p : Cl) (o : FR) : Statement (.vcvt p o) := fun _ =>
  (decodeSyl_v p (FR.word 7 0 o) 7 (FR.word_op ..) (by decide)).trans (by
    unfold decodeV; rw [FR.word_op, FR.word_f3, FR.ofWord_word]; rfl)
theorem vwid (p : Cl) (o : FR) : Statement (.vwid p o) := fun _ =>
  (decodeSyl_v p (FR.word 7 1 o) 7 (FR.word_op ..) (by decide)).trans (by
    unfold decodeV; rw [FR.word_op, FR.word_f3, FR.ofWord_word]; rfl)
theorem vnar (p : Cl) (o : FR) : Statement (.vnar p o) := fun _ =>
  (decodeSyl_v p (FR.word 7 2 o) 7 (FR.word_op ..) (by decide)).trans (by
    unfold decodeV; rw [FR.word_op, FR.word_f3, FR.ofWord_word]; rfl)
theorem vsat (p : Cl) (o : FR) : Statement (.vsat p o) := fun _ =>
  (decodeSyl_v p (FR.word 7 3 o) 7 (FR.word_op ..) (by decide)).trans (by
    unfold decodeV; rw [FR.word_op, FR.word_f3, FR.ofWord_word]; rfl)
theorem vrnd (p : Cl) (o : FR) : Statement (.vrnd p o) := fun _ =>
  (decodeSyl_v p (FR.word 7 4 o) 7 (FR.word_op ..) (by decide)).trans (by
    unfold decodeV; rw [FR.word_op, FR.word_f3, FR.ofWord_word]; rfl)
theorem vcbdec (p : Cl) (o : FR) : Statement (.vcbdec p o) := fun _ =>
  (decodeSyl_v p (FR.word 7 5 o) 7 (FR.word_op ..) (by decide)).trans (by
    unfold decodeV; rw [FR.word_op, FR.word_f3, FR.ofWord_word]; rfl)
theorem vscale (p : Cl) (o : FR) : Statement (.vscale p o) := fun _ =>
  (decodeSyl_v p (FR.word 7 6 o) 7 (FR.word_op ..) (by decide)).trans (by
    unfold decodeV; rw [FR.word_op, FR.word_f3, FR.ofWord_word]; rfl)
theorem vrcp (p : Cl) (o : FR) : Statement (.vrcp p o) := fun _ =>
  (decodeSyl_v p (FR.word 8 0 o) 8 (FR.word_op ..) (by decide)).trans (by
    unfold decodeV; rw [FR.word_op, FR.word_f3, FR.ofWord_word]; rfl)
theorem vrsq (p : Cl) (o : FR) : Statement (.vrsq p o) := fun _ =>
  (decodeSyl_v p (FR.word 8 1 o) 8 (FR.word_op ..) (by decide)).trans (by
    unfold decodeV; rw [FR.word_op, FR.word_f3, FR.ofWord_word]; rfl)
theorem vsqrt (p : Cl) (o : FR) : Statement (.vsqrt p o) := fun _ =>
  (decodeSyl_v p (FR.word 8 2 o) 8 (FR.word_op ..) (by decide)).trans (by
    unfold decodeV; rw [FR.word_op, FR.word_f3, FR.ofWord_word]; rfl)
theorem vexp2 (p : Cl) (o : FR) : Statement (.vexp2 p o) := fun _ =>
  (decodeSyl_v p (FR.word 8 3 o) 8 (FR.word_op ..) (by decide)).trans (by
    unfold decodeV; rw [FR.word_op, FR.word_f3, FR.ofWord_word]; rfl)
theorem vlog2 (p : Cl) (o : FR) : Statement (.vlog2 p o) := fun _ =>
  (decodeSyl_v p (FR.word 8 4 o) 8 (FR.word_op ..) (by decide)).trans (by
    unfold decodeV; rw [FR.word_op, FR.word_f3, FR.ofWord_word]; rfl)
theorem vtanh (p : Cl) (o : FR) : Statement (.vtanh p o) := fun _ =>
  (decodeSyl_v p (FR.word 8 5 o) 8 (FR.word_op ..) (by decide)).trans (by
    unfold decodeV; rw [FR.word_op, FR.word_f3, FR.ofWord_word]; rfl)
theorem vsig (p : Cl) (o : FR) : Statement (.vsig p o) := fun _ =>
  (decodeSyl_v p (FR.word 8 6 o) 8 (FR.word_op ..) (by decide)).trans (by
    unfold decodeV; rw [FR.word_op, FR.word_f3, FR.ofWord_word]; rfl)
theorem vredsum (p : Cl) (o : FR) : Statement (.vredsum p o) := fun _ =>
  (decodeSyl_v p (FR.word 9 0 o) 9 (FR.word_op ..) (by decide)).trans (by
    unfold decodeV; rw [FR.word_op, FR.word_f3, FR.ofWord_word]; rfl)
theorem vredmax (p : Cl) (o : FR) : Statement (.vredmax p o) := fun _ =>
  (decodeSyl_v p (FR.word 9 1 o) 9 (FR.word_op ..) (by decide)).trans (by
    unfold decodeV; rw [FR.word_op, FR.word_f3, FR.ofWord_word]; rfl)
theorem vredmin (p : Cl) (o : FR) : Statement (.vredmin p o) := fun _ =>
  (decodeSyl_v p (FR.word 9 2 o) 9 (FR.word_op ..) (by decide)).trans (by
    unfold decodeV; rw [FR.word_op, FR.word_f3, FR.ofWord_word]; rfl)
theorem vperm (p : Cl) (o : FR) : Statement (.vperm p o) := fun _ =>
  (decodeSyl_v p (FR.word 10 0 o) 10 (FR.word_op ..) (by decide)).trans (by
    unfold decodeV; rw [FR.word_op, FR.word_f3, FR.ofWord_word]; rfl)
theorem vshuf (p : Cl) (o : FR) : Statement (.vshuf p o) := fun _ =>
  (decodeSyl_v p (FR.word 10 1 o) 10 (FR.word_op ..) (by decide)).trans (by
    unfold decodeV; rw [FR.word_op, FR.word_f3, FR.ofWord_word]; rfl)
theorem vbcast (p : Cl) (o : FR) : Statement (.vbcast p o) := fun _ =>
  (decodeSyl_v p (FR.word 10 2 o) 10 (FR.word_op ..) (by decide)).trans (by
    unfold decodeV; rw [FR.word_op, FR.word_f3, FR.ofWord_word]; rfl)
theorem vext (p : Cl) (o : FR) : Statement (.vext p o) := fun _ =>
  (decodeSyl_v p (FR.word 10 3 o) 10 (FR.word_op ..) (by decide)).trans (by
    unfold decodeV; rw [FR.word_op, FR.word_f3, FR.ofWord_word]; rfl)
theorem vtrn (p : Cl) (o : FR) : Statement (.vtrn p o) := fun _ =>
  (decodeSyl_v p (FR.word 10 4 o) 10 (FR.word_op ..) (by decide)).trans (by
    unfold decodeV; rw [FR.word_op, FR.word_f3, FR.ofWord_word]; rfl)
theorem xcp (p : Cl) (o : FR) : Statement (.xcp p o) := fun _ =>
  (decodeSyl_v p (FR.word 11 0 o) 11 (FR.word_op ..) (by decide)).trans (by
    unfold decodeV; rw [FR.word_op, FR.word_f3, FR.ofWord_word]; rfl)
theorem vandM (p : Cl) (o : FR) : Statement (.vandM p o) := fun _ =>
  (decodeSyl_v p (FR.word 12 2 o) 12 (FR.word_op ..) (by decide)).trans (by
    unfold decodeV; rw [FR.word_op, FR.word_f3, FR.ofWord_word]; rfl)
theorem vorM (p : Cl) (o : FR) : Statement (.vorM p o) := fun _ =>
  (decodeSyl_v p (FR.word 12 3 o) 12 (FR.word_op ..) (by decide)).trans (by
    unfold decodeV; rw [FR.word_op, FR.word_f3, FR.ofWord_word]; rfl)
theorem vxorM (p : Cl) (o : FR) : Statement (.vxorM p o) := fun _ =>
  (decodeSyl_v p (FR.word 12 4 o) 12 (FR.word_op ..) (by decide)).trans (by
    unfold decodeV; rw [FR.word_op, FR.word_f3, FR.ofWord_word]; rfl)
theorem vnotM (p : Cl) (o : FR) : Statement (.vnotM p o) := fun _ =>
  (decodeSyl_v p (FR.word 12 5 o) 12 (FR.word_op ..) (by decide)).trans (by
    unfold decodeV; rw [FR.word_op, FR.word_f3, FR.ofWord_word]; rfl)
theorem ldS (o : FM) : Statement (.ldS o) := fun _ =>
  (decodeSyl_e (FM.word 1 0 o) 1 (FM.word_op ..) (by decide)).trans (by
    unfold decodeE; rw [FM.word_op, FM.word_f3]
    show fmWord _ _ = _
    unfold fmWord; rw [FM.word_zero, FM.ofWord_word]; rfl)
theorem ldT (o : FM) : Statement (.ldT o) := fun _ =>
  (decodeSyl_e (FM.word 1 1 o) 1 (FM.word_op ..) (by decide)).trans (by
    unfold decodeE; rw [FM.word_op, FM.word_f3]
    show fmWord _ _ = _
    unfold fmWord; rw [FM.word_zero, FM.ofWord_word]; rfl)
theorem stS (o : FM) : Statement (.stS o) := fun _ =>
  (decodeSyl_e (FM.word 2 0 o) 2 (FM.word_op ..) (by decide)).trans (by
    unfold decodeE; rw [FM.word_op, FM.word_f3]
    show fmWord _ _ = _
    unfold fmWord; rw [FM.word_zero, FM.ofWord_word]; rfl)
theorem stT (o : FM) : Statement (.stT o) := fun _ =>
  (decodeSyl_e (FM.word 2 1 o) 2 (FM.word_op ..) (by decide)).trans (by
    unfold decodeE; rw [FM.word_op, FM.word_f3]
    show fmWord _ _ = _
    unfold fmWord; rw [FM.word_zero, FM.ofWord_word]; rfl)
theorem ldx (o : FE) : Statement (.ldx o) := fun _ =>
  (decodeSyl_e (FE.word 3 0 o) 3 (FE.word_op ..) (by decide)).trans (by
    unfold decodeE; rw [FE.word_op, FE.word_f3, FE.ofWord_word]; rfl)
theorem stx (o : FE) : Statement (.stx o) := fun _ =>
  (decodeSyl_e (FE.word 3 1 o) 3 (FE.word_op ..) (by decide)).trans (by
    unfold decodeE; rw [FE.word_op, FE.word_f3, FE.ofWord_word]; rfl)
theorem stxAdd (o : FE) : Statement (.stxAdd o) := fun _ =>
  (decodeSyl_e (FE.word 3 2 o) 3 (FE.word_op ..) (by decide)).trans (by
    unfold decodeE; rw [FE.word_op, FE.word_f3, FE.ofWord_word]; rfl)
theorem dcopy (o : FE) : Statement (.dcopy o) := fun _ =>
  (decodeSyl_e (FE.word 4 0 o) 4 (FE.word_op ..) (by decide)).trans (by
    unfold decodeE; rw [FE.word_op, FE.word_f3, FE.ofWord_word]; rfl)
theorem dcopyCsum (o : FE) : Statement (.dcopyCsum o) := fun _ =>
  (decodeSyl_e (FE.word 4 1 o) 4 (FE.word_op ..) (by decide)).trans (by
    unfold decodeE; rw [FE.word_op, FE.word_f3, FE.ofWord_word]; rfl)
theorem rst (o : FE) : Statement (.rst o) := fun _ =>
  (decodeSyl_e (FE.word 5 0 o) 5 (FE.word_op ..) (by decide)).trans (by
    unfold decodeE; rw [FE.word_op, FE.word_f3, FE.ofWord_word]; rfl)
theorem rld (o : FE) : Statement (.rld o) := fun _ =>
  (decodeSyl_e (FE.word 5 1 o) 5 (FE.word_op ..) (by decide)).trans (by
    unfold decodeE; rw [FE.word_op, FE.word_f3, FE.ofWord_word]; rfl)
theorem amoAdd (o : FE) : Statement (.amoAdd o) := fun _ =>
  (decodeSyl_e (FE.word 6 0 o) 6 (FE.word_op ..) (by decide)).trans (by
    unfold decodeE; rw [FE.word_op, FE.word_f3, FE.ofWord_word]; rfl)
theorem amoAnd (o : FE) : Statement (.amoAnd o) := fun _ =>
  (decodeSyl_e (FE.word 6 1 o) 6 (FE.word_op ..) (by decide)).trans (by
    unfold decodeE; rw [FE.word_op, FE.word_f3, FE.ofWord_word]; rfl)
theorem amoOr (o : FE) : Statement (.amoOr o) := fun _ =>
  (decodeSyl_e (FE.word 6 2 o) 6 (FE.word_op ..) (by decide)).trans (by
    unfold decodeE; rw [FE.word_op, FE.word_f3, FE.ofWord_word]; rfl)
theorem amoXor (o : FE) : Statement (.amoXor o) := fun _ =>
  (decodeSyl_e (FE.word 6 3 o) 6 (FE.word_op ..) (by decide)).trans (by
    unfold decodeE; rw [FE.word_op, FE.word_f3, FE.ofWord_word]; rfl)
theorem amoMin (o : FE) : Statement (.amoMin o) := fun _ =>
  (decodeSyl_e (FE.word 6 4 o) 6 (FE.word_op ..) (by decide)).trans (by
    unfold decodeE; rw [FE.word_op, FE.word_f3, FE.ofWord_word]; rfl)
theorem amoMax (o : FE) : Statement (.amoMax o) := fun _ =>
  (decodeSyl_e (FE.word 6 5 o) 6 (FE.word_op ..) (by decide)).trans (by
    unfold decodeE; rw [FE.word_op, FE.word_f3, FE.ofWord_word]; rfl)
theorem amoSwap (o : FE) : Statement (.amoSwap o) := fun _ =>
  (decodeSyl_e (FE.word 6 6 o) 6 (FE.word_op ..) (by decide)).trans (by
    unfold decodeE; rw [FE.word_op, FE.word_f3, FE.ofWord_word]; rfl)
theorem amoCas (o : FE) : Statement (.amoCas o) := fun _ =>
  (decodeSyl_e (FE.word 6 7 o) 6 (FE.word_op ..) (by decide)).trans (by
    unfold decodeE; rw [FE.word_op, FE.word_f3, FE.ofWord_word]; rfl)
theorem redAdd (o : FE) : Statement (.redAdd o) := fun _ =>
  (decodeSyl_e (FE.word 7 0 o) 7 (FE.word_op ..) (by decide)).trans (by
    unfold decodeE; rw [FE.word_op, FE.word_f3, FE.ofWord_word]; rfl)
theorem redAnd (o : FE) : Statement (.redAnd o) := fun _ =>
  (decodeSyl_e (FE.word 7 1 o) 7 (FE.word_op ..) (by decide)).trans (by
    unfold decodeE; rw [FE.word_op, FE.word_f3, FE.ofWord_word]; rfl)
theorem redOr (o : FE) : Statement (.redOr o) := fun _ =>
  (decodeSyl_e (FE.word 7 2 o) 7 (FE.word_op ..) (by decide)).trans (by
    unfold decodeE; rw [FE.word_op, FE.word_f3, FE.ofWord_word]; rfl)
theorem redXor (o : FE) : Statement (.redXor o) := fun _ =>
  (decodeSyl_e (FE.word 7 3 o) 7 (FE.word_op ..) (by decide)).trans (by
    unfold decodeE; rw [FE.word_op, FE.word_f3, FE.ofWord_word]; rfl)
theorem redMin (o : FE) : Statement (.redMin o) := fun _ =>
  (decodeSyl_e (FE.word 7 4 o) 7 (FE.word_op ..) (by decide)).trans (by
    unfold decodeE; rw [FE.word_op, FE.word_f3, FE.ofWord_word]; rfl)
theorem redMax (o : FE) : Statement (.redMax o) := fun _ =>
  (decodeSyl_e (FE.word 7 5 o) 7 (FE.word_op ..) (by decide)).trans (by
    unfold decodeE; rw [FE.word_op, FE.word_f3, FE.ofWord_word]; rfl)
theorem redFadd (o : FE) : Statement (.redFadd o) := fun _ =>
  (decodeSyl_e (FE.word 7 6 o) 7 (FE.word_op ..) (by decide)).trans (by
    unfold decodeE; rw [FE.word_op, FE.word_f3, FE.ofWord_word]; rfl)
theorem kalloc (o : FE) : Statement (.kalloc o) := fun _ =>
  (decodeSyl_e (FE.word 8 0 o) 8 (FE.word_op ..) (by decide)).trans (by
    unfold decodeE; rw [FE.word_op, FE.word_f3, FE.ofWord_word]; rfl)
theorem kallocM (o : FE) : Statement (.kallocM o) := fun _ =>
  (decodeSyl_e (FE.word 8 1 o) 8 (FE.word_op ..) (by decide)).trans (by
    unfold decodeE; rw [FE.word_op, FE.word_f3, FE.ofWord_word]; rfl)
theorem kfree (o : FE) : Statement (.kfree o) := fun _ =>
  (decodeSyl_e (FE.word 8 2 o) 8 (FE.word_op ..) (by decide)).trans (by
    unfold decodeE; rw [FE.word_op, FE.word_f3, FE.ofWord_word]; rfl)
theorem kquery (o : FE) : Statement (.kquery o) := fun _ =>
  (decodeSyl_e (FE.word 8 3 o) 8 (FE.word_op ..) (by decide)).trans (by
    unfold decodeE; rw [FE.word_op, FE.word_f3, FE.ofWord_word]; rfl)
theorem tacq (o : FE) : Statement (.tacq o) := fun _ =>
  (decodeSyl_e (FE.word 9 0 o) 9 (FE.word_op ..) (by decide)).trans (by
    unfold decodeE; rw [FE.word_op, FE.word_f3, FE.ofWord_word]; rfl)
theorem trel (o : FE) : Statement (.trel o) := fun _ =>
  (decodeSyl_e (FE.word 9 1 o) 9 (FE.word_op ..) (by decide)).trans (by
    unfold decodeE; rw [FE.word_op, FE.word_f3, FE.ofWord_word]; rfl)
theorem sbind (o : FE) : Statement (.sbind o) := fun _ =>
  (decodeSyl_e (FE.word 10 0 o) 10 (FE.word_op ..) (by decide)).trans (by
    unfold decodeE; rw [FE.word_op, FE.word_f3, FE.ofWord_word]; rfl)
theorem sunbind (o : FE) : Statement (.sunbind o) := fun _ =>
  (decodeSyl_e (FE.word 10 1 o) 10 (FE.word_op ..) (by decide)).trans (by
    unfold decodeE; rw [FE.word_op, FE.word_f3, FE.ofWord_word]; rfl)
theorem sstat (o : FE) : Statement (.sstat o) := fun _ =>
  (decodeSyl_e (FE.word 10 2 o) 10 (FE.word_op ..) (by decide)).trans (by
    unfold decodeE; rw [FE.word_op, FE.word_f3, FE.ofWord_word]; rfl)
theorem cspush (o : FE) : Statement (.cspush o) := fun _ =>
  (decodeSyl_e (FE.word 11 0 o) 11 (FE.word_op ..) (by decide)).trans (by
    unfold decodeE; rw [FE.word_op, FE.word_f3, FE.ofWord_word]; rfl)
theorem cspop (o : FE) : Statement (.cspop o) := fun _ =>
  (decodeSyl_e (FE.word 11 1 o) 11 (FE.word_op ..) (by decide)).trans (by
    unfold decodeE; rw [FE.word_op, FE.word_f3, FE.ofWord_word]; rfl)
theorem cmm (o : FE) : Statement (.cmm o) := fun _ =>
  (decodeSyl_e (FE.word 12 0 o) 12 (FE.word_op ..) (by decide)).trans (by
    unfold decodeE; rw [FE.word_op, FE.word_f3, FE.ofWord_word]; rfl)
theorem cmmz (o : FE) : Statement (.cmmz o) := fun _ =>
  (decodeSyl_e (FE.word 12 1 o) 12 (FE.word_op ..) (by decide)).trans (by
    unfold decodeE; rw [FE.word_op, FE.word_f3, FE.ofWord_word]; rfl)
theorem cconv (o : FE) : Statement (.cconv o) := fun _ =>
  (decodeSyl_e (FE.word 12 2 o) 12 (FE.word_op ..) (by decide)).trans (by
    unfold decodeE; rw [FE.word_op, FE.word_f3, FE.ofWord_word]; rfl)
theorem cplane (o : FE) : Statement (.cplane o) := fun _ =>
  (decodeSyl_e (FE.word 12 3 o) 12 (FE.word_op ..) (by decide)).trans (by
    unfold decodeE; rw [FE.word_op, FE.word_f3, FE.ofWord_word]; rfl)
theorem csmeta (o : FE) : Statement (.csmeta o) := fun _ =>
  (decodeSyl_e (FE.word 12 4 o) 12 (FE.word_op ..) (by decide)).trans (by
    unfold decodeE; rw [FE.word_op, FE.word_f3, FE.ofWord_word]; rfl)
theorem cfill (o : FE) : Statement (.cfill o) := fun _ =>
  (decodeSyl_e (FE.word 13 0 o) 13 (FE.word_op ..) (by decide)).trans (by
    unfold decodeE; rw [FE.word_op, FE.word_f3, FE.ofWord_word]; rfl)
theorem cswap (o : FE) : Statement (.cswap o) := fun _ =>
  (decodeSyl_e (FE.word 13 1 o) 13 (FE.word_op ..) (by decide)).trans (by
    unfold decodeE; rw [FE.word_op, FE.word_f3, FE.ofWord_word]; rfl)
theorem crdacc (o : FE) : Statement (.crdacc o) := fun _ =>
  (decodeSyl_e (FE.word 13 2 o) 13 (FE.word_op ..) (by decide)).trans (by
    unfold decodeE; rw [FE.word_op, FE.word_f3, FE.ofWord_word]; rfl)
theorem cwracc (o : FE) : Statement (.cwracc o) := fun _ =>
  (decodeSyl_e (FE.word 13 3 o) 13 (FE.word_op ..) (by decide)).trans (by
    unfold decodeE; rw [FE.word_op, FE.word_f3, FE.ofWord_word]; rfl)
theorem cdrain (o : FE) : Statement (.cdrain o) := fun _ =>
  (decodeSyl_e (FE.word 13 4 o) 13 (FE.word_op ..) (by decide)).trans (by
    unfold decodeE; rw [FE.word_op, FE.word_f3, FE.ofWord_word]; rfl)
theorem ckat (o : FE) : Statement (.ckat o) := fun _ =>
  (decodeSyl_e (FE.word 14 0 o) 14 (FE.word_op ..) (by decide)).trans (by
    unfold decodeE; rw [FE.word_op, FE.word_f3, FE.ofWord_word]; rfl)
theorem cseq (o : FE) : Statement (.cseq o) := fun _ =>
  (decodeSyl_e (FE.word 14 1 o) 14 (FE.word_op ..) (by decide)).trans (by
    unfold decodeE; rw [FE.word_op, FE.word_f3, FE.ofWord_word]; rfl)
theorem cstat (o : FE) : Statement (.cstat o) := fun _ =>
  (decodeSyl_e (FE.word 14 2 o) 14 (FE.word_op ..) (by decide)).trans (by
    unfold decodeE; rw [FE.word_op, FE.word_f3, FE.ofWord_word]; rfl)
theorem cbist (o : FE) : Statement (.cbist o) := fun _ =>
  (decodeSyl_e (FE.word 14 3 o) 14 (FE.word_op ..) (by decide)).trans (by
    unfold decodeE; rw [FE.word_op, FE.word_f3, FE.ofWord_word]; rfl)
theorem trigArm (o : FE) : Statement (.trigArm o) := fun _ =>
  (decodeSyl_e (FE.word 15 0 o) 15 (FE.word_op ..) (by decide)).trans (by
    unfold decodeE; rw [FE.word_op, FE.word_f3, FE.ofWord_word]; rfl)
theorem trigCancel (o : FE) : Statement (.trigCancel o) := fun _ =>
  (decodeSyl_e (FE.word 15 1 o) 15 (FE.word_op ..) (by decide)).trans (by
    unfold decodeE; rw [FE.word_op, FE.word_f3, FE.ofWord_word]; rfl)
theorem bcarm (o : FE) : Statement (.bcarm o) := fun _ =>
  (decodeSyl_e (FE.word 15 2 o) 15 (FE.word_op ..) (by decide)).trans (by
    unfold decodeE; rw [FE.word_op, FE.word_f3, FE.ofWord_word]; rfl)
theorem registerResultLanding (g : Nat) : Statement (.registerResultLanding g) := nofun
theorem codeIndexRefill (c : Nat) (window : Nat) : Statement (.codeIndexRefill c window) := nofun
theorem haltComplete (g : Nat) : Statement (.haltComplete g) := nofun
theorem copyEngineDispatch (q : Nat) : Statement (.copyEngineDispatch q) := nofun
theorem engineTranslationFault (u : EngineUnit) : Statement (.engineTranslationFault u) := nofun
theorem copyCommandEnd (q : Nat) : Statement (.copyCommandEnd q) := nofun
theorem remoteEngineDispatch (c : Nat) : Statement (.remoteEngineDispatch c) := nofun
theorem remoteCommandEnd (c : Nat) (n : Nat) : Statement (.remoteCommandEnd c n) := nofun
theorem cspushAccept (c : Nat) : Statement (.cspushAccept c) := nofun
theorem cspopDelivery (q : Nat) (b : Nat) : Statement (.cspopDelivery q b) := nofun
theorem streamTileFetch (g : Nat) (n : Nat) : Statement (.streamTileFetch g n) := nofun
theorem streamTileLand (g : Nat) (n : Nat) : Statement (.streamTileLand g n) := nofun
theorem streamTileTake (g : Nat) (n : Nat) : Statement (.streamTileTake g n) := nofun
theorem streamEnd (g : Nat) (n : Nat) : Statement (.streamEnd g n) := nofun
theorem writeQueueApply (n : Nat) : Statement (.writeQueueApply n) := nofun
theorem cubeCommandDispatch (q : Nat) : Statement (.cubeCommandDispatch q) := nofun
theorem planeLayerStart (q : Nat) (l : Nat) : Statement (.planeLayerStart q l) := nofun
theorem planeLayerEnd (q : Nat) (l : Nat) : Statement (.planeLayerEnd q l) := nofun
theorem cubeCommandEnd (q : Nat) (n : Nat) : Statement (.cubeCommandEnd q n) := nofun
theorem cubeCommandStop (g : Nat) : Statement (.cubeCommandStop g) := nofun
theorem cubeRecovery (q : Nat) (l : Nat) (face : Nat) : Statement (.cubeRecovery q l face) := nofun
theorem cubeReadEnd (q : Nat) (n : Nat) : Statement (.cubeReadEnd q n) := nofun
theorem sequencerTransition (q : Nat) (l : Nat) : Statement (.sequencerTransition q l) := nofun
theorem leaseGrant (q : Nat) : Statement (.leaseGrant q) := nofun
theorem leaseRunEnd (q : Nat) : Statement (.leaseRunEnd q) := nofun
theorem stacqGrant (t : Nat) (n : Nat) : Statement (.stacqGrant t n) := nofun
theorem barrierCompletion (n : Nat) : Statement (.barrierCompletion n) := nofun
theorem plannedCompletionDeadline (n : Nat) : Statement (.plannedCompletionDeadline n) := nofun
theorem commStepEnd (l : Nat) : Statement (.commStepEnd l) := nofun
theorem engineArmTick (u : Nat) : Statement (.engineArmTick u) := nofun
theorem governorSample (q : Nat) (l : Nat) (temps : List Int) : Statement (.governorSample q l temps) := nofun
theorem governorStepChange (q : Nat) : Statement (.governorStepChange q) := nofun
theorem droopStart : Statement .droopStart := nofun
theorem droopEnd : Statement .droopEnd := nofun
theorem scrub (u : Nat) (bad : List Nat) : Statement (.scrub u bad) := nofun
theorem kittySwitchLoss (w : Nat) : Statement (.kittySwitchLoss w) := nofun
theorem peerTimeout (p : Nat) : Statement (.peerTimeout p) := nofun
theorem fwrite (m : WriteMsg) : Statement (.fwrite m) := nofun
theorem flaginc (m : FlagMsg) : Statement (.flaginc m) := nofun
theorem poolreq (m : PoolReq) : Statement (.poolreq m) := nofun
theorem poolrsp (m : PoolRsp) : Statement (.poolrsp m) := nofun
theorem tokreq (m : TokMsg) : Statement (.tokreq m) := nofun
theorem tokgrant (m : TokMsg) : Statement (.tokgrant m) := nofun
theorem tokrecall (m : TokMsg) : Statement (.tokrecall m) := nofun
theorem loss (m : LossMsg) : Statement (.loss m) := nofun
theorem trigarr (m : FlagMsg) : Statement (.trigarr m) := nofun
theorem lineadd (m : LineMsg) : Statement (.lineadd m) := nofun
theorem ualinkRead (m : LinkReq) : Statement (.ualinkRead m) := nofun
theorem ualinkWrite (m : LinkReq) : Statement (.ualinkWrite m) := nofun
theorem ualinkAtomic (m : LinkReq) : Statement (.ualinkAtomic m) := nofun
theorem ualinkResponse (m : LinkRsp) : Statement (.ualinkResponse m) := nofun
theorem unsupportedVendorMessage (port : Nat) (vf : Nat) : Statement (.unsupportedVendorMessage port vf) := nofun
theorem launch (c : QueueCmd) : Statement (.launch c) := nofun
theorem nopCmd (c : QueueCmd) : Statement (.nopCmd c) := nofun
theorem phaseArm (l : Nat) : Statement (.phaseArm l) := nofun
theorem imageLoad (c : Nat) : Statement (.imageLoad c) := nofun
theorem launchRetire (l : Nat) : Statement (.launchRetire l) := nofun
theorem dealerPoll : Statement (.dealerPoll) := nofun
theorem syscRequest : Statement (.syscRequest) := nofun
theorem faultRecord : Statement (.faultRecord) := nofun
theorem preemption (g : Nat) : Statement (.preemption g) := nofun
theorem saveFrameWrite (g : Nat) : Statement (.saveFrameWrite g) := nofun
theorem contextRestore (g : Nat) (g2 : Nat) : Statement (.contextRestore g g2) := nofun
theorem mapq (c : QueueCmd) : Statement (.mapq c) := nofun
theorem unmapq (c : QueueCmd) : Statement (.unmapq c) := nofun
theorem partwrite (c : QueueCmd) : Statement (.partwrite c) := nofun
theorem rangeload (c : QueueCmd) : Statement (.rangeload c) := nofun
theorem walkinv (c : QueueCmd) : Statement (.walkinv c) := nofun
theorem preempt (c : QueueCmd) : Statement (.preempt c) := nofun
theorem resume (c : QueueCmd) : Statement (.resume c) := nofun
theorem kill (c : QueueCmd) : Statement (.kill c) := nofun
theorem reexec (c : QueueCmd) : Statement (.reexec c) := nofun
theorem flr (c : QueueCmd) : Statement (.flr c) := nofun
theorem quota (c : QueueCmd) : Statement (.quota c) := nofun
theorem bist (c : QueueCmd) : Statement (.bist c) := nofun
theorem attest (c : QueueCmd) : Statement (.attest c) := nofun
theorem keyprov (c : QueueCmd) : Statement (.keyprov c) := nofun
theorem service (c : QueueCmd) : Statement (.service c) := nofun
theorem checkpoint (c : QueueCmd) : Statement (.checkpoint c) := nofun
theorem restore (c : QueueCmd) : Statement (.restore c) := nofun
theorem svcreg (c : QueueCmd) : Statement (.svcreg c) := nofun
theorem svcreply (c : QueueCmd) : Statement (.svcreply c) := nofun
theorem doorbell (desc : HostRef) (tail : BitVec 32) : Statement (.doorbell desc tail) := nofun
theorem droopcfgWrite (w : BitVec 64) : Statement (.droopcfgWrite w) := nofun
theorem govcfgWrite (t : Nat) (w : BitVec 64) : Statement (.govcfgWrite t w) := nofun
theorem vmarginWrite (r : Nat) (w : BitVec 64) : Statement (.vmarginWrite r w) := nofun
theorem lmarginStart (p : Nat) (w : BitVec 64) : Statement (.lmarginStart p w) := nofun
theorem eyeMeasurementEnd (p : Nat) (errors : BitVec 32) : Statement (.eyeMeasurementEnd p errors) := nofun
theorem counterClear (n : Nat) (u : Nat) (i : Nat) : Statement (.counterClear n u i) := nofun
theorem zeroiseWrite (on : Bool) : Statement (.zeroiseWrite on) := nofun
theorem registerWrite (off : HostRef) (w : BitVec 64) : Statement (.registerWrite off w) := nofun
theorem tamper : Statement (.tamper) := nofun
theorem glitch : Statement (.glitch) := nofun
theorem fwsig : Statement (.fwsig) := nofun
theorem mgmt : Statement (.mgmt) := nofun
theorem powerOnReset : Statement (.powerOnReset) := nofun
theorem leaseChange (q : Nat) : Statement (.leaseChange q) := nofun
theorem pcieFailure : Statement (.pcieFailure) := nofun
theorem hbmApertureWrite (off : Nat) (data : List (BitVec 8)) : Statement (.hbmApertureWrite off data) := nofun

end Sys2Proof.Laws.RoundTrip
end

