-- ==== Sys2Proof/Laws/State.lean ====
section
/-! SUPPORT. What each update of the state leaves and what it changes, field by field. -/

namespace Sys2Proof.Machine

/-! ### Fields that an update leaves -/

@[simp] theorem setCtx_tick (s : State) (g : Nat) (c : Ctx) : (s.setCtx g c).tick = s.tick := rfl
@[simp] theorem setCtx_mem (s : State) (g : Nat) (c : Ctx) : (s.setCtx g c).mem = s.mem := rfl
@[simp] theorem setCtx_memBad (s : State) (g : Nat) (c : Ctx) : (s.setCtx g c).memBad = s.memBad := rfl
@[simp] theorem setCtx_memSoft (s : State) (g : Nat) (c : Ctx) : (s.setCtx g c).memSoft = s.memSoft := rfl
@[simp] theorem setCtx_wq (s : State) (g : Nat) (c : Ctx) : (s.setCtx g c).wq = s.wq := rfl
@[simp] theorem setCtx_cache (s : State) (g : Nat) (c : Ctx) : (s.setCtx g c).cache = s.cache := rfl
@[simp] theorem setCtx_cores (s : State) (g : Nat) (c : Ctx) : (s.setCtx g c).cores = s.cores := rfl
@[simp] theorem setCtx_quads (s : State) (g : Nat) (c : Ctx) : (s.setCtx g c).quads = s.quads := rfl
@[simp] theorem setCtx_towers (s : State) (g : Nat) (c : Ctx) : (s.setCtx g c).towers = s.towers := rfl
@[simp] theorem setCtx_vfs (s : State) (g : Nat) (c : Ctx) : (s.setCtx g c).vfs = s.vfs := rfl
@[simp] theorem setCtx_toks (s : State) (g : Nat) (c : Ctx) : (s.setCtx g c).toks = s.toks := rfl
@[simp] theorem setCtx_bars (s : State) (g : Nat) (c : Ctx) : (s.setCtx g c).bars = s.bars := rfl
@[simp] theorem setCtx_arms (s : State) (g : Nat) (c : Ctx) : (s.setCtx g c).arms = s.arms := rfl
@[simp] theorem setCtx_droop (s : State) (g : Nat) (c : Ctx) : (s.setCtx g c).droop = s.droop := rfl
@[simp] theorem setCtx_pctr (s : State) (g : Nat) (c : Ctx) : (s.setCtx g c).pctr = s.pctr := rfl
@[simp] theorem setCtx_allocs (s : State) (g : Nat) (c : Ctx) : (s.setCtx g c).allocs = s.allocs := rfl
@[simp] theorem setCtx_lostSw (s : State) (g : Nat) (c : Ctx) : (s.setCtx g c).lostSw = s.lostSw := rfl
@[simp] theorem setCtx_deadPeers (s : State) (g : Nat) (c : Ctx) : (s.setCtx g c).deadPeers = s.deadPeers := rfl
@[simp] theorem setCtx_dealer (s : State) (g : Nat) (c : Ctx) : (s.setCtx g c).dealer = s.dealer := rfl
@[simp] theorem setCtx_agenda (s : State) (g : Nat) (c : Ctx) : (s.setCtx g c).agenda = s.agenda := rfl
@[simp] theorem setCtx_volts (s : State) (g : Nat) (c : Ctx) : (s.setCtx g c).volts = s.volts := rfl
@[simp] theorem setCtx_tried (s : State) (g : Nat) (c : Ctx) : (s.setCtx g c).tried = s.tried := rfl
@[simp] theorem setCtx_cur (s : State) (g : Nat) (c : Ctx) : (s.setCtx g c).cur = s.cur := rfl
@[simp] theorem setCtx_issue (s : State) (g : Nat) (c : Ctx) : (s.setCtx g c).issue = s.issue := rfl
@[simp] theorem setCtx_fresh (s : State) (g : Nat) (c : Ctx) : (s.setCtx g c).fresh = s.fresh := rfl
@[simp] theorem setCtx_serial (s : State) (g : Nat) (c : Ctx) : (s.setCtx g c).serial = s.serial := rfl
@[simp] theorem setCore_tick (s : State) (n : Nat) (v : Core) : (s.setCore n v).tick = s.tick := rfl
@[simp] theorem setCore_mem (s : State) (n : Nat) (v : Core) : (s.setCore n v).mem = s.mem := rfl
@[simp] theorem setCore_memBad (s : State) (n : Nat) (v : Core) : (s.setCore n v).memBad = s.memBad := rfl
@[simp] theorem setCore_memSoft (s : State) (n : Nat) (v : Core) : (s.setCore n v).memSoft = s.memSoft := rfl
@[simp] theorem setCore_wq (s : State) (n : Nat) (v : Core) : (s.setCore n v).wq = s.wq := rfl
@[simp] theorem setCore_cache (s : State) (n : Nat) (v : Core) : (s.setCore n v).cache = s.cache := rfl
@[simp] theorem setCore_ctxs (s : State) (n : Nat) (v : Core) : (s.setCore n v).ctxs = s.ctxs := rfl
@[simp] theorem setCore_quads (s : State) (n : Nat) (v : Core) : (s.setCore n v).quads = s.quads := rfl
@[simp] theorem setCore_towers (s : State) (n : Nat) (v : Core) : (s.setCore n v).towers = s.towers := rfl
@[simp] theorem setCore_vfs (s : State) (n : Nat) (v : Core) : (s.setCore n v).vfs = s.vfs := rfl
@[simp] theorem setCore_toks (s : State) (n : Nat) (v : Core) : (s.setCore n v).toks = s.toks := rfl
@[simp] theorem setCore_bars (s : State) (n : Nat) (v : Core) : (s.setCore n v).bars = s.bars := rfl
@[simp] theorem setCore_arms (s : State) (n : Nat) (v : Core) : (s.setCore n v).arms = s.arms := rfl
@[simp] theorem setCore_droop (s : State) (n : Nat) (v : Core) : (s.setCore n v).droop = s.droop := rfl
@[simp] theorem setCore_pctr (s : State) (n : Nat) (v : Core) : (s.setCore n v).pctr = s.pctr := rfl
@[simp] theorem setCore_allocs (s : State) (n : Nat) (v : Core) : (s.setCore n v).allocs = s.allocs := rfl
@[simp] theorem setCore_lostSw (s : State) (n : Nat) (v : Core) : (s.setCore n v).lostSw = s.lostSw := rfl
@[simp] theorem setCore_deadPeers (s : State) (n : Nat) (v : Core) : (s.setCore n v).deadPeers = s.deadPeers := rfl
@[simp] theorem setCore_dealer (s : State) (n : Nat) (v : Core) : (s.setCore n v).dealer = s.dealer := rfl
@[simp] theorem setCore_agenda (s : State) (n : Nat) (v : Core) : (s.setCore n v).agenda = s.agenda := rfl
@[simp] theorem setCore_volts (s : State) (n : Nat) (v : Core) : (s.setCore n v).volts = s.volts := rfl
@[simp] theorem setCore_tried (s : State) (n : Nat) (v : Core) : (s.setCore n v).tried = s.tried := rfl
@[simp] theorem setCore_cur (s : State) (n : Nat) (v : Core) : (s.setCore n v).cur = s.cur := rfl
@[simp] theorem setCore_issue (s : State) (n : Nat) (v : Core) : (s.setCore n v).issue = s.issue := rfl
@[simp] theorem setCore_fresh (s : State) (n : Nat) (v : Core) : (s.setCore n v).fresh = s.fresh := rfl
@[simp] theorem setCore_serial (s : State) (n : Nat) (v : Core) : (s.setCore n v).serial = s.serial := rfl
@[simp] theorem setQuad_tick (s : State) (q : Nat) (v : Quad) : (s.setQuad q v).tick = s.tick := rfl
@[simp] theorem setQuad_mem (s : State) (q : Nat) (v : Quad) : (s.setQuad q v).mem = s.mem := rfl
@[simp] theorem setQuad_memBad (s : State) (q : Nat) (v : Quad) : (s.setQuad q v).memBad = s.memBad := rfl
@[simp] theorem setQuad_memSoft (s : State) (q : Nat) (v : Quad) : (s.setQuad q v).memSoft = s.memSoft := rfl
@[simp] theorem setQuad_wq (s : State) (q : Nat) (v : Quad) : (s.setQuad q v).wq = s.wq := rfl
@[simp] theorem setQuad_cache (s : State) (q : Nat) (v : Quad) : (s.setQuad q v).cache = s.cache := rfl
@[simp] theorem setQuad_ctxs (s : State) (q : Nat) (v : Quad) : (s.setQuad q v).ctxs = s.ctxs := rfl
@[simp] theorem setQuad_cores (s : State) (q : Nat) (v : Quad) : (s.setQuad q v).cores = s.cores := rfl
@[simp] theorem setQuad_towers (s : State) (q : Nat) (v : Quad) : (s.setQuad q v).towers = s.towers := rfl
@[simp] theorem setQuad_vfs (s : State) (q : Nat) (v : Quad) : (s.setQuad q v).vfs = s.vfs := rfl
@[simp] theorem setQuad_toks (s : State) (q : Nat) (v : Quad) : (s.setQuad q v).toks = s.toks := rfl
@[simp] theorem setQuad_bars (s : State) (q : Nat) (v : Quad) : (s.setQuad q v).bars = s.bars := rfl
@[simp] theorem setQuad_arms (s : State) (q : Nat) (v : Quad) : (s.setQuad q v).arms = s.arms := rfl
@[simp] theorem setQuad_droop (s : State) (q : Nat) (v : Quad) : (s.setQuad q v).droop = s.droop := rfl
@[simp] theorem setQuad_pctr (s : State) (q : Nat) (v : Quad) : (s.setQuad q v).pctr = s.pctr := rfl
@[simp] theorem setQuad_allocs (s : State) (q : Nat) (v : Quad) : (s.setQuad q v).allocs = s.allocs := rfl
@[simp] theorem setQuad_lostSw (s : State) (q : Nat) (v : Quad) : (s.setQuad q v).lostSw = s.lostSw := rfl
@[simp] theorem setQuad_deadPeers (s : State) (q : Nat) (v : Quad) : (s.setQuad q v).deadPeers = s.deadPeers := rfl
@[simp] theorem setQuad_dealer (s : State) (q : Nat) (v : Quad) : (s.setQuad q v).dealer = s.dealer := rfl
@[simp] theorem setQuad_agenda (s : State) (q : Nat) (v : Quad) : (s.setQuad q v).agenda = s.agenda := rfl
@[simp] theorem setQuad_volts (s : State) (q : Nat) (v : Quad) : (s.setQuad q v).volts = s.volts := rfl
@[simp] theorem setQuad_tried (s : State) (q : Nat) (v : Quad) : (s.setQuad q v).tried = s.tried := rfl
@[simp] theorem setQuad_cur (s : State) (q : Nat) (v : Quad) : (s.setQuad q v).cur = s.cur := rfl
@[simp] theorem setQuad_issue (s : State) (q : Nat) (v : Quad) : (s.setQuad q v).issue = s.issue := rfl
@[simp] theorem setQuad_fresh (s : State) (q : Nat) (v : Quad) : (s.setQuad q v).fresh = s.fresh := rfl
@[simp] theorem setQuad_serial (s : State) (q : Nat) (v : Quad) : (s.setQuad q v).serial = s.serial := rfl
@[simp] theorem setTower_tick (s : State) (t : Nat) (v : Tower) : (s.setTower t v).tick = s.tick := rfl
@[simp] theorem setTower_mem (s : State) (t : Nat) (v : Tower) : (s.setTower t v).mem = s.mem := rfl
@[simp] theorem setTower_memBad (s : State) (t : Nat) (v : Tower) : (s.setTower t v).memBad = s.memBad := rfl
@[simp] theorem setTower_memSoft (s : State) (t : Nat) (v : Tower) : (s.setTower t v).memSoft = s.memSoft := rfl
@[simp] theorem setTower_wq (s : State) (t : Nat) (v : Tower) : (s.setTower t v).wq = s.wq := rfl
@[simp] theorem setTower_cache (s : State) (t : Nat) (v : Tower) : (s.setTower t v).cache = s.cache := rfl
@[simp] theorem setTower_ctxs (s : State) (t : Nat) (v : Tower) : (s.setTower t v).ctxs = s.ctxs := rfl
@[simp] theorem setTower_cores (s : State) (t : Nat) (v : Tower) : (s.setTower t v).cores = s.cores := rfl
@[simp] theorem setTower_quads (s : State) (t : Nat) (v : Tower) : (s.setTower t v).quads = s.quads := rfl
@[simp] theorem setTower_vfs (s : State) (t : Nat) (v : Tower) : (s.setTower t v).vfs = s.vfs := rfl
@[simp] theorem setTower_toks (s : State) (t : Nat) (v : Tower) : (s.setTower t v).toks = s.toks := rfl
@[simp] theorem setTower_bars (s : State) (t : Nat) (v : Tower) : (s.setTower t v).bars = s.bars := rfl
@[simp] theorem setTower_arms (s : State) (t : Nat) (v : Tower) : (s.setTower t v).arms = s.arms := rfl
@[simp] theorem setTower_droop (s : State) (t : Nat) (v : Tower) : (s.setTower t v).droop = s.droop := rfl
@[simp] theorem setTower_pctr (s : State) (t : Nat) (v : Tower) : (s.setTower t v).pctr = s.pctr := rfl
@[simp] theorem setTower_allocs (s : State) (t : Nat) (v : Tower) : (s.setTower t v).allocs = s.allocs := rfl
@[simp] theorem setTower_lostSw (s : State) (t : Nat) (v : Tower) : (s.setTower t v).lostSw = s.lostSw := rfl
@[simp] theorem setTower_deadPeers (s : State) (t : Nat) (v : Tower) : (s.setTower t v).deadPeers = s.deadPeers := rfl
@[simp] theorem setTower_dealer (s : State) (t : Nat) (v : Tower) : (s.setTower t v).dealer = s.dealer := rfl
@[simp] theorem setTower_agenda (s : State) (t : Nat) (v : Tower) : (s.setTower t v).agenda = s.agenda := rfl
@[simp] theorem setTower_volts (s : State) (t : Nat) (v : Tower) : (s.setTower t v).volts = s.volts := rfl
@[simp] theorem setTower_tried (s : State) (t : Nat) (v : Tower) : (s.setTower t v).tried = s.tried := rfl
@[simp] theorem setTower_cur (s : State) (t : Nat) (v : Tower) : (s.setTower t v).cur = s.cur := rfl
@[simp] theorem setTower_issue (s : State) (t : Nat) (v : Tower) : (s.setTower t v).issue = s.issue := rfl
@[simp] theorem setTower_fresh (s : State) (t : Nat) (v : Tower) : (s.setTower t v).fresh = s.fresh := rfl
@[simp] theorem setTower_serial (s : State) (t : Nat) (v : Tower) : (s.setTower t v).serial = s.serial := rfl
@[simp] theorem setVf_tick (s : State) (n : Nat) (v : Vf) : (s.setVf n v).tick = s.tick := rfl
@[simp] theorem setVf_mem (s : State) (n : Nat) (v : Vf) : (s.setVf n v).mem = s.mem := rfl
@[simp] theorem setVf_memBad (s : State) (n : Nat) (v : Vf) : (s.setVf n v).memBad = s.memBad := rfl
@[simp] theorem setVf_memSoft (s : State) (n : Nat) (v : Vf) : (s.setVf n v).memSoft = s.memSoft := rfl
@[simp] theorem setVf_wq (s : State) (n : Nat) (v : Vf) : (s.setVf n v).wq = s.wq := rfl
@[simp] theorem setVf_cache (s : State) (n : Nat) (v : Vf) : (s.setVf n v).cache = s.cache := rfl
@[simp] theorem setVf_ctxs (s : State) (n : Nat) (v : Vf) : (s.setVf n v).ctxs = s.ctxs := rfl
@[simp] theorem setVf_cores (s : State) (n : Nat) (v : Vf) : (s.setVf n v).cores = s.cores := rfl
@[simp] theorem setVf_quads (s : State) (n : Nat) (v : Vf) : (s.setVf n v).quads = s.quads := rfl
@[simp] theorem setVf_towers (s : State) (n : Nat) (v : Vf) : (s.setVf n v).towers = s.towers := rfl
@[simp] theorem setVf_toks (s : State) (n : Nat) (v : Vf) : (s.setVf n v).toks = s.toks := rfl
@[simp] theorem setVf_bars (s : State) (n : Nat) (v : Vf) : (s.setVf n v).bars = s.bars := rfl
@[simp] theorem setVf_arms (s : State) (n : Nat) (v : Vf) : (s.setVf n v).arms = s.arms := rfl
@[simp] theorem setVf_droop (s : State) (n : Nat) (v : Vf) : (s.setVf n v).droop = s.droop := rfl
@[simp] theorem setVf_pctr (s : State) (n : Nat) (v : Vf) : (s.setVf n v).pctr = s.pctr := rfl
@[simp] theorem setVf_allocs (s : State) (n : Nat) (v : Vf) : (s.setVf n v).allocs = s.allocs := rfl
@[simp] theorem setVf_lostSw (s : State) (n : Nat) (v : Vf) : (s.setVf n v).lostSw = s.lostSw := rfl
@[simp] theorem setVf_deadPeers (s : State) (n : Nat) (v : Vf) : (s.setVf n v).deadPeers = s.deadPeers := rfl
@[simp] theorem setVf_dealer (s : State) (n : Nat) (v : Vf) : (s.setVf n v).dealer = s.dealer := rfl
@[simp] theorem setVf_agenda (s : State) (n : Nat) (v : Vf) : (s.setVf n v).agenda = s.agenda := rfl
@[simp] theorem setVf_volts (s : State) (n : Nat) (v : Vf) : (s.setVf n v).volts = s.volts := rfl
@[simp] theorem setVf_tried (s : State) (n : Nat) (v : Vf) : (s.setVf n v).tried = s.tried := rfl
@[simp] theorem setVf_cur (s : State) (n : Nat) (v : Vf) : (s.setVf n v).cur = s.cur := rfl
@[simp] theorem setVf_issue (s : State) (n : Nat) (v : Vf) : (s.setVf n v).issue = s.issue := rfl
@[simp] theorem setVf_fresh (s : State) (n : Nat) (v : Vf) : (s.setVf n v).fresh = s.fresh := rfl
@[simp] theorem setVf_serial (s : State) (n : Nat) (v : Vf) : (s.setVf n v).serial = s.serial := rfl
@[simp] theorem setBar_tick (s : State) (n : Nat) (b : BarTag) : (s.setBar n b).tick = s.tick := rfl
@[simp] theorem setBar_mem (s : State) (n : Nat) (b : BarTag) : (s.setBar n b).mem = s.mem := rfl
@[simp] theorem setBar_memBad (s : State) (n : Nat) (b : BarTag) : (s.setBar n b).memBad = s.memBad := rfl
@[simp] theorem setBar_memSoft (s : State) (n : Nat) (b : BarTag) : (s.setBar n b).memSoft = s.memSoft := rfl
@[simp] theorem setBar_wq (s : State) (n : Nat) (b : BarTag) : (s.setBar n b).wq = s.wq := rfl
@[simp] theorem setBar_cache (s : State) (n : Nat) (b : BarTag) : (s.setBar n b).cache = s.cache := rfl
@[simp] theorem setBar_ctxs (s : State) (n : Nat) (b : BarTag) : (s.setBar n b).ctxs = s.ctxs := rfl
@[simp] theorem setBar_cores (s : State) (n : Nat) (b : BarTag) : (s.setBar n b).cores = s.cores := rfl
@[simp] theorem setBar_quads (s : State) (n : Nat) (b : BarTag) : (s.setBar n b).quads = s.quads := rfl
@[simp] theorem setBar_towers (s : State) (n : Nat) (b : BarTag) : (s.setBar n b).towers = s.towers := rfl
@[simp] theorem setBar_vfs (s : State) (n : Nat) (b : BarTag) : (s.setBar n b).vfs = s.vfs := rfl
@[simp] theorem setBar_toks (s : State) (n : Nat) (b : BarTag) : (s.setBar n b).toks = s.toks := rfl
@[simp] theorem setBar_arms (s : State) (n : Nat) (b : BarTag) : (s.setBar n b).arms = s.arms := rfl
@[simp] theorem setBar_droop (s : State) (n : Nat) (b : BarTag) : (s.setBar n b).droop = s.droop := rfl
@[simp] theorem setBar_pctr (s : State) (n : Nat) (b : BarTag) : (s.setBar n b).pctr = s.pctr := rfl
@[simp] theorem setBar_allocs (s : State) (n : Nat) (b : BarTag) : (s.setBar n b).allocs = s.allocs := rfl
@[simp] theorem setBar_lostSw (s : State) (n : Nat) (b : BarTag) : (s.setBar n b).lostSw = s.lostSw := rfl
@[simp] theorem setBar_deadPeers (s : State) (n : Nat) (b : BarTag) : (s.setBar n b).deadPeers = s.deadPeers := rfl
@[simp] theorem setBar_dealer (s : State) (n : Nat) (b : BarTag) : (s.setBar n b).dealer = s.dealer := rfl
@[simp] theorem setBar_agenda (s : State) (n : Nat) (b : BarTag) : (s.setBar n b).agenda = s.agenda := rfl
@[simp] theorem setBar_volts (s : State) (n : Nat) (b : BarTag) : (s.setBar n b).volts = s.volts := rfl
@[simp] theorem setBar_tried (s : State) (n : Nat) (b : BarTag) : (s.setBar n b).tried = s.tried := rfl
@[simp] theorem setBar_cur (s : State) (n : Nat) (b : BarTag) : (s.setBar n b).cur = s.cur := rfl
@[simp] theorem setBar_issue (s : State) (n : Nat) (b : BarTag) : (s.setBar n b).issue = s.issue := rfl
@[simp] theorem setBar_fresh (s : State) (n : Nat) (b : BarTag) : (s.setBar n b).fresh = s.fresh := rfl
@[simp] theorem setBar_serial (s : State) (n : Nat) (b : BarTag) : (s.setBar n b).serial = s.serial := rfl
@[simp] theorem setArm_tick (s : State) (u : Nat) (a : Arm) : (s.setArm u a).tick = s.tick := rfl
@[simp] theorem setArm_mem (s : State) (u : Nat) (a : Arm) : (s.setArm u a).mem = s.mem := rfl
@[simp] theorem setArm_memBad (s : State) (u : Nat) (a : Arm) : (s.setArm u a).memBad = s.memBad := rfl
@[simp] theorem setArm_memSoft (s : State) (u : Nat) (a : Arm) : (s.setArm u a).memSoft = s.memSoft := rfl
@[simp] theorem setArm_wq (s : State) (u : Nat) (a : Arm) : (s.setArm u a).wq = s.wq := rfl
@[simp] theorem setArm_cache (s : State) (u : Nat) (a : Arm) : (s.setArm u a).cache = s.cache := rfl
@[simp] theorem setArm_ctxs (s : State) (u : Nat) (a : Arm) : (s.setArm u a).ctxs = s.ctxs := rfl
@[simp] theorem setArm_cores (s : State) (u : Nat) (a : Arm) : (s.setArm u a).cores = s.cores := rfl
@[simp] theorem setArm_quads (s : State) (u : Nat) (a : Arm) : (s.setArm u a).quads = s.quads := rfl
@[simp] theorem setArm_towers (s : State) (u : Nat) (a : Arm) : (s.setArm u a).towers = s.towers := rfl
@[simp] theorem setArm_vfs (s : State) (u : Nat) (a : Arm) : (s.setArm u a).vfs = s.vfs := rfl
@[simp] theorem setArm_toks (s : State) (u : Nat) (a : Arm) : (s.setArm u a).toks = s.toks := rfl
@[simp] theorem setArm_bars (s : State) (u : Nat) (a : Arm) : (s.setArm u a).bars = s.bars := rfl
@[simp] theorem setArm_droop (s : State) (u : Nat) (a : Arm) : (s.setArm u a).droop = s.droop := rfl
@[simp] theorem setArm_pctr (s : State) (u : Nat) (a : Arm) : (s.setArm u a).pctr = s.pctr := rfl
@[simp] theorem setArm_allocs (s : State) (u : Nat) (a : Arm) : (s.setArm u a).allocs = s.allocs := rfl
@[simp] theorem setArm_lostSw (s : State) (u : Nat) (a : Arm) : (s.setArm u a).lostSw = s.lostSw := rfl
@[simp] theorem setArm_deadPeers (s : State) (u : Nat) (a : Arm) : (s.setArm u a).deadPeers = s.deadPeers := rfl
@[simp] theorem setArm_dealer (s : State) (u : Nat) (a : Arm) : (s.setArm u a).dealer = s.dealer := rfl
@[simp] theorem setArm_agenda (s : State) (u : Nat) (a : Arm) : (s.setArm u a).agenda = s.agenda := rfl
@[simp] theorem setArm_volts (s : State) (u : Nat) (a : Arm) : (s.setArm u a).volts = s.volts := rfl
@[simp] theorem setArm_tried (s : State) (u : Nat) (a : Arm) : (s.setArm u a).tried = s.tried := rfl
@[simp] theorem setArm_cur (s : State) (u : Nat) (a : Arm) : (s.setArm u a).cur = s.cur := rfl
@[simp] theorem setArm_issue (s : State) (u : Nat) (a : Arm) : (s.setArm u a).issue = s.issue := rfl
@[simp] theorem setArm_fresh (s : State) (u : Nat) (a : Arm) : (s.setArm u a).fresh = s.fresh := rfl
@[simp] theorem setArm_serial (s : State) (u : Nat) (a : Arm) : (s.setArm u a).serial = s.serial := rfl
@[simp] theorem modCtx_tick (s : State) (g : Nat) (f : Ctx → Ctx) : (s.modCtx g f).tick = s.tick := rfl
@[simp] theorem modCtx_mem (s : State) (g : Nat) (f : Ctx → Ctx) : (s.modCtx g f).mem = s.mem := rfl
@[simp] theorem modCtx_memBad (s : State) (g : Nat) (f : Ctx → Ctx) : (s.modCtx g f).memBad = s.memBad := rfl
@[simp] theorem modCtx_memSoft (s : State) (g : Nat) (f : Ctx → Ctx) : (s.modCtx g f).memSoft = s.memSoft := rfl
@[simp] theorem modCtx_wq (s : State) (g : Nat) (f : Ctx → Ctx) : (s.modCtx g f).wq = s.wq := rfl
@[simp] theorem modCtx_cache (s : State) (g : Nat) (f : Ctx → Ctx) : (s.modCtx g f).cache = s.cache := rfl
@[simp] theorem modCtx_cores (s : State) (g : Nat) (f : Ctx → Ctx) : (s.modCtx g f).cores = s.cores := rfl
@[simp] theorem modCtx_quads (s : State) (g : Nat) (f : Ctx → Ctx) : (s.modCtx g f).quads = s.quads := rfl
@[simp] theorem modCtx_towers (s : State) (g : Nat) (f : Ctx → Ctx) : (s.modCtx g f).towers = s.towers := rfl
@[simp] theorem modCtx_vfs (s : State) (g : Nat) (f : Ctx → Ctx) : (s.modCtx g f).vfs = s.vfs := rfl
@[simp] theorem modCtx_toks (s : State) (g : Nat) (f : Ctx → Ctx) : (s.modCtx g f).toks = s.toks := rfl
@[simp] theorem modCtx_bars (s : State) (g : Nat) (f : Ctx → Ctx) : (s.modCtx g f).bars = s.bars := rfl
@[simp] theorem modCtx_arms (s : State) (g : Nat) (f : Ctx → Ctx) : (s.modCtx g f).arms = s.arms := rfl
@[simp] theorem modCtx_droop (s : State) (g : Nat) (f : Ctx → Ctx) : (s.modCtx g f).droop = s.droop := rfl
@[simp] theorem modCtx_pctr (s : State) (g : Nat) (f : Ctx → Ctx) : (s.modCtx g f).pctr = s.pctr := rfl
@[simp] theorem modCtx_allocs (s : State) (g : Nat) (f : Ctx → Ctx) : (s.modCtx g f).allocs = s.allocs := rfl
@[simp] theorem modCtx_lostSw (s : State) (g : Nat) (f : Ctx → Ctx) : (s.modCtx g f).lostSw = s.lostSw := rfl
@[simp] theorem modCtx_deadPeers (s : State) (g : Nat) (f : Ctx → Ctx) : (s.modCtx g f).deadPeers = s.deadPeers := rfl
@[simp] theorem modCtx_dealer (s : State) (g : Nat) (f : Ctx → Ctx) : (s.modCtx g f).dealer = s.dealer := rfl
@[simp] theorem modCtx_agenda (s : State) (g : Nat) (f : Ctx → Ctx) : (s.modCtx g f).agenda = s.agenda := rfl
@[simp] theorem modCtx_volts (s : State) (g : Nat) (f : Ctx → Ctx) : (s.modCtx g f).volts = s.volts := rfl
@[simp] theorem modCtx_tried (s : State) (g : Nat) (f : Ctx → Ctx) : (s.modCtx g f).tried = s.tried := rfl
@[simp] theorem modCtx_cur (s : State) (g : Nat) (f : Ctx → Ctx) : (s.modCtx g f).cur = s.cur := rfl
@[simp] theorem modCtx_issue (s : State) (g : Nat) (f : Ctx → Ctx) : (s.modCtx g f).issue = s.issue := rfl
@[simp] theorem modCtx_fresh (s : State) (g : Nat) (f : Ctx → Ctx) : (s.modCtx g f).fresh = s.fresh := rfl
@[simp] theorem modCtx_serial (s : State) (g : Nat) (f : Ctx → Ctx) : (s.modCtx g f).serial = s.serial := rfl
@[simp] theorem modCore_tick (s : State) (n : Nat) (f : Core → Core) : (s.modCore n f).tick = s.tick := rfl
@[simp] theorem modCore_mem (s : State) (n : Nat) (f : Core → Core) : (s.modCore n f).mem = s.mem := rfl
@[simp] theorem modCore_memBad (s : State) (n : Nat) (f : Core → Core) : (s.modCore n f).memBad = s.memBad := rfl
@[simp] theorem modCore_memSoft (s : State) (n : Nat) (f : Core → Core) : (s.modCore n f).memSoft = s.memSoft := rfl
@[simp] theorem modCore_wq (s : State) (n : Nat) (f : Core → Core) : (s.modCore n f).wq = s.wq := rfl
@[simp] theorem modCore_cache (s : State) (n : Nat) (f : Core → Core) : (s.modCore n f).cache = s.cache := rfl
@[simp] theorem modCore_ctxs (s : State) (n : Nat) (f : Core → Core) : (s.modCore n f).ctxs = s.ctxs := rfl
@[simp] theorem modCore_quads (s : State) (n : Nat) (f : Core → Core) : (s.modCore n f).quads = s.quads := rfl
@[simp] theorem modCore_towers (s : State) (n : Nat) (f : Core → Core) : (s.modCore n f).towers = s.towers := rfl
@[simp] theorem modCore_vfs (s : State) (n : Nat) (f : Core → Core) : (s.modCore n f).vfs = s.vfs := rfl
@[simp] theorem modCore_toks (s : State) (n : Nat) (f : Core → Core) : (s.modCore n f).toks = s.toks := rfl
@[simp] theorem modCore_bars (s : State) (n : Nat) (f : Core → Core) : (s.modCore n f).bars = s.bars := rfl
@[simp] theorem modCore_arms (s : State) (n : Nat) (f : Core → Core) : (s.modCore n f).arms = s.arms := rfl
@[simp] theorem modCore_droop (s : State) (n : Nat) (f : Core → Core) : (s.modCore n f).droop = s.droop := rfl
@[simp] theorem modCore_pctr (s : State) (n : Nat) (f : Core → Core) : (s.modCore n f).pctr = s.pctr := rfl
@[simp] theorem modCore_allocs (s : State) (n : Nat) (f : Core → Core) : (s.modCore n f).allocs = s.allocs := rfl
@[simp] theorem modCore_lostSw (s : State) (n : Nat) (f : Core → Core) : (s.modCore n f).lostSw = s.lostSw := rfl
@[simp] theorem modCore_deadPeers (s : State) (n : Nat) (f : Core → Core) : (s.modCore n f).deadPeers = s.deadPeers := rfl
@[simp] theorem modCore_dealer (s : State) (n : Nat) (f : Core → Core) : (s.modCore n f).dealer = s.dealer := rfl
@[simp] theorem modCore_agenda (s : State) (n : Nat) (f : Core → Core) : (s.modCore n f).agenda = s.agenda := rfl
@[simp] theorem modCore_volts (s : State) (n : Nat) (f : Core → Core) : (s.modCore n f).volts = s.volts := rfl
@[simp] theorem modCore_tried (s : State) (n : Nat) (f : Core → Core) : (s.modCore n f).tried = s.tried := rfl
@[simp] theorem modCore_cur (s : State) (n : Nat) (f : Core → Core) : (s.modCore n f).cur = s.cur := rfl
@[simp] theorem modCore_issue (s : State) (n : Nat) (f : Core → Core) : (s.modCore n f).issue = s.issue := rfl
@[simp] theorem modCore_fresh (s : State) (n : Nat) (f : Core → Core) : (s.modCore n f).fresh = s.fresh := rfl
@[simp] theorem modCore_serial (s : State) (n : Nat) (f : Core → Core) : (s.modCore n f).serial = s.serial := rfl
@[simp] theorem modQuad_tick (s : State) (q : Nat) (f : Quad → Quad) : (s.modQuad q f).tick = s.tick := rfl
@[simp] theorem modQuad_mem (s : State) (q : Nat) (f : Quad → Quad) : (s.modQuad q f).mem = s.mem := rfl
@[simp] theorem modQuad_memBad (s : State) (q : Nat) (f : Quad → Quad) : (s.modQuad q f).memBad = s.memBad := rfl
@[simp] theorem modQuad_memSoft (s : State) (q : Nat) (f : Quad → Quad) : (s.modQuad q f).memSoft = s.memSoft := rfl
@[simp] theorem modQuad_wq (s : State) (q : Nat) (f : Quad → Quad) : (s.modQuad q f).wq = s.wq := rfl
@[simp] theorem modQuad_cache (s : State) (q : Nat) (f : Quad → Quad) : (s.modQuad q f).cache = s.cache := rfl
@[simp] theorem modQuad_ctxs (s : State) (q : Nat) (f : Quad → Quad) : (s.modQuad q f).ctxs = s.ctxs := rfl
@[simp] theorem modQuad_cores (s : State) (q : Nat) (f : Quad → Quad) : (s.modQuad q f).cores = s.cores := rfl
@[simp] theorem modQuad_towers (s : State) (q : Nat) (f : Quad → Quad) : (s.modQuad q f).towers = s.towers := rfl
@[simp] theorem modQuad_vfs (s : State) (q : Nat) (f : Quad → Quad) : (s.modQuad q f).vfs = s.vfs := rfl
@[simp] theorem modQuad_toks (s : State) (q : Nat) (f : Quad → Quad) : (s.modQuad q f).toks = s.toks := rfl
@[simp] theorem modQuad_bars (s : State) (q : Nat) (f : Quad → Quad) : (s.modQuad q f).bars = s.bars := rfl
@[simp] theorem modQuad_arms (s : State) (q : Nat) (f : Quad → Quad) : (s.modQuad q f).arms = s.arms := rfl
@[simp] theorem modQuad_droop (s : State) (q : Nat) (f : Quad → Quad) : (s.modQuad q f).droop = s.droop := rfl
@[simp] theorem modQuad_pctr (s : State) (q : Nat) (f : Quad → Quad) : (s.modQuad q f).pctr = s.pctr := rfl
@[simp] theorem modQuad_allocs (s : State) (q : Nat) (f : Quad → Quad) : (s.modQuad q f).allocs = s.allocs := rfl
@[simp] theorem modQuad_lostSw (s : State) (q : Nat) (f : Quad → Quad) : (s.modQuad q f).lostSw = s.lostSw := rfl
@[simp] theorem modQuad_deadPeers (s : State) (q : Nat) (f : Quad → Quad) : (s.modQuad q f).deadPeers = s.deadPeers := rfl
@[simp] theorem modQuad_dealer (s : State) (q : Nat) (f : Quad → Quad) : (s.modQuad q f).dealer = s.dealer := rfl
@[simp] theorem modQuad_agenda (s : State) (q : Nat) (f : Quad → Quad) : (s.modQuad q f).agenda = s.agenda := rfl
@[simp] theorem modQuad_volts (s : State) (q : Nat) (f : Quad → Quad) : (s.modQuad q f).volts = s.volts := rfl
@[simp] theorem modQuad_tried (s : State) (q : Nat) (f : Quad → Quad) : (s.modQuad q f).tried = s.tried := rfl
@[simp] theorem modQuad_cur (s : State) (q : Nat) (f : Quad → Quad) : (s.modQuad q f).cur = s.cur := rfl
@[simp] theorem modQuad_issue (s : State) (q : Nat) (f : Quad → Quad) : (s.modQuad q f).issue = s.issue := rfl
@[simp] theorem modQuad_fresh (s : State) (q : Nat) (f : Quad → Quad) : (s.modQuad q f).fresh = s.fresh := rfl
@[simp] theorem modQuad_serial (s : State) (q : Nat) (f : Quad → Quad) : (s.modQuad q f).serial = s.serial := rfl
@[simp] theorem modTower_tick (s : State) (t : Nat) (f : Tower → Tower) : (s.modTower t f).tick = s.tick := rfl
@[simp] theorem modTower_mem (s : State) (t : Nat) (f : Tower → Tower) : (s.modTower t f).mem = s.mem := rfl
@[simp] theorem modTower_memBad (s : State) (t : Nat) (f : Tower → Tower) : (s.modTower t f).memBad = s.memBad := rfl
@[simp] theorem modTower_memSoft (s : State) (t : Nat) (f : Tower → Tower) : (s.modTower t f).memSoft = s.memSoft := rfl
@[simp] theorem modTower_wq (s : State) (t : Nat) (f : Tower → Tower) : (s.modTower t f).wq = s.wq := rfl
@[simp] theorem modTower_cache (s : State) (t : Nat) (f : Tower → Tower) : (s.modTower t f).cache = s.cache := rfl
@[simp] theorem modTower_ctxs (s : State) (t : Nat) (f : Tower → Tower) : (s.modTower t f).ctxs = s.ctxs := rfl
@[simp] theorem modTower_cores (s : State) (t : Nat) (f : Tower → Tower) : (s.modTower t f).cores = s.cores := rfl
@[simp] theorem modTower_quads (s : State) (t : Nat) (f : Tower → Tower) : (s.modTower t f).quads = s.quads := rfl
@[simp] theorem modTower_vfs (s : State) (t : Nat) (f : Tower → Tower) : (s.modTower t f).vfs = s.vfs := rfl
@[simp] theorem modTower_toks (s : State) (t : Nat) (f : Tower → Tower) : (s.modTower t f).toks = s.toks := rfl
@[simp] theorem modTower_bars (s : State) (t : Nat) (f : Tower → Tower) : (s.modTower t f).bars = s.bars := rfl
@[simp] theorem modTower_arms (s : State) (t : Nat) (f : Tower → Tower) : (s.modTower t f).arms = s.arms := rfl
@[simp] theorem modTower_droop (s : State) (t : Nat) (f : Tower → Tower) : (s.modTower t f).droop = s.droop := rfl
@[simp] theorem modTower_pctr (s : State) (t : Nat) (f : Tower → Tower) : (s.modTower t f).pctr = s.pctr := rfl
@[simp] theorem modTower_allocs (s : State) (t : Nat) (f : Tower → Tower) : (s.modTower t f).allocs = s.allocs := rfl
@[simp] theorem modTower_lostSw (s : State) (t : Nat) (f : Tower → Tower) : (s.modTower t f).lostSw = s.lostSw := rfl
@[simp] theorem modTower_deadPeers (s : State) (t : Nat) (f : Tower → Tower) : (s.modTower t f).deadPeers = s.deadPeers := rfl
@[simp] theorem modTower_dealer (s : State) (t : Nat) (f : Tower → Tower) : (s.modTower t f).dealer = s.dealer := rfl
@[simp] theorem modTower_agenda (s : State) (t : Nat) (f : Tower → Tower) : (s.modTower t f).agenda = s.agenda := rfl
@[simp] theorem modTower_volts (s : State) (t : Nat) (f : Tower → Tower) : (s.modTower t f).volts = s.volts := rfl
@[simp] theorem modTower_tried (s : State) (t : Nat) (f : Tower → Tower) : (s.modTower t f).tried = s.tried := rfl
@[simp] theorem modTower_cur (s : State) (t : Nat) (f : Tower → Tower) : (s.modTower t f).cur = s.cur := rfl
@[simp] theorem modTower_issue (s : State) (t : Nat) (f : Tower → Tower) : (s.modTower t f).issue = s.issue := rfl
@[simp] theorem modTower_fresh (s : State) (t : Nat) (f : Tower → Tower) : (s.modTower t f).fresh = s.fresh := rfl
@[simp] theorem modTower_serial (s : State) (t : Nat) (f : Tower → Tower) : (s.modTower t f).serial = s.serial := rfl
@[simp] theorem modVf_tick (s : State) (n : Nat) (f : Vf → Vf) : (s.modVf n f).tick = s.tick := rfl
@[simp] theorem modVf_mem (s : State) (n : Nat) (f : Vf → Vf) : (s.modVf n f).mem = s.mem := rfl
@[simp] theorem modVf_memBad (s : State) (n : Nat) (f : Vf → Vf) : (s.modVf n f).memBad = s.memBad := rfl
@[simp] theorem modVf_memSoft (s : State) (n : Nat) (f : Vf → Vf) : (s.modVf n f).memSoft = s.memSoft := rfl
@[simp] theorem modVf_wq (s : State) (n : Nat) (f : Vf → Vf) : (s.modVf n f).wq = s.wq := rfl
@[simp] theorem modVf_cache (s : State) (n : Nat) (f : Vf → Vf) : (s.modVf n f).cache = s.cache := rfl
@[simp] theorem modVf_ctxs (s : State) (n : Nat) (f : Vf → Vf) : (s.modVf n f).ctxs = s.ctxs := rfl
@[simp] theorem modVf_cores (s : State) (n : Nat) (f : Vf → Vf) : (s.modVf n f).cores = s.cores := rfl
@[simp] theorem modVf_quads (s : State) (n : Nat) (f : Vf → Vf) : (s.modVf n f).quads = s.quads := rfl
@[simp] theorem modVf_towers (s : State) (n : Nat) (f : Vf → Vf) : (s.modVf n f).towers = s.towers := rfl
@[simp] theorem modVf_toks (s : State) (n : Nat) (f : Vf → Vf) : (s.modVf n f).toks = s.toks := rfl
@[simp] theorem modVf_bars (s : State) (n : Nat) (f : Vf → Vf) : (s.modVf n f).bars = s.bars := rfl
@[simp] theorem modVf_arms (s : State) (n : Nat) (f : Vf → Vf) : (s.modVf n f).arms = s.arms := rfl
@[simp] theorem modVf_droop (s : State) (n : Nat) (f : Vf → Vf) : (s.modVf n f).droop = s.droop := rfl
@[simp] theorem modVf_pctr (s : State) (n : Nat) (f : Vf → Vf) : (s.modVf n f).pctr = s.pctr := rfl
@[simp] theorem modVf_allocs (s : State) (n : Nat) (f : Vf → Vf) : (s.modVf n f).allocs = s.allocs := rfl
@[simp] theorem modVf_lostSw (s : State) (n : Nat) (f : Vf → Vf) : (s.modVf n f).lostSw = s.lostSw := rfl
@[simp] theorem modVf_deadPeers (s : State) (n : Nat) (f : Vf → Vf) : (s.modVf n f).deadPeers = s.deadPeers := rfl
@[simp] theorem modVf_dealer (s : State) (n : Nat) (f : Vf → Vf) : (s.modVf n f).dealer = s.dealer := rfl
@[simp] theorem modVf_agenda (s : State) (n : Nat) (f : Vf → Vf) : (s.modVf n f).agenda = s.agenda := rfl
@[simp] theorem modVf_volts (s : State) (n : Nat) (f : Vf → Vf) : (s.modVf n f).volts = s.volts := rfl
@[simp] theorem modVf_tried (s : State) (n : Nat) (f : Vf → Vf) : (s.modVf n f).tried = s.tried := rfl
@[simp] theorem modVf_cur (s : State) (n : Nat) (f : Vf → Vf) : (s.modVf n f).cur = s.cur := rfl
@[simp] theorem modVf_issue (s : State) (n : Nat) (f : Vf → Vf) : (s.modVf n f).issue = s.issue := rfl
@[simp] theorem modVf_fresh (s : State) (n : Nat) (f : Vf → Vf) : (s.modVf n f).fresh = s.fresh := rfl
@[simp] theorem modVf_serial (s : State) (n : Nat) (f : Vf → Vf) : (s.modVf n f).serial = s.serial := rfl
@[simp] theorem modDealer_tick (s : State) (f : Dealer → Dealer) : (s.modDealer f).tick = s.tick := rfl
@[simp] theorem modDealer_mem (s : State) (f : Dealer → Dealer) : (s.modDealer f).mem = s.mem := rfl
@[simp] theorem modDealer_memBad (s : State) (f : Dealer → Dealer) : (s.modDealer f).memBad = s.memBad := rfl
@[simp] theorem modDealer_memSoft (s : State) (f : Dealer → Dealer) : (s.modDealer f).memSoft = s.memSoft := rfl
@[simp] theorem modDealer_wq (s : State) (f : Dealer → Dealer) : (s.modDealer f).wq = s.wq := rfl
@[simp] theorem modDealer_cache (s : State) (f : Dealer → Dealer) : (s.modDealer f).cache = s.cache := rfl
@[simp] theorem modDealer_ctxs (s : State) (f : Dealer → Dealer) : (s.modDealer f).ctxs = s.ctxs := rfl
@[simp] theorem modDealer_cores (s : State) (f : Dealer → Dealer) : (s.modDealer f).cores = s.cores := rfl
@[simp] theorem modDealer_quads (s : State) (f : Dealer → Dealer) : (s.modDealer f).quads = s.quads := rfl
@[simp] theorem modDealer_towers (s : State) (f : Dealer → Dealer) : (s.modDealer f).towers = s.towers := rfl
@[simp] theorem modDealer_vfs (s : State) (f : Dealer → Dealer) : (s.modDealer f).vfs = s.vfs := rfl
@[simp] theorem modDealer_toks (s : State) (f : Dealer → Dealer) : (s.modDealer f).toks = s.toks := rfl
@[simp] theorem modDealer_bars (s : State) (f : Dealer → Dealer) : (s.modDealer f).bars = s.bars := rfl
@[simp] theorem modDealer_arms (s : State) (f : Dealer → Dealer) : (s.modDealer f).arms = s.arms := rfl
@[simp] theorem modDealer_droop (s : State) (f : Dealer → Dealer) : (s.modDealer f).droop = s.droop := rfl
@[simp] theorem modDealer_pctr (s : State) (f : Dealer → Dealer) : (s.modDealer f).pctr = s.pctr := rfl
@[simp] theorem modDealer_allocs (s : State) (f : Dealer → Dealer) : (s.modDealer f).allocs = s.allocs := rfl
@[simp] theorem modDealer_lostSw (s : State) (f : Dealer → Dealer) : (s.modDealer f).lostSw = s.lostSw := rfl
@[simp] theorem modDealer_deadPeers (s : State) (f : Dealer → Dealer) : (s.modDealer f).deadPeers = s.deadPeers := rfl
@[simp] theorem modDealer_agenda (s : State) (f : Dealer → Dealer) : (s.modDealer f).agenda = s.agenda := rfl
@[simp] theorem modDealer_volts (s : State) (f : Dealer → Dealer) : (s.modDealer f).volts = s.volts := rfl
@[simp] theorem modDealer_tried (s : State) (f : Dealer → Dealer) : (s.modDealer f).tried = s.tried := rfl
@[simp] theorem modDealer_cur (s : State) (f : Dealer → Dealer) : (s.modDealer f).cur = s.cur := rfl
@[simp] theorem modDealer_issue (s : State) (f : Dealer → Dealer) : (s.modDealer f).issue = s.issue := rfl
@[simp] theorem modDealer_fresh (s : State) (f : Dealer → Dealer) : (s.modDealer f).fresh = s.fresh := rfl
@[simp] theorem modDealer_serial (s : State) (f : Dealer → Dealer) : (s.modDealer f).serial = s.serial := rfl

/-! ### Tables read through an update -/

theorem ctx_setCtx_ne (s : State) (k j : Nat) (v : Ctx) (h : j ≠ k) : (s.setCtx k v).ctx j = s.ctx j := tget_tset_ne _ _ _ _ _ h
@[simp] theorem ctx_setCtx_self (s : State) (k : Nat) (v : Ctx) : (s.setCtx k v).ctx k = v := tget_tset_self _ _ _ _
theorem core_setCore_ne (s : State) (k j : Nat) (v : Core) (h : j ≠ k) : (s.setCore k v).core' j = s.core' j := tget_tset_ne _ _ _ _ _ h
@[simp] theorem core_setCore_self (s : State) (k : Nat) (v : Core) : (s.setCore k v).core' k = v := tget_tset_self _ _ _ _
theorem quad_setQuad_ne (s : State) (k j : Nat) (v : Quad) (h : j ≠ k) : (s.setQuad k v).quad j = s.quad j := tget_tset_ne _ _ _ _ _ h
@[simp] theorem quad_setQuad_self (s : State) (k : Nat) (v : Quad) : (s.setQuad k v).quad k = v := tget_tset_self _ _ _ _
theorem tower_setTower_ne (s : State) (k j : Nat) (v : Tower) (h : j ≠ k) : (s.setTower k v).tower j = s.tower j := tget_tset_ne _ _ _ _ _ h
@[simp] theorem tower_setTower_self (s : State) (k : Nat) (v : Tower) : (s.setTower k v).tower k = v := tget_tset_self _ _ _ _
theorem vf_setVf_ne (s : State) (k j : Nat) (v : Vf) (h : j ≠ k) : (s.setVf k v).vf j = s.vf j := tget_tset_ne _ _ _ _ _ h
@[simp] theorem vf_setVf_self (s : State) (k : Nat) (v : Vf) : (s.setVf k v).vf k = v := tget_tset_self _ _ _ _
theorem bar_setBar_ne (s : State) (k j : Nat) (v : BarTag) (h : j ≠ k) : (s.setBar k v).bar j = s.bar j := tget_tset_ne _ _ _ _ _ h
@[simp] theorem bar_setBar_self (s : State) (k : Nat) (v : BarTag) : (s.setBar k v).bar k = v := tget_tset_self _ _ _ _
theorem arm_setArm_ne (s : State) (k j : Nat) (v : Arm) (h : j ≠ k) : (s.setArm k v).arm j = s.arm j := tget_tset_ne _ _ _ _ _ h
@[simp] theorem arm_setArm_self (s : State) (k : Nat) (v : Arm) : (s.setArm k v).arm k = v := tget_tset_self _ _ _ _

/-! ### Accessors that an update of another part leaves -/

@[simp] theorem core_setCtx (s : State) (g : Nat) (c : Ctx) (h : Nat) : (s.setCtx g c).core' h = s.core' h := rfl
@[simp] theorem quad_setCtx (s : State) (g : Nat) (c : Ctx) (h : Nat) : (s.setCtx g c).quad h = s.quad h := rfl
@[simp] theorem tower_setCtx (s : State) (g : Nat) (c : Ctx) (h : Nat) : (s.setCtx g c).tower h = s.tower h := rfl
@[simp] theorem vf_setCtx (s : State) (g : Nat) (c : Ctx) (h : Nat) : (s.setCtx g c).vf h = s.vf h := rfl
@[simp] theorem bar_setCtx (s : State) (g : Nat) (c : Ctx) (h : Nat) : (s.setCtx g c).bar h = s.bar h := rfl
@[simp] theorem arm_setCtx (s : State) (g : Nat) (c : Ctx) (h : Nat) : (s.setCtx g c).arm h = s.arm h := rfl
@[simp] theorem ctx_setCore (s : State) (n : Nat) (v : Core) (h : Nat) : (s.setCore n v).ctx h = s.ctx h := rfl
@[simp] theorem quad_setCore (s : State) (n : Nat) (v : Core) (h : Nat) : (s.setCore n v).quad h = s.quad h := rfl
@[simp] theorem tower_setCore (s : State) (n : Nat) (v : Core) (h : Nat) : (s.setCore n v).tower h = s.tower h := rfl
@[simp] theorem vf_setCore (s : State) (n : Nat) (v : Core) (h : Nat) : (s.setCore n v).vf h = s.vf h := rfl
@[simp] theorem bar_setCore (s : State) (n : Nat) (v : Core) (h : Nat) : (s.setCore n v).bar h = s.bar h := rfl
@[simp] theorem arm_setCore (s : State) (n : Nat) (v : Core) (h : Nat) : (s.setCore n v).arm h = s.arm h := rfl
@[simp] theorem me_setCore (s : State) (n : Nat) (v : Core) : (s.setCore n v).me = s.me := rfl
@[simp] theorem ctx_setQuad (s : State) (q : Nat) (v : Quad) (h : Nat) : (s.setQuad q v).ctx h = s.ctx h := rfl
@[simp] theorem core_setQuad (s : State) (q : Nat) (v : Quad) (h : Nat) : (s.setQuad q v).core' h = s.core' h := rfl
@[simp] theorem tower_setQuad (s : State) (q : Nat) (v : Quad) (h : Nat) : (s.setQuad q v).tower h = s.tower h := rfl
@[simp] theorem vf_setQuad (s : State) (q : Nat) (v : Quad) (h : Nat) : (s.setQuad q v).vf h = s.vf h := rfl
@[simp] theorem bar_setQuad (s : State) (q : Nat) (v : Quad) (h : Nat) : (s.setQuad q v).bar h = s.bar h := rfl
@[simp] theorem arm_setQuad (s : State) (q : Nat) (v : Quad) (h : Nat) : (s.setQuad q v).arm h = s.arm h := rfl
@[simp] theorem me_setQuad (s : State) (q : Nat) (v : Quad) : (s.setQuad q v).me = s.me := rfl
@[simp] theorem ctx_setTower (s : State) (t : Nat) (v : Tower) (h : Nat) : (s.setTower t v).ctx h = s.ctx h := rfl
@[simp] theorem core_setTower (s : State) (t : Nat) (v : Tower) (h : Nat) : (s.setTower t v).core' h = s.core' h := rfl
@[simp] theorem quad_setTower (s : State) (t : Nat) (v : Tower) (h : Nat) : (s.setTower t v).quad h = s.quad h := rfl
@[simp] theorem vf_setTower (s : State) (t : Nat) (v : Tower) (h : Nat) : (s.setTower t v).vf h = s.vf h := rfl
@[simp] theorem bar_setTower (s : State) (t : Nat) (v : Tower) (h : Nat) : (s.setTower t v).bar h = s.bar h := rfl
@[simp] theorem arm_setTower (s : State) (t : Nat) (v : Tower) (h : Nat) : (s.setTower t v).arm h = s.arm h := rfl
@[simp] theorem me_setTower (s : State) (t : Nat) (v : Tower) : (s.setTower t v).me = s.me := rfl
@[simp] theorem ctx_setVf (s : State) (n : Nat) (v : Vf) (h : Nat) : (s.setVf n v).ctx h = s.ctx h := rfl
@[simp] theorem core_setVf (s : State) (n : Nat) (v : Vf) (h : Nat) : (s.setVf n v).core' h = s.core' h := rfl
@[simp] theorem quad_setVf (s : State) (n : Nat) (v : Vf) (h : Nat) : (s.setVf n v).quad h = s.quad h := rfl
@[simp] theorem tower_setVf (s : State) (n : Nat) (v : Vf) (h : Nat) : (s.setVf n v).tower h = s.tower h := rfl
@[simp] theorem bar_setVf (s : State) (n : Nat) (v : Vf) (h : Nat) : (s.setVf n v).bar h = s.bar h := rfl
@[simp] theorem arm_setVf (s : State) (n : Nat) (v : Vf) (h : Nat) : (s.setVf n v).arm h = s.arm h := rfl
@[simp] theorem me_setVf (s : State) (n : Nat) (v : Vf) : (s.setVf n v).me = s.me := rfl
@[simp] theorem ctx_setBar (s : State) (n : Nat) (b : BarTag) (h : Nat) : (s.setBar n b).ctx h = s.ctx h := rfl
@[simp] theorem core_setBar (s : State) (n : Nat) (b : BarTag) (h : Nat) : (s.setBar n b).core' h = s.core' h := rfl
@[simp] theorem quad_setBar (s : State) (n : Nat) (b : BarTag) (h : Nat) : (s.setBar n b).quad h = s.quad h := rfl
@[simp] theorem tower_setBar (s : State) (n : Nat) (b : BarTag) (h : Nat) : (s.setBar n b).tower h = s.tower h := rfl
@[simp] theorem vf_setBar (s : State) (n : Nat) (b : BarTag) (h : Nat) : (s.setBar n b).vf h = s.vf h := rfl
@[simp] theorem arm_setBar (s : State) (n : Nat) (b : BarTag) (h : Nat) : (s.setBar n b).arm h = s.arm h := rfl
@[simp] theorem me_setBar (s : State) (n : Nat) (b : BarTag) : (s.setBar n b).me = s.me := rfl
@[simp] theorem ctx_setArm (s : State) (u : Nat) (a : Arm) (h : Nat) : (s.setArm u a).ctx h = s.ctx h := rfl
@[simp] theorem core_setArm (s : State) (u : Nat) (a : Arm) (h : Nat) : (s.setArm u a).core' h = s.core' h := rfl
@[simp] theorem quad_setArm (s : State) (u : Nat) (a : Arm) (h : Nat) : (s.setArm u a).quad h = s.quad h := rfl
@[simp] theorem tower_setArm (s : State) (u : Nat) (a : Arm) (h : Nat) : (s.setArm u a).tower h = s.tower h := rfl
@[simp] theorem vf_setArm (s : State) (u : Nat) (a : Arm) (h : Nat) : (s.setArm u a).vf h = s.vf h := rfl
@[simp] theorem bar_setArm (s : State) (u : Nat) (a : Arm) (h : Nat) : (s.setArm u a).bar h = s.bar h := rfl
@[simp] theorem me_setArm (s : State) (u : Nat) (a : Arm) : (s.setArm u a).me = s.me := rfl
@[simp] theorem core_modCtx (s : State) (g : Nat) (f : Ctx → Ctx) (h : Nat) : (s.modCtx g f).core' h = s.core' h := rfl
@[simp] theorem quad_modCtx (s : State) (g : Nat) (f : Ctx → Ctx) (h : Nat) : (s.modCtx g f).quad h = s.quad h := rfl
@[simp] theorem tower_modCtx (s : State) (g : Nat) (f : Ctx → Ctx) (h : Nat) : (s.modCtx g f).tower h = s.tower h := rfl
@[simp] theorem vf_modCtx (s : State) (g : Nat) (f : Ctx → Ctx) (h : Nat) : (s.modCtx g f).vf h = s.vf h := rfl
@[simp] theorem bar_modCtx (s : State) (g : Nat) (f : Ctx → Ctx) (h : Nat) : (s.modCtx g f).bar h = s.bar h := rfl
@[simp] theorem arm_modCtx (s : State) (g : Nat) (f : Ctx → Ctx) (h : Nat) : (s.modCtx g f).arm h = s.arm h := rfl
@[simp] theorem ctx_modCore (s : State) (n : Nat) (f : Core → Core) (h : Nat) : (s.modCore n f).ctx h = s.ctx h := rfl
@[simp] theorem quad_modCore (s : State) (n : Nat) (f : Core → Core) (h : Nat) : (s.modCore n f).quad h = s.quad h := rfl
@[simp] theorem tower_modCore (s : State) (n : Nat) (f : Core → Core) (h : Nat) : (s.modCore n f).tower h = s.tower h := rfl
@[simp] theorem vf_modCore (s : State) (n : Nat) (f : Core → Core) (h : Nat) : (s.modCore n f).vf h = s.vf h := rfl
@[simp] theorem bar_modCore (s : State) (n : Nat) (f : Core → Core) (h : Nat) : (s.modCore n f).bar h = s.bar h := rfl
@[simp] theorem arm_modCore (s : State) (n : Nat) (f : Core → Core) (h : Nat) : (s.modCore n f).arm h = s.arm h := rfl
@[simp] theorem me_modCore (s : State) (n : Nat) (f : Core → Core) : (s.modCore n f).me = s.me := rfl
@[simp] theorem ctx_modQuad (s : State) (q : Nat) (f : Quad → Quad) (h : Nat) : (s.modQuad q f).ctx h = s.ctx h := rfl
@[simp] theorem core_modQuad (s : State) (q : Nat) (f : Quad → Quad) (h : Nat) : (s.modQuad q f).core' h = s.core' h := rfl
@[simp] theorem tower_modQuad (s : State) (q : Nat) (f : Quad → Quad) (h : Nat) : (s.modQuad q f).tower h = s.tower h := rfl
@[simp] theorem vf_modQuad (s : State) (q : Nat) (f : Quad → Quad) (h : Nat) : (s.modQuad q f).vf h = s.vf h := rfl
@[simp] theorem bar_modQuad (s : State) (q : Nat) (f : Quad → Quad) (h : Nat) : (s.modQuad q f).bar h = s.bar h := rfl
@[simp] theorem arm_modQuad (s : State) (q : Nat) (f : Quad → Quad) (h : Nat) : (s.modQuad q f).arm h = s.arm h := rfl
@[simp] theorem me_modQuad (s : State) (q : Nat) (f : Quad → Quad) : (s.modQuad q f).me = s.me := rfl
@[simp] theorem ctx_modTower (s : State) (t : Nat) (f : Tower → Tower) (h : Nat) : (s.modTower t f).ctx h = s.ctx h := rfl
@[simp] theorem core_modTower (s : State) (t : Nat) (f : Tower → Tower) (h : Nat) : (s.modTower t f).core' h = s.core' h := rfl
@[simp] theorem quad_modTower (s : State) (t : Nat) (f : Tower → Tower) (h : Nat) : (s.modTower t f).quad h = s.quad h := rfl
@[simp] theorem vf_modTower (s : State) (t : Nat) (f : Tower → Tower) (h : Nat) : (s.modTower t f).vf h = s.vf h := rfl
@[simp] theorem bar_modTower (s : State) (t : Nat) (f : Tower → Tower) (h : Nat) : (s.modTower t f).bar h = s.bar h := rfl
@[simp] theorem arm_modTower (s : State) (t : Nat) (f : Tower → Tower) (h : Nat) : (s.modTower t f).arm h = s.arm h := rfl
@[simp] theorem me_modTower (s : State) (t : Nat) (f : Tower → Tower) : (s.modTower t f).me = s.me := rfl
@[simp] theorem ctx_modVf (s : State) (n : Nat) (f : Vf → Vf) (h : Nat) : (s.modVf n f).ctx h = s.ctx h := rfl
@[simp] theorem core_modVf (s : State) (n : Nat) (f : Vf → Vf) (h : Nat) : (s.modVf n f).core' h = s.core' h := rfl
@[simp] theorem quad_modVf (s : State) (n : Nat) (f : Vf → Vf) (h : Nat) : (s.modVf n f).quad h = s.quad h := rfl
@[simp] theorem tower_modVf (s : State) (n : Nat) (f : Vf → Vf) (h : Nat) : (s.modVf n f).tower h = s.tower h := rfl
@[simp] theorem bar_modVf (s : State) (n : Nat) (f : Vf → Vf) (h : Nat) : (s.modVf n f).bar h = s.bar h := rfl
@[simp] theorem arm_modVf (s : State) (n : Nat) (f : Vf → Vf) (h : Nat) : (s.modVf n f).arm h = s.arm h := rfl
@[simp] theorem me_modVf (s : State) (n : Nat) (f : Vf → Vf) : (s.modVf n f).me = s.me := rfl
@[simp] theorem ctx_modDealer (s : State) (f : Dealer → Dealer) (h : Nat) : (s.modDealer f).ctx h = s.ctx h := rfl
@[simp] theorem core_modDealer (s : State) (f : Dealer → Dealer) (h : Nat) : (s.modDealer f).core' h = s.core' h := rfl
@[simp] theorem quad_modDealer (s : State) (f : Dealer → Dealer) (h : Nat) : (s.modDealer f).quad h = s.quad h := rfl
@[simp] theorem tower_modDealer (s : State) (f : Dealer → Dealer) (h : Nat) : (s.modDealer f).tower h = s.tower h := rfl
@[simp] theorem vf_modDealer (s : State) (f : Dealer → Dealer) (h : Nat) : (s.modDealer f).vf h = s.vf h := rfl
@[simp] theorem bar_modDealer (s : State) (f : Dealer → Dealer) (h : Nat) : (s.modDealer f).bar h = s.bar h := rfl
@[simp] theorem arm_modDealer (s : State) (f : Dealer → Dealer) (h : Nat) : (s.modDealer f).arm h = s.arm h := rfl
@[simp] theorem me_modDealer (s : State) (f : Dealer → Dealer) : (s.modDealer f).me = s.me := rfl

/-! ### A result of the bundle at issue: it changes the bundle's bookkeeping alone -/

@[simp] theorem put_tick (s : State) (r : RegId) (v e : Tile) (n : Nat) : (s.put r v e n).tick = s.tick := by unfold State.put; split <;> rfl
@[simp] theorem put_mem (s : State) (r : RegId) (v e : Tile) (n : Nat) : (s.put r v e n).mem = s.mem := by unfold State.put; split <;> rfl
@[simp] theorem put_memBad (s : State) (r : RegId) (v e : Tile) (n : Nat) : (s.put r v e n).memBad = s.memBad := by unfold State.put; split <;> rfl
@[simp] theorem put_memSoft (s : State) (r : RegId) (v e : Tile) (n : Nat) : (s.put r v e n).memSoft = s.memSoft := by unfold State.put; split <;> rfl
@[simp] theorem put_wq (s : State) (r : RegId) (v e : Tile) (n : Nat) : (s.put r v e n).wq = s.wq := by unfold State.put; split <;> rfl
@[simp] theorem put_cache (s : State) (r : RegId) (v e : Tile) (n : Nat) : (s.put r v e n).cache = s.cache := by unfold State.put; split <;> rfl
@[simp] theorem put_ctxs (s : State) (r : RegId) (v e : Tile) (n : Nat) : (s.put r v e n).ctxs = s.ctxs := by unfold State.put; split <;> rfl
@[simp] theorem put_cores (s : State) (r : RegId) (v e : Tile) (n : Nat) : (s.put r v e n).cores = s.cores := by unfold State.put; split <;> rfl
@[simp] theorem put_quads (s : State) (r : RegId) (v e : Tile) (n : Nat) : (s.put r v e n).quads = s.quads := by unfold State.put; split <;> rfl
@[simp] theorem put_towers (s : State) (r : RegId) (v e : Tile) (n : Nat) : (s.put r v e n).towers = s.towers := by unfold State.put; split <;> rfl
@[simp] theorem put_vfs (s : State) (r : RegId) (v e : Tile) (n : Nat) : (s.put r v e n).vfs = s.vfs := by unfold State.put; split <;> rfl
@[simp] theorem put_toks (s : State) (r : RegId) (v e : Tile) (n : Nat) : (s.put r v e n).toks = s.toks := by unfold State.put; split <;> rfl
@[simp] theorem put_bars (s : State) (r : RegId) (v e : Tile) (n : Nat) : (s.put r v e n).bars = s.bars := by unfold State.put; split <;> rfl
@[simp] theorem put_arms (s : State) (r : RegId) (v e : Tile) (n : Nat) : (s.put r v e n).arms = s.arms := by unfold State.put; split <;> rfl
@[simp] theorem put_droop (s : State) (r : RegId) (v e : Tile) (n : Nat) : (s.put r v e n).droop = s.droop := by unfold State.put; split <;> rfl
@[simp] theorem put_pctr (s : State) (r : RegId) (v e : Tile) (n : Nat) : (s.put r v e n).pctr = s.pctr := by unfold State.put; split <;> rfl
@[simp] theorem put_allocs (s : State) (r : RegId) (v e : Tile) (n : Nat) : (s.put r v e n).allocs = s.allocs := by unfold State.put; split <;> rfl
@[simp] theorem put_lostSw (s : State) (r : RegId) (v e : Tile) (n : Nat) : (s.put r v e n).lostSw = s.lostSw := by unfold State.put; split <;> rfl
@[simp] theorem put_deadPeers (s : State) (r : RegId) (v e : Tile) (n : Nat) : (s.put r v e n).deadPeers = s.deadPeers := by unfold State.put; split <;> rfl
@[simp] theorem put_dealer (s : State) (r : RegId) (v e : Tile) (n : Nat) : (s.put r v e n).dealer = s.dealer := by unfold State.put; split <;> rfl
@[simp] theorem put_agenda (s : State) (r : RegId) (v e : Tile) (n : Nat) : (s.put r v e n).agenda = s.agenda := by unfold State.put; split <;> rfl
@[simp] theorem put_volts (s : State) (r : RegId) (v e : Tile) (n : Nat) : (s.put r v e n).volts = s.volts := by unfold State.put; split <;> rfl
@[simp] theorem put_tried (s : State) (r : RegId) (v e : Tile) (n : Nat) : (s.put r v e n).tried = s.tried := by unfold State.put; split <;> rfl
@[simp] theorem put_cur (s : State) (r : RegId) (v e : Tile) (n : Nat) : (s.put r v e n).cur = s.cur := by unfold State.put; split <;> rfl
@[simp] theorem put_fresh (s : State) (r : RegId) (v e : Tile) (n : Nat) : (s.put r v e n).fresh = s.fresh := by unfold State.put; split <;> rfl
@[simp] theorem put_serial (s : State) (r : RegId) (v e : Tile) (n : Nat) : (s.put r v e n).serial = s.serial := by unfold State.put; split <;> rfl
@[simp] theorem put_me (s : State) (r : RegId) (v e : Tile) (n : Nat) : (s.put r v e n).me = s.me := by unfold State.put; split <;> rfl
/-- A result of a register that keeps it joins the results of the bundle. -/
theorem put_results (s : State) (r : RegId) (v e : Tile) (n : Nat) (h : r.discards = false) :
    (s.put r v e n).issue.results = s.issue.results ++ [{ reg := r, val := v, en := e, due := s.tick + n }] := by
  unfold State.put; rw [if_neg (by simp [h])]
/-- s0, ma0 and mb0 discard a result (R48). -/
theorem put_discards (s : State) (r : RegId) (v e : Tile) (n : Nat) (h : r.discards = true) : s.put r v e n = s := by
  unfold State.put; rw [if_pos h]
@[simp] theorem putS_mem (s : State) (n : Nat) (v : Word) (l : Nat) : (s.putS n v l).mem = s.mem := put_mem ..
@[simp] theorem putV_mem (s : State) (p : Cl) (n : Nat) (v e : Tile) (l : Nat) : (s.putV p n v e l).mem = s.mem := put_mem ..
@[simp] theorem putM_mem (s : State) (p : Cl) (n : Nat) (v e : MaskReg) (l : Nat) : (s.putM p n v e l).mem = s.mem := put_mem ..
@[simp] theorem putSh_mem (s : State) (n : Nat) (v e : ShapeReg) (l : Nat) : (s.putSh n v e l).mem = s.mem := put_mem ..
@[simp] theorem putCr_mem (s : State) (n : Nat) (v : Word) : (s.putCr n v).mem = s.mem := put_mem ..

/-! ### A landing result: it changes its own register (R104) -/

@[simp] theorem write_st (c : Ctx) (r : RegId) (v e : Tile) : (c.write r v e).st = c.st := by
  unfold Ctx.write; dsimp only; repeat' split
  all_goals rfl
@[simp] theorem write_pc (c : Ctx) (r : RegId) (v e : Tile) : (c.write r v e).pc = c.pc := by
  unfold Ctx.write; dsimp only; repeat' split
  all_goals rfl
@[simp] theorem write_faultpt (c : Ctx) (r : RegId) (v e : Tile) : (c.write r v e).faultpt = c.faultpt := by
  unfold Ctx.write; dsimp only; repeat' split
  all_goals rfl
@[simp] theorem write_faultpc (c : Ctx) (r : RegId) (v e : Tile) : (c.write r v e).faultpc = c.faultpc := by
  unfold Ctx.write; dsimp only; repeat' split
  all_goals rfl
@[simp] theorem write_state (c : Ctx) (r : RegId) (v e : Tile) : (c.write r v e).state = c.state := by
  unfold Ctx.write; dsimp only; repeat' split
  all_goals rfl
@[simp] theorem write_wait (c : Ctx) (r : RegId) (v e : Tile) : (c.write r v e).wait = c.wait := by
  unfold Ctx.write; dsimp only; repeat' split
  all_goals rfl
@[simp] theorem write_resumed (c : Ctx) (r : RegId) (v e : Tile) : (c.write r v e).resumed = c.resumed := by
  unfold Ctx.write; dsimp only; repeat' split
  all_goals rfl
@[simp] theorem write_stage (c : Ctx) (r : RegId) (v e : Tile) : (c.write r v e).stage = c.stage := by
  unfold Ctx.write; dsimp only; repeat' split
  all_goals rfl
@[simp] theorem write_vfid (c : Ctx) (r : RegId) (v e : Tile) : (c.write r v e).vfid = c.vfid := by
  unfold Ctx.write; dsimp only; repeat' split
  all_goals rfl
@[simp] theorem write_evq (c : Ctx) (r : RegId) (v e : Tile) : (c.write r v e).evq = c.evq := by
  unfold Ctx.write; dsimp only; repeat' split
  all_goals rfl
@[simp] theorem write_largs (c : Ctx) (r : RegId) (v e : Tile) : (c.write r v e).largs = c.largs := by
  unfold Ctx.write; dsimp only; repeat' split
  all_goals rfl
@[simp] theorem write_seq (c : Ctx) (r : RegId) (v e : Tile) : (c.write r v e).seq = c.seq := by
  unfold Ctx.write; dsimp only; repeat' split
  all_goals rfl
@[simp] theorem write_sysc (c : Ctx) (r : RegId) (v e : Tile) : (c.write r v e).sysc = c.sysc := by
  unfold Ctx.write; dsimp only; repeat' split
  all_goals rfl
@[simp] theorem write_inflight (c : Ctx) (r : RegId) (v e : Tile) : (c.write r v e).inflight = c.inflight := by
  unfold Ctx.write; dsimp only; repeat' split
  all_goals rfl
@[simp] theorem write_arrivals (c : Ctx) (r : RegId) (v e : Tile) : (c.write r v e).arrivals = c.arrivals := by
  unfold Ctx.write; dsimp only; repeat' split
  all_goals rfl
@[simp] theorem write_halting (c : Ctx) (r : RegId) (v e : Tile) : (c.write r v e).halting = c.halting := by
  unfold Ctx.write; dsimp only; repeat' split
  all_goals rfl
@[simp] theorem write_stop (c : Ctx) (r : RegId) (v e : Tile) : (c.write r v e).stop = c.stop := by
  unfold Ctx.write; dsimp only; repeat' split
  all_goals rfl
@[simp] theorem write_cut (c : Ctx) (r : RegId) (v e : Tile) : (c.write r v e).cut = c.cut := by
  unfold Ctx.write; dsimp only; repeat' split
  all_goals rfl
@[simp] theorem write_ask (c : Ctx) (r : RegId) (v e : Tile) : (c.write r v e).ask = c.ask := by
  unfold Ctx.write; dsimp only; repeat' split
  all_goals rfl
@[simp] theorem write_hold (c : Ctx) (r : RegId) (v e : Tile) : (c.write r v e).hold = c.hold := by
  unfold Ctx.write; dsimp only; repeat' split
  all_goals rfl
@[simp] theorem write_launch (c : Ctx) (r : RegId) (v e : Tile) : (c.write r v e).launch = c.launch := by
  unfold Ctx.write; dsimp only; repeat' split
  all_goals rfl
@[simp] theorem write_image (c : Ctx) (r : RegId) (v e : Tile) : (c.write r v e).image = c.image := by
  unfold Ctx.write; dsimp only; repeat' split
  all_goals rfl
@[simp] theorem write_entry (c : Ctx) (r : RegId) (v e : Tile) : (c.write r v e).entry = c.entry := by
  unfold Ctx.write; dsimp only; repeat' split
  all_goals rfl
@[simp] theorem write_phase (c : Ctx) (r : RegId) (v e : Tile) : (c.write r v e).phase = c.phase := by
  unfold Ctx.write; dsimp only; repeat' split
  all_goals rfl
@[simp] theorem write_task (c : Ctx) (r : RegId) (v e : Tile) : (c.write r v e).task = c.task := by
  unfold Ctx.write; dsimp only; repeat' split
  all_goals rfl
@[simp] theorem write_flagAt (c : Ctx) (r : RegId) (v e : Tile) : (c.write r v e).flagAt = c.flagAt := by
  unfold Ctx.write; dsimp only; repeat' split
  all_goals rfl
@[simp] theorem write_ctr (c : Ctx) (r : RegId) (v e : Tile) : (c.write r v e).ctr = c.ctr := by
  unfold Ctx.write; dsimp only; repeat' split
  all_goals rfl
theorem write_sreg (c : Ctx) (r : RegId) (v e : Tile) (h : r.file ≠ .s) : (c.write r v e).sreg = c.sreg := by
  unfold Ctx.write; dsimp only; repeat' split
  all_goals first | rfl | exact absurd ‹r.file = .s› h
theorem write_xreg (c : Ctx) (r : RegId) (v e : Tile) (h : r.file ≠ .x) : (c.write r v e).xreg = c.xreg := by
  unfold Ctx.write; dsimp only; repeat' split
  all_goals first | rfl | exact absurd ‹r.file = .x› h
theorem write_va (c : Ctx) (r : RegId) (v e : Tile) (h : r.file ≠ .va) : (c.write r v e).va = c.va := by
  unfold Ctx.write; dsimp only; repeat' split
  all_goals first | rfl | exact absurd ‹r.file = .va› h
theorem write_vb (c : Ctx) (r : RegId) (v e : Tile) (h : r.file ≠ .vb) : (c.write r v e).vb = c.vb := by
  unfold Ctx.write; dsimp only; repeat' split
  all_goals first | rfl | exact absurd ‹r.file = .vb› h
theorem write_ma (c : Ctx) (r : RegId) (v e : Tile) (h : r.file ≠ .ma) : (c.write r v e).ma = c.ma := by
  unfold Ctx.write; dsimp only; repeat' split
  all_goals first | rfl | exact absurd ‹r.file = .ma› h
theorem write_mb (c : Ctx) (r : RegId) (v e : Tile) (h : r.file ≠ .mb) : (c.write r v e).mb = c.mb := by
  unfold Ctx.write; dsimp only; repeat' split
  all_goals first | rfl | exact absurd ‹r.file = .mb› h
theorem write_sh (c : Ctx) (r : RegId) (v e : Tile) (h : r.file ≠ .sh) : (c.write r v e).sh = c.sh := by
  unfold Ctx.write; dsimp only; repeat' split
  all_goals first | rfl | exact absurd ‹r.file = .sh› h
theorem write_tk (c : Ctx) (r : RegId) (v e : Tile) (h : r.file ≠ .tk) : (c.write r v e).tk = c.tk := by
  unfold Ctx.write; dsimp only; repeat' split
  all_goals first | rfl | exact absurd ‹r.file = .tk› h

end Sys2Proof.Machine
end

