-- ==== Sys2Proof/Laws/Tile.lean ====
section
/-! SUPPORT. Elements of a tile and what was packed into it (R52). -/

namespace Sys2Proof.Machine

/-- The number that a list of elements packs to. -/
def packNat (w : Nat) (l : List Nat) : Nat := l.foldr (fun x a => x % 2 ^ w + 2 ^ w * a) 0

theorem packNat_cons (w x : Nat) (l : List Nat) : packNat w (x :: l) = x % 2 ^ w + 2 ^ w * packNat w l := rfl

theorem packNat_lt (w : Nat) (l : List Nat) : packNat w l < 2 ^ (w * l.length) := by
  induction l with
  | nil => simp [packNat]
  | cons x l ih =>
    rw [packNat_cons, List.length_cons, Nat.mul_succ, Nat.pow_add, Nat.mul_comm (2 ^ (w * l.length))]
    have h1 : x % 2 ^ w < 2 ^ w := Nat.mod_lt _ (by positivity)
    have h2 : packNat w l + 1 ≤ 2 ^ (w * l.length) := ih
    calc x % 2 ^ w + 2 ^ w * packNat w l < 2 ^ w + 2 ^ w * packNat w l := by omega
      _ = 2 ^ w * (packNat w l + 1) := by ring
      _ ≤ 2 ^ w * 2 ^ (w * l.length) := Nat.mul_le_mul_left _ h2

theorem packNat_get (w : Nat) (l : List Nat) (i : Nat) (h : i < l.length) :
    packNat w l / 2 ^ (w * i) % 2 ^ w = l[i] % 2 ^ w := by
  induction l generalizing i with
  | nil => simp at h
  | cons x l ih =>
    have hp : 0 < 2 ^ w := by positivity
    cases i with
    | zero => simp [packNat_cons, Nat.add_mul_mod_self_left]
    | succ i =>
      rw [packNat_cons, Nat.mul_succ, Nat.pow_add, Nat.mul_comm (2 ^ (w * i)), ← Nat.div_div_eq_div_mul,
        Nat.add_mul_div_left _ _ hp, Nat.div_eq_of_lt (Nat.mod_lt _ hp), Nat.zero_add]
      simpa using ih i (by simpa using h)

/-- Element `i` of what was packed. -/
theorem elem_packTile (w : Nat) (l : List Nat) (i : Nat) (h : i < l.length) (hl : w * l.length ≤ 4096) :
    elem w (packTile w l) i = l[i] % 2 ^ w := by
  have hle : 2 ^ (w * l.length) ≤ 2 ^ 4096 := Nat.pow_le_pow_right (Nat.succ_pos 1) hl
  have : (packTile w l).toNat = packNat w l :=
    (BitVec.toNat_ofNat _ _).trans (Nat.mod_eq_of_lt (lt_of_lt_of_le (packNat_lt w l) hle))
  rw [elem, BitVec.extractLsb'_toNat, this, Nat.shiftRight_eq_div_pow, packNat_get w l i h]

/-- Element `i` of results packed in order. -/
theorem elem_pack_range (w n : Nat) (f : Nat → Nat) (i : Nat) (h : i < n) (hn : w * n ≤ 4096) :
    elem w (packTile w ((List.range n).map f)) i = f i % 2 ^ w := by
  rw [elem_packTile w _ i (by simpa using h) (by simpa using hn)]; simp

/-- The enable bits of element `i`: all of them when it is active. -/
theorem elem_spread (w : Nat) (l : List Bool) (i : Nat) (h : i < l.length) (hl : w * l.length ≤ 4096) :
    elem w (spread w l) i = if l[i] then 2 ^ w - 1 else 0 := by
  have hp : 0 < 2 ^ w := by positivity
  rw [spread, elem_packTile w _ i (by simpa using h) (by simpa using hl)]
  simp only [List.getElem_map]
  split
  · exact Nat.mod_eq_of_lt (Nat.sub_lt hp Nat.one_pos)
  · simp

/-- A tile holds `elems w` elements of width `w`. -/
theorem elems_fit (w : Nat) : w * elems w ≤ 4096 := Nat.mul_div_le 4096 w

end Sys2Proof.Machine
end

