-- ==== Sys2Proof/Tests/Slice0.lean ====
section
/-! SUPPORT. Tests of the model. Expected values come from the manual's tables and worked examples, or from hand calculation. The
theorems `meets_…` show, for a statement of Certificates/Slice0/Obligations.lean, states and operands that meet its hypotheses, clause
by clause. -/

namespace Sys2Proof.Tests

open Sys2Proof Sys2Proof.Machine Sys2Proof.Claims

-- One theorem at a time: each kernel evaluation has its own memory.
set_option Elab.async false

/-! ### Well-formedness (R49, R96-R103, R114-R122): one ill-formed term for each check -/

def fr0 : FR := { v := false, lat := 0, sh := 0, msk := 0, d := 0, a := 0, b := 0, c := 0, ty := 0, ty2 := 0, sat := false, pair := false, xmod := 0 }
def fi0 : FI := { v := false, lat := 0, sh := 0, msk := 0, d := 0, a := 0, ty := 0, f := false, sat := false, imm := 0 }
def fm0 : FM := { v := false, lat := 0, sh := 0, msk := 0, d := 0, a := 0, b := 0, disp := 0, ty := 0 }
def fe0 : FE := { v := false, lat := 0, sh := 0, msk := 0, d := 0, a := 0, b := 0, tko := 0, tka := 0, tkb := 0, tkc := 0, ntk := 0 }
def fb0 : FB := { v := false, lat := 0, sh := 0, msk := 0, d := 0, a := 0, cond := 0, off := 0 }
def fx0 : FX := { v := false, lat := 0, sh := 0, msk := 0, d := 0, a := 0, b := 0, imm := 0 }

/-- Syllables that the loader refuses by themselves, with the reason of R114. -/
def refusedSyllables : List (Instr × Reason) :=
  [-- specifiers: an unused field, and one outside its file
   (.mov .sa { fr0 with b := 1 }, .badField), (.movx .sa { fr0 with d := 8 }, .badReg),
   (.tkset { fx0 with d := 32 }, .badReg),
   -- SH and MK: a class without tiles, a cluster bit, a shape and a cluster bit, a shape alone
   (.add .sa { fr0 with ty := 8, msk := 1 }, .badField), (.crdacc { fe0 with sh := 1 }, .badField),
   (.sbind { fe0 with msk := 1 }, .badField), (.cmm { fe0 with msk := 4 }, .badField),
   -- LAT: below the intrinsic latency, and in a format without one
   (.mul .sa { fr0 with ty := 8, lat := 2 }, .badLat), (.br { fb0 with lat := 1 }, .badLat),
   -- TYPE, V, SAT, XMOD and PAIR
   (.add .sa { fr0 with ty := 0x10 }, .badType), (.add .sa { fr0 with ty := 8, v := true }, .badField),
   (.vadd .a { fr0 with ty := 2, v := true }, .badType), (.mov .sa { fr0 with sat := true }, .badType),
   (.add .sa { fr0 with ty := 8, xmod := 1 }, .badField), (.cmp .sa { fr0 with ty := 8, xmod := 6 }, .badType),
   (.vabs .a { fr0 with ty := 2, pair := true }, .badPair),
   -- FI: F against TYPE, and a BF16 immediate of more than 16 bits
   (.fadd .sa { fr0 with ty := 0x10, sat := true }, .badType), (.addI .sa { fi0 with ty := 8, f := true }, .badType),
   (.faddI .sa { fi0 with ty := 0x10, f := true, imm := 0x10000 }, .badType),
   -- FE: NTK, and a token beyond it
   (.ldx { fe0 with ntk := 4 }, .badField), (.ldx { fe0 with ntk := 1, tkb := 3 }, .badField),
   -- class C
   (.br { fb0 with cond := 1 }, .badField), (.bc { fb0 with cond := 6 }, .badType), (.ret { fb0 with off := 1 }, .badField),
   (.loop { fb0 with d := 2 }, .badReg), (.loop { fb0 with cond := 1 }, .badField), (.jt { fb0 with d := 60, cond := 4 }, .badReg),
   (.bsel { fb0 with cond := 3 }, .badType), (.bsel { fb0 with off := 256 }, .badField), (.trap { fx0 with imm := 0x10000 }, .badField),
   (.evwait { fx0 with imm := 65 }, .badField), (.evwait fx0, .badField), (.fence fx0, .badType),
   (.fence { fx0 with imm := 0x80000, d := 1 }, .badField), (.mod { fx0 with imm := 1 }, .badField),
   (.mod { fx0 with imm := 0x8060 }, .badPrefixUse), (.tkwait fx0, .badField), (.tkwait { fx0 with imm := 0x200003 }, .badReg),
   (.tkset { fx0 with imm := 1 }, .badField), (.evpop { fr0 with d := 5, c := 5 }, .badReg),
   -- class S
   (.madd .sa { fr0 with ty := 8 }, .badOp), (.ext .sa { fi0 with ty := 8, imm := 0xFFF }, .badField),
   (.lih .sa { fi0 with ty := 8, imm := 0x400000 }, .badField),
   -- class V
   (.vcmpI .a { fi0 with ty := 2, d := 8 }, .badField), (.vcmpI .a { fi0 with ty := 2, d := 0x60 }, .badType),
   (.vcbdec .a { fr0 with ty := 0x0F, ty2 := 0x0B, d := 2 }, .badReg), (.vwid .a { fr0 with ty := 4, ty2 := 2, d := 1 }, .badReg),
   (.vperm .a { fr0 with ty := 2, xmod := 2 }, .badType),
   -- class E
   (.ldS { fm0 with ty := 0 }, .badType), (.redAdd { fe0 with d := 4 }, .badField), (.redFadd { fe0 with v := true }, .badField),
   (.sunbind { fe0 with d := 8 }, .badField), (.cdrain { fe0 with d := 2 }, .badField)]
theorem test_refused_syllables : ∀ e ∈ refusedSyllables, e.1.reject = some e.2 := by decide +kernel

/-- Syllables that differ from those by the refused value alone, and are accepted. -/
def acceptedSyllables : List Instr :=
  [.nop .c, .mov .sa fr0, .movx .sa { fr0 with d := 7 }, .tkset { fx0 with d := 31, imm := 2 },
   .add .sa { fr0 with ty := 8, sat := true }, .crdacc { fe0 with msk := 4 }, .sbind { fe0 with msk := 4, sh := 1, d := 15 }, .cmm { fe0 with sh := 1 },
   .mul .sa { fr0 with ty := 8, lat := 3 }, .vadd .a { fr0 with ty := 2, pair := true }, .cmp .sa { fr0 with ty := 8, xmod := 5 },
   .faddI .sa { fi0 with ty := 0x10, f := true, imm := 0xFFFF }, .ldx { fe0 with ntk := 2, tkb := 3 }, .bc { fb0 with cond := 5 },
   .loop { fb0 with d := 1 }, .jt { fb0 with d := 60, cond := 3 }, .bsel { fb0 with cond := 2, off := 255 }, .trap { fx0 with imm := 0xFFFF },
   .evwait { fx0 with imm := 64 }, .fence { fx0 with imm := 0x280000, d := 1 }, .mod { fx0 with imm := 0x4000 + 1 },
   .tkwait { fx0 with imm := 0x1F0003 }, .evpop { fr0 with d := 5, c := 6 }, .madd .sb { fr0 with ty := 8 },
   .ext .sa { fi0 with ty := 8, imm := 0xFC0 }, .vcmpI .a { fi0 with ty := 2, d := 0x57 }, .vcbdec .a { fr0 with ty := 0x0F, ty2 := 0x0B, d := 4 },
   .vwid .a { fr0 with ty := 4, ty2 := 2, d := 2 }, .vperm .a { fr0 with ty := 2, xmod := 1 }, .ldS { fm0 with ty := 2 },
   .redMin { fe0 with v := true, d := 2 }]
theorem test_accepted_syllables : ∀ i ∈ acceptedSyllables, i.wf = true := by decide +kernel

/-- R51, R114, R115, R121, R148: bundles that the loader refuses, with the reason and the slot. -/
theorem test_refused_bundles :
    bundleReject [.trap fx0, .mov .sa fr0, .nop .sb, .nop .va, .nop .vb, .nop .e] = some (.badOp, 0) ∧
    bundleReject [.nop .c, .li .sa { fi0 with ty := 8, d := 4 }, .li .sb { fi0 with ty := 8, d := 4 }, .nop .va, .nop .vb, .nop .e] =
      some (.badReg, 0) ∧
    bundleReject [.nop .c, .li .sa { fi0 with ty := 8 }, .li .sb { fi0 with ty := 8 }, .nop .va, .nop .vb, .nop .e] = none ∧
    bundleReject [.nop .c, .nop .sa, .nop .sb, .vadd .a { fr0 with ty := 2, pair := true }, .nop .vb, .nop .e] = some (.badPair, 3) ∧
    bundleReject [.mod { fx0 with imm := 0x4000 }, .nop .sa, .nop .sb, .nop .va, .nop .vb, .nop .e] = some (.badPrefixUse, 0) := by
  decide +kernel

/-- R10, R14: events name units that exist. -/
theorem test_event_units : (Instr.haltComplete 3071).eventOk = true ∧ (Instr.haltComplete 3072).eventOk = false ∧
    (Instr.leaseGrant 191).eventOk = true ∧ (Instr.leaseGrant 192).eventOk = false ∧ (Instr.imageLoad 768).eventOk = false ∧
    (Instr.cspopDelivery 0 4).eventOk = false ∧ (Instr.streamEnd 0 8).eventOk = false ∧ (Instr.planeLayerStart 0 8).eventOk = false ∧
    (Instr.stacqGrant 4 0).eventOk = false ∧ (Instr.barrierCompletion 8).eventOk = false ∧ (Instr.engineArmTick 3456).eventOk = false ∧
    (Instr.govcfgWrite 4 0).eventOk = false := by decide +kernel

/-! ### Decoding (R95-R98, R116-R118)

Each word is written out from bit 63: OP, F3, V, LAT, SH, MK, D, A and the low fields of its format, with OP and F3 as R118 lists
them. The operands of a format are the same in all its words. -/

def fr : FR := { v := true, lat := 9, sh := 5, msk := 6, d := 0x4B, a := 0x31, b := 0x0E, c := 0x55, ty := 0x13, ty2 := 0x0D, sat := true,
                 pair := false, xmod := 0xA }
def fi : FI := { v := true, lat := 9, sh := 5, msk := 6, d := 0x4B, a := 0x31, ty := 0x13, f := false, sat := true, imm := 0x2C35E1 }
def fm : FM := { v := true, lat := 9, sh := 5, msk := 6, d := 0x4B, a := 0x31, b := 0x0E, disp := 0x2A35, ty := 0x13 }
def fe : FE := { v := true, lat := 9, sh := 5, msk := 6, d := 0x4B, a := 0x31, b := 0x0E, tko := 0x15, tka := 0x0B, tkb := 0x1C, tkc := 0x06,
                 ntk := 3 }
def fb : FB := { v := true, lat := 9, sh := 5, msk := 6, d := 0x4B, a := 0x31, cond := 0xB, off := 0x2C35E1 }
def fx : FX := { v := true, lat := 9, sh := 5, msk := 6, d := 0x4B, a := 0x31, b := 0x0E, imm := 0x2C35E1 }

/-- Class C. -/
def controlWords : List (BitVec 64 × Instr) :=
  [(0b000001_000_1_1001_101_110_1001011_0110001_000_1011_01011000011010111100001, .br fb),
   (0b000001_001_1_1001_101_110_1001011_0110001_000_1011_01011000011010111100001, .bc fb),
   (0b000001_010_1_1001_101_110_1001011_0110001_000_1011_01011000011010111100001, .call fb),
   (0b000001_011_1_1001_101_110_1001011_0110001_000_1011_01011000011010111100001, .ret fb),
   (0b000001_100_1_1001_101_110_1001011_0110001_000_1011_01011000011010111100001, .loop fb),
   (0b000001_101_1_1001_101_110_1001011_0110001_000_1011_01011000011010111100001, .jt fb),
   (0b000001_110_1_1001_101_110_1001011_0110001_000_1011_01011000011010111100001, .bsel fb),
   (0b000010_000_1_1001_101_110_1001011_0110001_0001110_01011000011010111100001, .halt fx),
   (0b000010_001_1_1001_101_110_1001011_0110001_0001110_01011000011010111100001, .trap fx),
   (0b000010_010_1_1001_101_110_1001011_0110001_0001110_01011000011010111100001, .sysc fx),
   (0b000011_000_1_1001_101_110_1001011_0110001_0001110_1010101_10011_01101_1_0_1010, .rdcr fr),
   (0b000011_001_1_1001_101_110_1001011_0110001_0001110_1010101_10011_01101_1_0_1010, .wrcr fr),
   (0b000011_010_1_1001_101_110_1001011_0110001_0001110_1010101_10011_01101_1_0_1010, .rdid fr),
   (0b000011_011_1_1001_101_110_1001011_0110001_0001110_1010101_10011_01101_1_0_1010, .rdtick fr),
   (0b000011_100_1_1001_101_110_1001011_0110001_0001110_1010101_10011_01101_1_0_1010, .rdgov fr),
   (0b000011_101_1_1001_101_110_1001011_0110001_0001110_1010101_10011_01101_1_0_1010, .rdctr fr),
   (0b000100_000_1_1001_101_110_1001011_0110001_0001110_01011000011010111100001, .fence fx),
   (0b000100_001_1_1001_101_110_1001011_0110001_0001110_01011000011010111100001, .mod fx),
   (0b000101_000_1_1001_101_110_1001011_0110001_0001110_01011000011010111100001, .bar fx),
   (0b000101_001_1_1001_101_110_1001011_0110001_0001110_01011000011010111100001, .flagwait fx),
   (0b000101_010_1_1001_101_110_1001011_0110001_0001110_01011000011010111100001, .evwait fx),
   (0b000101_011_1_1001_101_110_1001011_0110001_0001110_01011000011010111100001, .bcwait fx),
   (0b000101_100_1_1001_101_110_1001011_0110001_0001110_01011000011010111100001, .tkwait fx),
   (0b000101_101_1_1001_101_110_1001011_0110001_0001110_01011000011010111100001, .tkset fx),
   (0b000110_000_1_1001_101_110_1001011_0110001_0001110_1010101_10011_01101_1_0_1010, .stacq fr),
   (0b000110_001_1_1001_101_110_1001011_0110001_0001110_1010101_10011_01101_1_0_1010, .strel fr),
   (0b000110_010_1_1001_101_110_1001011_0110001_0001110_1010101_10011_01101_1_0_1010, .clease fr),
   (0b000110_011_1_1001_101_110_1001011_0110001_0001110_1010101_10011_01101_1_0_1010, .crel fr),
   (0b000111_000_1_1001_101_110_1001011_0110001_0001110_1010101_10011_01101_1_0_1010, .evpop fr),
   (0b000111_001_1_1001_101_110_1001011_0110001_0001110_1010101_10011_01101_1_0_1010, .evpeek fr)]
theorem test_control_words_decode : ∀ e ∈ controlWords, decodeSyl .c e.1 = .ok e.2 := by decide +kernel
/-- Class S, format FR. -/
def scalarRegisterWords : List (BitVec 64 × Instr) :=
  [(0b000001_000_1_1001_101_110_1001011_0110001_0001110_1010101_10011_01101_1_0_1010, .add .sa fr),
   (0b000001_001_1_1001_101_110_1001011_0110001_0001110_1010101_10011_01101_1_0_1010, .sub .sa fr),
   (0b000001_010_1_1001_101_110_1001011_0110001_0001110_1010101_10011_01101_1_0_1010, .and .sa fr),
   (0b000001_011_1_1001_101_110_1001011_0110001_0001110_1010101_10011_01101_1_0_1010, .or .sa fr),
   (0b000001_100_1_1001_101_110_1001011_0110001_0001110_1010101_10011_01101_1_0_1010, .xor .sa fr),
   (0b000001_101_1_1001_101_110_1001011_0110001_0001110_1010101_10011_01101_1_0_1010, .andn .sa fr),
   (0b000001_110_1_1001_101_110_1001011_0110001_0001110_1010101_10011_01101_1_0_1010, .min .sa fr),
   (0b000001_111_1_1001_101_110_1001011_0110001_0001110_1010101_10011_01101_1_0_1010, .max .sa fr),
   (0b000011_000_1_1001_101_110_1001011_0110001_0001110_1010101_10011_01101_1_0_1010, .minu .sa fr),
   (0b000011_001_1_1001_101_110_1001011_0110001_0001110_1010101_10011_01101_1_0_1010, .maxu .sa fr),
   (0b000011_010_1_1001_101_110_1001011_0110001_0001110_1010101_10011_01101_1_0_1010, .shl .sa fr),
   (0b000011_011_1_1001_101_110_1001011_0110001_0001110_1010101_10011_01101_1_0_1010, .shr .sa fr),
   (0b000011_100_1_1001_101_110_1001011_0110001_0001110_1010101_10011_01101_1_0_1010, .sar .sa fr),
   (0b000011_101_1_1001_101_110_1001011_0110001_0001110_1010101_10011_01101_1_0_1010, .rol .sa fr),
   (0b000011_110_1_1001_101_110_1001011_0110001_0001110_1010101_10011_01101_1_0_1010, .ror .sa fr),
   (0b000101_000_1_1001_101_110_1001011_0110001_0001110_1010101_10011_01101_1_0_1010, .mul .sa fr),
   (0b000101_001_1_1001_101_110_1001011_0110001_0001110_1010101_10011_01101_1_0_1010, .mulh .sa fr),
   (0b000101_010_1_1001_101_110_1001011_0110001_0001110_1010101_10011_01101_1_0_1010, .mulhu .sa fr),
   (0b000101_011_1_1001_101_110_1001011_0110001_0001110_1010101_10011_01101_1_0_1010, .div .sa fr),
   (0b000101_100_1_1001_101_110_1001011_0110001_0001110_1010101_10011_01101_1_0_1010, .divu .sa fr),
   (0b000101_101_1_1001_101_110_1001011_0110001_0001110_1010101_10011_01101_1_0_1010, .rem .sa fr),
   (0b000101_110_1_1001_101_110_1001011_0110001_0001110_1010101_10011_01101_1_0_1010, .remu .sa fr),
   (0b000111_000_1_1001_101_110_1001011_0110001_0001110_1010101_10011_01101_1_0_1010, .clz .sa fr),
   (0b000111_001_1_1001_101_110_1001011_0110001_0001110_1010101_10011_01101_1_0_1010, .ctz .sa fr),
   (0b000111_010_1_1001_101_110_1001011_0110001_0001110_1010101_10011_01101_1_0_1010, .popc .sa fr),
   (0b000111_011_1_1001_101_110_1001011_0110001_0001110_1010101_10011_01101_1_0_1010, .bswap .sa fr),
   (0b000111_110_1_1001_101_110_1001011_0110001_0001110_1010101_10011_01101_1_0_1010, .mov .sa fr),
   (0b000111_111_1_1001_101_110_1001011_0110001_0001110_1010101_10011_01101_1_0_1010, .movx .sa fr),
   (0b001001_000_1_1001_101_110_1001011_0110001_0001110_1010101_10011_01101_1_0_1010, .cmp .sa fr),
   (0b001001_001_1_1001_101_110_1001011_0110001_0001110_1010101_10011_01101_1_0_1010, .sel .sa fr),
   (0b001100_000_1_1001_101_110_1001011_0110001_0001110_1010101_10011_01101_1_0_1010, .fadd .sa fr),
   (0b001100_001_1_1001_101_110_1001011_0110001_0001110_1010101_10011_01101_1_0_1010, .fsub .sa fr),
   (0b001100_010_1_1001_101_110_1001011_0110001_0001110_1010101_10011_01101_1_0_1010, .fmul .sa fr),
   (0b001100_011_1_1001_101_110_1001011_0110001_0001110_1010101_10011_01101_1_0_1010, .ffma .sa fr),
   (0b001100_100_1_1001_101_110_1001011_0110001_0001110_1010101_10011_01101_1_0_1010, .fmin .sa fr),
   (0b001100_101_1_1001_101_110_1001011_0110001_0001110_1010101_10011_01101_1_0_1010, .fmax .sa fr),
   (0b001100_110_1_1001_101_110_1001011_0110001_0001110_1010101_10011_01101_1_0_1010, .fcmp .sa fr),
   (0b001100_111_1_1001_101_110_1001011_0110001_0001110_1010101_10011_01101_1_0_1010, .fcvt .sa fr),
   (0b001110_000_1_1001_101_110_1001011_0110001_0001110_1010101_10011_01101_1_0_1010, .fabs .sa fr),
   (0b001110_001_1_1001_101_110_1001011_0110001_0001110_1010101_10011_01101_1_0_1010, .fneg .sa fr)]
theorem test_scalarRegister_words_decode : ∀ e ∈ scalarRegisterWords, decodeSyl .sa e.1 = .ok e.2 := by decide +kernel
/-- Class S, format FI, and `madd`, in slot SB. -/
def scalarImmediateWords : List (BitVec 64 × Instr) :=
  [(0b000010_000_1_1001_101_110_1001011_0110001_10011_0_1_01011000011010111100001, .addI .sb fi),
   (0b000010_001_1_1001_101_110_1001011_0110001_10011_0_1_01011000011010111100001, .subI .sb fi),
   (0b000010_010_1_1001_101_110_1001011_0110001_10011_0_1_01011000011010111100001, .andI .sb fi),
   (0b000010_011_1_1001_101_110_1001011_0110001_10011_0_1_01011000011010111100001, .orI .sb fi),
   (0b000010_100_1_1001_101_110_1001011_0110001_10011_0_1_01011000011010111100001, .xorI .sb fi),
   (0b000010_101_1_1001_101_110_1001011_0110001_10011_0_1_01011000011010111100001, .andnI .sb fi),
   (0b000010_110_1_1001_101_110_1001011_0110001_10011_0_1_01011000011010111100001, .minI .sb fi),
   (0b000010_111_1_1001_101_110_1001011_0110001_10011_0_1_01011000011010111100001, .maxI .sb fi),
   (0b000100_000_1_1001_101_110_1001011_0110001_10011_0_1_01011000011010111100001, .minuI .sb fi),
   (0b000100_001_1_1001_101_110_1001011_0110001_10011_0_1_01011000011010111100001, .maxuI .sb fi),
   (0b000100_010_1_1001_101_110_1001011_0110001_10011_0_1_01011000011010111100001, .shlI .sb fi),
   (0b000100_011_1_1001_101_110_1001011_0110001_10011_0_1_01011000011010111100001, .shrI .sb fi),
   (0b000100_100_1_1001_101_110_1001011_0110001_10011_0_1_01011000011010111100001, .sarI .sb fi),
   (0b000100_101_1_1001_101_110_1001011_0110001_10011_0_1_01011000011010111100001, .rolI .sb fi),
   (0b000100_110_1_1001_101_110_1001011_0110001_10011_0_1_01011000011010111100001, .rorI .sb fi),
   (0b000110_000_1_1001_101_110_1001011_0110001_10011_0_1_01011000011010111100001, .mulI .sb fi),
   (0b000110_111_1_1001_101_110_1001011_0110001_10011_0_1_01011000011010111100001, .maddI .sb fi),
   (0b001000_000_1_1001_101_110_1001011_0110001_10011_0_1_01011000011010111100001, .ext .sb fi),
   (0b001000_001_1_1001_101_110_1001011_0110001_10011_0_1_01011000011010111100001, .ins .sb fi),
   (0b001010_000_1_1001_101_110_1001011_0110001_10011_0_1_01011000011010111100001, .cmpI .sb fi),
   (0b001011_000_1_1001_101_110_1001011_0110001_10011_0_1_01011000011010111100001, .li .sb fi),
   (0b001011_001_1_1001_101_110_1001011_0110001_10011_0_1_01011000011010111100001, .lih .sb fi),
   (0b001101_000_1_1001_101_110_1001011_0110001_10011_0_1_01011000011010111100001, .faddI .sb fi),
   (0b001101_001_1_1001_101_110_1001011_0110001_10011_0_1_01011000011010111100001, .fsubI .sb fi),
   (0b001101_010_1_1001_101_110_1001011_0110001_10011_0_1_01011000011010111100001, .fmulI .sb fi),
   (0b001101_100_1_1001_101_110_1001011_0110001_10011_0_1_01011000011010111100001, .fminI .sb fi),
   (0b001101_101_1_1001_101_110_1001011_0110001_10011_0_1_01011000011010111100001, .fmaxI .sb fi),
   (0b001101_110_1_1001_101_110_1001011_0110001_10011_0_1_01011000011010111100001, .fcmpI .sb fi),
   (0b000101_111_1_1001_101_110_1001011_0110001_0001110_1010101_10011_01101_1_0_1010, .madd .sb fr)]
theorem test_scalarImmediate_words_decode : ∀ e ∈ scalarImmediateWords, decodeSyl .sb e.1 = .ok e.2 := by decide +kernel
/-- Class V, format FR, in slot VA. -/
def tileRegisterWords : List (BitVec 64 × Instr) :=
  [(0b000001_000_1_1001_101_110_1001011_0110001_0001110_1010101_10011_01101_1_0_1010, .vadd .a fr),
   (0b000001_001_1_1001_101_110_1001011_0110001_0001110_1010101_10011_01101_1_0_1010, .vsub .a fr),
   (0b000001_010_1_1001_101_110_1001011_0110001_0001110_1010101_10011_01101_1_0_1010, .vmul .a fr),
   (0b000001_011_1_1001_101_110_1001011_0110001_0001110_1010101_10011_01101_1_0_1010, .vfma .a fr),
   (0b000001_100_1_1001_101_110_1001011_0110001_0001110_1010101_10011_01101_1_0_1010, .vmadd .a fr),
   (0b000001_101_1_1001_101_110_1001011_0110001_0001110_1010101_10011_01101_1_0_1010, .vmin .a fr),
   (0b000001_110_1_1001_101_110_1001011_0110001_0001110_1010101_10011_01101_1_0_1010, .vmax .a fr),
   (0b000001_111_1_1001_101_110_1001011_0110001_0001110_1010101_10011_01101_1_0_1010, .vdot4 .a fr),
   (0b000011_000_1_1001_101_110_1001011_0110001_0001110_1010101_10011_01101_1_0_1010, .vabs .a fr),
   (0b000011_001_1_1001_101_110_1001011_0110001_0001110_1010101_10011_01101_1_0_1010, .vneg .a fr),
   (0b000011_010_1_1001_101_110_1001011_0110001_0001110_1010101_10011_01101_1_0_1010, .vand .a fr),
   (0b000011_011_1_1001_101_110_1001011_0110001_0001110_1010101_10011_01101_1_0_1010, .vor .a fr),
   (0b000011_100_1_1001_101_110_1001011_0110001_0001110_1010101_10011_01101_1_0_1010, .vxor .a fr),
   (0b000011_101_1_1001_101_110_1001011_0110001_0001110_1010101_10011_01101_1_0_1010, .vnot .a fr),
   (0b000011_110_1_1001_101_110_1001011_0110001_0001110_1010101_10011_01101_1_0_1010, .vsel .a fr),
   (0b000011_111_1_1001_101_110_1001011_0110001_0001110_1010101_10011_01101_1_0_1010, .vcmp .a fr),
   (0b000101_000_1_1001_101_110_1001011_0110001_0001110_1010101_10011_01101_1_0_1010, .vshl .a fr),
   (0b000101_001_1_1001_101_110_1001011_0110001_0001110_1010101_10011_01101_1_0_1010, .vshr .a fr),
   (0b000101_010_1_1001_101_110_1001011_0110001_0001110_1010101_10011_01101_1_0_1010, .vsar .a fr),
   (0b000101_011_1_1001_101_110_1001011_0110001_0001110_1010101_10011_01101_1_0_1010, .vclmul .a fr),
   (0b000101_100_1_1001_101_110_1001011_0110001_0001110_1010101_10011_01101_1_0_1010, .vpopc .a fr),
   (0b000101_101_1_1001_101_110_1001011_0110001_0001110_1010101_10011_01101_1_0_1010, .vclz .a fr),
   (0b000111_000_1_1001_101_110_1001011_0110001_0001110_1010101_10011_01101_1_0_1010, .vcvt .a fr),
   (0b000111_001_1_1001_101_110_1001011_0110001_0001110_1010101_10011_01101_1_0_1010, .vwid .a fr),
   (0b000111_010_1_1001_101_110_1001011_0110001_0001110_1010101_10011_01101_1_0_1010, .vnar .a fr),
   (0b000111_011_1_1001_101_110_1001011_0110001_0001110_1010101_10011_01101_1_0_1010, .vsat .a fr),
   (0b000111_100_1_1001_101_110_1001011_0110001_0001110_1010101_10011_01101_1_0_1010, .vrnd .a fr),
   (0b000111_101_1_1001_101_110_1001011_0110001_0001110_1010101_10011_01101_1_0_1010, .vcbdec .a fr),
   (0b000111_110_1_1001_101_110_1001011_0110001_0001110_1010101_10011_01101_1_0_1010, .vscale .a fr),
   (0b001000_000_1_1001_101_110_1001011_0110001_0001110_1010101_10011_01101_1_0_1010, .vrcp .a fr),
   (0b001000_001_1_1001_101_110_1001011_0110001_0001110_1010101_10011_01101_1_0_1010, .vrsq .a fr),
   (0b001000_010_1_1001_101_110_1001011_0110001_0001110_1010101_10011_01101_1_0_1010, .vsqrt .a fr)]
theorem test_tileRegister_words_decode : ∀ e ∈ tileRegisterWords, decodeSyl .va e.1 = .ok e.2 := by decide +kernel
/-- Class V, the rest of format FR and format FI, in slot VB. -/
def tileOtherWords : List (BitVec 64 × Instr) :=
  [(0b001000_011_1_1001_101_110_1001011_0110001_0001110_1010101_10011_01101_1_0_1010, .vexp2 .b fr),
   (0b001000_100_1_1001_101_110_1001011_0110001_0001110_1010101_10011_01101_1_0_1010, .vlog2 .b fr),
   (0b001000_101_1_1001_101_110_1001011_0110001_0001110_1010101_10011_01101_1_0_1010, .vtanh .b fr),
   (0b001000_110_1_1001_101_110_1001011_0110001_0001110_1010101_10011_01101_1_0_1010, .vsig .b fr),
   (0b001001_000_1_1001_101_110_1001011_0110001_0001110_1010101_10011_01101_1_0_1010, .vredsum .b fr),
   (0b001001_001_1_1001_101_110_1001011_0110001_0001110_1010101_10011_01101_1_0_1010, .vredmax .b fr),
   (0b001001_010_1_1001_101_110_1001011_0110001_0001110_1010101_10011_01101_1_0_1010, .vredmin .b fr),
   (0b001010_000_1_1001_101_110_1001011_0110001_0001110_1010101_10011_01101_1_0_1010, .vperm .b fr),
   (0b001010_001_1_1001_101_110_1001011_0110001_0001110_1010101_10011_01101_1_0_1010, .vshuf .b fr),
   (0b001010_010_1_1001_101_110_1001011_0110001_0001110_1010101_10011_01101_1_0_1010, .vbcast .b fr),
   (0b001010_011_1_1001_101_110_1001011_0110001_0001110_1010101_10011_01101_1_0_1010, .vext .b fr),
   (0b001010_100_1_1001_101_110_1001011_0110001_0001110_1010101_10011_01101_1_0_1010, .vtrn .b fr),
   (0b001011_000_1_1001_101_110_1001011_0110001_0001110_1010101_10011_01101_1_0_1010, .xcp .b fr),
   (0b001100_010_1_1001_101_110_1001011_0110001_0001110_1010101_10011_01101_1_0_1010, .vandM .b fr),
   (0b001100_011_1_1001_101_110_1001011_0110001_0001110_1010101_10011_01101_1_0_1010, .vorM .b fr),
   (0b001100_100_1_1001_101_110_1001011_0110001_0001110_1010101_10011_01101_1_0_1010, .vxorM .b fr),
   (0b001100_101_1_1001_101_110_1001011_0110001_0001110_1010101_10011_01101_1_0_1010, .vnotM .b fr),
   (0b000010_000_1_1001_101_110_1001011_0110001_10011_0_1_01011000011010111100001, .vaddI .b fi),
   (0b000010_001_1_1001_101_110_1001011_0110001_10011_0_1_01011000011010111100001, .vsubI .b fi),
   (0b000010_010_1_1001_101_110_1001011_0110001_10011_0_1_01011000011010111100001, .vmulI .b fi),
   (0b000010_101_1_1001_101_110_1001011_0110001_10011_0_1_01011000011010111100001, .vminI .b fi),
   (0b000010_110_1_1001_101_110_1001011_0110001_10011_0_1_01011000011010111100001, .vmaxI .b fi),
   (0b000100_010_1_1001_101_110_1001011_0110001_10011_0_1_01011000011010111100001, .vandI .b fi),
   (0b000100_011_1_1001_101_110_1001011_0110001_10011_0_1_01011000011010111100001, .vorI .b fi),
   (0b000100_100_1_1001_101_110_1001011_0110001_10011_0_1_01011000011010111100001, .vxorI .b fi),
   (0b000100_111_1_1001_101_110_1001011_0110001_10011_0_1_01011000011010111100001, .vcmpI .b fi),
   (0b000110_000_1_1001_101_110_1001011_0110001_10011_0_1_01011000011010111100001, .vshlI .b fi),
   (0b000110_001_1_1001_101_110_1001011_0110001_10011_0_1_01011000011010111100001, .vshrI .b fi),
   (0b000110_010_1_1001_101_110_1001011_0110001_10011_0_1_01011000011010111100001, .vsarI .b fi)]
theorem test_tileOther_words_decode : ∀ e ∈ tileOtherWords, decodeSyl .vb e.1 = .ok e.2 := by decide +kernel
/-- Class E. -/
def engineWords : List (BitVec 64 × Instr) :=
  [(0b000001_000_1_1001_101_110_1001011_0110001_0001110_10101000110101_10011_0000, .ldS fm),
   (0b000001_001_1_1001_101_110_1001011_0110001_0001110_10101000110101_10011_0000, .ldT fm),
   (0b000010_000_1_1001_101_110_1001011_0110001_0001110_10101000110101_10011_0000, .stS fm),
   (0b000010_001_1_1001_101_110_1001011_0110001_0001110_10101000110101_10011_0000, .stT fm),
   (0b000011_000_1_1001_101_110_1001011_0110001_0001110_10101_01011_11100_00110_011, .ldx fe),
   (0b000011_001_1_1001_101_110_1001011_0110001_0001110_10101_01011_11100_00110_011, .stx fe),
   (0b000011_010_1_1001_101_110_1001011_0110001_0001110_10101_01011_11100_00110_011, .stxAdd fe),
   (0b000100_000_1_1001_101_110_1001011_0110001_0001110_10101_01011_11100_00110_011, .dcopy fe),
   (0b000100_001_1_1001_101_110_1001011_0110001_0001110_10101_01011_11100_00110_011, .dcopyCsum fe),
   (0b000101_000_1_1001_101_110_1001011_0110001_0001110_10101_01011_11100_00110_011, .rst fe),
   (0b000101_001_1_1001_101_110_1001011_0110001_0001110_10101_01011_11100_00110_011, .rld fe),
   (0b000110_000_1_1001_101_110_1001011_0110001_0001110_10101_01011_11100_00110_011, .amoAdd fe),
   (0b000110_001_1_1001_101_110_1001011_0110001_0001110_10101_01011_11100_00110_011, .amoAnd fe),
   (0b000110_010_1_1001_101_110_1001011_0110001_0001110_10101_01011_11100_00110_011, .amoOr fe),
   (0b000110_011_1_1001_101_110_1001011_0110001_0001110_10101_01011_11100_00110_011, .amoXor fe),
   (0b000110_100_1_1001_101_110_1001011_0110001_0001110_10101_01011_11100_00110_011, .amoMin fe),
   (0b000110_101_1_1001_101_110_1001011_0110001_0001110_10101_01011_11100_00110_011, .amoMax fe),
   (0b000110_110_1_1001_101_110_1001011_0110001_0001110_10101_01011_11100_00110_011, .amoSwap fe),
   (0b000110_111_1_1001_101_110_1001011_0110001_0001110_10101_01011_11100_00110_011, .amoCas fe),
   (0b000111_000_1_1001_101_110_1001011_0110001_0001110_10101_01011_11100_00110_011, .redAdd fe),
   (0b000111_001_1_1001_101_110_1001011_0110001_0001110_10101_01011_11100_00110_011, .redAnd fe),
   (0b000111_010_1_1001_101_110_1001011_0110001_0001110_10101_01011_11100_00110_011, .redOr fe),
   (0b000111_011_1_1001_101_110_1001011_0110001_0001110_10101_01011_11100_00110_011, .redXor fe),
   (0b000111_100_1_1001_101_110_1001011_0110001_0001110_10101_01011_11100_00110_011, .redMin fe),
   (0b000111_101_1_1001_101_110_1001011_0110001_0001110_10101_01011_11100_00110_011, .redMax fe),
   (0b000111_110_1_1001_101_110_1001011_0110001_0001110_10101_01011_11100_00110_011, .redFadd fe),
   (0b001000_000_1_1001_101_110_1001011_0110001_0001110_10101_01011_11100_00110_011, .kalloc fe),
   (0b001000_001_1_1001_101_110_1001011_0110001_0001110_10101_01011_11100_00110_011, .kallocM fe),
   (0b001000_010_1_1001_101_110_1001011_0110001_0001110_10101_01011_11100_00110_011, .kfree fe),
   (0b001000_011_1_1001_101_110_1001011_0110001_0001110_10101_01011_11100_00110_011, .kquery fe),
   (0b001001_000_1_1001_101_110_1001011_0110001_0001110_10101_01011_11100_00110_011, .tacq fe),
   (0b001001_001_1_1001_101_110_1001011_0110001_0001110_10101_01011_11100_00110_011, .trel fe),
   (0b001010_000_1_1001_101_110_1001011_0110001_0001110_10101_01011_11100_00110_011, .sbind fe),
   (0b001010_001_1_1001_101_110_1001011_0110001_0001110_10101_01011_11100_00110_011, .sunbind fe),
   (0b001010_010_1_1001_101_110_1001011_0110001_0001110_10101_01011_11100_00110_011, .sstat fe),
   (0b001011_000_1_1001_101_110_1001011_0110001_0001110_10101_01011_11100_00110_011, .cspush fe),
   (0b001011_001_1_1001_101_110_1001011_0110001_0001110_10101_01011_11100_00110_011, .cspop fe),
   (0b001100_000_1_1001_101_110_1001011_0110001_0001110_10101_01011_11100_00110_011, .cmm fe),
   (0b001100_001_1_1001_101_110_1001011_0110001_0001110_10101_01011_11100_00110_011, .cmmz fe),
   (0b001100_010_1_1001_101_110_1001011_0110001_0001110_10101_01011_11100_00110_011, .cconv fe),
   (0b001100_011_1_1001_101_110_1001011_0110001_0001110_10101_01011_11100_00110_011, .cplane fe),
   (0b001100_100_1_1001_101_110_1001011_0110001_0001110_10101_01011_11100_00110_011, .csmeta fe),
   (0b001101_000_1_1001_101_110_1001011_0110001_0001110_10101_01011_11100_00110_011, .cfill fe),
   (0b001101_001_1_1001_101_110_1001011_0110001_0001110_10101_01011_11100_00110_011, .cswap fe),
   (0b001101_010_1_1001_101_110_1001011_0110001_0001110_10101_01011_11100_00110_011, .crdacc fe),
   (0b001101_011_1_1001_101_110_1001011_0110001_0001110_10101_01011_11100_00110_011, .cwracc fe),
   (0b001101_100_1_1001_101_110_1001011_0110001_0001110_10101_01011_11100_00110_011, .cdrain fe),
   (0b001110_000_1_1001_101_110_1001011_0110001_0001110_10101_01011_11100_00110_011, .ckat fe),
   (0b001110_001_1_1001_101_110_1001011_0110001_0001110_10101_01011_11100_00110_011, .cseq fe),
   (0b001110_010_1_1001_101_110_1001011_0110001_0001110_10101_01011_11100_00110_011, .cstat fe),
   (0b001110_011_1_1001_101_110_1001011_0110001_0001110_10101_01011_11100_00110_011, .cbist fe),
   (0b001111_000_1_1001_101_110_1001011_0110001_0001110_10101_01011_11100_00110_011, .trigArm fe),
   (0b001111_001_1_1001_101_110_1001011_0110001_0001110_10101_01011_11100_00110_011, .trigCancel fe),
   (0b001111_010_1_1001_101_110_1001011_0110001_0001110_10101_01011_11100_00110_011, .bcarm fe)]
theorem test_engine_words_decode : ∀ e ∈ engineWords, decodeSyl .e e.1 = .ok e.2 := by decide +kernel

/-- R118: an OP, an F3 or a reserved bit that the maps do not list. -/
theorem test_reserved_words : decodeSyl .c 0x2000000000000000 = .error .badOp ∧ decodeSyl .sa 0x0880000000000000 ≠ .error .badOp ∧
    decodeSyl .sa 0x1A00000000000000 = .error .badOp ∧ decodeSyl .va 0x4000000000000000 = .error .badOp ∧
    decodeSyl .e 0x4000000000000000 = .error .badOp ∧ decodeSyl .c 0x0400000008000000 = .error .badField ∧
    decodeSyl .e 0x0400000000000001 = .error .badField ∧ decodeSyl .e 1 = .error .badField := by decide +kernel

/-- The worked encodings of chapters 04, 05, 06, 07, 11, 17 and 18. -/
theorem test_worked_encodings :
    decodeSyl .c 0x1080000000045003 = .ok (.mod { fx0 with imm := 0x45003 }) ∧
    decodeSyl .e 0x048000A100000420 = .ok (.ldT { fm0 with d := 5, a := 4, disp := 2, ty := 2 }) ∧
    decodeSyl .va 0x0800006044000005 = .ok (.vaddI .a { fi0 with d := 3, a := 1, ty := 2, imm := 5 }) ∧
    decodeSyl .va 0x0580A14041038000 = .ok (.vfma .a { fr0 with sh := 1, msk := 2, d := 10, a := 1, b := 2, c := 3, ty := 0x10 }) ∧
    decodeSyl .sa 0x0400006041004000 = .ok (.add .sa { fr0 with d := 3, a := 1, b := 2, ty := 8 }) ∧
    decodeSyl .sa 0x2C4000A0102BCDEF = .ok (.li .sa { fi0 with v := true, d := 5, ty := 8, imm := 0x2BCDEF }) ∧
    decodeSyl .va 0x0F810061C4008002 = .ok (.vcmp .a { fr0 with sh := 2, d := 3, a := 7, b := 8, ty := 0x10, xmod := 2 }) ∧
    decodeSyl .va 0x138008210C000064 = .ok (.vcmpI .a { fi0 with d := 0x41, a := 4, ty := 6, imm := 0x64 }) ∧
    decodeSyl .e 0x2C01804240902001 = .ok (.cspush { fe0 with sh := 3, d := 2, a := 9, b := 1, tko := 4, tka := 1, ntk := 1 }) ∧
    decodeSyl .e 0x3001804180142202 = .ok (.cmm { fe0 with sh := 3, d := 2, a := 6, tko := 5, tka := 1, tkb := 2, ntk := 2 }) ∧
    decodeSyl .e 0x350040E2450C0000 = .ok (.crdacc { fe0 with msk := 4, d := 7, a := 9, b := 10, tko := 3 }) ∧
    decodeSyl .c 0x1000000000140006 = .ok (.fence { fx0 with imm := 0x140006 }) ∧
    decodeSyl .c 0x10400000001DFFFF = .ok (.fence { fx0 with v := true, imm := 0x1DFFFF }) ∧
    decodeSyl .c 0x10000060002B0001 = .ok (.fence { fx0 with d := 3, imm := 0x2B0001 }) ∧
    decodeSyl .e 0x308100844020E001 = .ok (.cmmz { fe0 with sh := 2, d := 4, a := 17, tko := 8, tka := 7, ntk := 1 }) ∧
    decodeSyl .e 0x3600002440240000 = .ok (.cdrain { fe0 with d := 1, a := 17, tko := 9 }) ∧
    decodeSyl .e 0x200003C0819C0000 = .ok (.kalloc { fe0 with d := 30, a := 2, b := 3, tko := 7 }) ∧
    decodeSyl .e 0x108001E4088C4001 = .ok (.dcopyCsum { fe0 with d := 15, a := 16, b := 17, tko := 3, tka := 2, ntk := 1 }) ∧
    decodeSyl .e 0x2800802141880000 = .ok (.sbind { fe0 with sh := 1, d := 1, a := 5, b := 3, tko := 2 }) ∧
    decodeSyl .va 0x24018080C0008400 = .ok (.vredsum .a { fr0 with sh := 3, d := 4, a := 3, ty := 0x10, ty2 := 0x10 }) := by decide +kernel

/-- Chapter 04: the bundle of `mod` and `ld.t`, as 384 bits. -/
theorem test_worked_bundle :
    encodeBundle [.mod { fx0 with imm := 0x45003 }, .nop .sa, .nop .sb, .nop .va, .nop .vb, .ldT { fm0 with d := 5, a := 4, disp := 2, ty := 2 }] =
      0x1080000000045003 + 0x048000A100000420 * 2 ^ 320 := by decide +kernel
/-- R116: the all-zero bundle is six `nop`. -/
theorem test_nop_bundle : decodeTableWord 384 0 = some (.nop .c) := by decide +kernel

/-! ### Numbers (R83-R94) -/

/-- The worked conversions of chapter 03. -/
theorem test_worked_conversions :
    convert 0x0F 0x10 false false 0x3F808000 = 0x3F80 ∧ convert 0x0F 0x10 false false 0x3F818000 = 0x3F82 ∧
    convert 0x0F 0x10 true false 0x3F818000 = 0x3F81 ∧ convert 0x0C 0x10 false false 0x43960000 = 0x79 ∧
    convert 0x0C 0x10 false false 0x3A83126F = 0x01 ∧ convert 0x0C 0x10 false false 0x447A0000 = 0x7F ∧
    convert 0x0C 0x10 false true 0x447A0000 = 0x7E ∧ convert 0x0C 0x10 false false 0x43E80000 = 0x7E ∧
    convert 2 0x0E false false 0xFC00 = 0x80 ∧ convert 4 0x10 false false 0xC0200000 = 0xFFFE ∧
    convert 2 4 false false 0x0180 = 0x80 ∧ convert 2 4 false true 0x0180 = 0x7F ∧ convert 0x10 6 false false 16777217 = 0x4B800000 ∧
    convert 0x0A 0x0F false false 0x4020 = 0x4 := by decide +kernel
/-- R94: BF16 65,536 as an FP16 immediate is +∞. -/
theorem test_immediate : bfImm 0x0E 0x4780 = 0x7C00 := by decide +kernel

/-! ### Single steps -/

/-- Context 0 of quad 0 with scalar registers `l`. -/
def withS (l : List (Nat × Word)) : State := { State.reset with ctxs := [(0, { state := 1, sreg := l })] }
/-- The bundle's results: file, register, value, enables, latency. -/
def results : Host.Outcome State Fault Refusal → List (RegId × Tile × Tile × Nat)
  | .next t => t.issue.results.map fun e => (e.reg, e.val, e.en, e.due - t.tick)
  | _ => []
/-- One scalar result, whole, within `n` ticks. -/
def scalar (d : Nat) (v : Word) (n : Nat) : List (RegId × Tile × Tile × Nat) := [(⟨.s, d⟩, v.setWidth 4096, allBits 64, n)]
def fr3 (ty : BitVec 5) : FR := { fr0 with ty := ty, d := 3, a := 1, b := 2 }

/-- R93, R129: a sum wraps at the width of TYPE and is extended by its sign; under `.sat` it clamps. -/
theorem test_add : results (exec (.add .sa (fr3 2)) (withS [(1, 127), (2, 1)])) = scalar 3 0xFFFFFFFFFFFFFF80 1 ∧
    results (exec (.add .sb { fr3 2 with sat := true }) (withS [(1, 127), (2, 1)])) = scalar 3 127 1 := by decide +kernel
/-- R131: the high half of −1 times −1 is 0 signed; 2^64 − 2 unsigned. -/
theorem test_mulh : results (exec (.mulh .sa (fr3 8)) (withS [(1, -1), (2, -1)])) = scalar 3 0 4 ∧
    results (exec (.mulhu .sa (fr3 9)) (withS [(1, -1), (2, -1)])) = scalar 3 0xFFFFFFFFFFFFFFFE 4 := by decide +kernel
/-- R132: division truncates towards zero; by zero it gives all ones, and the remainder the dividend. -/
theorem test_div : results (exec (.div .sa (fr3 8)) (withS [(1, -7), (2, 2)])) = scalar 3 (-3) 24 ∧
    results (exec (.div .sa (fr3 8)) (withS [(1, 7)])) = scalar 3 (-1) 24 ∧
    results (exec (.rem .sa (fr3 8)) (withS [(1, -7), (2, 2)])) = scalar 3 (-1) 24 := by decide +kernel
/-- R133: a shift by the width or more gives 0, or copies of the sign. -/
theorem test_shifts : results (exec (.shl .sa (fr3 2)) (withS [(1, 0x81), (2, 8)])) = scalar 3 0 1 ∧
    results (exec (.sar .sa (fr3 2)) (withS [(1, 0x81), (2, 8)])) = scalar 3 (-1) 1 ∧
    results (exec (.ror .sa (fr3 3)) (withS [(1, 0x81), (2, 1)])) = scalar 3 0xC0 1 := by decide +kernel
/-- R134: the byte swap of a signed type is extended by its new sign. -/
theorem test_bswap : results (exec (.bswap .sa (fr3 4)) (withS [(1, 0x1280)])) = scalar 3 0xFFFFFFFFFFFF8012 1 := by decide +kernel
/-- R48: s0 discards a result. -/
theorem test_s0_discards : results (exec (.add .sa { fr3 8 with d := 0 }) (withS [(1, 1)])) = [] := by decide +kernel
/-- R50: an indirect specifier names s[x1 + 2]. -/
theorem test_indirect : (withS []).spec 64 0x4A = 2 ∧
    ({ withS [] with ctxs := [(0, { state := 1, xreg := [(1, 63)] })] } : State).spec 64 0x4A = 1 := by decide +kernel
/-- R139: 1.5 + 2.25 = 3.75 in FP32. -/
theorem test_fadd : results (exec (.fadd .sa (fr3 0x10)) (withS [(1, 0x3FC00000), (2, 0x40100000)])) = scalar 3 0x40700000 4 := by decide +kernel
/-- R148: `trap` 5 writes FAULTPT and stops the context. -/
theorem test_trap : (match exec (.trap { fx0 with imm := 5 }) (withS []) with
    | .next t => (t.me.faultpt, t.me.state, t.me.pc, t.dealer.notes.length) | _ => (0, 0, 0, 0)) = (0x100C00000005, 3, 0, 1) := by decide +kernel
/-- R156, R160: an element of a tile is summed by itself: 0xFF + 1 wraps and carries nowhere. -/
theorem test_vadd : (match exec (.vaddI .a { fi0 with ty := 3, d := 8, imm := 1 }) { withS [] with ctxs := [(0, { state := 1, va := [(0, 0xFFFF)] })] } with
    | .next t => t.issue.results.map fun e => (e.reg, e.val.extractLsb' 0 32, e.en = allBits 4096) | _ => []) =
      [(⟨.va, 8⟩, 0x01010000, true)] := by decide +kernel
/-- R163, worked in chapter 06: `vdot4` wraps or clamps. -/
theorem test_vdot4 :
    let a : Nat := 0x80 + 127 * 2 ^ 8 + 3 * 2 ^ 16
    let b : Nat := 0x80 + 255 * 2 ^ 8 + 5 * 2 ^ 16 + 9 * 2 ^ 24
    let term := fun j => intDecode 2 (a >>> (8 * j) % 256) * intDecode 2 (b >>> (8 * j) % 256)
    let e := 2147483000 + (term 0 + term 1 + term 2 + term 3)
    intResult 6 false e = 2 ^ 32 - 2147468024 ∧ intResult 6 true e = 2147483647 := by decide +kernel
/-- R3, R275: the bytes of a load are little-endian, and a signed type extends them. -/
theorem test_leRead : leRead [(0x10, 0x34), (0x11, 0x82)] 0x10 2 = 0x8234 ∧ leRead (leWrite [] 0x10 0x8234 2) 0x10 2 = 0x8234 ∧
    leWrite [(0x10, 7)] 0x10 0 1 = [] := by decide +kernel
/-- R21, R34: with nothing to do a step ends the tick. -/
theorem test_tick : (match step State.reset with | .next t => t.tick | _ => 0) = 1 := by decide +kernel
/-- R34, R108, R116: the bundle of six `nop`, placed as a literal, issues first and PC moves past its 25 halfwords. -/
theorem test_first_bundle : (match step (State.reset.withFetchWord 384 0) with | .next t => (t.ctx 0).pc | _ => 0) = 25 := by decide +kernel

/-! ### States that meet the hypotheses of the statements

Each theorem takes the statement's clauses in order. -/

/-- R55: a vector half of `r` rows and `c` columns, all valid. -/
def half (r c : Nat) : ShapeReg := BitVec.ofNat 128 (r + c * 2 ^ 11 + r * 2 ^ 22 + c * 2 ^ 33)
/-- sh1, sh2 and sh3 count a tile of 16, of 32 and of 4 bits; the reset shape one of 8. -/
def shaped : State := { State.reset with ctxs := [(0, { state := 1, sreg := [(1, 5)], sh := [(1, half 16 16), (2, half 8 16), (3, half 32 32)] })] }
def one (i : Instr) (s : State := shaped) : Bool := s.operandsReady i

theorem meets_ScalarIntegerForms :
    (scalarInt 2 ∧ scalarInt 9 ∧ ∀ ty ∈ [(2 : BitVec 5), 9], ∀ e ∈ intFR .sa (fr3 ty), one e.1) ∧
    (∀ e ∈ intFI .sb { fi0 with ty := 9, d := 3, a := 1, v := true, imm := -1 }, one e.1) ∧
    one (.madd .sb { fr3 8 with c := 3 }) ∧ one (.maddI .sb { fi0 with ty := 8, d := 3, a := 1, imm := 7 }) := by decide +kernel
theorem meets_ShiftsAndBitCounts :
    (∀ e ∈ shiftsFR .sa (fr3 2), one e.1) ∧ (∀ e ∈ shiftsFI .sa { fi0 with ty := 9, d := 3, a := 1, imm := 64 }, one e.1) ∧
    ∀ i ∈ [Instr.clz .sa (fr3 9), .ctz .sa (fr3 9), .popc .sa (fr3 2), .bswap .sa (fr3 4)], one i := by decide +kernel
theorem meets_ScalarMovesAndFields :
    one (.mov .sa (fr3 0)) ∧ one (.movx .sa { fr3 0 with v := true }) ∧ one (.movx .sa { fr3 0 with d := 7 }) ∧ one (.sel .sa (fr3 0)) ∧
    one (.li .sa { fi0 with ty := 8, d := 3, imm := -1 }) ∧
    (∀ n ∈ [0xFC0, 63], bits n 5 0 + (bits n 11 6 + 1) ≤ 64 ∧ one (.ext .sa { fi0 with ty := 8, d := 3, a := 1, imm := BitVec.ofNat 23 n }) ∧
      one (.ins .sa { fi0 with ty := 8, d := 3, a := 1, imm := BitVec.ofNat 23 n })) ∧
    ∀ n ∈ [0x1FFFFF, 0x200000], bits n 22 21 < 2 ∧ one (.lih .sa { fi0 with ty := 8, d := 3, a := 1, imm := BitVec.ofNat 23 n }) := by
  decide +kernel
theorem meets_ScalarCompares :
    (∀ c ∈ [(0 : BitVec 4), 1, 2, 3, 4, 5], one (.cmp .sa { fr3 9 with xmod := c })) ∧ one (.cmpI .sa { fi0 with ty := 2, d := 3, a := 1, imm := -1 }) := by
  decide +kernel
theorem meets_ScalarFloatingPoint :
    (∀ e ∈ floatFR .sa { fr3 0x10 with xmod := 7 }, one e.1) ∧ (∀ e ∈ floatFI .sa { fi0 with ty := 0x10, f := true, d := 3, a := 1 }, one e.1) ∧
    ∀ i ∈ [Instr.ffma .sa (fr3 0x10), .fcvt .sa { fr3 0x10 with ty2 := 9 }, .fabs .sa (fr3 0x10), .fneg .sa (fr3 0x10)], one i := by decide +kernel

/-- A tile instruction of type `ty` under shape `sh`, with destination 8. -/
def tile3 (ty : BitVec 5) (sh : BitVec 3) : FR := { fr0 with ty := ty, sh := sh, d := 8, a := 1, b := 2, c := 3 }
theorem meets_ElementwiseTiles :
    (∀ o ∈ [tile3 0 3, tile3 2 0, tile3 0x0F 1, { tile3 0x10 2 with msk := 7 }], shapeFits shaped o.sh (fmtWidth o.ty) ∧
      (∀ e ∈ tiles1 .a o, one e.1) ∧ (∀ e ∈ tiles2 .b o, one e.1) ∧ ∀ e ∈ tiles3 .a o, one e.1) ∧
    shapeFits shaped 0 8 ∧ ∀ e ∈ tilesI .b { fi0 with ty := 2, d := 8, a := 1, imm := 5 }, one e.1 := by decide +kernel
theorem meets_DotSelectAndClmul :
    shapeFits shaped 2 (fmtWidth 6) ∧ one (.vdot4 .a { tile3 6 2 with ty2 := 2 }) ∧ one (.vsel .b { tile3 6 2 with xmod := 7 }) ∧
    one (.vclmul .a (tile3 7 2)) ∧ one (.vclmul .b { tile3 7 2 with pair := true }) := by decide +kernel
theorem meets_TileCompares :
    shapeFits shaped 0 8 ∧ fmtWidth 2 ≠ 0 ∧ one (.vcmp .a { tile3 2 0 with d := 7 }) ∧ one (.vcmpI .b { fi0 with ty := 2, d := 0x57, a := 1 }) := by
  decide +kernel
theorem meets_Conversions :
    (∀ e ∈ conversions .a { tile3 0x0F 1 with ty2 := 0x0E }, one e.1) ∧ shapeFits shaped 1 16 ∧
    (∀ e ∈ conversions .a { tile3 4 0 with ty2 := 2 }, one e.1) ∧ fmtWidth 2 < fmtWidth 4 ∧ shapeFits shaped 0 8 ∧ wideAligned false 2 8 = true ∧
    (∀ e ∈ conversions .b { tile3 2 0 with ty2 := 6, a := 4 }, one e.1) ∧ fmtWidth 2 < fmtWidth 6 ∧ wideAligned false 4 4 = true ∧
    shared .b false = .b ∧
    (∀ e ∈ conversions .b { tile3 2 0 with ty2 := 4, pair := true }, one e.1) ∧ wideAligned true 2 1 = true ∧ Cl.b ≠ shared .b true := by
  decide +kernel
theorem meets_DecodeAndScale :
    (shapeFits shaped 3 4 ∧ shaped.spec 64 8 % 4 = 0 ∧ one (.vcbdec .a { tile3 0x0F 3 with ty2 := 0x0B, xmod := 15 })) ∧
    (shapeFits shaped 1 16 ∧ one (.vscale .b { tile3 0x0F 1 with ty2 := 0x0F })) ∧
    one (.vscale .a { tile3 0x10 1 with ty2 := 0x0F, xmod := 3 }) ∧ shaped.spec 64 8 % 2 = 0 := by decide +kernel
theorem meets_Reductions :
    ∀ x ∈ [(0 : BitVec 4), 1, 2], (∀ e ∈ reductions .a { tile3 2 0 with ty2 := 2, xmod := x }, one e.1) ∧ shapeFits shaped 0 8 ∧
      ((vshape (shaped.readSh 0)).groups x.toNat).length ≤ 4096 / 8 := by decide +kernel
theorem meets_Permutes :
    (∀ e ∈ permutes shaped .a { tile3 3 0 with xmod := 1 }, one e.1) ∧ (∀ e ∈ permutes shaped .b { tile3 3 0 with pair := true }, one e.1) ∧
    shapeFits shaped 0 8 := by decide +kernel
theorem meets_ClusterCopiesAndMaskForms :
    one (.xcp .a (tile3 0 0)) ∧ one (.xcp .b (tile3 0 0)) ∧ ∀ e ∈ maskForms .b { fr0 with d := 7, a := 1, b := 2 }, one e.1 := by decide +kernel
theorem meets_WrongShapeFaults :
    ¬ shapeFits shaped 0 (fmtWidth 0x10) ∧
    ∀ i ∈ (tiles1 .a (tile3 0x10 0)).map (·.1) ++ (permutes shaped .a (tile3 0x10 0)).map (·.1), one i := by decide +kernel

/-- Two empty bundles at offsets 0 and 1, and a bucket table. -/
def coded : State :=
  { shaped with cores := [(0, { image := some { stream := [0, 0], interior := [false, false], buckets := [[(4, 1), (5, 1)]] } })] }
theorem meets_Transfers :
    (isTarget coded (relative coded 1) ∧ ∀ i ∈ [Instr.br { fb0 with off := 1 }, .call { fb0 with off := 1, d := 7 }], one i coded) ∧
    (∀ c ∈ [(0 : BitVec 4), 1, 2, 3, 4, 5], one (.bc { fb0 with off := 1, a := 1, cond := c }) coded) ∧
    (isTarget coded (coded.rs 0).toNat ∧ one (.ret fb0) coded) ∧
    (¬ isTarget coded (relative coded (-1)) ∧ ∀ i ∈ [Instr.br { fb0 with off := -1 }, .call { fb0 with off := -1 }], one i coded) ∧
    ¬ isTarget coded (coded.rs 1).toNat ∧ one (.ret { fb0 with a := 1 }) coded := by decide +kernel
theorem meets_LoopsAndTables :
    (isTarget coded (relative coded 1) ∧ isTarget coded 1 ∧ (coded.rs 0).toNat = 0 ∧ (coded.rs 1).toNat = 5 ∧
      one (.loop { fb0 with off := 1, d := 1, a := 1 }) coded) ∧
    (isTarget coded ((coded.me.pc : Int) + ((coded.readS 2).setWidth 32).toInt) ∧ one (.jt { fb0 with d := 2, a := 0 }) coded) ∧
    (5 > (0 : BitVec 4).toNat ∧ one (.jt { fb0 with d := 2, a := 1, off := 1 }) coded) ∧
    ∃ i, coded.image coded.cur = some i ∧ ((i.buckets.getD 0 []).find? fun e => (coded.rs 1).toNat ≤ e.1) = some (5, 1) ∧ isTarget coded 1 ∧
      one (.bsel { fb0 with d := 7, a := 1, cond := 2 }) coded := by
  refine ⟨by decide +kernel, by decide +kernel, by decide +kernel, _, rfl, by decide +kernel, by decide +kernel, by decide +kernel⟩

/-- A context with a bound stream, four requests, a pending token and an event record; stage 15 of its tower is its own. -/
def busy : State :=
  { State.reset with
    ctxs := [(0, { state := 1, sreg := [(1, 15)], st := [(7, { bound := true, token := 31 })], sysc := List.replicate 4 { seq := 0, service := 0, arg0 := 0, arg1 := 0 },
                   tk := [(3, { st := .pending }), (4, { st := .doneErr })], evq := [{ kind := 1 }], arrivals := [(7, some 2)], launch := some 1 })]
    towers := [(0, { deck := [(15, { buflen := 64, full := true, owned := true })] })]
    bars := [(0, { owned := true, launch := 1 }), (7, { gen := 2 })]
    wq := [{ n := 0, g := 0, vf := 0, pa := 0, mods := {}, op := .increment 0, due := 0 }]
    cores := [(0, { remq := [{ instr := .rld fe0 }] })]
    quads := [(0, { lease := { holder := some 0 } })] }
/-- The same without the pending token and the accesses; stage 15 is free. -/
def calm : State :=
  { busy with
    ctxs := busy.ctxs.map fun e => (e.1, { e.2 with tk := [(4, { st := .doneErr })], sysc := [] })
    towers := [(0, { deck := [(15, { buflen := 64, full := true })] })]
    bars := [(0, { owned := true, launch := 1 }), (7, { gen := 3 })]
    wq := [], cores := [], quads := [(0, {})] }
/-- A launch of one phase, RIGID or not, of VF 0 from queue 0. -/
def launch1 (elastic : Bool) : Launch :=
  { id := 1, q := 0, ix := 0, vf := 0, args := 0, towers := 1, phases := [{ elastic := elastic, engines := [], leases := [], tricks := [], decks := [], sets := [] }],
    spares := [], tags := [] }
/-- `busy`, in a phase, with a lease. -/
def ruled (elastic : Bool) (l : Lease) : State :=
  { busy with dealer := { launches := [launch1 elastic] }, quads := [(0, { lease := l })] }
theorem meets_HaltEndsTheKernel :
    calm.me.haltWaits = false ∧ one (.halt fx0) calm ∧ (calm.me.stream 7).bound = true ∧ (tget {} (calm.tower 0).deck 15).buflen ≠ 0 ∧
    ({ busy with ctxs := calm.ctxs } : State).me.haltWaits = false ∧ (tget {} (busy.tower 0).deck 15).owned = true ∧
    (tget {} (busy.tower 0).deck 15).owner = busy.cur := by decide +kernel
theorem meets_TrapTakesItsFault : one (.trap { fx0 with imm := 0xFFFF }) := by decide +kernel
theorem meets_SystemCallsPostRequests :
    one (.sysc { fx0 with d := 3, imm := 0xFFFF }) busy ∧ calm.me.sysc.length < 4 ∧ 4 ≤ busy.me.sysc.length := by decide +kernel
theorem meets_ControlRegisterReads :
    (∀ e ∈ controlRegisters shaped, one (.rdcr { fr0 with d := 3, b := BitVec.ofNat 7 e.1 }) ∧ (BitVec.ofNat 7 e.1).toNat = e.1) ∧
    ∀ b ∈ [(0x10 : BitVec 7), 0x1E, 0x11, 0x1F, 12, 15, 32, 127], one (.rdcr { fr0 with d := 3, b := b }) := by decide +kernel
theorem meets_ControlRegisterWrites :
    (∀ b ∈ [(0 : BitVec 7), 1, 2, 3, 4, 5, 6, 7, 8, 9, 10, 11, 12, 15, 0x10, 0x11, 0x1E, 0x1F, 32, 127], one (.wrcr { fr0 with a := 1, b := b })) ∧
    bits (shaped.rs 1).toNat 6 4 < 6 ∧ vecHalfOk ((half 1024 1).toNat) = true ∧ cubeHalfOk (64 + 2 ^ 7 + 262143 * 2 ^ 28) = true := by decide +kernel
theorem meets_IdentityTickAndCounters :
    (shaped.cur < 3072 ∧ ∀ i ∈ [Instr.rdid (fr3 0), .rdtick (fr3 0), .rdgov (fr3 0), .rdctr (fr3 0)], one i) ∧
    ∀ v ∈ [0, 0x20, 0x26, 65535, 65536], ((withS [(1, BitVec.ofNat 64 v)]).rs 1).toNat = v ∧ one (.rdctr (fr3 0)) (withS [(1, BitVec.ofNat 64 v)]) := by decide +kernel
theorem meets_FencesAndModifiers :
    one (.mod { fx0 with imm := 0x4000 }) ∧
    (one (.fence { fx0 with imm := 0x280000, d := 3 }) busy ∧ busy.tokensPending [3] = true) ∧
    (calm.tokensPending [4] = false ∧ calm.readsPending 0 0xFFFF = false ∧ bits 0x080001 20 19 = 1 ∧ one (.fence { fx0 with imm := 0x080001 }) calm) ∧
    (busy.readsPending 0 1 = true ∧ busy.tokensPending [] = false ∧ one (.fence { fx0 with imm := 0x080001 }) busy) ∧
    (calm.accessPending 0 0xFFFF = false ∧ bits 0x14FFFF 20 19 ≠ 1 ∧ bits 0x14FFFF 18 16 ≠ 5 ∧ one (.fence { fx0 with imm := 0x14FFFF }) calm) ∧
    (bits 0x15FFFF 18 16 = 5 ∧ bits 0x15FFFF 20 19 ≠ 1 ∧ one (.fence { fx0 with imm := 0x15FFFF }) calm) ∧
    (busy.accessPending 0 1 = true ∧ bits 0x100001 20 19 ≠ 1 ∧ one (.fence { fx0 with imm := 0x100001 }) busy) ∧
    (bits 0x150000 20 19 ≠ 1 ∧ bits 0x150000 15 0 = 0 ∧ bits 0x150000 22 21 = 0 ∧ one (.fence { fx0 with imm := 0x150000 }) busy) := by
  decide +kernel
theorem meets_BarrierArrivals :
    (one (.bar { fx0 with imm := 7 }) calm ∧ tget none calm.me.arrivals 7 = some 2 ∧ (calm.bar 7).gen ≠ 2) ∧
    (one (.bar { fx0 with imm := 7 }) busy ∧ tget none busy.me.arrivals 7 = some 2 ∧ (busy.bar 7).gen = 2) ∧
    (tget none calm.me.arrivals 0 = none ∧ (calm.bar 0).owned = true ∧ some (calm.bar 0).launch = calm.me.launch ∧
      calm.accessPending calm.cur 0xFFFF = false ∧ one (.bar fx0) calm) ∧
    (tget none busy.me.arrivals 0 = none ∧ (busy.bar 0).owned = true ∧ some (busy.bar 0).launch = busy.me.launch ∧
      busy.accessPending busy.cur 0xFFFF = true ∧ one (.bar fx0) busy) ∧
    (let s : State := { calm with bars := [(1, { owned := true, launch := 2 })] };
      tget none s.me.arrivals 1 = none ∧ some (s.bar 1).launch ≠ s.me.launch ∧ one (.bar { fx0 with imm := 1 }) s) ∧
    (tget none calm.me.arrivals 1 = none ∧ (calm.bar 1).owned = false ∧ one (.bar { fx0 with imm := 1 }) calm) := by decide +kernel

/-- The value of a computation that succeeds meets `f`. -/
def okAnd {ε α : Type} (r : Except ε α) (f : α → Bool) : Bool := match r with | .ok x => f x | .error _ => false
/-- A valid range entry (R351): `n` pages of `fmt` from virtual address `va`, readable and writable. -/
def pages (va n pa tier fmt : Nat) : BitVec 256 :=
  BitVec.ofNat 256 (va + (va + 4096 * n - 1) * 2 ^ 64 + pa * 2 ^ 128 + 7 * 2 ^ 192 + tier * 2 ^ 195 + fmt * 2 ^ 200)
/-- VF 0 owns 1 MiB of tower 0's TSRAM and 1 GiB of HBM, and maps them at 0x10000 (INT8), 0x20000 (E4M3) and 0x30000, a peer at 0x40000, and a
Kitty allocation of 64 KiB. s1, s2, s3, s4 and s5 point to the five. -/
def mapped : State :=
  { shaped with
    ctxs := [(0, { state := 1, sreg := [(1, 0x10000), (2, 0x20000), (3, 0x30000), (4, 0x40000), (5, 0xFFFF000000000000), (6, 0x30008)],
                   sh := [(1, half 16 16), (2, half 8 16), (3, half 32 32)] })]
    vfs := [(0, { part := BitVec.ofNat 1024 (2 ^ 264 + 2 ^ 330),
                  ranges := [(0, pages 0x10000 16 0x1000000000 2 2), (1, pages 0x20000 16 0x1000010000 2 12), (2, pages 0x30000 16 0x100000000000 3 2),
                             (3, pages 0x40000 16 (2 ^ 56) 4 2)],
                  pool := [(0, BitVec.ofNat 128 (1 + 2 ^ 104))] })] }
/-- The same with an acquire or a release (R115). -/
def ordering (n : Nat) : State := { mapped with issue := { mod := some (BitVec.ofNat 23 (n * 2 ^ 12 + 2 ^ 18)) } }

/-- Byte-counting barriers of another function, posted and reached. -/
def barriers : State := { calm with towers := [(0, { bcs := [(0, { vf := 1 }), (14, { posted := true }), (15, { ovr := true })] })] }
theorem meets_Waits :
    ((∀ n ∈ [0, 1], bits (BitVec.ofNat 23 n).toNat 6 0 ≤ busy.me.evq.length ∧ one (.evwait { fx0 with imm := BitVec.ofNat 23 n }) busy) ∧
      busy.me.evq.length < bits (BitVec.ofNat 23 2).toNat 6 0 ∧ one (.evwait { fx0 with imm := 2 }) busy) ∧
    ((∀ n ∈ [0, 14, 15], one (.bcwait { fx0 with d := 3, imm := BitVec.ofNat 23 n }) barriers) ∧ barriers.readsPending barriers.cur 0xFFFF = false ∧
      (tget {} (barriers.tower 0).bcs 0).vf ≠ barriers.me.vfid ∧ (tget {} (barriers.tower 0).bcs 14).posted = true ∧
      (tget {} (barriers.tower 0).bcs 15).posted = false) ∧
    (one (.tkwait { fx0 with d := 5, a := 3, imm := 1 }) busy ∧ busy.tokensPending [3] = true ∧ busy.tokensPending [] = false ∧
      one (.tkwait { fx0 with d := 5, a := 4, b := 4, imm := 0x040003 }) calm ∧ calm.tokensPending [4, 4, 4] = false) ∧
    (one (.tkset { fx0 with d := 3 }) busy ∧ (busy.me.token (busy.spec 32 3)).st = .pending ∧
      one (.tkset { fx0 with d := 31, imm := 2 }) busy ∧ (busy.me.token (busy.spec 32 31)).st ≠ .pending) ∧
    (∀ b ∈ [(0 : BitVec 7), 1], one (.flagwait { fx0 with d := 7, a := 6, b := b }) mapped) ∧ (mapped.rs 6).toNat % 8 = 0 ∧
    mapped.readsPending mapped.cur 0xFFFF = false ∧
    okAnd (mapped.xmap mapped.me.vfid (mapped.rs 6)) (fun x => decide (x.tier = 2 ∨ x.tier = 3) && mapped.permOk mapped.me.vfid x true false &&
      !badIn mapped.memBad x.pa 8 && decide ((mapped.readLe x.pa 8 + 2 ^ 64 - (mapped.rs 0).toNat) % 2 ^ 64 < 2 ^ 63) &&
      decide (2 ^ 63 ≤ (mapped.readLe x.pa 8 + 2 ^ 64 - (mapped.rs 1).toNat) % 2 ^ 64)) = true := by decide +kernel
theorem meets_Waits_token :
    let page := (0, pages 0x30000 16 0x100000000000 (3 + 8) 2)
    let s : State := { mapped with vfs := mapped.vfs.map fun (e : Nat × Vf) => (e.1, { e.2 with ranges := [page] }) }
    one (.flagwait { fx0 with d := 7, a := 6, b := 0 }) s ∧ (s.rs 6).toNat % 8 = 0 ∧
    okAnd (s.xmap s.me.vfid (s.rs 6)) (fun x => decide (x.tier = 3) && s.permOk s.me.vfid x true false && !badIn s.memBad x.pa 8 &&
      !s.tokenOk x 0) = true ∧
    okAnd (mapped.xmap mapped.me.vfid (mapped.rs 6)) (fun x => mapped.tokenOk x 0) = true := by decide +kernel
theorem meets_StagesAndLeases :
    ((busy.rs 1).toNat = 15 ∧ (tget {} (busy.tower (towerOf busy.cur)).deck 15).vf = busy.me.vfid ∧
      (tget {} (calm.tower (towerOf calm.cur)).deck 15).vf = calm.me.vfid) ∧
    (one (.stacq { fr0 with d := 3, a := 1, xmod := 1 }) calm ∧ (tget {} (calm.tower 0).deck 15).full = true ∧
      (tget {} (calm.tower 0).deck 15).owned = false ∧ (tget {} (calm.tower 0).deck 15).line = [] ∧ calm.readsPending calm.cur 0xFFFF = false) ∧
    (one (.stacq { fr0 with d := 3, a := 1, xmod := 0 }) calm ∧
      ¬ ((tget {} (calm.tower 0).deck 15).owned = true ∧ (tget {} (calm.tower 0).deck 15).owner = calm.cur)) ∧
    one (.strel { fr0 with a := 1 }) calm ∧ one (.clease fr0) busy ∧ one (.crel fr0) busy ∧ one (.clease fr0) calm ∧ one (.crel fr0) calm ∧
    busy.holds busy.cur = true ∧ busy.inRigid busy.cur = false ∧ calm.holds calm.cur = false ∧ calm.inRigid calm.cur = false := by decide +kernel
theorem meets_StagesAndLeases_more :
    (∀ x ∈ [(0 : BitVec 4), 1], one (.stacq { fr0 with d := 3, a := 1, xmod := x }) busy ∧ busy.readsPending busy.cur 0xFFFF = true ∧
      (tget {} (busy.tower 0).deck 15).full = true ∧ (tget {} (busy.tower 0).deck 15).owned = true ∧ (tget {} (busy.tower 0).deck 15).owner = busy.cur) ∧
    (let s : State := { busy with ctxs := calm.ctxs, cores := [] };
      one (.stacq { fr0 with d := 3, a := 1, xmod := 1 }) s ∧ s.readsPending s.cur 0xFFFF = false ∧ (tget {} (s.tower 0).deck 15).owned = true) ∧
    (let s : State := { calm with towers := [(0, { deck := [(15, { vf := 1 })] })] };
      one (.stacq { fr0 with d := 3, a := 1 }) s ∧ one (.strel { fr0 with a := 1 }) s ∧ (tget {} (s.tower 0).deck 15).vf ≠ s.me.vfid) ∧
    (let s := withS [(1, 16)];
      (s.rs 1).toNat = 16 ∧ one (.stacq { fr0 with d := 3, a := 1 }) s ∧ one (.strel { fr0 with a := 1 }) s) ∧
    (one (.strel { fr0 with a := 1 }) busy ∧ busy.accessPending busy.cur 0xFFFF = true) ∧
    (∀ b ∈ [true, false], let t : State := { calm with issue := { crel := b } };
      t.issue.fault = none ∧ (calm.commit t).issue.fault = none) ∧
    (ruled false {}).inRigid 0 = true ∧
    (let s : State := { busy with ctxs := calm.ctxs, wq := [], cores := [] };
      one (.strel { fr0 with a := 1 }) s ∧ (tget {} (s.tower 0).deck 15).owned = true ∧ (tget {} (s.tower 0).deck 15).owner = s.cur ∧
        s.accessPending s.cur 0xFFFF = false) := by decide +kernel
theorem meets_EventRecords :
    ∀ s ∈ [busy, shaped], one (.evpop { fr0 with d := 3, c := 4 }) s ∧ one (.evpeek { fr0 with d := 3, c := 4 }) s := by decide +kernel

/-- A scalar access of type `ty` to the address in s[a], with a bound of 32 ticks. -/
def near (ty : BitVec 5) (a : BitVec 7) : FM := { fm0 with ty := ty, d := 8, a := a, lat := 13, disp := 3 }
theorem meets_ScalarLoadsAndStores :
    (∀ s ∈ [mapped, ordering 1, ordering 2], s.eff.space ≤ 2 ∧ okAnd (s.ordered s.eff) (fun _ => true) = true) ∧
    (∀ s ∈ [mapped, ordering 1], s.eff.ord < 2) ∧ (ordering 2).eff.ord = 2 ∧ mapped.eff.ord = 0 ∧
    (∀ o ∈ [near 2 1, { near 8 1 with v := true }], let n := fmtWidth o.ty / 8
      let ea := mapped.rs o.a + mapped.rs o.b + BitVec.ofInt 64 (o.disp.toInt * n)
      sourcesSound mapped (.ldS o) ∧ sourcesSound mapped (.stS o) ∧ ea.toNat % n = 0 ∧
      okAnd (mapped.directPart mapped.eff ea n true (bound o.lat 16)) fun x =>
        o.v || (x.fmt.map fun f => decide (fmtWidth (fmtOf f) = fmtWidth o.ty) && !decodes (fmtOf f)).getD true) ∧
    (let o := near 0x0F 2;
      sourcesSound mapped (.ldS o) ∧ o.v = false ∧ okAnd (mapped.directPart mapped.eff 0x20006 2 true (bound o.lat 16)) fun x =>
        (x.fmt.map fmtOf) == some 0x0C) ∧
    okAnd (mapped.directPart mapped.eff 0x10003 1 false 0) (fun x => (x.fmt.map fun f => fmtWidth (fmtOf f)) == some 8) = true := by
  decide +kernel
theorem meets_TileLoadsAndStores :
    (∀ o ∈ [near 2 1, { near 0x0F 2 with disp := 0 }], mapped.rs o.a + mapped.rs o.b + BitVec.ofInt 64 (o.disp.toInt * (64 : Nat)) =
        (if o.a = 1 then 0x100C0 else 0x20000) ∧ sourcesSound mapped (.ldT o) ∧
      okAnd (mapped.tileParts o mapped.eff (if o.a = 1 then 0x100C0 else 0x20000) true (bound o.lat 16)) fun parts =>
        let dec := decide (o.a = 2)
        parts.lines.all (fun l => partWidth o l.2.2 == (8, dec)) && !parts.lines.isEmpty && (dec || fmtWidth o.ty == 8) && parts.shape.ok 8 &&
        (List.range (if dec then 2 else 1)).all (fun j => mapped.targetReady ⟨tileFile .a, mapped.spec 64 o.d + j⟩) &&
        mapped.spec 64 o.d % 2 == 0 && parts.lines.all fun l => !mapped.directBad l.2.2 64) ∧
    sourcesSound mapped (.stT (near 2 1)) ∧ mapped.me.boundTo ⟨tileFile .a, 8⟩ = none ∧
    okAnd (mapped.tileParts (near 2 1) mapped.eff 0x100C0 false 0) (fun parts =>
      !parts.lines.isEmpty && parts.lines.all (fun l => (l.2.2.fmt.map fun f => fmtWidth (fmtOf f)) == some 8) && parts.shape.ok 8) = true := by
  decide +kernel

/-- s1-s5 as in `mapped`, s7 a flag word at the peer, s8 and s9 sizes, s10 and s11 operand words of the cube, s12 a fill of 64 bytes, s13 a
half of a pacc; a context that holds its cube's lease, and a conditional buffer with a row. -/
def ready (more : List (Nat × Word)) : State :=
  { mapped with
    ctxs := mapped.ctxs.map fun (e : Nat × Ctx) => (e.1, { e.2 with sreg := [(1, 0x10000), (2, 0x20000), (3, 0x30000), (4, 0x40000), (5, 0xFFFF000000000000)] ++ more })
    quads := [(0, { lease := { holder := some 0, count := 31 }, cond := [(3, { key := some (32, 32, 8), recs := [1] })] })] }
def remote : State := ready [(7, 0x40208), (8, 1048576), (9, 1048577)]
def cubic : State := ready [(10, BitVec.ofNat 64 (0xFF * 2 ^ 48 + 64 + 64 * 2 ^ 24)), (11, BitVec.ofNat 64 (2 ^ 55 + 3 * 2 ^ 24)), (12, 64),
  (13, 0x780), (14, BitVec.ofNat 64 (2 ^ 48 + 31)), (15, BitVec.ofNat 64 (2 ^ 55 + 63)), (16, 0x7FF0005), (17, BitVec.ofNat 64 (2 ^ 35 - 1)),
  (18, BitVec.ofNat 64 (2 ^ 48 + 2)), (19, 0x40000), (20, BitVec.ofNat 64 (2 ^ 48 + 2 ^ 21)), (21, 5), (22, 0x780), (23, BitVec.ofNat 64 (2 ^ 48 + 2 ^ 18 - 64)),
  (24, BitVec.ofNat 64 (2 ^ 55))]
def cmd (d a b : BitVec 7) (sh : BitVec 3 := 0) : FE := { fe0 with d := d, a := a, b := b, sh := sh, tko := 31 }

theorem meets_CopyEngineCommandsIssue :
    let o := cmd 8 1 9 2
    (remote.eff.space = 0 ∧ remote.eff.ord = 0 ∧ tokenFree remote o ∧ copyRoom remote) ∧ okAnd (remote.feActive o 32) (fun _ => true) = true ∧
    (∀ i ∈ [Instr.ldx o, .stx o, .stxAdd o], one i remote) ∧
    ∀ i ∈ [Instr.dcopy { cmd 2 1 3 with ntk := 1, tka := 4 }, .dcopyCsum { cmd 2 1 3 with ntk := 1, tka := 4 }], one i remote := by
  decide +kernel
theorem meets_RemoteBlocksIssue :
    let o := cmd 0 4 9
    let p := cmd 7 4 9
    (remote.eff.space = 0 ∧ (remote.rs o.a).toNat % 64 = 0 ∧ okAnd (remote.feActive o 8) (fun _ => true) = true ∧ tokenFree remote o ∧
      okAnd (remote.ordered remote.eff) (fun _ => true) = true ∧ remoteRoom remote) ∧
    (okAnd (remote.feActive o 8) fun act => okAnd (remote.remoteLines o remote.eff (remote.rs o.a) act true) fun l => !l.isEmpty &&
      okAnd (remote.xlate remote.me.vfid (remote.rs p.d) false true remote.eff.cache) fun f =>
        l.all fun x => targetOf x.2.pa = targetOf f.pa) ∧
    remote.rs o.d = 0 ∧ one (.rst o) remote ∧ remote.rs p.d ≠ 0 ∧ (remote.rs p.d).toNat % 8 = 0 ∧ one (.rst p) remote ∧
    (okAnd (remote.feActive o 8) fun act => okAnd (remote.remoteLines o remote.eff (remote.rs o.a) act false) fun _ => true) ∧
    one (.rld { o with d := 8 }) remote := by decide +kernel
theorem meets_AtomicsAndReductionsIssue :
    (∀ o ∈ [cmd 8 3 7, { cmd 8 3 7 with v := true }], (remote.rs o.a).toNat % (wordWidth o / 8) = 0 ∧ tokenFree remote o ∧ remoteRoom remote ∧
      okAnd (remote.remotePart remote.eff (remote.rs o.a) true true false) (fun _ => true) = true ∧ okAnd (remote.ordered remote.eff) (fun _ => true) = true ∧
      ∀ i ∈ atomics o, one i remote) ∧
    (∀ d ∈ [(0 : BitVec 7), 2], (cmd d 3 7).d.getLsbD 0 = false ∧ ∀ i ∈ reductionsE (cmd d 3 7), one i remote) ∧
    (let o := cmd 1 3 8 2
     let s := remote
     o.d.getLsbD 0 = true ∧ (s.rs o.a).toNat % 64 = 0 ∧ okAnd (s.feActive o 32) (fun act => act.getLsbD 0 && act.getLsbD 127) = true ∧
       okAnd (s.remotePart s.eff (s.rs o.a) true true false) (fun x => (List.range 128).all fun j =>
         okAnd (s.xmap s.me.vfid (s.rs o.a + BitVec.ofNat 64 (4 * j))) fun y => y.part == x.part) = true ∧ ∀ i ∈ reductionsE o, one i s) ∧
    let o := cmd 1 7 8 2
    let s := ready [(7, 0x30F00)]
    (s.rs o.a).toNat % 64 = 0 ∧ okAnd (s.feActive o 32) (fun act => act.getLsbD 0 && act.getLsbD 64) = true ∧
      okAnd (s.remotePart s.eff (s.rs o.a) true true false) (fun x => okAnd (s.xmap s.me.vfid 0x31000) fun y => y.part != x.part) = true ∧
      ∀ i ∈ reductionsE o, one i s := by decide +kernel
theorem meets_PoolAndOwnershipIssue :
    (∀ e ∈ [((8 : BitVec 7), 1048576), (9, 1048577), (0, 0)], let o := cmd 30 e.1 31
      tokenFree remote o ∧ remoteRoom remote ∧ (remote.rs o.a).toNat = e.2 ∧ one (.kalloc o) remote ∧ one (.kallocM o) remote) ∧
    (isKitty (remote.rs 5) = true ∧ bits (remote.rs 5).toNat 35 0 = 0 ∧ one (.kfree (cmd 30 5 0)) remote ∧ one (.kquery (cmd 30 5 31)) remote) ∧
    (∀ a ∈ [(4 : BitVec 7), 5], okAnd (remote.xmap remote.me.vfid (remote.rs a)) (fun x => decide (x.tier = 4 ∨ x.tier = 5) &&
        remote.permOk remote.me.vfid x false false) = true ∧
      remote.accessPending remote.cur 0xFFFF = false ∧ one (.tacq (cmd 30 a 0)) remote ∧ one (.trel (cmd 30 a 0)) remote) ∧
    (let s : State := { remote with wq := [{ n := 0, g := 0, vf := 0, pa := 0, mods := {}, op := .increment 0, due := 0 }] };
      s.accessPending s.cur 0xFFFF = true ∧ one (.trel (cmd 30 4 0)) s) ∧
    (isKitty (remote.rs 1) = false ∧ bits (remote.rs 5 + 64).toNat 35 0 ≠ 0 ∧ one (.kfree (cmd 30 1 0)) remote ∧ one (.kquery (cmd 30 1 31)) remote) ∧
    (okAnd (remote.xmap remote.me.vfid (remote.rs 1)) (fun x => decide (x.tier = 2) && remote.permOk remote.me.vfid x false false) = true ∧
      one (.tacq (cmd 30 1 0)) remote ∧ one (.trel (cmd 30 1 0)) remote) ∧
    let s : State := { remote with vfs := remote.vfs.map fun (e : Nat × Vf) => (e.1, { e.2 with part := 0 }) };
    okAnd (s.xmap s.me.vfid (s.rs 1)) (fun x => !s.permOk s.me.vfid x false false) = true ∧ one (.tacq (cmd 30 1 0)) s ∧ one (.trel (cmd 30 1 0)) s := by
  decide +kernel
theorem meets_StreamsAndBuffersIssue :
    (∀ o ∈ [cmd 7 1 63, { cmd 15 1 0 1 with msk := 4 }], tokenFree remote o ∧ copyRoom remote ∧ remoteRoom remote ∧
      (remote.me.stream (bits o.d.toNat 2 0)).bound = false ∧ remote.me.boundTo ⟨tileFile (feCl o), remote.spec 64 o.b⟩ = none ∧
      (shapeWidth ((remote.readSh o.sh.toNat).extractLsb' 0 64)).isSome ∧ one (.sbind o) remote) ∧
    one (.sunbind (cmd 7 0 0)) remote ∧ one (.sstat (cmd 8 7 0)) remote ∧
    (∀ d ∈ [(3 : BitVec 7), 7], condKey (vshape (remote.readSh 0)) = some (32, 32, 8) ∧ (tget {} (remote.quad 0).cond (bits d.toNat 1 0)).recs ≠ [] ∧
      (tget {} (remote.quad 0).cond (bits d.toNat 1 0)).key = some (32, 32, 8) ∧ one (.cspush (cmd d 9 1)) remote) ∧
    one (.cspop (cmd 9 3 7)) remote := by decide +kernel
theorem meets_CubeCommandsIssue :
    (underLease cubic ∧ tokenFree cubic (cmd 0 0 0) ∧ cubeRoom cubic ∧ copyRoom cubic ∧ cubeHalfOk ((cubic.readSh 0).toNat / 2 ^ 64) = true ∧
      (∀ n ≤ 4, cubic.stopHolds [n] 255 = false)) ∧
    (∀ e ∈ [(Instr.cmm, cmd 3 10 0), (.cmm, cmd 4 10 0), (.cmmz, cmd 0 23 0), (.cconv, cmd 3 10 12)], let i := e.1 e.2
      operandOk (cubic.rs e.2.a).toNat = true ∧ (isPlane i = true → bits e.2.d.toNat 1 0 = 0) ∧ (isSparse i = true → (cubic.rs e.2.b).toNat < 32) ∧
      (isConv i = true → (cubic.rs e.2.b).toNat % 64 = 0 ∧ (cubic.rs e.2.b).toNat < 2 ^ 18) ∧ kOf (cubic.readSh 0) ≤ 8192 ∧ one i cubic) ∧
    (within (BitVec.ofNat 64 (2 ^ 48)) lmaskBits ∧ one (.cplane (cmd 0 0 0)) cubic) ∧
    (within (cubic.rs 14) (lmaskBits + 31) ∧ one (.csmeta (cmd 0 14 1)) cubic) ∧
    (within (cubic.rs 15) (lmaskBits + 63) ∧ one (.cseq (cmd 0 15 1)) cubic) ∧
    (within (cubic.rs 11) (lmaskBits + 3 * 2 ^ 24) ∧ lmaskOf (cubic.rs 11) ≠ 0 ∧ bits (cubic.rs 11).toNat 25 24 ≠ 0 ∧ one (.cswap (cmd 0 11 0)) cubic) ∧
    (selectorOk (cubic.rs 13).toNat = true ∧ cubic.stopHolds [selTarget (cubic.rs 13).toNat] 128 = false ∧ one (.cwracc (cmd 0 9 13)) cubic ∧
      one (.crdacc (cmd 9 13 20)) cubic) ∧
    (within (cubic.rs 0) lmaskBits ∧ one (.cdrain (cmd 0 0 0)) cubic) ∧
    (within (cubic.rs 24) lmaskBits ∧ lmaskOf (cubic.rs 24) ≠ 0 ∧ one (.cdrain (cmd 1 24 0)) cubic) ∧
    (within (cubic.rs 17) (2 ^ 35 - 1) ∧ one (.ckat (cmd 0 17 1)) cubic) ∧
    (within (cubic.rs 18) (lmaskBits + 3) ∧ bits (cubic.rs 18).toNat 1 0 ≠ 3 ∧ one (.cbist (cmd 0 18 0)) cubic) ∧
    (fillOk 64 (2 ^ 48 + 2 ^ 18 - 64) = true ∧ (cubic.rs 23).toNat = 2 ^ 48 + 2 ^ 18 - 64 ∧ (cubic.rs 12).toNat = 64 ∧ one (.cfill (cmd 12 23 1)) cubic) ∧
    within (cubic.rs 21) 0xFFFF ∧ bits (cubic.rs 21).toNat 7 0 ≤ 5 ∧ one (.cstat (cmd 8 21 0)) cubic := by decide +kernel
theorem meets_CubeCommandsNeedTheLease :
    let o := cmd 9 9 0
    (∀ s ∈ [ruled true {}, ruled false { reqs := [0] }, ruled true { reqs := [0] }, ruled true { holder := some 0, count := 32 },
        ruled false { holder := some 0, count := 32 }],
      ∀ i ∈ [Instr.cmm o, .cmmz o, .cconv o, .cplane o, .csmeta o, .cseq o, .cfill o, .cswap o, .crdacc o, .cwracc o, .cdrain o, .ckat o, .cbist o], one i s) ∧
    ((ruled true {}).holds 0 = false ∧ (ruled true {}).inRigid 0 = false ∧ (ruled false { reqs := [0] }).inRigid 0 = true ∧
      (ruled false { reqs := [0] }).holds 0 = false ∧ (ruled true { reqs := [0] }).holds 0 = false ∧
      ((ruled true { reqs := [0] }).quad 0).lease.reqs.contains (0 % 16) = true) ∧
    (ruled true { holder := some 0, count := 32 }).holds 0 = true ∧ ((ruled true { holder := some 0, count := 32 }).quad 0).lease.room 0 = false ∧
    (ruled false { holder := some 0, count := 32 }).inRigid 0 = true := by decide +kernel
theorem meets_TriggersAndByteBarriersIssue :
    let s := ready [(7, 0x30040), (8, 1)]
    (okAnd (s.trigPart (s.rs 3) 8) (fun _ => true) = true ∧ okAnd (s.trigPart (s.rs 7) 64) (fun _ => true) = true ∧ tokenFree s (cmd 7 3 8) ∧
      one (.trigArm (cmd 7 3 8)) s ∧ one (.trigCancel (cmd 8 3 0)) s) ∧
    ((tget {} (s.tower (towerOf s.cur)).bcs 15).bound = false ∧ one (.bcarm (cmd 15 0 0)) s ∧ one (.bcarm (cmd 15 3 8)) s ∧ s.rs 0 = 0 ∧
      (s.newCmd (.bcarm (cmd 15 0 0)) (cmd 15 0 0) {}).after = []) ∧
    s.rs 3 ≠ 0 ∧ (s.rs 3).toNat % 8 = 0 ∧ s.rs 8 ≠ 0 ∧ okAnd (s.xmap s.me.vfid (s.rs 3)) (fun x => decide (x.tier = 2 ∨ x.tier = 3) &&
      decide (portTower x.pa = towerOf s.cur) && s.permOk s.me.vfid x false true) = true := by decide +kernel

/-- A result of 64 bits whose bound passes at the present tick. -/
def landing : State :=
  { shaped with ctxs := shaped.ctxs.map fun (e : Nat × Ctx) => (e.1, { e.2 with inflight := [{ reg := ⟨.s, 3⟩, val := 5, en := allBits 64, due := 0 }] }) }
/-- A load of a byte of memory, whose value is not settled. -/
def late : InFlight :=
  { reg := ⟨.s, 3⟩, val := 5, en := allBits 64, due := 0, late := some { cls := 15, elems := [{ lo := 0, wd := 64, face := false, pa := 0x1000000000, w := 8 }] } }
theorem meets_ResultsLand :
    (∃ e, (landing.ctx 0).inflight = [e] ∧ e.due ≤ landing.tick ∧ e.dead = false ∧ e.mixed = false ∧ (landing.ctx 0).boundTo e.reg = none ∧
      e.late = none) ∧
    ∃ x k, late.late = some { cls := k, elems := [x] } ∧ x.lo = 0 ∧ x.wd ≤ 4096 :=
  ⟨⟨_, rfl, by decide +kernel⟩, _, _, rfl, by decide +kernel⟩

/-- Slot 0 halts, slot 1 has met a pre-emption request, slot 2 is ready for its frame, slot 3 is free and has an occupied frame. -/
def turning : State :=
  { State.reset with
    ctxs := [(0, { state := 1, halting := true }), (1, { state := 1, ask := some 0 }), (2, { state := 3, stop := .preempting, ask := some 0 })]
    cores := [(0, { image := some { addr := 64, stream := [0] }, badHalf := [8192] })]
    vfs := [(0, { part := BitVec.ofNat 1024 (2 ^ 64), saved := [(3, some { image := 64 })] })] }
theorem meets_ContextEvents :
    (turning.core' 0).image.any (fun i => decide (8192 * 0 < i.stream.length)) = true ∧
    ((turning.ctx 0).halting = true ∧ (turning.ctx 0).inflight = [] ∧ ∀ n < 8, ((turning.ctx 0).stream n).bound = false) ∧
    ((turning.ctx 1).ask = some 0 ∧ turning.canPreempt 1 = true) ∧ turning.canSave 2 = true ∧ (∀ w ∈ turning.towers, w.2.trigs = []) ∧
    (turning.frameAt 3).any (fun e => turning.canRestore e.1 3 e.2 && (turning.image 3).map (·.addr) == some e.2.image) = true := by decide +kernel

/-- A queued write at TSRAM byte 64 of tower 0. -/
def queued (op : WqOp) (face : Bool) : State :=
  { mapped with wq := [{ n := 7, g := 0, vf := 0, pa := 0x1000000040, face := face, mods := {}, op := op, due := 0 }] }
theorem meets_QueuedWritesArePerformed :
    (∀ s ∈ [queued (.store [⟨0, 5, 0xFF⟩, ⟨63, 6, 0x0F⟩]) false, queued (.store [⟨0, 5, 0xFF⟩]) true, queued (.reduce (.redAdd fe0) 32 [(4, [9])] 1) false,
        queued (.increment 64) false],
      ∃ e ∈ s.wq, (s.wq.find? fun x => x.n = e.n) = some e ∧ s.entryReady e = true ∧ e.flag = none ∧ s.paError e.vf e.va e.pa = none ∧
        badIn s.memBad (e.pa + 4) 4 = false ∧ memWf s.mem = true ∧ s.cache = [] ∧ tierOf e.pa < 4 ∧ s.towers = []) := by decide +kernel

/-- A view of 32 by 1 INT8 elements at `base`. -/
def desc (base : Nat) : BitVec 512 :=
  BitVec.ofNat 512 (base + 64 * 2 ^ 64 + 2 ^ 88 + 64 * 2 ^ 208 + 2 * 2 ^ 398 + 2 ^ 401 + 2 ^ 407)
/-- A command at the end of its work. -/
def working (i : Instr) (base : Nat) : Cmd :=
  { instr := i, act := 1, view := some (desc base), tok := 3, serial := 9, started := true, dest := [⟨.va, 5⟩] }
def engines (q : Quad) (c : Core := {}) : State := { mapped with quads := [(0, q)], cores := [(1, c)] }
theorem meets_EnginesTakeAndEndCommands :
    ((let k : Cmd := { working (.ldx fe0) 0x10000 with started := false };
      let s := engines { copyq := [k, k] };
      (s.quad 0).copyRun = none ∧ (s.quad 0).copyHeld = [] ∧ (s.quad 0).copyq = [k, k] ∧ s.ready k = true ∧ s.engineOpen 3264 k = true) ∧
     (let k := working (.ldx fe0) 0x10000
      let s := engines { copyRun := some k };
      (s.quad 0).copyRun = some k ∧ k.due ≤ s.tick ∧ (s.work k).fault.isNone) ∧
     (let k := working (.stx fe0) 0
      let s := engines { copyRun := some k };
      (s.quad 0).copyRun = some k ∧ k.due ≤ s.tick ∧ (s.work k).fault.isSome)) ∧
    (∀ i ∈ [Instr.kalloc fe0, .kfree fe0, .rld fe0, .rst fe0], ((engines {} { remq := [working i 0] }).remoteReady 1).isSome) ∧
    ((engines {} { remLoose := [working (.sstat fe0) 0] }).looseAt 1 9).any (fun k => State.reset.canEnd k) = true ∧
    ((engines {} { remLoose := [{ working (.rld fe0) 0 with pas := [(0x40000, 2 ^ 56)] }] }).answers ⟨1, 9, true, 0⟩).isSome ∧
    (({ engines { cond := [(0, { key := some (32, 32, 8), recs := [1], marks := [1] })] } { remq := [working (.cspush fe0) 0] } with tick := 1 } : State).pushReady 1).isSome ∧
    (({ engines { cond := [(0, { key := some (32, 32, 8), recs := [1], marks := [1] })] } { remq := [working (.cspop fe0) 0] } with tick := 1 } : State).popReady 0 0).isSome := by
  decide +kernel
theorem meets_EnginesTakeAndEndCommands_instr :
    (∀ o, (working (.ldx fe0) 0).instr ≠ .sbind o) ∧ isPool (working (.kalloc fe0) 0).instr = true ∧
    (∃ o, (working (.rst fe0) 0).instr = .rld o ∨ (working (.rst fe0) 0).instr = .rst o) :=
  ⟨nofun, rfl, _, .inr rfl⟩

/-- A context with one stream. -/
def streaming (t : Stream) : State :=
  { mapped with ctxs := [(0, { state := 1, st := [(7, { t with bound := true, reg := 5, shape := (tget resetShape [] 0).extractLsb' 0 64 })] })] }
theorem meets_StreamsMoveTiles :
    ((streaming { view := some (desc 0x10000) }).streamNext 0 7).any (fun a => a.fault.isNone) = true ∧
    (∀ c ∈ [true, false], (streaming { cluster := c, tiles := [(0, 5), (1, 6)], view := some (desc 0x10000) }).canLand 0 7 = true) ∧
    (streaming { out := true, rfull := true, view := some (desc 0x10000) }).canTake 0 7 = true ∧
    (let s := streaming { out := true, tiles := [(0, 5)], passed := 1, next := 1, view := some (desc 0x10000) };
      s.canTake 0 7 = false ∧ (s.streamNext 0 7).any (fun a => a.fault.isNone) = true) ∧
    ((streaming { view := some (desc 0) }).streamNext 0 7).any (fun a => a.fault.isSome) = true ∧
    (∀ t ∈ [({ unbinding := 1 } : Stream), { passed := 2, view := some (desc 0x10000) }], (streaming t).streamOver 0 7 = true) := by
  decide +kernel

/-- A stream of tiles of 16 rows, of which 4 are valid, over the view `d`. -/
def viewed (d : BitVec 512) : Stream := { view := some d, shape := BitVec.ofNat 64 (16 + 32 * 2 ^ 11 + 4 * 2 ^ 22 + 32 * 2 ^ 33), bound := true, reg := 5 }
theorem meets_StreamsMoveTiles_elements :
    (∀ e ∈ [(511, false, false, false), (127, true, false, false), (0, true, true, false), (1, true, true, true)],
      (viewed (desc 0x10000 ||| BitVec.ofNat 512 (2 ^ 425))).walk.any fun x => x.2.1.valid e.1 == e.2.1 && (x.1.tileElem x.2.1 0 e.1).isSome == e.2.2.1 &&
        ((x.1.tileElem x.2.1 0 e.1).bind x.1.stored).isSome == e.2.2.2) ∧
    (∀ w ∈ [true, false], okAnd (mapped.xlate 0 (byteOf (0x10000 * 8)) (!w) w 0) (fun p => (mapped.targetError p).isNone && decide (tierOf p.pa < 4)) = true) ∧
    okAnd (mapped.xlate 0 0 true false 0) (fun _ => true) = false ∧
    (∀ t ∈ [viewed (desc 0x10000), { viewed (desc 0x10000) with out := true, tiles := [(0, 5)] }],
      t.walk.isSome ∧ t.held = false ∧ t.due ≤ 0 ∧ t.unbinding = 0 ∧ t.tiles.length < 4 ∧ (t.out = false → t.next < t.total)) := by decide +kernel

/-- Quad 0 with these contents, at BSL3. -/
def cubeAt (q : Quad) : State := { busy with quads := [(0, q)], dealer := { bootstate := 0x18 } }
/-- A cube command over layer 7; its serial is 9. -/
def layer7 (i : Instr) : Cmd := { instr := i, serial := 9, sa := BitVec.ofNat 64 (2 ^ 55), shape := resetShape }
/-- A product that has run its ticks. -/
def product (ticks : Nat) : CubeRun := { cmd := layer7 (.cmm fe0), lmask := 128, q := 64, steps := 64, total := 144, ticks := ticks }
/-- BF16 in both faces of layer 7. -/
def bf16 : Tbl (BitVec 64) := [(28, BitVec.ofNat 64 (0x0F + 2 ^ 13)), (30, BitVec.ofNat 64 (0x0F + 2 ^ 13))]
/-- A sequencer of layer 0 whose action is complete, in a state of kind `e`. -/
def sequenced (e : Nat) : Quad := { seqs := [(0, { running := true, acted := true, ticks := 1 })], stab := [(0, BitVec.ofNat 128 e)], slen := [(0, 1)] }
/-- `mapped`, with a quad 0 at BSL3 and no launch. -/
def cubeMem (q : Quad) : State := { mapped with quads := [(0, q)], dealer := { bootstate := 0x18 } }
/-- A run of a command of serial 9 that has had its ticks. -/
def doneRun (i : Instr) : CubeRun := { cmd := { layer7 i with sb := 0x10000 }, lmask := 128, ticks := 144, total := 144 }
theorem meets_CubeRunsItsCommands :
    (∀ i ∈ [Instr.cswap fe0, .ckat fe0, .cmm fe0, .cmmz fe0, .cwracc fe0, .cdrain fe0, .csmeta fe0, .cseq fe0, .cbist fe0], let k := layer7 i
      let x : Quad := { cmdq := [k], hdr := bf16 }
      x.redo = [] ∧ x.stops = [] ∧ x.parked = [] ∧ x.takes k = true ∧ (cubeAt x).ready k = true ∧ (cubeAt x).engineOpen 3072 k = true ∧
        k.started = false) ∧
    (∀ i ∈ [Instr.cmm fe0, .cmmz fe0], let k := layer7 i
      let x : Quad := { cmdq := [k], hdr := bf16 }
      ((cubeAt x).planRun { x with cmdq := [], log := x.log ++ [(k, 255, false)] } k (lmaskOf k.sa) none
          (bits k.sa.toNat 17 0) (bits k.sa.toNat 41 24)).isSome) ∧
    (({ planeq := [(7, [9])], planes := [(layer7 (.cplane fe0), 128)] } : Quad).planeHead 7).isSome ∧
    (({ runs := [{ product 144 with plane := some 7 }] } : Quad).planeEnded 7).isSome ∧
    (({ runs := [{ product 144 with plane := some 7 }] } : Quad).badRead).isNone ∧
    (∀ i ∈ [Instr.cmm fe0, .cswap fe0, .cwracc fe0, .cdrain fe0, .cdrain { fe0 with d := 1 }, .csmeta fe0, .cseq fe0, .ckat fe0, .cbist fe0],
      (({ runs := [doneRun i] } : Quad).ended 9).isSome ∧ (({ runs := [doneRun i] } : Quad).badRead).isNone) ∧
    (∀ t ∈ [({ ticks := 7, cmd := layer7 (.cmm fe0), total := 144, halt := true } : CubeRun), { product 9 with halt := true }],
      ({ runs := [t] } : Quad).toStop 0 = true ∧ t.stops 0 = true) ∧
    (({ runs := [product 9], faceBad := [faceKey 7 0 0 0] } : Quad).badRead).isSome ∧
    ((cubeAt { reads := [{ layer7 (.cstat fe0) with started := true, due := 1, dest := [⟨.s, 3⟩] }] }).readDue 0 9).isNone ∧
    (∀ i ∈ [Instr.cstat fe0, .crdacc fe0],
      (({ cubeAt { reads := [{ layer7 i with started := true, due := 1, dest := [⟨.s, 3⟩, ⟨.s, 4⟩] }] } with tick := 1 } : State).readDue 0 9).isSome) ∧
    (∀ e ∈ [1, 2, 2 + 2 * 2 ^ 6], (sequenced e).seqDue 0 = true) ∧ (sequenced 2).seqCond 0 2 [] = true ∧
    (sequenced 130).entry 0 = 130 ∧ (sequenced 130).seqCond 0 130 [] = false := by decide +kernel
theorem meets_CubeRunsItsCommands_values :
    (let r := product 144
     vmOf r.cmd.shape = 64 ∧ vnOf r.cmd.shape = 64) ∧
    (let r := { product 144 with hw := 0x0F, hs := 0x0F }
     r.integer = false ∧ r.scaled = false ∧ r.point = 0 ∧ r.part = []) ∧
    (let r := { product 144 with hw := 2, hs := 2 }
     r.integer = true ∧ r.scaled = false) ∧
    (let r := { product 144 with hw := 0x0C + 2 ^ 5, hs := 0x0C + 2 ^ 5 }
     r.scaled = true ∧ r.open' = [] ∧ 8 ≤ r.q ∧ r.base 0 + 8 ≤ vkOf r.cmd.shape ∧ ∀ j < 8, (r.south {} 7 0 j).isSome) ∧
    (∀ e ∈ [(Instr.csmeta fe0, 32), (.cseq fe0, 16)], (cubeRead (doneRun e.1).cmd 0x10000 e.2 (cubeMem {})).2.isSome) ∧
    (seqOk 1 1 = false ∧ seqOk 1 (1 + 2 ^ 32) = true) ∧
    (let k := layer7 (.crdacc fe0)
     let s := cubeAt { reads := [k] };
     k.started = false ∧ s.ready k = true ∧ k.due = 0 ∧ k.count = 0 ∧ selTarget k.sa.toNat = 0 ∧
       ((s.quad 0).stops.find? fun r => r.target = 0).isNone ∧ ((s.quad 0).runs.find? fun r => r.product && r.writes = some 0).isNone) ∧
    (({ stops := [{ target := 0, run := product 9 }] } : Quad).stops.find? fun r => r.target = 0).isSome ∧
    (let r := product 72
     r.product = true ∧ r.writes = some 0 ∧ r.wasDrained [product 71] = false ∧ r.reached [product 71] = true ∧ r.snapAt = true) := by
  decide +kernel

/-- A launch with one phase of one engine, one lease and one Trick. -/
def table1 (elastic : Bool) : Phase :=
  { elastic := elastic, engines := [{ start := 0, kind := 0, unit := 5, slot := 1, stage := 15, entry := 0, image := 64 }],
    leases := [{ quad := 0, core := 3, k := 3, start := 0 }], tricks := [{ tag := 7, set := 0xFF, bar := 49, comm := 9 }], decks := [], sets := [] }
def launched (elastic : Bool) (f : Launch → Launch) (s : State := calm) : State :=
  { s with dealer := { launches := [f { launch1 elastic with phases := [table1 elastic] }] } }
theorem meets_TimetablesRun :
    (({ calm with quads := [(0, { lease := { reqs := [15, 0] } })] } : State).grantTo 0).isSome ∧
    (let s : State := { calm with quads := [(0, { lease := { holder := some 15, ended := true } })] };
      (s.quad 0).lease.holder = some 15 ∧ s.inRigid (16 * 0 + 15) = false ∧ ∀ k ∈ (s.quad 0).cmdq, k.g ≠ 16 * 0 + 15) ∧
    ((launched false fun l => { l with timed := true }).leaseDue 0).isSome ∧
    (let s : State := { calm with towers := [(3, { deck := [(15, { full := true, line := [(0, true, 0)] })] })] };
      let st := tget {} (s.tower 3).deck 15
      st.line = [(0, true, 0)] ∧ st.owned = false ∧ st.flipped ≠ some s.tick ∧ st.full = true ∧ (s.ctx 0).state ≠ 0) ∧
    ((({ calm with bars := [(7, { doneAt := some 0 })] } : State).bar 7).doneAt = some 0) ∧
    (let s := launched false (fun l => { l with timed := true, begun := 1, t0 := 0 })
        { calm with ctxs := [], tick := 1, bars := [(7, { owned := true, launch := 1, parties := 1 })] };
      (s.deadline 7).isSome ∧ s.tickDone = true) ∧
    ((launched true fun l => { l with commEnd := some 0 }).commDue 1).isSome ∧
    (let s := launched true fun l => l;
      (s.launch 1).any (fun l => l.st = .running && l.armed == 0 && !s.delayed l) = true) ∧
    (let s := launched true (fun l => { l with armed := 1, loaded := [(1, 64)] })
        { calm with cores := [(1, { image := some { addr := 64, stream := [0], interior := [false], kernels := [(0, [])] } })],
                    arms := [(5, { armed := true })] }
     let s : State := { s with dealer := { s.dealer with launches := s.dealer.launches.map fun (l : Launch) => { l with work := [{ phase := 0, unit := 5 }] } } };
      (s.redoReady 5).isNone ∧ (s.armed 5).any (fun e => e.1.st = .running && s.unitReady e.1 e.2.1 e.2.2.1 e.2.2.2 && e.2.2.2.kind == 0 &&
        e.2.2.2.unit == 5) = true) ∧
    (let s := launched true (fun l => { l with id := 2, st := .retiring });
      (s.launch 2).any (fun l => s.retireDue l) = true) := by decide +kernel
/-- `calm` with a lease of quad 0. -/
def lease1 (l : Lease) : State := { calm with quads := [(0, { lease := l })] }
theorem meets_TimetablesRun_leases :
    (let l : Lease := { reqs := [15, 0] }
     let rank := fun j : Nat => (j / 4 + 3 - l.lastCore % 4) % 4 * 4 + (j % 4 + 3 - tget 3 l.lastK (j / 4) % 4) % 4
     (lease1 l).tried = [] ∧ ((lease1 l).quad 0).lease.holder = none ∧ rank 0 ≤ rank 15 ∧ 0 ∈ l.reqs) ∧
    (∀ l ∈ [({ holder := some 15, ended := true } : Lease), { holder := some 15, count := 32 }], let s := lease1 l;
      (s.quad 0).lease.holder = some 15 ∧ s.inRigid (16 * 0 + 15) = false ∧ (s.quad 0).cmdq = [] ∧ (s.quad 0).copyq = [] ∧ (s.quad 0).reads = [] ∧
        (l.ended = true ∨ l.room s.tick = false)) ∧
    (let s : State := { calm with towers := [(3, { deck := [(15, { full := true, line := [(0, true, 0)] })] })] };
      ((tget {} (s.tower 3).deck 15).inOrder.find? fun x => x.2.1 = true && (s.ctx x.1).state ≠ 0) = some (0, true, 0)) ∧
    ((launched false fun l => { l with commEnd := some 0 }).commDue 1).isSome := by decide +kernel
/-- The launch with its engine armed, and its image placed. -/
def armedOnce (elastic : Bool) (f : Launch → Launch) : State :=
  launched elastic (fun l => f { l with armed := 1, loaded := [(1, 64)], work := [{ phase := 0, unit := 5 }] })
    { calm with ctxs := [], cores := [(1, { image := some { addr := 64, stream := [0], interior := [false], kernels := [(0, [])] } })], arms := [(5, { armed := true })] }
theorem meets_TimetablesRun_arms :
    (let s := armedOnce true fun l => { l with work := [] };
      (s.launch 1).any (fun l => l.armed != 0 && !l.timed && l.st = .running) = true ∧
      (s.launch 1).any (fun l => (l.phases.headD (table1 true)).images.all fun x => s.placed l x.1 x.2) = true ∧ s.armFree 5 = true ∧
        ((table1 true).engines.map (·.unit)).Nodup) ∧
    (∀ b ∈ [true, false], let s := armedOnce b fun l => { l with loaded := [] };
      (s.redoReady 5).isNone ∧ (s.armed 5).any (fun e => e.1.st = .running && !s.unitReady e.1 e.2.1 e.2.2.1 e.2.2.2 && e.2.2.2.unit == 5 &&
        e.2.2.1.elastic == b) = true ∧ s.tickDone = true) ∧
    (let s := launched true fun l => { l with armed := 1 };
      (s.imageDue 1).any (fun e => e.2 == 64) = true ∧ okAnd (s.readImage 64) (fun _ => true) = false) := by decide +kernel
theorem meets_TimetablesRun_end :
    (let s := launched true (fun l => { l with st := .retiring, tags := [0] }) { calm with ctxs := [] };
      s.dealer.resets = [] ∧ (s.launch 1).any (fun l => s.retireDue l && l.tags.all fun n => (s.bar n).launch == l.id) = true) := by decide +kernel
/-- An image of one empty bundle and one kernel, as memory (R347). -/
def imageCells (a : Nat) : List Host.Cell := [(a, 1), (a + 4, 1), (a + 8, 64), (a + 28, 1), (a + 30, 80)]
theorem meets_TimetablesRun_images :
    let s := launched true (fun l => { l with armed := 1 }) { calm with mem := imageCells 64 }
    (s.imageDue 1).any (fun e => e.2 == 64) = true ∧ okAnd (s.readImage 64) (fun _ => true) = true := by decide +kernel

theorem meets_GovernorDroopAndScrub :
    (State.reset.govDue 0 = [] ∧ State.reset.tick % 8 = 0 ∧ ({ State.reset with tick := 9 } : State).tick % 8 ≠ 0) ∧
    (∀ t ∈ [(94999 : Int), 95000, 109999, 110000], (((1000 * bits 0x6E325F 23 16 : Nat) : Int) ≤ t ↔ t = 110000) ∧
      (t = 95000 → govStep 0x6E325F 0 t = 1) ∧ (t = 94999 → govStep 0x6E325F 0 t = 0)) ∧ govStep 0x6E325F 2 0 = 0 ∧
    govStep 0x6E325F 3 97000 = 3 ∧ govStep 0x6E325F 3 95500 = 1 ∧
    (let s : State := { State.reset with quads := [(0, { govNext := [(7, 8 * 1 + 3)] })], tick := 8 };
      s.govDue 0 = [(7, 3)] ∧ s.tick % 8 = 0) ∧
    (∀ mv ∈ [719, 720], let s : State := { State.reset with volts := [mv] }; s.volts = [mv] ∧ s.droop = false) ∧
    (∀ mv ∈ [729, 730], let s : State := { State.reset with volts := [mv], droop := true }; s.volts = [mv] ∧ s.droop = true) ∧
    droopLevel State.reset.dealer.droopcfg.toNat = 720 ∧ bits State.reset.dealer.droopcfg.toNat 25 18 = 10 ∧
    scrubbed 7 (0x100000000000 + 7 * 4096) = true ∧ scrubbed 11 0x1030000000 = true := by decide +kernel

/-- A command of remote engine 1. -/
def asking (i : Instr) : Cmd := { instr := i, serial := 9, started := true, sa := 1 }
def fabric (k : Cmd) : State := { mapped with cores := [(1, { remLoose := [k] })], toks := [⟨1, 1, 0, 5, []⟩, ⟨2, 3, 0, 5, []⟩, ⟨3, 0, 0, 0, []⟩] }
/-- A plain and a mirrored pool-map entry of one unit (R242). -/
def plainEntry : BitVec 128 := BitVec.ofNat 128 (1 + 2 ^ 104)
def mirrorEntry : BitVec 128 := BitVec.ofNat 128 (9 + 2 ^ 16 + 2 ^ 104)
theorem meets_PoolAndTokenMessages :
    ((fabric (asking (.kalloc fe0))).poolSend ⟨1, 9⟩).isSome ∧
    (∀ e ∈ [(asking (.kalloc fe0), plainEntry), (asking (.kallocM fe0), mirrorEntry)], let k := { e.1 with point := 1 }
      let s : State := { fabric k with vfs := [(0, { part := BitVec.ofNat 1024 (2 ^ 33) })] }
      ((s.looseAt 1 9).any fun h => h.point == 1 && h.rsp.isNone && !s.unreachable h && s.allocFits h e.2 4095) = true) ∧
    (7 ∉ State.reset.lostSw ∧
      ({ fabric { asking (.rld fe0) with pas := [(0x40000, 2 ^ 56)], due := 0x1000001 } with tick := 0x1000000 } : State).overdue.contains (peerTarget 0) = true ∧
      0 ∉ State.reset.deadPeers) ∧
    (let s : State := { State.reset with vfs := (List.range 8).map fun (v : Nat) =>
        (v, { part := BitVec.ofNat 1024 (v * 2 ^ 8 + 7 * 2 ^ 640), pool := [(4095, plainEntry)] }) };
      (∀ u < 8, s.homeOf u = 7 ∧ s.tenantOf u = 3 ↔ u = 3) ∧ bit (tget 0 (s.vf 3).pool 4095).toNat 0 = true ∧
        bits (tget 0 (s.vf 3).pool 4095).toNat 2 1 = 0 ∧ bit (tget 0 (s.vf 3).pool 4095).toNat 3 = false) ∧
    ((fabric (asking (.kalloc fe0))).ownTok 0x8000 = none ∧ tierOf (0x8000 * 0x200000) = 2 ∧
      (fabric (asking (.kalloc fe0))).ownTok 0x800000 = none ∧ tierOf (0x800000 * 0x200000) = 3) ∧
    (∀ e ∈ [(1, 1), (2, 3), (3, 0)], ((fabric (asking (.kalloc fe0))).ownTok e.1).any (fun t => t.st == e.2) = true) := by decide +kernel

theorem meets_PoolAndTokenMessages_more :
    (∀ e ∈ [(asking (.kfree fe0), BitVec.ofNat 128 (2 ^ 28)), (asking (.kquery fe0), plainEntry)], let k := { e.1 with point := 1, sa := 0xFFFF000000000000 }
      let s := fabric k;
      (s.looseAt 1 9).any (fun h => h.point == 1 && h.rsp.isNone && !s.unreachable h && kittyNum h.sa == 0) = true ∧ bits (cleanEntry e.2).toNat 2 1 ≠ 3 ∧
        (genOf (cleanEntry e.2) = (genOf (tget 0 (s.vf 0).pool 0) + 1) % 65536 ∨ e.2 = plainEntry)) ∧
    (let s : State := { State.reset with vfs := (List.range 8).map fun (v : Nat) =>
        (v, { part := BitVec.ofNat 1024 (v * 2 ^ 8 + 7 * 2 ^ 640), pool := [(4095, degradedEntry mirrorEntry true)] }) };
      bit (tget 0 (s.vf 3).pool 4095).toNat 0 = true ∧ bits (tget 0 (s.vf 3).pool 4095).toNat 2 1 = 1 ∧ bit (tget 0 (s.vf 3).pool 4095).toNat 3 = true) ∧
    (let s := fabric (asking (.tacq fe0));
      (s.ownTok 2).any (fun t => t.st == 3 && t.holder == 5 && !t.want.contains 6) = true ∧
        s.ownTok 9 = none ∧ s.toks.length < 4096) ∧
    (let s : State := { State.reset with toks := [⟨7, 2, 0, 0, []⟩] };
      s.releasing 7 = false ∧ s.toks = [⟨7, 2, 0, 0, []⟩]) := by decide +kernel

theorem meets_ArrivalsActOnMemory :
    ((∀ c ∈ [(⟨0, 5, 0xFF⟩ : Sys2Proof.Cell), ⟨1, 5, 0xFF⟩], ((0x10000 : Word) + BitVec.ofNat 64 c.off).toNat / 4096 = 16) ∧
      (mapped.inbound 0 (BitVec.ofNat 64 (4096 * 16)) false true).isSome) ∧ mapped.wq = [] ∧
    (∀ v ∈ [0x10000, 0x1FFFF], let va : Word := BitVec.ofNat 64 v
      ((mapped.writeNotes 0 va [⟨0, 5, 0xFF⟩]).inboundWrite 0 va [⟨0, 5, 0xFF⟩]).isSome) ∧
    ((mapped.writeNotes 0 0x2FFFF [⟨0, 5, 0xFF⟩]).inboundNote 0 0x30008 |>.inboundWrite 0 0x2FFFF [⟨0, 5, 0xFF⟩, ⟨1, 5, 0xFF⟩]).any
      (fun t => (t.inbound 0 0x30008 false true).isSome) = true ∧ (0x30008 : Word).toNat % 8 = 0 ∧
    ((mapped.writeNotes 0 0x50000 [⟨0, 5, 0xFF⟩]).inboundWrite 0 0x50000 [⟨0, 5, 0xFF⟩]).isNone ∧ mapped.awayOk (2 ^ 56) = true ∧
    tierOf 0x1000000000 = 2 ∧ tierOf 0x107FFFFFFFFF = 3 ∧
    ((0x10000 : Word).toNat % 64 = 0 ∧ ((mapped.inboundNote 0 0x10000).inbound 0 0x10000 true true).isSome) ∧
    (∀ n ∈ [4, 8], (0x30008 : Word).toNat % n = 0 ∧ ((mapped.inboundNote 0 0x30008).inbound 0 0x30008 true true).any (fun pa =>
        !badIn (((mapped.inboundNote 0 0x30008).drainLine pa).engineMeets (accessOf 0 nobody) pa n).memBad pa n) = true ∧
      (amoStep (linkOp 7) (8 * n) 5 6 5).isSome) := by decide +kernel

/-- Queue 0 of VF 0, privileged, with an entry of command `code` under way in it; memory as given. -/
def entryOf (code opa opb : Nat) : BitVec 512 := BitVec.ofNat 512 (code + opa * 2 ^ 64 + opb * 2 ^ 128)
def cmdFor (code opa opb : Nat) : QueueCmd := cmdOf 0 0 (entryOf code opa opb).toNat
def dealing (code opa opb : Nat) (mem : List Host.Cell := []) (s : State := State.reset) : State :=
  { s with mem := mem, dealer := { s.dealer with queues := tset {} s.dealer.queues 0 { mapped := true, priv := true, entry := some (0, entryOf code opa opb) } } }
/-- The command of queue 0's entry, if the state has one that nobody has begun. -/
def asks (s : State) (code opa opb : Nat) : Bool :=
  s.asked (cmdFor code opa opb) code && s.hostOk (cmdFor code opa opb) && !(s.queue 0).begun
/-- A timetable of one ELASTIC phase with one kernel, at the first byte of HBM, and its image (R356-R360). -/
def tableCells : List Host.Cell :=
  ([(0, 1), (2, 1), (5, 1), (8, 64), (64, 1), (66, 1), (70, 1), (72, 128), (80, 160), (145, 0x10), (149, 0x10), (161, 0xFF)] : List Host.Cell).map
    (fun (e : Nat × Byte) => (0x100000000000 + e.1, e.2)) ++ imageCells 0x100000001000
def owner : State := { State.reset with vfs := [(0, { part := BitVec.ofNat 1024 (1 + 15 * 2 ^ 4 + 2 ^ 64 + 2 ^ 330) })], dealer := { bootstate := 0x1F8 } }
theorem meets_DealerServesItsQueues :
    (dealing 2 0 0).pollReady = true ∧ (dealing 2 0 0).asked (cmdFor 2 0 0) 2 = true ∧ (cmdFor (1 + 2 ^ 9) 0 0).clean = false ∧
    (dealing (1 + 2 ^ 9) 0 0).asked (cmdFor (1 + 2 ^ 9) 0 0) 1 = true ∧ (dealing 1 0 0).refuses 0 = true ∧
    (let s := dealing 1 0 0 [] owner;
      s.asked (cmdFor 1 0 0) 1 = true ∧ (s.queue 0).begun = false ∧ s.refuses ((s.queue 0).f 71 69) = false ∧
        ((s.modDealer Dealer.clearRails).readTimetable 0).isNone) ∧
    (let s := dealing 1 0x100000000000 7 tableCells owner;
      let u := s.modDealer Dealer.clearRails;
      memWf s.mem = true ∧ s.asked (cmdFor 1 0x100000000000 7) 1 = true ∧ (cmdFor 1 0x100000000000 7).clean = true ∧
        s.refuses ((s.queue 0).f 71 69) = false ∧ (u.readTimetable 0x100000000000).any (fun t => u.timetableOk 0 0x100000000000 t &&
          okAnd (u.readImages t) fun fs => !fs.isEmpty && fs.all (fun f => u.inRanges 0 f.image.addr f.span) && t.phases.all fun p => u.imagesOk 0 p fs)) ∧
    (∀ n ∈ [({ kind := 3, code := 0x0D, vf := 0, g := 0, pc := 0, point := 0, tick := 0 } : FaultNote),
        { kind := 1, code := 0x10, vf := 0, g := 0, pc := 0, point := 0, tick := 0, launch := some 1 }], State.reset.noteReady n = true) ∧
    (busy.syscDue).any (fun e => e.2.2.service == 0) = true := by decide +kernel

/-- A command that its queue may not give. -/
def barred (code : Nat) : State :=
  { State.reset with dealer := { queues := [(0, { mapped := true, entry := some (0, entryOf code 0 0) })] } }
theorem meets_HostCommandsTakeEffect_refused :
    ∀ i < 19, let s := barred (0x80 + i);
      s.asked (cmdFor (0x80 + i) 0 0) (0x80 + i) = true ∧ s.hostOk (cmdFor (0x80 + i) 0 0) = false ∧ (s.queue 0).begun = false := by decide +kernel
theorem meets_HostCommandsTakeEffect_queues :
    (let s := dealing 0x80 0x100000000000 1 [(0x100000000008, 4)];
      asks s 0x80 0x100000000000 1 = true ∧ s.mapSlot (cmdFor 0x80 0x100000000000 1) = some 1) ∧
    (let s := dealing 0x81 0x100000000000 0 [] { State.reset with dealer := { queues := [(62, { mapped := true, addr := 0x100000000000 })] } };
      asks s 0x81 0x100000000000 0 = true ∧ s.unmapTarget (cmdFor 0x81 0x100000000000 0) = some 62) ∧
    (let s := dealing 0x81 0 0; asks s 0x81 0 0 = true ∧ s.unmapTarget (cmdFor 0x81 0 0) = some 0) ∧
    (let s := dealing 0x82 7 0x100000000000; asks s 0x82 7 0x100000000000 = true ∧ s.partGood 7 (leRead s.mem 0x100000000000 128) = true ∧
      hostOperand 0x100000000000 128 = true ∧ funcArg 7 = some 7) := by decide +kernel
theorem meets_HostCommandsTakeEffect_simple :
    (∀ e ∈ [(0x83, 7, 0), (0x84, 7, 64), (0x84, 7, 2 ^ 64 - 1), (0x89, 7, 0), (0x8A, 7, 2 ^ 32 - 1), (0x8B, 0x23, 0x300000000000000),
        (0x8C, 0x300000000000000, 0x300000000000000), (0x8D, 0x300000000000000, 0), (0x8E, 3, 0),
        (0x91, 7 + 0xFFFF * 2 ^ 16 + 2 ^ 32, 0x300000000000040), (0x91, 7 + 2 ^ 16, 0), (0x8F, 0, 0x300000000000000)],
      asks (dealing e.1 e.2.1 e.2.2) e.1 e.2.1 e.2.2 = true) ∧
    (((State.reset.beginReset 7 0).queue 0).begun = false ∧ (State.reset.vf 7).used ≤ 2 ^ 32 - 1 ∧ bits 0x23 63 6 = 0 ∧
      hostOperand 0x300000000000000 (8 * bistWords 3 2) = true ∧ hostOperand 0x300000000000000 (64 + sigBytes) = true ∧ tierOf 0x300000000000040 = 6 ∧
      State.reset.dealer.secalarm.getLsbD 5 = false ∧ State.reset.dealer.secalarm.getLsbD 0 = false ∧ State.reset.dealer.bootstate.getLsbD 10 = false ∧
      (0x400 : Word).getLsbD 10 = true ∧ bits State.reset.dealer.bootstate.toNat 4 3 < 3 ∧ State.reset.dealer.launches = []) := by decide +kernel
theorem meets_HostCommandsTakeEffect_contexts :
    (let s := dealing 0x85 0 0 [] calm; asks s 0x85 0 0 = true ∧ slotArg 0 = some 0 ∧ (s.ctx 0).runs = true ∧ s.inRigid 0 = false) ∧
    (let s := dealing 0x85 0 0 [] { calm with dealer := { launches := [{ launch1 false with timed := true, armed := 1, begun := 1 }] } };
      asks s 0x85 0 0 = true ∧ (s.ctx 0).runs = true ∧ s.inRigid 0 = true ∧ (s.ctx 0).launch = some 1 ∧ ((s.stopLaunch 1 true).queue 0).begun = false) ∧
    (let s := dealing 0x86 0 0 [] { State.reset with ctxs := [(0, { state := 3, stop := .faulted, hold := true })] };
      asks s 0x86 0 0 = true ∧ s.held 0 = true ∧ ((s.resume 0).queue 0).begun = false) ∧
    (let s := dealing 0x87 0 0 [] (launched true fun l => l);
      asks s 0x87 0 0 = true ∧ s.launchAt 0 = some 1 ∧ (s.launch 1).isSome ∧ (∀ r ∈ (s.killLaunch 1 3).dealer.resets, r.1 ≠ 0) ∧
        ((s.killLaunch 1 3).queue 0).begun = false ∧ (((s.killLaunch 1 3).beginReset 0 0).queue 0).begun = false) := by decide +kernel
theorem meets_HostCommandsTakeEffect_redo :
    (let s := dealing 0x88 0 0 [] (launched true (fun l => { l with st := .stopped, restarts := [(64, [(64, 64)])] })
        { calm with ctxs := [(0, { state := 3, stop := .faulted, hold := true, launch := some 1, image := 64 })],
                    cores := [(0, { image := some { addr := 64, restart := [(64, 64)] } })] });
      asks s 0x88 0 0 = true ∧ (s.redoTask 0).any (fun u => !(u.queue 0).begun) = true) := by decide +kernel
theorem meets_HostCommandsTakeEffect_transfers :
    (dealing 0x8F 0 0x300000000000000).transferOk (cmdFor 0x8F 0 0x300000000000000) = some 0x300000000000000 ∧
    (let s := dealing 0x90 1 0x300000000000000 [(0x300000000000008, 1)]; asks s 0x90 1 0x300000000000000 = true ∧
      s.transferOk (cmdFor 0x90 1 0x300000000000000) = some 0x300000000000000 ∧ bits (leRead s.mem 0x300000000000000 64) 63 0 = s.payload 1 ∧
      bits (leRead s.mem 0x300000000000000 64) 127 64 = 1) ∧
    let s := dealing 0x92 (3 * 2 ^ 32 + 5 * 2 ^ 16) 0 [] { State.reset with ctxs := [(0, { state := 1, sysc := [{ seq := 5, service := 1, arg0 := 0, arg1 := 0, taken := true }] })] };
    asks s 0x92 (3 * 2 ^ 32 + 5 * 2 ^ 16) 0 = true ∧ s.unanswered 0 5 = some (0, 0) := by decide +kernel
/-- The command is under way. -/
def underway (code opa opb : Nat) (f : DQueue → DQueue := id) (s : State := State.reset) : State :=
  { s with dealer := { s.dealer with queues := tset {} s.dealer.queues 0 (f { mapped := true, priv := true, begun := true, entry := some (0, entryOf code opa opb) }) } }
theorem meets_HostCommandsTakeEffect_ends :
    (let s := underway 0x81 0x100000000000 0 id { State.reset with dealer := { queues := [(62, { mapped := true, addr := 0x100000000000, unmap := some 0 })] } };
      s.asked (cmdFor 0x81 0x100000000000 0) 0x81 = true ∧ s.unmapTarget (cmdFor 0x81 0x100000000000 0) ≠ some 0 ∧
        (s.dealer.queues.find? fun e => e.2.unmap = some 0).any (fun e => e.1 == 62 && e.2.entry.isNone) = true) ∧
    (∀ n ∈ [0x85, 0x86, 0x87, 0x88], let s := underway n 0 0;
      (s.queue 0).begun = true ∧ s.asked (cmdFor n 0 0) n = true ∧ s.leaving 0 = false ∧ s.frameAt 0 = none ∧ s.dealer.resets = [] ∧ s.redone 0 = true ∧ s.dying 0 = false) ∧
    (let s := underway 0x87 0 0 id (launched true fun l => { l with st := .retiring, spares := [(0, 16)] }); s.asked (cmdFor 0x87 0 0) 0x87 = true ∧ s.dying 0 = true ∧ s.dealer.resets = []) ∧
    (∀ e ∈ [(false, 0), (true, 9), (false, 9)], let s := underway 0x8B 0x23 0 fun q => { q with failed := e.1, due := e.2 };
      s.asked (cmdFor 0x8B 0x23 0) 0x8B = true ∧ (s.queue 0).begun = true ∧ (s.queue 0).failed = e.1 ∧ (s.queue 0).due = e.2 ∧ s.tick = 0) ∧
    (∀ n ∈ [0x87, 0x89], let s := underway n 7 0 id { State.reset with dealer := { resets := [(7, 0, 0)] } };
      s.asked (cmdFor n 7 0) n = true ∧ s.drained 7 = true ∧ (s.dealer.resets.find? fun r => r.2.2 = 0) = some (7, 0, 0)) ∧
    (∀ n ∈ [0x8F, 0x90], ∀ b ∈ [true, false], let s := underway n 0 0x300000000000000 fun q => { q with failed := b };
      s.asked (cmdFor n 0 0x300000000000000) n = true ∧ (s.queue 0).failed = b ∧ (s.queue 0).due ≤ s.tick ∧
        s.imageNow (cmdFor n 0 0x300000000000000) = some 0x300000000000000) := by decide +kernel

theorem meets_WindowAlarmsAndBoot :
    State.reset.operable = true ∧ ({ State.reset with dealer := { bootstate := 0x200 } } : State).operable = false ∧
    ((dealing 2 0 0).queue 0).mapped = true ∧ shown none ((dealing 2 0 0).queue 0).desc = true ∧ shown (some 0) ((dealing 2 0 0).queue 0).desc = true ∧
    bits ((dealing 2 0 0).queue 0).desc.toNat 71 69 ≠ 7 ∧
    State.reset.dealer.launches = [] ∧ (launched true fun l => l).dealer.launches ≠ [] ∧
    (0x10000 : Word).getLsbD 16 = true ∧ State.reset.dealer.launched = false ∧ State.reset.dealer.resets = [] ∧
    (let s : State := { State.reset with dealer := { lmargin := [(5, BitVec.ofNat 128 0x10000)] } };
      (tget 0 s.dealer.lmargin 5).getLsbD 16 = true ∧ (tget 0 s.dealer.lmargin 5).getLsbD 17 = false) ∧
    tierOf (0x100000000000 + (2 ^ 30 - 1)) = 3 ∧ tierOf (0x100000000000 + (2 ^ 30 - 1) + 1 - 1) = 3 := by decide +kernel

/-- A bundle with fields at their ends. -/
def widest : List Instr :=
  [.br { fb0 with off := -1 }, .add .sa { fr0 with ty := 31, d := 127, lat := 15 }, .li .sb { fi0 with ty := 8, d := 127, imm := -1 },
   .vfma .a { fr0 with ty := 31, sh := 7, msk := 7, d := 127, c := 127 }, .vaddI .b { fi0 with imm := -1, sat := true },
   .ldS { fm0 with disp := -1, ty := 31 }]
theorem meets_BundlesRoundTrip : widest.map Instr.slot = slots ∧ ∀ i ∈ widest, i.row.isSome = true := by decide +kernel
theorem meets_DecodedWordsEncodeBack :
    okAnd (decodeSyl .c 0b000001_000_0_0000_000_000_0000000_0000000_000_0000_11111111111111111111110#64) (fun _ => true) = true ∧
    ((1#64 ≠ 0 ∧ (1#64).extractLsb' 58 6 = 0) ∧ 16 ≤ ((16#64 <<< 58).extractLsb' 58 6).toNat) := by decide +kernel

/-- Context 0 is about to issue a bundle with one syllable. -/
def aboutTo (i : Instr) : State :=
  State.reset.withFetchWord 384 (encodeBundle (slots.map fun k => if i.slot = k then i else .nop k))
def outcome (s : State) : Host.Outcome State Fault Refusal → Nat
  | .next t => if t.issue.fault.isSome then 1 else if t.issue.block.isSome then 2 else if t.cur = s.cur then 0 else 3
  | _ => 4
theorem meets_StepRunsTheBundle :
    (∀ e ∈ [(Instr.addI .sa { fi0 with lat := 1, ty := 8, d := 3, imm := 5 }, 0), (.trap { fx0 with imm := 0xFFFF }, 1), (.evwait { fx0 with imm := 1 }, 2)],
      let s := aboutTo e.1
      s.agendaHead.isNone ∧ s.dueEvent.isNone ∧ s.nextIssue.any (fun n =>
        let base : State := { s with fresh := s.fresh + 1, tried := n.2 :: s.tried, cur := n.2, issue := {} };
        okAnd (base.fetch n.2) fun f => okAnd (decodeBundle f.1) fun b => (bundleReject b).isNone &&
          outcome base (issueAll b { base with issue := { literal := f.2 } }) == e.2 && b.filter (fun j => !j.isNop) == [e.1]) = true) := by
  decide +kernel
theorem meets_StepRunsTheBundle_fetch :
    (let s : State := { State.reset with agenda := [(0, .tamper)] };
      s.agendaHead.any (fun e => e.1.row.isNone && e.1.eventOk) = true) ∧
    let i : Image := { stream := [0, 1, 2, 0x7FF, 0x800, 0xFFFE] ++ List.replicate 24 7, entries := [0, 5] }
    let s : State := { State.reset with cores := [(0, { image := some i })] };
    (s.core' (coreOf 0)).image = some i ∧ (s.core' (coreOf 0)).badHalf = [] ∧ (s.core' (coreOf 0)).badEntry = [] ∧
      (∀ e ∈ [(0, 0), (1, 1), (2, 2), (3, 0x7FF), (4, 0x800), (5, 0xFFFE)], e.1 < i.stream.length ∧ i.stream.getD e.1 0 = e.2) ∧ i.stream.length ≤ 30 := by
  decide +kernel
theorem meets_CommitAndFaultFrame :
    (let c : Ctx := { lp1 := BitVec.ofNat 64 (2 ^ 24 - 1 + 1 * 2 ^ 24 + 5 * 2 ^ 44), lp0 := BitVec.ofNat 64 (1 + 0 * 2 ^ 24 + 5 * 2 ^ 44) };
      c.lp1 = BitVec.ofNat 64 (2 ^ 24 - 1 + 1 * 2 ^ 24 + 5 * 2 ^ 44) ∧ (c.advance 5).pc = 1 ∧ (c.advance 6).pc = 6 ∧
        ({ c with lp1 := 0 }.advance 5).lp0 = BitVec.ofNat 64 (5 * 2 ^ 44)) ∧
    (calm.me.state = 1 ∧ ({ calm with issue := { next := some 0 } } : State).issue.fault = none ∧ (calm.me.advance (calm.me.pc + 1)).pc = calm.me.pc + 1) ∧
    (∀ b ∈ [false, true], let t : State := { coded with ctxs := [(0, { state := 1, pc := 1, lp0 := BitVec.ofNat 64 (2 + (if b then 1 else 7) * 2 ^ 24 + 2 * 2 ^ 44) })] };
      t.me.state = 1 ∧ t.issue.next = none ∧ (t.me.advance (t.me.pc + 1)).pc ≠ 2 ∧
        (t.image t.cur).any (fun i => i.startsAt (t.me.advance (t.me.pc + 1)).pc == b) = true) ∧
    ({ slot := .e, code := 0x10 } : FaultInfo).mark = none := by decide +kernel

/-- A page table at HBM: a 4 KiB page at 0x1000 and a 2 MiB page at 0x200000, both of attribute entry 1; no entry maps 0x2000. -/
def paged : State :=
  { State.reset with
    mem := leWrite (leWrite (leWrite (leWrite [] 0x100000000000 0x100000001001 8) 0x100000001000 0x100000002001 8) 0x100000002000 0x100000003001 8)
      0x100000002008 (0x100000200000 + 0x1F) 8 |> fun m => leWrite m 0x100000003008 (0x100000005000 + 0x1F) 8
    ctxs := [(0, { state := 1, sreg := [(1, 0x1000), (2, 0x200000)] })]
    vfs := [(0, { part := BitVec.ofNat 1024 (1 + 2 ^ 330 + 0x100000000000 * 2 ^ 384), attrs := [(1, BitVec.ofNat 64 (2 + 3 * 2 ^ 40 + 2 ^ 43))] })] }
/-- The code of a fault. -/
def errOf {α : Type} : Except Halt α → Nat
  | .error (.fault c _ _ _) => c
  | _ => 0
theorem meets_TranslationProtectsFunctions_walk :
    (∀ e ∈ [(0x1000, 0x100000005000), (0x1FFF, 0x100000005FFF), (0x200000, 0x100000200000), (0x3FFFFF, 0x1000003FFFFF)],
      okAnd (paged.xmap 0 (BitVec.ofNat 64 e.1)) (fun x => x.pa == e.2 && x.tier == 3 && x.r && x.w && x.tokreq) = true) ∧
    errOf (paged.xmap 0 0x2000) = 0x10 ∧ errOf (paged.xmap 0 0x1000000000000) = 0x10 ∧
    errOf (({ paged with memBad := [0x100000003000] } : State).xmap 0 0x1000) = 0x14 ∧
    errOf (({ paged with vfs := paged.vfs.map fun (e : Nat × Vf) => (e.1, { e.2 with walk := [(0x100000002000, { val := 0, poison := true })] }) } : State).xmap 0 0x1000) = 0x14 ∧
    errOf (paged.xlate 0 0x1000 true false 0) = 0x13 ∧
    errOf (({ paged with vfs := paged.vfs.map fun (e : Nat × Vf) => (e.1, { e.2 with part := setBits e.2.part 339 330 0 }) } : State).xlate 0 0x1000 true false 0) = 0x11 := by
  decide +kernel
theorem meets_TranslationProtectsFunctions :
    (rangeValid (pages 0x10000 16 0x1000000000 2 2).toNat = true ∧ rangeValid (pages 0x10000 16 0x1000000000 5 2).toNat = false) ∧
    (∀ e ∈ [(0x10000, 0), (0x1FFFF, 0), (0x30000, 2)], isKitty (BitVec.ofNat 64 e.1) = false ∧
      okAnd (mapped.xmap 0 (BitVec.ofNat 64 e.1)) (fun x => x.map == e.2) = true) ∧
    errOf (({ mapped with vfs := [(0, { ranges := [(31, pages 0 16 0x1000000000 3 2)] })] } : State).xmap 0 0) = 0x10 ∧
    (okAnd (mapped.xmap 0 0xFFFF00000000FFFF) (fun x => x.tier == 5) = true ∧ errOf (mapped.xmap 0 0xFFFF000000010000) = 0x10) ∧
    okAnd (mapped.xlate 0 0x10000 true true 0) (fun x => partOk (mapped.vf 0).part.toNat x.pa) = true ∧
    (let s := ready [];
      s.holds s.cur = true ∧ okAnd (s.directPart { space := 1 } (BitVec.ofNat 64 (2 ^ 23 - 64)) 64 true 0) (fun x => x.tier == 1) = true ∧
        errOf (s.directPart { space := 1 } (BitVec.ofNat 64 (2 ^ 23 - 63)) 64 true 0) = 0x10 ∧ errOf (mapped.directPart { space := 1 } 0 64 true 0) = 0x0B) ∧
    (errOf (mapped.directPart {} 0x10000 8 true 31) = 0x12 ∧ okAnd (mapped.directPart {} 0x10000 8 true 32) (fun x => x.tier == 2) = true ∧
      errOf (mapped.directPart {} 0x30000 8 true 64) = 0x12 ∧ okAnd (mapped.remotePart {} 0x30000 true true false) (fun x => x.tier == 3) = true) ∧
    (let s : State := { State.reset with vfs := [(1, { part := BitVec.ofNat 1024 (1 + 2 ^ 320 + 2 ^ 330) })] };
      s.partGood 0 (1 + 2 ^ 330) = true ∧ (s.vf 1).part.getLsbD 0 = true) ∧
    (∀ i ∈ [Instr.stS { near 2 1 with lat := 0 }, .stT { near 2 1 with lat := 0 }],
      (match exec i mapped with | .next t => t.issue.fault.isNone | _ => false) = true) := by decide +kernel
theorem meets_StepsKeepMemoryCanonical :
    let s := queued (.store [⟨0, 5, 0xFF⟩]) false
    memWf s.mem = true ∧ memWf tableCells = true ∧ ∃ t, step s = .next t ∧ t.mem = [(0x1000000040, 5)] :=
  ⟨by decide +kernel, by decide +kernel, _, rfl, by decide +kernel⟩

/-! ### Clauses where instructions fault, wait or stop -/

theorem meets_WrongShapeFaults_forms :
    (∀ e ∈ shapedFR shaped .a { tile3 0x10 0 with ty2 := 0x0E }, one e.1 ∧ e.2.2 = true ∧ ¬ shapeFits shaped 0 e.2.1) ∧
    ((shapedFR shaped .a { tile3 0x10 0 with ty2 := 0x0E, d := 9 }).filter (fun e => !e.2.2)).length = 5 ∧
    (∀ e ∈ shapedFR shaped .a { tile3 0x10 0 with ty2 := 0x0E, d := 9 }, one e.1) ∧
    ∀ i ∈ .vcmpI .b { fi0 with ty := 0x10, d := 0x57 } :: (tilesI .b { fi0 with ty := 0x10, d := 8 }).map (·.1), one i := by decide +kernel
/-- `mapped`, with a fourth shape register. -/
def shape4 (h : ShapeReg) : State :=
  { mapped with ctxs := mapped.ctxs.map fun (e : Nat × Ctx) => (e.1, { e.2 with sh := (4, h) :: e.2.sh }) }
theorem meets_WrongShapeFaults_accesses :
    (let s := shape4 (half 3 5)
     (∀ w ∈ [4, 8, 16, 32], ¬ shapeFits s 4 w) ∧
     ∀ i ∈ [Instr.ldT { near 2 1 with sh := 4 }, .stT { near 2 1 with sh := 4 }], sourcesSound s i ∧ s.eff.space ≤ 2 ∧ s.eff.ord = 0) ∧
    (∀ r ∈ [true, false], ¬ shapeFits mapped 2 8 ∧ okAnd (mapped.tileParts { near 2 1 with sh := 2 } mapped.eff 0x100C0 r (if r then bound 13 16 else 0)) (fun parts =>
      !parts.lines.isEmpty && parts.lines.all fun l => partWidth (near 2 1) l.2.2 == (8, false) && (l.2.2.fmt.map fun f => fmtWidth (fmtOf f)) == some 8) = true) ∧
    (¬ shapeFits remote 0 32 ∧ ∀ i ∈ [Instr.ldx (cmd 8 1 9), .stx (cmd 8 1 9), .stxAdd (cmd 8 1 9)], one i remote) := by decide +kernel

/-- `coded`, at offset `pc`, with s1 = `v`; its bucket table ends with the value 6 for an offset at which nothing starts. -/
def coding (pc : Nat) (v : Word) : State :=
  { coded with ctxs := [(0, { state := 1, pc := pc, sreg := [(1, v)] })]
               cores := [(0, { image := some { stream := [0, 0], interior := [false, false], buckets := [[(4, 1), (5, 1), (6, 7)]] } })] }
theorem meets_Transfers_more :
    ¬ isTarget coded (relative coded (-1)) ∧ ∀ c ∈ [(0 : BitVec 4), 1, 2, 3, 4, 5], one (.bc { fb0 with off := -1, a := 1, cond := c }) coded := by
  decide +kernel
theorem meets_LoopsAndTables_more :
    (∀ n ∈ [2 ^ 24, 2 ^ 24 - 1], one (.loop { fb0 with a := 1 }) (coding 1 (BitVec.ofNat 64 n)) ∧ ((coding 1 (BitVec.ofNat 64 n)).rs 1).toNat = n) ∧
    ¬ isTarget (coding 1 5) ((1 : Int) + 1) ∧ (one (.loop { fb0 with a := 0, off := -1 }) (coding 0 5) ∧ ¬ isTarget (coding 0 5) (relative (coding 0 5) (-1))) ∧
    (one (.jt { fb0 with d := 2, a := 1, off := -1 }) (coding 0 5) ∧ one (.jt { fb0 with d := 1, a := 0 }) (coding 0 5) ∧
      ¬ isTarget (coding 0 5) ((0 : Int) + (((coding 0 5).readS 1).setWidth 32).toInt)) ∧
    (let s := coding 0 7;
      (s.image s.cur).any (fun i => (i.buckets.getD 0 []).all fun e => e.1 < (s.rs 1).toNat) = true ∧ one (.bsel { fb0 with d := 7, a := 1 }) s) ∧
    (let s := coding 0 6;
      (s.image s.cur).any (fun i => ((i.buckets.getD 0 []).find? fun e => (s.rs 1).toNat ≤ e.1) == some (6, 7)) = true ∧ ¬ isTarget s 7 ∧
        one (.bsel { fb0 with d := 7, a := 1 }) s) := by decide +kernel
theorem meets_HaltEndsTheKernel_more :
    (busy.me.haltWaits = true ∧ one (.halt fx0) busy) ∧
    (let s : State := { busy with ctxs := busy.ctxs.map fun (e : Nat × Ctx) => (e.1, { e.2 with halting := true }) };
      (s.ctx 0).halting = true ∧ (s.ctx 0).unwound = false ∧ (s.ctx 0).inflight = [] ∧ ((s.ctx 0).stream 7).bound = true ∧
        (tget {} (s.tower 0).deck 15).owned = true ∧ (tget {} (s.tower 0).deck 15).owner = 0) := by decide +kernel
theorem meets_ControlRegisterWrites_more :
    (∀ n ∈ [6 * 16, 6 * 128], let s := withS [(1, BitVec.ofNat 64 n)]
      one (.wrcr { fr0 with a := 1 }) s ∧ (6 ≤ bits (s.rs 1).toNat 6 4 ∨ 6 ≤ bits (s.rs 1).toNat 9 7)) ∧
    vecHalfOk 0 = false ∧ cubeHalfOk (65 + 2 ^ 7) = false := by decide +kernel

/-- `remote`, with two pages at 0x50000 of which the second lies past the partition's end in the tower. -/
def edge : State :=
  let s := ready [(7, 0x50FC0), (8, 3)]
  { s with vfs := s.vfs.map fun (e : Nat × Vf) => (e.1, { e.2 with ranges := (4, pages 0x50000 2 0x10000FF000 2 2) :: e.2.ranges }) }
theorem meets_AtomicsAndReductionsIssue_protect :
    let o := cmd 1 7 8 2
    tokenFree edge o ∧ remoteRoom edge ∧ (edge.rs 7).toNat % 64 = 0 ∧ edge.eff.ord = 0 ∧ (∀ i ∈ reductionsE o, one i edge) ∧
    okAnd (edge.feActive o 32) (fun act => act.getLsbD 0 && act.getLsbD 16) = true ∧
    okAnd (edge.remotePart edge.eff 0x50FC0 true true false) (fun x => (List.range 128).all fun j =>
      okAnd (edge.xmap 0 (0x50FC0 + BitVec.ofNat 64 (4 * j))) fun y => y.part == x.part && edge.permOk 0 y true true == decide (j < 16)) = true := by
  decide +kernel
theorem meets_PoolAndOwnershipIssue_order :
    (okAnd (remote.xmap remote.me.vfid (remote.rs 4)) fun x =>
      okAnd (((remote.noted (.tacq (cmd 30 4 0))).fillWalk remote.me.vfid x).ordered { scope := 5 }) fun _ => true) = true ∧
    let s : State := { remote with wq := [{ n := 0, g := 0, vf := 0, pa := 0, mods := {}, op := .increment 0, due := 0 }] };
    (okAnd (s.xmap s.me.vfid (s.rs 4)) fun x =>
      match ((s.noted (.tacq (cmd 30 4 0))).fillWalk s.me.vfid x).ordered { scope := 5 } with | .error (.block _ _) => true | _ => false) = true ∧
      one (.tacq (cmd 30 4 0)) s := by decide +kernel
/-- Barrier 15 of tower 0 is bound. -/
def bound15 (b : ByteBar) : State :=
  let s := ready [(7, 0x30040), (8, 1)]
  { s with towers := [(0, { bcs := [(15, { b with bound := true })] })] }
theorem meets_TriggersAndByteBarriersIssue_bound :
    (∀ b ∈ [({ vf := 1 } : ByteBar), {}, { watch := 0x100000000000 }, { watch := 0x100000000000, posted := true }], let s := bound15 b
      (tget {} (s.tower (towerOf s.cur)).bcs 15).bound = true ∧ one (.bcarm (cmd 15 0 0)) s ∧ one (.bcarm (cmd 15 3 8)) s ∧ one (.bcarm (cmd 15 0 8)) s ∧
        one (.bcarm (cmd 15 3 0)) s ∧ s.rs 0 = 0 ∧ s.rs 8 ≠ 0 ∧ s.rs 3 ≠ 0 ∧ tokenFree s (cmd 15 3 8) ∧ (s.newCmd (.bcarm (cmd 15 3 8)) (cmd 15 3 8) {}).after = [] ∧
        okAnd (s.xmap s.me.vfid (s.rs 3)) (fun x => decide (x.tier = 3) && decide (x.pa = 0x100000000000) && decide (portTower x.pa = towerOf s.cur) &&
          s.permOk s.me.vfid x false true) = true) := by decide +kernel
theorem meets_ContextEvents_halt :
    let s : State := { State.reset with ctxs := [(0, { state := 1, halting := true, unwound := true })] }
    (s.ctx 0).halting = true ∧ (s.ctx 0).unwound = true ∧ (s.ctx 0).inflight = [] ∧ ∀ n < 8, ((s.ctx 0).stream n).bound = false := by decide +kernel

theorem meets_EnginesTakeAndEndCommands_more :
    (let k := working (.ldx fe0) 0x10000
     let s := engines { copyRun := some k };
     (s.work k).fault.isNone ∧ (s.work k).room = true ∧ k.flag.all s.portRoom = true) ∧
    (let k := working (.stx fe0) 0
     let s := engines { copyRun := some k };
     (s.work k).fault.isSome ∧ (s.work k).room = true ∧ k.flag.all s.portRoom = true) ∧
    (let k := { working (.cspop fe0) 0 with dest := [⟨.va, 8⟩, ⟨.ma, 7⟩, ⟨.sh, 7⟩] }
     let s := { engines { cond := [(0, { key := some (32, 32, 8), recs := [1, 2 ^ 256 - 1], marks := [2] })] } { remq := [k] } with tick := 1 };
     (s.popReady 0 0).any (fun e => e.2.1 == k && e.2.2 == (32, 32, 8)) = true ∧ ∀ r ∈ [1, 2 ^ 256 - 1], r < 2 ^ (32 * 8)) := by decide +kernel
theorem meets_StreamsMoveTiles_errors :
    (∀ w ∈ [true, false], okAnd (mapped.xlate 0 (byteOf (0x10000 * 8)) (!w) w 0) (fun p => (mapped.accessError p).isNone && mapped.portRoom p.pa) = true ∧
      okAnd (mapped.xlate 0 0x40000 (!w) w 0) (fun p => (({ mapped with deadPeers := [0] } : State).accessError p).isSome) = true) ∧
    savedSlot 0 = none ∧ savedSlot (savedAs 0 0) = some (0, 0) ∧ (mapped.ctx 0).stop ≠ .preempting := by decide +kernel

theorem meets_CubeRunsItsCommands_dispatch :
    (∀ i ∈ [Instr.cconv fe0, .cplane fe0, .cmm { fe0 with d := 4 }, .cmmz { fe0 with d := 4 }], ∀ m ∈ [2 ^ 55, 0],
      ∀ h ∈ [bf16, []], let k := { layer7 i with sa := BitVec.ofNat 64 m }
      let x : Quad := { cmdq := [k], hdr := h }
      x.redo = [] ∧ x.stops = [] ∧ x.parked = [] ∧ x.takes k = true ∧ (cubeAt x).ready k = true ∧ (cubeAt x).engineOpen 3072 k = true ∧
        k.started = false ∧ (lmaskOf k.sa = 0 ↔ m = 0)) ∧
    (∀ e ∈ [(Instr.cconv fe0, bf16, true), (.cmm fe0, bf16, true), (.cconv fe0, [], false), (.cmm fe0, [], false)], let k := layer7 e.1
      let x : Quad := { cmdq := [k], hdr := e.2.1, face := leWrite [] (faceKey 7 0 0 0) (8 + 8 * 2 ^ 16 + 64 * 2 ^ 32 + 2 ^ 88 + 2 ^ 104) 32 }
      ((cubeAt x).planRun { x with cmdq := [], log := x.log ++ [(k, 255, false)] } k (lmaskOf k.sa) none
          (bits k.sa.toNat 17 0) (bits k.sa.toNat 41 24)).isSome = e.2.2) := by decide +kernel

theorem meets_TimetablesRun_ends :
    (∀ l ∈ [({ holder := some 15, ended := true } : Lease), { holder := some 15, count := 32 }], let s := lease1 l;
      (s.quad 0).stops = [] ∧ (s.quad 0).parked = []) ∧
    (let s : State := { calm with bars := [(7, { doneAt := some 0 })] };
      (s.launch (s.bar 7).launch).all (fun l => l.st ≠ .stopped) = true ∧ (s.bar 7).doneAt = some 0) := by decide +kernel

/-- An output stream of tiles of 8 rows of 64 bytes each, over 2 MiB of TSRAM. -/
def tall (tiles : List (Nat × Tile)) : Stream :=
  { out := true, bound := true, reg := 5, tiles := tiles, shape := (half 8 64).setWidth 64,
    view := some (BitVec.ofNat 512 (0x10000 + 64 * 2 ^ 64 + 2 ^ 108 + 64 * 2 ^ 208 + 2 * 2 ^ 398 + 2 ^ 401 + 2 ^ 407)) }
/-- The stream's state, with these lines at the memory ports. -/
def crowded (tiles : List (Nat × Tile)) (l : List Nat) : State :=
  { mapped with
    ctxs := [(0, { state := 1, st := [(7, tall tiles)] })]
    vfs := [(0, { part := BitVec.ofNat 1024 (2 * 2 ^ 264), ranges := [(0, pages 0x10000 512 0x1000000000 2 2)] })]
    wq := l.map fun j => { n := j, g := nobody, vf := 0, pa := 0x1000000000 + 512 * j, mods := {}, op := .store [⟨0, 5, 0xFF⟩], due := 99 } }
theorem tall_places : (List.range 2689).all (fun i => (tall []).walk.any fun x => x.2.1.valid 0 && ((x.1.tileElem x.2.1 i 0).bind x.1.stored).any fun y =>
    okAnd ((crowded [] []).xlate 0 (byteOf (x.1.bitAddr y)) false true 0) fun p =>
      p.pa == 0x1000000000 + 512 * i && ((crowded [] []).accessError p).isNone) = true := by decide +kernel
/-- Of 2,689 lines 57 wait at one of a tower's 48 bank ports. -/
theorem crowded_port : ∃ l : List Nat, ∃ i < 2689, l.Nodup ∧ i ∉ l ∧ 56 ≤ l.length ∧
    ∀ j ∈ l, j < 2689 ∧ Config.port ((0x1000000000 + 512 * j) / 64) % 48 = Config.port ((0x1000000000 + 512 * i) / 64) % 48 := by
  obtain ⟨y, -, hy⟩ := Finset.exists_lt_card_fiber_of_mul_lt_card_of_maps_to (s := Finset.range 2689) (t := Finset.range 48) (n := 56)
    (f := fun j => Config.port ((0x1000000000 + 512 * j) / 64) % 48) (fun j _ => Finset.mem_range.2 (Nat.mod_lt _ (by decide))) (by rw [Finset.card_range, Finset.card_range]; decide)
  obtain ⟨i, hi⟩ := Finset.card_pos.1 (Nat.lt_of_le_of_lt (Nat.zero_le _) hy)
  refine ⟨(Finset.erase ((Finset.range 2689).filter fun x => Config.port ((0x1000000000 + 512 * x) / 64) % 48 = y) i).toList, i, Finset.mem_range.1 (Finset.mem_filter.1 hi).1, Finset.nodup_toList _, by simp, ?_, fun j hj => ?_⟩
  · rw [Finset.length_toList, Finset.card_erase_of_mem hi]; omega
  · have h := Finset.mem_filter.1 (Finset.mem_of_mem_erase (Finset.mem_toList.1 hj))
    exact ⟨Finset.mem_range.1 h.1, h.2.trans (Finset.mem_filter.1 hi).2.symm⟩
theorem port_of_line (i : Nat) (h : i < 2689) : portOf (0x1000000000 + 512 * i) = (0, Config.port ((0x1000000000 + 512 * i) / 64) % 48) := by
  have ht : tierOf (0x1000000000 + 512 * i) = 2 := by
    unfold tierOf; rw [if_pos (by omega)]
  have hp : portTower (0x1000000000 + 512 * i) = 0 := by
    unfold portTower; rw [if_pos ht]; omega
  simp only [portOf, ht, hp]
theorem crowded_full (t : List (Nat × Tile)) (l : List Nat) (i : Nat) (hn : l.Nodup) (hi : i ∉ l) (hl : 56 ≤ l.length)
    (hp : ∀ j ∈ l, portOf (0x1000000000 + 512 * j) = portOf (0x1000000000 + 512 * i)) :
    (crowded t l).portRoom (0x1000000000 + 512 * i) = false := by
  have hw : ((crowded t l).wq.filter fun e => !e.face && portOf e.pa = portOf (0x1000000000 + 512 * i)) = (crowded t l).wq := by
    refine List.filter_eq_self.2 fun e he => ?_
    obtain ⟨j, hj, rfl⟩ := List.mem_map.1 he
    simpa using hp j hj
  have hm : ∀ a, a ∈ (crowded t l).portLines (portOf (0x1000000000 + 512 * i)) ↔ ∃ j ∈ l, 0x40000000 + 8 * j = a := by
    intro a
    unfold State.portLines
    rw [hw, List.mem_eraseDups]
    simp only [crowded, List.map_map, List.mem_map, Function.comp]
    exact exists_congr fun j => and_congr_right fun _ => by omega
  have hs : 56 ≤ ((crowded t l).portLines (portOf (0x1000000000 + 512 * i))).length := by
    have hd : (l.map fun j => 0x40000000 + 8 * j).Nodup := hn.map fun a b h => by simpa using h
    have := (List.subperm_of_subset hd fun a ha => (hm a).2 (by simpa using ha)).length_le
    simp at this; omega
  have hc : (0x1000000000 + 512 * i) / 64 ∉ (crowded t l).portLines (portOf (0x1000000000 + 512 * i)) := by
    rw [hm]; rintro ⟨j, hj, h⟩
    have : j = i := by omega
    exact hi (this ▸ hj)
  unfold State.portRoom
  simp [hc]; omega
theorem crowded_xlate (t : List (Nat × Tile)) (l : List Nat) (v : Nat) (va : Word) (rd wr : Bool) (c : Nat) :
    (crowded t l).xlate v va rd wr c = (crowded [] []).xlate v va rd wr c := rfl
theorem crowded_error (t : List (Nat × Tile)) (l : List Nat) (p : Xlate) : (crowded t l).accessError p = (crowded [] []).accessError p := rfl
theorem put_room (k : Cmd) (l : Layout) (h : VShape) (t : Nat) (d : Tile) (a : TileAcc) (i : Nat) (ha : a.room = false) :
    (TileAcc.put k l h t d a i).room = false := by
  unfold TileAcc.put
  repeat' (first | split | assumption | simp [ha])
theorem puts_room (k : Cmd) (l : Layout) (h : VShape) (t : Nat) (d : Tile) (is : List Nat) (a : TileAcc) (ha : a.room = false) :
    (is.foldl (TileAcc.put k l h t d) a).room = false := by
  induction is generalizing a with
  | nil => exact ha
  | cons i is ih => exact ih _ (put_room k l h t d a i ha)
theorem meets_StreamsMoveTiles_full : ∃ (s : State) (l : Layout) (h : VShape) (w i : Nat) (data : Tile) (rest : List (Nat × Tile)),
    let t := s.slotStream 0 7
    t.walk = some (l, h, w) ∧ t.bound = true ∧ t.held = false ∧ t.due ≤ s.tick ∧ t.out = true ∧ t.tiles = (i, data) :: rest ∧
      ((List.range (elems w)).foldl (TileAcc.put (s.streamCmd 0 t) l h i data) { s := s }).done.room = false := by
  obtain ⟨ls, i, hi, hn, hl, h56, hp⟩ := crowded_port
  obtain ⟨l, h, w, hw⟩ : ∃ l h w, (tall []).walk = some (l, h, w) := ⟨_, _, _, rfl⟩
  have hk := List.all_eq_true.1 tall_places i (List.mem_range.2 hi)
  simp only [hw, Option.any_some, Bool.and_eq_true] at hk
  obtain ⟨hv, hk⟩ := hk
  obtain ⟨y, hy, hk⟩ := (Option.any_eq_true _ _).1 hk
  obtain ⟨x, hx, hy⟩ := Option.bind_eq_some_iff.1 hy
  obtain ⟨p, hxl⟩ : ∃ p, (crowded [] []).xlate 0 (byteOf (l.bitAddr y)) false true 0 = .ok p := by
    revert hk; cases (crowded [] []).xlate 0 (byteOf (l.bitAddr y)) false true 0 <;> simp [okAnd]
  simp only [hxl, okAnd, Bool.and_eq_true, beq_iff_eq, Option.isNone_iff_eq_none] at hk
  have hr : (crowded [(i, 0)] ls).portRoom p.pa = false := by
    rw [hk.1]
    exact crowded_full _ _ _ hn hl h56 fun j hj => by rw [port_of_line j (hp j hj).1, port_of_line i hi, (hp j hj).2]
  generalize hd : (0 : Tile) = data at hr
  refine ⟨crowded [(i, data)] ls, l, h, w, i, data, [], hw, rfl, rfl, Nat.le_refl _, rfl, rfl, ?_⟩
  have hw8 : (tall []).walk.map (fun x => elems x.2.2) = some 512 := by decide +kernel
  have he : elems w = Nat.succ 511 := by
    rw [hw, Option.map_some] at hw8; exact Option.some.inj hw8
  generalize 511 = m at he
  rw [he, List.range_succ_eq_map, List.foldl_cons]
  refine puts_room _ _ _ _ _ _ _ ?_
  have h1 : (crowded [(i, data)] ls).xlate 0 (byteOf (l.bitAddr y)) false true 0 = .ok p := (crowded_xlate ..).trans hxl
  have h2 : (crowded [(i, data)] ls).accessError p = none := (crowded_error ..).trans hk.2
  have h3 : ((crowded [(i, data)] ls).streamCmd 0 ((crowded [(i, data)] ls).slotStream 0 7)).vf = 0 := rfl
  unfold TileAcc.put
  simp [hv, hx, hy, h1, h2, h3, hr]
theorem meets_EnginesTakeAndEndCommands_full : ∃ (s : State) (k : Cmd), (s.quad 0).copyRun = some k ∧ k.due ≤ s.tick ∧ k.flag.all s.portRoom = false := by
  obtain ⟨ls, i, hi, hn, hl, h56, hp⟩ := crowded_port
  let k : Cmd := { working (.ldx fe0) 0x10000 with flag := some (0x1000000000 + 512 * i) }
  refine ⟨{ crowded [] ls with quads := [(0, { copyRun := some k })] }, k, rfl, Nat.le_refl _, ?_⟩
  exact crowded_full [] ls i hn hl h56 fun j hj => by rw [port_of_line j (hp j hj).1, port_of_line i hi, (hp j hj).2]

/-! The Dealer, and steps -/

/-- A timetable whose header names two phases, but holds one. -/
def shortTable : List Host.Cell := tableCells.map fun (c : Host.Cell) => if c.1 = 0x100000000000 then (c.1, 2) else c
/-- The table without the image's number of entries. -/
def badImage : List Host.Cell := tableCells.filter fun c => c.1 ≠ 0x100000001000
/-- What LAUNCH of queue 0 sees. -/
def seen (s : State) : State := let u := s.modDealer Dealer.clearRails; u.dealerMet 0 (u.launchReads 0x100000000000)
theorem meets_DealerServesItsQueues_launch :
    (let s := dealing 1 0x100000000000 7 tableCells owner
     let w := seen s
     (s.queue 0).f 71 69 = 0 ∧ (w.readTimetable 0x100000000000).any (fun t => w.timetableOk 0 0x100000000000 t && okAnd (w.readImages t) fun fs =>
       !fs.isEmpty && fs.all (fun f => w.inRanges 0 f.image.addr f.span) && t.phases.all fun p => w.imagesOk 0 p fs) = true) ∧
    (let s := dealing 1 0x100000000000 7 shortTable owner;
      s.refuses 0 = false ∧ s.asked (cmdFor 1 0x100000000000 7) 1 = true ∧ ((seen s).readTimetable 0x100000000000).isNone) ∧
    (let s := dealing 1 0x100000000000 7 tableCells { owner with vfs := [(0, { part := BitVec.ofNat 1024 (1 + 2 ^ 64 + 2 ^ 330) })] };
      s.refuses 0 = false ∧ s.asked (cmdFor 1 0x100000000000 7) 1 = true ∧ ((seen s).readTimetable 0x100000000000).any (fun t => !(seen s).timetableOk 0 0x100000000000 t) = true) ∧
    (let s := dealing 1 0x100000000000 7 badImage owner;
      s.refuses 0 = false ∧ s.asked (cmdFor 1 0x100000000000 7) 1 = true ∧ ((seen s).readTimetable 0x100000000000).any (fun t =>
        (seen s).timetableOk 0 0x100000000000 t && !okAnd ((seen s).readImages t) fun _ => true) = true) := by decide +kernel

/-- An UNMAPQ is under way on queue 0, of slot 62. -/
def joining (by' : Option Nat) (entry : Option (Nat × BitVec 512)) : State :=
  underway 0x81 0x100000000000 0 id
    { State.reset with dealer := { queues := [(62, { mapped := true, addr := 0x100000000000, unmap := by', entry := entry })] } }
theorem meets_HostCommandsTakeEffect_joins :
    (∀ e ∈ [((some 0 : Option Nat), (none : Option (Nat × BitVec 512))), (some 0, some (5, 0)), (none, none)], let s := joining e.1 e.2
      s.asked (cmdFor 0x81 0x100000000000 0) 0x81 = true ∧ s.hostOk (cmdFor 0x81 0x100000000000 0) = true ∧
        s.unmapTarget (cmdFor 0x81 0x100000000000 0) ≠ some 0 ∧
        (s.dealer.queueAt 0x100000000000).any (fun x => x.1 == 62 && x.2.unmap == e.1 && x.2.entry == e.2) = true) ∧
    (let s := underway 0x81 0x100000000000 0; s.asked (cmdFor 0x81 0x100000000000 0) 0x81 = true ∧ s.dealer.queueAt 0x100000000000 = none) ∧
    (∀ q ∈ [0, 5], let s := underway 0x89 7 0 id { State.reset with dealer := { resets := [(7, 0, q)] } }
     
      s.asked (cmdFor 0x89 7 0) 0x89 = true ∧ (s.dealer.resets.find? fun r => r.1 = 7) = some (7, 0, q)) ∧
    (let s := underway 0x89 7 0; s.asked (cmdFor 0x89 7 0) 0x89 = true ∧ ∀ r ∈ s.dealer.resets, r.1 ≠ 7) ∧
    (let s := dealing 0x89 7 0 [] { State.reset with dealer := { resets := [(7, 0, 5)] } };
      asks s 0x89 7 0 = true ∧ funcArg 7 = some 7 ∧ ∃ r ∈ s.dealer.resets, r.1 = 7) ∧
    (let s := underway 0x8F 16 0xFFFF000000000000;
      s.asked (cmdFor 0x8F 16 0xFFFF000000000000) 0x8F = true ∧ s.imageNow (cmdFor 0x8F 16 0xFFFF000000000000) = none) := by decide +kernel

theorem meets_EveryMeaningAnswers :
    (∀ e ∈ [(Instr.halt fx0), .haltComplete 3072], let s : State := { State.reset with agenda := [(0, e)] };
      s.agendaHead.any (fun x => x.1 == e && (x.1.row.isSome || !x.1.eventOk)) = true) ∧
    (∀ w ∈ [2 ^ 63, 0x049900000000000000], let s := State.reset.withFetchWord 384 w
      s.agendaHead = none ∧ s.dueEvent.isNone ∧ s.nextIssue.any (fun n =>
        okAnd (State.fetch { s with fresh := s.fresh + 1, tried := n.2 :: s.tried, cur := n.2, issue := {} } n.2) fun f =>
          match decodeBundle f.1 with | .error _ => true | .ok b => (bundleReject b).isSome) = true) ∧
    State.reset.agendaHead = none ∧ State.reset.dueEvent.isNone ∧ State.reset.nextIssue = none := by decide +kernel
/-- Two bundles, the loop LP1 from offset `start` to the end of the stream. -/
def looping (pc start n : Nat) : State :=
  { coded with ctxs := [(0, { state := 1, pc := pc, lp1 := BitVec.ofNat 64 (n + start * 2 ^ 24 + 2 * 2 ^ 44) })] }
theorem meets_CommitAndFaultFrame_loops :
    (∀ e ∈ [(0, true), (1, true), (2, false), (3, false)], let t := looping 1 e.1 2
      t.me.state = 1 ∧ t.issue.fault = none ∧ t.issue.next = none ∧ t.me.loopsBack 2 = true ∧
        (t.image t.cur).any (fun i => i.startsAt (t.me.advance 2).pc == e.2) = true) ∧
    (∀ n ∈ [0, 1], (looping 1 0 n).me.loopsBack 2 = false) ∧ (looping 0 0 2).me.loopsBack 1 = false := by decide +kernel
theorem meets_StepRunsTheBundle_errors :
    (∀ e ∈ [(0, 0x01), (1, 0x02), (2, 0x04), (3, 0x03)], let s : State := { State.reset with
        cores := [(0, { image := some { stream := [1, 0x800, 0] }, badHalf := [2] })], ctxs := [(0, { state := 1, pc := e.1 })] }
      s.agendaHead = none ∧ s.dueEvent.isNone ∧ s.nextIssue.any (fun n =>
        match State.fetch { s with fresh := s.fresh + 1, tried := n.2 :: s.tried, cur := n.2, issue := {} } n.2 with | .error c => c == e.2 | .ok _ => false) = true) ∧
    (1 ≤ 0x7FF ∧ 0x7FF < 0x800) := by decide +kernel

end Sys2Proof.Tests
end

namespace Sys2Proof.Machine

/-! ### What memory traffic leaves (R235, R341, R354, R390)

A write reaches memory, the write queues and caches, the trigger tables, the walk caches and counters of a function, the records of a
context, and a doorbell's TAIL. Everything else stands beside it. -/

/-- The state without what a write, the triggers behind it, the walks of its translation and the records of what it meets can change. -/
def State.aside (s : State) : State :=
  { s with mem := [], memBad := [], memSoft := [], wq := [], cache := [], ctxs := [], vfs := [], towers := [], serial := 0,
           dealer := { s.dealer with queues := [] } }

/-- What each step of a fold leaves, the fold leaves. -/
theorem foldl_same {α β γ : Type} (p : α → γ) (f : α → β → α) (h : ∀ a b, p (f a b) = p a) (l : List β) (a : α) :
    p (l.foldl f a) = p a :=
  foldl_keeps (fun x => p x = p a) f (fun x b hx => (h x b).trans hx) l a rfl

/-- An event that may come acts; another one leaves the state. -/
theorem event_pos {b : Bool} {s t : State} (h : b = true) : event b s t = .next t := by rw [event, if_pos h]
theorem event_neg {b : Bool} {s t : State} (h : b = false) : event b s t = .next s := by rw [event, if_neg (by simp [h])]

@[simp] theorem modCtx_aside (s : State) (g : Nat) (f : Ctx → Ctx) : (s.modCtx g f).aside = s.aside := rfl
@[simp] theorem modVf_aside (s : State) (v : Nat) (f : Vf → Vf) : (s.modVf v f).aside = s.aside := rfl
@[simp] theorem modTower_aside (s : State) (t : Nat) (f : Tower → Tower) : (s.modTower t f).aside = s.aside := rfl
@[simp] theorem vfSat_aside (s : State) (v i j n : Nat) : (s.vfSat v i j n).aside = s.aside := rfl
@[simp] theorem modSaved_aside (s : State) (v g : Nat) (f : Saved → Saved) : (s.modSaved v g f).aside = s.aside := rfl
@[simp] theorem cleanLines_aside (s : State) (p : Nat → Bool) : (s.cleanLines p).aside = s.aside := rfl
@[simp] theorem dropLines_aside (s : State) (p : Nat → Bool) : (s.dropLines p).aside = s.aside := rfl
@[simp] theorem enqueue_aside (s : State) (e : WqEntry) : (s.enqueue e).aside = s.aside := rfl
@[simp] theorem clearCovered_aside (s : State) (l : List (Nat × Byte)) : (s.clearCovered l).aside = s.aside := rfl
@[simp] theorem countBytes_aside (s : State) (pa n : Nat) : (s.countBytes pa n).aside = s.aside := by
  unfold State.countBytes
  exact foldl_same State.aside _ (fun _ _ => by rfl) _ _
@[simp] theorem countSoft_aside (s : State) (v pa n : Nat) : (s.countSoft v pa n).aside = s.aside := by
  unfold State.countSoft
  exact foldl_same State.aside _ (fun _ _ => vfSat_aside _ _ _ _ _) _ _
@[simp] theorem countBad_aside (s : State) (v pa n : Nat) : (s.countBad v pa n).aside = s.aside := by
  unfold State.countBad
  exact foldl_same State.aside _ (fun _ _ => vfSat_aside _ _ _ _ _) _ _
@[simp] theorem markWalk_aside (s : State) (v a : Nat) : (s.markWalk v a).aside = s.aside := by
  unfold State.markWalk
  split <;> rfl
@[simp] theorem keepWalk_aside (s : State) (v : Nat) (l : List (Nat × Word)) : (s.keepWalk v l).aside = s.aside := by
  unfold State.keepWalk
  split
  · rfl
  · exact (modVf_aside _ _ _).trans (foldl_same State.aside _ (fun _ _ => countSoft_aside _ _ _ _) _ _)
@[simp] theorem walkKept_aside (s : State) (v : Nat) (va : Word) : (s.walkKept v va).aside = s.aside := by
  unfold State.walkKept
  dsimp only
  split <;> simp
@[simp] theorem packetWalks_aside (s : State) (v p : Nat) : (s.packetWalks v p).aside = s.aside := by
  unfold State.packetWalks
  dsimp only
  split <;> simp
theorem ringTail_aside (s t : State) (v pa : Nat) (h : s.ringTail v pa = some t) : t.aside = s.aside := by
  unfold State.ringTail at h
  split at h
  · split at h <;> cases h
    rfl
  · dsimp only at h
    split at h <;> cases h
    rfl
/-- A fired packet rings a doorbell or queues its write. -/
theorem firePacket_aside (s t : State) (v p : Nat) (h : s.firePacket v p = some t) : t.aside = s.aside := by
  unfold State.firePacket at h
  dsimp only at h
  split at h
  · obtain ⟨x, -, hx⟩ := Option.bind_eq_some_iff.1 h
    exact ringTail_aside _ _ _ _ hx
  · obtain ⟨x, -, hx⟩ := Option.bind_eq_some_iff.1 h
    split at hx
    · cases hx
    · split at hx
      · split at hx <;> cases hx
        rfl
      · obtain ⟨y, -, hy⟩ := Option.bind_eq_some_iff.1 hx
        split at hy <;> cases hy
        rfl
  · obtain ⟨x, -, hx⟩ := Option.bind_eq_some_iff.1 h
    split at hx <;> cases hx
    rfl
@[simp] theorem testTrigger_aside (s : State) (w : Nat) : (s.testTrigger w).aside = s.aside := by
  unfold State.testTrigger
  split
  · rfl
  extract_lets t
  split
  · rfl
  next i _ =>
    extract_lets e fired quiet
    have hq : quiet.aside = s.aside := by simp [quiet, fired]
    split
    · split
      · next h => exact (firePacket_aside _ _ _ _ h).trans hq
      · exact (vfSat_aside _ _ _ _ _).trans hq
    · rfl
@[simp] theorem putByte_aside (s : State) (pa : Nat) (v e : Byte) : (s.putByte pa v e).aside = s.aside := by
  unfold State.putByte
  split <;> rfl
@[simp] theorem cacheFill_aside (s : State) (n : Nat) (k : Bool) : (s.cacheFill n k).aside = s.aside := by
  unfold State.cacheFill
  split
  · rfl
  · have room : (if s.cache.length < cacheLines then s else match s.cache with
        | [] => s
        | l :: rest => { s with cache := rest, mem := writeBack s.mem l }).aside = s.aside := by
      repeat' split
      all_goals rfl
    exact room
@[simp] theorem storeCells_aside (s : State) (pa : Nat) (cells : List Sys2Proof.Cell) (c : Nat) :
    (s.storeCells pa cells c).aside = s.aside := by
  unfold State.storeCells
  extract_lets filled stored cleaned
  have hf : filled.aside = s.aside := by
    unfold filled
    split
    · exact foldl_same State.aside _ (fun _ _ => cacheFill_aside _ _ _) _ _
    · rfl
  have hs : stored.aside = s.aside := (foldl_same State.aside _ (fun _ _ => putByte_aside _ _ _ _) _ _).trans hf
  have hc : cleaned.aside = s.aside := by
    unfold cleaned
    split
    · exact (cleanLines_aside _ _).trans hs
    · exact hs
  exact hc
@[simp] theorem performWrite_aside (s : State) (pa : Nat) (cells : List Sys2Proof.Cell) (c : Nat) :
    (s.performWrite pa cells c).aside = s.aside :=
  (foldl_same State.aside _ testTrigger_aside _ _).trans (storeCells_aside s pa cells c)
@[simp] theorem framePut_aside (s : State) (v g off n val : Nat) : (s.framePut v g off n val).aside = s.aside :=
  performWrite_aside _ _ _ _
@[simp] theorem framePost_aside (s : State) (v g : Nat) (r : EvRec) : (s.framePost v g r).aside = s.aside := by
  unfold State.framePost
  extract_lets cfg n recent old l put told
  have hp : put.aside = s.aside := foldl_same State.aside _ (fun _ _ => framePut_aside _ _ _ _ _ _) _ _
  have ht : told.aside = s.aside := (modSaved_aside _ _ _ _).trans hp
  clear_value told
  split
  · exact (framePut_aside _ _ _ _ _ _).trans ht
  · exact (modCtx_aside _ _ _).trans ((framePut_aside _ _ _ _ _ _).trans ht)
@[simp] theorem postTo_aside (s : State) (v g : Nat) (r : EvRec) : (s.postTo v g r).aside = s.aside := by
  unfold State.postTo
  split
  · rfl
  · split <;> simp
@[simp] theorem tellSoft_aside (s : State) (v g u : Nat) : (s.tellSoft v g u).aside = s.aside := by
  unfold State.tellSoft
  split <;> simp
@[simp] theorem eccMet_aside (s : State) (v g pa n : Nat) : (s.eccMet v g pa n).aside = s.aside := by
  unfold State.eccMet
  exact (foldl_same State.aside _ (fun _ _ => by simp) _ _).trans (countBad_aside s v pa n)
@[simp] theorem dealerMet_aside (s : State) (v : Nat) (l : List (Nat × Nat)) : (s.dealerMet v l).aside = s.aside :=
  foldl_same State.aside _ (fun _ _ => eccMet_aside _ _ _ _ _) _ _
@[simp] theorem walkTold_aside (s : State) (v g : Nat) (l : List (Nat × Word)) : (s.walkTold v g l).aside = s.aside :=
  (foldl_same State.aside _ (fun _ _ => tellSoft_aside _ _ _ _) _ _).trans (keepWalk_aside s v l)
@[simp] theorem fillWalkFor_aside (s : State) (v g : Nat) (x : Xlate) : (s.fillWalkFor v g x).aside = s.aside := walkTold_aside _ _ _ _
@[simp] theorem walked_aside (s : State) (v g : Nat) (va : Word) : (s.walked v g va).aside = s.aside := by
  unfold State.walked
  dsimp only
  split <;> simp
@[simp] theorem incrementFlag_aside (s : State) (v g pa n c : Nat) : (s.incrementFlag v g pa n c).aside = s.aside := by
  unfold State.incrementFlag
  dsimp only
  split <;> simp
@[simp] theorem testRange_aside (s : State) (a n : Nat) : (s.testRange a n).aside = s.aside :=
  foldl_same State.aside _ testTrigger_aside _ _
@[simp] theorem rawCopy_aside (s : State) (src dst n : Nat) : (s.rawCopy src dst n).aside = s.aside := testRange_aside _ _ _
@[simp] theorem snapMove_aside (s : State) (v : Nat) (e : Word × Nat × Nat) (back : Bool) : (s.snapMove v e back).aside = s.aside := by
  unfold State.snapMove
  dsimp only
  split
  · rfl
  · refine foldl_same State.aside _ (fun t i => ?_) _ _
    split <;> simp
@[simp] theorem announce_aside (s : State) (b : Nat) (ok : Nat → Bool) (r : EvRec) : (s.announce b ok r).aside = s.aside := by
  refine foldl_same State.aside _ (fun t e => ?_) _ _
  split <;> simp

/-! ### What a write behind the queues leaves (R298, R341)

An engine's or the Dealer's write performs first what waits for its lines, a store into a cube's face among it. -/

/-- The state beside memory traffic, and without the quads. -/
def State.apart (s : State) : State := { s.aside with quads := [] }
theorem apart_of_aside {s t : State} (h : t.aside = s.aside) : t.apart = s.apart := by
  unfold State.apart
  rw [h]

@[simp] theorem modQuad_apart (s : State) (q : Nat) (f : Quad → Quad) : (s.modQuad q f).apart = s.apart := rfl
@[simp] theorem settleLine_aside (s : State) (m : Mods) (pa : Nat) : (s.settleLine m pa).aside = s.aside := by
  unfold State.settleLine
  split <;> simp
@[simp] theorem dropReduction_aside (s : State) (v g code n : Nat) (va : Word) : (s.dropReduction v g code n va).aside = s.aside :=
  (postTo_aside _ _ _ _).trans (vfSat_aside _ _ _ _ _)
@[simp] theorem engineMeets_aside (s : State) (k : Cmd) (pa n : Nat) : (s.engineMeets k pa n).aside = s.aside := eccMet_aside _ _ _ _ _
/-- A queued entry, performed at its port, changes a face at most beside memory. -/
@[simp] theorem performEntry_apart (s : State) (e : WqEntry) : (s.performEntry e).apart = s.apart := by
  unfold State.performEntry
  split
  next cells _ =>
    split
    · simp
    refine apart_of_aside ?_
    split
    · simp
    · split <;> simp
  next i w vals n _ =>
    refine apart_of_aside ?_
    split
    · exact (dropReduction_aside _ _ _ _ _ _).trans rfl
    · refine (settleLine_aside _ _ _).trans (foldl_same State.aside _ (fun t x => ?_) _ _)
      dsimp only
      split <;> simp
  next n _ =>
    refine apart_of_aside ?_
    split <;> simp
@[simp] theorem applyEntry_apart (s : State) (n : Nat) : (s.applyEntry n).apart = s.apart := by
  unfold State.applyEntry
  split
  · exact (performEntry_apart _ _).trans rfl
  · rfl
@[simp] theorem drainLine_apart (s : State) (pa : Nat) : (s.drainLine pa).apart = s.apart :=
  foldl_same State.apart _ applyEntry_apart _ _
@[simp] theorem portWrite_apart (s : State) (pa : Nat) (cells : List Sys2Proof.Cell) (c : Nat) : (s.portWrite pa cells c).apart = s.apart :=
  (apart_of_aside (performWrite_aside _ _ _ _)).trans (foldl_same State.apart _ (fun _ _ => drainLine_apart _ _) _ _)
@[simp] theorem dealerWrite_apart (s : State) (pa v n : Nat) : (s.dealerWrite pa v n).apart = s.apart := portWrite_apart _ _ _ _

end Sys2Proof.Machine

namespace Sys2Proof.Claims
open Sys2Proof.Machine

/-! ### Cube instructions and the lease (R31, R32, R195, R205) -/

/-- A syllable that first asks for the lease ends as that asking ends, where it ends in a fault or a block. -/
theorem syl_accept_error (s : State) (i : Instr) (f : State → State → Except Halt State) (h : Halt) (hr : s.operandsReady i = true)
    (ha : (s.noted i).accept = .error h) : s.syl i (fun t => t.accept.bind (f t)) = settle i.slot s (.error h) := by
  rw [syl_ready s i _ hr, ha]
  rfl

/-- What `accept` answers in a state whose syllable's operands have been noted. -/
theorem accept_noted (s : State) (i : Instr) : (s.noted i).accept =
    if s.holds s.cur then
      if (s.quad (quadOf s.cur)).lease.room s.tick then
        .ok ((s.noted i).modQuad (quadOf s.cur) fun x => { x with lease := { x.lease with count := x.lease.count + 1 } })
      else if s.inRigid s.cur then .error (.code 0x0D) else .error (.block 9 .wantLease)
    else if !s.inRigid s.cur && (s.quad (quadOf s.cur)).lease.reqs.contains (s.cur % 16) then .error (.block 9 .none)
    else .error (.code 0x0B) := rfl

/-- The instructions of the cube that count against its lease (R195). -/
def leased (o : FE) : List Instr :=
  [.cmm o, .cmmz o, .cconv o, .cplane o, .csmeta o, .cseq o, .cfill o, .cswap o, .crdacc o, .cwracc o, .cdrain o, .ckat o, .cbist o]

/-- Each of them stands in slot E and asks for the lease before anything else. -/
theorem exec_leased (o : FE) (s : State) : ∀ i ∈ leased o,
    i.slot = .e ∧ ∃ f : State → State → Except Halt State, exec i s = s.syl i fun t => t.accept.bind (f t) := by
  simp only [leased, List.forall_mem_cons, List.not_mem_nil, false_imp_iff, implies_true, and_true]
  refine ⟨?_, ?_, ?_, ?_, ?_, ?_, ?_, ?_, ?_, ?_, ?_, ?_, ?_⟩ <;> exact ⟨rfl, _, rfl⟩

/-- A cube instruction whose asking for the lease fails takes that fault or block. -/
theorem exec_leased_error (o : FE) (s : State) (i : Instr) (hi : i ∈ leased o) (h : Halt) (hr : s.operandsReady i = true)
    (ha : (s.noted i).accept = .error h) : exec i s = settle .e s (.error h) := by
  obtain ⟨hs, f, hf⟩ := exec_leased o s i hi
  rw [hf, syl_accept_error s i f h hr ha, hs]

/-- Settles O37: a cube instruction asks for the lease behind the common checks, and each refusal is one branch of that asking. -/
theorem cubeCommandsNeedTheLease : Obligations.CubeCommandsNeedTheLease := by
  intro s o l i hi hr
  have refused := fun h => exec_leased_error o s i hi h hr
  refine ⟨fun hh hq => ?_, fun hh hg hq => ?_, fun hh hm hg => ?_, fun hh hm hg => ?_⟩
  · refine refused (.code 0x0B) ?_
    have : (!s.inRigid s.cur && l.reqs.contains (s.cur % 16)) = false := by
      rcases hq with hq | hq <;> rw [hq] <;> simp only [Bool.not_true, Bool.false_and, Bool.and_false]
    rw [accept_noted, hh, if_neg Bool.false_ne_true, this, if_neg Bool.false_ne_true]
  · refine refused (.block 9 .none) ?_
    rw [accept_noted, hh, hg, hq]
    rfl
  · refine refused (.block 9 .wantLease) ?_
    rw [accept_noted, hh, hm, hg]
    rfl
  · refine refused (.code 0x0D) ?_
    rw [accept_noted, hh, hm, hg]
    rfl

end Sys2Proof.Claims

namespace Sys2Proof.Machine

/-! ### A bundle's syllables in order (R105-R107) -/

theorem regNames_nop (k : Slot) : regNames (.nop k) = [] := by
  cases k <;> rfl
/-- `nop` names no register, and so changes nothing. -/
@[simp] theorem exec_nop (k : Slot) (s : State) : exec (.nop k) s = .next s := by
  have hs : s.sources (.nop k) = [] := by simp [State.sources, regNames_nop]
  have ht : s.targets (.nop k) = [] := by simp [State.targets, regNames_nop]
  have hn : s.noted (.nop k) = s := by simp [State.noted, hs]
  have hr : s.operandsReady (.nop k) = true := by simp [State.operandsReady, hs, ht]
  show s.syl (.nop k) (fun s => .ok s) = .next s
  rw [syl_ready _ _ _ hr, hn, settle]
theorem isNop_eq_true (i : Instr) (h : i.isNop = true) : ∃ k, i = .nop k := by
  unfold Instr.isNop at h
  split at h
  · exact ⟨_, rfl⟩
  · cases h

/-- A syllable that faults is the last to run. -/
theorem issueAll_cons (i : Instr) (l : List Instr) (s t : State) (h : exec i s = .next t) :
    issueAll (i :: l) s = if t.issue.fault.isSome then .next t else issueAll l t := by
  simp only [issueAll, h]
theorem issueAll_cons_sound (i : Instr) (l : List Instr) (s t : State) (h : exec i s = .next t) (hf : t.issue.fault = none) :
    issueAll (i :: l) s = issueAll l t := by
  rw [issueAll_cons i l s t h, hf, if_neg (by simp)]
theorem issueAll_cons_fault (i : Instr) (l : List Instr) (s t : State) (h : exec i s = .next t) (hf : t.issue.fault ≠ none) :
    issueAll (i :: l) s = .next t := by
  rw [issueAll_cons i l s t h, if_pos (Option.isSome_iff_ne_none.2 hf)]

/-- In a bundle without a fault every `nop` can be left out. -/
theorem issueAll_filter_nop (l : List Instr) (s : State) (hs : s.issue.fault = none) :
    issueAll (l.filter fun j => !j.isNop) s = issueAll l s := by
  induction l generalizing s with
  | nil => rfl
  | cons i l ih =>
    cases hi : i.isNop with
    | true =>
      obtain ⟨k, rfl⟩ := isNop_eq_true i hi
      rw [List.filter_cons_of_neg (by simp [hi]), ih s hs, issueAll_cons_sound _ l s s (exec_nop k s) hs]
    | false =>
      rw [List.filter_cons_of_pos (by simp [hi]), issueAll, issueAll]
      split
      · split
        · rfl
        · next t _ ht => exact ih t (by simpa using ht)
      · rfl

/-! ### Fetching (R108-R112) -/

/-- Halfword `j` of a literal's 384 bits is that of the stream. -/
theorem bits_halfwords (f : Nat → Nat) (n j : Nat) (h : j < n) :
    bits (((List.range n).map fun j => f j % 2 ^ 16).foldr (fun x a => x + 2 ^ 16 * a) 0) (16 * j + 15) (16 * j) = f j % 2 ^ 16 := by
  have hp : ((List.range n).map fun j => f j % 2 ^ 16).foldr (fun x a => x + 2 ^ 16 * a) 0 = packNat 16 ((List.range n).map f) := by
    rw [packNat, List.foldr_map, List.foldr_map]
  rw [hp, bits, Nat.shiftRight_eq_div_pow, show 16 * j + 15 + 1 - 16 * j = 16 by omega, packNat_get 16 _ j (by simpa using h)]
  simp

/-! ### One attempt (R34, R105-R112) -/

/-- The state in which the bundle of context `g` is fetched. -/
def State.onIssue (s : State) (g : Nat) : State := { s with cur := g, issue := {} }

theorem issueBundle_of_fetch_error (s : State) (g e : Nat) (h : (s.onIssue g).fetch g = .error e) :
    s.issueBundle g = .next ((State.issueMet (if e = 0x04 then (s.onIssue g).vfSat (s.onIssue g).me.vfid 0x11 0 1 else s.onIssue g)
      [] []).takeFault { slot := .c, code := e }) := by
  unfold State.onIssue at h ⊢
  simp only [State.issueBundle, h]

section Bundle
variable {s t : State} {g w : Nat} {lit : Bool} {b : List Instr}
  (hf : (s.onIssue g).fetch g = .ok (w, lit)) (hd : decodeBundle w = .ok b) (hr : bundleReject b = none)
  (hi : issueAll b { s.onIssue g with issue := { literal := lit } } = .next t)
include hf hd hr hi

theorem issueBundle_commits (h1 : t.issue.fault = none) (h2 : t.issue.block = none) : s.issueBundle g = .next ((s.onIssue g).commit t) := by
  unfold State.onIssue at hf hi ⊢
  simp only [State.issueBundle, hf, hd, hr, hi, h1, h2, ne_eq, not_true, if_false]
theorem issueBundle_faults {f : FaultInfo} (h : t.issue.fault = some f) :
    s.issueBundle g = .next ((((s.onIssue g).faultMet b f).takeFault f).slipTaken f) := by
  unfold State.onIssue at hf hi ⊢
  simp only [State.issueBundle, hf, hd, hr, hi, h, ne_eq, not_true, if_false]
theorem issueBundle_blocks {x : Nat} {fx : BlockFx} (h1 : t.issue.fault = none) (h2 : t.issue.block = some (x, fx)) :
    s.issueBundle g = .next ((((s.onIssue g).issueMet b []).blockOn x fx).blockEffect fx) := by
  unfold State.onIssue at hf hi ⊢
  simp only [State.issueBundle, hf, hd, hr, hi, h1, h2, ne_eq, not_true, if_false]
end Bundle

/-- With no event due, a step is the attempt of the next context. -/
theorem step_of_nextIssue (s : State) (turn g : Nat) (ha : s.agendaHead = none) (hd : s.dueEvent = none)
    (hn : s.nextIssue = some (turn, g)) : step s = s.attempt g := by
  simp only [step, ha, hd, hn]
theorem step_of_agendaHead (s t : State) (i : Instr) (ha : s.agendaHead = some (i, t)) (hr : i.row = none) (ho : i.eventOk = true) :
    step s = exec i t := by
  simp only [step, ha, hr, ho, Option.isSome_none, Bool.not_true, Bool.false_eq_true, or_self, if_false]

end Sys2Proof.Machine

namespace Sys2Proof.Claims
open Sys2Proof.Machine

/-- What the stream's halfword at PC gives, of a core whose image carries no error. -/
theorem fetch_sound (s : State) (g : Nat) (i : Image) (hi : (s.core' (coreOf g)).image = some i)
    (hb : (s.core' (coreOf g)).badHalf = []) (he : (s.core' (coreOf g)).badEntry = []) :
    s.fetch g = if i.stream.length ≤ (s.ctx g).pc then .error 0x03 else
      let h := i.stream.getD (s.ctx g).pc 0
      if h = 0 then .ok (0, false)
      else if h < 0x800 then (if i.entries.length ≤ h then .error 0x01 else .ok (i.entries.getD h 0, false))
      else if h = 0xFFFE then
        .ok (((List.range 24).map fun j => i.stream.getD ((s.ctx g).pc + 1 + j) 0 % 2 ^ 16).foldr (fun x a => x + 2 ^ 16 * a) 0, true)
      else .error 0x02 := by
  simp [State.fetch, hi, hb, he]

/-- Settles O55: a step without an event is one attempt, and the cases of that attempt, of `issueAll` and of the fetch are the claim's. -/
theorem stepRunsTheBundle : Obligations.StepRunsTheBundle := by
  intro s
  refine ⟨?attempt, ?fetchFault, ?agenda, ?syllables, ?fetch⟩
  case attempt =>
    intro turn g w lit b ha hd hn base at' hf hb hr
    rw [step_of_nextIssue s turn g ha hd hn]
    let tries : State := { s with fresh := s.fresh + 1, tried := g :: s.tried }
    have commits := fun t hi => issueBundle_commits (s := tries) (t := t) hf hb hr hi
    refine ⟨fun t hi => ⟨commits t hi, fun f => issueBundle_faults (s := tries) hf hb hr hi,
      fun x fx => issueBundle_blocks (s := tries) hf hb hr hi⟩, ?_⟩
    intro i t hb hi h1 h2
    refine commits t ?_ h1 h2
    have := issueAll_filter_nop b at' rfl
    rw [hb, issueAll_cons_sound i [] at' t hi h1] at this
    exact this.symm
  case fetchFault =>
    intro turn g e ha hd hn base he
    rw [step_of_nextIssue s turn g ha hd hn]
    exact issueBundle_of_fetch_error _ g e he
  case agenda => exact fun i t => step_of_agendaHead s t i
  case syllables =>
    exact fun i rest t h => ⟨rfl, issueAll_cons_sound i rest s t h, issueAll_cons_fault i rest s t h⟩
  case fetch =>
    intro g i h hi hb he pc
    have hfetch := fetch_sound s g i hi hb he
    refine ⟨fun hpc => by rw [hfetch, if_pos hpc], fun hpc hh => ?_⟩
    rw [hfetch, if_neg (Nat.not_le.2 hpc)]
    simp only [show i.stream.getD (s.ctx g).pc 0 = h from hh]
    refine ⟨?_, ?_, ?_, ?_, ?_⟩
    · intro h0
      rw [if_pos h0]
    · intro h0 h1 h2
      rw [if_neg (by omega), if_pos h1, if_neg (by omega)]
    · intro h0 h1 h2
      rw [if_neg (by omega), if_pos h1, if_pos h2]
    · intro h0 h1
      rw [if_neg (by omega), if_neg (by omega), if_neg h1]
    · intro h0
      rw [if_neg (by omega), if_neg (by omega), if_pos h0]
      refine ⟨_, rfl, fun j hj => ?_⟩
      exact bits_halfwords (fun j => i.stream.getD (pc + 1 + j) 0) 24 j hj

end Sys2Proof.Claims

namespace Sys2Proof.Machine

/-! ### Governor steps (R437) -/

/-- The threshold of governor step `k`, in thousandths of a degree. -/
def govTheta (cfg k : Nat) : Int := ((1000 * (bits cfg 7 0 + (k - 1) * max (bits cfg 11 8) 1) : Nat) : Int)
/-- The largest step whose threshold is met, or 0. -/
def govBest (cfg : Nat) (t : Int) : Nat := ((List.range 8).filter fun k => decide (1 ≤ k ∧ govTheta cfg k ≤ t)).foldl max 0

theorem govTheta_mono (cfg : Nat) {j k : Nat} (h : j ≤ k) : govTheta cfg j ≤ govTheta cfg k := by
  have : (j - 1) * max (bits cfg 11 8) 1 ≤ (k - 1) * max (bits cfg 11 8) 1 := Nat.mul_le_mul_right _ (by omega)
  simp only [govTheta]
  omega
/-- `govBest` is 0 or a step of the part whose threshold is met, and no smaller than any other such step. -/
theorem govBest_spec (cfg : Nat) (t : Int) :
    (govBest cfg t = 0 ∨ (1 ≤ govBest cfg t ∧ govBest cfg t ≤ 7 ∧ govTheta cfg (govBest cfg t) ≤ t)) ∧
      ∀ k, 1 ≤ k → k ≤ 7 → govTheta cfg k ≤ t → k ≤ govBest cfg t := by
  obtain ⟨hm, hle⟩ := List.max?_eq_some_iff.1
    (List.max?_cons' (x := 0) (xs := (List.range 8).filter fun k => decide (1 ≤ k ∧ govTheta cfg k ≤ t)))
  simp only [List.mem_cons, List.mem_filter, List.mem_range, decide_eq_true_eq] at hm hle
  refine ⟨hm.imp_right fun ⟨h8, h1, ht⟩ => ⟨h1, Nat.le_of_lt_succ h8, ht⟩, fun k h1 h7 ht => hle k (.inr ⟨by omega, h1, ht⟩)⟩

/-- The step that a sample asks for. -/
theorem govStep_eq (cfg cur : Nat) (t : Int) : govStep cfg cur t =
    if (1000 * bits cfg 23 16 : Nat) ≤ t then 7
    else if cur < govBest cfg t then govBest cfg t
    else if cur ≠ 0 ∧ t < govTheta cfg cur - (1000 * bits cfg 15 12 : Nat) then govBest cfg t
    else cur := rfl

/-- At the trip temperature the step is 7. -/
theorem govStep_trip (cfg cur : Nat) (t : Int) (h : (1000 * bits cfg 23 16 : Nat) ≤ t) : govStep cfg cur t = 7 := by
  rw [govStep_eq, if_pos h]
/-- Below it the step rises to the best one, falls to the best one past the hysteresis, or stays. -/
theorem govStep_cases (cfg cur : Nat) (t : Int) (h : t < (1000 * bits cfg 23 16 : Nat)) :
    (cur < govBest cfg t ∧ govStep cfg cur t = govBest cfg t) ∨
    (1 ≤ cur ∧ t < govTheta cfg cur - (1000 * bits cfg 15 12 : Nat) ∧ govBest cfg t < cur ∧ govStep cfg cur t = govBest cfg t) ∨
    (govBest cfg t ≤ cur ∧ (cur = 0 ∨ govTheta cfg cur - (1000 * bits cfg 15 12 : Nat) ≤ t) ∧ govStep cfg cur t = cur) := by
  obtain ⟨hb, -⟩ := govBest_spec cfg t
  rw [govStep_eq, if_neg (Int.not_le.2 h)]
  split_ifs with h1 h2
  · exact .inl ⟨h1, rfl⟩
  · refine .inr (.inl ⟨by omega, h2.2, ?_, rfl⟩)
    have hne : govBest cfg t ≠ cur := by
      intro he
      rw [he] at hb
      omega
    omega
  · refine .inr (.inr ⟨by omega, ?_, rfl⟩)
    omega

/-- The largest of several sensors. -/
theorem hottest_spec (temps : List Int) : (∀ t ∈ temps, t ≤ hottest temps) ∧ (temps ≠ [] → hottest temps ∈ temps) := by
  cases temps with
  | nil => simp
  | cons t rest =>
    obtain ⟨hm, hle⟩ := List.max?_eq_some_iff.1 (List.max?_cons' (x := t) (xs := rest))
    exact ⟨hle, fun _ => hm⟩

/-! ### What the governor's and the droop's events leave -/

theorem govDue_tick (s : State) (q : Nat) (h : s.govDue q ≠ []) : s.tick % 8 = 0 := by
  unfold State.govDue at h
  by_contra ht
  exact h (if_pos ht)
/-- A change of steps is told, and changes its cube alone beside memory. -/
theorem govChange_quad_gov (s : State) (q l n : Nat) : tget 0 ((s.govChange q [(l, n)]).quad q).gov l = n := by
  have hq : ∀ (t : State) b ok r, (t.announce b ok r).quad q = t.quad q := fun t b ok r => by
    have h : (t.announce b ok r).quads = t.quads := (congrArg State.quads (announce_aside t b ok r) :)
    unfold State.quad
    rw [h]
  unfold State.govChange
  rw [hq]
  simp [State.modQuad]

end Sys2Proof.Machine

namespace Sys2Proof.Claims
open Sys2Proof.Machine

/-- R437: the claim about one sample's step, from the three cases of a step below the trip temperature. -/
theorem govStep_claim (cfg cur : Nat) (temp : Int) (n : Nat) (hn : govStep cfg cur temp = n) (hlt : temp < (1000 * bits cfg 23 16 : Nat))
    (hcur : cur ≤ 7) :
    n ≤ 7 ∧ (cur < n → govTheta cfg n ≤ temp) ∧
      (n < cur → temp < govTheta cfg cur - (1000 * bits cfg 15 12 : Nat) ∧ (n = 0 ∨ govTheta cfg n ≤ temp)) ∧
      (1 ≤ cur → temp < govTheta cfg cur - (1000 * bits cfg 15 12 : Nat) → n < cur) ∧
      (n ≠ cur → ∀ k ≤ 7, n < k → 1 ≤ k → temp < govTheta cfg k) ∧ (n = cur → ∀ k ≤ 7, n < k → temp < govTheta cfg k) := by
  obtain ⟨hb, hmax⟩ := govBest_spec cfg temp
  have above : ∀ k, govBest cfg temp < k → k ≤ 7 → temp < govTheta cfg k := fun k h1 h7 => by
    by_contra ht
    exact absurd (hmax k (by omega) h7 (Int.not_lt.1 ht)) (by omega)
  rcases govStep_cases cfg cur temp hlt with ⟨h1, he⟩ | ⟨h1, h2, h3, he⟩ | ⟨h1, h2, he⟩ <;> rw [he] at hn <;> subst hn
  · have hmono := govTheta_mono cfg h1.le
    refine ⟨by omega, fun _ => by omega, fun h => by omega, fun _ h => by omega, fun _ k h7 hk _ => above k hk h7,
      fun _ k h7 hk => above k hk h7⟩
  · exact ⟨by omega, fun h => by omega, fun _ => ⟨h2, by omega⟩, fun _ _ => h3, fun _ k h7 hk _ => above k hk h7,
      fun _ k h7 hk => above k hk h7⟩
  · exact ⟨hcur, fun h => by omega, fun h => by omega, fun _ _ => by omega, fun h => absurd rfl h,
      fun _ k h7 hk => above k (by omega) h7⟩

/-- R249: a scrubbed word is counted to the function that owns it. -/
def scrubCount (number : Nat) (s : State) (a : Nat) : State :=
  match s.ownerOf a with
  | some v => s.vfSat v number (tierOf a) 1
  | none => s
/-- Counting leaves the stores and their marks. -/
theorem foldl_scrubCount (number : Nat) (l : List Nat) (s : State) :
    let t := l.foldl (scrubCount number) s
    t.mem = s.mem ∧ t.memBad = s.memBad ∧ t.memSoft = s.memSoft := by
  have h := foldl_same (fun s : State => (s.mem, s.memBad, s.memSoft)) (scrubCount number)
    (fun s a => by unfold scrubCount; split <;> rfl) l s
  simpa using h
/-- The words that a scrub pass over store `u` finds uncorrectable, and that were not known as such. -/
def scrubNew (s : State) (u : Nat) (bad : List Nat) : List Nat :=
  ((bad.filter (scrubbed u)).map eccUnit).eraseDups.filter fun a => !s.memBad.contains a
/-- The state once a scrub pass has counted what it met. -/
def scrubTold (s : State) (u : Nat) (bad : List Nat) : State :=
  (scrubNew s u bad).foldl (scrubCount 0x11)
    ((s.memSoft.filter fun a => scrubbed u a && !(scrubNew s u bad).contains a).foldl (scrubCount 0x10) s)
theorem exec_scrub (s : State) (u : Nat) (bad : List Nat) : exec (.scrub u bad) s =
    .next { scrubTold s u bad with
      memBad := (scrubTold s u bad).memBad ++ scrubNew s u bad
      memSoft := (scrubTold s u bad).memSoft.filter fun a => !scrubbed u a } := rfl
theorem scrubTold_same (s : State) (u : Nat) (bad : List Nat) :
    (scrubTold s u bad).mem = s.mem ∧ (scrubTold s u bad).memBad = s.memBad ∧ (scrubTold s u bad).memSoft = s.memSoft := by
  obtain ⟨hm, hb, hs⟩ := foldl_scrubCount 0x10 (s.memSoft.filter fun a => scrubbed u a && !(scrubNew s u bad).contains a) s
  obtain ⟨hm', hb', hs'⟩ := foldl_scrubCount 0x11 (scrubNew s u bad)
    ((s.memSoft.filter fun a => scrubbed u a && !(scrubNew s u bad).contains a).foldl (scrubCount 0x10) s)
  exact ⟨hm'.trans hm, hb'.trans hb, hs'.trans hs⟩
theorem mem_scrubNew {s : State} {u : Nat} {bad : List Nat} {a : Nat} (ha : a ∈ bad) (hu : scrubbed u a = true)
    (hold : eccUnit a ∉ s.memBad) : eccUnit a ∈ scrubNew s u bad :=
  List.mem_filter.2 ⟨List.mem_eraseDups.2 (List.mem_map_of_mem (List.mem_filter.2 ⟨ha, hu⟩)), by simpa using hold⟩
/-- R249: a scrub pass over store `u`. -/
theorem scrub_spec (s : State) (u : Nat) (bad : List Nat) :
    ∃ t, exec (.scrub u bad) s = .next t ∧ t.memSoft = s.memSoft.filter (fun a => !scrubbed u a) ∧
      (∀ a ∈ s.memBad, a ∈ t.memBad) ∧ (∀ a ∈ bad, scrubbed u a = true → eccUnit a ∈ t.memBad) ∧ t.mem = s.mem := by
  obtain ⟨hm, hb, hs⟩ := scrubTold_same s u bad
  refine ⟨_, exec_scrub s u bad, congrArg (List.filter _) hs, fun a ha => List.mem_append_left _ (hb ▸ ha), fun a ha hu => ?_, hm⟩
  by_cases hold : eccUnit a ∈ s.memBad
  · exact List.mem_append_left _ (hb ▸ hold)
  · exact List.mem_append_right _ (mem_scrubNew ha hu hold)

/-- Settles O46: the events are their guards, a step's cases are those of R437, and telling the contexts keeps droop and counters. -/
theorem governorDroopAndScrub : Obligations.GovernorDroopAndScrub := by
  intro s
  have told : ∀ (t : State) b ok r, (t.announce b ok r).droop = t.droop ∧ (t.announce b ok r).pctr = t.pctr := fun t b ok r =>
    ⟨(congrArg State.droop (announce_aside t b ok r) :), (congrArg State.pctr (announce_aside t b ok r) :)⟩
  refine ⟨fun q l temps => ⟨fun h => ?_, fun h => ?_⟩, hottest_spec, fun cfg cur temp => ⟨govStep_trip cfg cur temp,
    fun hlt hcur => govStep_claim cfg cur temp _ rfl hlt hcur⟩, fun q h => ⟨?_, govDue_tick s q h, fun l n _ => govChange_quad_gov s q l n⟩,
    fun mv rest hv hd => ⟨fun hlt => ?_, fun hge => ?_⟩, fun mv rest hv hd => ⟨fun hge => ?_, fun hlt => ?_⟩, scrub_spec s⟩
  · exact event_neg (by simpa using h)
  · refine (event_pos (by simpa using h)).trans ?_
    simp only [List.isEmpty_iff]
    rfl
  · exact event_pos (by simpa using h)
  · have hx : exec .droopStart s = .next (State.announce { s with volts := rest, droop := true, pctr := ctrSat s.pctr 0x01 0 32 1 } 1
        (fun _ => true) { kind := 4, code := 1, time := s.tick }) := by
      simp [exec, execDroopStart, State.voltage, hv, hd, hlt, event]
    exact ⟨_, hx, told _ _ _ _⟩
  · simp [exec, execDroopStart, State.voltage, hv, hd, hge, event]
  · have hx : exec .droopEnd s = .next (State.announce { s with volts := rest, droop := false } 1
        (fun _ => true) { kind := 4, time := s.tick }) := by
      simp [exec, execDroopEnd, State.voltage, hv, hd, hge, event]
    exact ⟨_, hx, told _ _ _ _⟩
  · simp [exec, execDroopEnd, State.voltage, hv, hd, hlt, event]

end Sys2Proof.Claims

namespace Sys2Proof.Machine

/-! ### What the Dealer's reads leave (R402) -/

/-- A state apart from its functions: what a read by the Dealer, which subscribes to no record, leaves. -/
def State.offVfs (s : State) : State := { s with vfs := [] }

theorem subscribes_nobody (s : State) (v b : Nat) : s.subscribes v nobody b = false := by
  simp [State.subscribes, nobody]
theorem tellSoft_nobody (s : State) (v u : Nat) : s.tellSoft v nobody u = s := by
  rw [State.tellSoft, if_neg (by simp [subscribes_nobody])]
theorem countBad_offVfs (s : State) (v pa n : Nat) : (s.countBad v pa n).offVfs = s.offVfs := by
  unfold State.countBad
  exact foldl_same State.offVfs _ (fun _ _ => by rfl) _ _
theorem eccMet_nobody_offVfs (s : State) (v pa n : Nat) : (s.eccMet v nobody pa n).offVfs = s.offVfs := by
  refine Eq.trans (foldl_same State.offVfs _ (fun t u => ?_) _ _) (countBad_offVfs s v pa n)
  rw [tellSoft_nobody]
  rfl
theorem dealerMet_offVfs (s : State) (v : Nat) (l : List (Nat × Nat)) : (s.dealerMet v l).offVfs = s.offVfs := by
  unfold State.dealerMet
  exact foldl_same State.offVfs _ (fun _ _ => eccMet_nobody_offVfs _ _ _ _) _ _
theorem dealerMet_fields (s : State) (v : Nat) (l : List (Nat × Nat)) :
    (s.dealerMet v l).mem = s.mem ∧ (s.dealerMet v l).ctxs = s.ctxs ∧ (s.dealerMet v l).dealer = s.dealer :=
  have h := dealerMet_offVfs s v l
  ⟨(congrArg State.mem h :), (congrArg State.ctxs h :), (congrArg State.dealer h :)⟩

/-! ### Accepting a launch (R15, R339) -/

/-- The Dealer as it reads a launch's timetable: its rails are clear, and what it met is counted. -/
def State.launchRead (s : State) (c : QueueCmd) : State :=
  let u := s.modDealer Dealer.clearRails
  u.dealerMet ((s.queue c.q).f 71 69) (u.launchReads c.opa.toNat)
theorem launchRead_fields (s : State) (c : QueueCmd) :
    (s.launchRead c).mem = s.mem ∧ (s.launchRead c).ctxs = s.ctxs ∧ (s.launchRead c).dealer = s.dealer.clearRails :=
  dealerMet_fields _ _ _

theorem exec_launch {s : State} {c : QueueCmd} (ha : s.asked c 0x01 = true) (hb : (s.queue c.q).begun = false) :
    exec (.launch c) s = .next (s.acceptLaunch c) := event_pos (by rw [ha, hb]; rfl)

/-- What becomes of a launch of function `v` that is not refused, by what its timetable and images read as. -/
def State.judged (w : State) (c : QueueCmd) (v : Nat) : State :=
  match w.readTimetable c.opa.toNat with
  | none => w.retire c.q 2
  | some t =>
    if !w.timetableOk v c.opa.toNat t then w.retire c.q 2 else
    match w.readImages t with
    | .error r => (w.modDealer fun d => { d with rejects := d.rejects ++ [r] }).retire c.q 2
    | .ok files =>
      if !files.all (fun f => w.inRanges v f.image.addr f.span) || !t.phases.all (w.imagesOk v · files) then w.retire c.q 2
      else (w.setQueue c.q { w.queue c.q with begun := true, start := w.tick }).modDealer fun d =>
        { d with launches := d.launches ++ [launchOf w.dealer.nextLaunch c.q c.ix v c.opb t files]
                 nextLaunch := d.nextLaunch + 1, launched := true }
theorem acceptLaunch_of_taken {s : State} {c : QueueCmd} (hc : c.clean = true) (hr : s.refuses ((s.queue c.q).f 71 69) = false) :
    s.acceptLaunch c = (s.launchRead c).judged c ((s.queue c.q).f 71 69) := by
  have hu : (s.modDealer Dealer.clearRails).refuses ((s.queue c.q).f 71 69) = false := hr
  exact if_neg (by rw [hu, hc]; decide)
/-- A launch with a reserved bit set, or of a function that may not launch, is refused. -/
theorem acceptLaunch_refused {s : State} {c : QueueCmd} (h : c.clean = false ∨ s.refuses ((s.queue c.q).f 71 69) = true) :
    s.acceptLaunch c = (s.modDealer Dealer.clearRails).retire c.q 1 := by
  have hu : (!c.clean) = true ∨ (s.modDealer Dealer.clearRails).refuses ((s.queue c.q).f 71 69) = true := h.imp_left (by simp [·])
  exact if_pos hu

section
variable {w : State} {c : QueueCmd} {v : Nat} {t : Timetable}
theorem judged_noTimetable (ht : w.readTimetable c.opa.toNat = none) : w.judged c v = w.retire c.q 2 := by
  rw [State.judged, ht]
theorem judged_badTimetable (ht : w.readTimetable c.opa.toNat = some t) (hok : w.timetableOk v c.opa.toNat t = false) :
    w.judged c v = w.retire c.q 2 := by
  simp [State.judged, ht, hok]
theorem judged_badImage {r : LoadReject} (ht : w.readTimetable c.opa.toNat = some t) (hok : w.timetableOk v c.opa.toNat t = true)
    (hi : w.readImages t = .error r) :
    w.judged c v = (w.modDealer fun d => { d with rejects := d.rejects ++ [r] }).retire c.q 2 := by
  simp [State.judged, ht, hok, hi]
theorem judged_accepted {fs : List ImageFile} (ht : w.readTimetable c.opa.toNat = some t) (hok : w.timetableOk v c.opa.toNat t = true)
    (hi : w.readImages t = .ok fs) (hr : (fs.all fun f => w.inRanges v f.image.addr f.span) = true)
    (hp : (t.phases.all fun p => w.imagesOk v p fs) = true) :
    w.judged c v = (w.setQueue c.q { w.queue c.q with begun := true, start := w.tick }).modDealer fun d =>
      { d with launches := d.launches ++ [launchOf w.dealer.nextLaunch c.q c.ix v c.opb t fs]
               nextLaunch := d.nextLaunch + 1, launched := true } := by
  simp only [State.judged, ht, hok, hi, hr, hp]
  rfl
end

end Sys2Proof.Machine

namespace Sys2Proof.Claims
open Sys2Proof.Machine

/-- Settles O49: each command is its guard's event, and what the Dealer reads changes the counters of functions alone. -/
theorem dealerServesItsQueues : Obligations.DealerServesItsQueues := by
  intro s
  refine ⟨fun h => ⟨_, event_pos h, ?_⟩, fun c h => event_pos h, fun c ha hb => ?_, fun n rest hn hr => ?_, fun v h r hd hr => ?_⟩
  · constructor
    · exact Nat.lt_of_lt_of_le (Nat.lt_succ_self _) (Nat.le_add_right _ _)
    · have := Nat.mod_lt (Config.delay s.fresh 8) (show 0 < 78 by decide)
      show s.tick + 1 + Config.delay s.fresh 8 % 78 ≤ s.tick + 78
      omega
  · rw [exec_launch ha hb]
    refine ⟨fun hc => congrArg _ (acceptLaunch_refused (.inl hc)), fun _ hr => congrArg _ (acceptLaunch_refused (.inr hr)), fun hc hr => ?_⟩
    have judge {x : State} (h : (s.launchRead c).judged c ((s.queue c.q).f 71 69) = x) : (.next (s.acceptLaunch c) : Out) = .next x :=
      congrArg _ ((acceptLaunch_of_taken hc hr).trans h)
    obtain ⟨hmem, hctxs, hdealer⟩ := launchRead_fields s c
    refine ⟨fun ht => judge (judged_noTimetable ht), fun t ht hok => judge (judged_badTimetable ht hok),
      fun t r ht hok hi => judge (judged_badImage ht hok hi), fun t fs ht hok hi hr hp =>
        ⟨_, judge (judged_accepted ht hok hi hr hp), ?_, rfl, ?_, hmem, hctxs,
          launchOf s.dealer.nextLaunch c.q c.ix ((s.queue c.q).f 71 69) c.opb t fs, ?_, rfl, rfl, rfl, rfl, rfl, rfl, rfl, rfl⟩⟩
    · exact congrArg (·.nextLaunch + 1) hdealer
    · simp [State.queue, State.setQueue, State.modDealer]
    · have hl : (s.launchRead c).dealer.launches = s.dealer.launches := (congrArg Dealer.launches hdealer :)
      have hn : (s.launchRead c).dealer.nextLaunch = s.dealer.nextLaunch := (congrArg Dealer.nextLaunch hdealer :)
      rw [← hl, ← hn]
      rfl
  · simp only [exec, execFaultRecord, hn]
    exact event_pos hr
  · simp [exec, execSyscRequest, hd, State.takeSysc, hr]

end Sys2Proof.Claims

namespace Sys2Proof.Machine

/-! ### Bits of registers -/

/-- A bit inside the range that `setBits` replaces is the value's, one outside it stays. -/
theorem getLsbD_setBits {w : Nat} (d : BitVec w) (hi lo v i : Nat) : (setBits d hi lo v).getLsbD i =
    if lo ≤ i ∧ i < hi + 1 ∧ i < w then v.testBit (i - lo) else d.getLsbD i := by
  have h : (setBits d hi lo v).getLsbD i = (d.getLsbD i && !decide (i < w ∧ lo ≤ i ∧ i - lo < hi + 1 - lo) ||
      decide (i < w ∧ lo ≤ i ∧ i - lo < hi + 1 - lo) && v.testBit (i - lo)) := by
    by_cases hw : i < w
    · simp [setBits, -BitVec.getLsbD_eq_getElem, hw, BitVec.getLsbD_ofNat, Nat.testBit_mul_two_pow, Nat.testBit_mod_two_pow,
        Nat.testBit_two_pow_sub_one, Bool.and_assoc]
    · simp [hw, BitVec.getLsbD_of_ge _ _ (Nat.not_lt.1 hw)]
  rw [h]
  split_ifs with hin
  · simp [show i < w ∧ lo ≤ i ∧ i - lo < hi + 1 - lo by omega]
  · simp [show ¬ (i < w ∧ lo ≤ i ∧ i - lo < hi + 1 - lo) by omega]
theorem bits_eq_of_getLsbD {w hi lo n : Nat} {x : BitVec w} (hn : n < 2 ^ (hi + 1 - lo))
    (h : ∀ i < hi + 1 - lo, x.getLsbD (lo + i) = n.testBit i) : bits x.toNat hi lo = n := by
  apply Nat.eq_of_testBit_eq
  intro i
  by_cases hi' : i < hi + 1 - lo
  · simpa [bits, Nat.testBit_mod_two_pow, hi', BitVec.testBit_toNat] using h i hi'
  · rw [Nat.testBit_lt_two_pow (Nat.lt_of_lt_of_le hn (Nat.pow_le_pow_right (by decide) (Nat.not_lt.1 hi')))]
    simp [bits, Nat.testBit_mod_two_pow, hi']

/-! ### The Dealer, its queues aside, while work of a launch is dropped (R409) -/

/-- The Dealer's state without its queues. -/
def State.desk (s : State) : Dealer := { s.dealer with queues := [] }
theorem desk_of_apart {s t : State} (h : t.apart = s.apart) : t.desk = s.desk := (congrArg State.dealer h :)

theorem put_desk (k : Cmd) (l : Layout) (h : VShape) (tile : Nat) (data : Tile) (a : TileAcc) (i : Nat) :
    (a.put k l h tile data i).s.desk = a.s.desk := by
  have written (p : Xlate) (cells : List Sys2Proof.Cell) :
      ((a.s.fillWalkFor k.vf k.g p).portWrite p.pa cells 0).desk = a.s.desk :=
    desk_of_apart ((portWrite_apart _ _ _ _).trans (apart_of_aside (fillWalkFor_aside _ _ _ _)))
  unfold TileAcc.put
  split
  · rfl
  split
  · rfl
  split
  · rfl
  dsimp only
  split
  · rfl
  · rfl
  split
  · rfl
  · exact written _ _
theorem flushTiles_desk (s : State) (h : Nat) : (s.flushTiles h).desk = s.desk := by
  refine foldl_same State.desk _ (fun t n => ?_) _ s
  dsimp only
  split
  · split
    · rfl
    · refine foldl_same State.desk _ (fun u x => ?_) _ t
      exact foldl_same (fun a : TileAcc => a.s.desk) _ (fun a i => put_desk _ _ _ _ _ a i) _ _
  · rfl
theorem disown_desk (s : State) (h : Nat) : (s.disown h).desk = s.desk :=
  foldl_same State.desk State.meldOut (fun _ _ => rfl) _ _
theorem releaseDeck_desk (s : State) (g : Nat) : (s.releaseDeck g).desk = s.desk := by
  unfold State.releaseDeck
  exact foldl_same State.desk _ (fun _ _ => by rfl) _ _
theorem freeSlot_desk (s : State) (g : Nat) : (s.freeSlot g).desk = s.desk := by
  unfold State.freeSlot
  exact Eq.trans (by rfl) (releaseDeck_desk s g)
theorem dropLease_desk (s : State) (g : Nat) : (s.dropLease g).desk = s.desk := by
  rfl
theorem discard_desk (s : State) (mine : Cmd → Bool) : (s.discard mine).desk = s.desk := by
  rfl
theorem freeTags_desk (s : State) (l : Launch) : (s.freeTags l).desk = s.desk := by
  unfold State.freeTags
  refine foldl_same State.desk _ (fun t n => ?_) _ s
  split <;> rfl

/-- What ends the work of a launch: its owners' tiles, lines, commands and slots. -/
def State.dropWork (s : State) (id : Nat) : State :=
  let gone := (s.liveOf id).map (·.1)
  let kept := s.savedOf id
  let s := (gone ++ kept.map fun d => savedAs d.1 d.2.1).foldl State.flushTiles s
  let s := (gone ++ kept.map fun d => frameOf d.2.1).foldl State.disown s
  let s := s.discard fun k => decide (k.launch = some id ∧ k.g < nobody)
  let s := gone.foldl (fun s g => (s.freeSlot g).dropLease g) s
  kept.foldl (fun s d => (s.modVf d.1 fun x => { x with saved := tset none x.saved d.2.1 none }).releaseDeck (frameOf d.2.1)) s
theorem dropWork_desk (s : State) (id : Nat) : (s.dropWork id).desk = s.desk := by
  unfold State.dropWork
  refine (foldl_same State.desk _ (fun t d => by exact releaseDeck_desk _ _) _ _).trans ?_
  refine (foldl_same State.desk _ (fun t g => (dropLease_desk _ g).trans (freeSlot_desk t g)) _ _).trans ((discard_desk _ _).trans ?_)
  exact (foldl_same State.desk State.disown disown_desk _ _).trans (foldl_same State.desk State.flushTiles flushTiles_desk _ s)
/-- A launch whose work has ended retires. -/
def Launch.ending (l : Launch) (status : Nat) : Launch :=
  if l.st = .retiring then l else { l with st := .retiring, work := [], redos := [], status := status, hold := false }
theorem ending_st (l : Launch) (status : Nat) : (l.ending status).st = .retiring := by
  unfold Launch.ending
  split
  · assumption
  · rfl
theorem endLaunch_of_some {s : State} {id : Nat} {l : Launch} (h : s.launch id = some l) (status : Nat) :
    s.endLaunch id status = (s.dropWork id).modLaunch id fun l => l.ending status := by
  unfold State.endLaunch
  rw [h]
  rfl
/-- A kill changes no more of the Dealer than the launches; each that it leaves runs no more or is another one. -/
theorem endLaunch_spec (s : State) (id status : Nat) : (s.endLaunch id status).dealer.secalarm = s.dealer.secalarm ∧
    ∀ x ∈ (s.endLaunch id status).dealer.launches, x.st = .retiring ∨ (x.id ≠ id ∧ x ∈ s.dealer.launches) := by
  cases h : s.launch id with
  | none =>
    have he : s.endLaunch id status = s := by
      unfold State.endLaunch
      rw [h]
    rw [he]
    refine ⟨rfl, fun x hx => .inr ⟨fun hid => ?_, hx⟩⟩
    simpa [hid] using List.find?_eq_none.1 h x hx
  | some l =>
    rw [endLaunch_of_some h]
    have hw := dropWork_desk s id
    have hl : (s.dropWork id).dealer.launches = s.dealer.launches := (congrArg Dealer.launches hw :)
    refine ⟨(congrArg Dealer.secalarm hw :), fun x hx => ?_⟩
    obtain ⟨y, hy, rfl⟩ := List.mem_map.1 hx
    rw [hl] at hy
    split
    · exact .inl (ending_st _ _)
    · exact .inr ⟨‹_›, hy⟩
theorem killLaunch_spec (s : State) (id status : Nat) : (s.killLaunch id status).dealer.secalarm = s.dealer.secalarm ∧
    ∀ x ∈ (s.killLaunch id status).dealer.launches, x.st = .retiring ∨ (x.id ≠ id ∧ x ∈ s.dealer.launches) := by
  have hd : (match s.launch id with | some l => s.freeTags l | none => s).desk = s.desk := by
    split
    · exact freeTags_desk _ _
    · rfl
  obtain ⟨ha, hl⟩ := endLaunch_spec (match s.launch id with | some l => s.freeTags l | none => s) id status
  exact ⟨ha.trans (congrArg Dealer.secalarm hd :), fun x hx => (hl x hx).imp_right fun ⟨h1, h2⟩ =>
    ⟨h1, (congrArg (x ∈ Dealer.launches ·) hd).mp h2⟩⟩
/-- Killing every launch of a list in turn. -/
theorem killAll_spec (status : Nat) (L : List Launch) (s : State) :
    let t := L.foldl (fun s l => s.killLaunch l.id status) s
    t.dealer.secalarm = s.dealer.secalarm ∧
      ∀ x ∈ t.dealer.launches, x.st = .retiring ∨ (x ∈ s.dealer.launches ∧ ∀ l ∈ L, x.id ≠ l.id) := by
  induction L generalizing s with
  | nil => exact ⟨rfl, fun x hx => .inr ⟨hx, by simp⟩⟩
  | cons k L ih =>
    obtain ⟨ha, hl⟩ := killLaunch_spec s k.id status
    obtain ⟨ha', hl'⟩ := ih (s.killLaunch k.id status)
    refine ⟨ha'.trans ha, fun x hx => ?_⟩
    rcases hl' x hx with h | ⟨h1, h2⟩
    · exact .inl h
    · rcases hl x h1 with h | ⟨h3, h4⟩
      · exact .inl h
      · exact .inr ⟨h4, List.forall_mem_cons.2 ⟨h3, h2⟩⟩
/-- The kill of an alarm leaves the alarm word; with no reset under way every launch retires, and otherwise it waits. -/
theorem alarmKill_spec (s : State) (h : s.dealer.alarmed = true) : s.alarmKill.dealer.secalarm = s.dealer.secalarm ∧
    (s.dealer.resets = [] → ∀ l ∈ s.alarmKill.dealer.launches, l.st = .retiring) ∧ (s.dealer.resets ≠ [] → s.alarmKill = s) := by
  obtain ⟨ha, hl⟩ := killAll_spec 3 s.dealer.launches s
  by_cases hr : s.dealer.resets = []
  · have he : s.alarmKill = (s.dealer.launches.foldl (fun s l => s.killLaunch l.id 3) s).modDealer fun d => { d with alarmed := false } :=
      if_pos ⟨h, by simp [hr]⟩
    rw [he]
    exact ⟨ha, fun _ x hx => (hl x hx).resolve_right fun ⟨h1, h2⟩ => h2 x h1 rfl, fun hn => absurd hr hn⟩
  · have he : s.alarmKill = s := if_neg fun hc => hr (List.isEmpty_iff.1 hc.2)
    exact ⟨by rw [he], fun hn => absurd hn hr, fun _ => he⟩

end Sys2Proof.Machine

namespace Sys2Proof.Machine

/-! ### The window's writes (R340, R402, R426, R427, R436-R439) -/

section
variable {s : State}

theorem exec_doorbell_slot (ho : s.operable = true) {f : Option Nat} {d : Nat} (hd : d < 64) (tail : BitVec 32) :
    exec (.doorbell ⟨f, d⟩ tail) s =
      event ((s.queue d).mapped && shown f (s.queue d).desc) s (s.setQueue d ((s.queue d).ring tail.toNat)) :=
  (if_neg (by simp [ho])).trans (if_pos hd)
theorem exec_vmarginWrite (ho : s.operable = true) (r : Nat) (w : Word) : exec (.vmarginWrite r w) s = .next (s.putVmargin r w) :=
  event_pos ho
theorem exec_lmarginStart (ho : s.operable = true) (p : Nat) (w : Word) : exec (.lmarginStart p w) s = .next (s.putLmargin p w) :=
  event_pos ho
theorem quietPackage_eq (s : State) : s.quietPackage = decide (s.dealer.launches = []) := by
  unfold State.quietPackage
  cases s.dealer.launches <;> rfl
/-- LMARGIN as a START leaves it. -/
def startedMargin (old : BitVec 128) (w : Word) : BitVec 128 :=
  ((writable (old.setWidth 64) w 0x1FFFF &&& ~~~(w &&& 0x40000)) &&& 0x5FFFF).setWidth 128
theorem startedMargin_bits (old : BitVec 128) (w : Word) (h : w.getLsbD 16 = true) :
    (startedMargin old w).getLsbD 16 = true ∧ (startedMargin old w).getLsbD 17 = false := by
  simp [startedMargin, writable, h]
theorem putLmargin_start (hl : s.dealer.launches = []) (p : Nat) (w : Word) (h : w.getLsbD 16 = true) :
    s.putLmargin p w = s.modDealer fun d => { d with lmargin := tset 0 d.lmargin p (startedMargin (tget 0 d.lmargin p) w) } := by
  simp only [State.putLmargin, quietPackage_eq, hl, h]
  rfl
end

/-! ### Alarms (R424, R425) -/

/-- The Dealer as cause `b` of an alarm leaves it, before any launch is killed. -/
def Dealer.alarmed' (d : Dealer) (b : Nat) : Dealer :=
  let d := d.clearRails
  let test := fun q : DQueue => q.begun && q.entry.any fun e => decide (bits e.2.toNat 7 0 = 0x8B)
  let d := { d with secalarm := setBits (setBits d.secalarm b b 1) 0 0 1, alarmed := true,
                    queues := d.queues.map fun (q : Nat × DQueue) => if test q.2 then (q.1, { q.2 with failed := true }) else q,
                    lmargin := d.lmargin.map fun (e : Nat × BitVec 128) => if e.2.getLsbD 17 then e else (e.1, setBits e.2 16 16 0) }
  if d.secalarm.getLsbD 6 then { d with secalarm := setBits d.secalarm 5 5 1, bootstate := setBits d.bootstate 10 10 0 } else d
theorem alarm_eq (s : State) (b : Nat) : s.alarm b = (s.modDealer (Dealer.alarmed' · b)).alarmKill := rfl
/-- The alarm bit and the cause's are set, and the kill that follows has its launches and resets. -/
theorem alarmed'_spec (d : Dealer) (b : Nat) (hb : 1 ≤ b ∧ b ≤ 4) :
    (d.alarmed' b).secalarm.getLsbD 0 = true ∧ (d.alarmed' b).secalarm.getLsbD b = true ∧ (d.alarmed' b).alarmed = true ∧
      (d.alarmed' b).resets = d.resets ∧ (d.alarmed' b).launches = d.launches := by
  have h0 : (setBits (setBits d.secalarm b b 1) 0 0 1).getLsbD 0 = true := by simp [getLsbD_setBits]
  have h1 : (setBits (setBits d.secalarm b b 1) 0 0 1).getLsbD b = true := by
    simp [getLsbD_setBits, show b ≠ 0 by omega]
    omega
  unfold Dealer.alarmed'
  dsimp only
  split
  · refine ⟨?_, ?_, rfl, rfl, rfl⟩
    · rw [getLsbD_setBits, if_neg (by omega)]
      exact h0
    · rw [getLsbD_setBits, if_neg (by omega)]
      exact h1
  · exact ⟨h0, h1, rfl, rfl, rfl⟩
/-- R424: what an alarm of cause `b` leaves. -/
theorem alarm_spec (s : State) (b : Nat) (hb : 1 ≤ b ∧ b ≤ 4) :
    (s.alarm b).dealer.secalarm.getLsbD 0 = true ∧ (s.alarm b).dealer.secalarm.getLsbD b = true ∧
      (s.dealer.resets = [] → ∀ l ∈ (s.alarm b).dealer.launches, l.st = .retiring) ∧
      (s.dealer.resets ≠ [] → (s.alarm b).dealer.alarmed = true ∧ (s.alarm b).dealer.launches = s.dealer.launches) := by
  obtain ⟨h0, h1, hal, hr, hl⟩ := alarmed'_spec s.dealer b hb
  obtain ⟨ha, hquiet, hbusy⟩ := alarmKill_spec (s.modDealer (Dealer.alarmed' · b)) hal
  rw [alarm_eq, ha]
  refine ⟨h0, h1, fun h => hquiet (hr.trans h), fun h => ?_⟩
  rw [hbusy fun hc => h (hr.symm.trans hc)]
  exact ⟨hal, hl⟩

/-! ### Power-on and link failure (R8, R251, R435) -/

theorem bootWord_step (b : Bool) : bits (bootWord (if b then 5 else 6) 0 0 b).toNat 2 0 ∈ [5, 6] := by
  cases b <;> decide
/-- A transfer to or from host memory that is under way. -/
def DQueue.transfers (q : DQueue) : Bool :=
  q.begun && match q.entry with
    | some (_, e) => decide ((bits e.toNat 7 0 = 0x8F ∨ bits e.toNat 7 0 = 0x90) ∧ !bit e.toNat 68)
    | none => false
theorem exec_pcieFailure (s : State) : exec .pcieFailure s = .next (s.modDealer fun d =>
    { d with queues := d.queues.map fun e => if e.2.transfers then (e.1, { e.2 with failed := true }) else e }) := rfl
theorem not_transfers {q : DQueue} {i : Nat} {x : BitVec 512} (h : q.transfers ≠ true) (hb : q.begun = true) (he : q.entry = some (i, x))
    (hx : x.getLsbD 68 = false) : bits x.toNat 7 0 ≠ 0x8F ∧ bits x.toNat 7 0 ≠ 0x90 := by
  have hbit : bit x.toNat 68 = false := (BitVec.testBit_toNat x).trans hx
  simpa [DQueue.transfers, hb, he, hbit] using h

end Sys2Proof.Machine

namespace Sys2Proof.Claims
open Sys2Proof.Machine

/-- Settles O51: each register's write is its guard's event; an alarm's kills leave the alarm word, and every launch retiring. -/
theorem windowAlarmsAndBoot : Obligations.WindowAlarmsAndBoot := by
  intro s
  refine ⟨fun ho => ⟨?_, ?_, fun w => event_pos ho, fun t w => event_pos ho, ?_, ?_, ?_, ?_, ?_, ?_, ?_⟩, ?_, ?_, ?_, ?_, ?_, ?_⟩
  · intro f d tail hd hm hs
    exact (exec_doorbell_slot ho hd tail).trans (event_pos (by rw [hm, hs]; rfl))
  · intro v d tail hd hv
    exact (exec_doorbell_slot ho hd tail).trans (event_neg (by simp [shown, hv]))
  · intro r w hl
    rw [exec_vmarginWrite ho]
    simp [State.putVmargin, quietPackage_eq, hl]
  · intro r w hl
    rw [exec_vmarginWrite ho]
    simp [State.putVmargin, quietPackage_eq, hl, writable]
  · intro p w hl
    rw [exec_lmarginStart ho]
    simp [State.putLmargin, quietPackage_eq, hl]
  · intro p w hl hw
    exact ⟨startedMargin (tget 0 s.dealer.lmargin p) w, (exec_lmarginStart ho p w).trans (congrArg _ (putLmargin_start hl p w hw)),
      startedMargin_bits _ w hw⟩
  · intro u i
    refine ⟨fun n hn => ?_, fun n hn => ?_, fun n hn => ?_, fun n hn => ?_, event_pos ho⟩ <;> fin_cases hn <;> exact event_pos ho
  · exact fun w => ⟨event_pos (by simp [ho]), fun v => event_pos (by simp [ho])⟩
  · intro off data hne hlen h1 h2
    exact event_pos (Bool.and_eq_true_iff.2 ⟨ho, decide_eq_true ⟨List.length_pos_iff.2 hne, hlen, h1, h2⟩⟩)
  · intro ho b tail r n d off w data i hi
    simp only [List.mem_cons, List.not_mem_nil, or_false] at hi
    rcases hi with rfl | rfl | rfl | rfl | rfl | rfl | rfl
    · exact if_pos (by rw [ho]; rfl)
    · exact event_neg ho
    · exact event_neg ho
    · exact event_neg ho
    · exact event_neg ho
    · exact event_neg ho
    · exact event_neg (by rw [ho]; rfl)
  · intro p e h16 h17
    refine ⟨_, event_pos (by rw [h16, h17]; rfl), ?_, ?_⟩
    · simp [getLsbD_setBits]
    · refine bits_eq_of_getLsbD e.isLt fun i hi => ?_
      rw [getLsbD_setBits, if_pos (by omega), Nat.add_sub_cancel_left]
  · intro on
    exact ⟨fun h => by simp [exec, execZeroiseWrite, State.putZeroise, h], fun h => by simp [exec, execZeroiseWrite, State.putZeroise, h]⟩
  · simp only [List.forall_mem_cons, List.not_mem_nil, IsEmpty.forall_iff, implies_true, and_true]
    exact ⟨⟨_, rfl, alarm_spec s 1 (by decide)⟩, ⟨_, rfl, alarm_spec s 2 (by decide)⟩, ⟨_, rfl, alarm_spec s 3 (by decide)⟩,
      ⟨_, rfl, alarm_spec s 4 (by decide)⟩⟩
  · refine ⟨_, rfl, rfl, rfl, rfl, rfl, rfl, rfl, rfl, rfl, rfl, rfl, rfl, rfl, bootWord_step _, fun c hc => ?_⟩
    simpa using (List.mem_filter.1 hc).2
  · refine ⟨_, exec_pcieFailure s, rfl, rfl, fun e he hf hb i x hx h68 => ?_⟩
    obtain ⟨y, hy, rfl⟩ := List.mem_map.1 he
    by_cases ht : y.2.transfers = true
    · simp [ht] at hf
    · rw [if_neg ht] at hb hx
      exact not_transfers ht hb hx h68

end Sys2Proof.Claims

namespace Sys2Proof.Machine

/-! ### The rotation of lease requests (R32) -/

/-- The slot that has turn `r` of the rotation: the cores behind the last one served, and in each its contexts behind the last. -/
def Lease.turn (l : Lease) (r : Nat) : Nat :=
  4 * ((l.lastCore + 1 + r / 4) % 4) + (tget 3 l.lastK ((l.lastCore + 1 + r / 4) % 4) + 1 + r % 4) % 4
/-- The turn of slot `h`. -/
def Lease.rank (l : Lease) (h : Nat) : Nat :=
  (h / 4 + 3 - l.lastCore % 4) % 4 * 4 + (h % 4 + 3 - tget 3 l.lastK (h / 4) % 4) % 4
theorem turn_rank (l : Lease) {h : Nat} (hh : h < 16) : l.turn (l.rank h) = h := by
  have hc : (l.lastCore + 1 + l.rank h / 4) % 4 = h / 4 := by
    unfold Lease.rank
    omega
  unfold Lease.turn
  rw [hc]
  unfold Lease.rank
  omega
theorem rank_turn (l : Lease) {r : Nat} (hr : r < 16) : l.rank (l.turn r) = r := by
  have hc : l.turn r / 4 = (l.lastCore + 1 + r / 4) % 4 := by
    unfold Lease.turn
    omega
  unfold Lease.rank
  rw [hc]
  unfold Lease.turn
  omega
theorem rank_lt (l : Lease) (h : Nat) : l.rank h < 16 := by
  unfold Lease.rank
  omega
theorem turn_lt (l : Lease) (r : Nat) : l.turn r < 16 := by
  unfold Lease.turn
  omega
/-- A free lease goes to the first of its requests in the rotation. -/
theorem grantTo_eq (s : State) (q : Nat) (hn : (s.quad q).lease.holder = none) (ht : s.tried = []) :
    s.grantTo q = ((List.range 16).map (s.quad q).lease.turn).find? (s.quad q).lease.reqs.contains :=
  if_neg (by simp [hn, ht])
theorem grantTo_of_first (s : State) (q : Nat) {h : Nat} (hn : (s.quad q).lease.holder = none) (ht : s.tried = [])
    (hm : h ∈ (s.quad q).lease.reqs) (hh : h < 16)
    (hmin : ∀ j ∈ (s.quad q).lease.reqs, j < 16 → (s.quad q).lease.rank h ≤ (s.quad q).lease.rank j) : s.grantTo q = some h := by
  rw [grantTo_eq s q hn ht, List.find?_eq_some_iff_getElem]
  refine ⟨by simpa using hm, (s.quad q).lease.rank h, by simpa using rank_lt _ h, by simpa using turn_rank _ hh, fun j hj => ?_⟩
  have h16 : j < 16 := hj.trans (rank_lt _ h)
  simp only [List.getElem_map, List.getElem_range, List.contains_eq_mem, Bool.not_eq_true', decide_eq_false_iff_not]
  intro hreq
  have := hmin _ hreq (turn_lt _ j)
  rw [rank_turn _ h16] at this
  omega

/-- A run that its holder ended, or that has reached a limit, is over once its commands have dispatched. -/
theorem runOver_of {s : State} {q h : Nat} (hh : (s.quad q).lease.holder = some h) (hr : s.inRigid (16 * q + h) = false)
    (hc : ∀ k ∈ (s.quad q).cmdq, k.g ≠ 16 * q + h)
    (hcopy : ∀ k ∈ (s.quad q).copyq, k.g = 16 * q + h → ∀ o, k.instr ≠ .cfill o)
    (hread : ∀ k ∈ (s.quad q).reads, k.g = 16 * q + h → (∃ o, k.instr = .crdacc o) → k.started = true)
    (hst : ∀ r ∈ (s.quad q).stops, r.run.cmd.g ≠ 16 * q + h) (hpk : ∀ k ∈ (s.quad q).parked, k.g ≠ 16 * q + h)
    (he : (s.quad q).lease.ended = true ∨ (s.quad q).lease.room s.tick = false) : s.runOver q = true := by
  have hlim : ((s.quad q).lease.ended || !(s.quad q).lease.room s.tick) = true := by
    rcases he with h | h <;> simp [h]
  simp only [State.runOver, hh, hr, hlim, Bool.and_eq_true, List.all_eq_true, decide_eq_true_eq]
  refine ⟨⟨⟨⟨⟨⟨rfl, trivial⟩, hc⟩, hst⟩, hpk⟩, fun k hk => ?_⟩, fun k hk => ?_⟩
  · by_cases hg : k.g = 16 * q + h
    · split
      next o ho => exact absurd ho (hcopy k hk hg o)
      next => simp
    · simp [hg]
  · by_cases hg : k.g = 16 * q + h
    · split
      next o ho => simp [hread k hk hg ⟨o, ho⟩]
      next => simp
    · simp [hg]

/-! ### Slips (R20, R380, R381) -/

@[simp] theorem slipMark_dealer (s : State) (u : Nat) : (s.slipMark u).dealer = s.dealer := by
  unfold State.slipMark
  split <;> rfl
@[simp] theorem slipMark_arms (s : State) (u : Nat) : (s.slipMark u).arms = s.arms := by
  unfold State.slipMark
  split <;> rfl
/-- A slip adds its one record. -/
theorem slipUnit_notes (s : State) (l : Launch) (u : Nat) : (s.slipUnit l u).dealer.notes = s.dealer.notes ++ [s.slipNote l u] := by
  show ((s.setArm u _).slipMark u).dealer.notes ++ _ = _
  rw [slipMark_dealer]
  rfl
theorem slipUnit_arms (s : State) (l : Launch) (u : Nat) :
    (s.slipUnit l u).arms = (s.setArm u { s.arm u with slipped := true }).arms :=
  slipMark_arms _ _
/-- Slips of several engines add a record each. -/
theorem slipUnits_notes (l : Launch) (us : List Nat) (s : State) :
    let t := us.foldl (fun s u => s.slipUnit l u) s
    t.dealer.notes.length = s.dealer.notes.length + us.length ∧ ∀ x ∈ t.dealer.notes, x ∈ s.dealer.notes ∨ x.code = 0x0D := by
  induction us generalizing s with
  | nil => exact ⟨rfl, fun x hx => .inl hx⟩
  | cons u us ih =>
    obtain ⟨hlen, hmem⟩ := ih (s.slipUnit l u)
    rw [slipUnit_notes] at hlen hmem
    refine ⟨hlen.trans (by simp; omega), fun x hx => ?_⟩
    rcases hmem x hx with h | h
    · rcases List.mem_append.1 h with h | h
      · exact .inl h
      · rw [List.mem_singleton.1 h]
        exact .inr rfl
    · exact .inr h

/-! ### Leases and stages at work (R30-R32, R337, R359) -/

/-- A free lease goes to the request that comes first, with a fresh run. -/
theorem exec_leaseGrant {s : State} {q h : Nat} (hg : s.grantTo q = some h) :
    exec (.leaseGrant q) s = .next (s.modQuad q fun x =>
      { x with lease := { x.lease.given s.tick s.serial h with lastCore := h / 4, lastK := tset 3 x.lease.lastK (h / 4) (h % 4) } }) := by
  simp only [exec, execLeaseGrant, hg]
theorem exec_leaseRunEnd {s : State} {q : Nat} (h : s.runOver q = true) : exec (.leaseRunEnd q) s = .next (s.endRun q) := event_pos h
/-- A run that its holder ended leaves no request. -/
theorem endRun_ended {s : State} {q h : Nat} (hh : (s.quad q).lease.holder = some h) (he : (s.quad q).lease.ended = true) :
    s.endRun q = s.setQuad q { s.quad q with lease := { (s.quad q).lease with holder := none, ended := false } } := by
  unfold State.endRun
  simp [hh, he]
/-- A holder that a limit cut off, and that still runs, asks again. -/
theorem endRun_cut {s : State} {q h : Nat} (hh : (s.quad q).lease.holder = some h) (he : (s.quad q).lease.ended = false) :
    s.endRun q = s.setQuad q { s.quad q with lease := { (s.quad q).lease with
      holder := none, ended := false
      reqs := (s.quad q).lease.reqs ++ if (s.ctx (16 * q + h)).alive && !(s.quad q).lease.reqs.contains h then [h] else [] } } := by
  unfold State.endRun
  simp [hh, he]
/-- A planned run that is due is its launch's, at or past its tick. -/
theorem leaseDue_tick {s : State} {q : Nat} {l : Launch} {e : LeaseEntry} (h : s.leaseDue q = some (l, e)) : l.t0 + e.start ≤ s.tick := by
  obtain ⟨m, -, hm⟩ := List.exists_of_findSome?_eq_some h
  split at hm
  · contradiction
  · obtain ⟨e', -, he⟩ := Option.bind_eq_some_iff.1 hm
    split at he
    · cases he
      assumption
    · contradiction
theorem exec_leaseChange {s : State} {q : Nat} {l : Launch} {e : LeaseEntry} (h : s.leaseDue q = some (l, e)) :
    exec (.leaseChange q) s = .next ((s.grantRun s.serial e).modLaunch l.id fun l =>
      { l with leaseIx := tset 0 l.leaseIx q (tget 0 l.leaseIx q + 1), leaseSince := tset 0 l.leaseSince q s.serial }) := by
  simp only [exec, execLeaseChange, h]

/-- The Deck stage `n` of tower `t`, its line in order. -/
def State.lined (s : State) (t n : Nat) : State :=
  s.modTower t fun w => { w with deck := tset {} w.deck n { tget {} w.deck n with line := (tget {} w.deck n).inOrder } }
theorem lined_stage (s : State) (t n : Nat) : tget {} ((s.lined t n).tower t).deck n =
    { tget {} (s.tower t).deck n with line := (tget {} (s.tower t).deck n).inOrder } := by
  simp [State.lined, State.modTower]
theorem stageDue_lined {s : State} {t n g : Nat} {b : Bool} {u : Nat}
    (hf : ((tget {} (s.tower t).deck n).inOrder.find? fun x => x.2.1 = (tget {} (s.tower t).deck n).full && (s.ctx x.1).state ≠ 0) =
      some (g, b, u))
    (ho : (tget {} (s.tower t).deck n).owned = false) (hfl : (tget {} (s.tower t).deck n).flipped ≠ some s.tick) :
    (s.lined t n).stageDue t n = some g := by
  have htick : (s.lined t n).tick = s.tick := rfl
  simp only [State.stageDue, lined_stage, ho, htick, hfl]
  exact congrArg (Option.map (·.1)) hf
theorem exec_stacqGrant {s : State} {t n g : Nat} (h : (s.lined t n).stageDue t n = some g) :
    exec (.stacqGrant t n) s = .next ((s.lined t n).modTower t fun w =>
      let st := tget {} w.deck n
      { w with deck := tset {} w.deck n { st with owned := true, owner := g, line := st.line.filter fun x => x.1 ≠ g } }) := by
  simp only [exec, execStacqGrant]
  unfold State.lined at h
  rw [h]
  rfl

/-! ### Barriers and Tricks (R26-R28, R360, R383) -/

@[simp] theorem setBank_aside (s : State) (l : Launch) (bank : Nat) : (s.setBank l bank).aside = s.aside := by
  unfold State.setBank
  exact foldl_same State.aside _ (fun _ _ => by rfl) _ _
/-- A completed barrier steps GEN; what follows for its Trick leaves the tags. -/
theorem barComplete_bars (s : State) (n : Nat) : (s.barComplete n).bars =
    tset {} s.bars n { s.bar n with gen := ((s.bar n).gen + 1) % 2 ^ 16, arrived := 0, heldB := false, doneAt := none } := by
  unfold State.barComplete
  dsimp only
  split
  · split
    · rfl
    · split
      · rfl
      · exact (congrArg State.bars (setBank_aside _ _ _) :)
  · rfl

end Sys2Proof.Machine

namespace Sys2Proof.Claims
open Sys2Proof.Machine

/-- R31, R32: the grant of a free lease. -/
theorem leaseGrant_claim (s : State) (q h : Nat) (hn : (s.quad q).lease.holder = none) (ht : s.tried = [])
    (hm : h ∈ (s.quad q).lease.reqs) (hh : h < 16)
    (hmin : ∀ j ∈ (s.quad q).lease.reqs, j < 16 → (s.quad q).lease.rank h ≤ (s.quad q).lease.rank j) :
    ∃ t, exec (.leaseGrant q) s = .next t ∧ (t.quad q).lease.holder = some h ∧ (t.quad q).lease.count = 0 ∧
      (t.quad q).lease.grant = s.tick ∧ (t.quad q).lease.ended = false ∧
      (t.quad q).lease.reqs = (s.quad q).lease.reqs.filter (· ≠ h) ∧
      (t.quad q).lease.lastCore = h / 4 ∧ tget 3 (t.quad q).lease.lastK (h / 4) = h % 4 := by
  refine ⟨_, exec_leaseGrant (grantTo_of_first s q hn ht hm hh hmin), ?_⟩
  simp [State.modQuad, Lease.given]
/-- R31, R359: a planned run takes its holder. -/
theorem leaseChange_claim (s : State) (q : Nat) (l : Launch) (e : LeaseEntry) (h : s.leaseDue q = some (l, e)) :
    l.t0 + e.start ≤ s.tick ∧ ∃ t, exec (.leaseChange q) s = .next t ∧ (t.quad e.quad).lease.holder = some (4 * e.core + e.k) ∧
      (t.quad e.quad).lease.count = 0 ∧ (t.quad e.quad).lease.grant = s.tick := by
  refine ⟨leaseDue_tick h, _, exec_leaseChange h, ?_⟩
  simp [State.modLaunch, State.grantRun, State.modQuad, Lease.given]
/-- R337: a free stage goes to the first in line for its state. -/
theorem stacqGrant_claim (s : State) (t n g : Nat) (b : Bool) (u : Nat)
    (hf : ((tget {} (s.tower t).deck n).inOrder.find? fun x => x.2.1 = (tget {} (s.tower t).deck n).full && (s.ctx x.1).state ≠ 0) =
      some (g, b, u))
    (ho : (tget {} (s.tower t).deck n).owned = false) (hfl : (tget {} (s.tower t).deck n).flipped ≠ some s.tick) :
    ∃ v, exec (.stacqGrant t n) s = .next v ∧ let st' := tget {} (v.tower t).deck n
      st'.owned = true ∧ st'.owner = g ∧ st'.full = (tget {} (s.tower t).deck n).full ∧
        st'.line = (tget {} (s.tower t).deck n).inOrder.filter fun x => x.1 ≠ g := by
  refine ⟨_, exec_stacqGrant (stageDue_lined hf ho hfl), ?_⟩
  simp [State.modTower, lined_stage]
/-- R26, R27, R383: a complete barrier. -/
theorem barrierCompletion_claim (s : State) (n u : Nat) (hd : (s.bar n).doneAt = some u) (hu : u ≤ s.tick)
    (hl : ∀ l, s.launch (s.bar n).launch = some l → l.st ≠ .stopped) : ∃ t, exec (.barrierCompletion n) s = .next t ∧
      t.bars = tset {} s.bars n { s.bar n with gen := ((s.bar n).gen + 1) % 2 ^ 16, arrived := 0, heldB := false, doneAt := none } := by
  refine ⟨_, event_pos ?_, barComplete_bars s n⟩
  simp only [State.barDue, hd, hu, decide_true, Bool.true_and, Option.all_eq_true]
  exact fun l h => decide_eq_true (hl l h)
/-- R380: the parties that miss a planned completion. -/
theorem deadline_claim (s : State) (n : Nat) (l : Launch) (p : Phase) (h : s.deadline n = some (l, p)) (ht : s.tickDone = true) :
    ∃ t, exec (.plannedCompletionDeadline n) s = .next t ∧
      t.dealer.notes.length = s.dealer.notes.length + (s.missing l p n).length ∧ ∀ x ∈ t.dealer.notes, x ∈ s.dealer.notes ∨ x.code = 0x0D := by
  refine ⟨_, ?_, slipUnits_notes l (s.missing l p n) s⟩
  simp only [exec, execPlannedCompletionDeadline, h]
  exact event_pos ht
/-- R28: the end of a communication step. -/
theorem commStepEnd_claim (s : State) (id : Nat) (l : Launch) (p : Phase) (k : Trick) (u : Nat) (h : s.commDue id = some (l, p, k, u)) :
    let v := (s.setBank l 4).modLaunch l.id fun l => { l with commEnd := none, trick := l.trick + 1 }
    (p.elastic = true → exec (.commStepEnd id) s = .next v) ∧
    (p.elastic = false → ∃ t, exec (.commStepEnd id) s = .next t ∧
      t.dealer.notes.length = s.dealer.notes.length + (v.lateUnits l k u).length ∧
        ∀ x ∈ t.dealer.notes, x ∈ s.dealer.notes ∨ x.code = 0x0D) := by
  intro v
  have hx : exec (.commStepEnd id) s = .next (s.commOver l p k u) := by simp only [exec, execCommStepEnd, h]
  have hn : v.dealer.notes = s.dealer.notes := (congrArg (·.dealer.notes) (setBank_aside s l 4) :)
  refine ⟨fun he => hx.trans (congrArg _ (if_pos he)), fun he => ⟨_, hx.trans (congrArg _ (if_neg (by simp [he]))), ?_⟩⟩
  rw [← hn]
  exact slipUnits_notes l (v.lateUnits l k u) v

end Sys2Proof.Claims

namespace Sys2Proof.Machine

/-! ### What the snapshots of an image leave (R348, R416) -/

/-- The state beside memory traffic and the Dealer. -/
def State.beside (s : State) : State := { s.aside with dealer := {} }
theorem beside_of_aside {s t : State} (h : t.aside = s.aside) : t.beside = s.beside := by
  unfold State.beside
  rw [h]
@[simp] theorem modLaunch_beside (s : State) (id : Nat) (f : Launch → Launch) : (s.modLaunch id f).beside = s.beside := rfl
theorem snap_beside (s : State) (l : Launch) (n : Nat) (p : Phase) (a : Nat) : (s.snap l n p a).beside = s.beside := by
  unfold State.snap
  split
  · rfl
  · dsimp only
    split
    · rfl
    · exact (modLaunch_beside _ _ _).trans (foldl_same State.beside _ (fun t e => beside_of_aside (snapMove_aside t l.vf e false)) _ _)
theorem snapOnce_beside (s : State) (l : Launch) (n : Nat) (p : Phase) (a : Nat) : (s.snapOnce l n p a).beside = s.beside := by
  unfold State.snapOnce
  split
  · exact snap_beside _ _ _ _ _
  · rfl
theorem snapRigid_beside (s : State) (l : Launch) : (s.snapRigid l).beside = s.beside := by
  unfold State.snapRigid
  refine foldl_same State.beside _ (fun t p => ?_) _ s
  split
  · rfl
  · exact foldl_same State.beside _ (fun u a => snap_beside _ _ _ _ _) _ _

/-! ### Launches in the Dealer's table -/

theorem launch_id {s : State} {id : Nat} {l : Launch} (h : s.launch id = some l) : l.id = id := by
  simpa using List.find?_some h
theorem launch_modLaunch (s : State) (k : Nat) (f : Launch → Launch) (hf : ∀ l, (f l).id = l.id) (id : Nat) :
    (s.modLaunch k f).launch id = (s.launch id).map fun l => if l.id = k then f l else l := by
  have hp : (fun l : Launch => decide (l.id = id)) ∘ (fun l => if l.id = k then f l else l) = fun l => decide (l.id = id) := by
    funext l
    simp only [Function.comp]
    split
    · rw [hf]
    · rfl
  exact (List.find?_map ..).trans (by rw [hp]; rfl)

/-! ### The first phase is prepared (R15, R382) -/

/-- A tag becomes a launch's own. -/
def State.ownTag (l : Launch) (s : State) (n : Nat) : State :=
  s.setBar n { gen := (s.bar n).gen, vf := l.vf, owned := true, launch := l.id }
theorem foldl_ownTag (l : Launch) (L : List Nat) (s : State) (n : Nat) : (L.foldl (State.ownTag l) s).bar n =
    if n ∈ L then { gen := (s.bar n).gen, vf := l.vf, owned := true, launch := l.id } else s.bar n := by
  induction L generalizing s with
  | nil => simp
  | cons m L ih =>
    rw [List.foldl_cons, ih]
    by_cases hm : n = m
    · subst hm
      simp [State.ownTag]
    · simp [State.ownTag, bar_setBar_ne _ _ _ _ hm, hm]
theorem foldl_ownTag_dealer (l : Launch) (L : List Nat) (s : State) : (L.foldl (State.ownTag l) s).dealer = s.dealer :=
  foldl_same State.dealer (State.ownTag l) (fun _ _ => rfl) L s
theorem prepare_first (s : State) (l : Launch) (h : 0 < l.phases.length) :
    s.prepare l 0 = (l.tags.foldl (State.ownTag l) s).modLaunch l.id fun l => { l with armed := 1 } :=
  (if_neg (by omega)).trans rfl

/-! ### Engines of the first phase are armed (R15, R16, R381) -/

/-- The state as an engine's arm register is written: a context's inputs are kept. -/
def State.armReady (s : State) (l : Launch) (n : Nat) (p : Phase) (e : EngEntry) : State :=
  if e.kind = 0 then s.snapOnce ((s.launch l.id).getD l) n p e.image else s
theorem armReady_beside (s : State) (l : Launch) (n : Nat) (p : Phase) (e : EngEntry) : (s.armReady l n p e).beside = s.beside := by
  unfold State.armReady
  split
  · exact snapOnce_beside _ _ _ _ _
  · rfl
/-- A tick that is not past arms an engine without a slip. -/
theorem armEngine_notPast (s : State) (l : Launch) (n : Nat) (p : Phase) (e : EngEntry) (t : Nat) (h : s.tick ≤ t) :
    s.armEngine l n p e t = ((s.armReady l n p e).setArm e.unit { tick := t, armed := true, elastic := p.elastic }).modLaunch l.id
      fun l => { l with work := l.work ++ [{ phase := n, unit := e.unit }] } := by
  have htick : (s.armReady l n p e).tick = s.tick := (congrArg State.tick (armReady_beside s l n p e) :)
  refine if_neg fun hc => ?_
  have hlt : t < (s.armReady l n p e).tick := hc.2
  omega
/-- An engine of the first phase is armed from base tick `t`. -/
def State.armFrom (l : Launch) (p : Phase) (t : Nat) (s : State) (e : EngEntry) : State :=
  s.armEngine ((s.launch l.id).getD l) 0 p e (t + e.start)
theorem armFrom_arms (l : Launch) (p : Phase) (t : Nat) (s : State) (e : EngEntry) (h : s.tick ≤ t) :
    (s.armFrom l p t e).arms = tset {} s.arms e.unit { tick := t + e.start, armed := true, elastic := p.elastic } ∧
      (s.armFrom l p t e).tick = s.tick := by
  have hb := armReady_beside s ((s.launch l.id).getD l) 0 p e
  unfold State.armFrom
  rw [armEngine_notPast _ _ _ _ _ _ (h.trans (Nat.le_add_right _ _))]
  have harms : (s.armReady ((s.launch l.id).getD l) 0 p e).arms = s.arms := (congrArg State.arms hb :)
  refine ⟨?_, (congrArg State.tick hb :)⟩
  rw [← harms]
  rfl
/-- With a base tick that is not past, every engine of a list without repeated units has its arm tick. -/
theorem foldl_armFrom (l : Launch) (p : Phase) (t : Nat) (es : List EngEntry) (s : State) (h : s.tick ≤ t) (hn : (es.map (·.unit)).Nodup) :
    (∀ u ∉ es.map (·.unit), (es.foldl (State.armFrom l p t) s).arm u = s.arm u) ∧
      ∀ e ∈ es, (es.foldl (State.armFrom l p t) s).arm e.unit = { tick := t + e.start, armed := true, elastic := p.elastic } := by
  induction es generalizing s with
  | nil => simp
  | cons e es ih =>
    obtain ⟨harm, htick⟩ := armFrom_arms l p t s e h
    rw [List.map_cons, List.nodup_cons] at hn
    obtain ⟨hout, hin⟩ := ih (s.armFrom l p t e) (htick ▸ h) hn.2
    have hself : (s.armFrom l p t e).arm e.unit = { tick := t + e.start, armed := true, elastic := p.elastic } := by
      rw [State.arm, harm, tget_tset_self]
    refine ⟨fun u hu => ?_, List.forall_mem_cons.2 ⟨(hout _ hn.1).trans hself, hin⟩⟩
    rw [List.map_cons, List.mem_cons, not_or] at hu
    rw [List.foldl_cons, hout u hu.2, State.arm, harm, tget_tset_ne _ _ _ _ _ hu.1]
    rfl
theorem baseTick_spec (s : State) : s.baseTick % 64 = 0 ∧ s.tick ≤ s.baseTick := by
  unfold State.baseTick
  constructor
  · exact Nat.mul_mod_right _ _
  · have := Nat.le_mul_of_pos_right 64 (Nat.succ_pos (Config.number s.fresh 10))
    omega

/-- The first phase of a launch that nothing delays is prepared. -/
theorem exec_phaseArm_first {s : State} {id : Nat} {l : Launch} (hl : s.launch id = some l) (hst : l.st = .running) (ha : l.armed = 0)
    (hd : s.delayed l = false) : exec (.phaseArm id) s = .next (s.prepare l 0) := by
  simp [exec, execPhaseArm, hl, State.phaseArm, hst, ha, hd]
/-- The state from which the engines of the first phase are armed: the inputs of RIGID phases are kept, and the base tick is set. -/
def State.timed (s : State) (l : Launch) : State := (s.snapRigid l).modLaunch l.id fun l => { l with timed := true, t0 := s.baseTick }
theorem timed_beside (s : State) (l : Launch) : (s.timed l).beside = s.beside := (modLaunch_beside _ _ _).trans (snapRigid_beside s l)
theorem exec_phaseArm_timed {s : State} {id : Nat} {l : Launch} {p : Phase} (hl : s.launch id = some l) (hst : l.st = .running)
    (hp : l.phases[0]? = some p) (ha : l.armed ≠ 0) (ht : l.timed = false) (hi : (p.images.all fun x => s.placed l x.1 x.2) = true)
    (hf : ∀ e ∈ p.engines, s.armFree e.unit = true) :
    exec (.phaseArm id) s = .next (p.engines.foldl (State.armFrom l p s.baseTick) (s.timed l)) := by
  have hall : (p.engines.all fun e => s.armFree e.unit) = true := List.all_eq_true.2 hf
  have hx : s.phaseArm l = some (p.engines.foldl (State.armFrom l p s.baseTick) (s.timed l)) := by
    unfold State.phaseArm
    rw [if_neg (by simp [hst]), if_neg (by simp [hst]), if_neg ha, if_pos (by simp [ht]), hp]
    exact if_pos (by rw [hi, hall]; rfl)
  simp only [exec, execPhaseArm, hl, Option.bind_some, hx, Option.getD_some]

/-! ### Images (R113, R348) -/

/-- What waits for an image has its inputs copied once it is placed. -/
theorem foldl_snapOnce_beside (l : Launch) (a : Nat) (W : List (Nat × Phase)) (s : State) :
    (W.foldl (fun s w => s.snapOnce ((s.launch l.id).getD l) w.1 w.2 a) s).beside = s.beside :=
  foldl_same State.beside _ (fun _ _ => snapOnce_beside _ _ _ _ _) W s
/-- An image that passes is placed, and what follows leaves cores and quads. -/
theorem loadImage_ok {s : State} {c a : Nat} {l : Launch} {f : ImageFile} (h : s.readImage a = .ok f) :
    (s.loadImage c l a).beside = ((s.dealerMet l.vf f.reads).placeImage c f.image).beside := by
  unfold State.loadImage
  rw [h]
  exact (foldl_snapOnce_beside l a _ _).trans (modLaunch_beside _ _ _)
theorem loadImage_error {s : State} {c a : Nat} {l : Launch} {r : LoadReject} (h : s.readImage a = .error r) :
    s.loadImage c l a = (s.modDealer fun d => { d with rejects := d.rejects ++ [r] }).killLaunch l.id 2 := by
  unfold State.loadImage
  rw [h]
theorem exec_imageLoad {s : State} {c a : Nat} {l : Launch} (h : s.imageDue c = some (l, a)) :
    exec (.imageLoad c) s = .next (s.loadImage c l a) := by
  simp only [exec, execImageLoad, h]
theorem placeImage_core (s : State) (c : Nat) (i : Image) : ((s.placeImage c i).core' c).image = some i ∧
    ((s.placeImage c i).core' c).badHalf = [] ∧ ((s.placeImage c i).core' c).badEntry = [] := by
  simp [State.placeImage, State.modCore]
theorem placeImage_book (s : State) (c : Nat) (i : Image) : ((s.placeImage c i).quad (c / 4)).book =
    i.books.foldl (fun t b => tset 0 t b.1 b.2) (s.quad (c / 4)).book := by
  simp [State.placeImage, State.modQuad, State.modCore]

/-! ### The start of an engine (R17-R19, R47, R380) -/

/-- A register whose tick has come has neither started nor slipped. -/
theorem armed_notStarted {s : State} {u : Nat} {x : Launch × Nat × Phase × EngEntry} (h : s.armed u = some x) :
    (s.arm u).started = false := by
  unfold State.armed at h
  dsimp only at h
  split at h
  · contradiction
  · next hc =>
    simp only [not_or] at hc
    simpa using hc.2.1
section
variable {s : State} {u n : Nat} {l : Launch} {p : Phase} {e : EngEntry}
theorem armTick_ready (hr : s.redoReady u = none) (ha : s.armed u = some (l, n, p, e)) (hst : l.st = .running)
    (hu : s.unitReady l n p e = true) : s.armTick u = some (s.startUnit l n e) := by
  simp [State.armTick, hr, ha, hst, hu]
theorem armTick_waits (hr : s.redoReady u = none) (ha : s.armed u = some (l, n, p, e)) (hu : s.unitReady l n p e = false)
    (he : p.elastic = true) : s.armTick u = none := by
  simp [State.armTick, hr, ha, hu, he]
theorem armTick_slips (hr : s.redoReady u = none) (ha : s.armed u = some (l, n, p, e)) (hst : l.st = .running)
    (hu : s.unitReady l n p e = false) (he : p.elastic = false) (ht : s.tickDone = true) : s.armTick u = some (s.slipUnit l u) := by
  simp [State.armTick, hr, ha, hst, hu, he, ht]
end
theorem exec_engineArmTick {s t : State} {u : Nat} (h : s.armTick u = some t) : exec (.engineArmTick u) s = .next t := by
  simp only [exec, execEngineArmTick, h, Option.getD_some]
theorem startUnit_arm (s : State) (l : Launch) (n : Nat) (e : EngEntry) : ((s.startUnit l n e).arm e.unit).started = true := by
  have h := congrArg Arm.started
    (arm_setArm_self (s.beginPhase l n) e.unit { (s.beginPhase l n).arm e.unit with started := true })
  unfold State.startUnit
  dsimp only
  split
  · exact h
  · exact h
/-- A context starts as its kernel's entry leaves it. -/
theorem startUnit_ctx (s : State) (l : Launch) (n : Nat) (e : EngEntry) (hk : e.kind = 0) :
    ∃ sh, (s.startUnit l n e).ctx e.unit =
      { sh := sh, pc := e.entry, state := 1, stage := e.stage, vfid := l.vf, largs := l.args, launch := some l.id,
        image := e.image, entry := e.entry, phase := n, task := e.unit } := by
  unfold State.startUnit
  dsimp only
  rw [if_pos hk]
  exact ⟨_, ctx_setCtx_self _ _ _⟩

/-! ### A launch leaves (R339, R344, R382) -/

/-- A tag that a launch owns is free. -/
def State.dropTag (l : Launch) (s : State) (n : Nat) : State :=
  if (s.bar n).owned ∧ (s.bar n).launch = l.id then s.setBar n { s.bar n with owned := false } else s
theorem dropTag_ne (l : Launch) (s : State) {n m : Nat} (h : n ≠ m) : (s.dropTag l m).bar n = s.bar n := by
  unfold State.dropTag
  split
  · exact bar_setBar_ne _ _ _ _ h
  · rfl
theorem dropTag_self (l : Launch) (s : State) {n : Nat} (h : (s.bar n).launch = l.id) :
    ((s.dropTag l n).bar n).owned = false ∧ ((s.dropTag l n).bar n).launch = l.id := by
  unfold State.dropTag
  split
  · simp [h]
  · next hc => exact ⟨by simpa [h] using hc, h⟩
theorem foldl_dropTag (l : Launch) (n : Nat) (L : List Nat) (s : State) (h : (s.bar n).launch = l.id) (hn : n ∈ L ∨ (s.bar n).owned = false) :
    ((L.foldl (State.dropTag l) s).bar n).owned = false := by
  induction L generalizing s with
  | nil => simpa using hn
  | cons m L ih =>
    by_cases hm : n = m
    · subst hm
      obtain ⟨ho, hl⟩ := dropTag_self l s h
      exact ih _ hl (.inr ho)
    · have he := dropTag_ne l s hm
      exact ih _ (he ▸ h) (by simpa [he, hm] using hn)
theorem foldl_dropTag_dealer (l : Launch) (L : List Nat) (s : State) : (L.foldl (State.dropTag l) s).dealer = s.dealer := by
  refine foldl_same State.dealer (State.dropTag l) (fun t n => ?_) L s
  unfold State.dropTag
  split <;> rfl
/-- The launches and the barrier tags. -/
def State.rolls (s : State) : List Launch × Tbl BarTag := (s.dealer.launches, s.bars)
theorem rolls_of_apart {s t : State} (h : t.apart = s.apart) : t.rolls = s.rolls := (congrArg State.rolls h :)
@[simp] theorem dealerWrite_rolls (s : State) (pa v n : Nat) : (s.dealerWrite pa v n).rolls = s.rolls :=
  rolls_of_apart (dealerWrite_apart s pa v n)
@[simp] theorem setQueue_rolls (s : State) (n : Nat) (q : DQueue) : (s.setQueue n q).rolls = s.rolls := rfl
@[simp] theorem raise_rolls (s : State) (q : Nat) : (s.raise q).rolls = s.rolls := rfl
/-- An entry's retirement leaves launches and tags. -/
theorem retire_rolls (s : State) (n status : Nat) : (s.retire n status).rolls = s.rolls := by
  unfold State.retire
  split
  · rfl
  · dsimp only
    split
    · rw [raise_rolls]
      split <;> simp
    · split <;> simp
/-- The state of a launch's retirement before its entry retires. -/
def State.departing (s : State) (l : Launch) : State :=
  let s := if s.dealer.resets.any fun r => r.1 = l.vf then s else l.tags.foldl (State.dropTag l) s
  ((s.setBank l 4).podRelease 5).modDealer fun d => { d with launches := d.launches.filter fun m => m.id ≠ l.id }
theorem retireLaunch_eq (s : State) (l : Launch) (status : Nat) : s.retireLaunch l status =
    if ((s.departing l).queue l.q).entry.any fun e => e.1 = l.ix then (s.departing l).retire l.q status else s.departing l := rfl
theorem podRelease_aside (s : State) (scope : Nat) : (s.podRelease scope).aside = s.aside := by
  unfold State.podRelease
  split
  · exact cleanLines_aside _ _
  · rfl
/-- What leaves with a launch beside its tags touches neither the other launches nor the tags. -/
theorem departing_rolls (s : State) (l : Launch) : (s.departing l).rolls =
    (s.dealer.launches.filter fun m => m.id ≠ l.id,
      if s.dealer.resets.any fun r => r.1 = l.vf then s.bars else (l.tags.foldl (State.dropTag l) s).bars) := by
  have h (t : State) : ((t.setBank l 4).podRelease 5).aside = t.aside := (podRelease_aside _ _).trans (setBank_aside _ _ _)
  have hl (t : State) : ((t.setBank l 4).podRelease 5).dealer.launches = t.dealer.launches := (congrArg (·.dealer.launches) (h t) :)
  have hb (t : State) : ((t.setBank l 4).podRelease 5).bars = t.bars := (congrArg State.bars (h t) :)
  unfold State.departing
  split
  · exact Prod.ext (congrArg (List.filter _) (hl s)) (hb s)
  · exact Prod.ext (congrArg (List.filter _) ((hl _).trans (congrArg Dealer.launches (foldl_dropTag_dealer l l.tags s)))) (hb _)
theorem retireLaunch_rolls (s : State) (l : Launch) (status : Nat) : (s.retireLaunch l status).rolls = (s.departing l).rolls := by
  rw [retireLaunch_eq]
  split
  · exact retire_rolls _ _ _
  · rfl

end Sys2Proof.Machine

namespace Sys2Proof.Claims
open Sys2Proof.Machine

/-- R15, R382: the first phase is prepared with its tags. -/
theorem phaseArm_first_claim (s : State) (id : Nat) (l : Launch) (p : Phase) (hl : s.launch id = some l) (hst : l.st = .running)
    (hp : l.phases[0]? = some p) (ha : l.armed = 0) (hd : s.delayed l = false) : ∃ t, exec (.phaseArm id) s = .next t ∧
      (∀ n ∈ l.tags, (t.bar n).owned = true ∧ (t.bar n).launch = l.id ∧ (t.bar n).vf = l.vf ∧ (t.bar n).gen = (s.bar n).gen ∧
        (t.bar n).arrived = 0) ∧
      ∃ l', t.launch id = some l' ∧ l'.armed = 1 := by
  have hlen : 0 < l.phases.length := (List.getElem?_eq_some_iff.1 hp).1
  refine ⟨_, exec_phaseArm_first hl hst ha hd, ?_⟩
  rw [prepare_first s l hlen]
  refine ⟨fun n hn => ?_, { l with armed := 1 }, ?_, rfl⟩
  · have h : ((l.tags.foldl (State.ownTag l) s).modLaunch l.id fun l => { l with armed := 1 }).bar n =
        { gen := (s.bar n).gen, vf := l.vf, owned := true, launch := l.id } := (foldl_ownTag l l.tags s n).trans (if_pos hn)
    rw [h]
    exact ⟨rfl, rfl, rfl, rfl, rfl⟩
  · have hs : (l.tags.foldl (State.ownTag l) s).launch id = some l := by
      rw [State.launch, foldl_ownTag_dealer]
      exact hl
    refine (launch_modLaunch _ _ _ ?_ _).trans ?_
    · exact fun _ => rfl
    · rw [hs]
      exact congrArg some (if_pos rfl)
/-- R15, R16: the first phase is armed at its base tick. -/
theorem phaseArm_timed_claim (s : State) (id : Nat) (l : Launch) (p : Phase) (hl : s.launch id = some l) (hst : l.st = .running)
    (hp : l.phases[0]? = some p) (ha : l.armed ≠ 0) (ht : l.timed = false) (hi : (p.images.all fun x => s.placed l x.1 x.2) = true)
    (hf : ∀ e ∈ p.engines, s.armFree e.unit = true) (hn : (p.engines.map (·.unit)).Nodup) :
    ∃ t base, exec (.phaseArm id) s = .next t ∧ base % 64 = 0 ∧ s.tick ≤ base ∧
      ∀ e ∈ p.engines, t.arm e.unit = { tick := base + e.start, armed := true, elastic := p.elastic } := by
  obtain ⟨h64, hle⟩ := baseTick_spec s
  have htick : (s.timed l).tick = s.tick := (congrArg State.tick (timed_beside s l) :)
  exact ⟨_, s.baseTick, exec_phaseArm_timed hl hst hp ha ht hi hf, h64, hle,
    (foldl_armFrom l p s.baseTick p.engines (s.timed l) (htick.le.trans hle) hn).2⟩
/-- R113, R348: an image that passes. -/
theorem imageLoad_claim (s : State) (c : Nat) (l : Launch) (a : Nat) (h : s.imageDue c = some (l, a)) (f : ImageFile)
    (hf : s.readImage a = .ok f) : ∃ t, exec (.imageLoad c) s = .next t ∧ (t.core' c).image = some f.image ∧ (t.core' c).badHalf = [] ∧
      (t.core' c).badEntry = [] ∧ (t.quad (c / 4)).book = f.image.books.foldl (fun t b => tset 0 t b.1 b.2) (s.quad (c / 4)).book := by
  have hb := loadImage_ok (c := c) (l := l) hf
  have hcore : (s.loadImage c l a).core' c = ((s.dealerMet l.vf f.reads).placeImage c f.image).core' c := (congrArg (·.core' c) hb :)
  have hquad : (s.loadImage c l a).quad (c / 4) = ((s.dealerMet l.vf f.reads).placeImage c f.image).quad (c / 4) :=
    (congrArg (·.quad (c / 4)) hb :)
  have hmet : (s.dealerMet l.vf f.reads).quad (c / 4) = s.quad (c / 4) := (congrArg (·.quad (c / 4)) (dealerMet_aside s l.vf f.reads) :)
  obtain ⟨h1, h2, h3⟩ := placeImage_core (s.dealerMet l.vf f.reads) c f.image
  refine ⟨_, exec_imageLoad h, ?_⟩
  rw [hcore, hquad, placeImage_book, hmet]
  exact ⟨h1, h2, h3, rfl⟩
/-- R17-R19, R47: an engine that is ready. -/
theorem engineArmTick_starts_claim (s : State) (u : Nat) (l : Launch) (n : Nat) (p : Phase) (e : EngEntry) (hr : s.redoReady u = none)
    (ha : s.armed u = some (l, n, p, e)) (he : e.unit = u) (hst : l.st = .running) (hu : s.unitReady l n p e = true) :
    ∃ t, exec (.engineArmTick u) s = .next t ∧ (t.arm u).started = true ∧
      (e.kind = 0 → (t.ctx u).pc = e.entry ∧ (t.ctx u).state = 1 ∧ (t.ctx u).stage = e.stage ∧
        (t.ctx u).vfid = l.vf ∧ (t.ctx u).largs = l.args ∧ (t.ctx u).launch = some l.id ∧ (t.ctx u).sreg = [] ∧ (t.ctx u).xreg = [] ∧
        (t.ctx u).va = [] ∧ (t.ctx u).vb = [] ∧ (t.ctx u).ma = [] ∧ (t.ctx u).mb = [] ∧ (t.ctx u).tk = [] ∧ (t.ctx u).evq = [] ∧
        (t.ctx u).memdef = 0 ∧ (t.ctx u).faultpt = 0 ∧ (t.ctx u).lp0 = 0 ∧ (t.ctx u).lp1 = 0) := by
  subst he
  refine ⟨_, exec_engineArmTick (armTick_ready hr ha hst hu), startUnit_arm s l n e, fun hk => ?_⟩
  obtain ⟨sh, hctx⟩ := startUnit_ctx s l n e hk
  rw [hctx]
  exact ⟨rfl, rfl, rfl, rfl, rfl, rfl, rfl, rfl, rfl, rfl, rfl, rfl, rfl, rfl, rfl, rfl, rfl, rfl⟩
/-- R20, R380: a RIGID engine that is not ready when its tick ends. -/
theorem engineArmTick_slips_claim (s : State) (u : Nat) (l : Launch) (n : Nat) (p : Phase) (e : EngEntry) (hr : s.redoReady u = none)
    (ha : s.armed u = some (l, n, p, e)) (hst : l.st = .running) (hu : s.unitReady l n p e = false) (he : p.elastic = false)
    (ht : s.tickDone = true) : ∃ t, exec (.engineArmTick u) s = .next t ∧
      (t.arm u).slipped = true ∧ (t.arm u).started = false ∧ ∃ x ∈ t.dealer.notes, x.code = 0x0D ∧ x.launch = some l.id := by
  have harm : (s.slipUnit l u).arm u = { s.arm u with slipped := true } := by
    rw [State.arm, slipUnit_arms]
    exact arm_setArm_self _ _ _
  refine ⟨_, exec_engineArmTick (armTick_slips hr ha hst hu he ht), ?_, ?_, s.slipNote l u, ?_, rfl, rfl⟩
  · rw [harm]
  · rw [harm]
    exact armed_notStarted ha
  · rw [slipUnit_notes]
    exact List.mem_append_right _ (List.mem_singleton.2 rfl)
/-- R339, R382: a launch that has ended. -/
theorem launchRetire_claim (s : State) (id : Nat) (l : Launch) (hl : s.launch id = some l) (hd : s.retireDue l = true) :
    ∃ t, exec (.launchRetire id) s = .next t ∧ t.dealer.launches = (s.dealer.launches.filter fun m => m.id ≠ id) ∧
      ((∀ r ∈ s.dealer.resets, r.1 ≠ l.vf) → ∀ n ∈ l.tags, (s.bar n).launch = l.id → (t.bar n).owned = false) := by
  have hx : exec (.launchRetire id) s = .next (s.retireLaunch l l.status) := by
    simp only [exec, execLaunchRetire, hl]
    exact event_pos hd
  have hrolls := (retireLaunch_rolls s l l.status).trans (departing_rolls s l)
  refine ⟨_, hx, ?_, fun hr n hn hb => ?_⟩
  · rw [← launch_id hl]
    exact (congrArg Prod.fst hrolls :)
  · have hrun : ¬ (s.dealer.resets.any fun r => r.1 = l.vf) = true := fun h => by
      obtain ⟨r, hm, he⟩ := List.any_eq_true.1 h
      exact hr r hm (of_decide_eq_true he)
    have hbars : (s.retireLaunch l l.status).bars = (l.tags.foldl (State.dropTag l) s).bars :=
      (congrArg Prod.snd hrolls :).trans (if_neg hrun)
    rw [State.bar, hbars]
    exact foldl_dropTag l n l.tags s hb (.inl hn)

/-- Settles O45: each event's condition picks its branch, and what follows in the branch leaves what the claim reads. -/
theorem timetablesRun : Obligations.TimetablesRun := by
  intro s
  refine ⟨leaseGrant_claim s, fun q h => ?_, leaseChange_claim s, fun t n g b u => stacqGrant_claim s t n g b u, barrierCompletion_claim s,
    deadline_claim s, commStepEnd_claim s, fun id l p hl hst hp => ⟨phaseArm_first_claim s id l p hl hst hp, phaseArm_timed_claim s id l p hl hst hp⟩,
    fun c l a h => ⟨imageLoad_claim s c l a h, fun r hr => (exec_imageLoad h).trans (congrArg _ (loadImage_error hr))⟩,
    fun u l n p e hr ha he hst => ⟨engineArmTick_starts_claim s u l n p e hr ha he hst, fun hu hp => ?_,
      engineArmTick_slips_claim s u l n p e hr ha hst⟩, launchRetire_claim s⟩
  · intro x hh hr hc hcopy hread hst hpk
    exact ⟨fun he => (exec_leaseRunEnd (runOver_of hh hr hc hcopy hread hst hpk (.inl he))).trans (congrArg _ (endRun_ended hh he)),
      fun he hroom => (exec_leaseRunEnd (runOver_of hh hr hc hcopy hread hst hpk (.inr hroom))).trans (congrArg _ (endRun_cut hh he))⟩
  · simp only [exec, execEngineArmTick, armTick_waits hr ha hu hp, Option.getD_none]

end Sys2Proof.Claims

namespace Sys2Proof.Machine

/-! ### A context after an update of it (R47, R62) -/

@[simp] theorem ctx_modCtx_self (s : State) (g : Nat) (f : Ctx → Ctx) : (s.modCtx g f).ctx g = f (s.ctx g) := ctx_setCtx_self _ _ _
theorem ctx_modCtx_ne (s : State) (g h : Nat) (f : Ctx → Ctx) (hne : h ≠ g) : (s.modCtx g f).ctx h = s.ctx h := ctx_setCtx_ne _ _ _ _ hne
@[simp] theorem me_modCtx_cur (s : State) (f : Ctx → Ctx) : (s.modCtx s.cur f).me = f s.me := ctx_modCtx_self _ _ _

/-! ### The fault that a context takes (R62, R106, R407) -/

/-- The context that has taken a fault: FAULTPT and FAULTPC written, stopped, and all else as it was. -/
def Ctx.faulted (c : Ctx) (f : FaultInfo) : Ctx :=
  { c with faultpt := faultWord f.point f.code f.slot.num 0, faultpc := c.pc, state := 3, wait := 0, stop := .faulted }
/-- What the Dealer hears of it. -/
def State.noteOf (s : State) (f : FaultInfo) : FaultNote :=
  { kind := 0, code := f.code, vf := s.me.vfid, g := s.cur, pc := s.me.pc, point := (faultWord f.point f.code f.slot.num 0).toNat,
    addr := f.addr, tick := s.tick, launch := s.me.launch }
/-- A fault that marks no table entry writes its context, the bundle's outcome and the Dealer's notes. -/
theorem takeFault_eq (s : State) (f : FaultInfo) (h : f.mark = none) : s.takeFault f =
    { s.modCtx s.cur (Ctx.faulted · f) with
      issue := { s.issue with fault := some f }
      dealer := { s.dealer with notes := s.dealer.notes ++ [s.noteOf f] } } := by
  unfold State.takeFault
  rw [h]
  rfl
@[simp] theorem takeFault_me (s : State) (f : FaultInfo) (h : f.mark = none) : (s.takeFault f).me = s.me.faulted f := by
  rw [takeFault_eq s f h]
  exact me_modCtx_cur s (Ctx.faulted · f)
theorem takeFault_ctx_ne (s : State) (f : FaultInfo) (h : f.mark = none) {g : Nat} (hg : g ≠ s.cur) :
    (s.takeFault f).ctx g = s.ctx g := by
  rw [takeFault_eq s f h]
  exact ctx_modCtx_ne s s.cur g (Ctx.faulted · f) hg

/-- A syllable whose own effect is a fault takes it. -/
theorem syl_fault (s : State) (i : Instr) (f : State → Except Halt State) (c : Nat) (hr : s.operandsReady i = true)
    (hf : f (s.noted i) = .error (.code c)) : s.syl i f = .next (s.takeFault { slot := i.slot, code := c }) := by
  rw [syl_ready s i f hr, hf]
  rfl
/-- A syllable whose own effect succeeds ends in it. -/
theorem syl_ok (s : State) (i : Instr) (f : State → Except Halt State) {t : State} (hr : s.operandsReady i = true)
    (hf : f (s.noted i) = .ok t) : s.syl i f = .next t := by
  rw [syl_ready s i f hr, hf]
  rfl

/-! ### A command at issue (R58) -/

/-- The token under which a command is issued. -/
def Cmd.pendingTok (k : Cmd) : Tok :=
  { st := .pending, by' := k.serial, bind := match k.instr with | .sbind _ => true | _ => false,
    csum := match k.instr with | .dcopyCsum _ => true | _ => false }
theorem issued_me (s : State) (k : Cmd) : (s.issued k).me = s.me.setToken k.tok k.pendingTok :=
  me_modCtx_cur s (Ctx.setToken · k.tok k.pendingTok)
@[simp] theorem token_setToken_self (c : Ctx) (n : Nat) (t : Tok) : (c.setToken n t).token n = t := tget_tset_self _ _ _ _
theorem token_setToken_ne (c : Ctx) (n m : Nat) (t : Tok) (h : m ≠ n) : (c.setToken n t).token m = c.token m :=
  tget_tset_ne _ _ _ _ _ h

end Sys2Proof.Machine

namespace Sys2Proof.Claims
open Sys2Proof.Machine

/-- Settles O30: at issue one entry of the token file is written. -/
theorem issuedTokensArePending : Obligations.IssuedTokensArePending := by
  intro s k
  have hself : (s.issued k).me.token k.tok = k.pendingTok := by rw [issued_me, token_setToken_self]
  refine ⟨by rw [hself]; rfl, by rw [hself]; rfl, rfl, fun n hn => ?_, rfl, ?_⟩
  · rw [issued_me, token_setToken_ne _ _ _ _ hn]
  · rw [issued_me]
    rfl

/-- The fault of `trap`: its code is POINT (R148). -/
def trapFault (o : FX) : FaultInfo := { slot := .c, code := 0x0C, point := bits o.imm.toNat 15 0 }
theorem exec_trap (s : State) (o : FX) (hr : s.operandsReady (.trap o) = true) :
    exec (.trap o) s = .next (s.takeFault (trapFault o)) :=
  (syl_ready s (.trap o) (fun _ => .error (.fault 0x0C (bits o.imm.toNat 15 0) 0 none)) hr :)
theorem trapFault_word (o : FX) : faultWord (trapFault o).point (trapFault o).code (trapFault o).slot.num 0 =
    BitVec.ofNat 64 (o.imm.toNat % 2 ^ 16 + 0x0C * 2 ^ 32 + 2 ^ 44) := by
  have hp : bits o.imm.toNat 15 0 % 2 ^ 32 = o.imm.toNat % 2 ^ 16 := by
    simp only [bits, Nat.shiftRight_zero]
    omega
  simp only [faultWord, trapFault, hp, Slot.num]
  exact congrArg (BitVec.ofNat 64) (by omega)

/-- Settles O18: `trap` ends in its fault, whose writes are those of any fault. -/
theorem trapTakesItsFault : Obligations.TrapTakesItsFault := by
  intro s o hr
  have hc : (s.takeFault (trapFault o)).ctx s.cur = s.me.faulted (trapFault o) := takeFault_me s _ rfl
  refine ⟨_, exec_trap s o hr, ?_⟩
  rw [hc]
  simp only [Ctx.faulted, trapFault_word, true_and]
  exact ⟨rfl, s.noteOf (trapFault o), rfl, rfl, rfl, rfl⟩

/-- Settles O59: each clause is a field of the reset state, and an empty table reads as its default everywhere. -/
theorem resetState : Obligations.ResetState := by
  refine ⟨rfl, rfl, rfl, fun _ => rfl, fun _ => rfl, rfl, rfl, fun _ => rfl, by decide, rfl, fun _ => rfl, fun n => ?_⟩
  unfold State.readS
  split
  · rfl
  · rfl

/-! ### WRCR (R152) -/

/-- What `wrcr` does behind the common checks to the halves of the shapes: the vector half stands at the even numbers. -/
theorem exec_wrcr_vec (s : State) (o : FR) (h : Nat) (hh : h < 8) (hr : s.operandsReady (.wrcr o) = true) (hn : o.b.toNat = 0x10 + 2 * h) :
    exec (.wrcr o) s = settle .c s (if vecHalfOk (s.rs o.a).toNat then
      .ok ((s.noted (.wrcr o)).putSh h ((s.rs o.a).setWidth 128 &&& BitVec.ofNat 128 (2 ^ 44 - 1)) (BitVec.ofNat 128 (2 ^ 64 - 1)) 1)
      else .error (.code 0x09)) := by
  simp only [exec, execWrcr, syl_ready s _ _ hr, hn]
  rw [if_pos (by omega), if_pos (by omega), show (0x10 + 2 * h - 0x10) / 2 = h by omega]
  rfl
theorem exec_wrcr_cube (s : State) (o : FR) (h : Nat) (hh : h < 8) (hr : s.operandsReady (.wrcr o) = true) (hn : o.b.toNat = 0x11 + 2 * h) :
    exec (.wrcr o) s = settle .c s (if cubeHalfOk (s.rs o.a).toNat then
      .ok ((s.noted (.wrcr o)).putSh h ((s.rs o.a).setWidth 128 <<< 64) (BitVec.ofNat 128 (2 ^ 64 - 1) <<< 64) 1)
      else .error (.code 0x09)) := by
  simp only [exec, execWrcr, syl_ready s _ _ hr, hn]
  rw [if_pos (by omega), if_neg (by omega), show (0x11 + 2 * h - 0x10) / 2 = h by omega]
  rfl
/-- To a register that is no shape's half. -/
theorem exec_wrcr_plain (s : State) (o : FR) (hr : s.operandsReady (.wrcr o) = true) (hn : o.b.toNat < 0x10 ∨ 0x20 ≤ o.b.toNat) :
    exec (.wrcr o) s = settle .c s (match o.b.toNat with
      | 0 => if 6 ≤ bits (s.rs o.a).toNat 6 4 ∨ 6 ≤ bits (s.rs o.a).toNat 9 7 then .error (.code 0x08)
        else .ok ((s.noted (.wrcr o)).putCr 0 (s.rs o.a))
      | 3 => .ok (s.noted (.wrcr o))
      | 5 => .ok ((s.noted (.wrcr o)).putCr 5 (s.rs o.a))
      | 9 => .ok ((s.noted (.wrcr o)).putCr 9 (s.rs o.a))
      | 10 => .ok ((s.noted (.wrcr o)).putCr 10 (s.rs o.a))
      | _ => .error (.code 0x0A)) := by
  simp only [exec, execWrcr, syl_ready s _ _ hr]
  exact congrArg (settle .c s) (if_neg (by omega))

/-- Settles O21: the number of the register decides, a shape's half or another, and then its check. -/
theorem controlRegisterWrites : Obligations.ControlRegisterWrites := by
  intro s o hr
  dsimp only
  have plain := exec_wrcr_plain s o hr
  refine ⟨fun hn h1 h2 => ?_, fun hn => ?_, fun hn => ?_, fun h hh hn hv => ?_, fun h hh hn hv => ?_, fun hn hv => ?_,
    fun h hh hn => ?_, fun hn => ?_⟩
  · rw [plain (by omega), hn]
    exact congrArg (settle .c s) (if_neg (by omega))
  · rw [plain (by omega), hn]
    rfl
  · rcases hn with hn | hn | hn <;>
    · rw [plain (by omega), hn]
      rfl
  · rw [exec_wrcr_vec s o h hh hr hn, if_pos hv]
    rfl
  · rw [exec_wrcr_cube s o h hh hr hn, if_pos hv]
    rfl
  · rw [plain (by omega), hn]
    exact congrArg (settle .c s) (if_pos hv)
  · rcases hn with ⟨hn, hv⟩ | ⟨hn, hv⟩
    · rw [exec_wrcr_vec s o h hh hr hn, hv]
      rfl
    · rw [exec_wrcr_cube s o h hh hr hn, hv]
      rfl
  · simp only [List.mem_cons, List.not_mem_nil, or_false] at hn
    rw [plain (by omega)]
    split
    case h_6 => rfl
    all_goals omega

/-! ### Loops, jump tables and buckets (R111, R143-R145) -/

/-- A transfer behind the common checks goes where a bundle starts, and faults BAD_TARGET elsewhere. -/
theorem goto_noted_ok {s : State} {t : Int} (i : Instr) (h : isTarget s t) : (s.noted i).goto t = .ok (jumped s i t) := by
  obtain ⟨m, hm, ht⟩ := (Option.any_eq_true _ _).1 h
  have hi : (s.noted i).image (s.noted i).cur = some m := hm
  rw [State.goto, hi]
  exact if_pos (by simpa using ht)
theorem goto_noted_bad {s : State} {t : Int} (i : Instr) (h : ¬ isTarget s t) : (s.noted i).goto t = .error (.code 0x03) := by
  cases hm : (s.noted i).image (s.noted i).cur with
  | none => rw [State.goto, hm]
  | some m =>
    have hi : s.image s.cur = some m := hm
    rw [State.goto, hm]
    exact if_neg (by simpa [isTarget, hi] using h)

/-- The next sequential offset (R109). -/
def nextOffset (s : State) : Nat := s.me.pc + if s.issue.literal then 25 else 1
/-- Where a loop goes first: into its body, or past it (R143). -/
def loopTarget (s : State) (o : FB) : Int := if (s.rs o.a).toNat = 0 then relative s o.off else (nextOffset s : Int)
theorem exec_loop (s : State) (o : FB) (hr : s.operandsReady (.loop o) = true) : exec (.loop o) s = settle .c s
    ((ensure (decide ((s.rs o.a).toNat < 2 ^ 24)) 0x08).bind fun _ => ((s.noted (.loop o)).goto (loopTarget s o)).bind fun t =>
      .ok (t.putCr (9 + o.d.toNat) (lpWord (s.rs o.a).toNat (nextOffset s) (relative s o.off).toNat))) :=
  syl_ready s (.loop o) _ hr
/-- The target that a jump table gives (R144). -/
def tableTarget (s : State) (o : FB) : Int :=
  if (s.rs o.a).toNat ≤ o.cond.toNat then (s.me.pc : Int) + ((s.readS (o.d.toNat + (s.rs o.a).toNat)).setWidth 32).toInt else relative s o.off
theorem exec_jt (s : State) (o : FB) (hr : s.operandsReady (.jt o) = true) :
    exec (.jt o) s = settle .c s ((s.noted (.jt o)).goto (tableTarget s o)) :=
  (syl_ready s (.jt o) _ hr).trans (congrArg (settle .c s) (apply_ite (State.goto (s.noted (.jt o))) _ _ _).symm)

/-- What `bsel` writes into a shape, bound and value, by its COND (R145). -/
def bucketVal (cond bound v : Nat) : ShapeReg :=
  match cond with
  | 0 => BitVec.ofNat 128 (bound % 2 ^ 7 * 2 ^ 64 + v % 2 ^ 7 * 2 ^ 78)
  | 1 => BitVec.ofNat 128 (bound % 2 ^ 7 * 2 ^ 71 + v % 2 ^ 7 * 2 ^ 85)
  | _ => BitVec.ofNat 128 (bound % 2 ^ 18 * 2 ^ 92 + v % 2 ^ 18 * 2 ^ 110)
/-- The bits of the shape that it writes. -/
def bucketBits (cond : Nat) : ShapeReg :=
  match cond with
  | 0 => BitVec.ofNat 128 (127 * 2 ^ 64 + 127 * 2 ^ 78)
  | 1 => BitVec.ofNat 128 (127 * 2 ^ 71 + 127 * 2 ^ 85)
  | _ => BitVec.ofNat 128 (262143 * 2 ^ 92 + 262143 * 2 ^ 110)
/-- The first bucket of the table that holds s[A]. -/
def bucketOf (s : State) (o : FB) (i : Image) : Option (Nat × Nat) :=
  (i.buckets.getD o.off.toNat []).find? fun e => (s.rs o.a).toNat ≤ e.1
/-- What follows the choice of a bucket. -/
def bselTo (s : State) (o : FB) : Option (Nat × Nat) → Except Halt State
  | none => .error (.code 0x08)
  | some b => ((s.noted (.bsel o)).goto b.2).map fun t =>
      t.putSh (s.spec 8 o.d) (bucketVal o.cond.toNat b.1 (s.rs o.a).toNat) (bucketBits o.cond.toNat) 1
theorem exec_bsel {s : State} {o : FB} {i : Image} (hi : s.image s.cur = some i) (hr : s.operandsReady (.bsel o) = true) :
    exec (.bsel o) s = settle .c s (bselTo s o (bucketOf s o i)) := by
  have table : (((s.noted (.bsel o)).image (s.noted (.bsel o)).cur).map fun i => i.buckets.getD o.off.toNat []).getD [] =
      i.buckets.getD o.off.toNat [] := by
    rw [show (s.noted (.bsel o)).image (s.noted (.bsel o)).cur = some i from hi]
    rfl
  have found : List.find? (fun b => decide (((s.noted (.bsel o)).rs o.a).toNat ≤ b.1)) (i.buckets.getD o.off.toNat []) =
      bucketOf s o i := rfl
  refine (syl_ready s (.bsel o) _ hr).trans (congrArg (settle .c s) ?_)
  dsimp only
  rw [table, found]
  rcases bucketOf s o i with _ | b
  · rfl
  · unfold bselTo bucketVal bucketBits
    rcases o.cond.toNat with _ | _ | n
    · rfl
    · rfl
    · rfl

/-- Settles O16: each form is its check of the operand, and then a transfer, which goes to a target or faults. -/
theorem loopsAndTables : Obligations.LoopsAndTables := by
  refine ⟨fun s o => ⟨fun hr => ⟨fun hn => ?_, fun hn ht => ?_⟩, fun hr ht => ?_, fun i hi hr => ⟨fun hall => ?_, fun b hb ht => ?_⟩⟩,
    fun s o => ⟨fun hn _ ht hr => ?_, fun ht hr => ?_, fun i b hi hb ht hr => ?_⟩⟩
  · rw [exec_loop s o hr, decide_eq_false (Nat.not_lt.2 hn)]
    rfl
  · rw [exec_loop s o hr, decide_eq_true hn, goto_noted_bad (t := loopTarget s o) _ ht]
    rfl
  · rw [exec_jt s o hr, goto_noted_bad (t := tableTarget s o) _ ht]
    rfl
  · have hb : bucketOf s o i = none := by
      simpa [bucketOf, List.find?_eq_none] using hall
    rw [exec_bsel hi hr, hb]
    rfl
  · rw [exec_bsel hi hr, show bucketOf s o i = some b from hb]
    exact congrArg (settle .c s) (congrArg (Except.map _) (goto_noted_bad _ ht))
  · rw [exec_loop s o hr, decide_eq_true hn, goto_noted_ok (t := loopTarget s o) _ ht]
    rfl
  · rw [exec_jt s o hr, goto_noted_ok (t := tableTarget s o) _ ht]
    rfl
  · rw [exec_bsel hi hr, show bucketOf s o i = some b from hb]
    exact congrArg (settle .c s) (congrArg (Except.map _) (goto_noted_ok _ ht))

end Sys2Proof.Claims

namespace Sys2Proof.Machine

/-! ### Checks in sequence (R106) -/

theorem bind_ok {α β ε : Type} {x : Except ε α} {a : α} (h : x = .ok a) (f : α → Except ε β) : x.bind f = f a := by rw [h]; rfl
theorem bind_error {α β ε : Type} {x : Except ε α} {e : ε} (h : x = .error e) (f : α → Except ε β) : x.bind f = .error e := by rw [h]; rfl
theorem ensure_of_true {b : Bool} (h : b = true) (code : Nat) : ensure b code = .ok () := by rw [h]; rfl
theorem ensure_of_false {b : Bool} (h : b = false) (code : Nat) : ensure b code = .error (.code code) := by rw [h]; rfl

/-! ### Tile forms behind the common checks (R52, R55, R156) -/

theorem shapeFor_noted (s : State) (i : Instr) (sh : BitVec 3) (w : Nat) : (s.noted i).shapeFor sh w =
    if (vshape (s.readSh sh.toNat)).ok w then .ok (vshape (s.readSh sh.toNat)) else .error (.code 0x09) := rfl
theorem shapeFor_unfit {s : State} {sh : BitVec 3} {w : Nat} (i : Instr) (h : ¬ Claims.shapeFits s sh w) :
    (s.noted i).shapeFor sh w = .error (.code 0x09) := by
  rw [shapeFor_noted, if_neg h]
theorem actives_unfit {s : State} {sh : BitVec 3} {w : Nat} (i : Instr) (h : ¬ Claims.shapeFits s sh w) (p : Cl) (msk : BitVec 3) :
    (s.noted i).actives p sh msk w = .error (.code 0x09) := bind_error (shapeFor_unfit i h) _
theorem each_unfit {s : State} {sh : BitVec 3} {w : Nat} (i : Instr) (h : ¬ Claims.shapeFits s sh w) (p : Cl) (msk : BitVec 3)
    (d : BitVec 7) (lat : Nat) (f : Nat → Nat) : (s.noted i).each p sh msk d w lat f = .error (.code 0x09) :=
  bind_error (actives_unfit i h p msk) _

section Unfit
variable {s : State} {p : Cl} {o : FR} {i : Instr} (hr : s.operandsReady i = true)
include hr

/-- Each kind of tile form faults SHAPE where its shape does not count a whole tile. -/
theorem tile1_unfit (h : ¬ Claims.shapeFits s o.sh (fmtWidth o.ty)) (n : Nat) (f : Nat → Nat) :
    s.tile1 i p o n f = .next (s.takeFault { slot := i.slot, code := 0x09 }) :=
  syl_fault s i _ _ hr (each_unfit i h _ _ _ _ _)
theorem tile2_unfit (h : ¬ Claims.shapeFits s o.sh (fmtWidth o.ty)) (n : Nat) (f : Nat → Nat → Nat) :
    s.tile2 i p o n f = .next (s.takeFault { slot := i.slot, code := 0x09 }) :=
  syl_fault s i _ _ hr (each_unfit i h _ _ _ _ _)
theorem tile3_unfit (h : ¬ Claims.shapeFits s o.sh (fmtWidth o.ty)) (n : Nat) (f : Nat → Nat → Nat → Nat) :
    s.tile3 i p o n f = .next (s.takeFault { slot := i.slot, code := 0x09 }) :=
  syl_fault s i _ _ hr (each_unfit i h _ _ _ _ _)
theorem permute_unfit (h : ¬ Claims.shapeFits s o.sh (fmtWidth o.ty)) (n : Nat) (turn : VShape → VShape)
    (f : State → VShape → Nat → Nat → Nat) :
    s.permute i p o n turn f = .next (s.takeFault { slot := i.slot, code := 0x09 }) :=
  syl_fault s i _ _ hr (bind_error (shapeFor_unfit i h) _)
theorem reduce_unfit (h : ¬ Claims.shapeFits s o.sh (fmtWidth o.ty2)) (n : Nat) (f : List Nat → Nat) :
    s.reduce i p o n f = .next (s.takeFault { slot := i.slot, code := 0x09 }) :=
  syl_fault s i _ _ hr (bind_error (shapeFor_unfit i h) _)
theorem tileI_unfit {o : FI} (h : ¬ Claims.shapeFits s o.sh (fmtWidth o.ty)) (n : Nat) (f : Nat → Nat → Nat) :
    s.tileI i p o n f = .next (s.takeFault { slot := i.slot, code := 0x09 }) :=
  syl_fault s i _ _ hr (each_unfit i h _ _ _ _ _)
end Unfit

end Sys2Proof.Machine

namespace Sys2Proof.Claims
open Sys2Proof.Machine

/-! ### The kinds of tile forms (R161-R185) -/

/-- The forms of one, two and three sources, the permutes and the reductions are each of their kind, in the slot of their cluster. -/
theorem exec_tiles1 (s : State) (p : Cl) (o : FR) : ∀ e ∈ tiles1 p o,
    e.1.slot = p.slot ∧ exec e.1 s = s.tile1 e.1 p o e.2.1 e.2.2 := by
  simp only [tiles1, List.forall_mem_cons, List.not_mem_nil, false_imp_iff, implies_true, and_true]
  refine ⟨?_, ?_, ?_, ?_, ?_, ?_, ?_, ?_, ?_, ?_, ?_, ?_, ?_, ?_⟩ <;> exact ⟨rfl, rfl⟩
theorem exec_tiles2 (s : State) (p : Cl) (o : FR) : ∀ e ∈ tiles2 p o,
    e.1.slot = p.slot ∧ exec e.1 s = s.tile2 e.1 p o e.2.1 e.2.2 := by
  simp only [tiles2, List.forall_mem_cons, List.not_mem_nil, false_imp_iff, implies_true, and_true]
  refine ⟨?_, ?_, ?_, ?_, ?_, ?_, ?_, ?_, ?_, ?_, ?_⟩ <;> exact ⟨rfl, rfl⟩
theorem exec_tiles3 (s : State) (p : Cl) (o : FR) : ∀ e ∈ tiles3 p o,
    e.1.slot = p.slot ∧ exec e.1 s = s.tile3 e.1 p o 4 e.2 := by
  simp only [tiles3, List.forall_mem_cons, List.not_mem_nil, false_imp_iff, implies_true, and_true]
  exact ⟨⟨rfl, rfl⟩, ⟨rfl, rfl⟩⟩
theorem exec_permutes (s : State) (p : Cl) (o : FR) : ∀ e ∈ permutes s p o,
    e.1.slot = p.slot ∧ ∃ turn f, exec e.1 s = s.permute e.1 p o e.2.1 turn f := by
  simp only [permutes, List.forall_mem_cons, List.not_mem_nil, false_imp_iff, implies_true, and_true]
  simp only [exec, execVperm, execVshuf, execVbcast, execVext, execVtrn]
  refine ⟨?_, ?_, ?_, ?_, ?_⟩ <;> exact ⟨rfl, _, _, rfl⟩
theorem exec_reductions (s : State) (p : Cl) (o : FR) : ∀ e ∈ reductions p o,
    e.1.slot = p.slot ∧ exec e.1 s = s.reduce e.1 p o e.2.1 e.2.2 := by
  simp only [reductions, List.forall_mem_cons, List.not_mem_nil, false_imp_iff, implies_true, and_true]
  exact ⟨⟨rfl, rfl⟩, ⟨rfl, rfl⟩, ⟨rfl, rfl⟩⟩
theorem exec_conversions (s : State) (p : Cl) (o : FR) : ∀ e ∈ conversions p o,
    e.1.slot = p.slot ∧ exec e.1 s = s.syl e.1 fun t => t.convForm p o 3 e.2 := by
  simp only [conversions, List.forall_mem_cons, List.not_mem_nil, false_imp_iff, implies_true, and_true]
  exact ⟨⟨rfl, rfl⟩, ⟨rfl, rfl⟩, ⟨rfl, rfl⟩⟩
theorem exec_tilesI (s : State) (p : Cl) (o : FI) : ∀ e ∈ tilesI p o,
    e.1.slot = p.slot ∧ ∃ f, exec e.1 s = s.tileI e.1 p o e.2.1 f := by
  simp only [tilesI, List.forall_mem_cons, List.not_mem_nil, false_imp_iff, implies_true, and_true]
  simp only [exec, execVaddI, execVsubI, execVmulI, execVminI, execVmaxI, execVandI, execVorI, execVxorI, execVshlI, execVshrI, execVsarI]
  refine ⟨?_, ?_, ?_, ?_, ?_, ?_, ?_, ?_, ?_, ?_, ?_⟩ <;> exact ⟨rfl, _, rfl⟩

/-! ### Forms whose shape does not count a whole tile (R56, R156) -/

/-- The fault of a tile syllable of cluster `p`. -/
abbrev tileFault (s : State) (p : Cl) (code : Nat) : Out := .next (s.takeFault { slot := p.slot, code := code })

/-- The forms that stand in no list of their own. -/
theorem exec_single_unfit (s : State) (p : Cl) (o : FR) (h : ¬ shapeFits s o.sh (fmtWidth o.ty)) :
    ∀ i ∈ [Instr.vdot4 p o, .vsel p o, .vclmul p o, .vcmp p o], s.operandsReady i → exec i s = tileFault s p 0x09 := by
  simp only [List.forall_mem_cons, List.not_mem_nil, false_imp_iff, implies_true, and_true]
  refine ⟨fun hr => ?_, fun hr => ?_, fun hr => ?_, fun hr => ?_⟩
  · exact syl_fault s (.vdot4 p o) _ _ hr (each_unfit _ h _ _ _ _ _)
  · exact syl_fault s (.vsel p o) _ _ hr (each_unfit _ h _ _ _ _ _)
  · exact syl_fault s (.vclmul p o) _ _ hr (bind_error (actives_unfit _ h _ _) _)
  · exact syl_fault s (.vcmp p o) _ _ hr (bind_error (actives_unfit _ h _ _) _)
theorem exec_plain_unfit (s : State) (p : Cl) (o : FR) (h : ¬ shapeFits s o.sh (fmtWidth o.ty)) :
    ∀ i ∈ (tiles1 p o).map Prod.fst ++ (tiles2 p o).map Prod.fst ++ (tiles3 p o).map Prod.fst ++ (permutes s p o).map Prod.fst ++
      [Instr.vdot4 p o, .vsel p o, .vclmul p o, .vcmp p o], s.operandsReady i → exec i s = tileFault s p 0x09 := by
  intro i hi hr
  rw [List.mem_append, List.mem_append, List.mem_append, List.mem_append, List.mem_map, List.mem_map, List.mem_map, List.mem_map] at hi
  rcases hi with (((⟨e, he, rfl⟩ | ⟨e, he, rfl⟩) | ⟨e, he, rfl⟩) | ⟨e, he, rfl⟩) | hi
  · obtain ⟨hp, hx⟩ := exec_tiles1 s p o e he
    rw [hx, tile1_unfit hr h, hp]
  · obtain ⟨hp, hx⟩ := exec_tiles2 s p o e he
    rw [hx, tile2_unfit hr h, hp]
  · obtain ⟨hp, hx⟩ := exec_tiles3 s p o e he
    rw [hx, tile3_unfit hr h, hp]
  · obtain ⟨hp, turn, f, hx⟩ := exec_permutes s p o e he
    rw [hx, permute_unfit hr h, hp]
  · exact exec_single_unfit s p o h i hi hr

/-- The first register of a conversion's wide operand, and the number of its registers (R54, R171, R172). -/
def wideFits (s : State) (o : FR) : Bool :=
  let w := fmtWidth o.ty
  let u := fmtWidth o.ty2
  w = u || wideAligned o.pair (if u < w then w / u else u / w) (if u < w then s.spec 64 o.d else s.spec 64 o.a)
/-- A conversion asks for its alignment first, and then for its shape at the narrower width. -/
theorem convForm_refused (s : State) (i : Instr) (p : Cl) (o : FR) (n : Nat) (f : Nat → Nat) :
    (wideFits s o = true → ¬ shapeFits s o.sh (Nat.min (fmtWidth o.ty) (fmtWidth o.ty2)) →
      (s.noted i).convForm p o n f = .error (.code 0x09)) ∧
    (wideFits s o = false → (s.noted i).convForm p o n f = .error (.code 0x08)) := by
  unfold State.convForm wideFits
  simp only [noted_spec]
  rcases Nat.lt_trichotomy (fmtWidth o.ty) (fmtWidth o.ty2) with hlt | heq | hgt
  · simp only [hlt.ne, hlt.not_gt, if_false, decide_false, Bool.false_or, show Nat.min (fmtWidth o.ty) (fmtWidth o.ty2) = fmtWidth o.ty from Nat.min_eq_left hlt.le]
    refine ⟨fun ha h => ?_, fun ha => ?_⟩
    · rw [ha, actives_unfit i h]
      rfl
    · rw [ha]
      rfl
  · simp only [heq, if_true, decide_true, Bool.true_or, show Nat.min (fmtWidth o.ty2) (fmtWidth o.ty2) = fmtWidth o.ty2 from Nat.min_self _]
    exact ⟨fun _ h => each_unfit i h _ _ _ _ _, fun ha => absurd ha.symm Bool.false_ne_true⟩
  · simp only [hgt.ne', hgt, if_false, if_true, decide_false, Bool.false_or, show Nat.min (fmtWidth o.ty) (fmtWidth o.ty2) = fmtWidth o.ty2 from Nat.min_eq_right hgt.le]
    refine ⟨fun ha h => ?_, fun ha => ?_⟩
    · rw [ha, actives_unfit i h]
      rfl
    · rw [ha]
      rfl

/-- The first clause of O14: every form of format FR. -/
theorem shapedFR_refused (s : State) (p : Cl) (o : FR) : ∀ e ∈ shapedFR s p o, s.operandsReady e.1 →
    (e.2.2 = true → ¬ shapeFits s o.sh e.2.1 → exec e.1 s = tileFault s p 0x09) ∧ (e.2.2 = false → exec e.1 s = tileFault s p 0x08) := by
  intro e he hr
  simp only [shapedFR] at he
  rw [List.mem_append, List.mem_append, List.mem_append] at he
  rcases he with ((he | he) | he) | he
  · obtain ⟨i, hi, rfl⟩ := List.mem_map.1 he
    exact ⟨fun _ h => exec_plain_unfit s p o h i hi hr, fun hf => absurd hf.symm Bool.false_ne_true⟩
  · obtain ⟨x, hx, rfl⟩ := List.mem_map.1 he
    obtain ⟨hp, hexec⟩ := exec_conversions s p o x hx
    obtain ⟨h9, h8⟩ := convForm_refused s x.1 p o 3 x.2
    rw [hexec, tileFault, tileFault, ← hp]
    exact ⟨fun ha h => syl_fault s x.1 _ _ hr (h9 ha h), fun ha => syl_fault s x.1 _ _ hr (h8 ha)⟩
  · obtain ⟨x, hx, rfl⟩ := List.mem_map.1 he
    obtain ⟨hp, hexec⟩ := exec_reductions s p o x hx
    refine ⟨fun _ h => ?_, fun hf => absurd hf.symm Bool.false_ne_true⟩
    rw [hexec, reduce_unfit hr h, hp]
  · simp only [List.mem_cons, List.not_mem_nil, or_false] at he
    rcases he with rfl | rfl
    · refine ⟨fun ha h => syl_fault s (.vcbdec p o) _ _ hr ?_, fun ha => syl_fault s (.vcbdec p o) _ _ hr ?_⟩
      · exact (bind_ok (ensure_of_true ha _) _).trans (bind_error (actives_unfit _ h _ _) _)
      · exact bind_error (ensure_of_false ha _) _
    · have hd : decide (s.spec 64 o.d % (if o.ty = 0x10 then 2 else 1) = 0) =
          if o.ty = 0x10 then decide (s.spec 64 o.d % 2 = 0) else true := by
        split
        · rfl
        · exact decide_eq_true (Nat.mod_one _)
      refine ⟨fun ha h => syl_fault s (.vscale p o) _ _ hr ?_, fun ha => syl_fault s (.vscale p o) _ _ hr ?_⟩
      · exact (bind_ok (ensure_of_true (hd.trans ha) _) _).trans (bind_error (actives_unfit _ h _ _) _)
      · exact bind_error (ensure_of_false (hd.trans ha) _) _

/-- Every form of format FI. -/
theorem tilesI_refused (s : State) (p : Cl) (o : FI) (h : ¬ shapeFits s o.sh (fmtWidth o.ty)) :
    ∀ i ∈ .vcmpI p o :: (tilesI p o).map (·.1), s.operandsReady i → exec i s = tileFault s p 0x09 := by
  intro i hi hr
  rcases List.mem_cons.1 hi with rfl | hi
  · exact syl_fault s (.vcmpI p o) _ _ hr (bind_error (actives_unfit _ h _ _) _)
  · obtain ⟨e, he, rfl⟩ := List.mem_map.1 hi
    obtain ⟨hp, f, hx⟩ := exec_tilesI s p o e he
    rw [hx, tileI_unfit hr h, hp]

/-! ### Tile accesses and gathers of a wrong shape (R274-R279) -/

/-- With sound sources a direct access ends as its own effect ends. -/
theorem direct_sound (s : State) (i : Instr) (f : State → Except Halt State) (h : sourcesSound s i) :
    s.direct i f = settle .e s (f (eccNoted s i)) := by
  unfold State.direct State.poisonGate
  rw [if_neg (by rw [h]; exact Bool.false_ne_true)]
  rfl
theorem direct_fault (s : State) (i : Instr) (f : State → Except Halt State) {code : Nat} (h : sourcesSound s i)
    (hf : f (eccNoted s i) = .error (.code code)) : s.direct i f = .next (s.takeFault { slot := .e, code := code }) := by
  rw [direct_sound s i f h, hf]
  rfl

/-- A shape implies an element width only where it counts a whole tile of it. -/
theorem impliedWidth_fits (h : VShape) (w : Nat) (hw : impliedWidth h = some w) : w ∈ [4, 8, 16, 32] ∧ h.ok w = true := by
  unfold impliedWidth at hw
  dsimp only at hw
  split at hw
  · next hn =>
    cases hw
    simp only [VShape.ok, decide_eq_true_eq]
    rcases hn with hn | hn | hn | hn <;> rw [hn] <;> decide
  · cases hw
theorem tileParts_noWidth (s : State) (o : FM) (m : Mods) (ea : Word) (load : Bool) (lat : Nat)
    (h : impliedWidth (vshape (s.readSh o.sh.toNat)) = none) : s.tileParts o m ea load lat = .error (.code 0x09) := by
  simp only [State.tileParts, h]
/-- The parts of a tile access are of its shape. -/
theorem tileParts_shape {s : State} {o : FM} {m : Mods} {ea : Word} {load : Bool} {lat : Nat} {p : TileParts}
    (h : s.tileParts o m ea load lat = .ok p) : p.shape = vshape (s.readSh o.sh.toNat) := by
  unfold State.tileParts at h
  dsimp only at h
  split at h
  · cases h
  · simp only [bind, Except.bind] at h
    repeat' split at h
    all_goals cases h
    all_goals rfl

/-- The checks of SPACE, ORD and alignment that come before the parts of a tile access (R274). -/
theorem directMods_ok {m : Mods} {ord : Nat} (hs : m.space ≤ 2) (ho : m.ord = 0 ∨ m.ord = ord) : directMods m ord = .ok () :=
  ensure_of_true (decide_eq_true ⟨hs, ho⟩) _
theorem alignedTo_ok {a : Word} {n : Nat} (h : a.toNat % n = 0) : alignedTo a n = .ok () := if_pos h

section Access
variable {s : State} {o : FM} {ea : Word} (hea : s.fmAddr o 64 = ea) (hspace : s.eff.space ≤ 2) (hal : ea.toNat % 64 = 0)
include hea hspace hal

/-- A tile load or store whose shape implies no element width. -/
theorem ldT_noWidth (ho : s.eff.ord < 2) (hs : sourcesSound s (.ldT o)) (h : impliedWidth (vshape (s.readSh o.sh.toNat)) = none) :
    exec (.ldT o) s = .next (s.takeFault { slot := .e, code := 0x09 }) := by
  subst hea
  refine direct_fault s (.ldT o) _ hs ?_
  exact (bind_ok (directMods_ok hspace (by omega)) _).trans ((bind_ok (alignedTo_ok hal) _).trans
    (bind_error (tileParts_noWidth s o _ _ _ _ h) _))
theorem stT_noWidth (ho : s.eff.ord = 0 ∨ s.eff.ord = 2) (hs : sourcesSound s (.stT o))
    (h : impliedWidth (vshape (s.readSh o.sh.toNat)) = none) :
    exec (.stT o) s = .next (s.takeFault { slot := .e, code := 0x09 }) := by
  subst hea
  refine direct_fault s (.stT o) _ hs ?_
  exact (bind_ok (directMods_ok hspace ho) _).trans ((bind_ok (alignedTo_ok hal) _).trans
    (bind_error (tileParts_noWidth s o _ _ _ _ h) _))
/-- A tile load whose shape counts another width than that of its part in memory. -/
theorem ldT_unfit (ho : s.eff.ord < 2) (hs : sourcesSound s (.ldT o)) {parts : TileParts} {wm : Nat} {dec : Bool}
    (hp : s.tileParts o s.eff ea true (bound o.lat 16) = .ok parts) (hw : ∀ l ∈ parts.lines, partWidth o l.2.2 = (wm, dec))
    (hl : parts.lines ≠ []) (hty : if dec then o.ty = 0x0F else fmtWidth o.ty = wm)
    (hd : s.spec 64 o.d % (if dec then 16 / wm else 1) = 0) (h : ¬ shapeFits s o.sh wm) :
    exec (.ldT o) s = .next (s.takeFault { slot := .e, code := 0x09 }) := by
  subst hea
  have head : (parts.lines.head?.map fun l => partWidth o l.2.2).getD (fmtWidth o.ty, false) = (wm, dec) := by
    obtain ⟨l, rest, he⟩ := List.exists_cons_of_ne_nil hl
    have := hw l (he ▸ List.mem_cons_self)
    rw [he]
    exact this
  have same : (parts.lines.find? fun l => partWidth o l.2.2 ≠ (wm, dec)) = none := by
    simpa [List.find?_eq_none] using fun a b x hx => hw (a, b, x) hx
  have typed : ¬ ((dec = true ∧ o.ty ≠ 0x0F) ∨ ((!dec) = true ∧ fmtWidth o.ty ≠ wm)) := by
    cases dec <;> simpa using hty
  refine direct_fault s (.ldT o) _ hs ((bind_ok (directMods_ok hspace (by omega)) _).trans ((bind_ok (alignedTo_ok hal) _).trans
    ((bind_ok (a := parts) hp _).trans ?_)))
  simp only [head, same]
  rw [if_neg typed]
  exact (bind_ok (ensure_of_true (decide_eq_true hd) _) _).trans
    (bind_error (ensure_of_false (by rw [tileParts_shape hp]; exact Bool.eq_false_iff.2 h) _) _)
/-- A tile store whose shape counts another width than that of its parts in memory. -/
theorem stT_unfit (ho : s.eff.ord = 0 ∨ s.eff.ord = 2) (hs : sourcesSound s (.stT o)) {parts : TileParts}
    (hp : s.tileParts o s.eff ea false 0 = .ok parts) (hl : parts.lines ≠ [])
    (hf : ∀ l ∈ parts.lines, ∀ f, l.2.2.fmt = some f → fmtWidth (fmtOf f) = fmtWidth o.ty) (h : ¬ shapeFits s o.sh (fmtWidth o.ty)) :
    exec (.stT o) s = .next (s.takeFault { slot := .e, code := 0x09 }) := by
  subst hea
  have same : (parts.lines.find? fun l => !((l.2.2.fmt.map fun f => decide (fmtWidth (fmtOf f) = fmtWidth o.ty)).getD true)) = none := by
    refine List.find?_eq_none.2 fun l hx => ?_
    cases hfmt : l.2.2.fmt with
    | none => simp
    | some f => simp [hf l hx f hfmt]
  refine direct_fault s (.stT o) _ hs ((bind_ok (directMods_ok hspace ho) _).trans ((bind_ok (alignedTo_ok hal) _).trans
    ((bind_ok (a := parts) hp _).trans ?_)))
  dsimp only
  rw [if_neg (by simpa using hl)]
  refine (bind_ok (a := parts.lines) rfl _).trans ?_
  simp only [same]
  exact bind_error (ensure_of_false (by rw [tileParts_shape hp]; exact Bool.eq_false_iff.2 h) _) _
end Access

/-- A gather or scatter whose shape does not count words (R278). -/
theorem indexed_unfit (s : State) (i : Instr) (o : FE) (f : State → Cmd → Cmd) (hi : i.slot = .e) (hr : s.operandsReady i = true)
    (hspace : s.eff.space = 0) (hord : s.eff.ord = 0) (h : ¬ shapeFits s o.sh 32) :
    s.indexed i o f = .next (s.takeFault { slot := .e, code := 0x09 }) := by
  rw [← hi]
  refine syl_fault s i _ _ hr ?_
  exact (bind_ok (ensure_of_true (decide_eq_true ⟨hspace, hord⟩) _) _).trans
    (bind_error (bind_error (ensure_of_false (Bool.eq_false_iff.2 h) _) _) _)

/-- Settles O14: each kind of form makes the check of its shape before anything that could end otherwise. -/
theorem wrongShapeFaults : Obligations.WrongShapeFaults := by
  refine ⟨shapedFR_refused, fun s p o h => tilesI_refused s p o h, fun s o => ?_, fun s o hspace hord h i hi hr => ?_⟩
  · intro m ea hspace hal
    refine ⟨fun i hi ho hs h => ?_, fun parts wm dec ho hs hp hw hl hty hd h => ldT_unfit rfl hspace hal ho hs hp hw hl hty hd h,
      fun parts ho hs hp hl hf h => stT_unfit rfl hspace hal ho hs hp hl hf h⟩
    have hn : impliedWidth (vshape (s.readSh o.sh.toNat)) = none := by
      refine Option.eq_none_iff_forall_ne_some.2 fun w hw => ?_
      obtain ⟨hm, hok⟩ := impliedWidth_fits _ _ hw
      exact h w hm hok
    rcases List.mem_pair.1 hi with rfl | rfl
    · exact ldT_noWidth rfl hspace hal ((if_pos rfl).mp ho) hs hn
    · exact stT_noWidth rfl hspace hal ((if_neg Instr.noConfusion).mp ho) hs hn
  · simp only [List.mem_cons, List.not_mem_nil, or_false] at hi
    rcases hi with rfl | rfl | rfl
    · exact (indexed_unfit s (.ldx o) o _ rfl hr hspace hord h : execLdx o s = _)
    · exact (indexed_unfit s (.stx o) o _ rfl hr hspace hord h : execStx o s = _)
    · exact (indexed_unfit s (.stxAdd o) o _ rfl hr hspace hord h : execStxAdd o s = _)

end Sys2Proof.Claims

namespace Sys2Proof.Claims
open Sys2Proof.Machine

/-! ### Results in a tile (R52, R156) -/

/-- The active elements under a mask and a shape, in order. -/
def activeList (s : State) (p : Cl) (sh msk : BitVec 3) (w : Nat) : List Bool := (List.range (elems w)).map (active s p sh msk)
theorem actives_fit {s : State} {sh : BitVec 3} {w : Nat} (i : Instr) (h : shapeFits s sh w) (p : Cl) (msk : BitVec 3) :
    (s.noted i).actives p sh msk w = .ok (activeList s p sh msk w) :=
  bind_ok (show (s.noted i).shapeFor sh w = .ok _ by rw [shapeFor_noted, if_pos h]) _
/-- Values packed in order, and the elements of a list enabled, hold what was packed where the list says so. -/
theorem holds_pack (w : Nat) (on : Nat → Bool) (f : Nat → Nat) :
    Holds w (packTile w ((List.range (elems w)).map f)) (spread w ((List.range (elems w)).map on)) on f := by
  intro k hk
  have hl : ((List.range (elems w)).map on).length = elems w := by simp
  refine ⟨elem_pack_range w _ f k hk (elems_fit w), ?_⟩
  rw [elem_spread w _ k (by rw [hl]; exact hk) (by rw [hl]; exact elems_fit w)]
  simp
theorem Holds.congr {w : Nat} {val en : Tile} {on on' : Nat → Bool} {f f' : Nat → Nat} (h : Holds w val en on f)
    (ho : ∀ k < 4096 / w, on k = on' k) (hf : ∀ k < 4096 / w, f k = f' k) : Holds w val en on' f' := fun k hk =>
  ho k hk ▸ hf k hk ▸ h k hk
/-- An elementwise form whose shape fits. -/
theorem each_fits {s : State} {sh : BitVec 3} {w : Nat} (i : Instr) (h : shapeFits s sh w) (p : Cl) (msk : BitVec 3)
    (d : BitVec 7) (lat : Nat) (f : Nat → Nat) : (s.noted i).each p sh msk d w lat f =
      .ok ((s.noted i).putV p (s.spec 64 d) (packTile w ((List.range (elems w)).map f)) (spread w (activeList s p sh msk w)) lat) :=
  bind_ok (actives_fit i h p msk) _

/-! ### Conversions (R54, R171, R172, R187) -/

/-- Elements of a wide operand of `k` registers are elements of the narrow one. -/
theorem wide_index_lt {wt wu i j : Nat} (hu : 0 < wu) (hi : i < 4096 / wt) (hj : j < wt / wu) : wt / wu * i + j < 4096 / wu := by
  have h1 : wt / wu * i + j < wt / wu * (4096 / wt) := by
    calc wt / wu * i + j < wt / wu * i + wt / wu := Nat.add_lt_add_left hj _
      _ = wt / wu * (i + 1) := (Nat.mul_succ _ _).symm
      _ ≤ _ := Nat.mul_le_mul_left _ hi
  have h2 : wt / wu * (4096 / wt) * wu ≤ 4096 := by
    calc wt / wu * (4096 / wt) * wu = wt / wu * wu * (4096 / wt) := by ring
      _ ≤ wt * (4096 / wt) := Nat.mul_le_mul_right _ (Nat.div_mul_le_self _ _)
      _ ≤ 4096 := Nat.mul_div_le _ _
  exact lt_of_lt_of_le h1 ((Nat.le_div_iff_mul_le hu).2 h2)
theorem getD_map_range {α : Type} (g : Nat → α) {n m : Nat} (h : m < n) (x : α) : ((List.range n).map g).getD m x = g m := by
  simp [List.getD_eq_getElem?_getD, h]
theorem activeList_getD (s : State) (p : Cl) (sh msk : BitVec 3) {w n : Nat} (h : n < elems w) :
    (activeList s p sh msk w).getD n false = active s p sh msk n := getD_map_range _ h _

/-- A fold over the registers of a wide operand takes those of its own cluster. -/
theorem foldl_wideHere (p : Cl) (pair : Bool) (n : Nat) (g : State → Nat × Nat → State) (s : State) :
    (List.range n).foldl (fun t j => if (wideReg p pair n j).1 ≠ p then t else g t (j, (wideReg p pair n j).2)) s =
      (wideHere p pair n).foldl g s := by
  rw [wideHere, List.foldl_map, List.foldl_filter]
  congr 1
  funext t j
  by_cases h : (wideReg p pair n j).1 = p
  · simp [h]
  · simp [h]

section Conversion
variable {s : State} {p : Cl} {o : FR} (i : Instr) (n : Nat) (f : Nat → Nat)

/-- Register `j` of a widened result: its values and its enable bits. -/
def wideVal (s : State) (p : Cl) (o : FR) (f : Nat → Nat) (j : Nat) : Tile :=
  packTile (fmtWidth o.ty) ((List.range (elems (fmtWidth o.ty))).map fun i =>
    f (elem (fmtWidth o.ty2) (s.readV (shared p o.pair) (s.spec 64 o.a)) (fmtWidth o.ty / fmtWidth o.ty2 * i + j)))
def wideEn (s : State) (p : Cl) (o : FR) (j : Nat) : Tile :=
  spread (fmtWidth o.ty) ((List.range (elems (fmtWidth o.ty))).map fun i =>
    (activeList s (shared p o.pair) o.sh o.msk (fmtWidth o.ty2)).getD (fmtWidth o.ty / fmtWidth o.ty2 * i + j) false)
theorem holds_wide (hu : 0 < fmtWidth o.ty2) {j : Nat} (hj : j < fmtWidth o.ty / fmtWidth o.ty2) :
    Holds (fmtWidth o.ty) (wideVal s p o f j) (wideEn s p o j)
      (fun i => active s (shared p o.pair) o.sh o.msk (fmtWidth o.ty / fmtWidth o.ty2 * i + j)) fun i =>
        f (elem (fmtWidth o.ty2) (s.readV (shared p o.pair) (s.spec 64 o.a)) (fmtWidth o.ty / fmtWidth o.ty2 * i + j)) :=
  (holds_pack _ _ _).congr (fun _ hi => activeList_getD _ _ _ _ (wide_index_lt hu hi hj)) fun _ _ => rfl

theorem convForm_same (he : fmtWidth o.ty = fmtWidth o.ty2) (h : shapeFits s o.sh (fmtWidth o.ty)) : (s.noted i).convForm p o n f =
    .ok ((s.noted i).putV p (s.spec 64 o.d) (packTile (fmtWidth o.ty) ((List.range (elems (fmtWidth o.ty))).map fun k =>
      f (elem (fmtWidth o.ty2) (s.readV p (s.spec 64 o.a)) k))) (spread (fmtWidth o.ty) (activeList s p o.sh o.msk (fmtWidth o.ty)))
      (bound o.lat n)) :=
  (if_pos he).trans (each_fits i h _ _ _ _ _)
theorem convForm_widens (hlt : fmtWidth o.ty2 < fmtWidth o.ty) (h : shapeFits s o.sh (fmtWidth o.ty2))
    (ha : wideAligned o.pair (fmtWidth o.ty / fmtWidth o.ty2) (s.spec 64 o.d) = true) : (s.noted i).convForm p o n f =
    .ok ((wideHere p o.pair (fmtWidth o.ty / fmtWidth o.ty2)).foldl
      (fun t r => t.putV p (s.spec 64 o.d + r.2) (wideVal s p o f r.1) (wideEn s p o r.1) (bound o.lat n)) (s.noted i)) := by
  rw [← foldl_wideHere]
  refine (if_neg hlt.ne').trans ((if_pos hlt).trans ((bind_ok (ensure_of_true ha _) _).trans ((bind_ok (actives_fit i h _ _) _).trans ?_)))
  rfl
theorem convForm_narrows (hlt : fmtWidth o.ty < fmtWidth o.ty2) (h : shapeFits s o.sh (fmtWidth o.ty))
    (ha : wideAligned o.pair (fmtWidth o.ty2 / fmtWidth o.ty) (s.spec 64 o.a) = true) : (s.noted i).convForm p o n f =
    if p ≠ shared p o.pair then .ok (s.noted i) else
    .ok ((s.noted i).putV p (s.spec 64 o.d) (packTile (fmtWidth o.ty) ((List.range (elems (fmtWidth o.ty))).map fun i =>
      f (elem (fmtWidth o.ty2) (((List.range (fmtWidth o.ty2 / fmtWidth o.ty)).map fun j =>
        s.readV (wideReg p o.pair (fmtWidth o.ty2 / fmtWidth o.ty) j).1
          (s.spec 64 o.a + (wideReg p o.pair (fmtWidth o.ty2 / fmtWidth o.ty) j).2)).getD (i % (fmtWidth o.ty2 / fmtWidth o.ty)) 0)
        (i / (fmtWidth o.ty2 / fmtWidth o.ty)))))
      (spread (fmtWidth o.ty) (activeList s (shared p o.pair) o.sh o.msk (fmtWidth o.ty))) (bound o.lat n)) := by
  refine (if_neg hlt.ne).trans ((if_neg hlt.not_gt).trans ((bind_ok (ensure_of_true ha _) _).trans ((bind_ok (actives_fit i h _ _) _).trans ?_)))
  rfl
end Conversion

/-- Settles O9: a conversion has three branches by its two widths, and each packs the elements that the claim names. -/
theorem conversionsHold : Obligations.Conversions := by
  intro s p o e he wt wu c d a lat hr
  obtain ⟨-, hx⟩ := exec_conversions s p o e he
  have run : ∀ {t}, (s.noted e.1).convForm p o 3 e.2 = .ok t → exec e.1 s = .next t := fun h => hx.trans (syl_ok s e.1 _ hr h)
  refine ⟨fun heq h => ?_, fun hu hlt h ha => ?_, fun ht hlt h ha hp => ?_, fun hlt h ha hp => ?_⟩
  · exact ⟨_, _, holds_pack wt _ _, run (convForm_same e.1 3 e.2 heq h)⟩
  · exact ⟨wideVal s p o e.2, wideEn s p o, fun j hj => holds_wide e.2 hu hj, run (convForm_widens e.1 3 e.2 hlt h ha)⟩
  · have hs : ¬ p ≠ shared p o.pair := fun hn => hn hp
    have hact : activeList s (shared p o.pair) o.sh o.msk wt = activeList s p o.sh o.msk wt := by
      rw [show shared p o.pair = p from hp.symm]
    refine ⟨_, _, (holds_pack wt _ _).congr (fun _ _ => rfl) fun k hk => ?_,
      run ((convForm_narrows e.1 3 e.2 hlt h ha).trans ((if_neg hs).trans (by rw [hact]; rfl)))⟩
    have hm : k % (wu / wt) < wu / wt := Nat.mod_lt _ (Nat.div_pos hlt.le ht)
    exact congrArg (fun t => e.2 (elem wu t (k / (wu / wt)))) (getD_map_range _ hm _)
  · exact run ((convForm_narrows e.1 3 e.2 hlt h ha).trans (if_pos hp))

end Sys2Proof.Claims

namespace Sys2Proof.Machine

/-! ### Writing an entry twice -/

section Table
variable {α : Type} (d : α)

theorem tput_tput (t : Tbl α) (k : Nat) (v w : α) : tput (tput t k v) k w = tput t k w := by
  induction t with
  | nil => simp [tput]
  | cons e t ih =>
    obtain ⟨i, x⟩ := e
    simp only [tput]
    split_ifs with h1 h2
    · simp [tput]
    · simp [tput]
    · simp [tput, h1, h2, ih]
theorem filter_tput (t : Tbl α) (k : Nat) (v : α) : (tput t k v).filter (fun e => e.1 ≠ k) = t.filter fun e => e.1 ≠ k := by
  induction t with
  | nil => simp [tput]
  | cons e t ih =>
    obtain ⟨i, x⟩ := e
    simp only [tput]
    split_ifs with h1 h2
    · simp
    · simp [h2]
    · simp only [List.filter_cons, ih]
variable [DecidableEq α]
/-- Only the second of two writes of an entry is seen, where the first lists one. -/
theorem tset_tset (t : Tbl α) (k : Nat) (v w : α) (hv : v ≠ d) : tset d (tset d t k v) k w = tset d t k w := by
  unfold tset
  rw [if_neg hv]
  split
  · exact filter_tput t k v
  · exact tput_tput t k v w
end Table

theorem setCtx_setCtx (s : State) (g : Nat) (c c' : Ctx) (hc : c.inflight ≠ []) : (s.setCtx g c).setCtx g c' = s.setCtx g c' := by
  have hne : c ≠ {} := fun h => hc (by rw [h])
  simp only [State.setCtx, tset_tset _ _ _ _ _ hne]

/-! ### A result takes its value and lands (R104, R304) -/

theorem takeLate_of_settled {e : InFlight} (h : e.late = none) (s : State) (g : Nat) : e.takeLate s g = e := by
  simp only [InFlight.takeLate, h]
/-- Taking its value changes a result's value, and it is settled. -/
theorem takeLate_eq (e : InFlight) (s : State) (g : Nat) : ∃ v, e.takeLate s g = { e with val := v, late := none } := by
  unfold InFlight.takeLate
  split
  · next h => exact ⟨e.val, by rw [← h]⟩
  · dsimp only
    split
    · exact ⟨_, rfl⟩
    · exact ⟨e.val, rfl⟩
/-- A result of one element from bit 0 on keeps its value, or takes the element's as memory holds it. -/
theorem takeLate_single {e : InFlight} {x : LateElem} {k : Nat} (h : e.late = some { cls := k, elems := [x] }) (hlo : x.lo = 0)
    (hwd : x.wd ≤ 4096) (s : State) (g : Nat) : (e.takeLate s g).val = e.val ∨
      ∀ i < x.wd, (e.takeLate s g).val.getLsbD i = (x.value s (quadOf g)).testBit i := by
  simp only [InFlight.takeLate, h]
  split
  · refine .inr fun i hi => ?_
    have h4096 : i < 4096 := by omega
    simp only [List.foldl_cons, List.foldl_nil, hlo, BitVec.shiftLeft_zero, BitVec.getLsbD_or, BitVec.getLsbD_and, BitVec.getLsbD_not,
      BitVec.getLsbD_ofNat, Nat.testBit_two_pow_sub_one, Nat.testBit_mod_two_pow, h4096, hi, decide_true, Bool.true_and, Bool.not_true,
      Bool.and_false, Bool.false_or]
  · exact .inl rfl

theorem boundTo_congr {c d : Ctx} (h : d.st = c.st) (r : RegId) : d.boundTo r = c.boundTo r := by
  unfold Ctx.boundTo Ctx.stream
  rw [h]
/-- A result of a register without a stream writes its bits. -/
theorem landOne_eq {c : Ctx} {e : InFlight} (free : Tile) (hdead : e.dead = false) (hm : e.mixed = false) (hb : c.boundTo e.reg = none) :
    c.landOne free e = c.write e.reg e.val e.en := by
  have hw : (c.write e.reg e.val e.en).boundTo e.reg = none := (boundTo_congr (write_st _ _ _ _) _).trans hb
  unfold Ctx.landOne
  rw [hdead, hm]
  dsimp only
  simp only [Bool.false_eq_true, if_false, hw]
/-- The one result in flight, its bound passed, lands. -/
theorem land_single {c : Ctx} {e : InFlight} {t : Nat} (free : Nat) (hc : c.inflight = [e]) (hd : e.due ≤ t) (hdead : e.dead = false)
    (hm : e.mixed = false) (hb : c.boundTo e.reg = none) : c.land free t = ({ c with inflight := [] } : Ctx).write e.reg e.val e.en := by
  have hlater : c.inflight.filter (fun e => decide (t < e.due)) = [] := by simp [hc, hd]
  have hdue : c.inflight.filter (fun e => decide (e.due ≤ t)) = [e] := by simp [hc, hd]
  rw [Ctx.land, hlater, hdue]
  exact landOne_eq _ hdead hm ((boundTo_congr rfl _).trans hb)

theorem exec_registerResultLanding_single {s : State} {g : Nat} {e : InFlight} (hc : (s.ctx g).inflight = [e]) (hd : e.due ≤ s.tick)
    (hdead : e.dead = false) (hm : e.mixed = false) (hb : (s.ctx g).boundTo e.reg = none) : exec (.registerResultLanding g) s =
      .next (s.setCtx g (({ s.ctx g with inflight := [] } : Ctx).write e.reg (e.takeLate s g).val e.en)) := by
  obtain ⟨v, hv⟩ := takeLate_eq e s g
  have hdue : ((s.ctx g).inflight.any fun e => decide (e.due ≤ s.tick)) = true := by simp [hc, hd]
  have htake : (s.takeLoads g fun e => decide (e.due ≤ s.tick)) = s.setCtx g { s.ctx g with inflight := [{ e with val := v, late := none }] } := by
    simp only [State.takeLoads, State.modCtx, hc, List.map_cons, List.map_nil, hd, decide_true, if_true, hv]
  refine (event_pos hdue).trans ?_
  rw [htake, State.modCtx, ctx_setCtx_self, setCtx_setCtx _ _ _ _ (List.cons_ne_nil _ _), hv]
  exact congrArg (fun c => Host.Outcome.next (s.setCtx g c)) (land_single (c := { s.ctx g with inflight := [{ e with val := v, late := none }] })
    s.fresh rfl hd hdead hm hb)

/-! ### What a landing result writes (R48, R51, R60) -/

/-- The context whose write of every bit of a register has replaced an uncorrectable word (R405). -/
def Ctx.refreshed (c : Ctx) (r : RegId) (en : Tile) : Ctx :=
  if en.setWidth r.file.width = BitVec.allOnes r.file.width
    then { c with poison := c.poison.filter (· ≠ r), soft := c.soft.filter (· ≠ r) } else c
@[simp] theorem refreshed_sreg (c : Ctx) (r : RegId) (en : Tile) : (c.refreshed r en).sreg = c.sreg := by unfold Ctx.refreshed; split <;> rfl
@[simp] theorem refreshed_xreg (c : Ctx) (r : RegId) (en : Tile) : (c.refreshed r en).xreg = c.xreg := by unfold Ctx.refreshed; split <;> rfl
@[simp] theorem refreshed_va (c : Ctx) (r : RegId) (en : Tile) : (c.refreshed r en).va = c.va := by unfold Ctx.refreshed; split <;> rfl
@[simp] theorem refreshed_vb (c : Ctx) (r : RegId) (en : Tile) : (c.refreshed r en).vb = c.vb := by unfold Ctx.refreshed; split <;> rfl
@[simp] theorem refreshed_ma (c : Ctx) (r : RegId) (en : Tile) : (c.refreshed r en).ma = c.ma := by unfold Ctx.refreshed; split <;> rfl
@[simp] theorem refreshed_mb (c : Ctx) (r : RegId) (en : Tile) : (c.refreshed r en).mb = c.mb := by unfold Ctx.refreshed; split <;> rfl
@[simp] theorem refreshed_sh (c : Ctx) (r : RegId) (en : Tile) : (c.refreshed r en).sh = c.sh := by unfold Ctx.refreshed; split <;> rfl
@[simp] theorem refreshed_tk (c : Ctx) (r : RegId) (en : Tile) : (c.refreshed r en).tk = c.tk := by unfold Ctx.refreshed; split <;> rfl
@[simp] theorem refreshed_memdef (c : Ctx) (r : RegId) (en : Tile) : (c.refreshed r en).memdef = c.memdef := by unfold Ctx.refreshed; split <;> rfl
@[simp] theorem refreshed_evcfg (c : Ctx) (r : RegId) (en : Tile) : (c.refreshed r en).evcfg = c.evcfg := by unfold Ctx.refreshed; split <;> rfl
@[simp] theorem refreshed_ovf (c : Ctx) (r : RegId) (en : Tile) : (c.refreshed r en).ovf = c.ovf := by unfold Ctx.refreshed; split <;> rfl
@[simp] theorem refreshed_lp0 (c : Ctx) (r : RegId) (en : Tile) : (c.refreshed r en).lp0 = c.lp0 := by unfold Ctx.refreshed; split <;> rfl
@[simp] theorem refreshed_lp1 (c : Ctx) (r : RegId) (en : Tile) : (c.refreshed r en).lp1 = c.lp1 := by unfold Ctx.refreshed; split <;> rfl

/-- The old bits where `e` is 0 and the new ones where it is 1. -/
def merged (v e : Tile) {w : Nat} (old : BitVec w) : BitVec w := (old &&& ~~~(e.setWidth w)) ||| (v.setWidth w &&& e.setWidth w)
theorem merged_tile (v e old : Tile) : merged v e old = (old &&& ~~~e) ||| (v &&& e) := by simp [merged]

section Write
variable (c : Ctx) (r : RegId) (n : Nat) (v e : Tile)

theorem write_discards (h : r.discards = true) : c.write r v e = c.refreshed r e := if_pos h
/-- A scalar or a mask register other than the first takes the enabled bits. -/
theorem write_s : (c.write ⟨.s, n⟩ v e).sreg = if n = 0 then c.sreg else tset 0 c.sreg n (merged v e (tget 0 c.sreg n)) := by
  rw [← refreshed_sreg c ⟨.s, n⟩ e]
  cases n with
  | zero => rw [write_discards _ _ _ _ rfl, if_pos rfl]
  | succ n => rfl
theorem write_maskA : (c.write ⟨.ma, n⟩ v e).ma = if n = 0 then c.ma else tset 0 c.ma n (merged v e (tget 0 c.ma n)) := by
  rw [← refreshed_ma c ⟨.ma, n⟩ e]
  cases n with
  | zero => rw [write_discards _ _ _ _ rfl, if_pos rfl]
  | succ n => rfl
theorem write_maskB : (c.write ⟨.mb, n⟩ v e).mb = if n = 0 then c.mb else tset 0 c.mb n (merged v e (tget 0 c.mb n)) := by
  rw [← refreshed_mb c ⟨.mb, n⟩ e]
  cases n with
  | zero => rw [write_discards _ _ _ _ rfl, if_pos rfl]
  | succ n => rfl
/-- A register of another file takes them always. -/
theorem write_x : (c.write ⟨.x, n⟩ v e).xreg = tset 0 c.xreg n (merged v e (tget 0 c.xreg n)) := by
  rw [← refreshed_xreg c ⟨.x, n⟩ e]
  rfl
theorem write_tileA : (c.write ⟨.va, n⟩ v e).va = tset 0 c.va n (merged v e (tget 0 c.va n)) := by
  rw [← refreshed_va c ⟨.va, n⟩ e]
  rfl
theorem write_tileB : (c.write ⟨.vb, n⟩ v e).vb = tset 0 c.vb n (merged v e (tget 0 c.vb n)) := by
  rw [← refreshed_vb c ⟨.vb, n⟩ e]
  rfl
theorem write_shape : (c.write ⟨.sh, n⟩ v e).sh = tset resetShape c.sh n (merged v e (tget resetShape c.sh n)) := by
  rw [← refreshed_sh c ⟨.sh, n⟩ e]
  rfl
theorem write_token : (c.write ⟨.tk, n⟩ v e).tk = tset {} c.tk n { st := if v = 0 then .done else .doneErr } := by
  rw [← refreshed_tk c ⟨.tk, n⟩ e]
  rfl
/-- A control register keeps the bits that it has (R61, R64, R69). -/
theorem write_memdef : (c.write ⟨.cr, 0⟩ v e).memdef = v.setWidth 64 &&& 0x3FFF := rfl
theorem write_evqcfg : (c.write ⟨.cr, 5⟩ v e).evcfg = (v.setWidth 64).toNat % 16 ∧
    (c.write ⟨.cr, 5⟩ v e).ovf = (c.ovf && !(v.setWidth 64).getLsbD 15) := by
  rw [← refreshed_ovf c ⟨.cr, 5⟩ e]
  exact ⟨rfl, rfl⟩
theorem write_loops : (c.write ⟨.cr, 9⟩ v e).lp0 = v.setWidth 64 ∧ (c.write ⟨.cr, 10⟩ v e).lp1 = v.setWidth 64 := ⟨rfl, rfl⟩

/-- MEMDEF, EVQCFG and the loop registers. -/
def Ctx.ctl (c : Ctx) : Word × Nat × Bool × Word × Word := (c.memdef, c.evcfg, c.ovf, c.lp0, c.lp1)
theorem refreshed_ctl : (c.refreshed r e).ctl = c.ctl := by simp [Ctx.ctl]
/-- A write changes the control register that it names alone. -/
theorem write_ctl : (c.write r v e).ctl = c.ctl ∨
    (r = ⟨.cr, 0⟩ ∧ ∃ x, (c.write r v e).ctl = (x, c.ctl.2)) ∨
    (r = ⟨.cr, 5⟩ ∧ ∃ x y, (c.write r v e).ctl = (c.memdef, x, y, c.lp0, c.lp1)) ∨
    (r = ⟨.cr, 9⟩ ∧ ∃ x, (c.write r v e).ctl = (c.memdef, c.evcfg, c.ovf, x, c.lp1)) ∨
    (r = ⟨.cr, 10⟩ ∧ ∃ x, (c.write r v e).ctl = (c.memdef, c.evcfg, c.ovf, c.lp0, x)) := by
  by_cases hd : r.discards = true
  · exact .inl (by rw [write_discards _ _ _ _ hd, refreshed_ctl])
  rw [← refreshed_memdef c r e, ← refreshed_evcfg c r e, ← refreshed_ovf c r e, ← refreshed_lp0 c r e, ← refreshed_lp1 c r e, ← refreshed_ctl c r e]
  have hw : c.write r v e = _ := if_neg hd
  rw [hw]
  obtain ⟨file, k⟩ := r
  cases file with
  | cr =>
    dsimp only
    split
    · exact .inr (.inl ⟨rfl, _, rfl⟩)
    · exact .inr (.inr (.inl ⟨rfl, _, _, rfl⟩))
    · exact .inr (.inr (.inr (.inl ⟨rfl, _, rfl⟩)))
    · exact .inr (.inr (.inr (.inr ⟨rfl, _, rfl⟩)))
    · exact .inl rfl
  | _ => exact .inl rfl
theorem write_memdef_ne (h : r ≠ ⟨.cr, 0⟩) : (c.write r v e).memdef = c.memdef := by
  rcases write_ctl c r v e with h' | ⟨hr, -⟩ | ⟨-, _, _, h'⟩ | ⟨-, _, h'⟩ | ⟨-, _, h'⟩
  case inr.inl => exact absurd hr h
  all_goals exact (congrArg Prod.fst h' :)
theorem write_evqcfg_ne (h : r ≠ ⟨.cr, 5⟩) : (c.write r v e).evcfg = c.evcfg ∧ (c.write r v e).ovf = c.ovf := by
  rcases write_ctl c r v e with h' | ⟨-, _, h'⟩ | ⟨hr, -⟩ | ⟨-, _, h'⟩ | ⟨-, _, h'⟩
  case inr.inr.inl => exact absurd hr h
  all_goals exact ⟨(congrArg (·.2.1) h' :), (congrArg (·.2.2.1) h' :)⟩
theorem write_lp0_ne (h : r ≠ ⟨.cr, 9⟩) : (c.write r v e).lp0 = c.lp0 := by
  rcases write_ctl c r v e with h' | ⟨-, _, h'⟩ | ⟨-, _, _, h'⟩ | ⟨hr, -⟩ | ⟨-, _, h'⟩
  case inr.inr.inr.inl => exact absurd hr h
  all_goals exact (congrArg (·.2.2.2.1) h' :)
theorem write_lp1_ne (h : r ≠ ⟨.cr, 10⟩) : (c.write r v e).lp1 = c.lp1 := by
  rcases write_ctl c r v e with h' | ⟨-, _, h'⟩ | ⟨-, _, _, h'⟩ | ⟨-, _, h'⟩ | ⟨hr, -⟩
  case inr.inr.inr.inr => exact absurd hr h
  all_goals exact (congrArg (·.2.2.2.2) h' :)
end Write

end Sys2Proof.Machine

namespace Sys2Proof.Claims
open Sys2Proof.Machine

/-- Settles O39: one result in flight lands as a write, and a write of each file is its table's entry. -/
theorem resultsLand : Obligations.ResultsLand := by
  refine ⟨fun s p => ⟨rfl, rfl⟩, fun s g e hc hd hdead hm hb => ?_, fun c n v e => ?_, fun c v e => ?_, fun c r v e => ?_⟩
  · exact ⟨exec_registerResultLanding_single hc hd hdead hm hb, fun h => takeLate_of_settled h s g,
      fun x k h hlo hwd => takeLate_single h hlo hwd s g⟩
  · have htk := write_token c n v e
    refine ⟨write_s c n v e, write_x c n v e, ?_, ?_, write_maskA c n v e, write_maskB c n v e, write_shape c n v e, ?_, fun m hm => ?_⟩
    · rw [write_tileA, merged_tile]
    · rw [write_tileB, merged_tile]
    · rw [Ctx.token, htk, tget_tset_self]
    · rw [Ctx.token, htk, tget_tset_ne _ _ _ _ _ hm]
      rfl
  · obtain ⟨hcfg, hovf⟩ := write_evqcfg c v e
    obtain ⟨h9, h10⟩ := write_loops c v e
    refine ⟨write_memdef c v e, hcfg, ?_, h9, h10⟩
    show (c.write ⟨.cr, 5⟩ v e).ovf = true ↔ _
    rw [hovf, Bool.and_eq_true, Bool.not_eq_true']
  · exact ⟨write_pc c r v e, write_state c r v e, write_inflight c r v e, write_evq c r v e, write_faultpt c r v e, write_faultpc c r v e,
      write_st c r v e, write_sreg c r v e, write_xreg c r v e, write_va c r v e, write_vb c r v e, write_ma c r v e, write_mb c r v e,
      write_sh c r v e, write_tk c r v e, write_memdef_ne c r v e, write_evqcfg_ne c r v e, write_lp0_ne c r v e, write_lp1_ne c r v e⟩

end Sys2Proof.Claims

namespace Sys2Proof.Machine

/-! ### The sequential advance (R69, R143) -/

/-- The fields of a loop register. -/
theorem lp_fields {n s e : Nat} (hn : n < 2 ^ 24) (hs : s < 2 ^ 20) (he : e < 2 ^ 20) :
    let v := (BitVec.ofNat 64 (n + s * 2 ^ 24 + e * 2 ^ 44)).toNat
    bits v 23 0 = n ∧ bits v 43 24 = s ∧ bits v 63 44 = e := by
  simp only [bits, BitVec.toNat_ofNat, Nat.shiftRight_eq_div_pow]
  omega
theorem lpWord_of_lt {n s e : Nat} (hn : n < 2 ^ 24) (hs : s < 2 ^ 20) (he : e < 2 ^ 20) :
    lpWord n s e = BitVec.ofNat 64 (n + s * 2 ^ 24 + e * 2 ^ 44) := by
  rw [lpWord, Nat.mod_eq_of_lt hn, Nat.mod_eq_of_lt hs, Nat.mod_eq_of_lt he]

section Loop
variable {w : Word} {n s e nx : Nat} (hn : n < 2 ^ 24) (hs : s < 2 ^ 20) (he : e < 2 ^ 20)
  (hw : w = BitVec.ofNat 64 (n + s * 2 ^ 24 + e * 2 ^ 44))
include hn hs he hw
/-- A loop register at its end loops back while its count is above 1, ends at a count of 1, and else stays. -/
theorem loopCheck_back (h : e = nx) (h1 : 1 < n) :
    loopCheck w nx = some (BitVec.ofNat 64 (n - 1 + s * 2 ^ 24 + e * 2 ^ 44), true) := by
  obtain ⟨f1, f2, f3⟩ := lp_fields hn hs he
  rw [← lpWord_of_lt (by omega) hs he]
  simp only [loopCheck, hw, f1, f2, f3]
  rw [if_pos ⟨h.symm, h1⟩]
theorem loopCheck_last (h : e = nx) (h1 : n = 1) :
    loopCheck w nx = some (BitVec.ofNat 64 (n - 1 + s * 2 ^ 24 + e * 2 ^ 44), false) := by
  obtain ⟨f1, f2, f3⟩ := lp_fields hn hs he
  rw [← lpWord_of_lt (by omega) hs he]
  simp only [loopCheck, hw, f1, f2, f3]
  rw [if_neg (by omega), if_pos ⟨h.symm, h1⟩, h1]
theorem loopCheck_out (h : ¬ (e = nx ∧ 1 ≤ n)) : loopCheck w nx = none := by
  obtain ⟨f1, f2, f3⟩ := lp_fields hn hs he
  simp only [loopCheck, hw, f1, f2, f3]
  rw [if_neg (by omega), if_neg (by omega)]
end Loop

/-- What LP1 leaves of an advance that it does not take: its own word, and then LP0's turn. -/
theorem advance_of_lp1_back {c : Ctx} {nx : Nat} {v : Word} (h : loopCheck c.lp1 nx = some (v, true)) :
    c.advance nx = { c with lp1 := v, pc := bits v.toNat 43 24 } := by
  simp only [Ctx.advance, h]
/-- The turn of LP0. -/
def Ctx.advance0 (c : Ctx) (nx : Nat) : Ctx :=
  match loopCheck c.lp0 nx with
  | some (v, true) => { c with lp0 := v, pc := bits v.toNat 43 24 }
  | some (v, false) => { c with lp0 := v, pc := nx }
  | none => { c with pc := nx }
theorem advance_of_lp1_last {c : Ctx} {nx : Nat} {v : Word} (h : loopCheck c.lp1 nx = some (v, false)) :
    c.advance nx = Ctx.advance0 { c with lp1 := v } nx := by
  simp only [Ctx.advance, h]
  rfl
theorem advance_of_lp1_out {c : Ctx} {nx : Nat} (h : loopCheck c.lp1 nx = none) : c.advance nx = c.advance0 nx := by
  simp only [Ctx.advance, h]
  rfl
section LP0
variable {c : Ctx} {nx : Nat} {v : Word}
theorem advance0_of_back (h : loopCheck c.lp0 nx = some (v, true)) : c.advance0 nx = { c with lp0 := v, pc := bits v.toNat 43 24 } := by
  rw [Ctx.advance0, h]
theorem advance0_of_last (h : loopCheck c.lp0 nx = some (v, false)) : c.advance0 nx = { c with lp0 := v, pc := nx } := by
  rw [Ctx.advance0, h]
theorem advance0_of_out (h : loopCheck c.lp0 nx = none) : c.advance0 nx = { c with pc := nx } := by
  rw [Ctx.advance0, h]
end LP0
/-- An advance moves the counter and the loop registers alone. -/
theorem advance0_frame (c : Ctx) (nx : Nat) : ∃ pc lp0, c.advance0 nx = { c with pc := pc, lp0 := lp0 } := by
  unfold Ctx.advance0
  split
  · exact ⟨_, _, rfl⟩
  · exact ⟨_, _, rfl⟩
  · exact ⟨_, c.lp0, rfl⟩
theorem advance_frame (c : Ctx) (nx : Nat) : ∃ pc lp0 lp1, c.advance nx = { c with pc := pc, lp0 := lp0, lp1 := lp1 } := by
  rcases h : loopCheck c.lp1 nx with _ | ⟨v, _ | _⟩
  · obtain ⟨pc, lp0, h0⟩ := advance0_frame c nx
    exact ⟨pc, lp0, c.lp1, by rw [advance_of_lp1_out h, h0]⟩
  · obtain ⟨pc, lp0, h0⟩ := advance0_frame { c with lp1 := v } nx
    exact ⟨pc, lp0, v, by rw [advance_of_lp1_last h, h0]⟩
  · exact ⟨_, c.lp0, _, advance_of_lp1_back h⟩

/-! ### What counting and telling leaves (R112, R248, R324) -/

/-- A context without its records and counters: what telling it of corrected words leaves. -/
def Ctx.offRecords (c : Ctx) : Ctx := { c with evq := [], ovf := false, ctr := [] }
theorem post_offRecords (c : Ctx) (r : EvRec) : (c.post r).offRecords = c.offRecords := by
  unfold Ctx.post
  split <;> rfl
/-- A state without its contexts and functions. -/
def State.offCount (s : State) : State := { s with ctxs := [], vfs := [] }

/-- One corrected word is counted, and told to a subscriber. -/
def State.countOne (s : State) : State :=
  let s := s.vfSat s.me.vfid 0x10 0 1
  if bit s.me.evcfg 3 then s.modCtx s.cur fun c => c.post { kind := 6, time := s.tick } else s
theorem countOne_offCount (s : State) : s.countOne.offCount = s.offCount := by
  unfold State.countOne
  dsimp only
  split <;> rfl
theorem countOne_me (s : State) : (s.countOne.ctx s.cur).offRecords = (s.ctx s.cur).offRecords := by
  unfold State.countOne
  dsimp only
  split
  · exact (congrArg Ctx.offRecords (ctx_modCtx_self _ _ _)).trans (post_offRecords _ _)
  · rfl
theorem countOne_ctx_ne (s : State) {g : Nat} (h : g ≠ s.cur) : s.countOne.ctx g = s.ctx g := by
  unfold State.countOne
  dsimp only
  split
  · exact ctx_modCtx_ne _ _ _ _ h
  · rfl
theorem countEcc_spec (s : State) (n : Nat) : (s.countEcc n).offCount = s.offCount ∧
    ((s.countEcc n).ctx s.cur).offRecords = (s.ctx s.cur).offRecords ∧ ∀ g, g ≠ s.cur → (s.countEcc n).ctx g = s.ctx g := by
  refine foldl_keeps (fun u : State => u.offCount = s.offCount ∧ (u.ctx s.cur).offRecords = (s.ctx s.cur).offRecords ∧
    ∀ g, g ≠ s.cur → u.ctx g = s.ctx g) _ (fun u _ ⟨h1, h2, h3⟩ => ?_) _ s ⟨rfl, rfl, fun _ _ => rfl⟩
  have hc : u.cur = s.cur := (congrArg State.cur h1 :)
  refine ⟨(countOne_offCount u).trans h1, ?_, fun g hg => (countOne_ctx_ne u (hc ▸ hg)).trans (h3 g hg)⟩
  have := countOne_me u
  rw [hc] at this
  exact this.trans h2

/-! ### What a committing bundle leaves (R105) -/

/-- What a context's registers hold, its program counter and its state. -/
def Ctx.bank (c : Ctx) : Ctx :=
  { sreg := c.sreg, xreg := c.xreg, va := c.va, vb := c.vb, ma := c.ma, mb := c.mb, sh := c.sh, tk := c.tk, memdef := c.memdef,
    pc := c.pc, lp0 := c.lp0, lp1 := c.lp1, state := c.state }
theorem bank_of_offRecords {c d : Ctx} (h : c.offRecords = d.offRecords) : c.bank = d.bank := (congrArg Ctx.bank h :)
theorem consume_bank (c : Ctx) (l : List Nat) : (c.consume l).bank = c.bank := foldl_same Ctx.bank _ (fun _ _ => by rfl) _ _
theorem flown_bank (l : List InFlight) (c : Ctx) : (l.foldl Ctx.fly c).bank = c.bank := foldl_same Ctx.bank _ (fun _ _ => by rfl) _ _


/-- The context of the bundle in `t` with its program counter and loop registers moved (R142, R143). -/
def State.advanced (t : State) : Ctx :=
  match t.issue.next with
  | some n => { t.me with pc := n }
  | none => t.me.advance (t.me.pc + t.bundleSize)
/-- Its results are in flight, and its tiles consumed (R104, R329). -/
def State.launched (t : State) : Ctx := (t.issue.results.foldl Ctx.fly t.advanced).consume t.issue.consumed
/-- The context that has committed. -/
def State.committed (t : State) : Ctx :=
  let ctr := ctrWrap t.launched.ctr 0x20 0 1
  { t.launched with
    state := if t.launched.state = 0 then 0 else 1, wait := 0, ctr := if t.issue.literal then ctrWrap ctr 0x22 0 1 else ctr }
/-- The quad's run is over where the bundle holds a `crel`. -/
def State.leaseEnded (t : State) : State :=
  if t.issue.crel then t.modQuad (quadOf t.cur) fun q => { q with lease := { q.lease with ended := true } } else t
/-- The corrected words of the bundle in `t`. -/
def State.softMet (t : State) : Nat := t.issue.ecc.eraseDups.length + (t.core' (coreOf t.cur)).softCode t.me.pc
/-- The bundle loops back to where none starts. -/
def State.lostLoop (t : State) : Bool :=
  (t.issue.next.isNone && t.me.loopsBack (t.me.pc + t.bundleSize)) &&
    !((t.image t.cur).map fun i => i.startsAt t.advanced.pc).getD false
theorem commit_lost (s t : State) (h : t.lostLoop = true) :
    s.commit t = (s.countEcc t.softMet).takeFault { slot := .c, code := 0x03 } := if_pos h
/-- The core notes who issued last, and when (R35, R402). -/
def Core.issuedBy (x : Core) (g tick : Nat) : Core :=
  { x with k := g % 4, issuedAt := some tick, ctr := if x.k = g % 4 ∨ x.issuedAt.isNone then x.ctr else ctrWrap x.ctr 0x25 0 1 }
/-- The state once the bundle's words are counted. -/
def State.counted (t : State) : State := (t.leaseEnded.setCtx t.cur t.committed).countEcc
  (t.issue.ecc.eraseDups.length + (t.leaseEnded.core' (coreOf t.cur)).softCode (t.leaseEnded.ctx t.cur).pc)
theorem commit_sound (s t : State) (h : t.lostLoop = false) :
    s.commit t = t.counted.modCore (coreOf t.cur) (Core.issuedBy · t.cur t.counted.tick) :=
  if_neg (show ¬ t.lostLoop = true by rw [h]; exact Bool.false_ne_true)

theorem advanced_of_next {t : State} {n : Nat} (h : t.issue.next = some n) : t.advanced = { t.me with pc := n } := by
  rw [State.advanced, h]
theorem advanced_of_none {t : State} (h : t.issue.next = none) : t.advanced = t.me.advance (t.me.pc + t.bundleSize) := by
  rw [State.advanced, h]
theorem advanced_frame (t : State) : ∃ pc lp0 lp1, t.advanced = { t.me with pc := pc, lp0 := lp0, lp1 := lp1 } := by
  cases h : t.issue.next with
  | some n => exact ⟨n, t.me.lp0, t.me.lp1, advanced_of_next h⟩
  | none =>
    obtain ⟨pc, lp0, lp1, ha⟩ := advance_frame t.me (t.me.pc + t.bundleSize)
    exact ⟨pc, lp0, lp1, (advanced_of_none h).trans ha⟩
/-- Of what the registers hold, a commit moves the counter and the loop registers alone. -/
theorem committed_bank (t : State) (h : t.me.state = 1) : t.committed.bank = t.advanced.bank := by
  obtain ⟨pc, lp0, lp1, ha⟩ := advanced_frame t
  have hl : t.launched.bank = t.advanced.bank := (consume_bank _ _).trans (flown_bank _ _)
  have hs : t.advanced.state = 1 := by rw [ha]; exact h
  have hls : t.launched.state = 1 := (congrArg Ctx.state hl :).trans hs
  show ({ t.launched.bank with state := if t.launched.state = 0 then 0 else 1 } : Ctx) = _
  rw [hls, hl]
  simp [Ctx.bank, hs]

/-- A state without its quads. -/
def State.offQuads (s : State) : State := { s with quads := [] }
theorem leaseEnded_offQuads (t : State) : t.leaseEnded.offQuads = t.offQuads := by
  unfold State.leaseEnded
  split <;> rfl
theorem leaseEnded_quad_ne (t : State) {q : Nat} (h : q ≠ quadOf t.cur) : t.leaseEnded.quad q = t.quad q := by
  unfold State.leaseEnded
  split
  · exact quad_setQuad_ne _ _ _ _ h
  · rfl
theorem leaseEnded_quad_of_crel {t : State} (h : t.issue.crel = true) : t.leaseEnded.quad (quadOf t.cur) =
    { t.quad (quadOf t.cur) with lease := { (t.quad (quadOf t.cur)).lease with ended := true } } := by
  rw [State.leaseEnded, if_pos h]
  exact quad_setQuad_self _ _ _
/-- What a commit leaves of the state, its context's registers but the counter and the loop registers among it. -/
theorem commit_spec (s t : State) (h : t.lostLoop = false) :
    (s.commit t).cur = t.cur ∧ (s.commit t).issue = t.issue ∧ (s.commit t).mem = t.mem ∧ (s.commit t).wq = t.wq ∧
      (s.commit t).tick = t.tick ∧ (s.commit t).quads = t.leaseEnded.quads ∧
      (t.me.state = 1 → ((s.commit t).ctx t.cur).bank = t.advanced.bank) ∧ ∀ g, g ≠ t.cur → (s.commit t).ctx g = t.ctx g := by
  rw [commit_sound s t h]
  have hq := leaseEnded_offQuads t
  have hcur : t.leaseEnded.cur = t.cur := (congrArg State.cur hq :)
  obtain ⟨hc, hme, hne⟩ := countEcc_spec (t.leaseEnded.setCtx t.cur t.committed)
    (t.issue.ecc.eraseDups.length + (t.leaseEnded.core' (coreOf t.cur)).softCode (t.leaseEnded.ctx t.cur).pc)
  rw [setCtx_cur, hcur] at hme hne
  rw [ctx_setCtx_self] at hme
  refine ⟨(congrArg State.cur hc :).trans hcur, (congrArg State.issue hc :).trans (congrArg State.issue hq :),
    (congrArg State.mem hc :).trans (congrArg State.mem hq :), (congrArg State.wq hc :).trans (congrArg State.wq hq :),
    (congrArg State.tick hc :).trans (congrArg State.tick hq :), (congrArg State.quads hc :), fun h1 => ?_, fun g hg => ?_⟩
  · exact (bank_of_offRecords hme).trans (committed_bank t h1)
  · exact (hne g hg).trans ((ctx_setCtx_ne _ _ _ _ hg).trans (congrArg (fun u : State => u.ctx g) hq :))

end Sys2Proof.Machine

namespace Sys2Proof.Claims
open Sys2Proof.Machine

/-- A loop register after its COUNT has fallen by one. -/
def dropped (n s e : Nat) : Word := BitVec.ofNat 64 (n - 1 + s * 2 ^ 24 + e * 2 ^ 44)
/-- LP0's turn by its fields (R143). -/
theorem advance0_claim (c : Ctx) (nx n s e : Nat) (hn : n < 2 ^ 24) (hs : s < 2 ^ 20) (he : e < 2 ^ 20)
    (hw : c.lp0 = BitVec.ofNat 64 (n + s * 2 ^ 24 + e * 2 ^ 44)) : (c.advance0 nx).lp1 = c.lp1 ∧
      (e = nx → 1 < n → (c.advance0 nx).pc = s ∧ (c.advance0 nx).lp0 = dropped n s e) ∧
      (e ≠ nx ∨ n ≤ 1 → (c.advance0 nx).pc = nx ∧ (c.advance0 nx).lp0 = if e = nx ∧ n = 1 then dropped n s e else c.lp0) := by
  refine ⟨?_, fun hend h1 => ?_, fun hout => ?_⟩
  · obtain ⟨pc, lp0, hf⟩ := advance0_frame c nx
    rw [hf]
  · obtain ⟨-, hstart, -⟩ := lp_fields (n := n - 1) (by omega) hs he
    rw [advance0_of_back (loopCheck_back hn hs he hw hend h1)]
    exact ⟨hstart, rfl⟩
  · by_cases hlast : e = nx ∧ n = 1
    · rw [advance0_of_last (loopCheck_last hn hs he hw hlast.1 hlast.2), if_pos hlast]
      exact ⟨rfl, rfl⟩
    · rw [advance0_of_out (loopCheck_out hn hs he hw (by omega)), if_neg hlast]
      exact ⟨rfl, rfl⟩
/-- The two loop registers by their fields. -/
theorem advance_claim (c : Ctx) (nx n1 s1 e1 n0 s0 e0 : Nat) (hn1 : n1 < 2 ^ 24) (hs1 : s1 < 2 ^ 20) (he1 : e1 < 2 ^ 20)
    (hn0 : n0 < 2 ^ 24) (hs0 : s0 < 2 ^ 20) (he0 : e0 < 2 ^ 20) (h1 : c.lp1 = BitVec.ofNat 64 (n1 + s1 * 2 ^ 24 + e1 * 2 ^ 44))
    (h0 : c.lp0 = BitVec.ofNat 64 (n0 + s0 * 2 ^ 24 + e0 * 2 ^ 44)) :
    (e1 = nx → 1 < n1 → (c.advance nx).pc = s1 ∧ (c.advance nx).lp1 = dropped n1 s1 e1 ∧ (c.advance nx).lp0 = c.lp0) ∧
    (e1 ≠ nx ∨ n1 ≤ 1 → (c.advance nx).lp1 = (if e1 = nx ∧ n1 = 1 then dropped n1 s1 e1 else c.lp1) ∧
      (e0 = nx → 1 < n0 → (c.advance nx).pc = s0 ∧ (c.advance nx).lp0 = dropped n0 s0 e0) ∧
      (e0 ≠ nx ∨ n0 ≤ 1 → (c.advance nx).pc = nx ∧ (c.advance nx).lp0 = if e0 = nx ∧ n0 = 1 then dropped n0 s0 e0 else c.lp0)) := by
  refine ⟨fun hend h => ?_, fun hout => ?_⟩
  · obtain ⟨-, hstart, -⟩ := lp_fields (n := n1 - 1) (by omega) hs1 he1
    rw [advance_of_lp1_back (loopCheck_back hn1 hs1 he1 h1 hend h)]
    exact ⟨hstart, rfl, rfl⟩
  · by_cases hlast : e1 = nx ∧ n1 = 1
    · rw [if_pos hlast, advance_of_lp1_last (loopCheck_last hn1 hs1 he1 h1 hlast.1 hlast.2)]
      exact advance0_claim { c with lp1 := _ } nx n0 s0 e0 hn0 hs0 he0 h0
    · rw [if_neg hlast, advance_of_lp1_out (loopCheck_out hn1 hs1 he1 h1 (by omega))]
      exact advance0_claim c nx n0 s0 e0 hn0 hs0 he0 h0

/-- The bundle's loop-back goes where one starts, or it does not loop back. -/
theorem lostLoop_false {t : State} (h : t.issue.next.isSome = true ∨ t.me.loopsBack (t.me.pc + t.bundleSize) = false ∨
    ∃ i, t.image t.cur = some i ∧ i.startsAt (t.me.advance (t.me.pc + t.bundleSize)).pc = true) : t.lostLoop = false := by
  unfold State.lostLoop
  cases hn : t.issue.next with
  | some n => rfl
  | none =>
    rcases h with h | h | ⟨i, hi, hs⟩
    · rw [hn] at h
      cases h
    · rw [h]
      rfl
    · rw [hi, advanced_of_none hn, Option.map_some, Option.getD_some, hs, Bool.not_true, Bool.and_false]

/-- What a fault leaves. -/
theorem takeFault_claim (s : State) (f : FaultInfo) (h : f.mark = none) : let u := s.takeFault f
    u.mem = s.mem ∧ u.wq = s.wq ∧ u.cores = s.cores ∧ u.quads = s.quads ∧ u.vfs = s.vfs ∧ u.me = s.me.faulted f := by
  have hme := takeFault_me s f h
  rw [takeFault_eq s f h] at hme ⊢
  exact ⟨rfl, rfl, rfl, rfl, rfl, hme⟩
theorem faultWord_sync (f : FaultInfo) : faultWord f.point f.code f.slot.num 0 =
    BitVec.ofNat 64 (f.point % 2 ^ 32 + f.code % 256 * 2 ^ 32 + f.slot.num * 2 ^ 40 + 2 ^ 44) := by
  have hs : f.slot.num < 6 := by cases f.slot <;> decide
  exact congrArg (BitVec.ofNat 64) (by omega)

/-- Settles O56: the advance is that of its two loop registers, and counting, flying and consuming leave what the registers hold. -/
theorem commitAndFaultFrame : Obligations.CommitAndFaultFrame := by
  refine ⟨fun c nx n1 s1 e1 n0 s0 e0 hn1 hs1 he1 hn0 hs0 he0 h1 h0 => ⟨?_, ?_⟩, fun s t hcur => ?_⟩
  · obtain ⟨pc, lp0, lp1, hf⟩ := advance_frame c nx
    rw [hf]
  · exact advance_claim c nx n1 s1 e1 n0 s0 e0 hn1 hs1 he1 hn0 hs0 he0 h1 h0
  rw [← hcur]
  refine ⟨fun hst hf hloop => ?_, fun i hn hb hi hs => ?_, fun f hf => ?_⟩
  · obtain ⟨hc, hissue, hmem, hwq, htick, hquads, hbank, hctx⟩ := commit_spec s t (lostLoop_false hloop)
    have hb : (s.commit t).me.bank = t.advanced.bank := by
      rw [State.me, hc]
      exact hbank hst
    obtain ⟨pc, lp0, lp1, ha⟩ := advanced_frame t
    have hr := hb.trans (congrArg Ctx.bank ha)
    refine ⟨?_, hmem, hwq, htick, (congrArg Ctx.sreg hr :), (congrArg Ctx.xreg hr :), (congrArg Ctx.va hr :), (congrArg Ctx.vb hr :),
      (congrArg Ctx.ma hr :), (congrArg Ctx.mb hr :), (congrArg Ctx.sh hr :), (congrArg Ctx.tk hr :), (congrArg Ctx.memdef hr :),
      (congrArg Ctx.state hr :).trans hst, hctx, fun hl => ?_, fun q hq => ?_, fun hl => ?_, fun n hn => ?_, fun hn => ?_⟩
    · rw [hissue, hf]
    · rw [hquads, State.leaseEnded, hl]
      rfl
    · exact (congrArg (tget {} · q) hquads :).trans (leaseEnded_quad_ne t hq)
    · exact (congrArg (tget {} · (quadOf t.cur)) hquads :).trans (leaseEnded_quad_of_crel hl)
    · rw [advanced_of_next hn] at hb
      exact ⟨(congrArg Ctx.pc hb :), (congrArg Ctx.lp0 hb :), (congrArg Ctx.lp1 hb :)⟩
    · rw [advanced_of_none hn] at hb
      exact ⟨(congrArg Ctx.pc hb :), (congrArg Ctx.lp0 hb :), (congrArg Ctx.lp1 hb :)⟩
  · refine commit_lost s t ?_
    have hb' : t.me.loopsBack (t.me.pc + t.bundleSize) = true := hb
    have hs' : i.startsAt (t.me.advance (t.me.pc + t.bundleSize)).pc = false := hs
    rw [State.lostLoop, hb', hi, advanced_of_none hn, Option.map_some, Option.getD_some, hs', hn]
    rfl
  · obtain ⟨hmem, hwq, hcores, hquads, hvfs, hme⟩ := takeFault_claim s f hf
    refine ⟨hmem, hwq, hcores, hquads, hvfs, ?_⟩
    have hw := faultWord_sync f
    rw [hme, hcur, Ctx.faulted]
    generalize faultWord f.point f.code f.slot.num 0 = w at hw
    exact ⟨hw, rfl, rfl, rfl, rfl, rfl, rfl, rfl, rfl, rfl, rfl, rfl, rfl, rfl, rfl, rfl, rfl, rfl, rfl,
      fun g hg => takeFault_ctx_ne s f hf hg⟩

end Sys2Proof.Claims

namespace Sys2Proof.Machine

theorem exec_bist (c : QueueCmd) (s : State) : exec (.bist c) s = execBist c s := rfl
theorem queue_setQueue_ne (s : State) {n m : Nat} (q : DQueue) (h : m ≠ n) : (s.setQueue n q).queue m = s.queue m :=
  tget_tset_ne _ s.dealer.queues n m q h

/-! ### The shape of a host command (R339, R429) -/

section Shape
variable {s t : State} {c : QueueCmd} {code st : Nat} {f : State → State × Nat} {start : State → Option State}
  {fin : State → Option (State × Nat)}
/-- A command whose effect is complete at once retires with its STATUS, and with STATUS 1 where it may not run. -/
theorem atOnce_refused (ha : s.asked c code = true) (hb : (s.queue c.q).begun = false) (hk : s.hostOk c = false) :
    s.atOnce c code f = .next (s.retire c.q 1) := by
  rw [State.atOnce, event_pos (by simp [ha, hb]), if_neg (by simp [hk])]
theorem atOnce_done (ha : s.asked c code = true) (hb : (s.queue c.q).begun = false) (hk : s.hostOk c = true) (hf : f s = (t, st)) :
    s.atOnce c code f = .next (t.retire c.q st) := by
  rw [State.atOnce, event_pos (by simp [ha, hb]), if_pos hk, hf]
theorem doneIf_true {b : Bool} (h : b = true) : doneIf b s t = (t, 0) := if_pos h

/-- A command that takes time is refused, begins, waits or ends. -/
theorem inTwo_refused (ha : s.asked c code = true) (hb : (s.queue c.q).begun = false) (hk : s.hostOk c = false) :
    s.inTwo c code start fin = .next (s.retire c.q 1) := by
  rw [State.inTwo, if_neg (by simp [ha]), if_neg (by simp [hb]), if_neg (by simp [hk])]
theorem inTwo_starts (ha : s.asked c code = true) (hb : (s.queue c.q).begun = false) (hk : s.hostOk c = true) (hs : start s = some t)
    (ht : (t.queue c.q).begun = false) : s.inTwo c code start fin = .next (t.underWay c.q 0) := by
  rw [State.inTwo, if_neg (by simp [ha]), if_neg (by simp [hb]), if_pos hk, hs]
  simp only [ht, Bool.false_eq_true, if_false]
theorem inTwo_starts_underWay {d : Nat} (ha : s.asked c code = true) (hb : (s.queue c.q).begun = false) (hk : s.hostOk c = true)
    (hs : start s = some (t.underWay c.q d)) : s.inTwo c code start fin = .next (t.underWay c.q d) := by
  have ht : ((t.underWay c.q d).queue c.q).begun = true := by simp [State.underWay, State.queue, State.setQueue, State.modDealer]
  rw [State.inTwo, if_neg (by simp [ha]), if_neg (by simp [hb]), if_pos hk, hs]
  simp only [ht, if_true]
theorem inTwo_ends (ha : s.asked c code = true) (hb : (s.queue c.q).begun = true) (hf : fin s = some (t, st)) :
    s.inTwo c code start fin = .next (t.retire c.q st) := by
  rw [State.inTwo, if_neg (by simp [ha]), if_pos hb, hf]
theorem inTwo_waits (ha : s.asked c code = true) (hb : (s.queue c.q).begun = true) (hf : fin s = none) :
    s.inTwo c code start fin = .next s := by
  rw [State.inTwo, if_neg (by simp [ha]), if_pos hb, hf]
end Shape

/-- A reset of the function runs, or none does. -/
theorem resetRuns_true {s : State} {v : Nat} (h : ∃ r ∈ s.dealer.resets, r.1 = v) : (s.dealer.resets.any fun r => r.1 = v) = true := by
  simpa using h
theorem resetRuns_false {s : State} {v : Nat} (h : ∀ r ∈ s.dealer.resets, r.1 ≠ v) : (s.dealer.resets.any fun r => r.1 = v) = false := by
  simpa using h

theorem bist_refused {s : State} {c : QueueCmd} (hk : s.hostOk c = false) (hb : (s.queue c.q).begun = false)
    (ha : s.asked c 0x8B = true) : exec (.bist c) s = .next (s.retire c.q 1) := by
  rw [exec_bist, execBist]
  exact inTwo_refused ha hb hk

/-- What the Dealer reads leaves the table entries that a function has loaded. -/
theorem vfSat_attrs (s : State) (v number i n w : Nat) : ((s.vfSat v number i n).vf w).attrs = (s.vf w).attrs := by
  by_cases hw : w = v
  · subst hw; simp [State.vfSat, State.modVf, vf_setVf_self]
  · simp [State.vfSat, State.modVf, vf_setVf_ne _ _ _ _ hw]
theorem dealerMet_attrs (s : State) (v : Nat) (l : List (Nat × Nat)) (w : Nat) : ((s.dealerMet v l).vf w).attrs = (s.vf w).attrs := by
  refine foldl_same (fun t : State => (t.vf w).attrs) _ (fun t a => ?_) l s
  refine (foldl_same (fun t : State => (t.vf w).attrs) _ (fun t u => ?_) _ _).trans
    (foldl_same (fun t : State => (t.vf w).attrs) _ (fun t u => vfSat_attrs t v _ _ _ w) _ _)
  rw [tellSoft_nobody]
  exact vfSat_attrs t v _ _ _ w

/-- Writing a list of entries of a table, one by one. -/
theorem tget_foldl_tset {α : Type} [DecidableEq α] {d : α} (f : Nat → α) (l : List Nat) (t : Tbl α) (j : Nat) :
    tget d (l.foldl (fun t i => tset d t i (f i)) t) j = if j ∈ l then f j else tget d t j := by
  induction l generalizing t with
  | nil => simp
  | cons i l ih =>
    rw [List.foldl_cons, ih]
    by_cases hl : j ∈ l
    · simp [hl]
    · by_cases hj : j = i
      · simp [hj]
      · simp [hl, hj, tget_tset_ne _ _ _ _ _ hj]

/-! ### Where a host command begins -/

section Begins
variable {s : State} {c : QueueCmd} (hk : s.hostOk c = true) (hb : (s.queue c.q).begun = false)
include hk

/-- UNMAPQ of the queue that it stands in retires first (log entry 58). -/
theorem unmapq_own (ha : s.asked c 0x81 = true) (ht : s.unmapTarget c = some c.q) :
    exec (.unmapq c) s = .next ((s.retire c.q 0).unmapQueue c.q) :=
  (if_pos (by simp [ha, hk, ht]) : execUnmapq c s = _)

include hb
theorem unmapq_begins {n : Nat} (ha : s.asked c 0x81 = true) (ht : s.unmapTarget c = some n) (hn : n ≠ c.q) :
    exec (.unmapq c) s = .next ((s.setQueue n { s.queue n with unmap := some ((s.queue n).unmap.getD c.q) }).underWay c.q 0) := by
  have hq : ((s.setQueue n { s.queue n with unmap := some ((s.queue n).unmap.getD c.q) }).queue c.q).begun = false := by
    rw [queue_setQueue_ne _ _ hn.symm]
    exact hb
  have hown : ¬ (s.asked c 0x81 && s.hostOk c && decide (s.unmapTarget c = some c.q)) = true := by simp [ht, hn]
  have hs : (s.unmapTarget c).map (fun n => s.setQueue n { s.queue n with unmap := some ((s.queue n).unmap.getD c.q) }) = some _ :=
    congrArg (Option.map _) ht
  exact ((if_neg hown).trans (inTwo_starts ha hb hk hs hq) : execUnmapq c s = _)

/-- WALKINV reads again the entries that it covers, and keeps the others (R353-R355). -/
theorem walkinv_done {v : Nat} (ha : s.asked c 0x84 = true) (hv : funcArg c.opa = some v) :
    let all := decide (c.opb = BitVec.allOnes 64)
    let at' := fun i : Nat => bits (s.vf v).part.toNat 575 512 + 8 * i
    let read := (List.range 64).filter fun i => all || at' i = c.opb.toNat
    ∃ attrs, exec (.walkinv c) s = .next (((s.dealerMet v (read.map fun i => (at' i, 8))).modVf v fun x =>
          { x with walk := if all then [] else x.walk.filter fun e => e.1 ≠ c.opb.toNat
                   attrs := attrs }).retire c.q 0) ∧
        ∀ i < 64, tget 0 attrs i =
          if all || at' i = c.opb.toNat then BitVec.ofNat 64 (leRead s.mem (at' i) 8) else tget 0 (s.vf v).attrs i := by
  intro all at' read
  let t := s.dealerMet v (read.map fun i => (at' i, 8))
  refine ⟨read.foldl (fun t i => tset 0 t i (BitVec.ofNat 64 (leRead s.mem (at' i) 8))) (t.vf v).attrs, ?_, fun i hi => ?_⟩
  · exact (atOnce_done ha hb hk (by rw [hv]) : execWalkinv c s = _)
  · have hread : i ∈ read ↔ (all || decide (at' i = c.opb.toNat)) = true := by simp [read, hi]
    rw [tget_foldl_tset, dealerMet_attrs]
    simp only [hread]

/-- PREEMPT stops the context alone, or in a RIGID phase its launch. -/
theorem preempt_begins_alone {g : Nat} (ha : s.asked c 0x85 = true) (hg : slotArg c.opa = some g) (h0 : c.opb = 0)
    (hr : (s.ctx g).runs = true) (hi : s.inRigid g = false) : exec (.preempt c) s = .next ((s.askStop g true).underWay c.q 0) :=
  (inTwo_starts (t := s.askStop g true) ha hb hk (by simp [hg, h0, hr, hi]) hb : execPreempt c s = _)
theorem preempt_begins_launch {g id : Nat} (ha : s.asked c 0x85 = true) (hg : slotArg c.opa = some g) (h0 : c.opb = 0)
    (hr : (s.ctx g).runs = true) (hi : s.inRigid g = true) (hl : (s.ctx g).launch = some id)
    (hq : ((s.stopLaunch id true).queue c.q).begun = false) :
    exec (.preempt c) s = .next ((s.stopLaunch id true).underWay c.q 0) :=
  (inTwo_starts ha hb hk (by simp [hg, h0, hr, hi, hl]) hq : execPreempt c s = _)

/-- KILL ends the launch, and resets the function that it leaves unrecoverable, where no reset of it runs (R409). -/
theorem kill_begins {g id : Nat} {l : Launch} (ha : s.asked c 0x87 = true) (hg : slotArg c.opa = some g) (h0 : c.opb = 0)
    (hi : s.launchAt g = some id) (hl : s.launch id = some l) :
    let u := s.killLaunch id 3
    let v := if Config.unrecoverable (u.policy l.vf) then u.beginReset l.vf c.q else u
    (∀ r ∈ u.dealer.resets, r.1 ≠ l.vf) → (v.queue c.q).begun = false → exec (.kill c) s = .next (v.underWay c.q 0) := by
  intro u v hr hq
  have hs : (slotArg c.opa).bind (fun g => if c.opb ≠ 0 then none else (s.launchAt g).bind fun id => (s.launch id).map fun l =>
      let s := s.killLaunch id 3
      if Config.unrecoverable (s.policy l.vf) ∧ !s.dealer.resets.any (fun r => r.1 = l.vf) then s.beginReset l.vf c.q else s)
      = some v := by
    simp only [hg, h0, hi, hl, Option.bind_some, Option.map_some, ne_eq, not_true_eq_false, if_false, v, u, resetRuns_false hr,
      Bool.not_false, and_true]
  exact (inTwo_starts ha hb hk hs hq : execKill c s = _)

/-- FLR begins a reset of its function, or joins the one that runs (log entry 55). -/
theorem flr_begins {v : Nat} (ha : s.asked c 0x89 = true) (hv : funcArg c.opa = some v) (h0 : c.opb = 0)
    (hr : ∀ r ∈ s.dealer.resets, r.1 ≠ v) (hq : ((s.beginReset v c.q).queue c.q).begun = false) :
    exec (.flr c) s = .next ((s.beginReset v c.q).underWay c.q 0) :=
  (inTwo_starts ha hb hk (by simp [hv, h0, resetRuns_false hr]) hq : execFlr c s = _)
theorem flr_joins {v : Nat} (ha : s.asked c 0x89 = true) (hv : funcArg c.opa = some v) (h0 : c.opb = 0)
    (hr : ∃ r ∈ s.dealer.resets, r.1 = v) : exec (.flr c) s = .next (s.underWay c.q 0) :=
  (inTwo_starts ha hb hk (by simp [hv, h0, resetRuns_true hr]) hb : execFlr c s = _)

/-- A BIST begins on towers that no launch uses (R440). -/
theorem bist_begins (ha : s.asked c 0x8B = true) (h0 : bits c.opa.toNat 63 6 = 0) :
    let m := bits c.opa.toNat 3 0
    let set := bits c.opa.toNat 5 4
    (∀ l ∈ s.dealer.launches, l.towers &&& m = 0 ∧ ∀ q ∈ l.quads, bit m (q / 48) = false) →
    m = 0 ∨ hostOperand c.opb.toNat (8 * bistWords m set) = true →
    exec (.bist c) s = .next (s.underWay c.q (bistTicks set + Config.delay s.fresh 16)) := by
  intro m set hl ho
  have huses : (s.dealer.launches.any fun l => l.towers &&& m ≠ 0 || l.quads.any fun q => bit m (q / 48)) = false := by
    simpa using hl
  have hok : (decide (bits c.opa.toNat 63 6 = 0) && !(s.dealer.launches.any fun l => l.towers &&& m ≠ 0 || l.quads.any fun q => bit m (q / 48)) &&
      (m = 0 || hostOperand c.opb.toNat (8 * bistWords m set))) = true := by
    rw [huses]
    simpa [h0] using ho
  rw [exec_bist, execBist]
  refine inTwo_starts_underWay ha hb hk ?_
  exact if_pos hok

/-- ATTEST writes 64 bytes and a signature. -/
theorem attest_done (ha : s.asked c 0x8C = true) (h1 : s.dealer.bootstate.getLsbD 10 = true)
    (h2 : s.dealer.secalarm.getLsbD 5 = false) (h3 : hostOperand c.opa.toNat 32 = true)
    (h4 : hostOperand c.opb.toNat (64 + sigBytes) = true) : ∃ out : List Byte,
        out.length = 64 + sigBytes ∧ exec (.attest c) s =
          .next (((out.zipIdx).foldl (fun u b => u.dealerWrite (c.opb.toNat + b.2) b.1.toNat 1)
            (s.dealerMet (s.queueVf c) [(c.opa.toNat, 32)])).retire c.q 0) :=
  ⟨((List.range 64).map fun k => Config.report (leRead s.mem c.opa.toNat 32) s.dealer.defectCrc (bits s.dealer.bootstate.toNat 4 3) k) ++
      (List.range sigBytes).map fun k => Config.signature s.fresh k, by simp,
    (atOnce_done ha hb hk (doneIf_true (by rw [h1, h2, h3, h4]; rfl)) : execAttest c s = _)⟩

/-- KEYPROV provisions the keys if the blob's signature holds, and is refused if not (log entry 15). -/
theorem keyprov_done (ha : s.asked c 0x8D = true) (h0 : c.opb = 0) (h1 : s.dealer.bootstate.getLsbD 10 = false)
    (h2 : s.dealer.secalarm.getLsbD 0 = false) (h3 : hostOperand c.opa.toNat 1 = true) : exec (.keyprov c) s =
        .next (if Config.choice s.fresh 14 then (s.modDealer fun d =>
          { d with bootstate := setBits d.bootstate 10 10 1, secalarm := setBits d.secalarm 5 5 0 }).retire c.q 0 else s.retire c.q 1) := by
  cases hc : Config.choice s.fresh 14 with
  | true => exact (atOnce_done ha hb hk (doneIf_true (by rw [h0, h1, h2, h3, hc]; rfl)) : execKeyprov c s = _)
  | false => exact (atOnce_done ha hb hk (if_neg (by simp [hc])) : execKeyprov c s = _)

/-- SVCREG registers a ring, or takes the service away (R68). -/
theorem svcreg_done (ha : s.asked c 0x91 = true) :
      let n := bits c.opa.toNat 31 16
      let v := bits c.opa.toNat 2 0
      bits c.opa.toNat 15 3 = 0 → bits c.opa.toNat 63 33 = 0 → n ≠ 0 → c.opb.toNat % 64 = 0 →
      (c.opa.getLsbD 32 = true → tierOf c.opb.toNat = 6 → exec (.svcreg c) s =
        .next ((s.modVf v fun x => { x with services := (n, c.opb.toNat) :: x.services.filter fun e => e.1 ≠ n }).retire c.q 0)) ∧
      (c.opa.getLsbD 32 = false → exec (.svcreg c) s =
        .next ((s.modVf v fun x => { x with services := x.services.filter fun e => e.1 ≠ n }).retire c.q 0)) := by
  intro n v h1 h2 h3 h4
  have hok : ¬ (bits c.opa.toNat 15 3 ≠ 0 ∨ bits c.opa.toNat 63 33 ≠ 0 ∨ n = 0 ∨ c.opb.toNat % 64 ≠ 0) := by simp [h1, h2, h3, h4]
  refine ⟨fun hb32 ht => ?_, fun hb32 => ?_⟩
  · exact (atOnce_done ha hb hk ((if_neg hok).trans ((if_pos hb32).trans (doneIf_true (decide_eq_true ht)))) : execSvcreg c s = _)
  · exact (atOnce_done ha hb hk ((if_neg hok).trans (if_neg (ne_true_of_eq_false hb32))) : execSvcreg c s = _)

/-- SVCREPLY answers the request that it names. -/
theorem svcreply_done {v h : Nat} (ha : s.asked c 0x92 = true) (h1 : bits c.opa.toNat 15 12 = 0) (h2 : bits c.opa.toNat 63 40 = 0)
    (h3 : bits c.opa.toNat 39 32 ≤ 3) (hu : s.unanswered (bits c.opa.toNat 11 0) (bits c.opa.toNat 31 16) = some (v, h)) :
    exec (.svcreply c) s =
      .next ((s.modSysc v h (bits c.opa.toNat 31 16) fun r => { r with reply := some (bits c.opa.toNat 39 32, c.opb) }).retire c.q 0) :=
  (atOnce_done ha hb hk ((if_neg (by simp [h1, h2, h3])).trans (by rw [hu])) : execSvcreply c s = _)

/-- SERVICE raises the level while the launches and the other queues are idle. -/
theorem service_done (ha : s.asked c 0x8E = true) (h1 : c.opa.toNat ≤ 3) (h2 : bits s.dealer.bootstate.toNat 4 3 < c.opa.toNat)
    (h0 : c.opb = 0) (hl : s.dealer.launches = []) (hq : ∀ q ∈ s.dealer.queues, q.1 = c.q ∨ q.2.entry = none) :
    exec (.service c) s = .next ((s.modDealer fun d => { d with bootstate := setBits d.bootstate 4 3 c.opa.toNat }).retire c.q 0) := by
  have hidle : (s.dealer.queues.all fun q => q.1 = c.q || q.2.entry.isNone) = true := by simpa using hq
  exact (atOnce_done ha hb hk (doneIf_true (by simp [h1, h2, h0, hl, hidle])) : execService c s = _)

/-- CHECKPOINT clears the header of its image and begins; RESTORE begins when the header is that of its scope (R430). -/
theorem checkpoint_begins {a : Nat} (ha : s.asked c 0x8F = true) (ht : s.transferOk c = some a) :
    exec (.checkpoint c) s = .next ((s.header a 0).beginTransfer c) :=
  (inTwo_starts_underWay ha hb hk (congrArg (Option.map _) ht) : execCheckpoint c s = _)
theorem restore_begins {a : Nat} (ha : s.asked c 0x90 = true) (ht : s.transferOk c = some a) :
    let h := leRead (s.cleanLines fun l => l = a / 64).mem a 64
    bits h 63 0 = s.payload c.opa.toNat → bits h 127 64 = c.opa.toNat → exec (.restore c) s = .next (s.beginTransfer c) := by
  intro h h1 h2
  have hs : (s.transferOk c).bind (fun a =>
      let h := leRead (s.cleanLines fun l => l = a / 64).mem a 64
      if bits h 63 0 = s.payload c.opa.toNat ∧ bits h 127 64 = c.opa.toNat then some (s.beginTransfer c) else none)
      = some (s.beginTransfer c) := by
    rw [ht, Option.bind_some]
    exact if_pos (And.intro h1 h2)
  exact (inTwo_starts_underWay ha hb hk hs : execRestore c s = _)
end Begins

/-! ### Where a host command ends -/

section Ends
variable {s : State} {c : QueueCmd} (hb : (s.queue c.q).begun = true)
include hb

/-- An UNMAPQ that waits for another queue ends once that queue's entry has retired, or once the queue is gone. -/
theorem unmapq_ends {n : Nat} {q : DQueue} (ha : s.asked c 0x81 = true) (ht : s.unmapTarget c ≠ some c.q)
    (hq : s.dealer.queueAt c.opa.toNat = some (n, q)) :
    (q.unmap = some c.q → q.entry = none → exec (.unmapq c) s = .next ((s.unmapQueue n).retire c.q 0)) ∧
    (q.unmap = some c.q → q.entry ≠ none → exec (.unmapq c) s = .next s) ∧
    (q.unmap = none → exec (.unmapq c) s = .next (s.retire c.q 0)) := by
  have hown : ¬ (s.asked c 0x81 && s.hostOk c && decide (s.unmapTarget c = some c.q)) = true := by simp [ht]
  refine ⟨fun hu he => ?_, fun hu he => ?_, fun hu => ?_⟩
  · exact ((if_neg hown).trans (inTwo_ends (t := s.unmapQueue n) (st := 0) ha hb (by simp [hq, hu, he])) : execUnmapq c s = _)
  · exact ((if_neg hown).trans (inTwo_waits ha hb (by simp [hq, hu, he])) : execUnmapq c s = _)
  · exact ((if_neg hown).trans (inTwo_ends (t := s) (st := 0) ha hb (by simp [hq, hu])) : execUnmapq c s = _)
theorem unmapq_ends_gone (ha : s.asked c 0x81 = true) (hq : s.dealer.queueAt c.opa.toNat = none) :
    exec (.unmapq c) s = .next (s.retire c.q 0) := by
  have ht : s.unmapTarget c = none := by simp [State.unmapTarget, hq]
  have hown : ¬ (s.asked c 0x81 && s.hostOk c && decide (s.unmapTarget c = some c.q)) = true := by simp [ht]
  exact ((if_neg hown).trans (inTwo_ends (t := s) (st := 0) ha hb (by simp [hq])) : execUnmapq c s = _)

/-- KILL ends once the launches that it killed have retired, and once the reset that it began is over. -/
theorem kill_ends (ha : s.asked c 0x87 = true) (hr : ∀ r ∈ s.dealer.resets, r.2.2 ≠ c.q) :
    (s.dying c.opa.toNat = false → exec (.kill c) s = .next (s.retire c.q 0)) ∧
    (s.dying c.opa.toNat = true → exec (.kill c) s = .next s) := by
  have hf : s.dealer.resets.find? (fun r => r.2.2 = c.q) = none := by simpa using hr
  refine ⟨fun hd => ?_, fun hd => ?_⟩
  · exact (inTwo_ends (t := s) (st := 0) ha hb (by simp [hf, hd]) : execKill c s = _)
  · exact (inTwo_waits ha hb (by simp [hf, hd]) : execKill c s = _)
theorem kill_ends_reset {v t : Nat} (ha : s.asked c 0x87 = true)
    (hr : (s.dealer.resets.find? fun r => r.2.2 = c.q) = some (v, t, c.q)) (hd : s.drained v = true) :
    exec (.kill c) s = .next ((s.finishReset v c.q).retire c.q 0) :=
  (inTwo_ends (t := s.finishReset v c.q) (st := 0) ha hb (by simp [hr, hd]) : execKill c s = _)

/-- A BIST ends after its ticks, or when an alarm cuts it short (log entry 86). -/
theorem bist_ends (ha : s.asked c 0x8B = true) : let m := bits c.opa.toNat 3 0
    let set := bits c.opa.toNat 5 4
    ((s.queue c.q).failed = true → exec (.bist c) s = .next ((s.bistCut m set).retire c.q 1)) ∧
    ((s.queue c.q).failed = false → (s.queue c.q).due ≤ s.tick → exec (.bist c) s = .next ((s.bist m set c.opb.toNat).retire c.q 0)) ∧
    ((s.queue c.q).failed = false → s.tick < (s.queue c.q).due → exec (.bist c) s = .next s) := by
  intro m set
  simp only [exec_bist]
  refine ⟨fun hf => ?_, fun hf hd => ?_, fun hf hd => ?_⟩
  · unfold execBist
    exact inTwo_ends ha hb (if_pos hf)
  · unfold execBist
    exact inTwo_ends ha hb ((if_neg (ne_true_of_eq_false hf)).trans (if_pos hd))
  · unfold execBist
    exact inTwo_waits ha hb ((if_neg (ne_true_of_eq_false hf)).trans (if_neg (Nat.not_le.mpr hd)))

/-- FLR ends with the reset that it began, and with no reset of its function left. -/
theorem flr_ends {v t q : Nat} (ha : s.asked c 0x89 = true) (hr : (s.dealer.resets.find? fun r => r.1 = c.opa.toNat) = some (v, t, q)) :
    (q = c.q → s.drained v = true → exec (.flr c) s = .next ((s.finishReset v c.q).retire c.q 0)) ∧
    (q ≠ c.q ∨ s.drained v = false → exec (.flr c) s = .next s) := by
  refine ⟨fun hq hd => ?_, fun hn => ?_⟩
  · exact (inTwo_ends (t := s.finishReset v c.q) (st := 0) ha hb (by simp [hr, hq, hd]) : execFlr c s = _)
  · have hno : ¬ (q = c.q ∧ s.drained v = true) := by
      rintro ⟨hq, hd⟩
      simp [hq, hd] at hn
    exact (inTwo_waits ha hb (by rw [hr]; exact if_neg hno) : execFlr c s = _)
theorem flr_ends_gone (ha : s.asked c 0x89 = true) (hr : ∀ r ∈ s.dealer.resets, r.1 ≠ c.opa.toNat) :
    exec (.flr c) s = .next (s.retire c.q 0) := by
  have hf : s.dealer.resets.find? (fun r => r.1 = c.opa.toNat) = none := by simpa using hr
  exact (inTwo_ends (t := s) (st := 0) ha hb (by simp [hf]) : execFlr c s = _)
end Ends

/-- A transfer that lost its link or its allocation ends with STATUS 5; one that is whole, with what its end adds. -/
theorem endTransfer_lost (s : State) (c : QueueCmd) (back : Bool) (fin : State → Nat → State)
    (h : (s.queue c.q).failed = true ∨ s.imageNow c = none) : ∃ t, s.endTransfer c back fin = some (t, 5) := by
  unfold State.endTransfer
  dsimp only
  split
  next => exact ⟨_, rfl⟩
  next => exact ⟨s, rfl⟩
  next hf hi => simp [hf, hi] at h
theorem endTransfer_whole {s : State} {c : QueueCmd} {a : Nat} (back : Bool) (fin : State → Nat → State)
    (hf : (s.queue c.q).failed = false) (hd : (s.queue c.q).due ≤ s.tick) (hi : s.imageNow c = some a) :
    s.endTransfer c back fin = some (fin (s.transfer c.opa.toNat a (s.payload c.opa.toNat) back) a, 0) := by
  unfold State.endTransfer
  dsimp only
  rw [hf, hi]
  exact if_pos hd

section Transfer
variable {s : State} {c : QueueCmd} (hb : (s.queue c.q).begun = true)
include hb
theorem transfer_lost {i : Instr} (hi : (i = .checkpoint c ∧ s.asked c 0x8F = true) ∨ (i = .restore c ∧ s.asked c 0x90 = true))
    (h : (s.queue c.q).failed = true ∨ s.imageNow c = none) : ∃ t : State, exec i s = .next (t.retire c.q 5) := by
  rcases hi with ⟨rfl, ha⟩ | ⟨rfl, ha⟩
  · obtain ⟨t, ht⟩ := endTransfer_lost s c false (fun t a => t.putHeader a (s.payload c.opa.toNat) c.opa.toNat (s.queue c.q).start) h
    exact ⟨t, (inTwo_ends ha hb ht : execCheckpoint c s = _)⟩
  · obtain ⟨t, ht⟩ := endTransfer_lost s c true (fun t _ => t) h
    exact ⟨t, (inTwo_ends ha hb ht : execRestore c s = _)⟩

variable {a : Nat} (hf : (s.queue c.q).failed = false) (hd : (s.queue c.q).due ≤ s.tick) (hi : s.imageNow c = some a)
include hf hd hi
theorem checkpoint_ends (ha : s.asked c 0x8F = true) : exec (.checkpoint c) s =
    .next (((s.transfer c.opa.toNat a (s.payload c.opa.toNat) false).putHeader a (s.payload c.opa.toNat) c.opa.toNat
      (s.queue c.q).start).retire c.q 0) :=
  (inTwo_ends ha hb (endTransfer_whole false _ hf hd hi) : execCheckpoint c s = _)
theorem restore_ends (ha : s.asked c 0x90 = true) : exec (.restore c) s =
    .next ((s.transfer c.opa.toNat a (s.payload c.opa.toNat) true).retire c.q 0) :=
  (inTwo_ends ha hb (endTransfer_whole true _ hf hd hi) : execRestore c s = _)
end Transfer
end Sys2Proof.Machine

namespace Sys2Proof.Claims
open Sys2Proof.Machine

/-- Settles O50: a command retires refused, takes its effect at once, or is under way until what it waits for is over. -/
theorem hostCommandsTakeEffect : Obligations.HostCommandsTakeEffect := by
  unfold Obligations.HostCommandsTakeEffect
  refine ⟨fun s c hk hb => ?_, fun s c hk hb => ?_, fun s c hb => ?_⟩
  · simp only [List.forall_mem_cons, List.not_mem_nil, false_imp_iff, implies_true, and_true]
    exact ⟨fun ha => (atOnce_refused ha hb hk : execMapq c s = _),
      fun ha => ((if_neg (by simp [hk])).trans (inTwo_refused ha hb hk) : execUnmapq c s = _),
      fun ha => (atOnce_refused ha hb hk : execPartwrite c s = _),
      fun ha => (atOnce_refused ha hb hk : execRangeload c s = _),
      fun ha => (atOnce_refused ha hb hk : execWalkinv c s = _),
      fun ha => (inTwo_refused ha hb hk : execPreempt c s = _),
      fun ha => (inTwo_refused ha hb hk : execResume c s = _),
      fun ha => (inTwo_refused ha hb hk : execKill c s = _),
      fun ha => (inTwo_refused ha hb hk : execReexec c s = _),
      fun ha => (inTwo_refused ha hb hk : execFlr c s = _),
      fun ha => (atOnce_refused ha hb hk : execQuota c s = _),
      fun ha => bist_refused hk hb ha,
      fun ha => (atOnce_refused ha hb hk : execAttest c s = _),
      fun ha => (atOnce_refused ha hb hk : execKeyprov c s = _),
      fun ha => (atOnce_refused ha hb hk : execService c s = _),
      fun ha => (inTwo_refused ha hb hk : execCheckpoint c s = _),
      fun ha => (inTwo_refused ha hb hk : execRestore c s = _),
      fun ha => (atOnce_refused ha hb hk : execSvcreg c s = _),
      fun ha => (atOnce_refused ha hb hk : execSvcreply c s = _)⟩
  · exact ⟨fun n ha h => (atOnce_done ha hb hk (by rw [h]) : execMapq c s = _),
      fun n ha h => ⟨unmapq_begins hk hb ha h, fun hn => unmapq_own hk ha (hn ▸ h)⟩,
      fun v ha hv ho hp => (atOnce_done ha hb hk (by rw [hv]; exact doneIf_true (by rw [ho, hp]; rfl)) : execPartwrite c s = _),
      fun v ha hv h0 => (atOnce_done ha hb hk (by rw [hv]; exact doneIf_true (decide_eq_true h0)) : execRangeload c s = _),
      fun v ha hv => walkinv_done hk hb ha hv,
      fun g ha hg h0 hr => ⟨preempt_begins_alone hk hb ha hg h0 hr, fun id hi hl hq => preempt_begins_launch hk hb ha hg h0 hr hi hl hq⟩,
      fun g ha hg h0 hh hq => (inTwo_starts ha hb hk (by rw [hg]; exact if_pos ⟨h0, hh⟩) hq : execResume c s = _),
      fun g id l ha hg h0 hi hl => kill_begins hk hb ha hg h0 hi hl,
      fun g u ha hg h0 hu hq => (inTwo_starts ha hb hk (by rw [hg]; exact (if_pos h0).trans hu) hq : execReexec c s = _),
      fun v ha hv h0 hr hq => flr_begins hk hb ha hv h0 hr hq,
      fun v ha hv h0 hr => flr_joins hk hb ha hv h0 hr,
      fun v ha hv h1 h2 => (atOnce_done ha hb hk (by rw [hv]; exact doneIf_true (decide_eq_true ⟨h1, h2⟩)) : execQuota c s = _),
      bist_begins hk hb, attest_done hk hb, keyprov_done hk hb, service_done hk hb,
      fun a => checkpoint_begins hk hb, fun a => restore_begins hk hb, svcreg_done hk hb, fun v h => svcreply_done hk hb⟩
  · exact ⟨fun n q ha _ => unmapq_ends hb ha, unmapq_ends_gone hb,
      fun ha hl => (inTwo_ends ha hb (if_neg (by simp [hl])) : execPreempt c s = _),
      fun ha hl hf => (inTwo_ends ha hb (if_neg (by simp [hl, hf])) : execResume c s = _),
      kill_ends hb, bist_ends hb, fun v t ha => kill_ends_reset hb ha,
      fun ha hr => (inTwo_ends ha hb (if_pos hr) : execReexec c s = _),
      fun v t q ha => flr_ends hb ha, flr_ends_gone hb, fun i hi => transfer_lost hb hi,
      fun a hf hd hi => ⟨fun ha => ⟨_, rfl, checkpoint_ends hb hf hd hi ha⟩, fun ha => restore_ends hb hf hd hi ha⟩⟩
end Sys2Proof.Claims

namespace Sys2Proof.Machine

/-! ### Stream slots beside memory traffic (R71, R328, R332)

A write, a walk, a record and a token's end leave every stream slot, in a context and in a frame. -/

/-- The stream slots of an owner: a frame that does not exist has none. -/
def State.slotTable (s : State) (h : Nat) : Option (Tbl Stream) :=
  (savedSlot h).elim (some (s.ctx h).st) fun e => (s.savedAt e.1 e.2).map (·.streams)

theorem slotTable_live {h : Nat} (hh : savedSlot h = none) (s : State) : s.slotTable h = some (s.ctx h).st := by
  rw [State.slotTable, hh, Option.elim_none]
theorem slotTable_saved {h v g : Nat} (hh : savedSlot h = some (v, g)) (s : State) : s.slotTable h = (s.savedAt v g).map (·.streams) := by
  rw [State.slotTable, hh, Option.elim_some]
theorem slotStream_eq (s : State) (h n : Nat) : s.slotStream h n = tget {} ((s.slotTable h).getD []) n := by
  unfold State.slotStream
  split
  next hh => rw [slotTable_live hh]; rfl
  next v g hh => rw [slotTable_saved hh]
theorem slotStream_congr {s t : State} {h : Nat} (e : t.slotTable h = s.slotTable h) (n : Nat) : t.slotStream h n = s.slotStream h n := by
  rw [slotStream_eq, slotStream_eq, e]
/-- A slot that is bound belongs to a context or to a frame that exists. -/
theorem slotTable_of_bound {s : State} {h n : Nat} (hb : (s.slotStream h n).bound = true) : (s.slotTable h).isSome := by
  rw [slotStream_eq] at hb
  cases ht : s.slotTable h with
  | none => rw [ht] at hb; cases hb
  | some l => rfl

theorem slotTable_of_eq {s t : State} (hc : t.ctxs = s.ctxs) (hv : t.vfs = s.vfs) (h : Nat) : t.slotTable h = s.slotTable h := by
  unfold State.slotTable State.savedAt State.ctx State.vf
  rw [hc, hv]
theorem modCtx_slotTable (s : State) (g : Nat) (f : Ctx → Ctx) (hf : ∀ c, (f c).st = c.st) (h : Nat) :
    (s.modCtx g f).slotTable h = s.slotTable h := by
  cases hh : savedSlot h with
  | none =>
    rw [slotTable_live hh, slotTable_live hh]
    by_cases hg : h = g
    · subst hg; rw [ctx_modCtx_self, hf]
    · rw [ctx_modCtx_ne _ _ _ _ hg]
  | some e => rw [slotTable_saved hh, slotTable_saved hh]; rfl
theorem modVf_savedAt (s : State) (v : Nat) (f : Vf → Vf) (hf : ∀ x, (f x).saved = x.saved) (w g : Nat) :
    (s.modVf v f).savedAt w g = s.savedAt w g := by
  by_cases hw : w = v
  · subst hw; simp only [State.savedAt, State.modVf, vf_setVf_self, hf]
  · simp only [State.savedAt, State.modVf, vf_setVf_ne _ _ _ _ hw]
theorem modVf_slotTable (s : State) (v : Nat) (f : Vf → Vf) (hf : ∀ x, (f x).saved = x.saved) (h : Nat) :
    (s.modVf v f).slotTable h = s.slotTable h := by
  cases hh : savedSlot h with
  | none => rw [slotTable_live hh, slotTable_live hh]; rfl
  | some e => rw [slotTable_saved hh, slotTable_saved hh, modVf_savedAt s v f hf]
/-- What a change of one frame leaves of each. -/
theorem savedAt_modSaved (s : State) (v g : Nat) (f : Saved → Saved) (w j : Nat) :
    (s.modSaved v g f).savedAt w j = if w = v ∧ j = g then (s.savedAt w j).map f else s.savedAt w j := by
  unfold State.modSaved State.savedAt State.modVf
  by_cases hw : w = v
  · subst hw
    rw [vf_setVf_self]
    cases hd : tget none (s.vf w).saved g with
    | none => by_cases hj : j = g <;> simp [hj, hd]
    | some d => by_cases hj : j = g <;> simp [hj, hd, tget_tset_ne]
  · rw [vf_setVf_ne _ _ _ _ hw, if_neg (fun e => hw e.1)]
theorem modSaved_slotTable (s : State) (v g : Nat) (f : Saved → Saved) (hf : ∀ d, (f d).streams = d.streams) (h : Nat) :
    (s.modSaved v g f).slotTable h = s.slotTable h := by
  cases hh : savedSlot h with
  | none => rw [slotTable_live hh, slotTable_live hh]; rfl
  | some e =>
    rw [slotTable_saved hh, slotTable_saved hh, savedAt_modSaved]
    split
    · cases s.savedAt e.1 e.2 with
      | none => rfl
      | some d => exact congrArg some (hf d)
    · rfl

section
variable (s : State) (h : Nat)

@[simp] theorem modDealer_slotTable (f : Dealer → Dealer) : (s.modDealer f).slotTable h = s.slotTable h := slotTable_of_eq rfl rfl h
@[simp] theorem modTower_slotTable (t : Nat) (f : Tower → Tower) : (s.modTower t f).slotTable h = s.slotTable h := slotTable_of_eq rfl rfl h
@[simp] theorem modQuad_slotTable (q : Nat) (f : Quad → Quad) : (s.modQuad q f).slotTable h = s.slotTable h := slotTable_of_eq rfl rfl h
@[simp] theorem cleanLines_slotTable (p : Nat → Bool) : (s.cleanLines p).slotTable h = s.slotTable h := slotTable_of_eq rfl rfl h
@[simp] theorem enqueue_slotTable (e : WqEntry) : (s.enqueue e).slotTable h = s.slotTable h := slotTable_of_eq rfl rfl h
@[simp] theorem clearCovered_slotTable (l : List (Nat × Byte)) : (s.clearCovered l).slotTable h = s.slotTable h := slotTable_of_eq rfl rfl h
@[simp] theorem mapCmds_slotTable (f : Cmd → Cmd) : (s.mapCmds f).slotTable h = s.slotTable h := slotTable_of_eq rfl rfl h
@[simp] theorem notice_slotTable (vf g pc code : Nat) (l : Option Nat) (a : Word) : (s.notice vf g pc code l a).slotTable h = s.slotTable h :=
  slotTable_of_eq rfl rfl h
@[simp] theorem vfSat_slotTable (v i j n : Nat) : (s.vfSat v i j n).slotTable h = s.slotTable h := modVf_slotTable s v _ (fun _ => by rfl) h
@[simp] theorem countBytes_slotTable (pa n : Nat) : (s.countBytes pa n).slotTable h = s.slotTable h :=
  foldl_same (State.slotTable · h) _ (fun _ _ => modTower_slotTable _ _ _ _) _ s
@[simp] theorem countSoft_slotTable (v pa n : Nat) : (s.countSoft v pa n).slotTable h = s.slotTable h :=
  foldl_same (State.slotTable · h) _ (fun _ _ => vfSat_slotTable _ _ _ _ _ _) _ s
@[simp] theorem countBad_slotTable (v pa n : Nat) : (s.countBad v pa n).slotTable h = s.slotTable h :=
  foldl_same (State.slotTable · h) _ (fun _ _ => vfSat_slotTable _ _ _ _ _ _) _ s
@[simp] theorem markWalk_slotTable (v a : Nat) : (s.markWalk v a).slotTable h = s.slotTable h := by
  unfold State.markWalk
  split
  · rfl
  · exact modVf_slotTable _ _ _ (fun _ => by rfl) _
@[simp] theorem keepWalk_slotTable (v : Nat) (l : List (Nat × Word)) : (s.keepWalk v l).slotTable h = s.slotTable h := by
  unfold State.keepWalk
  split
  · rfl
  · exact (modVf_slotTable _ _ _ (fun _ => by rfl) _).trans (foldl_same (State.slotTable · h) _ (fun _ _ => countSoft_slotTable _ _ _ _ _) _ _)
@[simp] theorem walkKept_slotTable (v : Nat) (va : Word) : (s.walkKept v va).slotTable h = s.slotTable h := by
  unfold State.walkKept
  dsimp only
  split <;> simp
@[simp] theorem packetWalks_slotTable (v p : Nat) : (s.packetWalks v p).slotTable h = s.slotTable h := by
  unfold State.packetWalks
  dsimp only
  split <;> simp
end

/-- A fired packet leaves the contexts and the functions: it rings a doorbell, or queues a write. -/
theorem ringTail_offices {s t : State} {v pa : Nat} (e : s.ringTail v pa = some t) : t.ctxs = s.ctxs ∧ t.vfs = s.vfs := by
  unfold State.ringTail at e
  split at e
  · split at e <;> cases e
    exact ⟨rfl, rfl⟩
  · dsimp only at e
    split at e <;> cases e
    exact ⟨rfl, rfl⟩
theorem firePacket_offices {s t : State} {v p : Nat} (e : s.firePacket v p = some t) : t.ctxs = s.ctxs ∧ t.vfs = s.vfs := by
  unfold State.firePacket at e
  dsimp only at e
  split at e
  case h_1 =>
    obtain ⟨x, -, hx⟩ := Option.bind_eq_some_iff.1 e
    exact ringTail_offices hx
  all_goals
    obtain ⟨x, -, hx⟩ := Option.bind_eq_some_iff.1 e
    split at hx
  · cases hx
  · split at hx
    · split at hx <;> cases hx
      exact ⟨rfl, rfl⟩
    · obtain ⟨y, -, hy⟩ := Option.bind_eq_some_iff.1 hx
      split at hy <;> cases hy
      exact ⟨rfl, rfl⟩
  · cases hx
  · cases hx
    exact ⟨rfl, rfl⟩

section
variable (s : State) (h : Nat)
@[simp] theorem testTrigger_slotTable (w : Nat) : (s.testTrigger w).slotTable h = s.slotTable h := by
  unfold State.testTrigger
  split
  · rfl
  extract_lets t
  split
  · rfl
  next i _ =>
    extract_lets e fired quiet
    have hq : quiet.slotTable h = s.slotTable h := by simp [quiet, fired]
    split
    · split
      next hp =>
        obtain ⟨hc, hv⟩ := firePacket_offices hp
        exact (slotTable_of_eq hc hv h).trans hq
      next => exact (vfSat_slotTable _ _ _ _ _ _).trans hq
    · rfl

@[simp] theorem putByte_slotTable (pa : Nat) (v e : Byte) : (s.putByte pa v e).slotTable h = s.slotTable h := by
  unfold State.putByte
  split <;> exact slotTable_of_eq rfl rfl h
@[simp] theorem cacheFill_slotTable (n : Nat) (k : Bool) : (s.cacheFill n k).slotTable h = s.slotTable h := by
  unfold State.cacheFill
  extract_lets room l
  have hr : room.slotTable h = s.slotTable h := by
    unfold room
    repeat' split
    all_goals exact slotTable_of_eq rfl rfl h
  split
  · rfl
  · exact hr
@[simp] theorem storeCells_slotTable (pa : Nat) (cells : List Sys2Proof.Cell) (c : Nat) :
    (s.storeCells pa cells c).slotTable h = s.slotTable h := by
  unfold State.storeCells
  extract_lets filled stored cleaned
  have hf : filled.slotTable h = s.slotTable h := by
    unfold filled
    split
    · exact foldl_same (State.slotTable · h) _ (fun _ _ => cacheFill_slotTable _ _ _ _) _ _
    · rfl
  have hs : stored.slotTable h = s.slotTable h :=
    (foldl_same (State.slotTable · h) _ (fun _ _ => putByte_slotTable _ _ _ _ _) _ _).trans hf
  have hc : cleaned.slotTable h = s.slotTable h := by
    unfold cleaned
    split
    · exact (cleanLines_slotTable _ _ _).trans hs
    · exact hs
  exact (slotTable_of_eq rfl rfl h).trans hc
@[simp] theorem performWrite_slotTable (pa : Nat) (cells : List Sys2Proof.Cell) (c : Nat) :
    (s.performWrite pa cells c).slotTable h = s.slotTable h :=
  (foldl_same (State.slotTable · h) _ (fun t => testTrigger_slotTable t h) _ _).trans (storeCells_slotTable s h pa cells c)
@[simp] theorem framePut_slotTable (v g off n val : Nat) : (s.framePut v g off n val).slotTable h = s.slotTable h :=
  performWrite_slotTable _ _ _ _ _

/-! A record, and what an access meets. -/

theorem post_st (c : Ctx) (r : EvRec) : (c.post r).st = c.st := (congrArg Ctx.st (post_offRecords c r) :)
@[simp] theorem framePost_slotTable (v g : Nat) (r : EvRec) : (s.framePost v g r).slotTable h = s.slotTable h := by
  unfold State.framePost
  extract_lets cfg n recent old l put told
  have hp : put.slotTable h = s.slotTable h := foldl_same (State.slotTable · h) _ (fun _ _ => framePut_slotTable _ _ _ _ _ _ _) _ _
  have ht : told.slotTable h = s.slotTable h := (modSaved_slotTable _ _ _ _ (fun _ => by rfl) _).trans hp
  clear_value told
  split
  · exact (framePut_slotTable _ _ _ _ _ _ _).trans ht
  · exact (modCtx_slotTable _ _ _ (fun _ => by rfl) _).trans ((framePut_slotTable _ _ _ _ _ _ _).trans ht)
@[simp] theorem postTo_slotTable (v g : Nat) (r : EvRec) : (s.postTo v g r).slotTable h = s.slotTable h := by
  unfold State.postTo
  split
  · exact modCtx_slotTable _ _ _ (fun c => post_st c r) _
  · split <;> simp
@[simp] theorem tellSoft_slotTable (v g u : Nat) : (s.tellSoft v g u).slotTable h = s.slotTable h := by
  unfold State.tellSoft
  split <;> simp
@[simp] theorem eccMet_slotTable (v g pa n : Nat) : (s.eccMet v g pa n).slotTable h = s.slotTable h :=
  (foldl_same (State.slotTable · h) _ (fun _ _ => by simp) _ _).trans (countBad_slotTable s h v pa n)
@[simp] theorem engineMeets_slotTable (k : Cmd) (pa n : Nat) : (s.engineMeets k pa n).slotTable h = s.slotTable h :=
  eccMet_slotTable _ _ _ _ _ _
@[simp] theorem fillWalkFor_slotTable (v g : Nat) (x : Xlate) : (s.fillWalkFor v g x).slotTable h = s.slotTable h :=
  (foldl_same (State.slotTable · h) _ (fun _ _ => tellSoft_slotTable _ _ _ _ _) _ _).trans (keepWalk_slotTable s h v x.fills)
@[simp] theorem walked_slotTable (v g : Nat) (va : Word) : (s.walked v g va).slotTable h = s.slotTable h := by
  have ht : (s.walkTold v g (s.walkOf v va)).slotTable h = s.slotTable h :=
    (foldl_same (State.slotTable · h) _ (fun _ _ => tellSoft_slotTable _ _ _ _ _) _ _).trans (keepWalk_slotTable s h v _)
  unfold State.walked
  dsimp only
  split <;> simp [ht]

/-! An entry of the write queues, and a write behind them. -/

@[simp] theorem incrementFlag_slotTable (v g pa n c : Nat) : (s.incrementFlag v g pa n c).slotTable h = s.slotTable h := by
  unfold State.incrementFlag
  dsimp only
  split <;> simp
@[simp] theorem settleLine_slotTable (m : Mods) (pa : Nat) : (s.settleLine m pa).slotTable h = s.slotTable h := by
  unfold State.settleLine
  split <;> simp
@[simp] theorem performEntry_slotTable (e : WqEntry) : (s.performEntry e).slotTable h = s.slotTable h := by
  unfold State.performEntry
  split
  next cells _ =>
    split
    · simp
    · split
      · simp
      · split <;> simp
  next i w vals n _ =>
    split
    · exact (postTo_slotTable _ _ _ _ _).trans ((vfSat_slotTable _ _ _ _ _ _).trans (slotTable_of_eq rfl rfl h))
    · refine (settleLine_slotTable _ _ _ _).trans (foldl_same (State.slotTable · h) _ (fun t x => ?_) _ _)
      dsimp only
      split <;> simp
  next n _ => split <;> simp
@[simp] theorem applyEntry_slotTable (n : Nat) : (s.applyEntry n).slotTable h = s.slotTable h := by
  unfold State.applyEntry
  split
  · exact (performEntry_slotTable _ _ _).trans (slotTable_of_eq rfl rfl h)
  · rfl
@[simp] theorem drainLine_slotTable (pa : Nat) : (s.drainLine pa).slotTable h = s.slotTable h :=
  foldl_same (State.slotTable · h) _ (fun t => applyEntry_slotTable t h) _ _
@[simp] theorem portWrite_slotTable (pa : Nat) (cells : List Sys2Proof.Cell) (c : Nat) :
    (s.portWrite pa cells c).slotTable h = s.slotTable h :=
  (performWrite_slotTable _ _ _ _ _).trans (foldl_same (State.slotTable · h) _ (fun _ _ => drainLine_slotTable _ _ _) _ _)

/-! The end of a command that gives no register. -/

theorem finish_st (c : Ctx) (k : Cmd) (err : Bool) : (c.finish k err).st = c.st := by
  unfold Ctx.finish
  dsimp only
  split <;> rfl
@[simp] theorem frameFinish_slotTable (k : Cmd) (err : Bool) : (s.frameFinish k err).slotTable h = s.slotTable h := by
  unfold State.frameFinish
  dsimp only
  split
  · split
    · exact (modSaved_slotTable _ _ _ _ (fun _ => by rfl) _).trans (framePut_slotTable _ _ _ _ _ _ _)
    · rfl
  · rfl
theorem giveTo_nothing_slotTable (k : Cmd) : (s.giveTo k []).slotTable h = s.slotTable h := by
  unfold State.giveTo
  split
  · exact modCtx_slotTable _ _ _ (fun _ => by rfl) _
  · split <;> rfl
theorem endCmd_slotTable (k : Cmd) (payload : Nat) (always : Bool) : (s.endCmd k [] payload always).slotTable h = s.slotTable h := by
  unfold State.endCmd
  extract_lets code err counted r told noticed chained given
  have hc : counted.slotTable h = s.slotTable h := by
    unfold counted
    split
    · rfl
    · exact modVf_slotTable _ _ _ (fun _ => by rfl) _
  have ht : told.slotTable h = s.slotTable h := by
    unfold told
    split <;> simp [hc]
  have hn : noticed.slotTable h = s.slotTable h := by
    unfold noticed
    split <;> simp [ht]
  have hch : chained.slotTable h = s.slotTable h := by
    unfold chained
    split <;> simp [State.chainTo, hn]
  have hg : given.slotTable h = s.slotTable h := (giveTo_nothing_slotTable _ _ _).trans hch
  split
  · exact (modCtx_slotTable _ _ _ (fun c => finish_st c k err) _).trans hg
  · split <;> simp [hg]
end

/-- A slot reads as it was set, in a context and in a frame that exists. -/
theorem slotStream_setSlotStream {s : State} {h : Nat} (hs : (s.slotTable h).isSome) (n : Nat) (t : Stream) :
    (s.setSlotStream h n t).slotStream h n = t := by
  rw [slotStream_eq]
  unfold State.setSlotStream
  split
  next hh =>
    rw [slotTable_live hh, ctx_modCtx_self]
    exact tget_tset_self _ _ _ _
  next v g hh =>
    have hput := framePut_slotTable s h v g (0x10B40 + 64 * n) 64 (t.image (s.frameGet v g (0x10B40 + 64 * n) 64))
    rw [slotTable_saved hh] at hs hput
    rw [slotTable_saved hh] at hput
    rw [slotTable_saved hh, savedAt_modSaved, if_pos ⟨rfl, rfl⟩]
    obtain ⟨l, hl⟩ := Option.isSome_iff_exists.1 hs
    rw [hl] at hput
    obtain ⟨d, hd, -⟩ := Option.map_eq_some_iff.1 hput
    rw [hd]
    exact tget_tset_self _ _ _ _
end Sys2Proof.Machine

namespace Sys2Proof.Machine

/-! ### What an engine reads (R247, R281)

A read counts and tells of what it meets, and its walk is kept; for the engine of a live context neither touches memory. -/

/-- What this package reads a byte from. -/
def State.store (s : State) : List Host.Cell × List (Nat × CacheLine) := (s.mem, s.cache)
theorem byte_congr {s t : State} (h : t.store = s.store) (pa : Nat) : t.byte pa = s.byte pa := by
  have hm : t.mem = s.mem := congrArg Prod.fst h
  have hc : t.cache = s.cache := congrArg Prod.snd h
  unfold State.byte
  rw [hm, hc]
theorem readLe_congr {s t : State} (h : t.store = s.store) (pa n : Nat) : t.readLe pa n = s.readLe pa n := by
  induction n generalizing pa with
  | zero => rfl
  | succ n ih => rw [State.readLe, State.readLe, byte_congr h, ih]
theorem readElem_congr {s t : State} (h : t.store = s.store) (pa a w : Nat) : t.readElem pa a w = s.readElem pa a w := by
  rw [State.readElem, State.readElem, readLe_congr h]

section
variable (s : State)
theorem vfSat_store (v i j n : Nat) : (s.vfSat v i j n).store = s.store := rfl
theorem countSoft_store (v pa n : Nat) : (s.countSoft v pa n).store = s.store := foldl_same State.store _ (fun _ _ => by rfl) _ s
theorem countBad_store (v pa n : Nat) : (s.countBad v pa n).store = s.store := foldl_same State.store _ (fun _ _ => by rfl) _ s
theorem keepWalk_store (v : Nat) (l : List (Nat × Word)) : (s.keepWalk v l).store = s.store := by
  unfold State.keepWalk
  split
  · rfl
  · exact foldl_same State.store _ (fun t _ => countSoft_store t _ _ _) _ _

variable {g : Nat} (hg : g < 3072)
include hg
theorem tellSoft_live_store (v u : Nat) : (s.tellSoft v g u).store = s.store := by
  rw [State.tellSoft, State.postTo, if_pos hg]
  split
  · rfl
  · rfl
theorem eccMet_live_store (v pa n : Nat) : (s.eccMet v g pa n).store = s.store :=
  (foldl_same State.store _ (fun t u => (tellSoft_live_store _ hg v u).trans (vfSat_store t v _ _ _)) _ _).trans (countBad_store s v pa n)
theorem fillWalkFor_live_store (v : Nat) (x : Xlate) : (s.fillWalkFor v g x).store = s.store :=
  (foldl_same State.store _ (fun t u => tellSoft_live_store t hg v u) _ _).trans (keepWalk_store s v x.fills)
end

/-! ### One element of a tile (R56, R258-R260, R329, R330) -/

section Element
variable {k : Cmd} {l : Layout} {h : VShape} {tile i : Nat} {a : TileAcc}
/-- A masked element is not written, and is FILL as it is read. -/
theorem put_masked (data : Tile) (hv : h.valid i = false) : TileAcc.put k l h tile data a i = a := by
  rw [TileAcc.put, if_pos (by simp [hv])]

variable (hf : a.fault = none)
include hf
theorem fetch_masked (hv : h.valid i = false) : a.fetch k l h tile i = { a with vals := a.vals ++ [l.fillBits] } := by
  rw [TileAcc.fetch, if_neg (by simp [hf]), if_pos (by simp [hv])]

variable (hv : h.valid i = true)
include hv
/-- One outside the view is counted, and is FILL as it is read. -/
theorem fetch_outside (hx : l.tileElem h tile i = none) :
    a.fetch k l h tile i = { a with vals := a.vals ++ [l.fillBits], oob := a.oob + 1 } := by
  rw [TileAcc.fetch, if_neg (by simp [hf]), if_neg (by simp [hv]), hx]
theorem put_outside (data : Tile) (hx : l.tileElem h tile i = none) : TileAcc.put k l h tile data a i = { a with oob := a.oob + 1 } := by
  rw [TileAcc.put, if_neg (by simp [hf, hv]), hx]

variable {x : List (Nat × Nat)} (hx : l.tileElem h tile i = some x)
include hx
/-- A pad is FILL as it is read, and not written. -/
theorem fetch_pad (hy : l.stored x = none) : a.fetch k l h tile i = { a with vals := a.vals ++ [l.fillBits] } := by
  rw [TileAcc.fetch, if_neg (by simp [hf]), if_neg (by simp [hv]), hx]
  simp only [hy]
theorem put_pad (data : Tile) (hy : l.stored x = none) : TileAcc.put k l h tile data a i = a := by
  rw [TileAcc.put, if_neg (by simp [hf, hv]), hx]
  simp only [hy]

variable {y : List Nat} (hy : l.stored x = some y)
include hy
/-- A stored element faults, meets an error, or is read as it stands in memory. -/
theorem fetch_faults {c e : Nat} {va : Word} {m : Option Nat}
    (hp : a.s.xlate k.vf (byteOf (l.bitAddr y)) true false 0 = .error (.fault c e va m)) :
    a.fetch k l h tile i = { a with fault := some (c, byteOf (l.bitAddr y)) } := by
  rw [TileAcc.fetch, if_neg (by simp [hf]), if_neg (by simp [hv]), hx]
  simp only [hy, hp]
theorem fetch_unreached {p : Xlate} {e : Nat} (hp : a.s.xlate k.vf (byteOf (l.bitAddr y)) true false 0 = .ok p)
    (he : a.s.accessError p = some e) : a.fetch k l h tile i = { a with vals := a.vals ++ [2 ^ l.w - 1], errs := e :: a.errs } := by
  rw [TileAcc.fetch, if_neg (by simp [hf]), if_neg (by simp [hv]), hx]
  simp only [hy, hp, he]
theorem fetch_reads {p : Xlate} (hp : a.s.xlate k.vf (byteOf (l.bitAddr y)) true false 0 = .ok p) (he : a.s.accessError p = none)
    (ht : tierOf p.pa < 4) (hg : k.g < 3072) :
    (a.fetch k l h tile i).vals = a.vals ++ [a.s.readElem p.pa (l.bitAddr y) l.w] ∧ (a.fetch k l h tile i).oob = a.oob ∧
      (a.fetch k l h tile i).fault = none := by
  rw [TileAcc.fetch, if_neg (by simp [hf]), if_neg (by simp [hv]), hx]
  simp only [hy, hp, he]
  refine ⟨congrArg (fun v => a.vals ++ [v]) (readElem_congr ?_ _ _ _), trivial, hf⟩
  rw [State.cacheRead, if_pos (Or.inl ht)]
  exact (foldl_same State.store _ (fun t u => eccMet_live_store t hg _ _ _) _ _).trans (fillWalkFor_live_store _ hg _ _)

/-- A stored element meets an error, or is written behind what waits for its line. -/
theorem put_unreached (data : Tile) {p : Xlate} {e : Nat} (hp : a.s.xlate k.vf (byteOf (l.bitAddr y)) false true 0 = .ok p)
    (he : a.s.accessError p = some e) : TileAcc.put k l h tile data a i = { a with errs := e :: a.errs } := by
  rw [TileAcc.put, if_neg (by simp [hf, hv]), hx]
  simp only [hy, hp, he]
theorem put_writes (data : Tile) {p : Xlate} (hp : a.s.xlate k.vf (byteOf (l.bitAddr y)) false true 0 = .ok p)
    (he : a.s.accessError p = none) : let b := TileAcc.put k l h tile data a i
    b.s = (a.s.fillWalkFor k.vf k.g p).portWrite p.pa (elemCells (l.bitAddr y) l.w (elem l.w data i)) 0 ∧ b.fault = none ∧
      b.room = (a.room && a.s.portRoom p.pa) := by
  dsimp only
  rw [TileAcc.put, if_neg (by simp [hf, hv]), hx]
  simp only [hy, hp, he]
  exact ⟨trivial, hf, trivial⟩
end Element

/-- Writing a tile leaves the stream slots. -/
theorem put_slotTable (k : Cmd) (l : Layout) (h : VShape) (tile : Nat) (data : Tile) (o : Nat) (a : TileAcc) (i : Nat) :
    (TileAcc.put k l h tile data a i).s.slotTable o = a.s.slotTable o := by
  unfold TileAcc.put
  dsimp only
  repeat' split
  all_goals simp

/-! ### The next access of a stream's engine (R329, R330, R332) -/

section Next
variable {s : State} {g n : Nat} {l : Layout} {h : VShape} {w : Nat} (hw : (s.slotStream g n).walk = some (l, h, w))
  (ha : s.streamAsks g (s.slotStream g n) = true) (hd : (s.slotStream g n).due ≤ s.tick)
include hw ha hd
theorem streamNext_in (ho : (s.slotStream g n).out = false) : s.streamNext g n = some ((List.range (elems w)).foldl
    (TileAcc.fetch (s.streamCmd g (s.slotStream g n)) l h (s.slotStream g n).next) { s := s }) := by
  unfold State.streamNext
  simp only [hw]
  rw [if_neg (by simp [ha, hd]), if_neg (by simp [ho])]
theorem streamNext_out (ho : (s.slotStream g n).out = true) {i : Nat} {data : Tile} {rest : List (Nat × Tile)}
    (ht : (s.slotStream g n).tiles = (i, data) :: rest) :
    let a := ((List.range (elems w)).foldl (TileAcc.put (s.streamCmd g (s.slotStream g n)) l h i data) { s := s }).done
    s.streamNext g n = if a.room then some a else none := by
  unfold State.streamNext
  simp only [hw]
  rw [if_neg (by simp [ha, hd]), if_pos ho]
  simp only [ht]
end Next

/-- An engine that can make an access has one to make. -/
theorem streamAsks_of_next {s : State} {g n : Nat} {a : TileAcc} (hn : s.streamNext g n = some a) :
    s.streamAsks g (s.slotStream g n) = true := by
  unfold State.streamNext at hn
  dsimp only at hn
  split at hn
  · cases hn
  · split at hn
    · cases hn
    · next hna =>
      by_contra hc
      exact hna (Or.inl (by simp [hc]))
theorem bound_of_asks {s : State} {g : Nat} {t : Stream} (h : s.streamAsks g t = true) : t.bound = true := by
  simp only [State.streamAsks, Bool.and_eq_true, and_assoc] at h
  obtain ⟨hb, -⟩ := h
  exact hb
/-- A tile is fetched for a live context alone, and one that is written leaves the stream slots. -/
theorem live_of_fetch {s : State} {g n : Nat} {a : TileAcc} (hn : s.streamNext g n = some a) (ho : (s.slotStream g n).out = false) :
    savedSlot g = none := by
  have hs := streamAsks_of_next hn
  simp only [State.streamAsks, ho, Bool.and_eq_true, Bool.false_eq_true, if_false, Option.isNone_iff_eq_none, and_assoc] at hs
  obtain ⟨-, -, -, hg, -⟩ := hs
  exact hg
theorem slotTable_of_write {s : State} {g n : Nat} {a : TileAcc} (hn : s.streamNext g n = some a) (ho : (s.slotStream g n).out = true)
    (h : Nat) : a.s.slotTable h = s.slotTable h := by
  unfold State.streamNext at hn
  dsimp only at hn
  split at hn
  · cases hn
  · split at hn
    · cases hn
    · split at hn
      next i data rest _ =>
        split at hn <;> cases hn
        exact (clearCovered_slotTable _ _ _).trans
          (foldl_same (fun b : TileAcc => b.s.slotTable h) _ (fun b j => put_slotTable _ _ _ _ _ h b j) _ _)
      next => cases hn

/-! ### The events of a stream (R329-R332) -/

/-- Every bit of a tile is written. -/
theorem allBits_4096 : allBits 4096 = BitVec.allOnes 4096 := by
  refine BitVec.eq_of_getLsbD_eq fun i hi => ?_
  rw [allBits, BitVec.getLsbD_ofNat, Nat.testBit_two_pow_sub_one, BitVec.getLsbD_allOnes, decide_eq_true hi, Bool.and_self]
theorem merged_all (v old : Tile) : merged v (allBits 4096) old = v := by
  rw [merged_tile, allBits_4096, BitVec.not_allOnes, BitVec.and_zero, BitVec.zero_or, BitVec.and_allOnes]

/-- A tile register takes what is written, and the other cluster's tiles and the scalars stay. -/
theorem write_tileA_beside (c : Ctx) (n : Nat) (v e : Tile) :
    (c.write ⟨.va, n⟩ v e).vb = c.vb ∧ (c.write ⟨.va, n⟩ v e).sreg = c.sreg := by
  rw [← refreshed_vb c ⟨.va, n⟩ e, ← refreshed_sreg c ⟨.va, n⟩ e]
  exact ⟨rfl, rfl⟩
theorem write_tileB_beside (c : Ctx) (n : Nat) (v e : Tile) :
    (c.write ⟨.vb, n⟩ v e).va = c.va ∧ (c.write ⟨.vb, n⟩ v e).sreg = c.sreg := by
  rw [← refreshed_va c ⟨.vb, n⟩ e, ← refreshed_sreg c ⟨.vb, n⟩ e]
  exact ⟨rfl, rfl⟩

section Events
variable {s : State} {g n : Nat}

/-- A tile that has been fetched waits behind those fetched before it. -/
theorem streamTileFetch_claim {a : TileAcc} (hn : s.streamNext g n = some a) (ho : (s.slotStream g n).out = false)
    (hf : a.fault = none) : let t := s.slotStream g n
    ∃ u, exec (.streamTileFetch g n) s = .next u ∧
      let t' := u.slotStream g n
      t'.tiles = t.tiles ++ [(t.next, packTile ((t.walk.map fun x => x.2.2).getD 8) a.vals)] ∧ t'.next = t.next + 1 ∧
        t'.passed = t.passed ∧ t'.oob = t.oob + a.oob := by
  intro t
  have hs : (a.s.slotTable g).isSome := by rw [slotTable_live (live_of_fetch hn ho)]; rfl
  have he : execStreamTileFetch g n s = .next (a.s.setSlotStream g n (s.streamAsk g { t.met a with
      tiles := t.tiles ++ [(t.next, packTile ((t.walk.map fun x => x.2.2).getD 8) a.vals)], next := t.next + 1 })) := by
    rw [execStreamTileFetch, hn]
    exact event_pos (by simp [ho, hf])
  refine ⟨_, he, ?_⟩
  rw [slotStream_setSlotStream hs]
  exact ⟨rfl, rfl, rfl, rfl⟩

/-- A tile lands in, and is taken from, a live context alone. -/
theorem live_of_canLand (hl : s.canLand g n = true) : savedSlot g = none := by
  simp only [State.canLand, Bool.and_eq_true, Option.isNone_iff_eq_none, and_assoc] at hl
  obtain ⟨hg, -⟩ := hl
  exact hg
theorem live_of_canTake (hc : s.canTake g n = true) : savedSlot g = none := by
  simp only [State.canTake, Bool.and_eq_true, Option.isNone_iff_eq_none, and_assoc] at hc
  obtain ⟨hg, -⟩ := hc
  exact hg

/-- The first tile of a slot lands in its register. -/
theorem streamTileLand_claim {i : Nat} {data : Tile} {rest : List (Nat × Tile)} (hl : s.canLand g n = true)
    (ht : (s.slotStream g n).tiles = (i, data) :: rest) : let t := s.slotStream g n
    ∃ u, exec (.streamTileLand g n) s = .next u ∧
      (u.slotStream g n).rfull = true ∧ (u.slotStream g n).tiles = rest ∧
        (t.cluster = false → (u.ctx g).va = tset 0 (s.ctx g).va t.reg data ∧ (u.ctx g).vb = (s.ctx g).vb) ∧
        (t.cluster = true → (u.ctx g).vb = tset 0 (s.ctx g).vb t.reg data ∧ (u.ctx g).va = (s.ctx g).va) ∧
        (u.ctx g).sreg = (s.ctx g).sreg ∧ u.mem = s.mem := by
  intro t
  have hg := live_of_canLand hl
  have he : ∃ t' : Stream, t'.rfull = true ∧ t'.tiles = rest ∧ execStreamTileLand g n s = .next (s.modCtx g fun c =>
      (c.write ⟨if t.cluster then .vb else .va, t.reg⟩ data (allBits 4096)).setStream n t') := by
    refine ⟨if rest.length = 3 then s.streamAsk g { t with rfull := true, tiles := rest } else { t with rfull := true, tiles := rest },
      ?_, ?_, ?_⟩
    · split <;> rfl
    · split <;> rfl
    · unfold execStreamTileLand
      dsimp only
      rw [ht]
      exact event_pos hl
  obtain ⟨t', hr, htl, he⟩ := he
  have hm := merged_all data
  generalize allBits 4096 = e at he hm
  refine ⟨_, he, ?_⟩
  have hslot : (s.modCtx g fun c => (c.write ⟨if t.cluster then .vb else .va, t.reg⟩ data e).setStream n t').slotStream g n = t' := by
    rw [slotStream_eq, slotTable_live hg, ctx_modCtx_self]
    exact tget_tset_self _ _ _ _
  rw [hslot, ctx_modCtx_self]
  refine ⟨hr, htl, fun hc => ?_, fun hc => ?_, ?_, rfl⟩
  · rw [hc, if_neg Bool.false_ne_true]
    exact ⟨(write_tileA _ _ _ _).trans (by rw [hm]), (write_tileA_beside _ _ data _).1⟩
  · rw [hc, if_pos rfl]
    exact ⟨(write_tileB _ _ _ _).trans (by rw [hm]), (write_tileB_beside _ _ data _).1⟩
  · cases t.cluster
    · exact (write_tileA_beside _ _ data _).2
    · exact (write_tileB_beside _ _ data _).2

/-- The tile of an output slot's register is taken. -/
theorem streamTileTake_takes (hc : s.canTake g n = true) : let t := s.slotStream g n
    ∃ u, exec (.streamTileTake g n) s = .next u ∧
      let t' := u.slotStream g n
      t'.rfull = false ∧ t'.passed = t.passed + 1 ∧
        t'.tiles = t.tiles ++ [(t.passed, (s.ctx g).tile (if t.cluster then .b else .a) t.reg)] ∧ u.mem = s.mem := by
  intro t
  have hg := live_of_canTake hc
  have he : ∃ t' : Stream, (t'.rfull = false ∧ t'.passed = t.passed + 1 ∧
      t'.tiles = t.tiles ++ [(t.passed, (s.ctx g).tile (if t.cluster then .b else .a) t.reg)]) ∧
      execStreamTileTake g n s = .next (s.setSlotStream g n t') := by
    unfold execStreamTileTake
    dsimp only
    rw [if_pos hc]
    refine ⟨_, ?_, rfl⟩
    split <;> exact ⟨rfl, rfl, rfl⟩
  obtain ⟨t', ⟨hr, hp, htl⟩, he⟩ := he
  refine ⟨_, he, ?_⟩
  have hs : (s.slotTable g).isSome := by rw [slotTable_live hg]; rfl
  rw [slotStream_setSlotStream hs]
  exact ⟨hr, hp, htl, by rw [State.setSlotStream, hg]; rfl⟩

/-- The first tile that was taken is written; at POD scope the dirty lines are written back. -/
theorem streamTileTake_writes {a : TileAcc} (hc : s.canTake g n = false) (hn : s.streamNext g n = some a)
    (ho : (s.slotStream g n).out = true) (hf : a.fault = none) : let t := s.slotStream g n
    ∃ u, exec (.streamTileTake g n) s = .next u ∧
      (u.slotStream g n).tiles = t.tiles.drop 1 ∧ (u.slotStream g n).passed = t.passed ∧
        (savedSlot g = none → u.mem = (if t.scope = 5 then a.s.cleanLines fun _ => true else a.s).mem) := by
  intro t
  let w := if t.scope = 5 then a.s.cleanLines fun _ => true else a.s
  let t' := s.streamAsk g { t.met a with tiles := t.tiles.drop 1 }
  have he : execStreamTileTake g n s = .next ((w.setSlotStream g n t').modQuad (quadOf (ownerSlot g)) fun q =>
      { q with ctr := ctrWrap q.ctr 0x24 0 ((a.bytes + 7) / 8) }) := by
    unfold execStreamTileTake
    dsimp only
    rw [if_neg (by simp [hc]), hn]
    exact event_pos (by simp [ho, hf])
  have hw : (w.slotTable g).isSome := by
    have hs := slotTable_of_bound (bound_of_asks (streamAsks_of_next hn))
    rw [← slotTable_of_write hn ho g] at hs
    unfold w
    split
    · rwa [cleanLines_slotTable]
    · exact hs
  refine ⟨_, he, ?_⟩
  rw [slotStream_congr (modQuad_slotTable _ _ _ _), slotStream_setSlotStream hw]
  exact ⟨rfl, rfl, fun hg => by rw [modQuad_mem, State.setSlotStream, hg]; rfl⟩

/-- An element that meets a fault holds the stream, and the Dealer hears of it. -/
theorem streamFault_claim {a : TileAcc} {code : Nat} {va : Word} (hn : s.streamNext g n = some a) (hf : a.fault = some (code, va)) :
    let t := s.slotStream g n
    ∃ u, exec (.engineTranslationFault (.stream g n)) s = .next u ∧ (u.slotStream g n).held = true ∧
      ∃ x ∈ u.dealer.notes, x.kind = 1 ∧ x.code = code ∧ x.g = ownerSlot g ∧ x.addr = va ∧
        x.point = if t.out then (t.tiles.head?.map (·.1)).getD t.next else t.next := by
  intro t
  let k := s.streamCmd g t
  have he : ∃ (r : EvRec) (x : FaultNote), execStreamFault g n s = .next ((((s.walked k.vf k.g va).setSlotStream g n
      { t with held := true }).postTo k.vf k.g r).modDealer fun d => { d with notes := d.notes ++ [x] }) ∧
      x.kind = 1 ∧ x.code = code ∧ x.g = ownerSlot g ∧ x.addr = va ∧ x.point = t.place := by
    unfold execStreamFault State.streamFault
    simp only [hn, hf, Option.getD_some]
    exact ⟨_, _, rfl, rfl, rfl, rfl, rfl, rfl⟩
  obtain ⟨r, x, he, hx⟩ := he
  have hs : ((s.walked k.vf k.g va).slotTable g).isSome := by
    rw [walked_slotTable]
    exact slotTable_of_bound (bound_of_asks (streamAsks_of_next hn))
  refine ⟨_, he, ?_, x, List.mem_append_right _ (List.mem_singleton_self _), hx⟩
  rw [slotStream_congr ((modDealer_slotTable _ _ _).trans (postTo_slotTable _ _ _ _ _)), slotStream_setSlotStream hs]

/-- A stream that is over leaves its slot unbound and without tiles. -/
theorem streamEnd_claim (ho : s.streamOver g n = true) : ∃ u, exec (.streamEnd g n) s = .next u ∧ (u.slotStream g n).bound = false ∧
    (u.slotStream g n).tiles = [] := by
  have hb : (s.slotStream g n).bound = true := by
    simp only [State.streamOver, Bool.and_eq_true, and_assoc] at ho
    obtain ⟨hb, -⟩ := ho
    exact hb
  refine ⟨_, (event_pos ho : execStreamEnd g n s = _), ?_⟩
  unfold State.endStream
  dsimp only
  rw [slotStream_congr (endCmd_slotTable _ _ _ _ _), slotStream_setSlotStream (slotTable_of_bound hb)]
  split <;> exact ⟨rfl, rfl⟩
end Events
end Sys2Proof.Machine

namespace Sys2Proof.Claims
open Sys2Proof.Machine

/-- Settles O43: an element is one case of its shape, its view and its translation; a slot reads as its event sets it, and memory traffic leaves
every slot. -/
theorem streamsMoveTiles : Obligations.StreamsMoveTiles := by
  unfold Obligations.StreamsMoveTiles
  refine ⟨fun k l h tile i a hf => ⟨fetch_masked hf, fetch_outside hf, fun x hv hx => fetch_pad hf hv hx,
      fun x y p hv hx hy hp he => fetch_reads hf hv hx hy hp he, fun x y p e hv hx hy hp => fetch_unreached hf hv hx hy hp,
      fun x y c e va m hv hx hy => fetch_faults hf hv hx hy⟩,
    fun k l h tile i data a hf => ⟨put_masked data, fun hv => put_outside hf hv data, fun x hv hx => put_pad hf hv hx data,
      fun x y p hv hx hy hp => put_writes hf hv hx hy data hp, fun x y p e hv hx hy hp => put_unreached hf hv hx hy data hp⟩,
    fun s g n => ⟨fun l h w hw hb hh hd => ⟨fun hg ho hu hst hl ht => streamNext_in hw ?_ hd ho, fun i data rest ho ht => ?_⟩,
      fun a hn ho hf => streamTileFetch_claim hn ho hf, fun i data rest hl ht => streamTileLand_claim hl ht, streamTileTake_takes,
      fun a hc hn ho hf => streamTileTake_writes hc hn ho hf, fun a code va hn hf => streamFault_claim hn hf, streamEnd_claim⟩⟩
  · simp [State.streamAsks, hb, hh, hw, hg, ho, hu, hst, hl, ht]
  · have ha : s.streamAsks g (s.slotStream g n) = true := by simp [State.streamAsks, hb, hh, hw, ho, ht]
    have hnext := streamNext_out hw ha hd ho ht
    exact ⟨fun hr => hnext.trans (if_pos hr), fun hr => hnext.trans (if_neg (ne_true_of_eq_false hr))⟩
end Sys2Proof.Claims

namespace Sys2Proof.Claims
open Sys2Proof.Machine

/-! ### Elementwise forms (R93, R160-R177) -/

/-- An immediate of an integer form is the extended immediate, cut to its width (R93). -/
theorem intImm_eq_imm64 (w : Nat) (u : Bool) (imm : BitVec 23) : intImm w u imm = (imm64 u imm).toNat % 2 ^ w := by
  cases u with
  | false => exact congrArg (· % 2 ^ w) (wrapInt_toNat 64 imm.toInt)
  | true =>
    have hlt : imm.toNat < 2 ^ 64 := imm.isLt.trans (by decide)
    exact congrArg (· % 2 ^ w) ((BitVec.toNat_setWidth 64 imm).trans (Nat.mod_eq_of_lt hlt)).symm
theorem intImm_count (u : Bool) (imm : BitVec 23) : intImm 64 u imm = (imm64 u imm).toNat :=
  (intImm_eq_imm64 64 u imm).trans (Nat.mod_eq_of_lt (imm64 u imm).isLt)
theorem tileImm_eq_imm64 (o : FI) : tileImm o =
    if isFloat o.ty then bfImm o.ty o.imm.toNat else (imm64 o.v o.imm).toNat % 2 ^ fmtWidth o.ty := by
  rw [tileImm, intImm_eq_imm64]
/-- Each form with an immediate applies its function to the elements and that immediate (R160). -/
theorem exec_tilesI_imm (s : State) (p : Cl) (o : FI) : ∀ e ∈ tilesI p o,
    ∃ f, exec e.1 s = s.tileI e.1 p o e.2.1 f ∧ ∀ a, f a (tileImm o) = e.2.2 a := by
  simp only [tilesI, ← tileImm_eq_imm64]
  simp only [← intImm_count, List.forall_mem_cons, List.not_mem_nil, false_imp_iff, implies_true, and_true]
  simp only [exec, execVaddI, execVsubI, execVmulI, execVminI, execVmaxI, execVandI, execVorI, execVxorI, execVshlI, execVshrI, execVsarI]
  refine ⟨?_, ?_, ?_, ?_, ?_, ?_, ?_, ?_, ?_, ?_, ?_⟩ <;> exact ⟨_, rfl, fun _ => rfl⟩

section Fits
variable {s : State} {p : Cl} {i : Instr} (hr : s.operandsReady i = true)
include hr

/-- A tile form whose shape fits gives its function of its sources' elements. -/
theorem each_gives {sh msk : BitVec 3} {w : Nat} (h : shapeFits s sh w) (d : BitVec 7) (lat : Nat) (f : Nat → Nat) {g : State → Except Halt State}
    (hg : g (s.noted i) = (s.noted i).each p sh msk d w lat f) (he : exec i s = s.syl i g) : givesTile s i p sh msk d w lat f :=
  ⟨_, _, holds_pack w _ f, he.trans (syl_ok s i g hr (hg.trans (each_fits i h p msk d lat f)))⟩
theorem tile1_gives {o : FR} (h : shapeFits s o.sh (fmtWidth o.ty)) {n : Nat} {f : Nat → Nat} (he : exec i s = s.tile1 i p o n f) :
    givesTile s i p o.sh o.msk o.d (fmtWidth o.ty) (bound o.lat n) fun k => f (elem (fmtWidth o.ty) (s.rv p o.a) k) :=
  each_gives hr h _ _ _ rfl he
theorem tile2_gives {o : FR} (h : shapeFits s o.sh (fmtWidth o.ty)) {n : Nat} {f : Nat → Nat → Nat} (he : exec i s = s.tile2 i p o n f) :
    givesTile s i p o.sh o.msk o.d (fmtWidth o.ty) (bound o.lat n) fun k =>
      f (elem (fmtWidth o.ty) (s.rv p o.a) k) (elem (fmtWidth o.ty) (s.rv p o.b) k) :=
  each_gives hr h _ _ _ rfl he
theorem tile3_gives {o : FR} (h : shapeFits s o.sh (fmtWidth o.ty)) {n : Nat} {f : Nat → Nat → Nat → Nat}
    (he : exec i s = s.tile3 i p o n f) : givesTile s i p o.sh o.msk o.d (fmtWidth o.ty) (bound o.lat n) fun k =>
      f (elem (fmtWidth o.ty) (s.rv p o.a) k) (elem (fmtWidth o.ty) (s.rv p o.b) k) (elem (fmtWidth o.ty) (s.rv p o.c) k) :=
  each_gives hr h _ _ _ rfl he
theorem tileI_gives {o : FI} (h : shapeFits s o.sh (fmtWidth o.ty)) {n : Nat} {f : Nat → Nat → Nat} (he : exec i s = s.tileI i p o n f) :
    givesTile s i p o.sh o.msk o.d (fmtWidth o.ty) (bound o.lat n) fun k => f (elem (fmtWidth o.ty) (s.rv p o.a) k) (tileImm o) :=
  each_gives hr h _ _ _ rfl he
end Fits

/-- Settles O6: each form is one of four kinds, and each kind packs its function of its sources' elements, the active ones enabled. -/
theorem elementwiseTiles : Obligations.ElementwiseTiles := by
  unfold Obligations.ElementwiseTiles
  dsimp only
  refine ⟨fun s p o h => ⟨fun e he hr => ?_, fun e he hr => ?_, fun e he hr => ?_⟩, fun s p o h e he hr => ?_⟩
  · exact tile1_gives hr h (exec_tiles1 s p o e he).2
  · exact tile2_gives hr h (exec_tiles2 s p o e he).2
  · exact tile3_gives hr h (exec_tiles3 s p o e he).2
  · obtain ⟨f, hx, hf⟩ := exec_tilesI_imm s p o e he
    simpa only [hf] using tileI_gives hr h hx
end Sys2Proof.Claims

namespace Sys2Proof.Machine

/-! ### Tables written in one pass -/

section Table
variable {α β : Type} [DecidableEq α] {d : α}

/-- A pass whose writes of one key agree: that value, where it writes the key at all. -/
theorem tget_foldl_put (key : β → Nat) (val : β → α) {k : Nat} {a : α} (l : List β) (hv : ∀ b ∈ l, key b = k → val b = a) (t : Tbl α) :
    tget d (l.foldl (fun t b => tset d t (key b) (val b)) t) k = if ∃ b ∈ l, key b = k then a else tget d t k := by
  induction l generalizing t with
  | nil => simp
  | cons b l ih =>
    rw [List.foldl_cons, ih fun c hc => hv c (List.mem_cons_of_mem _ hc)]
    by_cases hl : ∃ c ∈ l, key c = k
    · simp [hl]
    · by_cases hb : key b = k
      · subst hb
        simp [hl, hv b List.mem_cons_self rfl]
      · simp [hl, hb, tget_tset_ne _ _ _ _ _ (Ne.symm hb)]
/-- A pass that changes each of some different entries once. -/
theorem tget_foldl_update (f : Nat → α → α) (l : List Nat) (hl : l.Nodup) (t : Tbl α) (k : Nat) :
    tget d (l.foldl (fun t i => tset d t i (f i (tget d t i))) t) k = if k ∈ l then f k (tget d t k) else tget d t k := by
  induction l generalizing t with
  | nil => simp
  | cons i l ih =>
    obtain ⟨hi, hl⟩ := List.nodup_cons.1 hl
    rw [List.foldl_cons, ih hl]
    by_cases hk : k = i
    · subst hk
      simp [hi]
    · simp [hk, tget_tset_ne _ _ _ _ _ hk]
omit [DecidableEq α] in
/-- The entries of some keys alone. -/
theorem tget_filter (p : Nat → Bool) (t : Tbl α) (k : Nat) : tget d (t.filter fun e => p e.1) k = if p k then tget d t k else d := by
  induction t with
  | nil => simp [tget]
  | cons e t ih =>
    by_cases hk : e.1 = k
    · subst hk
      cases hp : p e.1 <;> simp_all [tget]
    · cases hp : p e.1 <;> simp_all [tget]
/-- A table written over one that lists nothing at a key reads there as the table itself. -/
theorem tget_foldr_tset (l t : Tbl α) {k : Nat} (h : tget d t k = d) : tget d (l.foldr (fun e t => tset d t e.1 e.2) t) k = tget d l k := by
  induction l with
  | nil => exact h
  | cons e l ih =>
    by_cases hk : e.1 = k
    · subst hk
      simp [tget]
    · simp [tget, hk, ih, tget_tset_ne _ _ _ _ _ (Ne.symm hk)]
omit [DecidableEq α] in
/-- A change of every entry that leaves a field of each leaves the field of what is read. -/
theorem tget_map_keeps {γ : Type} (p : α → γ) (g : Nat × α → Nat × α) (hg : ∀ e, (g e).1 = e.1 ∧ p (g e).2 = p e.2) (t : Tbl α) (k : Nat) :
    p (tget d (t.map g) k) = p (tget d t k) := by
  induction t with
  | nil => rfl
  | cons e t ih =>
    obtain ⟨hi, hp⟩ := hg e
    by_cases hk : e.1 = k
    · simp [tget, hk, hi, hp]
    · simpa [tget, hk, hi] using ih
end Table

/-! ### Layers and accumulator words (R196, R199) -/

theorem mem_layersOf {m l : Nat} : l ∈ layersOf m ↔ l < 8 ∧ bit m l = true := by
  rw [layersOf, List.mem_filter, List.mem_range]
theorem nodup_layersOf (m : Nat) : (layersOf m).Nodup := List.nodup_range.filter _
theorem layersOf_two_pow {l : Nat} (h : l < 8) : layersOf (2 ^ l) = [l] := by
  interval_cases l <;> rfl

theorem accKey_div {t m n : Nat} (hm : m < 64) (hn : n < 64) : accKey t m n / 4096 = t := by
  unfold accKey
  omega
theorem accKey_inj {t u m n i j : Nat} (hm : m < 64) (hn : n < 64) (hi : i < 64) (hj : j < 64) :
    accKey t m n = accKey u i j ↔ t = u ∧ m = i ∧ n = j := by
  unfold accKey
  omega
/-- The words of the named targets are those of the other table. -/
theorem copyTargets_of_mem {ts : List Nat} {k : Nat} (h : k / 4096 ∈ ts) (dst src : Tbl (BitVec 32)) :
    tget 0 (copyTargets ts dst src) k = tget 0 src k := by
  have named : ts.contains (k / 4096) = true := by simpa using h
  have keep : tget 0 (dst.filter fun e => !ts.contains (e.1 / 4096)) k = 0 := by
    rw [tget_filter (fun i => !ts.contains (i / 4096)), named]
    rfl
  rw [copyTargets, tget_foldr_tset _ _ keep, tget_filter (fun i => ts.contains (i / 4096)), if_pos named]

/-! ### What the end of a command leaves of the cubes (R325) -/

theorem quads_of_aside {s t : State} (h : t.aside = s.aside) : t.quads = s.quads := (congrArg State.quads h :)
theorem frameGive_quads (s : State) (v g : Nat) (ws : List Give) : (s.frameGive v g ws).quads = s.quads := by
  refine foldl_same State.quads _ (fun t w => ?_) ws s
  dsimp only
  split
  · rfl
  · split
    · exact quads_of_aside ((modSaved_aside _ _ _ _).trans ((framePut_aside _ _ _ _ _ _).trans (framePut_aside _ _ _ _ _ _)))
    · exact quads_of_aside (framePut_aside _ _ _ _ _ _)
theorem giveTo_quads (s : State) (k : Cmd) (ws : List Give) : (s.giveTo k ws).quads = s.quads := by
  unfold State.giveTo
  split
  · rfl
  · split
    · exact frameGive_quads _ _ _ _
    · rfl
theorem frameFinish_quads (s : State) (k : Cmd) (err : Bool) : (s.frameFinish k err).quads = s.quads := by
  unfold State.frameFinish
  dsimp only
  split
  · split
    · exact quads_of_aside ((modSaved_aside _ _ _ _).trans (framePut_aside _ _ _ _ _ _))
    · rfl
  · rfl
/-- A command's end changes a cube at most by what a checksum's followers learn. -/
theorem endCmd_quads_cases (s : State) (k : Cmd) (ws : List Give) (payload : Nat) (always : Bool) :
    (s.endCmd k ws payload always).quads = s.quads ∨
      (∃ o, k.instr = .dcopyCsum o) ∧ ∃ t f, t.quads = s.quads ∧ (s.endCmd k ws payload always).quads = (State.mapCmds t f).quads := by
  unfold State.endCmd
  extract_lets code err counted r told noticed chained given
  have hc : counted.quads = s.quads := by
    unfold counted
    split <;> rfl
  have ht : told.quads = s.quads := by
    unfold told
    split
    · exact (quads_of_aside (postTo_aside _ _ _ _)).trans hc
    · exact hc
  have hn : noticed.quads = s.quads := by
    unfold noticed
    split
    · exact ht
    · exact ht
  have hg : given.quads = chained.quads := giveTo_quads _ _ _
  have hf : (if k.g < 3072 then given.modCtx k.g fun c => c.finish k err
      else if k.g < nobody then given.frameFinish k err else given).quads = chained.quads := by
    split
    · exact hg
    · split
      · exact (frameFinish_quads _ _ _).trans hg
      · exact hg
  rw [hf]
  unfold chained
  split
  · next o ho => exact .inr ⟨⟨o, ho⟩, noticed, _, hn, rfl⟩
  · exact .inl hn
/-- The end of any command but a copy with checksum leaves the quads. -/
theorem endCmd_quads (s : State) {k : Cmd} (h : ∀ o, k.instr ≠ .dcopyCsum o) (ws : List Give) (payload : Nat) (always : Bool) :
    (s.endCmd k ws payload always).quads = s.quads := by
  rcases endCmd_quads_cases s k ws payload always with hq | ⟨⟨o, ho⟩, -⟩
  · exact hq
  · exact absurd ho (h o)
theorem endCmd_quad (s : State) {k : Cmd} (h : ∀ o, k.instr ≠ .dcopyCsum o) (ws : List Give) (payload : Nat) (always : Bool) (q : Nat) :
    (s.endCmd k ws payload always).quad q = s.quad q := congrArg (tget ({} : Quad) · q) (endCmd_quads s h ws payload always)
@[simp] theorem mapCmds_acc (s : State) (f : Cmd → Cmd) (q : Nat) : ((s.mapCmds f).quad q).acc = (s.quad q).acc :=
  tget_map_keeps Quad.acc _ (fun _ => by exact ⟨rfl, rfl⟩) s.quads q
theorem acc_of_quads {s t : State} (h : t.quads = s.quads) (q : Nat) : (t.quad q).acc = (s.quad q).acc :=
  congrArg (fun x => (tget ({} : Quad) x q).acc) h
/-- No command's end changes an accumulator. -/
@[simp] theorem endCmd_acc (s : State) (k : Cmd) (ws : List Give) (payload : Nat) (always : Bool) (q : Nat) :
    ((s.endCmd k ws payload always).quad q).acc = (s.quad q).acc := by
  rcases endCmd_quads_cases s k ws payload always with hq | ⟨-, t, f, ht, hq⟩
  · exact acc_of_quads hq q
  · exact (acc_of_quads hq q).trans ((mapCmds_acc t f q).trans (acc_of_quads ht q))


/-! ### What leaves the accumulators (R206, R220, R225) -/

theorem setQuad_acc {s : State} {q : Nat} {v : Quad} (hv : v.acc = (s.quad q).acc) (p : Nat) :
    ((s.setQuad q v).quad p).acc = (s.quad p).acc := by
  by_cases hp : p = q
  · subst hp
    rw [quad_setQuad_self, hv]
  · rw [quad_setQuad_ne _ _ _ _ hp]
theorem modQuad_acc (s : State) (q : Nat) {f : Quad → Quad} (hf : ∀ x, (f x).acc = x.acc) (p : Nat) :
    ((s.modQuad q f).quad p).acc = (s.quad p).acc := setQuad_acc (hf _) p
@[simp] theorem endPiece_acc (s : State) (q serial l : Nat) (err : List Nat) (p : Nat) :
    ((s.endPiece q serial l err).quad p).acc = (s.quad p).acc := by
  unfold State.endPiece
  dsimp only
  split
  · exact setQuad_acc (by rfl) p
  · split
    · exact (endCmd_acc _ _ _ _ _ _).trans (setQuad_acc (by rfl) p)
    · exact setQuad_acc (by rfl) p
/-- A read that wakes samples its target, and changes no word. -/
@[simp] theorem wakeReads_acc (s : State) (q t p : Nat) : ((s.wakeReads q t).quad p).acc = (s.quad p).acc := by
  refine setQuad_acc ?_ p
  refine foldl_same (fun a : Quad × List Cmd => a.1.acc) _ (fun a k => ?_) (s.quad q).reads (s.quad q, [])
  dsimp only
  split <;> rfl

@[simp] theorem cacheFill_quads (s : State) (n : Nat) (k : Bool) : (s.cacheFill n k).quads = s.quads := quads_of_aside (cacheFill_aside _ _ _)
@[simp] theorem cacheRead_quads (s : State) (pa n c : Nat) : (s.cacheRead pa n c).quads = s.quads := by
  unfold State.cacheRead
  split
  · rfl
  · exact foldl_same State.quads _ (fun _ _ => cacheFill_quads _ _ _) _ _
@[simp] theorem fillMeet_quads (a : Work) (va : Word) : (a.fillMeet va).s.quads = a.s.quads := by
  unfold Work.fillMeet
  split
  · exact foldl_same State.quads _ (fun _ _ => quads_of_aside (engineMeets_aside _ _ _ _)) _ _
  · exact quads_of_aside (walked_aside _ _ _ _)
theorem fillByte_quads {s t : State} {k : Cmd} {va : Word} {b : Byte} (h : s.fillByte k va = some (t, b)) : t.quads = s.quads := by
  unfold State.fillByte at h
  split at h
  · split at h
    · cases h
    · split at h
      · cases h
      · cases h
        exact (cacheRead_quads _ _ _ _).trans (quads_of_aside (fillWalkFor_aside _ _ _ _))
  · cases h
/-- A fill's bytes land in a face. -/
theorem fillBytes_acc (key : Nat) (src : Word) (n i : Nat) (a : Work) (p : Nat) :
    ((Work.fillBytes key src i n a).1.s.quad p).acc = (a.s.quad p).acc := by
  induction n generalizing i a with
  | zero => rfl
  | succ n ih =>
    unfold Work.fillBytes
    dsimp only
    split
    · exact acc_of_quads (fillMeet_quads a _) p
    · next t b h =>
      refine (ih _ _).trans ((modQuad_acc t _ (fun _ => by rfl) p).trans ?_)
      exact acc_of_quads ((fillByte_quads h).trans (fillMeet_quads a _)) p
@[simp] theorem refetch_acc (s : State) (k : Cmd) (key h p : Nat) : ((s.refetch k key h).1.quad p).acc = (s.quad p).acc := by
  refine foldl_same (fun a : State × Bool => (a.1.quad p).acc) _ (fun a e => ?_) _ (s, true)
  dsimp only
  split
  · exact fillBytes_acc _ _ _ _ _ p
  · rfl

theorem slip_quads (s : State) (n : FaultNote) : (s.slip n).quads = s.quads := rfl
/-- Whether the phase is fetched again, or the recovery has no hope of it. -/
theorem refetched_acc {P : Prop} [Decidable P] {s u : State} {ok : Bool} {ks : List Cmd} {q key h : Nat}
    (hu : (match ks with
      | k :: _ => if P then (s, false) else s.refetch { k with g := 16 * q } key h
      | [] => (s, false)) = (u, ok)) (p : Nat) : (u.quad p).acc = (s.quad p).acc := by
  split at hu
  · split at hu
    · cases hu
      rfl
    · exact (congrArg (fun a : State × Bool => (a.1.quad p).acc) hu).symm.trans (refetch_acc _ _ _ _ _)
  · cases hu
    rfl

/-- A recovery takes the accumulators back from their shadows, and nothing that it does behind that changes a word. -/
theorem recover_acc (s : State) (q l face : Nat) : ((s.recover q l face).quad q).acc =
    copyTargets [0, 1, 2, 3, 4 + l] (s.quad q).acc (s.quad q).shadow := by
  unfold State.recover
  extract_lets x phase h key readers logged gone ns stopped again lost targets vf hdr hopeless read y z met
  have hm : (met.quad q).acc = z.acc := congrArg Quad.acc (quad_setQuad_self s q z)
  clear_value met
  split
  next u ok hu =>
    have hf : (u.quad q).acc = z.acc := (refetched_acc hu q).trans hm
    split
    · have kept (f : Quad → Quad) (h : ∀ x, (f x).acc = x.acc) : ((u.modQuad q f).quad q).acc = z.acc := (modQuad_acc u q h q).trans hf
      dsimp only
      split
      · split
        · exact (acc_of_quads ((slip_quads _ _).trans (setArm_quads _ _ _)) q).trans (kept _ fun _ => by rfl)
        · exact kept _ fun _ => by rfl
      · exact kept _ fun _ => by rfl
    · refine (foldl_same (fun t : State => (t.quad q).acc) _ (fun t i => wakeReads_acc t q i q) _ _).trans ?_
      refine (foldl_same (fun t : State => (t.quad q).acc) _ (fun t k => endCmd_acc _ _ _ _ _ _) _ _).trans ?_
      exact (modQuad_acc u q (fun _ => by rfl) q).trans hf

/-! ### A product's plan and its words (R202, R206, R209) -/

theorem planRun_some {s : State} {y : Quad} {k : Cmd} {lmask a b : Nat} {pl : Option Nat} {r : CubeRun}
    (h : s.planRun y k lmask pl a b = some r) : r.ticks = 0 ∧ r.start = s.tick ∧ r.total = 80 + r.steps ∧
      r.wid = max (hdrWidth r.hw) (hdrWidth r.hs) ∧ (isSparse k.instr = false → r.steps = (r.q * r.wid + 7) / 8) := by
  unfold State.planRun at h
  extract_lets ls hw hs sparse conv ww ws w kk n live most unf items steps run ok at h
  obtain ⟨-, he⟩ := Option.ite_none_right_eq_some.1 h
  rw [← Option.some.inj he]
  refine ⟨rfl, rfl, rfl, rfl, fun hns => ?_⟩
  show (items * w + 7) / 8 = (n * w + 7) / 8
  rw [show items = n from if_neg (by rw [show sparse = false from hns]; exact Bool.false_ne_true)]

theorem mem_cells {r : CubeRun} {c : Nat × Nat} : c ∈ r.cells ↔ c.1 < vmOf r.cmd.shape ∧ c.2 < vnOf r.cmd.shape := by
  simp only [CubeRun.cells, List.mem_flatMap, List.mem_map, List.mem_range]
  constructor
  · rintro ⟨m, hm, n, hn, rfl⟩
    exact ⟨hm, hn⟩
  · rintro ⟨hm, hn⟩
    exact ⟨c.1, hm, c.2, hn, rfl⟩
/-- A product's end writes the valid rows and columns of its target. -/
theorem accumulate_get {r : CubeRun} (y : Quad) (hvm : vmOf r.cmd.shape ≤ 64) (hvn : vnOf r.cmd.shape ≤ 64) (t : Nat) {m n : Nat}
    (hm : m < 64) (hn : n < 64) : tget 0 (r.accumulate y).acc (accKey t m n) =
      if t = r.target ∧ m < vmOf r.cmd.shape ∧ n < vnOf r.cmd.shape then r.word y r.q m n else tget 0 y.acc (accKey t m n) := by
  have key : ∀ c ∈ r.cells, accKey r.target c.1 c.2 = accKey t m n ↔ r.target = t ∧ c.1 = m ∧ c.2 = n := fun c hc =>
    accKey_inj ((mem_cells.1 hc).1.trans_le hvm) ((mem_cells.1 hc).2.trans_le hvn) hm hn
  have agree : ∀ c ∈ r.cells, accKey r.target c.1 c.2 = accKey t m n → r.word y r.q c.1 c.2 = r.word y r.q m n := by
    intro c hc hk
    obtain ⟨-, rfl, rfl⟩ := (key c hc).1 hk
    rfl
  rw [CubeRun.accumulate, tget_foldl_put _ _ _ agree]
  refine if_congr ⟨fun ⟨c, hc, hk⟩ => ?_, fun ⟨ht, hv⟩ => ⟨(m, n), mem_cells.2 hv, ht ▸ rfl⟩⟩ rfl rfl
  obtain ⟨ht, rfl, rfl⟩ := (key c hc).1 hk
  exact ⟨ht.symm, mem_cells.1 hc⟩
theorem word_valid {r : CubeRun} (y : Quad) (upto : Nat) {m n : Nat} (hm : m < vmOf r.cmd.shape) (hn : n < vnOf r.cmd.shape) :
    r.word y upto m n = BitVec.ofNat 32 (r.combine (if r.zero then 0 else (tget 0 y.acc (accKey r.target m n)).toNat)
      (r.layers.zipIdx.map fun e => (r.cell y upto e.2 e.1 m n).1).reverse) := if_pos ⟨hm, hn⟩

/-! ### Sums of a cell (R89-R91) -/

section Cell
variable {r : CubeRun} {y : Quad}

/-- The operand pair of a position: none beyond VK, nor where a sparse operand stores nothing. -/
def CubeRun.pair (r : CubeRun) (y : Quad) (i l m n j : Nat) : Option (Nat × Nat) :=
  if r.base i + j < vkOf r.cmd.shape then (r.south y l n j).map fun b => (r.west y i l m j, b) else none
theorem cellStep_plain (hs : r.scaled = false) (i l m n : Nat) (a : Cell64) (j : Nat) :
    r.cellStep y i l m n a j = (r.pair y i l m n j).elim a fun p =>
      if r.integer then ((a.1 + p.1 * p.2) % 2 ^ 32, []) else (rne32 ((f32 a.1).add ((f32 p.1).mul (f32 p.2))), []) := by
  rw [CubeRun.cellStep, if_neg (by rw [hs]; exact Bool.false_ne_true)]
  change (match r.pair y i l m n j with | none => a | some (x, y) => _) = _
  cases r.pair y i l m n j <;> rfl
theorem cellStep_scaled (hs : r.scaled = true) (i l m n : Nat) (a : Cell64) (j : Nat) :
    r.cellStep y i l m n a j =
      let g : Cell64 := (a.1, a.2 ++ (r.pair y i l m n j).toList)
      if j % 8 = 7 ∨ j + 1 = r.q then closeGroup g ((r.scale y l 0 m j).mul (r.scale y l 1 n j)) else g := by
  simp only [CubeRun.cellStep, CubeRun.pair, hs, if_true]
/-- A cell from its first position, without a partial. -/
theorem cell_from_zero (hp : r.point = 0) (hpart : r.part = []) (upto i l m n : Nat) :
    r.cell y upto i l m n = (List.range upto).foldl (r.cellStep y i l m n) (0, tget [] r.open' (cellKey l m n)) := by
  rw [CubeRun.cell, hp, hpart, List.drop_zero]
  rfl

/-- What a position adds to an integer sum. -/
def CubeRun.term (r : CubeRun) (y : Quad) (i l m n j : Nat) : Nat :=
  if r.base i + j < vkOf r.cmd.shape then r.west y i l m j * (r.south y l n j).getD 0 else 0
theorem cellStep_term (hi : r.integer = true) (hs : r.scaled = false) (i l m n : Nat) (a : Cell64) (j : Nat) :
    (r.cellStep y i l m n a j).1 ≡ a.1 + r.term y i l m n j [MOD 2 ^ 32] := by
  rw [cellStep_plain hs, hi, CubeRun.pair, CubeRun.term]
  by_cases hv : r.base i + j < vkOf r.cmd.shape
  · rw [if_pos hv, if_pos hv]
    cases r.south y l n j with
    | none => exact Nat.ModEq.refl _
    | some b => exact Nat.mod_modEq _ _
  · rw [if_neg hv, if_neg hv]
    exact Nat.ModEq.refl _
/-- Integer positions sum modulo 2^32. -/
theorem foldl_cellStep_integer (hi : r.integer = true) (hs : r.scaled = false) (i l m n : Nat) (js : List Nat) (a : Cell64) :
    (js.foldl (r.cellStep y i l m n) a).1 ≡ a.1 + (js.map (r.term y i l m n)).sum [MOD 2 ^ 32] := by
  induction js generalizing a with
  | nil => exact Nat.ModEq.refl _
  | cons j js ih =>
    rw [List.foldl_cons, List.map_cons, List.sum_cons, ← Nat.add_assoc]
    exact (ih _).trans ((cellStep_term hi hs i l m n a j).add_right _)
/-- Floating positions add one by one, each with one rounding. -/
theorem cell_float (hi : r.integer = false) (hs : r.scaled = false) (hp : r.point = 0) (hpart : r.part = []) (upto i l m n : Nat) :
    (r.cell y upto i l m n).1 = (List.range upto).foldl (fun p j =>
      match (if r.base i + j < vkOf r.cmd.shape then r.south y l n j else none) with
      | some b => rne32 ((f32 p).add ((f32 (r.west y i l m j)).mul (f32 b)))
      | none => p) 0 := by
  rw [cell_from_zero hp hpart]
  refine (List.foldl_hom (f := (Prod.fst : Cell64 → Nat)) (fun a j => ?_)).symm
  rw [cellStep_plain hs, hi, CubeRun.pair]
  by_cases hv : r.base i + j < vkOf r.cmd.shape
  · rw [if_pos hv, if_pos hv]
    cases r.south y l n j <;> rfl
  · rw [if_neg hv, if_neg hv]
    rfl
/-- Positions of a block-scaled slice that do not end a group wait in it. -/
theorem foldl_cellStep_open (hs : r.scaled = true) {i l m n : Nat} {b : Nat → Nat} (js : List Nat) (a : Cell64)
    (hj : ∀ j ∈ js, ¬ (j % 8 = 7 ∨ j + 1 = r.q)) (hv : ∀ j ∈ js, r.base i + j < vkOf r.cmd.shape) (hb : ∀ j ∈ js, r.south y l n j = some (b j)) :
    js.foldl (r.cellStep y i l m n) a = (a.1, a.2 ++ js.map fun j => (r.west y i l m j, b j)) := by
  induction js generalizing a with
  | nil => simp
  | cons j js ih =>
    simp only [List.forall_mem_cons] at hj hv hb
    rw [List.foldl_cons, ih _ hj.2 hv.2 hb.2, cellStep_scaled hs]
    simp [CubeRun.pair, hj.1, hv.1, hb.1]
/-- The first group of eight: the exact sum of its products times the scales, rounded, and added with one more rounding. -/
theorem cell_first_group (hs : r.scaled = true) (hp : r.point = 0) (hpart : r.part = []) (ho : r.open' = []) (hq : 8 ≤ r.q) {i l m n : Nat}
    {b : Nat → Nat} (hk : r.base i + 8 ≤ vkOf r.cmd.shape) (hb : ∀ j < 8, r.south y l n j = some (b j)) :
    (r.cell y 8 i l m n).1 = rne32 ((f32 0).add (f32 (rne32
      (((List.range 8).foldl (fun (t : FVal) j => t.add ((f32 (r.west y i l m j)).mul (f32 (b j)))) (.fin false 0 0)).mul
        ((r.scale y l 0 m 7).mul (r.scale y l 1 n 7)))))) := by
  have before := foldl_cellStep_open (y := y) (i := i) (l := l) (m := m) (n := n) (b := b) hs (List.range 7) (0, []) (fun j hj => ?_) (fun j hj => ?_) (fun j hj => ?_)
  · have seventh : r.pair y i l m n 7 = some (r.west y i l m 7, b 7) := by
      rw [CubeRun.pair, if_pos (by omega), hb 7 (by omega)]
      rfl
    have group : (List.range 7).map (fun j => (r.west y i l m j, b j)) ++ [(r.west y i l m 7, b 7)] =
        (List.range 8).map fun j => (r.west y i l m j, b j) := rfl
    rw [cell_from_zero hp hpart, ho]
    show ((List.range 7 ++ [7]).foldl (r.cellStep y i l m n) (0, [])).1 = _
    rw [List.foldl_append, before, List.foldl_cons, List.foldl_nil, cellStep_scaled hs, seventh]
    dsimp only [Option.toList]
    rw [if_pos (.inl rfl), List.nil_append, group, closeGroup, if_neg (by simp), List.foldl_map]
  all_goals
    have := List.mem_range.1 hj
  · omega
  · omega
  · exact hb j (by omega)
end Cell

/-! ### Partials and the accumulator (R89-R91) -/

theorem foldl_add_mod (ps : List Nat) (base : Nat) : ps.foldl (fun a p => (a + p) % 2 ^ 32) base ≡ base + ps.sum [MOD 2 ^ 32] := by
  induction ps generalizing base with
  | nil => exact Nat.ModEq.refl _
  | cons p ps ih =>
    rw [List.foldl_cons, List.sum_cons, ← Nat.add_assoc]
    exact (ih _).trans ((Nat.mod_modEq _ _).add_right _)
theorem sum_map_modEq {α : Type} {n : Nat} (f g : α → Nat) (l : List α) (h : ∀ a ∈ l, f a ≡ g a [MOD n]) :
    (l.map f).sum ≡ (l.map g).sum [MOD n] := by
  induction l with
  | nil => exact Nat.ModEq.refl _
  | cons a l ih =>
    rw [List.map_cons, List.map_cons, List.sum_cons, List.sum_cons]
    exact (h a List.mem_cons_self).add (ih fun b hb => h b (List.mem_cons_of_mem _ hb))
theorem ofNat_eq_of_modEq {a b : Nat} (h : a ≡ b [MOD 2 ^ 32]) : BitVec.ofNat 32 a = BitVec.ofNat 32 b :=
  BitVec.eq_of_toNat_eq (by rw [BitVec.toNat_ofNat, BitVec.toNat_ofNat]; exact h)
theorem combine_integer {r : CubeRun} (hi : r.integer = true) (base : Nat) (ps : List Nat) :
    r.combine base ps = ps.foldl (fun a p => (a + p) % 2 ^ 32) base := if_pos hi
/-- A word of an integer product: the sum over layers and positions, modulo 2^32. -/
theorem word_integer {r : CubeRun} (y : Quad) {m n : Nat} (hm : m < vmOf r.cmd.shape) (hn : n < vnOf r.cmd.shape) (hi : r.integer = true)
    (hs : r.scaled = false) (hp : r.point = 0) (hpart : r.part = []) :
    r.word y r.q m n = BitVec.ofNat 32 ((if r.zero then 0 else (tget 0 y.acc (accKey r.target m n)).toNat) +
      (r.layers.zipIdx.map fun e => ((List.range r.q).map (r.term y e.2 e.1 m n)).sum).sum) := by
  rw [word_valid y _ hm hn, combine_integer hi]
  refine ofNat_eq_of_modEq ((foldl_add_mod _ _).trans (Nat.ModEq.add_left _ ?_))
  rw [List.sum_reverse]
  refine sum_map_modEq _ _ _ fun e _ => ?_
  rw [cell_from_zero hp hpart]
  simpa using foldl_cellStep_integer hi hs e.2 e.1 m n (List.range r.q) (0, tget [] r.open' (cellKey e.1 m n))
/-- Floating partials add layer by layer, are scaled once, and reach the base with one rounding. -/
theorem combine_float {r : CubeRun} (hi : r.integer = false) (base p : Nat) (ps : List Nat) :
    let t := ps.foldl (fun t p => rne32 ((f32 t).add (f32 p))) p
    r.combine base (p :: ps) =
      rne32 ((f32 base).add (f32 (match r.tensor with | some k => rne32 ((f32 t).mul k) | none => t))) := by
  unfold CubeRun.combine
  refine (if_neg (by rw [hi]; exact Bool.false_ne_true)).trans ?_
  cases r.tensor <;> rfl

/-! ### The tile of a read (R220) -/

theorem getLsbD_foldl_or {w : Nat} (g : Nat → BitVec w) (l : List Nat) (t : BitVec w) (j : Nat) :
    (l.foldl (fun t i => t ||| g i) t).getLsbD j = (t.getLsbD j || l.any fun i => (g i).getLsbD j) := by
  induction l generalizing t with
  | nil => simp
  | cons i l ih => rw [List.foldl_cons, ih, BitVec.getLsbD_or, List.any_cons, Bool.or_assoc]
/-- A word that was shifted to its place stands there, and nowhere else. -/
theorem getLsbD_placed (x : BitVec 32) {i k j : Nat} (hi : i < 128) (hj : j < 32) :
    (x.setWidth 4096 <<< (32 * k)).getLsbD (32 * i + j) = (decide (i = k) && x.getLsbD j) := by
  have hlt : 32 * i + j < 4096 := by omega
  rw [BitVec.getLsbD_shiftLeft, decide_eq_true hlt, Bool.true_and]
  rcases Nat.lt_trichotomy i k with h | rfl | h
  · rw [decide_eq_true (by omega : 32 * i + j < 32 * k), decide_eq_false h.ne, Bool.not_true, Bool.false_and, Bool.false_and]
  · have he : ¬ 32 * i + j < 32 * i := by omega
    have hw : j < 4096 := by omega
    simp only [he, hw, Nat.add_sub_cancel_left, BitVec.getLsbD_setWidth, decide_true, decide_false, Bool.not_false, Bool.true_and]
  · have hz : (x.setWidth 4096).getLsbD (32 * i + j - 32 * k) = false := by
      rw [BitVec.getLsbD_setWidth, BitVec.getLsbD_of_ge x _ (by omega), Bool.and_false]
    rw [hz, Bool.and_false, decide_eq_false h.ne', Bool.false_and]
/-- Element `i` of the two rows that a read gives. -/
theorem elem_readRows (k : Cmd) (word : Nat → Nat → BitVec 32) {i : Nat} (hi : i < 128) :
    elem 32 (k.readRows word) i = (word (2 * bits k.sa.toNat 4 0 + i / 64) (i % 64)).toNat := by
  refine congrArg BitVec.toNat (BitVec.eq_of_getLsbD_eq fun j hj => ?_ : (k.readRows word).extractLsb' (32 * i) 32 = _)
  rw [BitVec.getLsbD_extractLsb', decide_eq_true hj, Bool.true_and, Cmd.readRows]
  rw [getLsbD_foldl_or]
  simp only [getLsbD_placed _ hi hj]
  rw [Bool.eq_iff_iff]
  simp [hi]

/-! ### The join payload (R218) -/

/-- The first of the largest among entries whose keys rise. -/
theorem foldl_first_max (l : List (Nat × Nat)) (b : Nat × Nat) (h : (b :: l).Pairwise fun x y => x.1 < y.1) :
    let top := l.foldl (fun (b : Nat × Nat) e => if b.2 < e.2 then e else b) b
    top ∈ b :: l ∧ ∀ e ∈ b :: l, e.2 ≤ top.2 ∧ (e.2 = top.2 → top.1 ≤ e.1) := by
  induction l generalizing b with
  | nil => simp
  | cons x l ih =>
    obtain ⟨hb, hx⟩ := List.pairwise_cons.1 h
    have hbl : (b :: l).Pairwise fun x y => x.1 < y.1 := List.pairwise_cons.2 ⟨fun e he => hb e (List.mem_cons_of_mem _ he), (List.pairwise_cons.1 hx).2⟩
    have hlt := hb x List.mem_cons_self
    dsimp only [List.foldl_cons]
    split
    next hm =>
      obtain ⟨ht, hall⟩ := ih x hx
      have htop := (hall x List.mem_cons_self).1
      refine ⟨List.mem_cons_of_mem _ ht, fun e he => ?_⟩
      rcases List.mem_cons.1 he with rfl | he
      · exact ⟨hm.le.trans htop, fun heq => absurd (heq ▸ htop) (not_le.2 hm)⟩
      · exact hall e he
    next hm =>
      obtain ⟨ht, hall⟩ := ih b hbl
      obtain ⟨htop, hfirst⟩ := hall b List.mem_cons_self
      refine ⟨?_, fun e he => ?_⟩
      · rcases List.mem_cons.1 ht with ht | ht
        · exact List.mem_cons.2 (.inl ht)
        · exact List.mem_cons_of_mem _ (List.mem_cons_of_mem _ ht)
      · rcases List.mem_cons.1 he with rfl | he
        · exact ⟨htop, hfirst⟩
        · rcases List.mem_cons.1 he with rfl | he
          · have hle := not_lt.1 hm
            exact ⟨hle.trans htop, fun heq => (hfirst (le_antisymm htop (heq ▸ hle))).trans hlt.le⟩
          · exact hall e (List.mem_cons_of_mem _ he)
/-- The smallest of some entries. -/
theorem foldl_min (l : List (Nat × Nat)) (b : Nat × Nat) :
    ∃ low ∈ b :: l, l.foldl (fun a e => min a e.2) b.2 = low.2 ∧ ∀ e ∈ b :: l, low.2 ≤ e.2 := by
  induction l generalizing b with
  | nil => exact ⟨b, List.mem_cons_self, rfl, by simp⟩
  | cons x l ih =>
    rcases le_total b.2 x.2 with h | h
    · obtain ⟨low, hm, he, hall⟩ := ih b
      have hb := hall b List.mem_cons_self
      refine ⟨low, ?_, by rw [List.foldl_cons, min_eq_left h, he], ?_⟩
      · rcases List.mem_cons.1 hm with hm | hm
        · exact hm ▸ List.mem_cons_self
        · exact List.mem_cons_of_mem _ (List.mem_cons_of_mem _ hm)
      · exact List.forall_mem_cons.2 ⟨hb, List.forall_mem_cons.2 ⟨hb.trans h, fun e he => hall e (List.mem_cons_of_mem _ he)⟩⟩
    · obtain ⟨low, hm, he, hall⟩ := ih x
      refine ⟨low, List.mem_cons_of_mem _ hm, by rw [List.foldl_cons, min_eq_right h, he], ?_⟩
      exact List.forall_mem_cons.2 ⟨(hall x List.mem_cons_self).trans h, hall⟩

/-- The finish ticks of the named layers, by layer. -/
def Quad.finished (y : Quad) (lmask : Nat) : List (Nat × Nat) :=
  (layersOf lmask).filterMap fun l => (tget none y.fin l).map fun f => (l, f)
theorem finished_rising (y : Quad) (lmask : Nat) : (y.finished lmask).Pairwise fun a b => a.1 < b.1 := by
  refine (List.pairwise_lt_range.filter _).filterMap _ fun l m hlm a ha b hb => ?_
  obtain ⟨-, -, rfl⟩ := Option.map_eq_some_iff.1 ha
  obtain ⟨-, -, rfl⟩ := Option.map_eq_some_iff.1 hb
  exact hlm
theorem joinWord_nil {y : Quad} {lmask : Nat} (h : y.finished lmask = []) : y.joinWord lmask = lmask * 2 ^ 40 := by
  change (match y.finished lmask with | [] => _ | (l, f) :: rest => _) = _
  rw [h]
/-- With a layer that has finished: the spread of the ticks, and the first layer among the last to finish. -/
theorem joinWord_cons {y : Quad} {lmask : Nat} (h : y.finished lmask ≠ []) :
    ∃ top ∈ y.finished lmask, ∃ low ∈ y.finished lmask,
      (∀ e ∈ y.finished lmask, e.2 ≤ top.2 ∧ low.2 ≤ e.2 ∧ (e.2 = top.2 → top.1 ≤ e.1)) ∧
        y.joinWord lmask = (top.2 - low.2) % 2 ^ 32 + top.1 * 2 ^ 32 + lmask * 2 ^ 40 := by
  obtain ⟨b, l, hbl⟩ := List.exists_cons_of_ne_nil h
  have rising := finished_rising y lmask
  rw [hbl] at rising ⊢
  obtain ⟨ht, htop⟩ := foldl_first_max l b rising
  obtain ⟨low, hl, he, hlow⟩ := foldl_min l b
  refine ⟨_, ht, low, hl, fun e hm => ⟨(htop e hm).1, hlow e hm, (htop e hm).2⟩, ?_⟩
  change (match y.finished lmask with | [] => _ | (l, f) :: rest => _) = _
  rw [hbl, ← he]

/-! ### Faces that change sides (R196, R199) -/

theorem testBit_foldl_xor (l : List Nat) (h : l.Nodup) (n i : Nat) :
    (l.foldl (fun m k => m ^^^ 2 ^ k) n).testBit i = (n.testBit i ^^ decide (i ∈ l)) := by
  induction l generalizing n with
  | nil => simp
  | cons k l ih =>
    obtain ⟨hk, hl⟩ := List.nodup_cons.1 h
    rw [List.foldl_cons, ih hl, Nat.testBit_xor, Nat.testBit_two_pow]
    by_cases hi : i = k
    · subst hi
      simp [hk]
    · simp [hi, Ne.symm hi]
/-- The pairs of layer and face that a swap names. -/
def swapPairs (faces : List Nat) (lmask : Nat) : List (Nat × Nat) := (layersOf lmask).flatMap fun l => faces.map fun f => (l, f)
theorem mem_swapPairs {faces : List Nat} {lmask : Nat} {p : Nat × Nat} : p ∈ swapPairs faces lmask ↔ p.1 ∈ layersOf lmask ∧ p.2 ∈ faces := by
  simp only [swapPairs, List.mem_flatMap, List.mem_map]
  constructor
  · rintro ⟨l, hl, f, hf, rfl⟩
    exact ⟨hl, hf⟩
  · rintro ⟨hl, hf⟩
    exact ⟨_, hl, _, hf, rfl⟩

section Swap
variable {faces : List Nat} (hn : faces.Nodup) (hf : ∀ f ∈ faces, f < 2) (x : Quad) (lmask : Nat) (keep : List Nat)
include hn hf

theorem swapPairs_places_nodup : ((swapPairs faces lmask).map fun p => 2 * p.1 + p.2).Nodup := by
  rw [swapPairs, List.map_flatMap]
  simp only [List.map_map]
  refine List.nodup_flatMap.2 ⟨fun l _ => hn.map fun a b hab => ?_, ?_⟩
  · simpa using hab
  · refine (nodup_layersOf lmask).imp fun {a b} hab => ?_
    rw [Function.onFun, List.disjoint_left]
    intro c ha hb
    obtain ⟨f, hff, rfl⟩ := List.mem_map.1 ha
    obtain ⟨g, hg, he⟩ := List.mem_map.1 hb
    have := hf f hff
    have := hf g hg
    simp only [Function.comp_apply] at he
    omega
/-- A swap exchanges the phases of the faces and layers that it names. -/
theorem facePhase_swap (l f : Nat) (h : f < 2) : facePhase (x.swap faces lmask keep) l f false =
    if l ∈ layersOf lmask ∧ f ∈ faces then 1 - facePhase x l f false else facePhase x l f false := by
  have named : 2 * l + f ∈ (swapPairs faces lmask).map (fun p => 2 * p.1 + p.2) ↔ l ∈ layersOf lmask ∧ f ∈ faces := by
    rw [List.mem_map]
    constructor
    · rintro ⟨⟨a, b⟩, hp, he⟩
      obtain ⟨ha, hb⟩ := mem_swapPairs.1 hp
      have := hf b hb
      obtain rfl : a = l := by omega
      obtain rfl : b = f := by omega
      exact ⟨ha, hb⟩
    · exact fun hlf => ⟨(l, f), mem_swapPairs.2 hlf, rfl⟩
  have front : bit (x.swap faces lmask keep).front (2 * l + f) = (bit x.front (2 * l + f) ^^ decide (l ∈ layersOf lmask ∧ f ∈ faces)) := by
    refine Eq.trans ?_ ((testBit_foldl_xor _ (swapPairs_places_nodup hn hf lmask) x.front (2 * l + f)).trans ?_)
    · rw [List.foldl_map]
      rfl
    · rw [decide_eq_decide.2 named]
      rfl
  unfold facePhase
  simp only [front, Bool.false_eq_true, if_false]
  by_cases hlf : l ∈ layersOf lmask ∧ f ∈ faces
  · cases bit x.front (2 * l + f) <;> simp [hlf]
  · cases bit x.front (2 * l + f) <;> simp [hlf]
end Swap
/-- A new back phase has the reset header. -/
theorem hdr_swap (x : Quad) {faces : List Nat} {lmask l f : Nat} (keep : List Nat) (hl : l ∈ layersOf lmask) (hf : f ∈ faces) :
    tget resetHdr (x.swap faces lmask keep).hdr (hdrKey l f (facePhase x l f false)) = resetHdr := by
  have hm : hdrKey l f (facePhase x l f false) ∈ (swapPairs faces lmask).map fun p => hdrKey p.1 p.2 (facePhase x p.1 p.2 false) :=
    List.mem_map.2 ⟨(l, f), mem_swapPairs.2 ⟨hl, hf⟩, rfl⟩
  exact (tget_foldl_tset (fun _ => resetHdr) _ _ _).trans (if_pos hm)

/-! ### The ends of cube commands (R199, R206, R212, R217, R218, R222, R228, R230) -/

/-- The quad without an ended run, whose command the log notes as ended. -/
def Quad.without (x : Quad) (r : CubeRun) : Quad :=
  { x with runs := x.runs.filter fun t => !(t.cmd.serial = r.cmd.serial && t.plane = r.plane)
           log := x.log.map fun e => if e.1.serial = r.cmd.serial then (e.1, e.2.1, true) else e }
/-- The state in which the end of a run takes effect. -/
def State.without (s : State) (q : Nat) (r : CubeRun) : State := s.modQuad q fun x => x.without r
@[simp] theorem without_quad (s : State) (q : Nat) (r : CubeRun) : (s.without q r).quad q = (s.quad q).without r := quad_setQuad_self _ _ _
/-- The accumulators depend on nothing that the end of a run takes away. -/
theorem accumulate_without (r t : CubeRun) (x : Quad) : (r.accumulate (x.without t)).acc = (r.accumulate x).acc := rfl
theorem accumulate_runs (r : CubeRun) (x : Quad) (l : List CubeRun) : (r.accumulate { x with runs := l }).acc = (r.accumulate x).acc := rfl

/-- A product lands in its accumulator. -/
theorem landProduct_acc (s : State) (q : Nat) (r : CubeRun) : ((s.landProduct q r).quad q).acc = (r.accumulate (s.quad q)).acc := by
  unfold State.landProduct
  extract_lets x whole y z
  have told (t : State) : (t.faceSoft x r).quads = t.quads := by
    refine foldl_same State.quads _ (fun t u => ?_) _ _
    dsimp only
    split
    · exact quads_of_aside (postTo_aside _ _ _ _)
    · rfl
  refine (acc_of_quads (told _) q).trans ((congrArg Quad.acc (quad_setQuad_self s q z)).trans ?_)
  unfold z
  split <;> rfl
theorem product_instr {r : CubeRun} (h : r.product = true) : ∃ o, r.cmd.instr = .cmm o ∨ r.cmd.instr = .cmmz o ∨ r.cmd.instr = .cconv o ∨ r.cmd.instr = .cplane o := by
  unfold CubeRun.product at h
  rw [Bool.and_eq_true] at h
  obtain ⟨h, -⟩ := h
  split at h
  · next o ho => exact ⟨o, .inl ho⟩
  · next o ho => exact ⟨o, .inr (.inl ho)⟩
  · next o ho => exact ⟨o, .inr (.inr (.inl ho))⟩
  · next o ho => exact ⟨o, .inr (.inr (.inr ho))⟩
  · cases h

section End
variable {s : State} {q : Nat} {r : CubeRun} {o : FE}

theorem cubeEnd_product (h : r.product = true) :
    s.cubeEnd q r = (((s.without q r).landProduct q r).wakeReads q r.target).endCmd r.cmd [] 0 false := by
  obtain ⟨o, h | h | h | h⟩ := product_instr h <;>
  · unfold State.cubeEnd
    simp only [h]
    rfl
theorem cubeEnd_product_acc (h : r.product = true) : ((s.cubeEnd q r).quad q).acc = (r.accumulate (s.quad q)).acc := by
  rw [cubeEnd_product h, endCmd_acc, wakeReads_acc, landProduct_acc, without_quad, accumulate_without]

/-- The faces that a `cswap` names. -/
def swapFaces (k : Cmd) : List Nat := (if bit k.sa.toNat 24 then [0] else []) ++ if bit k.sa.toNat 25 then [1] else []
theorem mem_swapFaces {k : Cmd} {f : Nat} (h : f < 2) : f ∈ swapFaces k ↔ bit k.sa.toNat (24 + f) = true := by
  unfold swapFaces
  interval_cases f
  · cases bit k.sa.toNat 24 <;> cases bit k.sa.toNat 25 <;> simp
  · cases bit k.sa.toNat 24 <;> cases bit k.sa.toNat 25 <;> simp
theorem swapFaces_lt {k : Cmd} : ∀ f ∈ swapFaces k, f < 2 := by
  unfold swapFaces
  cases bit k.sa.toNat 24 <;> cases bit k.sa.toNat 25 <;> simp
theorem swapFaces_nodup (k : Cmd) : (swapFaces k).Nodup := by
  unfold swapFaces
  cases bit k.sa.toNat 24 <;> cases bit k.sa.toNat 25 <;> simp
theorem cswap_quad (h : r.cmd.instr = .cswap o) :
    (s.cubeEnd q r).quad q = ((s.quad q).without r).swap (swapFaces r.cmd) (lmaskOf r.cmd.sa) := by
  unfold State.cubeEnd
  simp only [h]
  refine (endCmd_quad _ (fun o' => by rw [h]; exact Instr.noConfusion) _ _ _ _).trans ((quad_setQuad_self _ _ _).trans ?_)
  exact congrArg (fun x : Quad => x.swap (swapFaces r.cmd) (lmaskOf r.cmd.sa)) (without_quad s q r)
theorem cswap_phases (h : r.cmd.instr = .cswap o) {l f : Nat} (hl : l < 8) (hf : f < 2) :
    let named := bit (lmaskOf r.cmd.sa) l && bit r.cmd.sa.toNat (24 + f)
    facePhase ((s.cubeEnd q r).quad q) l f false = (if named then 1 - facePhase (s.quad q) l f false else facePhase (s.quad q) l f false) ∧
      (named = true → tget resetHdr ((s.cubeEnd q r).quad q).hdr (hdrKey l f (facePhase (s.quad q) l f false)) = resetHdr) := by
  intro named
  have iff : named = true ↔ l ∈ layersOf (lmaskOf r.cmd.sa) ∧ f ∈ swapFaces r.cmd := by
    rw [Bool.and_eq_true, mem_layersOf, mem_swapFaces hf]
    exact ⟨fun ⟨hm, hb⟩ => ⟨⟨hl, hm⟩, hb⟩, fun ⟨⟨_, hm⟩, hb⟩ => ⟨hm, hb⟩⟩
  rw [cswap_quad h]
  refine ⟨?_, fun hn => ?_⟩
  · rw [facePhase_swap (swapFaces_nodup r.cmd) swapFaces_lt _ _ _ l f hf]
    exact if_congr iff.symm rfl rfl
  · obtain ⟨hm, hb⟩ := iff.1 hn
    exact hdr_swap ((s.quad q).without r) [] hm hb

/-- The words of a table with two rows that a `cwracc` has written. -/
def rowsWritten (k : Cmd) (t : Tbl (BitVec 32)) : Tbl (BitVec 32) := (List.range 128).foldl (fun a i =>
  tset 0 a (accKey (selTarget k.sb.toNat) (2 * bits k.sb.toNat 4 0) 0 + i) (BitVec.ofNat 32 (elem 32 k.td i))) t
theorem endWracc_acc (s : State) (q : Nat) (k : Cmd) : ((s.endWracc q k).quad q).acc = rowsWritten k (s.quad q).acc :=
  (endCmd_acc _ _ _ _ _ _).trans (congrArg Quad.acc (quad_setQuad_self _ _ _))
/-- `cwracc` writes two rows of its target. -/
theorem cwracc_acc (h : r.cmd.instr = .cwracc o) : ((s.cubeEnd q r).quad q).acc = rowsWritten r.cmd (s.quad q).acc := by
  have he : s.cubeEnd q r = (s.without q r).endWracc q r.cmd := by
    unfold State.cubeEnd
    simp only [h]
    rfl
  rw [he, endWracc_acc, without_quad]
  rfl
theorem cwracc_rows (h : r.cmd.instr = .cwracc o) : let g := selTarget r.cmd.sb.toNat
    let rp := bits r.cmd.sb.toNat 4 0
    (∀ i < 128, tget 0 ((s.cubeEnd q r).quad q).acc (accKey g (2 * rp + i / 64) (i % 64)) = BitVec.ofNat 32 (elem 32 r.cmd.td i)) ∧
      ∀ a, (∀ i < 128, a ≠ accKey g (2 * rp + i / 64) (i % 64)) → tget 0 ((s.cubeEnd q r).quad q).acc a = tget 0 (s.quad q).acc a := by
  intro g rp
  have place (i : Nat) : accKey g (2 * rp + i / 64) (i % 64) = accKey g (2 * rp) 0 + i := by
    unfold accKey
    omega
  rw [cwracc_acc h]
  unfold rowsWritten
  refine ⟨fun i hi => ?_, fun a ha => ?_⟩
  · rw [place, tget_foldl_put (a := BitVec.ofNat 32 (elem 32 r.cmd.td i)) _ _ _ fun b _ hb => by rw [Nat.add_left_cancel hb]]
    exact if_pos ⟨i, List.mem_range.2 hi, rfl⟩
  · rw [tget_foldl_put (a := 0) _ _ _ fun b hb he => absurd (he.symm.trans (place b).symm) (ha b (List.mem_range.1 hb))]
    exact if_neg fun ⟨b, hb, he⟩ => ha b (List.mem_range.1 hb) (he.symm.trans (place b).symm)

/-- `cdrain` with JOIN keeps the payload and clears the finish ticks. -/
theorem cdrain_joins (h : r.cmd.instr = .cdrain o) : let w := (s.quad q).joinWord (lmaskOf r.cmd.sa)
    (o.d.getLsbD 0 = true → ((s.cubeEnd q r).quad q).join = BitVec.ofNat 64 w ∧ ((s.cubeEnd q r).quad q).fin = []) ∧
      (o.d.getLsbD 0 = false → ((s.cubeEnd q r).quad q).join = (s.quad q).join ∧ ((s.cubeEnd q r).quad q).fin = (s.quad q).fin) ∧
      ∃ u : State, s.cubeEnd q r = u.endCmd r.cmd [] w true := by
  intro w
  have hw : ((s.without q r).quad q).joinWord (lmaskOf r.cmd.sa) = w := by
    rw [without_quad]
    rfl
  have he : s.cubeEnd q r = (if o.d.getLsbD 0 then (s.without q r).setQuad q { (s.without q r).quad q with
      join := BitVec.ofNat 64 w, fin := [], joinAt := r.cmd.serial } else s.without q r).endCmd r.cmd [] w true := by
    rw [← hw]
    unfold State.cubeEnd State.endDrain
    simp only [h]
    rfl
  have hn : ∀ o', r.cmd.instr ≠ .dcopyCsum o' := fun o' => by rw [h]; exact Instr.noConfusion
  refine ⟨fun hj => ?_, fun hj => ?_, _, he⟩
  · rw [he, endCmd_quad _ hn, if_pos hj, quad_setQuad_self]
    exact ⟨rfl, rfl⟩
  · rw [he, endCmd_quad _ hn, hj, if_neg Bool.false_ne_true, without_quad]
    exact ⟨rfl, rfl⟩

/-- `csmeta` ends with the words of its layers in their places. -/
theorem csmeta_loads (h : r.cmd.instr = .csmeta o) {t : State} {v : Nat}
    (hr : cubeRead r.cmd r.cmd.sb (32 * (layersOf (lmaskOf r.cmd.sa)).length) (s.without q r) = (t, some v)) :
    ∀ e ∈ (layersOf (lmaskOf r.cmd.sa)).zipIdx,
      tget 0 ((s.cubeEnd q r).quad q).smeta (32 * e.1 + bits r.cmd.sa.toNat 4 0) = BitVec.ofNat 256 (v >>> (256 * e.2)) := by
  have he : (s.cubeEnd q r).quad q = { t.quad q with smeta := (layersOf (lmaskOf r.cmd.sa)).zipIdx.foldl (fun t e =>
      tset 0 t (32 * e.1 + bits r.cmd.sa.toNat 4 0) (BitVec.ofNat 256 (v >>> (256 * e.2)))) (t.quad q).smeta } := by
    have hc : s.cubeEnd q r = (s.without q r).endMeta q r.cmd := by
      unfold State.cubeEnd
      simp only [h]
      rfl
    rw [hc, State.endMeta]
    simp only [hr]
    exact (endCmd_quad _ (fun o' => by rw [h]; exact Instr.noConfusion) _ _ _ _).trans (quad_setQuad_self _ _ _)
  intro e hm
  rw [he]
  dsimp only
  rw [tget_foldl_put (a := BitVec.ofNat 256 (v >>> (256 * e.2))) _ _ _ fun b hb hk => ?_]
  · exact if_pos ⟨e, hm, rfl⟩
  · have same : b.1 = e.1 := by omega
    have hb' := List.mem_zipIdx_iff_getElem?.1 hb
    have he' := List.mem_zipIdx_iff_getElem?.1 hm
    have hi := (List.getElem?_inj (List.getElem?_eq_some_iff.1 hb').1 (nodup_layersOf _)).1 (hb'.trans (same ▸ he'.symm))
    rw [hi]
end End

/-! ### Ends of `cseq`, `ckat` and `cbist` (R217, R228, R230) -/

/-- A sequencer table of `len` states from the words of `v`, in the named layers; one of none clears them. -/
def Quad.sequenced (x : Quad) (ls : List Nat) (len v : Nat) : Quad :=
  { x with
    slen := ls.foldl (fun t l => tset 0 t l len) x.slen
    stab := ls.foldl (fun t l => (List.range 64).foldl (fun t i =>
      tset 0 t (64 * l + i) (if i < len then BitVec.ofNat 128 (v >>> (128 * i)) else 0)) t) x.stab }
theorem sequenced_slen (x : Quad) {ls : List Nat} (len v : Nat) {l : Nat} (hl : l ∈ ls) : tget 0 (x.sequenced ls len v).slen l = len :=
  (tget_foldl_tset (fun _ => len) ls x.slen l).trans (if_pos hl)
theorem sequenced_stab (x : Quad) {ls : List Nat} (len v : Nat) {l i : Nat} (hl : l ∈ ls) (hi : i < 64) :
    tget 0 (x.sequenced ls len v).stab (64 * l + i) = if i < len then BitVec.ofNat 128 (v >>> (128 * i)) else 0 := by
  have flat : (x.sequenced ls len v).stab = (ls.flatMap fun l => (List.range 64).map fun i => (l, i)).foldl (fun t e =>
      tset 0 t (64 * e.1 + e.2) (if e.2 < len then BitVec.ofNat 128 (v >>> (128 * e.2)) else 0)) x.stab := by
    simp only [Quad.sequenced, List.foldl_flatMap, List.foldl_map]
  rw [flat, tget_foldl_put (a := if i < len then BitVec.ofNat 128 (v >>> (128 * i)) else 0) _ _ _ fun e he hk => ?_]
  · refine if_pos ⟨(l, i), ?_, rfl⟩
    exact List.mem_flatMap.2 ⟨l, hl, List.mem_map.2 ⟨i, List.mem_range.2 hi, rfl⟩⟩
  · obtain ⟨a, -, ha⟩ := List.mem_flatMap.1 he
    obtain ⟨b, hb, rfl⟩ := List.mem_map.1 ha
    have := List.mem_range.1 hb
    obtain rfl : b = i := by
      dsimp only at hk
      omega
    rfl

section End
variable {s : State} {q : Nat} {r : CubeRun} {o : FE}

theorem cubeEnd_cseq (h : r.cmd.instr = .cseq o) : s.cubeEnd q r = (s.without q r).endSeq q r.cmd := by
  unfold State.cubeEnd
  simp only [h]
  rfl
/-- A table whose entries all pass is loaded, and another one is as none. -/
theorem cseq_quad (h : r.cmd.instr = .cseq o) {t : State} {v : Nat}
    (hr : cubeRead r.cmd r.cmd.sb (16 * (bits r.cmd.sa.toNat 5 0 + 1)) (s.without q r) = (t, some v)) :
    (s.cubeEnd q r).quad q = if (List.range (bits r.cmd.sa.toNat 5 0 + 1)).all fun i =>
        seqOk (bits r.cmd.sa.toNat 5 0 + 1) (bits v (128 * i + 127) (128 * i)) then
      (t.quad q).sequenced (layersOf (lmaskOf r.cmd.sa)) (bits r.cmd.sa.toNat 5 0 + 1) v
    else (t.quad q).sequenced (layersOf (lmaskOf r.cmd.sa)) 0 0 := by
  have hn : ∀ o', r.cmd.instr ≠ .dcopyCsum o' := fun o' => by rw [h]; exact Instr.noConfusion
  rw [cubeEnd_cseq h, State.endSeq]
  simp only [hr]
  split
  · exact (endCmd_quad _ hn _ _ _ _).trans (quad_setQuad_self _ _ _)
  · exact (endCmd_quad _ (k := { r.cmd with errs := [6] }) hn _ _ _ _).trans (quad_setQuad_self _ _ _)
theorem cseq_loads (h : r.cmd.instr = .cseq o) {t : State} {v : Nat} : let n := bits r.cmd.sa.toNat 5 0 + 1
    cubeRead r.cmd r.cmd.sb (16 * n) (s.without q r) = (t, some v) → ∀ l ∈ layersOf (lmaskOf r.cmd.sa),
      ((∀ i < n, seqOk n (bits v (128 * i + 127) (128 * i)) = true) → tget 0 ((s.cubeEnd q r).quad q).slen l = n ∧
        ∀ i < 64, tget 0 ((s.cubeEnd q r).quad q).stab (64 * l + i) = if i < n then BitVec.ofNat 128 (v >>> (128 * i)) else 0) ∧
      (∀ i < n, seqOk n (bits v (128 * i + 127) (128 * i)) = false → tget 0 ((s.cubeEnd q r).quad q).slen l = 0) := by
  intro n hr l hl
  rw [cseq_quad h hr]
  refine ⟨fun hok => ?_, fun i hi hbad => ?_⟩
  · rw [if_pos (List.all_eq_true.2 fun i hi => hok i (List.mem_range.1 hi))]
    exact ⟨sequenced_slen _ _ _ hl, fun i hi => sequenced_stab _ _ _ hl hi⟩
  · rw [if_neg fun hall => absurd (List.all_eq_true.1 hall i (List.mem_range.2 hi)) (by rw [hbad]; exact Bool.false_ne_true)]
    exact sequenced_slen _ _ _ hl

theorem cubeEnd_ckat (h : r.cmd.instr = .ckat o) : s.cubeEnd q r = (s.without q r).endKat q r.cmd := by
  unfold State.cubeEnd
  simp only [h]
  rfl
theorem endKat_agrees (k : Cmd) (hs : katSig (bits k.sa.toNat 31 0) = k.sb.toNat) :
    s.endKat q k = s.endCmd k [] (katSig (bits k.sa.toNat 31 0)) true := by
  unfold State.endKat
  exact if_pos hs
/-- A signature that differs counts, whoever hears of it. -/
theorem endKat_differs (k : Cmd) (hs : katSig (bits k.sa.toNat 31 0) ≠ k.sb.toNat) :
    ∃ u : State, s.endKat q k = u.endCmd { k with errs := [4] } [] (katSig (bits k.sa.toNat 31 0)) true ∧
      ∃ x, u.quads = (s.setQuad q x).quads ∧ x.katerr = tset 0 (s.quad q).katerr (bits k.sa.toNat 34 32)
        (satAdd 16 (tget 0 (s.quad q).katerr (bits k.sa.toNat 34 32)) 1) := by
  unfold State.endKat
  generalize katSig (bits k.sa.toNat 31 0) = sig at hs ⊢
  rw [if_neg hs]
  extract_lets x first counted record frames gs told noticed
  have ht : told.quads = counted.quads := by
    refine foldl_same State.quads _ (fun t g => ?_) gs counted
    split
    · exact quads_of_aside (postTo_aside _ _ _ _)
    · rfl
  have hn : noticed.quads = counted.quads := by
    unfold noticed
    split
    · exact ht
    · exact ht
  exact ⟨noticed, rfl, _, hn, rfl⟩

/-- A self-test's end leaves what it tests zero. -/
theorem tested_words (x : Quad) (m res : Nat) {g i j : Nat} (hi : i < 64) (hj : j < 64) (h : g < 4 ∨ g - 4 ∈ layersOf m) :
    tget 0 (x.tested m res).acc (accKey g i j) = 0 := by
  have off : (decide (4 ≤ accKey g i j / 4096) && !(layersOf m).contains (accKey g i j / 4096 - 4)) = false := by
    rw [accKey_div hi hj]
    rcases h with h | h
    · rw [decide_eq_false (by omega), Bool.false_and]
    · simp [h]
  exact (tget_filter (fun k => decide (4 ≤ k / 4096) && !(layersOf m).contains (k / 4096 - 4)) x.acc _).trans (if_neg (by rw [off]; exact Bool.false_ne_true))
/-- A table without the entries of some layers, at a key of one of them. -/
theorem tget_off {α : Type} {d : α} {ls : List Nat} {l w k : Nat} (hl : l ∈ ls) (hk : k / w = l) (t : Tbl α) :
    tget d (t.filter fun e => !ls.contains (e.1 / w)) k = d :=
  (tget_filter (fun i => !ls.contains (i / w)) t k).trans (if_neg (by simp [hk, hl]))
theorem tested_layer (x : Quad) {m l : Nat} (res : Nat) (hl : l ∈ layersOf m) : tget 0 (x.tested m res).slen l = 0 ∧
    (∀ a < 2 ^ 20, byteAt (x.tested m res).face (2 ^ 20 * l + a) = 0) ∧ (∀ h < 4, tget resetHdr (x.tested m res).hdr (4 * l + h) = 0) ∧
    (∀ i < 64, ∀ j < 64, tget 0 (x.tested m res).acc (accKey (4 + l) i j) = 0) ∧
    (∀ i < 32, tget 0 (x.tested m res).smeta (32 * l + i) = 0) ∧ ∀ i < 64, tget 0 (x.tested m res).stab (64 * l + i) = 0 := by
  refine ⟨?_, fun a ha => tget_off (w := 2 ^ 20) hl (by omega) _, fun h hh => ?_,
    fun i hi j hj => tested_words x m res hi hj (.inr (by rwa [Nat.add_sub_cancel_left])),
    fun i hi => tget_off hl (by omega) _, fun i hi => tget_off hl (by omega) _⟩
  · exact (tget_filter (fun i => !(layersOf m).contains i) x.slen l).trans (if_neg (by simp [hl]))
  · refine (tget_foldl_tset (fun _ => 0) _ x.hdr (4 * l + h)).trans (if_pos ?_)
    exact List.mem_flatMap.2 ⟨l, hl, List.mem_map.2 ⟨h, List.mem_range.2 hh, rfl⟩⟩
theorem cbist_quad (h : r.cmd.instr = .cbist o) : ∃ n x, (s.cubeEnd q r).quad q = Quad.tested x (lmaskOf r.cmd.sa) (n &&& lmaskOf r.cmd.sa) := by
  have he : s.cubeEnd q r = (s.without q r).endBist q r.cmd := by
    unfold State.cubeEnd
    simp only [h]
    rfl
  rw [he]
  unfold State.endBist
  extract_lets m res t
  exact ⟨_, _, (endCmd_quad _ (fun o' => by rw [show Cmd.instr _ = r.cmd.instr from rfl, h]; exact Instr.noConfusion) _ _ _ _).trans (quad_setQuad_self _ _ _)⟩
end End

/-! ### Dispatch (R205, R214, R215) -/

/-- The quad whose queue has lost its head `k`, which the log notes. -/
def Quad.logged (x : Quad) (k : Cmd) (rest : List Cmd) : Quad :=
  { x with cmdq := rest, log := x.log ++ [(k, 255, false)], undone := x.undone.filter fun e => e.1 ≠ k.serial }

section Start
variable {s : State} {q : Nat} {x : Quad} {k : Cmd} {rest : List Cmd} {o : FE} (hs : k.started = false)
include hs

/-- The commands that start a run of their own, with its layers and its ticks. -/
theorem cubeStart_own {m n : Nat} (h : (k.instr = .cswap o ∧ m = lmaskOf k.sa ∧ n = 2) ∨
      (k.instr = .ckat o ∧ m = 2 ^ bits k.sa.toNat 34 32 ∧ n = 144) ∨ (k.instr = .cwracc o ∧ m = k.touches ∧ n = 8) ∨
      (k.instr = .cdrain o ∧ m = ({ cmd := k } : CubeRun).lmask ∧ n = ({ cmd := k } : CubeRun).total) ∨
      (k.instr = .cbist o ∧ m = 255 ∧ n = match bits k.sa.toNat 1 0 with | 0 => 2048 | 1 => 33024 | _ => 512)) :
    s.cubeStart q { x with cmdq := rest } k = s.setQuad q { x.logged k rest with
      runs := x.runs ++ [{ cmd := k, start := s.tick, lmask := m, total := n }] } := by
  unfold State.cubeStart Cmd.touches at *
  rcases h with ⟨h, rfl, rfl⟩ | ⟨h, rfl, rfl⟩ | ⟨h, rfl, rfl⟩ | ⟨h, rfl, rfl⟩ | ⟨h, rfl, rfl⟩ <;>
  · simp only [h, hs]
    rfl
/-- A table's run notes when its read began, and ends one tick after that. -/
theorem cubeStart_table (h : k.instr = .csmeta o ∨ k.instr = .cseq o) : ∃ n, s.cubeStart q { x with cmdq := rest } k =
    s.setQuad q { x.logged k rest with
      runs := x.runs ++ [{ cmd := { k with asked := s.tick }, start := s.tick, lmask := lmaskOf k.sa, total := n + 1 }] } := by
  obtain ⟨n, hn⟩ : ∃ n, s.tableWait q k = n + 1 := ⟨_, Nat.add_comm 1 _⟩
  refine ⟨n, ?_⟩
  rcases h with h | h <;>
  · unfold State.cubeStart
    simp only [h, hs, hn]
    rfl
/-- A product of cube mode starts as its check allows. -/
theorem cubeStart_product (h : k.instr = .cconv o ∨ ((k.instr = .cmm o ∨ k.instr = .cmmz o) ∧ o.d.getLsbD 2 = false)) :
    s.cubeStart q { x with cmdq := rest } k =
      (s.planRun (x.logged k rest) k (lmaskOf k.sa) none (bits k.sa.toNat 17 0) (bits k.sa.toNat 41 24)).elim
        ((s.setQuad q (x.logged k rest)).endCmd { k with errs := [1] } [] 0 false)
        fun r => s.setQuad q { x.logged k rest with runs := x.runs ++ [r] } := by
  have hp : k.planed = false := by
    unfold Cmd.planed isPlane
    rcases h with h | ⟨h | h, hd⟩
    · rw [h]
    · rw [h]
      exact hd
    · rw [h]
      exact hd
  have he : s.cubeStart q { x with cmdq := rest } k =
      match s.planRun (x.logged k rest) k (lmaskOf k.sa) none (bits k.sa.toNat 17 0) (bits k.sa.toNat 41 24) with
      | some r => s.setQuad q { x.logged k rest with runs := x.runs ++ [r] }
      | none => (s.setQuad q (x.logged k rest)).endCmd { k with errs := [1] } [] 0 false := by
    unfold State.cubeStart
    rcases h with h | ⟨h | h, -⟩ <;>
    · simp only [h, hp, hs]
      rfl
  rw [he]
  generalize s.planRun (x.logged k rest) k (lmaskOf k.sa) none (bits k.sa.toNat 17 0) (bits k.sa.toNat 41 24) = p
  cases p <;> rfl
/-- A plane command joins the queues of its layers; one that names none ends. -/
theorem cubeStart_plane (h : k.instr = .cplane o ∨ ((k.instr = .cmm o ∨ k.instr = .cmmz o) ∧ o.d.getLsbD 2 = true)) :
    s.cubeStart q { x with cmdq := rest } k =
      if lmaskOf k.sa = 0 then (s.setQuad q (x.logged k rest)).endCmd k [] 0 false
      else s.setQuad q { x.logged k rest with
        planeq := (layersOf (lmaskOf k.sa)).foldl (fun t l => tset [] t l (tget [] t l ++ [k.serial])) x.planeq
        planes := x.planes ++ [(k, lmaskOf k.sa)] } := by
  have hp : k.planed = true := by
    unfold Cmd.planed isPlane
    rcases h with h | ⟨h | h, hd⟩
    · rw [h]
    · rw [h]
      exact hd
    · rw [h]
      exact hd
  have hm : k.planeMask = lmaskOf k.sa := if_neg (by rw [hs]; exact Bool.false_ne_true)
  unfold State.cubeStart
  rcases h with h | ⟨h | h, -⟩ <;>
  · simp only [h, hp, hm, hs, if_true, Bool.not_false, and_true]
    rfl
end Start

/-- A cube without work from before a stop dispatches the head of its queue. -/
theorem exec_dispatch {s : State} {q : Nat} {k : Cmd} {rest : List Cmd} (hredo : (s.quad q).redo = []) (hstops : (s.quad q).stops = [])
    (hparked : (s.quad q).parked = []) (hq : (s.quad q).cmdq = k :: rest) (ht : (s.quad q).takes k = true) (hr : s.ready k = true)
    (ho : s.engineOpen (3072 + q) k = true) :
    exec (.cubeCommandDispatch q) s = .next (s.cubeStart q { s.quad q with cmdq := rest } k) := by
  have hd : s.cubeDispatch q = some (s.cubeStart q { s.quad q with cmdq := rest } k) := by
    unfold State.cubeDispatch
    generalize s.quad q = x at *
    obtain ⟨_⟩ := x
    subst hredo hstops hparked hq
    simp only [List.find?_nil, ht, hr, ho, Bool.and_self, if_true]
  exact congrArg (fun t => Host.Outcome.next (Option.getD t s)) hd

/-! ### Work of a layer (R204, R215, R216) -/

theorem planeEnd_acc {s : State} {q l : Nat} {r : CubeRun} (h : r.product = true) :
    ((s.planeEnd q l r).quad q).acc = (r.accumulate (s.quad q)).acc := by
  unfold State.planeEnd
  extract_lets open' landed
  have hl : (landed.quad q).acc = (r.accumulate (s.quad q)).acc := by
    unfold landed
    rw [if_pos h, wakeReads_acc, landProduct_acc, show open'.quad q = _ from quad_setQuad_self _ _ _, accumulate_runs]
  clear_value landed
  split
  · exact (modQuad_acc landed q (fun _ => by rfl) q).trans hl
  · exact (endPiece_acc _ _ _ _ _ _).trans hl

/-! ### Stops (R223) -/

/-- The stop records of the runs that stop now. -/
def Quad.stopRecs (x : Quad) (g : Nat) : List StopRec :=
  (x.runs.filter fun r => r.stops g).map fun r => { target := r.target, run := if r.ticks < 8 then r else r.partials x r.done' }
/-- A stop takes the runs away and puts their records first. -/
theorem stopCube_quad (s : State) (g : Nat) : ((s.stopCube g).quad (quadOf g)).runs = (s.quad (quadOf g)).runs.filter (fun r => !r.stops g) ∧
    ((s.stopCube g).quad (quadOf g)).stops = (s.quad (quadOf g)).stopRecs g ++ (s.quad (quadOf g)).stops := by
  unfold State.stopCube
  extract_lets q x runs recs left piece mine y point put told
  have hp : put.quad q = y := quad_setQuad_self s q y
  have ht : told.quad q = y := by
    unfold told
    clear_value told point
    split
    · split
      · exact hp
      · exact hp
    · exact hp
  clear_value told
  split
  · have hm : (State.quad ((told.modQuad q fun x => { x with lease := { x.lease with holder := none, ended := false } }).modCtx g
        fun c => { c with cut := true }) q) = { y with lease := { y.lease with holder := none, ended := false } } :=
      (quad_setQuad_self _ _ _).trans (by rw [ht])
    rw [hm]
    exact ⟨rfl, rfl⟩
  · rw [ht]
    exact ⟨rfl, rfl⟩

/-- A signature that agrees counts nothing, and one that differs counts at its layer. -/
theorem ckat_katerr {s : State} {q : Nat} {r : CubeRun} {o : FE} (h : r.cmd.instr = .ckat o) :
    (katSig (bits r.cmd.sa.toNat 31 0) = r.cmd.sb.toNat →
      s.cubeEnd q r = (s.without q r).endCmd r.cmd [] (katSig (bits r.cmd.sa.toNat 31 0)) true ∧
        ((s.cubeEnd q r).quad q).katerr = (s.quad q).katerr) ∧
    (katSig (bits r.cmd.sa.toNat 31 0) ≠ r.cmd.sb.toNat →
      tget 0 ((s.cubeEnd q r).quad q).katerr (bits r.cmd.sa.toNat 34 32) =
        satAdd 16 (tget 0 (s.quad q).katerr (bits r.cmd.sa.toNat 34 32)) 1 ∧
        ∃ u : State, s.cubeEnd q r = u.endCmd { r.cmd with errs := [4] } [] (katSig (bits r.cmd.sa.toNat 31 0)) true) := by
  have hn : ∀ o', r.cmd.instr ≠ .dcopyCsum o' := fun o' => by rw [h]; exact Instr.noConfusion
  rw [cubeEnd_ckat h]
  refine ⟨fun hs => ?_, fun hs => ?_⟩
  · rw [endKat_agrees r.cmd hs, endCmd_quad _ hn, without_quad]
    exact ⟨rfl, rfl⟩
  · obtain ⟨u, hu, x, hx, hk⟩ := endKat_differs (s := s.without q r) (q := q) r.cmd hs
    refine ⟨?_, u, hu⟩
    have hq : u.quad q = x := (congrArg (tget ({} : Quad) · q) hx).trans (quad_setQuad_self _ _ _)
    rw [hu, endCmd_quad _ (k := { r.cmd with errs := [4] }) hn, hq, hk, tget_tset_self, without_quad]
    rfl

/-- A self-test leaves zero what it tests, and its result names tested layers alone. -/
theorem cbist_zero {s : State} {q : Nat} {r : CubeRun} {o : FE} (h : r.cmd.instr = .cbist o) : let m := lmaskOf r.cmd.sa
    let y := (s.cubeEnd q r).quad q
    y.bistres &&& m = y.bistres ∧ (∀ g < 4, ∀ i < 64, ∀ j < 64, tget 0 y.acc (accKey g i j) = 0) ∧
      ∀ l ∈ layersOf m, tget 0 y.slen l = 0 ∧ (∀ a < 2 ^ 20, byteAt y.face (2 ^ 20 * l + a) = 0) ∧
        (∀ h < 4, tget resetHdr y.hdr (4 * l + h) = 0) ∧ (∀ i < 64, ∀ j < 64, tget 0 y.acc (accKey (4 + l) i j) = 0) ∧
        (∀ i < 32, tget 0 y.smeta (32 * l + i) = 0) ∧ ∀ i < 64, tget 0 y.stab (64 * l + i) = 0 := by
  intro m y
  obtain ⟨n, x, hx⟩ := cbist_quad (s := s) (q := q) h
  have hy : y = Quad.tested x m (n &&& m) := hx
  rw [hy]
  refine ⟨?_, fun g hg i hi j hj => tested_words x m _ hi hj (.inl hg), fun l hl => tested_layer x _ hl⟩
  show (n &&& m) &&& m = n &&& m
  rw [Nat.and_assoc, Nat.and_self]

/-- A stop takes each run that stops, and keeps its target and its restart point: in the fill part that of its start. -/
theorem stopCube_run {s : State} {g : Nat} {r : CubeRun} (hr : r ∈ (s.quad (quadOf g)).runs) (hs : r.stops g = true) :
    r ∉ ((s.stopCube g).quad (quadOf g)).runs ∧
      ∃ z ∈ ((s.stopCube g).quad (quadOf g)).stops, z.target = r.target ∧ z.run.point = if r.ticks < 8 then r.point else r.done' := by
  obtain ⟨hruns, hstops⟩ := stopCube_quad s g
  rw [hruns, hstops]
  refine ⟨fun h => ?_, _, List.mem_append_left _ (List.mem_map.2 ⟨r, List.mem_filter.2 ⟨hr, hs⟩, rfl⟩), rfl, ?_⟩
  · obtain ⟨-, hn⟩ := List.mem_filter.1 h
    rw [hs] at hn
    exact Bool.noConfusion hn
  · dsimp only
    split
    · rfl
    · rfl
theorem exec_stop {s : State} {g : Nat} (hc : (s.ctx g).stop = .preempting ∨ (s.ctx g).stop = .slipped)
    (ht : (s.quad (quadOf g)).toStop g = true) : exec (.cubeCommandStop g) s = .next (s.stopCube g) := by
  refine event_pos ?_
  have hstop : (s.ctx g).stopping = true := by
    unfold Ctx.stopping
    rcases hc with h | h <;>
    · rw [h]
      rfl
  unfold State.stopDue
  rw [hstop, ht]
  rfl

/-! ### Reads (R219, R220, R227) -/

/-- What a sample gives: the rows, the steps completed, and the tick that the read completes at. -/
theorem sampled_gives {a : Quad × Cmd} {x : Quad} {k : Cmd} {t n steps : Nat} {word : Nat → Nat → BitVec 32} (h : a = x.sampled k t n word steps) :
    a.2.td = k.readRows word ∧ a.2.sum = steps ∧ a.2.due = t + n := by
  subst h
  exact ⟨rfl, rfl, rfl⟩

section Read
variable {s : State} {q n : Nat} {k : Cmd} {o : FE} (hk : k.instr = .crdacc o)
include hk

section First
variable {was : List CubeRun} {x : Quad} (hs : k.started = false) (hr : s.ready k = true) (hd : k.due = 0) (hc : k.count = 0)
include hs hr hd hc

/-- A `crdacc` that starts now takes its value from the stop record of its target. -/
theorem readStep_stopped {z : StopRec} (hz : (x.stops.find? fun z => z.target = selTarget k.sa.toNat) = some z) :
    s.readStep was x k = x.sampled { k with started := true, at' := s.tick } s.tick 72 (z.run.word x z.run.snapPoint) z.run.point := by
  unfold State.readStep
  simp [hk, hs, hr, hd, hc, hz]
/-- With no stop record, it reads the accumulator that no product writes. -/
theorem readStep_idle (hz : (x.stops.find? fun z => z.target = selTarget k.sa.toNat) = none)
    (hw : (x.runs.find? fun r => r.product && r.writes = some (selTarget k.sa.toNat)) = none) : s.readStep was x k =
      x.sampled { k with started := true, at' := s.tick } s.tick 8 (x.accWord (selTarget k.sa.toNat)) noSteps := by
  unfold State.readStep
  simp [hk, hs, hr, hd, hc, hz, hw]
/-- With a product that runs, it reads the partial sums at a boundary. -/
theorem readStep_running {r : CubeRun} (hz : (x.stops.find? fun z => z.target = selTarget k.sa.toNat) = none)
    (hw : (x.runs.find? fun r => r.product && r.writes = some (selTarget k.sa.toNat)) = some r) (hdr : r.wasDrained was = false)
    (hre : r.reached was = true) (hat : r.snapAt = true) : s.readStep was x k =
      x.sampled { k with started := true, at' := s.tick } s.tick 72 (r.word x r.done') r.done' := by
  unfold State.readStep
  simp [hk, hs, hr, hd, hc, hz, hw, hdr, hre, hat]
end First

theorem exec_readEnd_rows {d e : RegId} (hn : s.readDue q n = some k) (hd : k.dest = [d, e]) : exec (.cubeReadEnd q n) s =
    .next ((s.setQuad q { s.quad q with reads := (s.quad q).reads.filter fun h => h.serial ≠ k.serial }).endCmd { k with sum := 0 }
      [(d, k.td, allBits 4096), (e, BitVec.ofNat 4096 k.sum, allBits 64)] 0 false) := by
  change execCubeReadEnd q n s = _
  unfold execCubeReadEnd State.readEnd
  simp only [hn, hk, hd]
end Read
theorem exec_readEnd_status {s : State} {q n : Nat} {k : Cmd} {o : FE} {d : RegId} (hk : k.instr = .cstat o) (hn : s.readDue q n = some k)
    (hd : k.dest = [d]) : exec (.cubeReadEnd q n) s =
    .next ((s.setQuad q { s.quad q with reads := (s.quad q).reads.filter fun h => h.serial ≠ k.serial }).endCmd k
      [(d, BitVec.ofNat 4096 ((s.quad q).status k.sa.toNat), allBits 64)] 0 false) := by
  change execCubeReadEnd q n s = _
  unfold execCubeReadEnd State.readEnd
  simp only [hn, hk, hd]

/-! ### Events of a layer and of a cube that are due -/

theorem exec_planeStart {s : State} {q l : Nat} {k : Cmd} (h : (s.quad q).planeHead l = some k) :
    exec (.planeLayerStart q l) s = .next (s.planeStart q l k) := by
  change execPlaneLayerStart q l s = _
  unfold execPlaneLayerStart
  rw [h]
theorem exec_planeEnd {s : State} {q l : Nat} {r : CubeRun} (h : (s.quad q).planeEnded l = some r) (hb : (s.quad q).badRead = none) :
    exec (.planeLayerEnd q l) s = .next (s.planeEnd q l r) := by
  change execPlaneLayerEnd q l s = _
  unfold execPlaneLayerEnd
  rw [h]
  exact event_pos (by rw [hb]; rfl)
theorem exec_cubeEnd {s : State} {q n : Nat} {r : CubeRun} (h : (s.quad q).ended n = some r) (hb : (s.quad q).badRead = none) :
    exec (.cubeCommandEnd q n) s = .next (s.cubeEnd q r) := by
  change execCubeCommandEnd q n s = _
  unfold execCubeCommandEnd
  rw [h]
  exact event_pos (by rw [hb]; rfl)
/-- A recovery takes back the quad accumulators and that of its layer. -/
theorem recover_words (s : State) (q l f : Nat) {g m n : Nat} (hg : g ∈ [0, 1, 2, 3, 4 + l]) (hm : m < 64) (hn : n < 64) :
    tget 0 ((s.recover q l f).quad q).acc (accKey g m n) = tget 0 (s.quad q).shadow (accKey g m n) := by
  rw [recover_acc]
  exact copyTargets_of_mem (by rwa [accKey_div hm hn]) _ _

/-! ### Sequencers (R217, R218) -/

/-- The sequencer of a layer goes on to state `n`, its counters stepped as the entry says. -/
def State.seqGo (s : State) (q l n : Nat) : State :=
  (s.setQuad q ((s.quad q).setSeq l { (s.quad q).seq l with
    c := seqCount ((s.quad q).entry l) ((s.quad q).seq l).c, state := n, acted := false, ticks := 0 })).seqEnter q l

section Sequencer
variable {s : State} {q l : Nat} (hdue : (s.quad q).seqDue l = true)
include hdue

theorem exec_seq_wait (hw : bits ((s.quad q).entry l) 1 0 = 2) : exec (.sequencerTransition q l) s =
    .next (if (s.quad q).seqCond l ((s.quad q).entry l) ((s.quad q).seq l).c then s.seqGo q l (bits ((s.quad q).entry l) 17 12)
      else s.setQuad q ((s.quad q).setSeq l { (s.quad q).seq l with ticks := 0 })) := by
  change execSequencerTransition q l s = _
  unfold execSequencerTransition
  refine (event_pos hdue).trans ?_
  rw [if_pos hw]
  rfl
theorem exec_seq_act (hw : bits ((s.quad q).entry l) 1 0 ≠ 2) : exec (.sequencerTransition q l) s =
    .next (s.seqGo q l (if (s.quad q).seqCond l ((s.quad q).entry l) (seqCount ((s.quad q).entry l) ((s.quad q).seq l).c) then
      bits ((s.quad q).entry l) 17 12 else bits ((s.quad q).entry l) 23 18)) := by
  change execSequencerTransition q l s = _
  unfold execSequencerTransition
  refine (event_pos hdue).trans ?_
  rw [if_neg hw, apply_ite (s.seqGo q l)]
  rfl
end Sequencer

/-- A swap of one face of one layer changes the phase of no other. -/
theorem facePhase_swap_one (x : Quad) (keep : List Nat) {l f : Nat} (hl : l < 8) (hf : f < 2) :
    facePhase (x.swap [f] (2 ^ l) keep) l f false = 1 - facePhase x l f false ∧
      ∀ m < 8, ∀ h < 2, (m, h) ≠ (l, f) → facePhase (x.swap [f] (2 ^ l) keep) m h false = facePhase x m h false := by
  have one : ∀ g ∈ [f], g < 2 := fun g hg => by rwa [List.mem_singleton.1 hg]
  refine ⟨?_, fun m _ h hh hne => ?_⟩
  · rw [facePhase_swap (List.nodup_singleton f) one x (2 ^ l) keep l f hf, layersOf_two_pow hl]
    exact if_pos ⟨List.mem_singleton_self l, List.mem_singleton_self f⟩
  · rw [facePhase_swap (List.nodup_singleton f) one x (2 ^ l) keep m h hh, layersOf_two_pow hl]
    exact if_neg fun ⟨hm, hg⟩ => hne (by rw [List.mem_singleton.1 hm, List.mem_singleton.1 hg])

/-- A plane command joins the queue of each layer that it names, and of no other. -/
theorem planeq_joined (t : Tbl (List Nat)) (m n : Nat) {l : Nat} (hl : l < 8) :
    tget [] ((layersOf m).foldl (fun t l => tset [] t l (tget [] t l ++ [n])) t) l = tget [] t l ++ if bit m l then [n] else [] := by
  rw [tget_foldl_update (fun _ a => a ++ [n]) _ (nodup_layersOf m)]
  simp only [mem_layersOf, hl, true_and]
  split
  · rfl
  · exact (List.append_nil _).symm
end Sys2Proof.Machine

namespace Sys2Proof.Claims
open Sys2Proof.Machine

/-- Settles O44: each clause is the rule of its event or command; the sums of a product go by the position, the layer and the group. -/
theorem cubeRunsItsCommands : Obligations.CubeRunsItsCommands := by
  unfold Obligations.CubeRunsItsCommands
  refine ⟨fun s y k lmask pl a b r h => planRun_some h, fun r y => ⟨fun hvm hvn t m n hm hn => accumulate_get y hvm hvn t hm hn,
      fun m n hm hn => ⟨fun _ => word_valid y _ hm hn, fun hi hs hp hpart => word_integer y hm hn hi hs hp hpart⟩,
      fun upto i l m n hi hs hp hpart => ?float, fun i l m n b hs hp hpart ho hq hk hb => cell_first_group hs hp hpart ho hq hk hb,
      fun base p ps hi => ?combine⟩,
    fun k word i hi => elem_readRows k word hi, fun y lmask => ⟨joinWord_nil, joinWord_cons⟩, fun s q => ?_⟩
  case float => exact (cell_float hi hs hp hpart upto i l m n).trans (by rfl)
  case combine => exact (combine_float hi base p ps).trans (by rfl)
  refine ⟨?dispatch, fun l k h => exec_planeStart h, fun l r h hb => ⟨exec_planeEnd h hb, planeEnd_acc⟩,
    fun n r h hb => ⟨exec_cubeEnd h hb, cubeEnd_product_acc, fun o ho l hl f hf => cswap_phases ho hl hf, fun o ho => cwracc_rows ho,
      fun o ho => cdrain_joins ho, fun o t v ho hr => csmeta_loads ho hr, fun o t v ho => cseq_loads ho, fun o ho => ckat_katerr ho,
      fun o ho => cbist_zero ho⟩,
    ?stop, fun l f h => ⟨event_pos (decide_eq_true h), fun g hg m hm n hn => recover_words s q l f hg hm hn⟩, ?read,
    fun n k o d e hn hk hd => exec_readEnd_rows hk hn hd, fun n k o d hn hk hd => exec_readEnd_status hk hn hd, ?sequencer,
    fun keep l hl f hf => facePhase_swap_one _ keep hl hf⟩
  case dispatch =>
    intro k rest hredo hstops hparked hq ht hr ho hs
    have go {t : State} (h : s.cubeStart q { s.quad q with cmdq := rest } k = t) : exec (.cubeCommandDispatch q) s = .next t :=
      h ▸ exec_dispatch hredo hstops hparked hq ht hr ho
    refine ⟨fun o h => ?_, fun o h => ?_, fun o r h hd hp => ?_, fun o h => ⟨fun r hp => ?_, fun hp => ?_⟩, fun o h => ⟨fun hm => ?_, fun hm => ?_⟩,
      fun o h => ?_, fun o h => ?_, fun o h => ?_, fun o h => ?_⟩
    · exact go (cubeStart_own hs (.inl ⟨h, rfl, rfl⟩))
    · exact go (cubeStart_own hs (.inr (.inl ⟨h, rfl, rfl⟩)))
    · exact go ((cubeStart_product hs (.inr ⟨h, hd⟩)).trans (congrArg (Option.elim · _ _) hp))
    · exact go ((cubeStart_product hs h).trans (congrArg (Option.elim · _ _) hp))
    · exact go ((cubeStart_product hs h).trans (congrArg (Option.elim · _ _) hp))
    · exact go ((cubeStart_plane hs h).trans (if_pos hm))
    · exact ⟨_, go ((cubeStart_plane hs h).trans (if_neg hm)), fun l hl => planeq_joined _ _ _ hl⟩
    · exact go (cubeStart_own hs (.inr (.inr (.inl ⟨h, rfl, rfl⟩))))
    · exact go (cubeStart_own hs (.inr (.inr (.inr (.inl ⟨h, rfl, rfl⟩)))))
    · obtain ⟨n, hn⟩ := cubeStart_table (s := s) (q := q) (x := s.quad q) (rest := rest) hs h
      exact ⟨n, go hn⟩
    · exact go (cubeStart_own hs (.inr (.inr (.inr (.inr ⟨h, rfl, rfl⟩)))))
  case stop =>
    rintro g rfl hc ht
    exact ⟨exec_stop hc ht, fun r hr hs => stopCube_run hr hs⟩
  case read =>
    intro was k o hk hs hr hd hc t z
    refine ⟨fun r hz => ?_, fun hz hw => ?_, fun r hz hw hdr hre hat => ?_⟩
    · exact (sampled_gives (readStep_stopped (was := was) hk hs hr hd hc hz) :)
    · exact (sampled_gives (readStep_idle (was := was) hk hs hr hd hc hz hw) :)
    · exact (sampled_gives (readStep_running hk hs hr hd hc hz hw hdr hre hat) :)
  case sequencer =>
    intro l hdue
    refine ⟨fun hw hc => ?_, fun hw hc => ?_, fun hw => exec_seq_act hdue hw⟩
    · exact (exec_seq_wait hdue hw).trans (congrArg Host.Outcome.next (if_neg (by rw [hc]; exact Bool.false_ne_true)))
    · exact (exec_seq_wait hdue hw).trans (congrArg Host.Outcome.next (if_pos hc))
end Sys2Proof.Claims

namespace Sys2Proof.Laws

/-! ### Bundles and their syllables (R95) -/

/-- A syllable's word decodes to it in its slot: one lemma a constructor, in their order. -/
theorem RoundTrip.decodeSyl_encode (i : Instr) : Statement i :=
  Instr.casesOn (motive := Statement) i
    nop br bc call ret loop jt bsel halt trap sysc rdcr wrcr rdid rdtick rdgov rdctr fence mod bar flagwait evwait bcwait tkwait tkset
    stacq strel clease crel evpop evpeek add addI sub subI and andI or orI xor xorI andn andnI min minI max maxI minu minuI maxu maxuI shl
    shlI shr shrI sar sarI rol rolI ror rorI mul mulI mulh mulhu div divu rem remu madd maddI clz ctz popc bswap mov movx ext ins cmp cmpI
    sel li lih fadd faddI fsub fsubI fmul fmulI ffma fmin fminI fmax fmaxI fcmp fcmpI fcvt fabs fneg vadd vaddI vsub vsubI vmul vmulI vfma
    vmadd vmin vminI vmax vmaxI vdot4 vabs vneg vand vandI vor vorI vxor vxorI vnot vsel vcmp vcmpI vshl vshlI vshr vshrI vsar vsarI
    vclmul vpopc vclz vcvt vwid vnar vsat vrnd vcbdec vscale vrcp vrsq vsqrt vexp2 vlog2 vtanh vsig vredsum vredmax vredmin vperm vshuf
    vbcast vext vtrn xcp vandM vorM vxorM vnotM ldS ldT stS stT ldx stx stxAdd dcopy dcopyCsum rst rld amoAdd amoAnd amoOr amoXor amoMin
    amoMax amoSwap amoCas redAdd redAnd redOr redXor redMin redMax redFadd kalloc kallocM kfree kquery tacq trel sbind sunbind sstat
    cspush cspop cmm cmmz cconv cplane csmeta cfill cswap crdacc cwracc cdrain ckat cseq cstat cbist trigArm trigCancel bcarm
    registerResultLanding codeIndexRefill haltComplete copyEngineDispatch engineTranslationFault copyCommandEnd remoteEngineDispatch
    remoteCommandEnd cspushAccept cspopDelivery streamTileFetch streamTileLand streamTileTake streamEnd writeQueueApply
    cubeCommandDispatch planeLayerStart planeLayerEnd cubeCommandEnd cubeCommandStop cubeRecovery cubeReadEnd sequencerTransition
    leaseGrant leaseRunEnd stacqGrant barrierCompletion plannedCompletionDeadline commStepEnd engineArmTick governorSample
    governorStepChange droopStart droopEnd scrub kittySwitchLoss peerTimeout fwrite flaginc poolreq poolrsp tokreq tokgrant tokrecall loss
    trigarr lineadd ualinkRead ualinkWrite ualinkAtomic ualinkResponse unsupportedVendorMessage launch nopCmd phaseArm imageLoad
    launchRetire dealerPoll syscRequest faultRecord preemption saveFrameWrite contextRestore mapq unmapq partwrite rangeload walkinv
    preempt resume kill reexec flr quota bist attest keyprov service checkpoint restore svcreg svcreply doorbell droopcfgWrite govcfgWrite
    vmarginWrite lmarginStart eyeMeasurementEnd counterClear zeroiseWrite registerWrite tamper glitch fwsig mgmt powerOnReset leaseChange
    pcieFailure hbmApertureWrite

/-- Syllable `j` of words laid end to end. -/
theorem sylAt_foldr (ws : List (BitVec 64)) (j : Nat) (h : j < ws.length) :
    sylAt (ws.foldr (fun w n => w.toNat + n <<< 64) 0) j = ws[j] := by
  induction ws generalizing j with
  | nil => simp at h
  | cons w ws ih =>
    have hw := w.isLt
    cases j with
    | zero =>
      apply BitVec.eq_of_toNat_eq
      rw [sylAt, BitVec.toNat_ofNat, Nat.mul_zero, Nat.shiftRight_zero, List.foldr_cons, Nat.shiftLeft_eq, Nat.add_mul_mod_self_right,
        Nat.mod_eq_of_lt hw, List.getElem_cons_zero]
    | succ j =>
      have hd (n : Nat) : (w.toNat + n <<< 64) >>> 64 = n := by
        rw [Nat.shiftLeft_eq, Nat.shiftRight_eq_div_pow, Nat.add_mul_div_right _ _ (by positivity), Nat.div_eq_of_lt hw, Nat.zero_add]
      rw [List.getElem_cons_succ, ← ih j (by simpa using h), sylAt, List.foldr_cons, Nat.mul_succ, Nat.add_comm _ 64, Nat.shiftRight_add,
        hd, sylAt]

/-- In a bundle in slot order every syllable's word stands at its slot's number. -/
theorem sylAt_encodeBundle (b : List Instr) (h : b.map Instr.slot = slots) (i : Instr) (hi : i ∈ b) :
    sylAt (encodeBundle b) i.slot.num = encode i := by
  obtain ⟨j, hj, rfl⟩ := List.getElem_of_mem hi
  have number : ∀ (k : Nat) (hk : k < slots.length), slots[k].num = k := by decide
  have hs : b[j].slot.num = j := by
    have hk : j < slots.length := by rw [← h]; simpa using hj
    have hj' : b[j].slot = slots[j] := by simp [← h]
    rw [hj', number j hk]
  rw [hs, encodeBundle, sylAt_foldr _ j (by simpa using hj), List.getElem_map]

/-- A pass over a list that gives back every element gives back the list. -/
theorem mapM_map_ok {α β ε : Type} (g : α → β) (f : β → Except ε α) (l : List α) (h : ∀ a ∈ l, f (g a) = .ok a) :
    (l.map g).mapM f = .ok l := by
  induction l with
  | nil => rfl
  | cons a l ih =>
    rw [List.map_cons, List.mapM_cons, h a (by simp), ih fun x hx => h x (by simp [hx])]
    rfl

/-! ### The word behind its fields (R96, R98) -/

/-- Neighbouring fields join. -/
theorem extract_join {n : Nat} (x : BitVec n) {j k l m : Nat} (h : j = k + m) :
    x.extractLsb' j l ++ x.extractLsb' k m = x.extractLsb' k (l + m) := by
  apply BitVec.eq_of_getLsbD_eq; intro i hi
  simp only [BitVec.getLsbD_append, BitVec.getLsbD_extractLsb']
  by_cases hm : i < m
  · simp [hm, hi]
  · simp [hm, hi, show i - m < l by omega, show j + (i - m) = k + i by omega]
/-- A flag is a field of one bit. -/
theorem flag_getLsbD {n : Nat} (x : BitVec n) (k : Nat) : flag (x.getLsbD k) = x.extractLsb' k 1 := by
  apply BitVec.eq_of_getLsbD_eq; intro i hi
  obtain rfl : i = 0 := by omega
  simp [flag]

/-- The head of a word, from its fields. -/
theorem sylHead_fields (w : BitVec 64) : sylHead (sylOp w) (sylF3 w) (w.getLsbD 54) (w.extractLsb' 50 4) (w.extractLsb' 47 3)
    (w.extractLsb' 44 3) (w.extractLsb' 37 7) (w.extractLsb' 30 7) = w.extractLsb' 30 34 := by
  simp (disch := decide) only [sylHead, sylOp, sylF3, flag_getLsbD, extract_join]
/-- A word is its head and its tail. -/
theorem head_append_tail (w : BitVec 64) : (w.extractLsb' 30 34 ++ w.extractLsb' 0 30 : BitVec 64) = w :=
  (extract_join w (by decide)).trans (extract_self w 0 rfl)

theorem FR.word_ofWord (w : BitVec 64) : (FR.ofWord w).word (sylOp w) (sylF3 w) = w := by
  refine Eq.trans ?_ (head_append_tail w)
  rw [FR.word, ← sylHead_fields w]
  congr 1
  simp (disch := decide) only [FR.ofWord, flag_getLsbD, extract_join]
theorem FI.word_ofWord (w : BitVec 64) : (FI.ofWord w).word (sylOp w) (sylF3 w) = w := by
  refine Eq.trans ?_ (head_append_tail w)
  rw [FI.word, ← sylHead_fields w]
  congr 1
  simp (disch := decide) only [FI.ofWord, flag_getLsbD, extract_join]
theorem FM.word_ofWord (w : BitVec 64) (h : w.extractLsb' 0 4 = 0) : (FM.ofWord w).word (sylOp w) (sylF3 w) = w := by
  refine Eq.trans ?_ (head_append_tail w)
  rw [FM.word, ← sylHead_fields w]
  congr 1
  rw [show (0#4 : BitVec 4) = w.extractLsb' 0 4 from h.symm]
  simp (disch := decide) only [FM.ofWord, extract_join]
theorem FE.word_ofWord (w : BitVec 64) : (FE.ofWord w).word (sylOp w) (sylF3 w) = w := by
  refine Eq.trans ?_ (head_append_tail w)
  rw [FE.word, ← sylHead_fields w]
  congr 1
  simp (disch := decide) only [FE.ofWord, extract_join]
theorem FB.word_ofWord (w : BitVec 64) (h : w.extractLsb' 27 3 = 0) : (FB.ofWord w).word (sylOp w) (sylF3 w) = w := by
  refine Eq.trans ?_ (head_append_tail w)
  rw [FB.word, ← sylHead_fields w]
  congr 1
  rw [show (0#3 : BitVec 3) = w.extractLsb' 27 3 from h.symm]
  simp (disch := decide) only [FB.ofWord, extract_join]
theorem FX.word_ofWord (w : BitVec 64) : (FX.ofWord w).word (sylOp w) (sylF3 w) = w := by
  refine Eq.trans ?_ (head_append_tail w)
  rw [FX.word, ← sylHead_fields w]
  congr 1
  simp (disch := decide) only [FX.ofWord, extract_join]

/-! ### What a word of the opcode maps is read as (R118) -/

/-- The operands are the fields of a word, and the bits that their format leaves zero are zero in it. -/
def Reads (w : BitVec 64) : Oprs → Prop
  | .zero => w = 0
  | .fr o => o = FR.ofWord w
  | .fi o => o = FI.ofWord w
  | .fm o => o = FM.ofWord w ∧ w.extractLsb' 0 4 = 0
  | .fe o => o = FE.ofWord w
  | .fb o => o = FB.ofWord w ∧ w.extractLsb' 27 3 = 0
  | .fx o => o = FX.ofWord w
/-- A syllable stands in slot `k` and is encoded as `w`. -/
def Says (k : Slot) (w : BitVec 64) (i : Instr) : Prop := i.slot = k ∧ encode i = w ∧ i.row.isSome = true

/-- A row whose OP, F3 and operands are read from a word has that word. -/
theorem word_of_reads {r : Row} {w : BitVec 64} (ho : Reads w r.ops) (h1 : (sylOp w).toNat = r.op.toNat)
    (h3 : (sylF3 w).toNat = r.f3.toNat) : r.word = w := by
  unfold Row.word
  rw [← BitVec.eq_of_toNat_eq h1, ← BitVec.eq_of_toNat_eq h3]
  split <;> rename_i hr <;> rw [hr] at ho
  · exact ho.symm
  · rw [show _ = FR.ofWord w from ho, FR.word_ofWord]
  · rw [show _ = FI.ofWord w from ho, FI.word_ofWord]
  · rw [ho.1, FM.word_ofWord w ho.2]
  · rw [show _ = FE.ofWord w from ho, FE.word_ofWord]
  · rw [ho.1, FB.word_ofWord w ho.2]
  · rw [show _ = FX.ofWord w from ho, FX.word_ofWord]
theorem says_of_row {k : Slot} {w : BitVec 64} {i : Instr} (h : ∃ r, i.row = some r ∧ r.slot = k ∧ Reads w r.ops ∧
    (sylOp w).toNat = r.op.toNat ∧ (sylF3 w).toNat = r.f3.toNat) : Says k w i := by
  obtain ⟨r, hr, rfl, ho, h1, h3⟩ := h
  simp [Says, Instr.slot, encode, hr, word_of_reads ho h1 h3]

theorem fmWord_ok {w : BitVec 64} {k : FM → Instr} {i : Instr} (h : fmWord w k = .ok i) : w.extractLsb' 0 4 = 0 ∧ i = k (FM.ofWord w) := by
  unfold fmWord at h
  split at h
  · next h0 => cases h; exact ⟨h0, rfl⟩
  · cases h
theorem fbWord_ok {w : BitVec 64} {k : FB → Instr} {i : Instr} (h : fbWord w k = .ok i) : w.extractLsb' 27 3 = 0 ∧ i = k (FB.ofWord w) := by
  unfold fbWord at h
  split at h
  · next h0 => cases h; exact ⟨h0, rfl⟩
  · cases h

theorem decodeC_says {w : BitVec 64} {i : Instr} (h : decodeC w = .ok i) : Says .c w i := by
  unfold decodeC at h
  split at h
  case h_1 h1 h3 | h_2 h1 h3 | h_3 h1 h3 | h_4 h1 h3 | h_5 h1 h3 | h_6 h1 h3 | h_7 h1 h3 =>
    obtain ⟨h0, rfl⟩ := fbWord_ok h
    exact says_of_row ⟨_, rfl, rfl, ⟨rfl, h0⟩, h1, h3⟩
  case h_31 => cases h
  all_goals
    next h1 h3 =>
    cases h
    exact says_of_row ⟨_, rfl, rfl, rfl, h1, h3⟩
theorem decodeS_says {p : SPos} {w : BitVec 64} {i : Instr} (h : decodeS p w = .ok i) : Says p.slot w i := by
  unfold decodeS at h
  split at h
  case h_70 => cases h
  all_goals
    next h1 h3 =>
    cases h
    exact says_of_row ⟨_, rfl, rfl, rfl, h1, h3⟩
theorem decodeV_says {p : Cl} {w : BitVec 64} {i : Instr} (h : decodeV p w = .ok i) : Says p.slot w i := by
  unfold decodeV at h
  split at h
  case h_62 => cases h
  all_goals
    next h1 h3 =>
    cases h
    exact says_of_row ⟨_, rfl, rfl, rfl, h1, h3⟩
theorem decodeE_says {w : BitVec 64} {i : Instr} (h : decodeE w = .ok i) : Says .e w i := by
  unfold decodeE at h
  split at h
  case h_1 h1 h3 | h_2 h1 h3 | h_3 h1 h3 | h_4 h1 h3 =>
    obtain ⟨h0, rfl⟩ := fmWord_ok h
    exact says_of_row ⟨_, rfl, rfl, ⟨rfl, h0⟩, h1, h3⟩
  case h_55 => cases h
  all_goals
    next h1 h3 =>
    cases h
    exact says_of_row ⟨_, rfl, rfl, rfl, h1, h3⟩

/-- The zero word is `nop` in every slot (R116). -/
theorem decodeSyl_zero (k : Slot) : decodeSyl k 0 = .ok (.nop k) := if_pos rfl
/-- A word of OP 0 that is not zero is reserved (R116). -/
theorem decodeSyl_op_zero {k : Slot} {w : BitVec 64} (hw : w ≠ 0) (h : sylOp w = 0) : decodeSyl k w = .error .badField := by
  unfold decodeSyl; rw [if_neg hw, if_pos h]

/-- A word that decodes in a slot says what it decodes to. -/
theorem decodeSyl_says {k : Slot} {w : BitVec 64} {i : Instr} (h : decodeSyl k w = .ok i) : Says k w i := by
  by_cases hw : w = 0
  · subst hw
    rw [decodeSyl_zero] at h
    cases h
    cases k <;> exact ⟨rfl, rfl, rfl⟩
  by_cases h0 : sylOp w = 0
  · rw [decodeSyl_op_zero hw h0] at h
    cases h
  cases k with
  | c => exact decodeC_says (decodeSyl_c w _ rfl h0 ▸ h)
  | sa => exact decodeS_says (decodeSyl_s .sa w _ rfl h0 ▸ h)
  | sb => exact decodeS_says (decodeSyl_s .sb w _ rfl h0 ▸ h)
  | va => exact decodeV_says (decodeSyl_v .a w _ rfl h0 ▸ h)
  | vb => exact decodeV_says (decodeSyl_v .b w _ rfl h0 ▸ h)
  | e => exact decodeE_says (decodeSyl_e w _ rfl h0 ▸ h)

/-- Class S lists no OP from 16 on, nor does class E. -/
theorem decodeS_high {p : SPos} {w : BitVec 64} (h : 16 ≤ (sylOp w).toNat) : decodeS p w = .error .badOp := by
  unfold decodeS
  split
  case h_70 => rfl
  all_goals omega
theorem decodeE_high {w : BitVec 64} (h : 16 ≤ (sylOp w).toNat) : decodeE w = .error .badOp := by
  unfold decodeE
  split
  case h_55 => rfl
  all_goals omega

end Sys2Proof.Laws

namespace Sys2Proof.Claims
open Sys2Proof.Laws Sys2Proof.Machine

/-- Settles O53: each syllable's word stands at its slot's number, and decodes to the syllable there. -/
theorem bundlesRoundTrip : Obligations.BundlesRoundTrip := by
  intro b hs hr
  rw [decodeBundle, ← hs]
  refine mapM_map_ok Instr.slot _ b fun i hi => ?_
  rw [sylAt_encodeBundle b hs i hi, RoundTrip.decodeSyl_encode i (hr i hi)]
  rfl

/-- Settles O52: each word is read field by field. -/
theorem writtenWordsDecode : Obligations.WrittenWordsDecode := ⟨rfl, rfl, rfl, rfl, rfl, rfl⟩

/-- Settles O54: each map's entry reads the word's fields, and a word is its fields. -/
theorem decodedWordsEncodeBack : Obligations.DecodedWordsEncodeBack := by
  refine ⟨fun k => ⟨decodeSyl_zero k, exec_nop k⟩, rfl, fun k w => ⟨fun i => decodeSyl_says, decodeSyl_op_zero, fun h hk => ?_⟩⟩
  have hop : sylOp w ≠ 0 := fun e => by
    have h' : 16 ≤ (sylOp w).toNat := h
    simp [e] at h'
  obtain rfl | rfl | rfl := hk
  · exact (decodeSyl_s .sa w _ rfl hop).trans (decodeS_high h)
  · exact (decodeSyl_s .sb w _ rfl hop).trans (decodeS_high h)
  · exact (decodeSyl_e w _ rfl hop).trans (decodeE_high h)

end Sys2Proof.Claims

namespace Sys2Proof.Claims
open Sys2Proof.Machine

/-! ### Scalar compares (R100, R137) -/

/-- No type of the scalar integers is a floating one. -/
theorem isFloat_scalarInt (t : BitVec 5) (h : scalarInt t) : isFloat t = false :=
  (by decide : ∀ n : Fin 32, 2 ≤ n.val ∧ n.val ≤ 9 → isFloat (BitVec.ofFin n) = false) t.toFin h
theorem fmtWidth_scalarInt_pos (t : BitVec 5) (h : scalarInt t) : 0 < fmtWidth t := by
  rcases fmtWidth_scalar t h with hw | hw | hw | hw <;> simp [hw]
/-- A register read in an integer type is its operand (R129). -/
theorem intDecode_operand (t : BitVec 5) (x : Word) (h : scalarInt t) : intDecode t x.toNat = operand t x :=
  intDecode_word t x (fmtWidth_scalarInt_pos t h)
/-- Only the low bits of a pattern count. -/
theorem intDecode_mod (t : BitVec 5) (n : Nat) : intDecode t (n % 2 ^ fmtWidth t) = intDecode t n := by
  simp only [intDecode, toSigned, Nat.mod_mod]
/-- The immediate of an integer form is the extended immediate read as an operand (R93). -/
theorem immInt_operand (o : FI) (h : scalarInt o.ty) : immInt o = operand o.ty (imm64 o.v o.imm) := by
  rw [immInt, intImm_eq_imm64, intDecode_mod, intDecode_operand _ _ h]

theorem exec_cmp {s : State} {p : SPos} {o : FR} (ht : scalarInt o.ty) (hr : s.operandsReady (.cmp p o) = true) :
    exec (.cmp p o) s = gives s (.cmp p o) o.d o.lat 1
      (if condHolds o.xmod.toNat (some (compare (operand o.ty (s.rs o.a)) (operand o.ty (s.rs o.b)))) then 1 else 0) := by
  rw [← intDecode_operand _ _ ht, ← intDecode_operand _ _ ht]
  have hc (a b : Nat) : cmpIn o.ty a b = some (compare (intDecode o.ty a) (intDecode o.ty b)) :=
    if_neg (by simp [isFloat_scalarInt o.ty ht])
  rw [← hc]
  exact syl_ready s (.cmp p o) _ hr
/-- `cmp` writes whether the proposition of its condition holds. -/
theorem exec_cmp_of_iff {s : State} {p : SPos} {o : FR} (ht : scalarInt o.ty) (hr : s.operandsReady (.cmp p o) = true) {h : Prop}
    [Decidable h] (hc : condHolds o.xmod.toNat (some (compare (operand o.ty (s.rs o.a)) (operand o.ty (s.rs o.b)))) = true ↔ h) :
    exec (.cmp p o) s = gives s (.cmp p o) o.d o.lat 1 (if h then 1 else 0) := by
  rw [exec_cmp ht hr]
  simp only [hc]
/-- The conditions of integers are those of their order (R100). -/
theorem condHolds_compare (a b : Int) :
    (condHolds 0 (some (compare a b)) = true ↔ a = b) ∧ (condHolds 1 (some (compare a b)) = true ↔ a ≠ b) ∧
    (condHolds 2 (some (compare a b)) = true ↔ a < b) ∧ (condHolds 3 (some (compare a b)) = true ↔ a ≤ b) ∧
    (condHolds 4 (some (compare a b)) = true ↔ b < a) ∧ (condHolds 5 (some (compare a b)) = true ↔ b ≤ a) := by
  rcases lt_trichotomy a b with h | h | h
  · rw [compare_lt_iff_lt.2 h]
    simp [condHolds, h, h.ne, h.le, h.not_gt, h.not_ge]
  · rw [compare_eq_iff_eq.2 h]
    simp [condHolds, h]
  · rw [compare_gt_iff_gt.2 h]
    simp [condHolds, h, h.ne', h.le, h.not_gt, h.not_ge]
/-- The relation mask of two integers (R137). -/
theorem relMask_compare (a b : Int) : BitVec.ofNat 64 (relMask (some (compare a b))) = if a = b then 1 else if a < b then 2 else 4 := by
  rcases lt_trichotomy a b with h | h | h
  · rw [compare_lt_iff_lt.2 h, if_neg h.ne, if_pos h]
    rfl
  · rw [compare_eq_iff_eq.2 h, if_pos h]
    rfl
  · rw [compare_gt_iff_gt.2 h, if_neg h.ne', if_neg h.not_gt]
    rfl

/-- Settles O4: the condition's code picks its proposition of the two operands' order, and the immediate form its mask. -/
theorem scalarCompares : Obligations.ScalarCompares := by
  refine fun s p => ⟨fun o ht hr => ?_, fun o ht hr => ?_⟩
  · obtain ⟨h0, h1, h2, h3, h4, h5⟩ := condHolds_compare (operand o.ty (s.rs o.a)) (operand o.ty (s.rs o.b))
    refine ⟨fun hx _ => ?_, fun hx _ => ?_, fun hx _ => ?_, fun hx _ => ?_, fun hx _ => ?_, fun hx _ => ?_⟩ <;>
      refine exec_cmp_of_iff ht hr ?_ <;> rw [hx]
    · exact h0
    · exact h1
    · exact h2
    · exact h3
    · exact h4
    · exact h5
  · dsimp only
    rw [← relMask_compare, ← intDecode_operand _ _ ht, ← immInt_operand o ht]
    exact syl_ready s (.cmpI p o) _ hr

/-! ### Transfers (R111, R116, R142) -/

theorem exec_br (s : State) (o : FB) (hr : s.operandsReady (.br o) = true) :
    exec (.br o) s = settle .c s ((s.noted (.br o)).goto (relative s o.off)) := syl_ready s (.br o) _ hr
theorem exec_call (s : State) (o : FB) (hr : s.operandsReady (.call o) = true) :
    exec (.call o) s = settle .c s (((s.noted (.call o)).goto (relative s o.off)).map fun t =>
      t.putS (s.spec 64 o.d) (BitVec.ofNat 64 (nextOffset s)) 1) := syl_ready s (.call o) _ hr
theorem exec_ret (s : State) (o : FB) (hr : s.operandsReady (.ret o) = true) :
    exec (.ret o) s = settle .c s ((s.noted (.ret o)).goto (s.rs o.a).toNat) := syl_ready s (.ret o) _ hr
theorem exec_bc (s : State) (o : FB) (hr : s.operandsReady (.bc o) = true) : exec (.bc o) s = settle .c s
    (if zeroTest o.cond.toNat (s.rs o.a).toInt then (s.noted (.bc o)).goto (relative s o.off) else .ok (s.noted (.bc o))) :=
  syl_ready s (.bc o) _ hr
/-- `bc` ends as its transfer ends when the proposition of its test holds, and changes nothing otherwise. -/
theorem exec_bc_of_iff {s : State} {o : FB} {t : State} (hr : s.operandsReady (.bc o) = true)
    (hg : settle .c s ((s.noted (.bc o)).goto (relative s o.off)) = .next t) {h : Prop} [Decidable h]
    (hz : zeroTest o.cond.toNat (s.rs o.a).toInt = true ↔ h) :
    exec (.bc o) s = .next (if h then t else s.noted (.bc o)) := by
  rw [exec_bc s o hr]
  by_cases hh : h
  · rw [if_pos (hz.2 hh), if_pos hh, hg]
  · rw [if_neg fun hc => hh (hz.1 hc), if_neg hh]
    rfl
/-- The tests against zero (R100). -/
theorem zeroTest_conds (v : Int) :
    (zeroTest 0 v = true ↔ v = 0) ∧ (zeroTest 1 v = true ↔ v ≠ 0) ∧ (zeroTest 2 v = true ↔ v < 0) ∧
    (zeroTest 3 v = true ↔ 0 ≤ v) ∧ (zeroTest 4 v = true ↔ 0 < v) ∧ (zeroTest 5 v = true ↔ v ≤ 0) :=
  ⟨decide_eq_true_iff, decide_eq_true_iff, decide_eq_true_iff, decide_eq_true_iff, decide_eq_true_iff, decide_eq_true_iff⟩
/-- The six tests of `bc` (R100), whatever its transfer ends in. -/
theorem exec_bc_tests {s : State} {o : FB} {t : State} (hr : s.operandsReady (.bc o) = true)
    (hg : settle .c s ((s.noted (.bc o)).goto (relative s o.off)) = .next t) :
    let v := (s.rs o.a).toInt
    let is := fun h : Prop => ∀ [Decidable h], exec (.bc o) s = .next (if h then t else s.noted (.bc o))
    (o.cond = 0 → is (v = 0)) ∧ (o.cond = 1 → is (v ≠ 0)) ∧ (o.cond = 2 → is (v < 0)) ∧ (o.cond = 3 → is (0 ≤ v)) ∧
      (o.cond = 4 → is (0 < v)) ∧ (o.cond = 5 → is (v ≤ 0)) := by
  obtain ⟨h0, h1, h2, h3, h4, h5⟩ := zeroTest_conds (s.rs o.a).toInt
  refine ⟨fun hc _ => ?_, fun hc _ => ?_, fun hc _ => ?_, fun hc _ => ?_, fun hc _ => ?_, fun hc _ => ?_⟩ <;>
    refine exec_bc_of_iff hr hg ?_ <;> rw [hc]
  · exact h0
  · exact h1
  · exact h2
  · exact h3
  · exact h4
  · exact h5

/-- Settles O15: each transfer is one check of its target, which `bc` makes only when its test holds. -/
theorem transfers : Obligations.Transfers := by
  refine ⟨fun s => ⟨fun k => exec_nop k s, fun o ht hr => ?_, fun o ht hr => ?_, fun o ht hr => ?_, fun o ht hr => ?_⟩,
    fun s o => ⟨fun ht i hi hr => ?_, fun ht hr => ?_, fun ht hr => ?_⟩⟩
  · rw [exec_br s o hr, goto_noted_ok _ ht]
    rfl
  · refine exec_bc_tests hr ?_
    rw [goto_noted_ok _ ht]
    rfl
  · rw [exec_call s o hr, goto_noted_ok _ ht]
    rfl
  · rw [exec_ret s o hr, goto_noted_ok _ ht]
    rfl
  · simp only [List.mem_cons, List.not_mem_nil, or_false] at hi
    rcases hi with rfl | rfl
    · rw [exec_br s o hr, goto_noted_bad _ ht]
      rfl
    · rw [exec_call s o hr, goto_noted_bad _ ht]
      rfl
  · rw [exec_ret s o hr, goto_noted_bad _ ht]
    rfl
  · refine exec_bc_tests hr ?_
    rw [goto_noted_bad _ ht]
    rfl

/-! ### Orders behind the common checks (R305, R317) -/

theorem acquire_noted_ok {s : State} {m : Nat} (i : Instr) (h : s.readsPending s.cur m = false) :
    (s.noted i).acquire m = .ok ((s.noted i).takeClasses m) := by
  rw [acquire_eq]
  exact if_neg (by rw [show (s.noted i).readsPending (s.noted i).cur m = false from h]; exact Bool.false_ne_true)
theorem acquire_noted_waits {s : State} {m : Nat} (i : Instr) (h : s.readsPending s.cur m = true) :
    (s.noted i).acquire m = .error (.block 2 .none) := by
  rw [acquire_eq]
  exact if_pos h
theorem release_noted_ok {s : State} {m : Nat} (i : Instr) (w : Nat) (h : s.accessPending s.cur m = false) :
    (s.noted i).release m w = .ok ((s.noted i).takeClasses m) := by
  rw [release_eq]
  exact if_neg (by rw [show (s.noted i).accessPending (s.noted i).cur m = false from h]; exact Bool.false_ne_true)
theorem release_noted_waits {s : State} {m : Nat} (i : Instr) (w : Nat) (h : s.accessPending s.cur m = true) :
    (s.noted i).release m w = .error (.block w (.flush m)) := by
  rw [release_eq]
  exact if_pos h

/-! ### Fences (R305-R307, R318) -/

theorem exec_mod {s : State} {o : FX} (hr : s.operandsReady (.mod o) = true) :
    exec (.mod o) s = .next { s.noted (.mod o) with issue := { (s.noted (.mod o)).issue with mod := some o.imm } } :=
  syl_ok s (.mod o) (fun s => .ok { s with issue := { s.issue with mod := some o.imm } }) hr rfl
/-- The tokens that a fence names. -/
def fenceToks (o : FX) : List (BitVec 7) := [o.d, o.a, o.b].take (bits o.imm.toNat 22 21)
/-- What a fence orders once its tokens are complete. -/
def fenceOrder (s : State) (o : FX) : Except Halt State :=
  let m := bits o.imm.toNat 15 0
  if bits o.imm.toNat 20 19 = 1 then (s.noted (.fence o)).acquire m
  else if m = 0 ∧ bits o.imm.toNat 22 21 = 0 then .ok (s.noted (.fence o))
  else ((s.noted (.fence o)).release m 2).bind fun t => .ok (t.podRelease (bits o.imm.toNat 18 16))
theorem exec_fence {s : State} {o : FX} (hr : s.operandsReady (.fence o) = true) : exec (.fence o) s = settle .c s
    ((unblocked (!s.tokensPending (fenceToks o)) 2 (.await (s.pendingOf (fenceToks o)))).bind fun _ => fenceOrder s o) :=
  syl_ready s (.fence o) _ hr
theorem exec_fence_orders {s : State} {o : FX} (hr : s.operandsReady (.fence o) = true) (ht : s.tokensPending (fenceToks o) = false) :
    exec (.fence o) s = settle .c s (fenceOrder s o) := by
  rw [exec_fence hr, ht]
  rfl
theorem fenceOrder_acquires {s : State} {o : FX} (h : bits o.imm.toNat 20 19 = 1) :
    fenceOrder s o = (s.noted (.fence o)).acquire (bits o.imm.toNat 15 0) := if_pos h
theorem fenceOrder_nothing {s : State} {o : FX} (h : bits o.imm.toNat 20 19 ≠ 1) (h0 : bits o.imm.toNat 15 0 = 0 ∧ bits o.imm.toNat 22 21 = 0) :
    fenceOrder s o = .ok (s.noted (.fence o)) := (if_neg h).trans (if_pos h0)
theorem fenceOrder_releases {s : State} {o : FX} (h : bits o.imm.toNat 20 19 ≠ 1)
    (h0 : ¬ (bits o.imm.toNat 15 0 = 0 ∧ bits o.imm.toNat 22 21 = 0)) : fenceOrder s o =
    ((s.noted (.fence o)).release (bits o.imm.toNat 15 0) 2).bind fun t => .ok (t.podRelease (bits o.imm.toNat 18 16)) :=
  (if_neg h).trans (if_neg h0)

/-- Settles O23: a fence waits for its tokens, and then acquires, releases or does nothing as its fields say. -/
theorem fencesAndModifiers : Obligations.FencesAndModifiers := by
  intro s o v toks t
  refine ⟨fun hr => exec_mod hr, fun hr => ⟨fun ht => ?_, fun ht h1 hp => ?_, fun ht h1 hp => ?_,
    fun h1 hm hn => ?_, fun ht h1 h0 hp hs => ?_, fun ht h1 h0 hp hs => ?_, fun ht h1 h0 hp => ?_⟩⟩
  · rw [exec_fence hr, show s.tokensPending (fenceToks o) = true from ht]
    rfl
  · rw [exec_fence_orders hr ht, fenceOrder_acquires h1, acquire_noted_ok _ hp]
    rfl
  · rw [exec_fence_orders hr ht, fenceOrder_acquires h1, acquire_noted_waits _ hp]
    rfl
  · have ht : s.tokensPending (fenceToks o) = false := by rw [fenceToks, hn]; rfl
    rw [exec_fence_orders hr ht, fenceOrder_nothing h1 ⟨hm, hn⟩]
    rfl
  · rw [exec_fence_orders hr ht, fenceOrder_releases h1 h0, release_noted_ok _ _ hp]
    exact congrArg Host.Outcome.next (if_neg hs)
  · rw [exec_fence_orders hr ht, fenceOrder_releases h1 h0, release_noted_ok _ _ hp]
    exact congrArg Host.Outcome.next (if_pos hs)
  · rw [exec_fence_orders hr ht, fenceOrder_releases h1 h0, release_noted_waits _ _ hp]
    rfl

end Sys2Proof.Claims

namespace Sys2Proof.Claims
open Sys2Proof.Machine

/-! ### Stages (R336, R337) -/

/-- The stage is free for a context in its wanted state, with nobody before it in line. -/
theorem open'_iff (st : Stage) (full : Bool) (g t : Nat) : st.open' full g t = true ↔
    st.full = full ∧ st.owned = false ∧ (st.first full = none ∨ st.first full = some (g, t)) := by
  unfold Stage.open'
  cases st.first full <;> simp [and_assoc]

/-- Stage `n` of the Deck of the context's tower. -/
def stageAt (s : State) (n : Nat) : Stage := tget {} (s.tower (towerOf s.cur)).deck n
/-- The stage that a syllable names, checked to be one of its function's, and what it does with it. -/
def withStage (s : State) (o : FR) (f : Nat → Except Halt State) : Except Halt State :=
  (stageNum (s.rs o.a)).bind fun n => (ensure (decide ((stageAt s n).vf = s.me.vfid)) 0x11).bind fun _ => f n
def giveAddress (s : State) (o : FR) (n : Nat) (t : State) : State :=
  t.putS (t.spec 64 o.d) (stageAddr (s.tower (towerOf s.cur)) (stageAt s n)) (bound o.lat 2)
/-- The state once the context holds the stage. -/
def takeStage (s : State) (n : Nat) (t : State) : State :=
  let w := s.tower (towerOf s.cur)
  t.setTower (towerOf s.cur) { w with deck := tset {} w.deck n { stageAt s n with
    owned := true, owner := t.cur, line := (stageAt s n).line.filter fun x => x.1 ≠ t.cur } }
/-- What `stacq` does with a stage of its own function. -/
def acquireStage (s : State) (o : FR) (n : Nat) : Except Halt State :=
  let full := o.xmod.getLsbD 0
  if (stageAt s n).owned = true ∧ (stageAt s n).owner = s.cur then
    (ensure ((stageAt s n).full == full) 0x08).bind fun _ => ((s.noted (.stacq o)).acquire 0xFFFF).bind fun t => .ok (giveAddress s o n t)
  else (unblocked ((stageAt s n).open' full s.cur s.tick) 8 (.wantStage (towerOf s.cur) n full)).bind fun _ =>
    ((s.noted (.stacq o)).acquire 0xFFFF).bind fun t => .ok (giveAddress s o n (takeStage s n t))
/-- The state once the context has flipped the stage. -/
def flipStage (s : State) (n : Nat) (t : State) : State :=
  t.modTower (towerOf s.cur) fun w =>
    { w with deck := tset {} w.deck n { stageAt s n with full := !(stageAt s n).full, owned := false, flipped := some t.tick } }
/-- What `strel` does with a stage of its own function. -/
def releaseStage (s : State) (o : FR) (n : Nat) : Except Halt State :=
  (ensure ((stageAt s n).owned && decide ((stageAt s n).owner = s.cur)) 0x08).bind fun _ =>
    ((s.noted (.strel o)).release 0xFFFF 2).bind fun t => .ok (flipStage s n t)

section
variable {s : State} {o : FR}

theorem exec_stacq (hr : s.operandsReady (.stacq o) = true) : exec (.stacq o) s = settle .c s (withStage s o (acquireStage s o)) :=
  syl_ready s (.stacq o) _ hr
theorem exec_strel (hr : s.operandsReady (.strel o) = true) : exec (.strel o) s = settle .c s (withStage s o (releaseStage s o)) :=
  syl_ready s (.strel o) _ hr

theorem withStage_own (f : Nat → Except Halt State) (hn : (s.rs o.a).toNat < 16) (hv : (stageAt s (s.rs o.a).toNat).vf = s.me.vfid) :
    withStage s o f = f (s.rs o.a).toNat :=
  (bind_ok (if_pos hn) _).trans (bind_ok (ensure_of_true (decide_eq_true hv) _) _)
theorem withStage_foreign (f : Nat → Except Halt State) (hn : (s.rs o.a).toNat < 16) (hv : (stageAt s (s.rs o.a).toNat).vf ≠ s.me.vfid) :
    withStage s o f = .error (.code 0x11) :=
  (bind_ok (if_pos hn) _).trans (bind_error (ensure_of_false (decide_eq_false hv) _) _)
theorem withStage_above (f : Nat → Except Halt State) (hn : 16 ≤ (s.rs o.a).toNat) : withStage s o f = .error (.code 0x08) :=
  bind_error (if_neg (Nat.not_lt.2 hn)) _

variable {n : Nat}
theorem acquireStage_mine (hm : (stageAt s n).owned = true ∧ (stageAt s n).owner = s.cur)
    (hf : (stageAt s n).full = o.xmod.getLsbD 0) :
    acquireStage s o n = ((s.noted (.stacq o)).acquire 0xFFFF).bind fun t => .ok (giveAddress s o n t) := by
  rw [acquireStage, if_pos hm]
  exact bind_ok (ensure_of_true (beq_iff_eq.2 hf) _) _
theorem acquireStage_mine_other (hm : (stageAt s n).owned = true ∧ (stageAt s n).owner = s.cur)
    (hf : (stageAt s n).full ≠ o.xmod.getLsbD 0) : acquireStage s o n = .error (.code 0x08) := by
  rw [acquireStage, if_pos hm]
  exact bind_error (ensure_of_false (beq_eq_false_iff_ne.2 hf) _) _
theorem acquireStage_free (hm : ¬ ((stageAt s n).owned = true ∧ (stageAt s n).owner = s.cur))
    (ho : (stageAt s n).open' (o.xmod.getLsbD 0) s.cur s.tick = true) :
    acquireStage s o n = ((s.noted (.stacq o)).acquire 0xFFFF).bind fun t => .ok (giveAddress s o n (takeStage s n t)) := by
  rw [acquireStage, if_neg hm, ho]
  rfl
theorem acquireStage_taken (hm : ¬ ((stageAt s n).owned = true ∧ (stageAt s n).owner = s.cur))
    (ho : ¬ (stageAt s n).open' (o.xmod.getLsbD 0) s.cur s.tick = true) :
    acquireStage s o n = .error (.block 8 (.wantStage (towerOf s.cur) n (o.xmod.getLsbD 0))) := by
  rw [acquireStage, if_neg hm, eq_false_of_ne_true ho]
  rfl
theorem releaseStage_mine (hm : (stageAt s n).owned = true ∧ (stageAt s n).owner = s.cur) :
    releaseStage s o n = ((s.noted (.strel o)).release 0xFFFF 2).bind fun t => .ok (flipStage s n t) :=
  bind_ok (ensure_of_true (Bool.and_eq_true_iff.2 ⟨hm.1, decide_eq_true hm.2⟩) _) _
theorem releaseStage_other (hm : ¬ ((stageAt s n).owned = true ∧ (stageAt s n).owner = s.cur)) :
    releaseStage s o n = .error (.code 0x08) :=
  bind_error (ensure_of_false (by simpa using hm) _) _
end

/-! ### Leases (R105, R194) -/

theorem exec_clease {s : State} {o : FR} (hr : s.operandsReady (.clease o) = true) : exec (.clease o) s = settle .c s
    ((unblocked (s.inRigid s.cur || s.holds s.cur) 9 .wantLease).bind fun _ => .ok (s.noted (.clease o))) := syl_ready s (.clease o) _ hr
theorem exec_crel {s : State} {o : FR} (hr : s.operandsReady (.crel o) = true) : exec (.crel o) s = settle .c s
    (if s.inRigid s.cur ∨ !s.holds s.cur then .ok (s.noted (.crel o))
    else .ok { s.noted (.crel o) with issue := { (s.noted (.crel o)).issue with crel := true } }) := syl_ready s (.crel o) _ hr

/-- A bundle that commits without a fault does not loop back to where no bundle starts. -/
theorem lostLoop_of_commit_sound {s t : State} (h : (s.commit t).issue.fault = none) : t.lostLoop = false := by
  refine eq_false_of_ne_true fun hl => ?_
  rw [commit_lost s t hl, takeFault_eq _ _ rfl] at h
  exact Option.some_ne_none _ h
theorem commit_quad {s t : State} (h : (s.commit t).issue.fault = none) (q : Nat) : (s.commit t).quad q = t.leaseEnded.quad q := by
  obtain ⟨-, -, -, -, -, hq, -⟩ := commit_spec s t (lostLoop_of_commit_sound h)
  exact congrArg (tget {} · q) hq

/-- Settles O26: a stage is acquired or released behind the checks of its number, function and owner; a lease ends at the commit. -/
theorem stagesAndLeases : Obligations.StagesAndLeases := by
  refine ⟨fun s o => ?_, fun s o => ⟨fun hr => ⟨fun h => ?_, fun h1 h2 => ?_⟩, fun hr => ⟨fun h => ?_, fun h1 h2 => ?_⟩⟩,
    fun s t _ hc => ⟨fun h => ?_, fun h => ?_⟩⟩
  · dsimp only
    refine ⟨fun hr => ⟨fun hn hv hm hf hp => ?_, fun hn hv hm hf hp => ?_, fun hn hv hm hf => ?_, fun hn hv hh hp => ?_,
      fun hn hv => ?_, fun h => ?_⟩,
      fun hr => ⟨fun hn hv hm hp => ?_, fun hn hv hm hp => ?_, fun hn hv => ?_, fun h => ?_⟩⟩
    · rw [exec_stacq hr, withStage_own _ hn hv, acquireStage_mine hm hf, bind_ok (acquire_noted_ok _ hp)]
      rfl
    · rw [exec_stacq hr, withStage_own _ hn hv, acquireStage_free hm ((open'_iff _ _ _ _).2 hf), bind_ok (acquire_noted_ok _ hp), takeStage,
        takeClasses_cur]
      rfl
    · rw [exec_stacq hr, withStage_own _ hn hv, acquireStage_taken hm fun h => hf ((open'_iff _ _ _ _).1 h)]
      rfl
    · rw [exec_stacq hr, withStage_own _ hn hv]
      rcases hh with ⟨hm, hf⟩ | ⟨hm, hf⟩
      · rw [acquireStage_mine hm hf, bind_error (acquire_noted_waits _ hp)]
        rfl
      · rw [acquireStage_free hm ((open'_iff _ _ _ _).2 hf), bind_error (acquire_noted_waits _ hp)]
        rfl
    · rw [exec_stacq hr, withStage_foreign _ hn hv]
      rfl
    · rcases Nat.lt_or_ge (s.rs o.a).toNat 16 with hn | hn
      · obtain ⟨hv, hm, hf⟩ := h.resolve_left (Nat.not_le.2 hn)
        rw [exec_stacq hr, withStage_own _ hn hv, acquireStage_mine_other hm hf]
        rfl
      · rw [exec_stacq hr, withStage_above _ hn]
        rfl
    · rw [exec_strel hr, withStage_own _ hn hv, releaseStage_mine hm, bind_ok (release_noted_ok _ _ hp)]
      rfl
    · rw [exec_strel hr, withStage_own _ hn hv, releaseStage_mine hm, bind_error (release_noted_waits _ _ hp)]
      rfl
    · rw [exec_strel hr, withStage_foreign _ hn hv]
      rfl
    · rcases Nat.lt_or_ge (s.rs o.a).toNat 16 with hn | hn
      · obtain ⟨hv, hm⟩ := h.resolve_left (Nat.not_le.2 hn)
        rw [exec_strel hr, withStage_own _ hn hv, releaseStage_other hm]
        rfl
      · rw [exec_strel hr, withStage_above _ hn]
        rfl
  · rw [exec_clease hr, Bool.or_eq_true_iff.2 h]
    rfl
  · rw [exec_clease hr, h1, h2]
    rfl
  · rw [exec_crel hr, if_pos (h.imp_right fun h => by rw [h]; rfl)]
    rfl
  · rw [exec_crel hr, h1, h2]
    rfl
  · exact (commit_quad hc _).trans (leaseEnded_quad_of_crel h)
  · rw [commit_quad hc, State.leaseEnded, h]
    rfl

end Sys2Proof.Claims

namespace Sys2Proof.Machine

/-! ### What a translation leaves of the contexts (R354) -/

section
variable (s : State)
theorem countSoft_ctxs (v pa n : Nat) : (s.countSoft v pa n).ctxs = s.ctxs := foldl_same State.ctxs _ (fun _ _ => by rfl) _ s
theorem keepWalk_ctxs (v : Nat) (l : List (Nat × Word)) : (s.keepWalk v l).ctxs = s.ctxs := by
  unfold State.keepWalk
  split
  · rfl
  · exact foldl_same State.ctxs _ (fun t _ => countSoft_ctxs t _ _ _) _ _
theorem markWalk_ctxs (v a : Nat) : (s.markWalk v a).ctxs = s.ctxs := by
  unfold State.markWalk
  split <;> rfl
theorem walkKept_ctxs (v : Nat) (va : Word) : (s.walkKept v va).ctxs = s.ctxs := by
  unfold State.walkKept
  dsimp only
  split
  · exact (markWalk_ctxs _ _ _).trans (keepWalk_ctxs _ _ _)
  · exact keepWalk_ctxs _ _ _
theorem packetWalks_ctxs (v p : Nat) : (s.packetWalks v p).ctxs = s.ctxs := by
  unfold State.packetWalks
  dsimp only
  split
  · exact (walkKept_ctxs _ _ _).trans (walkKept_ctxs _ _ _)
  · exact walkKept_ctxs _ _ _
theorem testTrigger_ctxs (w : Nat) : (s.testTrigger w).ctxs = s.ctxs := by
  unfold State.testTrigger
  split
  · rfl
  extract_lets t
  split
  · rfl
  next i _ =>
    extract_lets e fired quiet
    have hq : quiet.ctxs = s.ctxs := packetWalks_ctxs fired e.vf e.packet.toNat
    split
    · split
      next hp =>
        obtain ⟨hc, -⟩ := firePacket_offices hp
        exact hc.trans hq
      next => exact hq
    · rfl
theorem putByte_ctxs (pa : Nat) (v e : Byte) : (s.putByte pa v e).ctxs = s.ctxs := by
  unfold State.putByte
  split <;> rfl
theorem cacheFill_ctxs (n : Nat) (k : Bool) : (s.cacheFill n k).ctxs = s.ctxs := by
  unfold State.cacheFill
  extract_lets room l
  split
  · rfl
  · unfold room
    repeat' split
    all_goals rfl
theorem storeCells_ctxs (pa : Nat) (cells : List Sys2Proof.Cell) (c : Nat) : (s.storeCells pa cells c).ctxs = s.ctxs := by
  unfold State.storeCells
  extract_lets filled stored cleaned
  have hf : filled.ctxs = s.ctxs := by
    unfold filled
    split
    · exact foldl_same State.ctxs _ (fun _ _ => cacheFill_ctxs _ _ _) _ _
    · rfl
  have hs : stored.ctxs = s.ctxs := (foldl_same State.ctxs _ (fun _ _ => putByte_ctxs _ _ _ _) _ _).trans hf
  unfold cleaned
  split <;> exact hs
theorem framePut_ctxs (v g off n val : Nat) : (s.framePut v g off n val).ctxs = s.ctxs :=
  (foldl_same State.ctxs _ testTrigger_ctxs _ _).trans (storeCells_ctxs s _ _ _)

/-- A change of one context that leaves its records' surroundings leaves those of every context. -/
theorem modCtx_offRecords (g : Nat) (f : Ctx → Ctx) (hf : ∀ c, (f c).offRecords = c.offRecords) (h : Nat) :
    ((s.modCtx g f).ctx h).offRecords = (s.ctx h).offRecords := by
  by_cases he : h = g
  · rw [he, ctx_modCtx_self, hf]
  · exact congrArg Ctx.offRecords (ctx_setCtx_ne s g h _ he)
theorem framePost_offRecords (v g : Nat) (r : EvRec) (h : Nat) : ((s.framePost v g r).ctx h).offRecords = (s.ctx h).offRecords := by
  unfold State.framePost
  extract_lets cfg n recent old l put told
  clear_value l
  have hput : put.ctxs = s.ctxs := by
    unfold put
    exact foldl_same State.ctxs _ (fun _ _ => framePut_ctxs _ _ _ _ _ _) _ _
  have ht : told.ctxs = s.ctxs := hput
  clear_value told
  have hp (val : Nat) : ((told.framePut v g 0x10D68 8 val).ctx h).offRecords = (s.ctx h).offRecords :=
    congrArg (fun l => (tget {} l h : Ctx).offRecords) ((framePut_ctxs _ _ _ _ _ _).trans ht)
  split
  · exact hp _
  · refine (modCtx_offRecords _ _ _ ?_ h).trans (hp _)
    exact fun _ => rfl
theorem tellSoft_offRecords (v g u h : Nat) : ((s.tellSoft v g u).ctx h).offRecords = (s.ctx h).offRecords := by
  unfold State.tellSoft State.postTo
  split
  · split
    · exact modCtx_offRecords _ _ _ (fun c => post_offRecords c _) h
    · split
      · exact framePost_offRecords _ _ _ _ h
      · rfl
  · rfl
/-- A translation of the issuing context leaves of a context all but its records. -/
theorem fillWalk_offRecords (v : Nat) (x : Xlate) (h : Nat) : ((s.fillWalk v x).ctx h).offRecords = (s.ctx h).offRecords :=
  (foldl_same (fun u : State => (u.ctx h).offRecords) _ (fun _ _ => tellSoft_offRecords _ _ _ _ _) _ _).trans
    (congrArg (fun l => (tget {} l h : Ctx).offRecords) (keepWalk_ctxs s v x.fills))
theorem fillWalk_cur (v : Nat) (x : Xlate) : (s.fillWalk v x).cur = s.cur := (congrArg State.cur (fillWalkFor_aside s v s.cur x) :)
theorem fillWalk_me (v : Nat) (x : Xlate) : (s.fillWalk v x).me.pc = s.me.pc ∧ (s.fillWalk v x).me.vfid = s.me.vfid := by
  have h := fillWalk_offRecords s v x s.cur
  unfold State.me
  rw [fillWalk_cur]
  exact ⟨(congrArg Ctx.pc h :), (congrArg Ctx.vfid h :)⟩
end

/-! ### A store's place in the write queues (R302, R341) -/

/-- An entry is accepted behind what it must follow. -/
theorem acceptIn_split (e : WqEntry) (l : List WqEntry) : ∃ a b, l = a ++ b ∧ e.acceptIn l = a ++ e :: b ∧
    ∀ y ∈ b, ¬ (y.g = e.g ∧ y.mods.cls = e.mods.cls) ∧ ¬ (y.sameLine e = true ∧ y.g ≠ e.g) := by
  refine ⟨_, _, (List.suffix_iff_eq_append.1 (List.reverse_prefix.1 ?_)).symm, rfl, fun y hy => ?_⟩
  · rw [List.reverse_reverse]
    exact List.takeWhile_prefix _
  · have hm := List.mem_takeWhile_imp (List.mem_reverse.1 hy)
    simpa [imp_iff_not_or] using hm
/-- A store joins no reduction. -/
theorem join_store (x e : WqEntry) {cells : List Sys2Proof.Cell} (h : e.op = .store cells) : x.join e = none := by
  unfold WqEntry.join
  rw [h]
  cases x.op <;> rfl
theorem enqueue_store (s : State) (e : WqEntry) {cells : List Sys2Proof.Cell} (h : e.op = .store cells) :
    let e' := { e with n := s.serial + 1, at' := s.tick, due := s.tick + 1 + tierDelay (if e.face then 1 else tierOf e.pa) (s.serial + 1) 0 }
    s.enqueue e = { s with serial := s.serial + 1, wq := if Config.choice (s.serial + 1) 7 then e'.acceptIn s.wq else s.wq ++ [e'] } := by
  intro e'
  unfold State.enqueue
  dsimp only
  split
  next k y hk =>
    obtain ⟨x, -, hx⟩ := Option.bind_eq_some_iff.1 hk
    obtain ⟨z, hz, -⟩ := Option.map_eq_some_iff.1 hx
    exact absurd ((join_store x e' h).symm.trans hz) (Option.some_ne_none z).symm
  next => simp only [h, e']
/-- A store enters the queue, at its end or behind what it must follow. -/
theorem enqueue_store_split (s : State) (e : WqEntry) {cells : List Sys2Proof.Cell} (h : e.op = .store cells) :
    let e' := { e with n := s.serial + 1, at' := s.tick, due := s.tick + 1 + tierDelay (if e.face then 1 else tierOf e.pa) (s.serial + 1) 0 }
    ∃ a b, s.wq = a ++ b ∧ s.enqueue e = { s with serial := s.serial + 1, wq := a ++ e' :: b } ∧
      ∀ y ∈ b, ¬ (y.g = e.g ∧ y.mods.cls = e.mods.cls) ∧ ¬ (y.sameLine e = true ∧ y.g ≠ e.g) := by
  intro e'
  rw [enqueue_store s e h]
  by_cases hc : Config.choice (s.serial + 1) 7 = true
  · obtain ⟨a, b, hw, ha, hb⟩ := acceptIn_split e' s.wq
    refine ⟨a, b, hw, ?_, hb⟩
    rw [if_pos hc, ha]
  · refine ⟨s.wq, [], (List.append_nil _).symm, ?_, fun y hy => absurd hy List.not_mem_nil⟩
    rw [if_neg hc]

end Sys2Proof.Machine

namespace Sys2Proof.Claims
open Sys2Proof.Machine

/-! ### Scalar loads and stores (R274, R275) -/

/-- With sound sources a direct access whose effect succeeds leaves what its effect leaves. -/
theorem direct_ok (s : State) (i : Instr) (f : State → Except Halt State) {t : State} (h : sourcesSound s i)
    (hf : f (eccNoted s i) = .ok t) : s.direct i f = .next t := by
  rw [direct_sound s i f h, hf]
  rfl

/-- The format of a scalar load's part, unless the load takes the bytes as they stand. -/
def partFmt (o : FM) (x : Xlate) : Option (BitVec 5) := if o.v then none else x.fmt.map fmtOf
/-- What a scalar load of a part leaves, once what it is ordered after has been performed. -/
def scalarLoaded (s : State) (o : FM) (x : Xlate) (fm : Option (BitVec 5)) (dec : Bool) (t : State) : State :=
  let ea := s.fmAddr o (fmtWidth o.ty / 8)
  let n := if dec then 1 else fmtWidth o.ty / 8
  let v := t.directRead x n
  let w : Word :=
    if dec then BitVec.ofNat 64 (decodeBf16 (fun _ => 0) (fm.getD 0) v)
    else BitVec.ofNat 64 (if isSignedFmt o.ty then wrapInt 64 (toSigned (8 * n) v) else v)
  let bad := t.directBad x n
  let u := t.directDone x [(x.pa, n)]
  let u := if bad then u.fmUncorr ea else u
  let late : LateElem :=
    { lo := 0, wd := 64, face := decide (x.tier = 1), pa := x.pa, w := 8 * n, sx := isSignedFmt o.ty,
      dec := if dec then fm.map fun t => (t, 0) else none }
  (u.putS (u.spec 64 o.d) w (bound o.lat 16)).mayTake ⟨.s, u.spec 64 o.d⟩ s.eff bad [late]
/-- The type of a scalar load fits its part's format. -/
def loadFits (o : FM) (fm : Option (BitVec 5)) (dec : Bool) : Bool :=
  if dec then fm != some 0x0A && fm != some 0x0B && o.ty == 0x0F else (fm.map fun t => decide (fmtWidth t = fmtWidth o.ty)).getD true

section
variable {s t : State} {o : FM} {x : Xlate} (hspace : s.eff.space ≤ 2) (hal : (s.fmAddr o (fmtWidth o.ty / 8)).toNat % (fmtWidth o.ty / 8) = 0)
include hspace hal

theorem exec_ldS (ho : s.eff.ord < 2) (hs : sourcesSound s (.ldS o))
    (hx : s.directPart s.eff (s.fmAddr o (fmtWidth o.ty / 8)) (fmtWidth o.ty / 8) true (bound o.lat 16) = .ok x)
    {dec : Bool} (hdec : ((partFmt o x).map decodes).getD false = dec) (hfit : loadFits o (partFmt o x) dec = true)
    (ht : (eccNoted s (.ldS o)).ordered s.eff = .ok t) :
    exec (.ldS o) s = .next (scalarLoaded s o x (partFmt o x) dec t) := by
  refine direct_ok s (.ldS o) _ hs ((bind_ok (directMods_ok hspace (by omega)) _).trans ((bind_ok (alignedTo_ok hal) _).trans
    ((bind_ok (a := x) hx _).trans ?_)))
  have hd : ((if o.v then none else x.fmt.map fmtOf).map decodes).getD false = dec := hdec
  dsimp only
  rw [hd]
  cases dec with
  | false => exact (bind_ok (ensure_of_true hfit _) _).trans (bind_ok ht _)
  | true => exact (bind_ok (ensure_of_true hfit _) _).trans (bind_ok ht _)
theorem exec_stS (ho : s.eff.ord = 0 ∨ s.eff.ord = 2) (hs : sourcesSound s (.stS o))
    (hx : s.directPart s.eff (s.fmAddr o (fmtWidth o.ty / 8)) (fmtWidth o.ty / 8) false 0 = .ok x)
    (hfit : (x.fmt.map fun f => decide (fmtWidth (fmtOf f) = fmtWidth o.ty)).getD true = true)
    (ht : (eccNoted s (.stS o)).ordered s.eff = .ok t) :
    exec (.stS o) s = .next (t.directStore x s.eff (cellsOf (t.rs o.d).toNat (fmtWidth o.ty / 8))) :=
  direct_ok s (.stS o) _ hs ((bind_ok (directMods_ok hspace ho) _).trans ((bind_ok (alignedTo_ok hal) _).trans
    ((bind_ok (a := x) hx _).trans ((bind_ok (ensure_of_true hfit _) _).trans (bind_ok ht _)))))
end

/-- The entry of a direct store, before the queue numbers it. -/
def storeEntry (u : State) (x : Xlate) (m : Mods) (cells : List Sys2Proof.Cell) : WqEntry :=
  { n := 0, g := u.cur, pc := u.me.pc, vf := u.me.vfid, pa := x.pa, quad := quadOf u.cur, face := decide (x.tier = 1), mods := m,
    op := .store cells, due := 0 }
/-- What a store's translation leaves behind leaves its entry as it is. -/
theorem directStore_eq (t : State) (x : Xlate) (m : Mods) (cells : List Sys2Proof.Cell) :
    t.directStore x m cells = (t.fillWalk t.me.vfid x).enqueue (storeEntry (t.fillWalk t.me.vfid x) x m cells) := by
  obtain ⟨hpc, hvf⟩ := fillWalk_me t t.me.vfid x
  rw [storeEntry, hpc, hvf, fillWalk_cur]
  rfl

/-- A format of the type's width fits it, and so does no format. -/
theorem fmtFits_of_plain {x : Xlate} {ty : BitVec 5} (h : ∀ f, x.fmt = some f → fmtWidth (fmtOf f) = fmtWidth ty) :
    (x.fmt.map fun f => decide (fmtWidth (fmtOf f) = fmtWidth ty)).getD true = true := by
  cases hf : x.fmt with
  | none => rfl
  | some f => exact decide_eq_true (h f hf)
/-- A load that takes the bytes as they stand decodes nothing, and its type fits. -/
theorem partFmt_plain {o : FM} {x : Xlate} (h : o.v = false → (∀ f, x.fmt = some f → fmtWidth (fmtOf f) = fmtWidth o.ty) ∧
    ∀ f, x.fmt = some f → decodes (fmtOf f) = false) :
    ((partFmt o x).map decodes).getD false = false ∧ loadFits o (partFmt o x) false = true := by
  unfold partFmt
  cases hv : o.v with
  | true => exact ⟨rfl, rfl⟩
  | false =>
    obtain ⟨hw, hd⟩ := h hv
    cases hf : x.fmt with
    | none => exact ⟨rfl, rfl⟩
    | some f => exact ⟨hd f hf, decide_eq_true (hw f hf)⟩

/-- Settles O28: a load is the read of its part once its checks and its order are met, a store the entry that the queue takes in. -/
theorem scalarLoadsAndStores : Obligations.ScalarLoadsAndStores := by
  intro s o x m n ea plain hspace hal
  refine ⟨fun t ho hs hx hplain ht => ?_, fun f t ho hs hx hv hf hfmt hty ht => ?_, fun t ho hs hx hplain ht => ?_⟩
  · obtain ⟨hdec, hfit⟩ := partFmt_plain hplain
    exact exec_ldS hspace hal ho hs hx hdec hfit ht
  · have hp : partFmt o x = some (fmtOf f) := by rw [partFmt, hv, hf]; rfl
    have hdec : ((partFmt o x).map decodes).getD false = true := by rw [hp]; rcases hfmt with h | h <;> rw [h] <;> rfl
    have hfit : loadFits o (partFmt o x) true = true := by rw [hp, loadFits, hty]; rcases hfmt with h | h <;> rw [h] <;> rfl
    rw [exec_ldS hspace hal ho hs hx hdec hfit ht, hp]
    rcases hfmt with h | h <;> rw [h] <;> rfl
  · obtain ⟨a, b, hw, he, hb⟩ := enqueue_store_split (t.fillWalk t.me.vfid x) (storeEntry (t.fillWalk t.me.vfid x) x m _) rfl
    exact ⟨a, b, hw, (exec_stS hspace hal ho hs hx (fmtFits_of_plain hplain) ht).trans
      (congrArg Host.Outcome.next ((directStore_eq t x m _).trans he)), hb⟩

end Sys2Proof.Claims

namespace Sys2Proof.Claims
open Sys2Proof.Machine

/-! ### Tile loads and stores (R271, R274, R276, R277) -/

/-- The bytes of a load's lines, as they are read. -/
def tileData (parts : TileParts) (t : State) : List (Nat × Xlate × Nat) :=
  parts.lines.map fun l => (l.1, l.2.2, t.directRead l.2.2 64)
/-- Element `i` of a load in memory, decoded. -/
def tileVal (parts : TileParts) (wm : Nat) (dec : Bool) (t : State) (i : Nat) : Nat :=
  match (tileData parts t).find? fun l => l.1 = lineOf wm i with
  | none => 0
  | some (j, x, v) =>
    let e := bits v (wm * i + wm - 1 - 512 * j) (wm * i - 512 * j)
    if dec then decodeBf16 (bookEntry (bookAt (t.quad (quadOf t.cur)) (cbslotOf (x.fmt.getD 0)))) (fmtOf (x.fmt.getD 0)) e else e
/-- Where element `i` is read once more at its landing (R304). -/
def tileLate (parts : TileParts) (wm : Nat) (dec : Bool) (t : State) (i : Nat) : Option LateElem :=
  ((tileData parts t).find? fun l => l.1 = lineOf wm i).map fun l =>
    { lo := (if dec then 16 else wm) * (i / if dec then 16 / wm else 1), wd := if dec then 16 else wm, face := decide (l.2.1.tier = 1),
      pa := l.2.1.pa + (wm * i - 512 * l.1) / 8, bit := wm * i % 8, w := wm,
      dec := if dec then l.2.1.fmt.map fun f => (fmtOf f, bookAt (t.quad (quadOf t.cur)) (cbslotOf f)) else none }
/-- The active elements of a tile access. -/
def activeElems (parts : TileParts) (wm : Nat) : List Nat := (List.range (elems wm)).filter fun i => parts.act.getD i false
/-- What a tile load of parts of width `wm` leaves, with `val` in its elements. -/
def tileLoaded (s : State) (o : FM) (parts : TileParts) (wm : Nat) (dec : Bool) (val : Nat → Nat) (t : State) : State :=
  let r := if dec then 16 / wm else 1
  let d := s.spec 64 o.d
  let cl : Cl := if o.msk.getLsbD 2 then .b else .a
  let ranges := fun l : Nat × Nat × Xlate =>
    ((activeElems parts wm).filter fun i => lineOf wm i = l.1).map fun i => (l.2.2.pa + (wm * i - 512 * l.1) / 8, (wm + 7) / 8)
  let bad := parts.lines.any fun l => (ranges l).any fun e => t.directBad { l.2.2 with pa := e.1 } e.2
  let u := parts.lines.foldl (fun u l => u.directDone l.2.2 (ranges l)) t
  let u := if bad then u.fmUncorr (s.fmAddr o 64) else u
  (List.range r).foldl (fun u j =>
    (u.giveTile cl (d + j) (if dec then 16 else wm) ((List.range (elems (if dec then 16 else wm))).map fun i => parts.act.getD (r * i + j) false)
      (bound o.lat 16) fun i => val (r * i + j)).mayTake ⟨tileFile cl, d + j⟩ s.eff bad
        (((activeElems parts wm).filter fun i => i % r = j).filterMap (tileLate parts wm dec t))) u

section
variable {s t : State} {o : FM} {parts : TileParts} (hspace : s.eff.space ≤ 2) (hal : (s.fmAddr o 64).toNat % 64 = 0)
include hspace hal

theorem exec_ldT (ho : s.eff.ord < 2) (hs : sourcesSound s (.ldT o)) {wm : Nat} {dec : Bool}
    (hp : s.tileParts o s.eff (s.fmAddr o 64) true (bound o.lat 16) = .ok parts)
    (hw : ∀ l ∈ parts.lines, partWidth o l.2.2 = (wm, dec)) (hl : parts.lines ≠ []) (hty : if dec then o.ty = 0x0F else fmtWidth o.ty = wm)
    (hok : parts.shape.ok wm = true)
    (hready : ∀ j < if dec then 16 / wm else 1, s.targetReady ⟨tileFile (if o.msk.getLsbD 2 then .b else .a), s.spec 64 o.d + j⟩ = true)
    (hd : s.spec 64 o.d % (if dec then 16 / wm else 1) = 0) (ht : (eccNoted s (.ldT o)).ordered s.eff = .ok t) :
    exec (.ldT o) s = .next (tileLoaded s o parts wm dec (tileVal parts wm dec t) t) := by
  have head : (parts.lines.head?.map fun l => partWidth o l.2.2).getD (fmtWidth o.ty, false) = (wm, dec) := by
    obtain ⟨l, rest, he⟩ := List.exists_cons_of_ne_nil hl
    have hw' := hw l (he ▸ List.mem_cons_self)
    rw [he]
    exact hw'
  have same : (parts.lines.find? fun l => partWidth o l.2.2 ≠ (wm, dec)) = none := by
    simpa [List.find?_eq_none] using fun a b x hx => hw (a, b, x) hx
  have typed : ¬ ((dec = true ∧ o.ty ≠ 0x0F) ∨ ((!dec) = true ∧ fmtWidth o.ty ≠ wm)) := by
    cases dec <;> simpa using hty
  have free : checkAll (eccNoted s (.ldT o)).streamWrite ((List.range (if dec then 16 / wm else 1)).map fun j =>
      ⟨tileFile (if o.msk.getLsbD 2 then .b else .a), s.spec 64 o.d + j⟩) = .ok () :=
    checkAll_ok _ _ fun r hr => by
      obtain ⟨j, hj, rfl⟩ := List.mem_map.1 hr
      exact streamWrite_ready _ _ (hready j (List.mem_range.1 hj))
  refine direct_ok s (.ldT o) _ hs ((bind_ok (directMods_ok hspace (by omega)) _).trans ((bind_ok (alignedTo_ok hal) _).trans
    ((bind_ok (a := parts) hp _).trans ?_)))
  simp only [head, same]
  rw [if_neg typed]
  exact (bind_ok (ensure_of_true (decide_eq_true hd) _) _).trans ((bind_ok (ensure_of_true hok _) _).trans
    ((bind_ok free _).trans (bind_ok ht _)))
theorem exec_stT (ho : s.eff.ord = 0 ∨ s.eff.ord = 2) (hs : sourcesSound s (.stT o))
    (hp : s.tileParts o s.eff (s.fmAddr o 64) false 0 = .ok parts) (hl : parts.lines ≠ [])
    (hf : ∀ l ∈ parts.lines, ∀ f, l.2.2.fmt = some f → fmtWidth (fmtOf f) = fmtWidth o.ty) (hok : parts.shape.ok (fmtWidth o.ty) = true)
    (hfree : s.me.boundTo ⟨tileFile (if o.msk.getLsbD 2 then .b else .a), s.spec 64 o.d⟩ = none)
    (ht : (eccNoted s (.stT o)).ordered s.eff = .ok t) :
    exec (.stT o) s = .next (parts.lines.foldl (fun u l => u.directStore l.2.2 s.eff
      (tileCells (fmtWidth o.ty) (t.rv (if o.msk.getLsbD 2 then .b else .a) o.d) parts.act (64 * l.1) 64)) t) := by
  have same : (parts.lines.find? fun l => !((l.2.2.fmt.map fun f => decide (fmtWidth (fmtOf f) = fmtWidth o.ty)).getD true)) = none := by
    refine List.find?_eq_none.2 fun l hx => ?_
    rw [fmtFits_of_plain (hf l hx)]
    exact Bool.false_ne_true
  have unbound : (eccNoted s (.stT o)).streamRead ⟨tileFile (if o.msk.getLsbD 2 then .b else .a), s.spec 64 o.d⟩ =
      .ok (eccNoted s (.stT o)) := by
    unfold State.streamRead
    rw [show (eccNoted s (.stT o)).me.boundTo _ = none from hfree]
  refine direct_ok s (.stT o) _ hs ((bind_ok (directMods_ok hspace ho) _).trans ((bind_ok (alignedTo_ok hal) _).trans
    ((bind_ok (a := parts) hp _).trans ?_)))
  dsimp only
  rw [if_neg (by simpa using hl)]
  refine (bind_ok (a := parts.lines) rfl _).trans ?_
  simp only [same]
  exact (bind_ok (ensure_of_true hok _) _).trans ((bind_ok unbound _).trans (bind_ok ht _))
end

/-- The line that an element is read from is its part's. -/
theorem tileData_find (parts : TileParts) (t : State) (k : Nat) : (tileData parts t).find? (fun l => l.1 = k) =
    (parts.lines.find? fun l => l.1 = k).map fun l => (l.1, l.2.2, t.directRead l.2.2 64) := List.find?_map
theorem tileVal_eq (parts : TileParts) (wm : Nat) (dec : Bool) (t : State) : tileVal parts wm dec t = fun k =>
    match parts.lines.find? fun l => l.1 = lineOf wm k with
    | none => 0
    | some (j, _, x) =>
      let e := bits (t.directRead x 64) (wm * k + wm - 1 - 512 * j) (wm * k - 512 * j)
      if dec then decodeBf16 (bookEntry (bookAt (t.quad (quadOf t.cur)) (cbslotOf (x.fmt.getD 0)))) (fmtOf (x.fmt.getD 0)) e else e := by
  funext k
  rw [tileVal, tileData_find]
  cases parts.lines.find? fun l => l.1 = lineOf wm k <;> rfl
/-- An element that lands is one of its line. -/
theorem tileLate_some {parts : TileParts} {wm : Nat} {dec : Bool} {t : State} {i : Nat} {e : LateElem} (h : tileLate parts wm dec t i = some e) :
    ∃ l, (parts.lines.find? fun l => l.1 = lineOf wm i) = some l ∧ e.lo = (if dec then 16 else wm) * (i / if dec then 16 / wm else 1) ∧
      e.wd = (if dec then 16 else wm) ∧ e.w = wm ∧ e.bit = wm * i % 8 ∧ e.pa = l.2.2.pa + (wm * i - 512 * l.1) / 8 ∧
      e.face = decide (l.2.2.tier = 1) := by
  rw [tileLate, tileData_find] at h
  cases hl : parts.lines.find? fun l => l.1 = lineOf wm i with
  | none => rw [hl] at h; cases h
  | some l =>
    rw [hl] at h
    cases h
    exact ⟨l, rfl, rfl, rfl, rfl, rfl, rfl, rfl⟩

/-- Settles O29: a tile load is the read of its lines' elements once its checks and its order are met, a store one entry a line. -/
theorem tileLoadsAndStores : Obligations.TileLoadsAndStores := by
  intro s o parts wm dec m ea cl d hspace hal
  refine ⟨fun t ho hs hp hw hl hty hok hready hd ht => ⟨fun j => ((activeElems parts wm).filter fun i =>
    i % (if dec then 16 / wm else 1) = j).filterMap (tileLate parts wm dec t), fun j e he => ?_, ?_⟩,
    fun t ho hs hp hl hf hok hfree ht => exec_stT hspace hal ho hs hp hl hf hok hfree ht⟩
  · obtain ⟨i, hi, hlate⟩ := List.mem_filterMap.1 he
    obtain ⟨hon, hj⟩ := List.mem_filter.1 hi
    obtain ⟨l, hfind, hrest⟩ := tileLate_some hlate
    exact ⟨i, hon, l, of_decide_eq_true hj, hfind, hrest⟩
  · rw [exec_ldT hspace hal ho hs hp hw hl hty hok hready hd ht, tileVal_eq]
    rfl

end Sys2Proof.Claims

namespace Sys2Proof.Claims
open Sys2Proof.Machine

/-! ### The registers that a frame restores (R70, R413) -/

/-- A restored PC is an offset of 20 bits. -/
theorem readFrame_pc_lt (m : List Host.Cell) (b v : Nat) (d : Saved) : (readFrame m b v d).pc < 2 ^ 20 :=
  Nat.mod_lt _ (by decide)

/-- Refutes O40: a restored context takes the low 20 bits of the frame's PC word, so a frame whose word has a bit above them does not
give the PC that the statement reads. The frame at 0 with 1 in byte 3 of that word is one. -/
theorem not_contextEvents : ¬ Obligations.ContextEvents := by
  intro h
  obtain ⟨-, -, -, -, -, hframe⟩ := h {} 0
  obtain ⟨-, -, -, -, hpc⟩ := hframe [(0x10D43, 1)] 0 0 {}
  have hlt := readFrame_pc_lt [(0x10D43, 1)] 0 0 {}
  have hword : leRead ([((0x10D43 : Nat), (1 : Byte))].filter fun c => decide (0 ≤ c.1 ∧ c.1 < 0 + 0x12000)) (0 + 0x10D40) 8 = 2 ^ 24 := by decide
  rw [hpc, hword] at hlt
  exact absurd hlt (by decide)

end Sys2Proof.Claims

namespace Sys2Proof.Machine

/-! ### Every meaning answers a next state (log entry 18) -/

/-- The meaning answers a next state in every state. -/
def Answers (f : State → Out) : Prop := ∀ s, ∃ t, f s = .next t

theorem inTwo_next (s : State) (c : QueueCmd) (code : Nat) (start : State → Option State) (fin : State → Option (State × Nat)) :
    ∃ t, s.inTwo c code start fin = .next t := by
  unfold State.inTwo
  split
  · exact ⟨_, rfl⟩
  split
  · split <;> exact ⟨_, rfl⟩
  split
  · split <;> exact ⟨_, rfl⟩
  · exact ⟨_, rfl⟩
theorem execUnmapq_next (c : QueueCmd) : Answers (execUnmapq c) := by
  intro s
  dsimp only [execUnmapq]
  split
  · exact ⟨_, rfl⟩
  · exact inTwo_next _ _ _ _ _
theorem ringBell_next (s : State) (f : Option Nat) (desc t : Nat) : ∃ u, s.ringBell f desc t = .next u := by
  unfold State.ringBell
  split
  · exact ⟨_, rfl⟩
  split
  · exact ⟨_, rfl⟩
  split <;> exact ⟨_, rfl⟩
theorem execEngineTranslationFault_next (u : EngineUnit) : Answers (execEngineTranslationFault u) := fun _ =>
  match u with
  | .copy _ => ⟨_, rfl⟩
  | .stream _ _ => ⟨_, rfl⟩
theorem execCopyEngineDispatch_next (q : Nat) : Answers (execCopyEngineDispatch q) := by
  intro s
  dsimp only [execCopyEngineDispatch]
  split
  · exact ⟨_, rfl⟩
  · split <;> exact ⟨_, rfl⟩
theorem execStreamTileTake_next (h n : Nat) : Answers (execStreamTileTake h n) := by
  intro s
  dsimp only [execStreamTileTake]
  split
  · exact ⟨_, rfl⟩
  · split <;> exact ⟨_, rfl⟩
theorem execPoolrsp_next (m : PoolRsp) : Answers (execPoolrsp m) := by
  intro s
  dsimp only [execPoolrsp]
  split
  · exact ⟨_, rfl⟩
  split
  · exact ⟨_, rfl⟩
  split
  · split <;> exact ⟨_, rfl⟩
  · split <;> exact ⟨_, rfl⟩
  · split <;> exact ⟨_, rfl⟩
  · exact ⟨_, rfl⟩
  · exact ⟨_, rfl⟩
theorem execTokgrant_next (m : TokMsg) : Answers (execTokgrant m) := by
  intro s
  dsimp only [execTokgrant]
  split
  · split <;> exact ⟨_, rfl⟩
  · exact ⟨_, rfl⟩
theorem execLineadd_next (m : LineMsg) : Answers (execLineadd m) := by
  intro s
  dsimp only [execLineadd]
  split
  · split <;> exact ⟨_, rfl⟩
  · exact ⟨_, rfl⟩

/-- Every instruction and every event answers: a syllable ends as its checks and its effect end, and an event takes place or changes
nothing, most of them by one case of what they find. -/
theorem exec_next (i : Instr) : Answers (exec i) := by
  intro s
  cases i with
  | nop _ | trap _ | mod _ =>
    dsimp only [exec, execNop, execTrap, execMod]
    exact syl_next _ _ _
  | copyEngineDispatch q => exact execCopyEngineDispatch_next q s
  | engineTranslationFault u => exact execEngineTranslationFault_next u s
  | streamTileTake h n => exact execStreamTileTake_next h n s
  | poolrsp m => exact execPoolrsp_next m s
  | tokgrant m => exact execTokgrant_next m s
  | lineadd m => exact execLineadd_next m s
  | unmapq c => exact execUnmapq_next c s
  | doorbell desc tail => exact ringBell_next _ _ _ _
  | preempt _ | resume _ | kill _ | reexec _ | flr _ | bist _ | checkpoint _ | restore _ =>
    dsimp only [exec, execPreempt, execResume, execKill, execReexec, execFlr, execBist, execCheckpoint, execRestore]
    exact inTwo_next _ _ _ _ _
  | codeIndexRefill _ _ | haltComplete _ | copyCommandEnd _ | remoteEngineDispatch _ | remoteCommandEnd _ _ | cspushAccept _
  | cspopDelivery _ _ | streamTileFetch _ _ | streamTileLand _ _ | writeQueueApply _ | planeLayerStart _ _ | planeLayerEnd _ _
  | cubeCommandEnd _ _ | cubeReadEnd _ _ | leaseGrant _ | stacqGrant _ _ | plannedCompletionDeadline _ | commStepEnd _ | droopStart
  | droopEnd | kittySwitchLoss _ | poolreq _ | tokreq _ | tokrecall _ | ualinkRead _ | ualinkAtomic _ | ualinkResponse _ | imageLoad _
  | launchRetire _ | syscRequest | faultRecord | contextRestore _ _ | leaseChange _ =>
    dsimp only [exec,
      execCodeIndexRefill, execHaltComplete, execCopyCommandEnd, execRemoteEngineDispatch, execRemoteCommandEnd, execCspushAccept,
      execCspopDelivery, execStreamTileFetch, execStreamTileLand, execWriteQueueApply, execPlaneLayerStart, execPlaneLayerEnd,
      execCubeCommandEnd, execCubeReadEnd, execLeaseGrant, execStacqGrant, execPlannedCompletionDeadline, execCommStepEnd,
      execDroopStart, execDroopEnd, execKittySwitchLoss, execPoolreq, execTokreq, execTokrecall, execUalinkRead, execUalinkAtomic,
      execUalinkResponse, execImageLoad, execLaunchRetire, execSyscRequest, execFaultRecord, execContextRestore, execLeaseChange]
    split <;> exact ⟨_, rfl⟩
  | registerResultLanding _ | streamEnd _ _ | cubeCommandDispatch _ | cubeCommandStop _ | cubeRecovery _ _ _ | sequencerTransition _ _
  | leaseRunEnd _ | barrierCompletion _ | engineArmTick _ | governorSample _ _ _ | governorStepChange _ | scrub _ _ | peerTimeout _
  | fwrite _ | flaginc _ | loss _ | trigarr _ | ualinkWrite _ | unsupportedVendorMessage _ _ | launch _ | nopCmd _ | phaseArm _ | dealerPoll
  | preemption _ | saveFrameWrite _ | mapq _ | partwrite _ | rangeload _ | walkinv _ | quota _ | attest _ | keyprov _ | service _
  | svcreg _ | svcreply _ | droopcfgWrite _ | govcfgWrite _ _ | vmarginWrite _ _ | lmarginStart _ _ | eyeMeasurementEnd _ _
  | counterClear _ _ _ | zeroiseWrite _ | registerWrite _ _ | tamper | glitch | fwsig | mgmt | powerOnReset | pcieFailure
  | hbmApertureWrite _ _ => exact ⟨_, rfl⟩
  | _ => exact settle_next _ _ _

/-! ### Due events answer too -/

/-- Whatever is due answers. -/
def AllAnswer (d : Due) : Prop := ∀ f, d = some f → Answers f

theorem allAnswer_none : AllAnswer none := fun _ h => nomatch h
theorem allAnswer_some {f : State → Out} (h : Answers f) : AllAnswer (some f) := fun _ e => Option.some.inj e ▸ h
theorem allAnswer_map {α : Type} (o : Option α) {f : α → State → Out} (h : ∀ a, Answers (f a)) : AllAnswer (o.map f) := by
  cases o with
  | none => exact allAnswer_none
  | some a => exact allAnswer_some (h a)
theorem allAnswer_ite {p : Prop} [Decidable p] {d e : Due} (hd : AllAnswer d) (he : AllAnswer e) : AllAnswer (if p then d else e) := by
  split
  · exact hd
  · exact he
theorem allAnswer_when {p : Prop} [Decidable p] {f : State → Out} (h : Answers f) : AllAnswer (if p then some f else none) :=
  allAnswer_ite (allAnswer_some h) allAnswer_none
theorem allAnswer_findSome {α : Type} {g : α → Due} {l : List α} (h : ∀ a ∈ l, AllAnswer (g a)) : AllAnswer (l.findSome? g) := by
  intro f hf
  obtain ⟨a, ha, hg⟩ := List.exists_of_findSome?_eq_some hf
  exact h a ha f hg
theorem allAnswer_firstDue {l : List (Unit → Due)} (h : ∀ f ∈ l, AllAnswer (f ())) : AllAnswer (firstDue l) := allAnswer_findSome h

theorem dueLanding_answers (s : State) : AllAnswer s.dueLanding := allAnswer_map _ fun e => exec_next (.registerResultLanding e.1)
theorem dueWrite_answers (s : State) : AllAnswer s.dueWrite := allAnswer_map _ fun e => exec_next (.writeQueueApply e.n)
theorem dueStreamAt_answers (s : State) (h n : Nat) : AllAnswer (s.dueStreamAt h n) := by
  unfold State.dueStreamAt
  dsimp only
  refine allAnswer_ite allAnswer_none (allAnswer_ite (allAnswer_some (exec_next (.streamEnd h n)))
    (allAnswer_ite (allAnswer_some (exec_next (.streamTileLand h n))) (allAnswer_ite (allAnswer_some (exec_next (.streamTileTake h n)))
      (allAnswer_ite allAnswer_none ?_))))
  split
  next a _ =>
    refine allAnswer_some ?_
    split
    · exact exec_next (.engineTranslationFault (.stream h n))
    · split
      · exact exec_next (.streamTileTake h n)
      · exact exec_next (.streamTileFetch h n)
  next => exact allAnswer_none
theorem dueCopyAt_answers (s : State) (q : Nat) : AllAnswer (s.dueCopyAt q) := by
  unfold State.dueCopyAt
  dsimp only
  split
  next a _ =>
    refine allAnswer_some ?_
    split
    · exact exec_next (.engineTranslationFault (.copy q))
    · exact exec_next (.copyCommandEnd q)
  next => exact allAnswer_when (exec_next (.copyEngineDispatch q))
theorem dueRemoteAt_answers (s : State) (c : Nat) (x : Core) : AllAnswer (s.dueRemoteAt c x) := by
  unfold State.dueRemoteAt
  extract_lets loose
  have hl : AllAnswer loose := allAnswer_findSome fun k _ => allAnswer_ite (allAnswer_some (exec_next (.remoteCommandEnd c k.serial)))
    (allAnswer_ite (allAnswer_some (exec_next (.poolreq ⟨c, k.serial⟩))) (allAnswer_when (exec_next (.ualinkResponse _))))
  clear_value loose
  cases loose with
  | some i => exact hl
  | none => exact allAnswer_ite (allAnswer_some (exec_next (.cspushAccept c))) (allAnswer_when (exec_next (.remoteEngineDispatch c)))
theorem dueFabric_answers (s : State) : AllAnswer s.dueFabric := by
  unfold State.dueFabric
  split
  next t _ => exact allAnswer_some (exec_next (.kittySwitchLoss (t.2 - 2 ^ 17)))
  next =>
    split
    next t _ => exact allAnswer_some (exec_next (.peerTimeout (t.2 - 2 ^ 16)))
    next =>
      split
      next i hi =>
        have hc : AllAnswer (s.cores.findSome? fun e => s.dueRemoteAt e.1 e.2) := allAnswer_findSome fun e _ => dueRemoteAt_answers s e.1 e.2
        exact allAnswer_some (hc i hi)
      next => exact allAnswer_findSome fun q _ => allAnswer_findSome fun b _ => allAnswer_when (exec_next (.cspopDelivery q b))
theorem dueCubeAt_answers (s : State) (q : Nat) : AllAnswer (s.dueCubeAt q) := by
  refine allAnswer_findSome ?_
  simp only [List.forall_mem_cons, List.not_mem_nil, false_imp_iff, implies_true, and_true, id_eq]
  refine ⟨allAnswer_ite allAnswer_none (allAnswer_some (exec_next (.governorStepChange q))),
    allAnswer_map _ fun e => exec_next (.cubeRecovery q e.1 e.2),
    allAnswer_findSome fun l _ => allAnswer_map _ fun _ => exec_next (.planeLayerEnd q l),
    allAnswer_map _ fun r => exec_next (.cubeCommandEnd q r.cmd.serial),
    allAnswer_map _ fun i => exec_next (.cubeCommandStop (16 * q + i)),
    allAnswer_findSome fun l _ => allAnswer_when (exec_next (.sequencerTransition q l)),
    allAnswer_findSome fun l _ => allAnswer_map _ fun _ => exec_next (.planeLayerStart q l),
    allAnswer_when (exec_next (.cubeCommandDispatch q)),
    allAnswer_map _ fun k => exec_next (.cubeReadEnd q k.serial),
    allAnswer_when (exec_next (.leaseRunEnd q)),
    allAnswer_map _ fun _ => exec_next (.leaseGrant q)⟩
theorem duePreempt_answers (s : State) : AllAnswer s.duePreempt := by
  unfold State.duePreempt
  split
  next e _ => exact allAnswer_some (exec_next (.preemption e.1))
  next =>
    split
    next e _ => exact allAnswer_some (exec_next (.saveFrameWrite e.1))
    next =>
      refine allAnswer_findSome fun v _ => allAnswer_findSome fun e _ => ?_
      split
      next => exact allAnswer_when (exec_next (.contextRestore e.1 e.1))
      next => exact allAnswer_none
theorem duePolicy_answers (s : State) : AllAnswer s.duePolicy := by
  unfold State.duePolicy
  split
  next => exact allAnswer_when (exec_next .faultRecord)
  next => exact allAnswer_none
theorem dueLaunchAt_answers (s : State) (l : Launch) : AllAnswer (s.dueLaunchAt l) := by
  refine allAnswer_firstDue ?_
  simp only [List.forall_mem_cons, List.not_mem_nil, false_imp_iff, implies_true, and_true]
  exact ⟨allAnswer_map _ fun q => exec_next (.leaseChange q), allAnswer_map _ fun _ => exec_next (.commStepEnd l.id),
    allAnswer_map _ fun _ => exec_next (.phaseArm l.id), allAnswer_map _ fun c => exec_next (.imageLoad c),
    allAnswer_map _ fun u => exec_next (.engineArmTick u), allAnswer_when (exec_next (.launchRetire l.id))⟩
theorem dueStage_answers (s : State) : AllAnswer s.dueStage :=
  allAnswer_findSome fun t _ => allAnswer_findSome fun e _ => allAnswer_map _ fun _ => exec_next (.stacqGrant t.1 e.1)
theorem hostCommand_answers (n : Nat) (c : QueueCmd) : AllAnswer (hostCommand n c) := by
  unfold hostCommand
  split
  · exact allAnswer_some (exec_next (.launch c))
  · exact allAnswer_some (exec_next (.nopCmd c))
  · exact allAnswer_some (exec_next (.mapq c))
  · exact allAnswer_some (exec_next (.unmapq c))
  · exact allAnswer_some (exec_next (.partwrite c))
  · exact allAnswer_some (exec_next (.rangeload c))
  · exact allAnswer_some (exec_next (.walkinv c))
  · exact allAnswer_some (exec_next (.preempt c))
  · exact allAnswer_some (exec_next (.resume c))
  · exact allAnswer_some (exec_next (.kill c))
  · exact allAnswer_some (exec_next (.reexec c))
  · exact allAnswer_some (exec_next (.flr c))
  · exact allAnswer_some (exec_next (.quota c))
  · exact allAnswer_some (exec_next (.bist c))
  · exact allAnswer_some (exec_next (.attest c))
  · exact allAnswer_some (exec_next (.keyprov c))
  · exact allAnswer_some (exec_next (.service c))
  · exact allAnswer_some (exec_next (.checkpoint c))
  · exact allAnswer_some (exec_next (.restore c))
  · exact allAnswer_some (exec_next (.svcreg c))
  · exact allAnswer_some (exec_next (.svcreply c))
  · exact allAnswer_none
theorem dueQueueAt_answers (s : State) (n : Nat) (q : DQueue) : AllAnswer (s.dueQueueAt n q) := by
  unfold State.dueQueueAt
  split
  next => exact allAnswer_none
  next ix e _ =>
    intro g hg
    obtain ⟨f, hf, he⟩ := Option.bind_eq_some_iff.1 hg
    have ha : Answers f := hostCommand_answers _ _ f hf
    revert he
    refine allAnswer_ite (allAnswer_some ha) ?_ g
    split
    next => exact allAnswer_ite allAnswer_none (allAnswer_some ha)
    next => exact allAnswer_none
theorem dueDealer_answers (s : State) : AllAnswer s.dueDealer := by
  refine allAnswer_firstDue ?_
  simp only [List.forall_mem_cons, List.not_mem_nil, false_imp_iff, implies_true, and_true]
  exact ⟨allAnswer_map _ fun _ _ => ⟨_, rfl⟩, allAnswer_map _ fun n => exec_next (.barrierCompletion n),
    allAnswer_map _ fun e => exec_next (.haltComplete e.1), dueStage_answers s, allAnswer_findSome fun l _ => dueLaunchAt_answers s l,
    allAnswer_map _ fun n => exec_next (.plannedCompletionDeadline n), duePolicy_answers s, duePreempt_answers s,
    allAnswer_map _ fun _ => exec_next .syscRequest, allAnswer_when (exec_next .dealerPoll),
    allAnswer_findSome fun q _ => dueQueueAt_answers s q.1 q.2⟩
/-- The event that is due answers. -/
theorem dueEvent_answers (s : State) : AllAnswer s.dueEvent := by
  refine allAnswer_firstDue ?_
  simp only [List.forall_mem_cons, List.not_mem_nil, false_imp_iff, implies_true, and_true]
  exact ⟨dueLanding_answers s, dueWrite_answers s, allAnswer_findSome fun x _ => dueStreamAt_answers s x.1 x.2.1,
    allAnswer_findSome fun e _ => dueCopyAt_answers s e.1, dueFabric_answers s, allAnswer_findSome fun e _ => dueCubeAt_answers s e.1,
    dueDealer_answers s⟩

/-! ### An attempt and a step -/

theorem issueAll_next (b : List Instr) : Answers (issueAll b) := by
  induction b with
  | nil => exact fun s => ⟨s, rfl⟩
  | cons i rest ih =>
    intro s
    obtain ⟨t, ht⟩ := exec_next i s
    rw [issueAll_cons i rest s t ht]
    split
    · exact ⟨t, rfl⟩
    · exact ih t

section
variable {s : State} {g w : Nat} {lit : Bool}

/-- A bundle that has no meaning, or that the loader rejects, stops the run (R114, R118). -/
theorem issueBundle_rejected (hf : (s.onIssue g).fetch g = .ok (w, lit))
    (h : (∃ e, decodeBundle w = .error e) ∨ ∃ b, decodeBundle w = .ok b ∧ bundleReject b ≠ none) :
    s.issueBundle g = .fault .rejectedBundle := by
  unfold State.onIssue at hf
  rcases h with ⟨e, hd⟩ | ⟨b, hd, hr⟩
  · simp only [State.issueBundle, hf, hd]
  · simp only [State.issueBundle, hf, hd, hr, ne_eq, not_false_eq_true, if_true]
/-- Any other attempt commits, faults or blocks. -/
theorem issueBundle_next (h : ¬ ∃ w lit, (s.onIssue g).fetch g = .ok (w, lit) ∧
    ((∃ e, decodeBundle w = .error e) ∨ ∃ b, decodeBundle w = .ok b ∧ bundleReject b ≠ none)) : ∃ t, s.issueBundle g = .next t := by
  cases hf : (s.onIssue g).fetch g with
  | error c => exact ⟨_, issueBundle_of_fetch_error s g c hf⟩
  | ok p =>
    obtain ⟨w, lit⟩ := p
    have hn : ¬ ((∃ e, decodeBundle w = .error e) ∨ ∃ b, decodeBundle w = .ok b ∧ bundleReject b ≠ none) :=
      fun hw => h ⟨w, lit, hf, hw⟩
    cases hd : decodeBundle w with
    | error e => exact absurd (.inl ⟨e, hd⟩) hn
    | ok b =>
      have hr : bundleReject b = none := by_contra fun hr => hn (.inr ⟨b, hd, hr⟩)
      obtain ⟨t, hi⟩ := issueAll_next b { s.onIssue g with issue := { literal := lit } }
      cases hfault : t.issue.fault with
      | some f => exact ⟨_, issueBundle_faults hf hd hr hi hfault⟩
      | none =>
        cases hblock : t.issue.block with
        | some x => exact ⟨_, issueBundle_blocks hf hd hr hi hfault hblock⟩
        | none => exact ⟨_, issueBundle_commits hf hd hr hi hfault hblock⟩
end

/-- The state in which context `g` makes its attempt. -/
def State.onTry (s : State) (g : Nat) : State := { s with fresh := s.fresh + 1, tried := g :: s.tried }
/-- The attempt of context `g` meets a bundle that stops the run. -/
def State.triesRejected (s : State) (g : Nat) : Prop := ∃ w lit, ((s.onTry g).onIssue g).fetch g = .ok (w, lit) ∧
  ((∃ e, decodeBundle w = .error e) ∨ ∃ b, decodeBundle w = .ok b ∧ bundleReject b ≠ none)
theorem attempt_rejected {s : State} {g : Nat} (h : s.triesRejected g) : s.attempt g = .fault .rejectedBundle := by
  obtain ⟨w, lit, hf, hw⟩ := h
  exact issueBundle_rejected (s := s.onTry g) hf hw
theorem attempt_next {s : State} {g : Nat} (h : ¬ s.triesRejected g) : ∃ t, s.attempt g = .next t := issueBundle_next (s := s.onTry g) h

/-- An event of the outside world that is no event, or whose unit does not exist, stops the run. -/
theorem step_noSuchUnit {s t : State} {i : Instr} (ha : s.agendaHead = some (i, t)) (h : i.row.isSome = true ∨ i.eventOk = false) :
    step s = .fault .noSuchUnit := by
  have hc : i.row.isSome = true ∨ (!i.eventOk) = true := h.imp_right fun he => by rw [he]; rfl
  simp only [step, ha, if_pos hc]
theorem step_of_dueEvent {s : State} {f : State → Out} (ha : s.agendaHead = none) (hd : s.dueEvent = some f) :
    step s = f { s with fresh := s.fresh + 1 } := by
  simp only [step, ha, hd]
theorem step_of_idle {s : State} (ha : s.agendaHead = none) (hd : s.dueEvent = none) (hn : s.nextIssue = none) : step s = .next s.tickOver := by
  simp only [step, ha, hd, hn]

end Sys2Proof.Machine

namespace Sys2Proof.Claims
open Sys2Proof.Machine

/-- Settles O57: every meaning answers, and a step is one meaning, one attempt or the end of the tick. -/
theorem everyMeaningAnswers : Obligations.EveryMeaningAnswers := by
  refine ⟨exec_next, fun s => ⟨?_, ?_, fun hu hr => ?_⟩⟩
  · rintro ⟨i, t, ha, h⟩
    exact step_noSuchUnit ha h
  · rintro ⟨ha, hd, turn, g, w, lit, hn, hf, hw⟩
    rw [step_of_nextIssue s turn g ha hd hn]
    exact attempt_rejected ⟨w, lit, hf, hw⟩
  · cases ha : s.agendaHead with
    | some x =>
      obtain ⟨i, t⟩ := x
      have hi : ¬ (i.row.isSome = true ∨ i.eventOk = false) := fun h => hu ⟨i, t, ha, h⟩
      obtain ⟨hrow, hok⟩ := not_or.1 hi
      rw [step_of_agendaHead s t i ha (by simpa using hrow) (by simpa using hok)]
      exact exec_next i t
    | none =>
      cases hd : s.dueEvent with
      | some f =>
        rw [step_of_dueEvent ha hd]
        exact dueEvent_answers s f hd _
      | none =>
        cases hn : s.nextIssue with
        | none => exact ⟨_, step_of_idle ha hd hn⟩
        | some x =>
          obtain ⟨turn, g⟩ := x
          rw [step_of_nextIssue s turn g ha hd hn]
          exact attempt_next fun ⟨w, lit, hf, hw⟩ => hr ⟨ha, hd, turn, g, w, lit, hn, hf, hw⟩

end Sys2Proof.Claims

namespace Sys2Proof.Claims
open Sys2Proof.Machine

/-! ### Scalar results (R129, R131, R132) -/

/-- A syllable whose own effect is one scalar result gives it. -/
theorem exec_gives {s : State} {i : Instr} {g : State → Except Halt State} {d : BitVec 7} {lat : BitVec 4} {n : Nat} {v : Word}
    (he : exec i s = s.syl i g) (hg : g (s.noted i) = (s.noted i).giveWord d lat n v) (hr : s.operandsReady i = true) :
    exec i s = gives s i d lat n v :=
  he.trans (syl_ok s i g hr hg)

/-- An exact result wrapped or clamped and then widened is the narrowed result (R78, R129). -/
theorem widen_intResult (t : BitVec 5) (sat : Bool) (v : Int) (h : scalarInt t) : widen t (intResult t sat v) = narrow t sat v := by
  rw [widen, intResult, wrapInt_toNat (fmtWidth t)]
  exact widen_pattern t _ (fmtWidth_scalarInt_pos t h)
/-- A pattern is already narrow. -/
theorem widen_intResult_pattern (t : BitVec 5) (b : BitVec (fmtWidth t)) (h : scalarInt t) :
    widen t (intResult t false (b.toNat : Int)) = extend t b := by
  rw [widen_intResult t false _ h]
  exact congrArg (extend t) ((BitVec.ofInt_natCast ..).trans ((BitVec.ofNat_toNat _ b).trans (BitVec.setWidth_eq b)))
theorem srcA_operand (s : State) (t : BitVec 5) (x : BitVec 7) (h : scalarInt t) : s.srcA t x = operand t (s.rs x) :=
  intDecode_operand t (s.rs x) h

/-- An integer form gives its exact result narrowed. -/
theorem exec_giveInt {s : State} {i : Instr} {g : State → Except Halt State} {t : BitVec 5} {sat : Bool} {d : BitVec 7} {lat : BitVec 4}
    {n : Nat} {v : Int} (h : scalarInt t) (he : exec i s = s.syl i g) (hg : g (s.noted i) = (s.noted i).giveInt t sat d lat n v)
    (hr : s.operandsReady i = true) : exec i s = gives s i d lat n (narrow t sat v) := by
  rw [← widen_intResult t sat v h]
  exact exec_gives he hg hr
theorem exec_intFR {s : State} {i : Instr} {o : FR} {n : Nat} {f : Int → Int → Int} (h : scalarInt o.ty) (he : exec i s = s.intFR i o n f)
    (hr : s.operandsReady i = true) :
    exec i s = gives s i o.d o.lat n (narrow o.ty o.sat (f (operand o.ty (s.rs o.a)) (operand o.ty (s.rs o.b)))) := by
  rw [← srcA_operand s _ _ h, ← srcA_operand s _ _ h]
  exact exec_giveInt h he rfl hr
theorem exec_intFI {s : State} {i : Instr} {o : FI} {n : Nat} {f : Int → Int → Int} (h : scalarInt o.ty) (he : exec i s = s.intFI i o n f)
    (hr : s.operandsReady i = true) :
    exec i s = gives s i o.d o.lat n (narrow o.ty o.sat (f (operand o.ty (s.rs o.a)) (operand o.ty (imm64 o.v o.imm)))) := by
  rw [← srcA_operand s _ _ h, ← immInt_operand o h]
  exact exec_giveInt h he rfl hr

/-- The bitwise functions of two patterns (R131). -/
theorem onBits_and (w : Nat) : onBits w (· &&& ·) = fun a b => ((BitVec.ofInt w a &&& BitVec.ofInt w b).toNat : Int) := by
  funext a b
  rw [onBits, wrapInt_toNat, wrapInt_toNat, BitVec.toNat_and]
theorem onBits_or (w : Nat) : onBits w (· ||| ·) = fun a b => ((BitVec.ofInt w a ||| BitVec.ofInt w b).toNat : Int) := by
  funext a b
  rw [onBits, wrapInt_toNat, wrapInt_toNat, BitVec.toNat_or]
theorem onBits_xor (w : Nat) : onBits w (· ^^^ ·) = fun a b => ((BitVec.ofInt w a ^^^ BitVec.ofInt w b).toNat : Int) := by
  funext a b
  rw [onBits, wrapInt_toNat, wrapInt_toNat, BitVec.toNat_xor]
theorem onBits_andn (w : Nat) : onBits w (fun a b => a &&& (2 ^ w - 1 - b)) =
    fun a b => ((BitVec.ofInt w a &&& ~~~BitVec.ofInt w b).toNat : Int) := by
  funext a b
  rw [onBits, wrapInt_toNat, wrapInt_toNat, BitVec.toNat_and, BitVec.toNat_not]

/-- Each two-source form is the common effect of R129 with its function. -/
theorem exec_intFR_row (s : State) (p : SPos) (o : FR) : ∀ e ∈ intFR p o, exec e.1 s = s.intFR e.1 o e.2.1 e.2.2 := by
  simp only [intFR, ← onBits_and, ← onBits_or, ← onBits_xor, ← onBits_andn, List.forall_mem_cons, List.not_mem_nil, false_imp_iff,
    implies_true, and_true]
  exact ⟨rfl, rfl, rfl, rfl, rfl, rfl, rfl, rfl, rfl, rfl, rfl, rfl, rfl, rfl, rfl, rfl, rfl⟩
theorem exec_intFI_row (s : State) (p : SPos) (o : FI) : ∀ e ∈ intFI p o, exec e.1 s = s.intFI e.1 o e.2.1 e.2.2 := by
  simp only [intFI, ← onBits_and, ← onBits_or, ← onBits_xor, ← onBits_andn, List.forall_mem_cons, List.not_mem_nil, false_imp_iff,
    implies_true, and_true]
  exact ⟨rfl, rfl, rfl, rfl, rfl, rfl, rfl, rfl, rfl, rfl, rfl⟩

/-- Settles O1: each form is the common effect of R129 with its function, and what it gives is narrow. -/
theorem scalarIntegerForms : Obligations.ScalarIntegerForms := by
  refine ⟨fun s p o ht e he hr => exec_intFR ht (exec_intFR_row s p o e he) hr,
    fun s p o ht e he hr => exec_intFI ht (exec_intFI_row s p o e he) hr, fun s p => ⟨fun o ht hr => ?_, fun o ht hr => ?_⟩⟩
  · simp only [← srcA_operand s _ _ ht]
    exact exec_giveInt ht rfl rfl hr
  · simp only [← srcA_operand s _ _ ht, ← immInt_operand o ht]
    exact exec_giveInt ht rfl rfl hr

end Sys2Proof.Claims

namespace Sys2Proof.Claims
open Sys2Proof.Machine

/-! ### Shifts and rotates (R133) -/

/-- The model's name of a turn. -/
def Turn.kind : Turn → ShiftKind
  | .left => .shl
  | .right => .shr
  | .arith => .sar
  | .rotl => .rol
  | .rotr => .ror
/-- Past the width an arithmetic shift leaves the sign alone. -/
theorem sshiftRight_min {w : Nat} (x : BitVec w) (c : Nat) : x.sshiftRight (min c w) = x.sshiftRight c := by
  rcases Nat.le_total c w with h | h
  · rw [Nat.min_eq_left h]
  · refine BitVec.eq_of_getElem_eq fun i hi => ?_
    rw [Nat.min_eq_right h, BitVec.getElem_sshiftRight, BitVec.getElem_sshiftRight, dif_neg (by omega), dif_neg (by omega)]
/-- The model's shifts of patterns are those of bit vectors. -/
theorem shiftOp_kind {w : Nat} (hw : 0 < w) (k : Turn) (x : BitVec w) (c : Nat) : shiftOp k.kind w x.toNat c = (k.of x c).toNat := by
  cases k with
  | left =>
    rcases Nat.lt_or_ge c w with h | h
    · exact (if_pos h).trans BitVec.toNat_shiftLeft.symm
    · exact (if_neg (Nat.not_lt.2 h)).trans (congrArg BitVec.toNat (BitVec.shiftLeft_eq_zero h)).symm
  | right =>
    rcases Nat.lt_or_ge c w with h | h
    · exact if_pos h
    · exact (if_neg (Nat.not_lt.2 h)).trans (congrArg BitVec.toNat (BitVec.ushiftRight_eq_zero h)).symm
  | arith =>
    have hx : toSigned w x.toNat = x.toInt := by rw [toSigned_toInt w _ hw, BitVec.ofNat_toNat, BitVec.setWidth_eq]
    calc wrapInt w (toSigned w x.toNat >>> min c w) = (x.sshiftRight (min c w)).toNat := by rw [wrapInt_toNat, hx]; rfl
      _ = (x.sshiftRight c).toNat := by rw [sshiftRight_min]
  | rotl =>
    have hlt : x.toNat >>> (w - c % w) < 2 ^ w := Nat.lt_of_le_of_lt (Nat.shiftRight_le ..) x.isLt
    simp only [Turn.kind, shiftOp, Turn.of, BitVec.toNat_rotateLeft, Nat.or_mod_two_pow, Nat.mod_eq_of_lt hlt, Nat.mod_mod]
  | rotr =>
    have hlt : x.toNat >>> (c % w) < 2 ^ w := Nat.lt_of_le_of_lt (Nat.shiftRight_le ..) x.isLt
    simp only [Turn.kind, shiftOp, Turn.of, BitVec.toNat_rotateRight, Nat.or_mod_two_pow, Nat.mod_eq_of_lt hlt, Nat.mod_mod]

/-- Each shift is the common effect of R133 with its kind. -/
theorem exec_shiftsFR_row (s : State) (p : SPos) (o : FR) : ∀ e ∈ shiftsFR p o, exec e.1 s = s.shiftFR e.1 o e.2.kind := by
  simp only [shiftsFR, List.forall_mem_cons, List.not_mem_nil, false_imp_iff, implies_true, and_true]
  exact ⟨rfl, rfl, rfl, rfl, rfl⟩
theorem exec_shiftsFI_row (s : State) (p : SPos) (o : FI) : ∀ e ∈ shiftsFI p o, exec e.1 s = s.shiftFI e.1 o e.2.kind := by
  simp only [shiftsFI, List.forall_mem_cons, List.not_mem_nil, false_imp_iff, implies_true, and_true]
  exact ⟨rfl, rfl, rfl, rfl, rfl⟩
/-- A form that gives a pattern of its type extends it. -/
theorem exec_givePattern {s : State} {i : Instr} {g : State → Except Halt State} {t : BitVec 5} {d : BitVec 7} {lat : BitVec 4} {m n : Nat}
    (b : BitVec (fmtWidth t)) (h : scalarInt t) (he : exec i s = s.syl i g) (hg : g (s.noted i) = (s.noted i).giveInt t false d lat n (m : Int))
    (hb : m = b.toNat) (hr : s.operandsReady i = true) : exec i s = gives s i d lat n (extend t b) := by
  subst hb
  rw [← widen_intResult_pattern t b h]
  exact exec_gives he hg hr
/-- The low bits that a shift turns. -/
theorem shiftOp_word (t : BitVec 5) (h : scalarInt t) (k : Turn) (x : Word) (c : Nat) :
    shiftOp k.kind (fmtWidth t) (x.toNat % 2 ^ fmtWidth t) c = (k.of (x.setWidth (fmtWidth t)) c).toNat := by
  rw [← shiftOp_kind (fmtWidth_scalarInt_pos t h), BitVec.toNat_setWidth]

/-! ### Bit counts and the byte swap (R134) -/

/-- A count of the low bits is given as it is. -/
theorem exec_countFR {s : State} {i : Instr} {o : FR} {f : Nat → Nat → Nat} (he : exec i s = s.countFR i o f) (hr : s.operandsReady i = true) :
    exec i s = gives s i o.d o.lat 1 (BitVec.ofNat 64 (f (fmtWidth o.ty) (s.rs o.a).toNat)) := exec_gives he rfl hr
/-- The leading zeros of a pattern place it between two powers of two. -/
theorem lzCount_spec (w x : Nat) : lzCount w x ≤ w ∧ x % 2 ^ w < 2 ^ (w - lzCount w x) ∧
    (lzCount w x < w → 2 ^ (w - lzCount w x - 1) ≤ x % 2 ^ w) := by
  by_cases h : x % 2 ^ w = 0
  · simp [lzCount, h]
  · have hlog : (x % 2 ^ w).log2 < w := (Nat.log2_lt h).2 (Nat.mod_lt _ (Nat.two_pow_pos w))
    have hw : w - lzCount w x = (x % 2 ^ w).log2 + 1 := by rw [lzCount, if_neg h]; omega
    rw [hw]
    exact ⟨by rw [lzCount, if_neg h]; omega, Nat.lt_log2_self, fun _ => Nat.log2_self_le h⟩
/-- The trailing zeros of a pattern end at its first 1, or at its width. -/
theorem tzCount_spec (w x : Nat) : tzCount w x ≤ w ∧ (∀ j < tzCount w x, bit x j = false) ∧ (tzCount w x < w → bit x (tzCount w x) = true) := by
  cases h : (List.range w).find? fun i => bit x i with
  | none => simpa [tzCount, h] using List.find?_range_eq_none.1 h
  | some i =>
    obtain ⟨hi, hw, hb⟩ := List.find?_range_eq_some.1 h
    simpa [tzCount, h, hi, (List.mem_range.1 hw).le] using hb
/-- A bit of a pattern is the bit of the register. -/
theorem getLsbD_low {w j : Nat} (x : Word) (h : j < w) : (x.setWidth w).getLsbD j = bit x.toNat j := by
  rw [BitVec.getLsbD_setWidth, decide_eq_true h, Bool.true_and]
  rfl
theorem popCount_pattern (w : Nat) (x : Word) :
    popCount w x.toNat = ((List.range w).filter fun j => (x.setWidth w).getLsbD j).length :=
  congrArg List.length (List.filter_congr fun _ hj => (getLsbD_low x (List.mem_range.1 hj)).symm)

/-- The first `n` bytes of a number in reverse. -/
def bytesBack (x n : Nat) : Nat := (List.range n).foldl (fun a i => a * 256 + bits x (8 * i + 7) (8 * i)) 0
theorem byteSwap_eq (w x : Nat) : byteSwap w x = bytesBack x (w / 8) := rfl
theorem bytesBack_succ (x n : Nat) : bytesBack x (n + 1) = bytesBack x n * 256 + bits x (8 * n + 7) (8 * n) := by
  rw [bytesBack, List.range_succ, List.foldl_append]
  rfl
theorem byte_lt (x n : Nat) : bits x (8 * n + 7) (8 * n) < 256 := by
  rw [bits, show 8 * n + 7 + 1 - 8 * n = 8 by omega]
  exact Nat.mod_lt _ (by decide)
theorem bytesBack_lt (x n : Nat) : bytesBack x n < 256 ^ n := by
  induction n with
  | zero => exact Nat.one_pos
  | succ n ih =>
    have := byte_lt x n
    rw [bytesBack_succ, Nat.pow_succ]
    omega
/-- Byte `j` of the reverse is byte `n - 1 - j`. -/
theorem bytesBack_byte (x : Nat) {n j : Nat} (h : j < n) :
    bytesBack x n / 256 ^ j % 256 = bits x (8 * (n - 1 - j) + 7) (8 * (n - 1 - j)) := by
  induction n generalizing j with
  | zero => omega
  | succ n ih =>
    have hb := byte_lt x n
    rw [bytesBack_succ]
    cases j with
    | zero =>
      simp only [Nat.add_sub_cancel, Nat.sub_zero, Nat.pow_zero, Nat.div_one]
      omega
    | succ j =>
      have hd : (bytesBack x n * 256 + bits x (8 * n + 7) (8 * n)) / 256 ^ (j + 1) = bytesBack x n / 256 ^ j := by
        rw [Nat.pow_succ', ← Nat.div_div_eq_div_mul]
        congr 1
        omega
      rw [hd, ih (by omega), show n + 1 - 1 - (j + 1) = n - 1 - j by omega]
/-- Each byte of a swapped pattern is the one at the same distance from the other end. -/
theorem byteSwap_byte {w j : Nat} (hw : 8 ∣ w) (x : BitVec w) (hj : j < w / 8) :
    (BitVec.ofNat w (byteSwap w x.toNat)).extractLsb' (8 * j) 8 = x.extractLsb' (w - 8 - 8 * j) 8 := by
  obtain ⟨n, rfl⟩ := hw
  have hn : 8 * n / 8 = n := Nat.mul_div_cancel_left n (by decide)
  have hlt := bytesBack_lt x.toNat n
  rw [show 256 ^ n = 2 ^ (8 * n) by rw [Nat.pow_mul]] at hlt
  rw [hn] at hj
  apply BitVec.eq_of_toNat_eq
  rw [BitVec.extractLsb'_toNat, BitVec.extractLsb'_toNat, BitVec.toNat_ofNat, byteSwap_eq, hn, Nat.mod_eq_of_lt hlt, Nat.shiftRight_eq_div_pow,
    show 2 ^ (8 * j) = 256 ^ j by rw [Nat.pow_mul]]
  refine (bytesBack_byte x.toNat hj).trans ?_
  rw [bits, show 8 * (n - 1 - j) + 7 + 1 - 8 * (n - 1 - j) = 8 by omega, show 8 * (n - 1 - j) = 8 * n - 8 - 8 * j by omega]
theorem byteSwap_lt {w : Nat} (hw : 8 ∣ w) (x : Nat) : byteSwap w x < 2 ^ w := by
  obtain ⟨n, rfl⟩ := hw
  rw [byteSwap_eq, Nat.mul_div_cancel_left n (by decide), Nat.pow_mul]
  exact bytesBack_lt x n
theorem eight_dvd_fmtWidth (t : BitVec 5) (h : scalarInt t) : 8 ∣ fmtWidth t := by
  rcases fmtWidth_scalar t h with hw | hw | hw | hw <;> rw [hw] <;> decide

/-- Settles O2: a shift is one of bit vectors, a count is that of the low bits, and the bytes of a swap are in reverse. -/
theorem shiftsAndBitCounts : Obligations.ShiftsAndBitCounts := by
  refine ⟨fun s p => ⟨fun o ht e he hr => ?_, fun o ht e he hr => ?_⟩,
    fun s p o ht => ⟨fun hr => ?_, fun hr => ?_, fun hr => ?_, fun hr => ?_⟩⟩
  · exact exec_givePattern _ ht (exec_shiftsFR_row s p o e he) rfl (shiftOp_word _ ht _ _ _) hr
  · rw [← intImm_count]
    exact exec_givePattern _ ht (exec_shiftsFI_row s p o e he) rfl (shiftOp_word _ ht _ _ _) hr
  · obtain ⟨hw, hlt, hge⟩ := lzCount_spec (fmtWidth o.ty) (s.rs o.a).toNat
    exact ⟨_, exec_countFR rfl hr, hw, by rwa [BitVec.toNat_setWidth], by rwa [BitVec.toNat_setWidth]⟩
  · obtain ⟨hw, hz, h1⟩ := tzCount_spec (fmtWidth o.ty) (s.rs o.a).toNat
    exact ⟨_, exec_countFR rfl hr, hw, fun j hj => (getLsbD_low _ (by omega)).trans (hz j hj), fun h => (getLsbD_low _ h).trans (h1 h)⟩
  · rw [← popCount_pattern]
    exact exec_countFR rfl hr
  · have h8 := eight_dvd_fmtWidth o.ty ht
    refine ⟨BitVec.ofNat _ (byteSwap (fmtWidth o.ty) ((s.rs o.a).toNat % 2 ^ fmtWidth o.ty)), exec_givePattern _ ht rfl rfl ?_ hr, fun _ hj => ?_⟩
    · rw [BitVec.toNat_ofNat, Nat.mod_eq_of_lt (byteSwap_lt h8 _)]
      rfl
    · rw [← BitVec.toNat_setWidth]
      exact byteSwap_byte h8 _ hj

end Sys2Proof.Claims

namespace Sys2Proof.Claims
open Sys2Proof.Machine

/-! ### Moves, fields and immediates (R135-R138) -/

/-- A field as a number is the field as a pattern, extended with its sign or with zeros (R136). -/
theorem field_signed (x : Word) (pos len : Nat) (h : 0 < len) :
    BitVec.ofNat 64 (wrapInt 64 (toSigned len (x.toNat >>> pos % 2 ^ len))) = (x.extractLsb' pos len).signExtend 64 := by
  rw [← BitVec.extractLsb'_toNat, toSigned_toInt len _ h, wrapInt_toNat, BitVec.ofNat_toNat, BitVec.ofNat_toNat, BitVec.setWidth_eq,
    BitVec.setWidth_eq]
  rfl
theorem field_unsigned (x : Word) (pos len : Nat) : BitVec.ofNat 64 (x.toNat >>> pos % 2 ^ len) = (x.extractLsb' pos len).setWidth 64 := by
  rw [← BitVec.extractLsb'_toNat, BitVec.ofNat_toNat]

/-- Settles O3: each form gives one word; `ins` and `lih` set the bits of one field, and every other bit is the register's. -/
theorem scalarMovesAndFields : Obligations.ScalarMovesAndFields := by
  refine ⟨fun s p => ⟨fun o hr => exec_gives rfl rfl hr, fun o hv hr => exec_gives rfl (if_pos hv) hr, fun o hv hr => ?_,
    fun o hr => exec_gives rfl ?_ hr, fun o hr => ?_⟩,
    fun s p o => ⟨fun _ hr => exec_gives rfl ?_ hr, fun hp hr => ⟨_, exec_gives rfl rfl hr, fun k hk => ?_⟩,
      fun hq hr => ⟨_, exec_gives rfl rfl hr, fun k hk => ?_⟩⟩⟩
  · exact syl_ok s (.movx p o) _ hr (if_neg (by simpa using hv))
  · exact congrArg (State.giveWord _ _ _ _) (ite_not ..)
  · have himm : BitVec.ofNat 64 (intImm 64 o.v o.imm) = imm64 o.v o.imm := by
      rw [intImm_count, BitVec.ofNat_toNat, BitVec.setWidth_eq]
    exact exec_gives rfl (congrArg (State.giveWord _ _ _ _) himm) hr
  · refine congrArg (State.giveWord _ _ _ _) ?_
    dsimp only
    split_ifs
    · exact field_signed (s.rs o.a) _ _ (Nat.succ_pos _)
    · exact field_unsigned (s.rs o.a) _ _
  · rw [getLsbD_setBits]
    exact if_congr (by omega) rfl rfl
  · rw [getLsbD_setBits]
    split_ifs with h1 h2 h3
    · rw [bits, Nat.shiftRight_zero, Nat.testBit_mod_two_pow, decide_eq_true (by omega), Bool.true_and]
      rfl
    · omega
    · omega
    · rfl

/-! ### Scalar floating point (R139-R141) -/

theorem srcF_single (s : State) (x : BitVec 7) : s.srcF x = single (s.rs x) := (BitVec.toNat_setWidth 32 (s.rs x)).symm
theorem exec_floatFR {s : State} {i : Instr} {o : FR} {n : Nat} {f : Nat → Nat → Nat} (he : exec i s = s.floatFR i o n f)
    (hr : s.operandsReady i = true) :
    exec i s = gives s i o.d o.lat n (BitVec.ofNat 64 (f (single (s.rs o.a)) (single (s.rs o.b)))) := by
  rw [← srcF_single, ← srcF_single]
  exact exec_gives he rfl hr
theorem exec_floatFI {s : State} {i : Instr} {o : FI} {n : Nat} {f : Nat → Nat → Nat} (he : exec i s = s.floatFI i o n f)
    (hr : s.operandsReady i = true) :
    exec i s = gives s i o.d o.lat n (BitVec.ofNat 64 (f (single (s.rs o.a)) (bfImm 0x10 o.imm.toNat))) := by
  rw [← srcF_single]
  exact exec_gives he rfl hr
/-- Each two-source form is the common effect of R139 with its function. -/
theorem exec_floatFR_row (s : State) (p : SPos) (o : FR) : ∀ e ∈ floatFR p o, exec e.1 s = s.floatFR e.1 o e.2.1 e.2.2 := by
  simp only [floatFR, List.forall_mem_cons, List.not_mem_nil, false_imp_iff, implies_true, and_true]
  exact ⟨rfl, rfl, rfl, rfl, rfl, rfl⟩
theorem exec_floatFI_row (s : State) (p : SPos) (o : FI) : ∀ e ∈ floatFI p o, exec e.1 s = s.floatFI e.1 o e.2.1 e.2.2 := by
  simp only [floatFI, List.forall_mem_cons, List.not_mem_nil, false_imp_iff, implies_true, and_true]
  exact ⟨rfl, rfl, rfl, rfl, rfl, rfl⟩

/-- The sign bit of an FP32 pattern cleared and inverted (R139). -/
theorem single_clearSign (x : Word) : BitVec.ofNat 64 (single x % 2 ^ 31) = (x.setWidth 32 &&& 0x7FFFFFFF).setWidth 64 := by
  have h : (x.setWidth 32 &&& 0x7FFFFFFF).toNat = single x % 2 ^ 31 := by
    rw [BitVec.toNat_and]
    exact Nat.and_two_pow_sub_one_eq_mod _ 31
  rw [← h, BitVec.ofNat_toNat]
theorem single_flipSign (x : Word) : BitVec.ofNat 64 (single x ^^^ 2 ^ 31) = (x.setWidth 32 ^^^ 0x80000000).setWidth 64 := by
  have h : (x.setWidth 32 ^^^ 0x80000000).toNat = single x ^^^ 2 ^ 31 := by
    rw [BitVec.toNat_xor]
    rfl
  rw [← h, BitVec.ofNat_toNat]

/-- A signed significand in units of `2 ^ lo`. -/
def units (neg : Bool) (m : Nat) (e lo : Int) : Int :=
  let a : Int := (m * 2 ^ (e - lo).toNat : Nat)
  if neg then -a else a
theorem ratio_units (neg : Bool) (m : Nat) {e lo : Int} (h : lo ≤ e) : ratio (.fin neg m e) = units neg m e lo * (2 : ℚ) ^ lo := by
  have he : (2 : ℚ) ^ e = 2 ^ (e - lo).toNat * 2 ^ lo := by
    rw [← zpow_natCast, ← zpow_add₀ two_ne_zero, Int.toNat_of_nonneg (sub_nonneg.2 h), sub_add_cancel]
  cases neg <;> simp [ratio, units, he] <;> ring
theorem ratio_ofSigned (v lo : Int) : ratio (.fin (decide (v < 0)) v.natAbs lo) = v * (2 : ℚ) ^ lo := by
  have hv : (if v < 0 then (-1 : ℚ) else 1) * (v.natAbs : ℚ) = v := by
    rw [Nat.cast_natAbs]
    split_ifs with h
    · rw [abs_of_neg h, Int.cast_neg, neg_one_mul, neg_neg]
    · rw [abs_of_nonneg (not_lt.1 h), one_mul]
  simp only [ratio, decide_eq_true_eq, hv]
/-- A sum of finite values is exact. -/
theorem ratio_add (s t : Bool) (m n : Nat) (e f : Int) :
    ratio ((FVal.fin s m e).add (.fin t n f)) = ratio (.fin s m e) + ratio (.fin t n f) := by
  rw [ratio_units s m (min_le_left e f), ratio_units t n (min_le_right e f), ← add_mul, ← Int.cast_add]
  by_cases h : units s m e (min e f) + units t n f (min e f) = 0
  · refine (congrArg ratio (if_pos h)).trans ?_
    rw [h]
    simp [ratio]
  · exact (congrArg ratio (if_neg h)).trans (ratio_ofSigned _ _)
/-- A product of finite values is exact. -/
theorem ratio_mul (s t : Bool) (m n : Nat) (e f : Int) :
    ratio ((FVal.fin s m e).mul (.fin t n f)) = ratio (.fin s m e) * ratio (.fin t n f) := by
  have hsign : (if s != t then (-1 : ℚ) else 1) = (if s then -1 else 1) * (if t then -1 else 1) := by
    cases s <;> cases t <;> simp
  simp only [FVal.mul, ratio, hsign, Nat.cast_mul, zpow_add₀ (two_ne_zero (α := ℚ))]
  ring

/-- Settles O5: each form gives its function of the patterns, and the exact values of a sum and a product are those of ℚ. -/
theorem scalarFloatingPoint : Obligations.ScalarFloatingPoint := by
  refine ⟨⟨fun s p => ⟨fun o e he hr => exec_floatFR (exec_floatFR_row s p o e he) hr,
    fun o e he hr => exec_floatFI (exec_floatFI_row s p o e he) hr⟩,
    fun s p o => ⟨fun hr => ?_, fun hr => exec_gives rfl rfl hr, fun hr => ?_, fun hr => ?_⟩⟩,
    fun s t m n e f => ⟨ratio_add s t m n e f, ratio_mul s t m n e f⟩⟩
  · simp only [← srcF_single]
    exact exec_gives rfl rfl hr
  · rw [← single_clearSign, ← srcF_single]
    exact exec_gives rfl rfl hr
  · rw [← single_flipSign, ← srcF_single]
    exact exec_gives rfl rfl hr

end Sys2Proof.Claims

namespace Sys2Proof.Machine

/-! ### The end of a kernel: what each of its parts leaves (R147, R336, R382) -/

theorem barTest_ctxs_mem (s : State) (tag : Nat) : ((s.barTest tag).ctxs, (s.barTest tag).mem) = (s.ctxs, s.mem) := by
  unfold State.barTest
  dsimp only
  split
  · rfl
  · rfl
theorem leaveBars_ctxs_mem (s : State) (g : Nat) : ((s.leaveBars g).ctxs, (s.leaveBars g).mem) = (s.ctxs, s.mem) := by
  unfold State.leaveBars
  split
  · rfl
  · refine foldl_same (fun t : State => (t.ctxs, t.mem)) _ (fun t n => ?_) _ s
    dsimp only
    split
    · exact barTest_ctxs_mem _ n
    · rfl
/-- The state in which a kernel's `halt` ends (R147, R358, R382). -/
def State.halted (s : State) (g : Nat) : State := ((s.modCtx g fun c => { c with halting := true }).leaveBars g).endWork g
theorem halted_ctx_mem (s : State) (g : Nat) : (s.halted g).ctx g = { s.ctx g with halting := true } ∧ (s.halted g).mem = s.mem := by
  obtain ⟨hc, hm⟩ := Prod.mk.inj (leaveBars_ctxs_mem (s.modCtx g fun c => { c with halting := true }) g)
  exact ⟨(congrArg (fun t => tget ({} : Ctx) t g) hc).trans (ctx_modCtx_self s g _), hm⟩

/-- A table with each of its first `n` entries changed. -/
def eachEntry {α : Type} [DecidableEq α] (d : α) (f : α → α) (n : Nat) (t : Tbl α) : Tbl α :=
  (List.range n).foldl (fun t i => tset d t i (f (tget d t i))) t
theorem tget_eachEntry {α : Type} [DecidableEq α] (d : α) (f : α → α) {n k : Nat} (h : k < n) (t : Tbl α) :
    tget d (eachEntry d f n t) k = f (tget d t k) := by
  rw [eachEntry, tget_foldl_update (fun _ => f) _ List.nodup_range, if_pos (List.mem_range.2 h)]

/-- The stage of a context that gives it up leaves the lines and its state FULL. -/
def Stage.release (st : Stage) (g tick : Nat) : Stage :=
  let st := { st with line := st.line.filter fun x => x.1 ≠ g }
  if st.owned ∧ st.owner = g then { st with owned := false, owner := 0, flipped := some tick } else st
theorem Stage.release_full_buflen (st : Stage) (g tick : Nat) :
    (st.release g tick).full = st.full ∧ (st.release g tick).buflen = st.buflen := by
  unfold Stage.release
  dsimp only
  split
  · exact ⟨rfl, rfl⟩
  · exact ⟨rfl, rfl⟩
theorem Stage.release_own {st : Stage} {g : Nat} (tick : Nat) (h : st.owned = true ∧ st.owner = g) : (st.release g tick).owned = false :=
  congrArg Stage.owned (if_pos h)
/-- The Deck of a tower whose stages of one context are released. -/
def Tower.releaseStages (w : Tower) (g tick : Nat) : Tower := { w with deck := eachEntry {} (·.release g tick) 16 w.deck }
theorem releaseStages_stage (w : Tower) (g tick : Nat) {n : Nat} (h : n < 16) :
    tget {} (w.releaseStages g tick).deck n = (tget {} w.deck n).release g tick := by
  rw [Tower.releaseStages, tget_eachEntry _ _ h]
/-- A pass over towers that releases the stages of one context changes the towers alone. -/
theorem foldl_releaseStages (l : List Nat) (s : State) (g : Nat) : l.foldl (fun s t => s.modTower t (·.releaseStages g s.tick)) s =
    { s with towers := l.foldl (fun T t => tset {} T t ((tget {} T t).releaseStages g s.tick)) s.towers } := by
  induction l generalizing s with
  | nil => rfl
  | cons t l ih => exact ih _
theorem releaseDeck_eq (s : State) (g : Nat) :
    s.releaseDeck g = { s with towers := eachEntry {} (·.releaseStages g s.tick) 4 s.towers } := foldl_releaseStages (List.range 4) s g
theorem releaseDeck_tower (s : State) (g : Nat) {w : Nat} (h : w < 4) : (s.releaseDeck g).tower w = (s.tower w).releaseStages g s.tick := by
  rw [releaseDeck_eq, State.tower, tget_eachEntry _ _ h, State.tower]
theorem releaseDeck_ctx (s : State) (g h : Nat) : (s.releaseDeck g).ctx h = s.ctx h := by
  rw [State.ctx, releaseDeck_eq, State.ctx]
@[simp] theorem releaseDeck_mem (s : State) (g : Nat) : (s.releaseDeck g).mem = s.mem := by
  rw [releaseDeck_eq]

/-- A flush of the Meld touches no context and no tower. -/
theorem meldFlush_ctx (s : State) (g m h : Nat) : (s.meldFlush g m).ctx h = s.ctx h :=
  foldl_same (fun t : State => t.ctx h) State.meldOut (fun _ _ => rfl) _ _
theorem meldFlush_tower (s : State) (g m w : Nat) : (s.meldFlush g m).tower w = s.tower w :=
  foldl_same (fun t : State => t.tower w) State.meldOut (fun _ _ => rfl) _ _

/-- A pass over slots that begins their unbinding changes the slots alone. -/
theorem foldl_unbind (l : List Nat) (c : Ctx) (serial : Nat) : l.foldl (fun c n => c.setStream n ((c.stream n).unbind serial)) c =
    { c with st := l.foldl (fun T n => tset {} T n ((tget {} T n).unbind serial)) c.st } := by
  induction l generalizing c with
  | nil => rfl
  | cons n l ih => exact ih _
theorem unbindAll_eq (c : Ctx) (serial : Nat) : c.unbindAll serial = { c with st := eachEntry {} (·.unbind serial) 8 c.st } :=
  foldl_unbind (List.range 8) c serial
theorem unbindAll_stream (c : Ctx) (serial : Nat) {n : Nat} (h : n < 8) : (c.unbindAll serial).stream n = (c.stream n).unbind serial := by
  rw [unbindAll_eq, Ctx.stream, tget_eachEntry _ _ h, Ctx.stream]
theorem unbind_bound {t : Stream} (serial : Nat) (h : t.bound = true) : (t.unbind serial).unbinding = serial :=
  congrArg Stream.unbinding (if_pos h)

/-- The context whose results have landed after its `halt` (R147). -/
def Ctx.unwind (c : Ctx) : Ctx := { c.unbindAll 1 with unwound := true, evq := [] }
theorem Ctx.unwind_eq (c : Ctx) : c.unwind = { c with st := (c.unbindAll 1).st, unwound := true, evq := [] } := by
  rw [Ctx.unwind, unbindAll_eq]
theorem unwind_eq (s : State) (g : Nat) : s.unwind g = ((s.modCtx g Ctx.unwind).meldFlush g 0xFFFF).releaseDeck g := rfl
theorem unwind_ctx (s : State) (g : Nat) : (s.unwind g).ctx g = (s.ctx g).unwind := by
  rw [unwind_eq, releaseDeck_ctx, meldFlush_ctx, ctx_modCtx_self]
/-- The unwinding of a context changes its slots, its queue and its mark alone. -/
theorem unwind_ctx_beside (s : State) (g : Nat) : ∃ T, (s.unwind g).ctx g = { s.ctx g with st := T, unwound := true, evq := [] } :=
  ⟨_, (unwind_ctx s g).trans (s.ctx g).unwind_eq⟩
theorem unwind_unbinding (s : State) (g : Nat) {n : Nat} (hn : n < 8) (hb : ((s.ctx g).stream n).bound = true) :
    (((s.unwind g).ctx g).stream n).unbinding = 1 := by
  rw [← unbind_bound 1 hb, ← unbindAll_stream _ 1 hn, unwind_ctx, Ctx.unwind_eq, Ctx.stream, Ctx.stream]
theorem unwind_mem (s : State) (g : Nat) : (s.unwind g).mem = s.mem := by
  rw [unwind_eq, releaseDeck_mem, meldFlush_mem]
  rfl
theorem unwind_stage (s : State) (g : Nat) {w n : Nat} (hw : w < 4) (hn : n < 16) :
    ∃ tick, tget {} ((s.unwind g).tower w).deck n = (tget {} (s.tower w).deck n).release g tick := by
  rw [unwind_eq, releaseDeck_tower _ g hw, meldFlush_tower, releaseStages_stage _ g _ hn]
  exact ⟨_, rfl⟩

end Sys2Proof.Machine

namespace Sys2Proof.Claims
open Sys2Proof.Machine

/-! ### Halt and system calls (R147, R149) -/

theorem exec_halt (s : State) (o : FX) (hr : s.operandsReady (.halt o) = true) : exec (.halt o) s =
    settle .c s ((unblocked (!s.me.haltWaits) 2).bind fun _ => .ok ((s.noted (.halt o)).halted s.cur)) := syl_ready s (.halt o) _ hr
theorem exec_haltComplete_unwinds {s : State} {g : Nat} (h : s.unwindDue g = true) : exec (.haltComplete g) s = .next (s.unwind g) := if_pos h

/-- Settles O17: `halt` marks its context alone, and the unwinding changes its slots, records and stages alone. -/
theorem haltEndsTheKernel : Obligations.HaltEndsTheKernel := by
  refine ⟨fun s o hr => ⟨fun hw => ?_, fun hw => ?_⟩, fun s g hh hu hf => ?_⟩
  · rw [exec_halt s o hr, hw]
    rfl
  · obtain ⟨hc, hm⟩ := halted_ctx_mem (s.noted (.halt o)) s.cur
    refine ⟨(s.noted (.halt o)).halted s.cur, by rw [exec_halt s o hr, hw]; rfl, ?_⟩
    rw [hc, hm]
    exact ⟨rfl, rfl, rfl, rfl, rfl, rfl, rfl, rfl, rfl, rfl, rfl, rfl, rfl, rfl, rfl, rfl⟩
  · refine ⟨s.unwind g, exec_haltComplete_unwinds (by simp [State.unwindDue, hh, hu, hf]), ?_⟩
    have hslots : ∀ n < 8, ((s.ctx g).stream n).bound = true → (((s.unwind g).ctx g).stream n).unbinding = 1 :=
      fun n => unwind_unbinding s g
    obtain ⟨T, hc⟩ := unwind_ctx_beside s g
    rw [hc] at hslots ⊢
    refine ⟨hh, rfl, rfl, rfl, rfl, rfl, rfl, rfl, rfl, rfl, rfl, rfl, rfl, rfl, rfl, unwind_mem s g, hslots, fun w hw n hn => ?_⟩
    obtain ⟨tick, ht⟩ := unwind_stage s g hw hn
    obtain ⟨hfull, hlen⟩ := Stage.release_full_buflen (tget {} (s.tower w).deck n) g tick
    rw [ht]
    exact fun _ => ⟨hfull, hlen, Stage.release_own tick⟩

/-- A request of `sysc` (R149). -/
def syscReq (s : State) (o : FX) : SyscReq := { seq := s.me.seq, service := bits o.imm.toNat 15 0, arg0 := s.rs o.a, arg1 := s.rs o.b }
theorem exec_sysc (s : State) (o : FX) (hr : s.operandsReady (.sysc o) = true) : exec (.sysc o) s =
    settle .c s ((unblocked (decide (s.me.sysc.length < 4)) 1).bind fun _ =>
      .ok (((s.noted (.sysc o)).modCtx s.cur fun c => { c with sysc := c.sysc ++ [syscReq s o], seq := (c.seq + 1) % 2 ^ 16 }).putS
        (s.spec 64 o.d) (BitVec.ofNat 64 s.me.seq) 1)) := syl_ready s (.sysc o) _ hr
/-- Settles O19: the number of requests decides between the post and the block. -/
theorem systemCallsPostRequests : Obligations.SystemCallsPostRequests := by
  refine fun s o hr => ⟨fun h => ?_, fun h => ?_⟩
  · rw [exec_sysc s o hr, decide_eq_true h]
    rfl
  · rw [exec_sysc s o hr, decide_eq_false (Nat.not_lt.2 h)]
    rfl

/-! ### Control registers (R60, R151) -/

theorem exec_rdcr {s : State} {o : FR} {n : Nat} {v : Word} (hr : s.operandsReady (.rdcr o) = true) (hn : o.b.toNat = n) (hv : s.readCr n = v) :
    exec (.rdcr o) s = gives s (.rdcr o) o.d o.lat 2 v := by
  subst hn hv
  exact exec_gives rfl rfl hr
theorem readCr_row (s : State) : ∀ e ∈ controlRegisters s, s.readCr e.1 = e.2 := by
  simp only [controlRegisters, List.forall_mem_cons, List.not_mem_nil, false_imp_iff, implies_true, and_true]
  exact ⟨rfl, rfl, rfl, rfl, rfl, rfl, rfl, rfl, rfl, rfl, rfl, rfl⟩
/-- A shape's vector half stands at the even numbers, its cube half at the odd ones (R60). -/
theorem readCr_vec (s : State) {h : Nat} (hh : h < 8) : s.readCr (0x10 + 2 * h) = (s.readSh h).extractLsb' 0 64 := by
  unfold State.readCr
  dsimp only
  rw [if_pos (by omega), if_pos (by omega), show (0x10 + 2 * h - 0x10) / 2 = h by omega]
  exact BitVec.setWidth_eq_extractLsb' (by decide)
theorem readCr_cube (s : State) {h : Nat} (hh : h < 8) : s.readCr (0x11 + 2 * h) = (s.readSh h).extractLsb' 64 64 := by
  unfold State.readCr
  dsimp only
  rw [if_pos (by omega), if_neg (by omega), show (0x11 + 2 * h - 0x10) / 2 = h by omega]
theorem readCr_unassigned (s : State) {n : Nat} (h : 12 ≤ n ∧ n < 16 ∨ 32 ≤ n) : s.readCr n = 0 := by
  unfold State.readCr
  dsimp only
  rw [if_neg (by omega)]
  split
  case h_13 => rfl
  all_goals omega
/-- Settles O20: the number of the register decides what is read. -/
theorem controlRegisterReads : Obligations.ControlRegisterReads := by
  refine fun s o hr => ⟨fun e he hn => ?_, fun h hh hn => ?_, fun h hh hn => ?_, fun hn => ?_⟩
  · exact exec_rdcr hr hn (readCr_row s e he)
  · exact exec_rdcr hr hn (readCr_vec s hh)
  · exact exec_rdcr hr hn (readCr_cube s hh)
  · exact exec_rdcr hr rfl (readCr_unassigned s hn)

/-! ### Identity and counters (R153, R400-R402) -/

/-- Fields that lie side by side in a word, as R153 lays them out. -/
theorem bits_identity {k c q t g n : Nat} (hk : k < 4) (hc : c < 4) (hq : q < 64) (ht : t < 4) (hg : g < 16) (hn : n < 2 ^ 48) :
    let v := k + c * 4 + q * 16 + t * 1024 + g * 4096 + n * 65536
    v < 2 ^ 64 ∧ bits v 1 0 = k ∧ bits v 3 2 = c ∧ bits v 9 4 = q ∧ bits v 11 10 = t ∧ bits v 15 12 = g ∧ bits v 63 16 = n := by
  simp only [bits, Nat.shiftRight_eq_div_pow]
  omega
/-- The fields of the identity tuple (R153). -/
theorem identity_fields (s : State) (h : s.cur < 3072) : let v := s.identity.toNat
    bits v 1 0 = s.cur % 4 ∧ bits v 3 2 = s.cur / 4 % 4 ∧ bits v 9 4 = s.cur / 16 % 48 ∧ bits v 11 10 = s.cur / 768 ∧
      bits v 15 12 = s.me.stage % 16 ∧ bits v 63 16 = s.cur / 4 := by
  obtain ⟨hlt, hf⟩ := bits_identity (k := s.cur % 4) (c := s.cur / 4 % 4) (q := s.cur / 16 % 48) (t := s.cur / 768) (g := s.me.stage % 16)
    (n := s.cur / 4) (by omega) (by omega) (by omega) (by omega) (by omega) (by omega)
  have hv := BitVec.toNat_ofNatLT (w := 64) _ hlt
  rw [BitVec.ofNatLT_eq_ofNat] at hv
  rw [← hv] at hf
  exact hf
theorem exec_rdctr (s : State) (o : FR) (hr : s.operandsReady (.rdctr o) = true) : exec (.rdctr o) s =
    settle .c s ((ensure (decide ((s.rs o.a).toNat < 65536)) 0x08).bind fun _ => (s.noted (.rdctr o)).giveWord o.d o.lat 4
      (BitVec.ofNat 64 (s.counter s.cur (bits (s.rs o.a).toNat 7 0) (bits (s.rs o.a).toNat 15 8)))) := syl_ready s (.rdctr o) _ hr
/-- A selector of 16 bits reads its counter. -/
theorem exec_rdctr_counter {s : State} {o : FR} {n : Nat} (hr : s.operandsReady (.rdctr o) = true) (h : (s.rs o.a).toNat < 65536)
    (hn : s.counter s.cur ((s.rs o.a).toNat % 256) ((s.rs o.a).toNat / 256) = n) :
    exec (.rdctr o) s = gives s (.rdctr o) o.d o.lat 4 (BitVec.ofNat 64 n) := by
  have hi : bits (s.rs o.a).toNat 15 8 = (s.rs o.a).toNat / 256 := by
    simp only [bits, Nat.shiftRight_eq_div_pow]
    omega
  rw [exec_rdctr s o hr, decide_eq_true h, hi, ← hn]
  rfl
theorem counter_unassigned (s : State) (g i : Nat) {n : Nat} (h : 0x26 ≤ n) : s.counter g n i = 0 := by
  unfold State.counter
  dsimp only
  split
  case h_29 => rfl
  all_goals omega

/-- Settles O22: the identity's fields lie side by side, and the selector of a counter is checked before it is read. -/
theorem identityTickAndCounters : Obligations.IdentityTickAndCounters := by
  refine ⟨fun s o => ⟨fun hc hr => ⟨_, exec_gives rfl rfl hr, identity_fields s hc⟩, fun hr => exec_gives rfl rfl hr,
    fun hr => exec_gives rfl rfl hr⟩, fun s o hr => ⟨fun h => ?_, fun h => ?_, fun h => ?_, fun h hn => ?_, fun h => ?_⟩⟩
  · exact exec_rdctr_counter hr h rfl
  · exact exec_rdctr_counter hr (by omega) (by rw [h]; rfl)
  · exact exec_rdctr_counter hr (by omega) (by rw [h]; rfl)
  · exact exec_rdctr_counter hr h (counter_unassigned s _ _ hn)
  · rw [exec_rdctr s o hr, decide_eq_false (Nat.not_lt.2 h)]
    rfl

end Sys2Proof.Claims

namespace Sys2Proof.Machine

/-! ### Bits and elements that are packed (R52) -/

/-- The number that a mask's bits pack to. -/
def bitsNat (l : List Bool) : Nat := l.foldr (fun b a => (if b then 1 else 0) + 2 * a) 0
theorem testBit_bitsNat (l : List Bool) (k : Nat) : (bitsNat l).testBit k = l.getD k false := by
  induction l generalizing k with
  | nil => simp [bitsNat]
  | cons b l ih =>
    have hc : bitsNat (b :: l) = (if b then 1 else 0) + 2 * bitsNat l := rfl
    cases k with
    | zero => cases b <;> simp [hc, Nat.testBit_zero]
    | succ k =>
      have hd : bitsNat (b :: l) / 2 = bitsNat l := by
        rw [hc]
        split <;> omega
      rw [Nat.testBit_succ, hd, ih, List.getD_cons_succ]

theorem getLsbD_ofNat_bitsNat (l : List Bool) {n k : Nat} (hk : k < n) : (BitVec.ofNat n (bitsNat l)).getLsbD k = l.getD k false := by
  rw [BitVec.getLsbD_ofNat, testBit_bitsNat, decide_eq_true hk, Bool.true_and]
/-- Bits that a function gives from each element and its number, and zeros beyond. -/
theorem getD_zipIdx_range (n : Nat) (f : Nat → Bool) (g : Bool × Nat → Bool) (k : Nat) :
    (((List.range n).map f).zipIdx.map g).getD k false = (decide (k < n) && g (f k, k)) := by
  by_cases hk : k < n
  · simp [List.getD_eq_getElem?_getD, hk]
  · simp [List.getD_eq_getElem?_getD, hk]

theorem toNat_ofNat_of_lt {w x : Nat} (h : x < 2 ^ w) : (BitVec.ofNat w x).toNat = x :=
  (BitVec.toNat_ofNat x w).trans (Nat.mod_eq_of_lt h)
theorem packNat_lt_of_le {w n : Nat} {l : List Nat} (h : w * l.length ≤ n) : packNat w l < 2 ^ n :=
  lt_of_lt_of_le (packNat_lt w l) (Nat.pow_le_pow_right Nat.two_pos h)
theorem toNat_packTile {w : Nat} {l : List Nat} (h : w * l.length ≤ 4096) : (packTile w l).toNat = packNat w l :=
  toNat_ofNat_of_lt (packNat_lt_of_le h)
/-- Beyond what was packed a tile holds zeros. -/
theorem elem_packTile_beyond (w : Nat) (l : List Nat) (i : Nat) (h : l.length ≤ i) (hl : w * l.length ≤ 4096) :
    elem w (packTile w l) i = 0 := by
  rw [elem, BitVec.extractLsb'_toNat, toNat_packTile hl, Nat.shiftRight_eq_div_pow,
    Nat.div_eq_of_lt (packNat_lt_of_le (Nat.mul_le_mul_left w h)), Nat.zero_mod]

/-! ### The groups of a reduction and the shape of a permute (R178, R185) -/

/-- Every group names elements of the shape. -/
theorem groups_lt (h : VShape) (dir : Nat) {l : List Nat} (hl : l ∈ h.groups dir) {k : Nat} (hk : k ∈ l) : k < h.rows * h.cols := by
  have cell : ∀ {r c}, r < h.rows → c < h.cols → r * h.cols + c < h.rows * h.cols := fun {r c} hr hc =>
    calc r * h.cols + c < r * h.cols + h.cols := Nat.add_lt_add_left hc _
      _ = (r + 1) * h.cols := (Nat.succ_mul _ _).symm
      _ ≤ _ := Nat.mul_le_mul_right _ hr
  unfold VShape.groups at hl
  split at hl
  · simp only [List.mem_map, List.mem_range] at hl
    obtain ⟨r, hr, rfl⟩ := hl
    simp only [List.mem_map, List.mem_range] at hk
    obtain ⟨c, hc, rfl⟩ := hk
    exact cell hr hc
  · simp only [List.mem_map, List.mem_range] at hl
    obtain ⟨c, hc, rfl⟩ := hl
    simp only [List.mem_map, List.mem_range] at hk
    obtain ⟨r, hr, rfl⟩ := hk
    exact cell hr hc
  · rw [List.mem_singleton.1 hl] at hk
    exact List.mem_range.1 hk
/-- Where the shape fits, its groups name elements of the tile. -/
theorem groups_lt_elems {h : VShape} {w : Nat} (hw : h.ok w = true) {dir : Nat} {l : List Nat} (hl : l ∈ h.groups dir) {k : Nat} (hk : k ∈ l) :
    k < elems w := by
  have he : h.rows * h.cols * w = 4096 := of_decide_eq_true hw
  have hp : 0 < w := Nat.pos_of_ne_zero fun h0 => by simp [h0] at he
  exact lt_of_lt_of_eq (groups_lt h dir hl hk) (Nat.eq_div_of_mul_eq_left hp.ne' he)
/-- The shape by which a permute tests its elements: `vtrn` transposes it (R185). -/
def VShape.turned (h : VShape) (turn : Bool) : VShape :=
  if turn then { rows := h.cols, cols := h.rows, vrows := h.vcols, vcols := h.vrows } else h

end Sys2Proof.Machine

namespace Sys2Proof.Claims
open Sys2Proof.Machine

/-! ### Dot products, selects and carry-less products (R163, R165, R169) -/

theorem dot4_eq (u : BitVec 5) (a b : Tile) (k : Nat) :
    let term := fun j => intDecode u (elem (fmtWidth u) a (4 * k + j)) * intDecode u (elem (fmtWidth u) b (4 * k + j))
    dot4 u a b k = term 0 + term 1 + term 2 + term 3 := by
  intro term
  have hl : dot4 u a b k = term 0 + (term 1 + (term 2 + (term 3 + 0))) := rfl
  rw [hl]
  ring

theorem elem_ite (w : Nat) (c : Prop) [Decidable c] (a b : Tile) (k : Nat) :
    elem w (if c then a else b) k = if c then elem w a k else elem w b k := apply_ite (elem w · k) c a b

/-- Settles O7: the dot product and the select are elementwise, and the carry-less product takes mask and sources from the cluster that a
pair shares. -/
theorem dotSelectAndClmul : Obligations.DotSelectAndClmul := by
  intro s p o w h
  refine ⟨fun hr => ?_, fun hr => ?_, fun hr => ?_⟩
  · simp only [← dot4_eq]
    exact each_gives hr h o.d _ _ rfl rfl
  · simp only [elem_ite]
    exact each_gives hr h o.d _ _ rfl rfl
  · exact ⟨_, _, holds_pack w _ _, syl_ok s (.vclmul p o) _ hr (bind_ok (actives_fit _ h _ _) _)⟩

/-! ### Tile compares (R164) -/

/-- A compare whose shape fits gives a mask whose bit `k` is the relation of the two elements `k`, where there is an active one. -/
theorem compareTile_fits {s : State} {sh : BitVec 3} {t : BitVec 5} (i : Instr) (h : shapeFits s sh (fmtWidth t)) (p : Cl)
    (msk : BitVec 3) (a : BitVec 7) (c n lat : Nat) (b : Nat → Nat) : ∃ m : MaskReg,
    (s.noted i).compareTile p sh msk t a c n lat b = .ok ((s.noted i).putM p n m (BitVec.allOnes 1024) lat) ∧
    ∀ k < 1024, m.getLsbD k = (decide (k < 4096 / fmtWidth t) && active s p sh msk k &&
      condHolds c (cmpIn t (elem (fmtWidth t) (s.rv p a) k) (b k))) :=
  ⟨_, bind_ok (actives_fit i h p msk) _, fun k hk =>
    (getLsbD_ofNat_bitsNat _ hk).trans ((getD_zipIdx_range _ _ _ k).trans (Bool.and_assoc _ _ _).symm)⟩

/-- Settles O8: either compare packs one bit for each element, and zeros beyond. -/
theorem tileCompares : Obligations.TileCompares := by
  intro s p
  refine ⟨fun o h _ hr => ?_, fun o h _ hr => ?_⟩
  · obtain ⟨m, hm, hb⟩ := compareTile_fits (.vcmp p o) h p o.msk o.a o.xmod.toNat (s.spec 8 o.d) (bound o.lat 2)
      (elem (fmtWidth o.ty) (s.rv p o.b))
    exact ⟨m, syl_ok s (.vcmp p o) _ hr hm, hb⟩
  · obtain ⟨m, hm, hb⟩ := compareTile_fits (.vcmpI p o) h p o.msk o.a (bits o.d.toNat 6 4) (bits o.d.toNat 2 0) (bound o.lat 2)
      fun _ => tileImm o
    exact ⟨m, syl_ok s (.vcmpI p o) _ hr hm, hb⟩

/-! ### Codebook decoding and block scaling (R175, R176) -/

/-- Register `j` of the `k` that a wider result takes: its elements stand for the elements `k * i + j` of the source. -/
theorem holds_share {wt wu k j : Nat} (hk : wt / wu = k) (hu : 0 < wu) (hj : j < k) (s : State) (p : Cl) (sh msk : BitVec 3) (f : Nat → Nat) :
    Holds wt (packTile wt ((List.range (elems wt)).map f))
      (spread wt ((List.range (elems wt)).map fun i => (activeList s p sh msk wu).getD (k * i + j) false))
      (fun i => active s p sh msk (k * i + j)) f := by
  subst hk
  exact (holds_pack _ _ _).congr (fun _ hi => activeList_getD _ _ _ _ (wide_index_lt hu hi hj)) fun _ _ => rfl

/-- The scaled element `i` of `vscale`. -/
def scaled (s : State) (p : Cl) (o : FR) (i : Nat) : Nat :=
  fround o.ty o.v o.sat ((fdecode 0x0F (elem 16 (s.rv p o.a) i)).mul
    (scaleVal (o.xmod.getLsbD 1) (elem 8 (s.rv p o.b) (i / if o.xmod.getLsbD 0 then 32 else 8))))
/-- Register `j` of the `k` that `vscale` writes: its values and its enable bits. -/
def scaledVal (s : State) (p : Cl) (o : FR) (k j : Nat) : Tile :=
  packTile (16 * k) ((List.range (elems (16 * k))).map fun i => scaled s p o (k * i + j))
def scaledEn (s : State) (p : Cl) (o : FR) (k j : Nat) : Tile :=
  spread (16 * k) ((List.range (elems (16 * k))).map fun i => (activeList s p o.sh o.msk 16).getD (k * i + j) false)
theorem elems_sixteen_mul (k : Nat) : 256 / k = elems (16 * k) := Nat.div_div_eq_div_mul 4096 16 k
theorem exec_vscale {s : State} {p : Cl} {o : FR} {k : Nat} (hk : (if o.ty = 0x10 then 2 else 1) = k) (h : shapeFits s o.sh 16)
    (hd : s.spec 64 o.d % k = 0) (hr : s.operandsReady (.vscale p o) = true) : exec (.vscale p o) s =
    .next ((List.range k).foldl (fun t j => t.putV p (s.spec 64 o.d + j) (scaledVal s p o k j) (scaledEn s p o k j) (bound o.lat 4))
      (s.noted (.vscale p o))) := by
  subst hk
  refine syl_ok s (.vscale p o) _ hr ((bind_ok (ensure_of_true (decide_eq_true hd) _) _).trans ((bind_ok (actives_fit _ h _ _) _).trans ?_))
  dsimp only
  rw [elems_sixteen_mul]
  rfl

/-- Settles O10: each register of the wider result holds every fourth, every second or every element of the source. -/
theorem decodeAndScale : Obligations.DecodeAndScale := by
  intro s p o d
  refine ⟨fun h hd hr => ?_, fun h hr => ⟨fun ht => ?_, fun ht hd => ?_⟩⟩
  · exact ⟨_, _, fun j hj => holds_share (wt := 16) (wu := 4) rfl (by decide) hj s p o.sh o.msk _,
      syl_ok s (.vcbdec p o) _ hr ((bind_ok (ensure_of_true (decide_eq_true hd) _) _).trans (bind_ok (actives_fit _ h _ _) _))⟩
  · have hk : (if o.ty = 0x10 then 2 else 1) = 1 := by rw [ht]; rfl
    refine ⟨_, _, Holds.congr (holds_share (wt := 16) (wu := 16) (k := 1) (j := 0) rfl (by decide) (by decide) s p o.sh o.msk _)
      (fun i _ => ?_) (fun i _ => ?_), exec_vscale hk h (Nat.mod_one _) hr⟩
    · rw [Nat.one_mul, Nat.add_zero]
    · exact congrArg (scaled s p o) ((Nat.add_zero _).trans (Nat.one_mul i))
  · have hk : (if o.ty = 0x10 then 2 else 1) = 2 := by rw [ht]; rfl
    exact ⟨_, _, _, _, holds_share (wt := 32) (wu := 16) (k := 2) (j := 0) rfl (by decide) (by decide) s p o.sh o.msk _,
      holds_share (wt := 32) (wu := 16) (k := 2) (j := 1) rfl (by decide) (by decide) s p o.sh o.msk _, exec_vscale hk h hd hr⟩

/-! ### Reductions (R178, R179) -/

/-- The result of one group: the identity stands for an element that is not active. -/
def groupResult (s : State) (p : Cl) (o : FR) (ident : Nat) (f : List Nat → Nat) (l : List Nat) : Nat :=
  f (l.map fun k => if active s p o.sh o.msk k then elem (fmtWidth o.ty2) (s.rv p o.a) k else ident)
theorem reduce_fits {s : State} {i : Instr} {p : Cl} {o : FR} (hr : s.operandsReady i = true) (h : shapeFits s o.sh (fmtWidth o.ty2))
    (ident : Nat) (f : List Nat → Nat) : let groups := (vshape (s.readSh o.sh.toNat)).groups o.xmod.toNat
    groups.length ≤ elems (fmtWidth o.ty) →
    s.reduce i p o ident f = .next ((s.noted i).putV p (s.spec 64 o.d)
      (packTile (fmtWidth o.ty) (groups.map (groupResult s p o ident f)))
      (spread (fmtWidth o.ty) ((groups.map (groupResult s p o ident f)).map fun _ => true)) (bound o.lat 6)) := by
  intro groups hg
  refine syl_ok s i _ hr ((bind_ok (show (s.noted i).shapeFor o.sh _ = .ok _ by rw [shapeFor_noted, if_pos h]) _).trans
    ((bind_ok (actives_fit i h p o.msk) _).trans ((bind_ok (ensure_of_true (decide_eq_true hg) _) _).trans ?_)))
  have hres : ∀ l ∈ groups, f (l.map fun k => if (activeList s p o.sh o.msk (fmtWidth o.ty2)).toArray.getD k false
      then elem (fmtWidth o.ty2) (s.rv p o.a) k else ident) = groupResult s p o ident f l := fun l hl => by
    refine congrArg f (List.map_congr_left fun k hk => ?_)
    have ha : (activeList s p o.sh o.msk (fmtWidth o.ty2)).toArray.getD k false = active s p o.sh o.msk k := by
      rw [← activeList_getD s p o.sh o.msk (groups_lt_elems h hl hk)]
      simp [Array.getD_eq_getD_getElem?, List.getD_eq_getElem?_getD]
    rw [ha]
  rw [← List.map_congr_left hres]
  rfl

/-- Settles O11: each group packs its result, and the elements beyond the groups are neither written nor enabled. -/
theorem reductionsHold : Obligations.Reductions := by
  intro s p o e he wt wu groups result hw h hg hr
  obtain ⟨-, hx⟩ := exec_reductions s p o e he
  have hfit : wt * groups.length ≤ 4096 := (Nat.mul_le_mul_left wt hg).trans (elems_fit wt)
  refine ⟨_, _, hx.trans (reduce_fits hr h e.2.1 e.2.2 hg), fun k hk => ?_, fun k hk => ?_⟩
  · rw [elem_packTile wt _ k (by simpa using hk) (by simpa using hfit), List.getElem_map]
    rfl
  · split
    next hlt =>
      rw [elem_spread wt _ k (by simpa using hlt) (by simpa using hfit)]
      simp
    next hge => exact elem_packTile_beyond wt _ k (by simpa using hge) (by simpa using hfit)

/-! ### Permutes (R180-R185) -/

/-- Each permute takes its elements from the source that the claim names. -/
theorem exec_permutes_source (s : State) (p : Cl) (o : FR) : ∀ e ∈ permutes s p o, ∃ turn f,
    exec e.1 s = s.permute e.1 p o e.2.1 turn f ∧ (∀ h, turn h = h.turned e.2.2.1) ∧
      f (s.noted e.1) ((vshape (s.readSh o.sh.toNat)).forPair o.pair) (if o.pair then 2 * (4096 / fmtWidth o.ty) else 4096 / fmtWidth o.ty) =
        e.2.2.2 := by
  simp only [permutes, List.forall_mem_cons, List.not_mem_nil, false_imp_iff, implies_true, and_true]
  simp only [exec, execVperm, execVshuf, execVbcast, execVext, execVtrn]
  refine ⟨?_, ?_, ?_, ?_, ?_⟩ <;> exact ⟨_, _, rfl, fun _ => rfl, rfl⟩

/-- Settles O12: a permute packs the source of each of its places, under its mask and the shape that it tests. -/
theorem permutesHold : Obligations.Permutes := by
  intro s p o e he w h g hs hr
  obtain ⟨turn, f, hx, ht, hf⟩ := exec_permutes_source s p o e he
  have hg : turn h = g := ht h
  have hperm : s.permute e.1 p o e.2.1 turn f = .next ((s.noted e.1).putV p (s.spec 64 o.d)
      (packTile w ((List.range (elems w)).map fun j => f (s.noted e.1) h (if o.pair then 2 * (4096 / w) else 4096 / w) (place p o.pair j)))
      (spread w ((List.range (elems w)).map fun j => (s.readM p o.msk.toNat).getLsbD j && (turn h).valid (place p o.pair j)))
      (bound o.lat e.2.1)) :=
    syl_ok s e.1 _ hr (bind_ok (show (s.noted e.1).shapeFor o.sh _ = .ok _ by rw [shapeFor_noted, if_pos hs]) _)
  rw [hf, hg] at hperm
  exact ⟨_, _, holds_pack w _ _, hx.trans hperm⟩

/-! ### Copies between the clusters and mask forms (R167, R186) -/

theorem exec_maskForms (s : State) (p : Cl) (o : FR) : ∀ e ∈ maskForms p o, exec e.1 s = s.maskForm e.1 p o e.2 := by
  simp only [maskForms, List.forall_mem_cons, List.not_mem_nil, false_imp_iff, implies_true, and_true]
  exact ⟨rfl, rfl, rfl, rfl⟩

/-- Settles O13: neither kind checks anything of its own. -/
theorem clusterCopiesAndMaskForms : Obligations.ClusterCopiesAndMaskForms := fun s p o =>
  ⟨fun hr => syl_ok s (.xcp p o) _ hr rfl, fun e he hr => (exec_maskForms s p o e he).trans (syl_ok s e.1 _ hr rfl)⟩

end Sys2Proof.Claims

namespace Sys2Proof.Machine

/-! ### Commands at issue behind the common checks (R58, R101, R321) -/

theorem tokenFree_noted {s : State} {o : FE} (i : Instr) (h : Claims.tokenFree s o) : (s.noted i).tokenFree o = .ok () :=
  if_pos (decide_eq_true h)
theorem toRemote_noted {s : State} (i : Instr) (h : Claims.remoteRoom s) (k : Cmd) : (s.noted i).toRemote k =
    .ok (((s.noted i).issued k).modCore (coreOf s.cur) fun c => { c with remq := c.remq ++ [k] }) :=
  bind_ok (show unblocked _ 1 = .ok () from if_pos (decide_eq_true h)) _
theorem toCopy_noted {s : State} (i : Instr) (h : Claims.copyRoom s) (k : Cmd) : (s.noted i).toCopy k =
    .ok (((s.noted i).issued k).modQuad (quadOf s.cur) fun q => { q with copyq := q.copyq ++ [k] }) :=
  bind_ok (show unblocked _ 1 = .ok () from if_pos (decide_eq_true h)) _
/-- A syllable that asks for its token alone puts its command into the remote engine's queue. -/
theorem syl_toRemote {s : State} {i : Instr} {o : FE} (ht : Claims.tokenFree s o) (h : Claims.remoteRoom s) (hr : s.operandsReady i = true)
    (k : State → Cmd) : s.syl i (fun t => do t.tokenFree o; t.toRemote (k t)) = Claims.toRemoteQueue (s.noted i) (k (s.noted i)) :=
  syl_ok s i _ hr ((bind_ok (tokenFree_noted i ht) _).trans (toRemote_noted i h _))

end Sys2Proof.Machine

namespace Sys2Proof.Claims
open Sys2Proof.Machine

/-! ### Streams and conditional buffers at issue (R188-R190, R293) -/

/-- The command of an `sbind`. -/
def sbindCmd (s : State) (o : FE) : Cmd :=
  { s.newCmd (.sbind o) o { cls := bits s.me.memdef.toNat 3 0, scope := bits s.me.memdef.toNat 6 4 } with
    point := bits o.d.toNat 2 0, sa := s.rs o.a }
theorem feCl_isB (o : FE) : decide (feCl o = .b) = o.msk.getLsbD 2 := by
  unfold feCl
  cases o.msk.getLsbD 2 <;> rfl
/-- The binding that an `sbind` makes of its slot. -/
def sbound (s : State) (o : FE) : Stream :=
  { bound := true, out := bit o.d.toNat 3, cluster := o.msk.getLsbD 2, reg := s.spec 64 o.b, token := o.tko.toNat,
    desc := s.rs o.a, shape := (s.readSh o.sh.toNat).extractLsb' 0 64, cls := bits s.me.memdef.toNat 3 0,
    scope := bits s.me.memdef.toNat 6 4, by' := s.serial + 1, pc := s.me.pc }
theorem exec_sbind {s : State} {o : FE} (ht : tokenFree s o) (hb : (s.me.stream (bits o.d.toNat 2 0)).bound = false)
    (hf : s.me.boundTo ⟨tileFile (feCl o), s.spec 64 o.b⟩ = none)
    (hs : (shapeWidth ((s.readSh o.sh.toNat).extractLsb' 0 64)).isSome) (hq : copyRoom s) (hr : s.operandsReady (.sbind o) = true) :
    exec (.sbind o) s = .next ((((s.noted (.sbind o)).issued (sbindCmd s o)).modQuad (quadOf s.cur) fun q =>
      { q with copyq := q.copyq ++ [sbindCmd s o] }).modCtx s.cur fun c => c.setStream (bits o.d.toNat 2 0) (sbound s o)) := by
  have free : (!((s.noted (.sbind o)).me.stream (bits o.d.toNat 2 0)).bound &&
      !(s.noted (.sbind o)).me.holdsReg ⟨tileFile (feCl o), s.spec 64 o.b⟩) = true := by
    rw [noted_me, hb, Ctx.holdsReg, hf]
    rfl
  rw [← BitVec.setWidth_eq_extractLsb' (by decide)] at hs
  refine syl_ok s (.sbind o) _ hr ((bind_ok (ensure_of_true free _) _).trans ((bind_ok (ensure_of_true hs _) _).trans
    ((bind_ok (tokenFree_noted _ ht) _).trans ((bind_ok (toCopy_noted _ hq (sbindCmd s o)) _).trans ?_))))
  rw [sbound, ← feCl_isB, ← BitVec.setWidth_eq_extractLsb' (by decide)]
  rfl

theorem exec_cspush {s : State} {o : FE} (ht : tokenFree s o) (hm : remoteRoom s) {key : Nat × Nat × Nat}
    (hk : condKey (vshape (s.readSh o.sh.toNat)) = some key)
    (hn : (tget {} (s.quad (quadOf s.cur)).cond (bits o.d.toNat 1 0)).recs ≠ [])
    (hb : (tget {} (s.quad (quadOf s.cur)).cond (bits o.d.toNat 1 0)).key = some key) (hr : s.operandsReady (.cspush o) = true) :
    exec (.cspush o) s = toRemoteQueue (s.noted (.cspush o)) { s.newCmd (.cspush o) o {} with
      point := bits o.d.toNat 1 0, shape := s.readSh o.sh.toNat, tb := s.rv (feCl o) o.a, act := s.readM (feCl o) (s.spec 8 o.b),
      flag := if o.d.getLsbD 2 then some 1 else none } := by
  have hf : ((tget {} (s.quad (quadOf s.cur)).cond (bits o.d.toNat 1 0)).recs.isEmpty &&
      (tget {} (s.quad (quadOf s.cur)).cond (bits o.d.toNat 1 0)).marks.isEmpty &&
      !(s.noted (.cspush o)).pushWaits (quadOf s.cur) (bits o.d.toNat 1 0)) = false := by
    rw [List.isEmpty_eq_false_iff.2 hn, Bool.false_and, Bool.false_and]
  refine syl_ok s (.cspush o) _ hr ?_
  dsimp only [noted_cur, noted_readSh, noted_quad]
  rw [hk]
  dsimp only
  simp only [hf, Bool.false_or]
  refine (bind_ok (ensure_of_true (decide_eq_true hb) _) _).trans ((bind_ok (tokenFree_noted _ ht) _).trans
    ((bind_ok (toRemote_noted _ hm _) _).trans ?_))
  rfl

/-- Settles O35: `sbind` passes its three checks and binds its slot; the others ask for their token and their engine's room, and a `cspush`
whose buffer holds records for that buffer's key. -/
theorem streamsAndBuffersIssue : Obligations.StreamsAndBuffersIssue := by
  refine ⟨fun s o ht => ⟨fun hb hf hs hq hr => ⟨_, rfl, exec_sbind ht hb hf hs hq hr⟩, fun hm => ⟨fun hr => ?_, fun hr => ?_⟩⟩,
    fun s o ht hm => ⟨fun key hk hn hb hr => exec_cspush ht hm hk hn hb hr, fun hr => ?_⟩⟩
  · exact syl_toRemote (i := .sunbind o) ht hm hr fun t => { t.newCmd (.sunbind o) o {} with point := bits o.d.toNat 2 0 }
  · exact syl_toRemote (i := .sstat o) ht hm hr fun t =>
      { t.newCmd (.sstat o) o {} with point := bits o.a.toNat 2 0, dest := [⟨.s, t.spec 64 o.d⟩] }
  · exact syl_toRemote (i := .cspop o) ht hm hr fun t => { t.newCmd (.cspop o) o {} with
      point := bits o.a.toNat 1 0,
      dest := [⟨tileFile (feCl o), t.spec 64 o.d⟩, ⟨maskFile (feCl o), t.spec 8 o.b⟩, ⟨.sh, o.sh.toNat⟩] }

end Sys2Proof.Claims

namespace Sys2Proof.Machine

/-! ### The copy engine takes a command (R254, R279, R280, R282) -/

/-- What names a command: its instruction, its token and its number. -/
def Cmd.name (k : Cmd) : Instr × Nat × Nat := (k.instr, k.tok, k.serial)
theorem startIndexed_name (s : State) (k : Cmd) : (s.startIndexed k).name = k.name := by
  unfold State.startIndexed
  split
  · rfl
  · dsimp only
    split <;> rfl
theorem startCopy_name (s : State) (k : Cmd) : (s.startCopy k).name = k.name := by
  unfold State.startCopy
  simp only [bind, Except.bind]
  split
  next k' hk =>
    repeat' split at hk
    all_goals cases hk
    all_goals rfl
  · rfl
/-- What a start reads leaves the command's name. -/
theorem startEngine_name (s : State) (k : Cmd) : (s.startEngine k).name = k.name := by
  unfold State.startEngine
  split
  · exact startIndexed_name s k
  · exact startIndexed_name s k
  · exact startIndexed_name s k
  · exact startCopy_name s k
  · exact startCopy_name s k
  · rfl

/-- A command that copy engine `q` has taken. -/
def State.taken (s : State) (q : Nat) (k : Cmd) : Cmd :=
  { k with started := true, at' := s.tick, asked := s.tick,
           due := s.tick + 1 + (k.toMove + 127) / 128 + tierDelay (farthest (q / 48) (s.copyPas k)) k.serial 2 }
theorem taken_toMove (s : State) (q : Nat) (k : Cmd) : (s.taken q k).toMove = k.toMove := rfl

section Copy
variable {s : State} {q : Nat} {k : Cmd}

theorem copyNext_head {rest : List Cmd} (hrun : (s.quad q).copyRun = none) (hheld : (s.quad q).copyHeld = [])
    (hq : (s.quad q).copyq = k :: rest) (hr : s.ready k = true) (ho : s.engineOpen (3264 + q) k = true) :
    s.copyNext q = some (k, { s.quad q with copyq := rest }) := by
  unfold State.copyNext
  dsimp only
  rw [hrun, hheld, hq]
  dsimp only [Option.isSome_none, List.find?_nil]
  rw [hr, ho]
  rfl
/-- A command that has not started reads what it needs, and runs. -/
theorem exec_copyDispatch {x : Quad} (hn : s.copyNext q = some (k, x)) (hs : k.started = false) (hb : ∀ o, k.instr ≠ .sbind o) :
    exec (.copyEngineDispatch q) s = .next (((s.setQuad q x).startReads k).modQuad q fun y =>
      { y with copyRun := some ((s.setQuad q x).taken q ((s.setQuad q x).startEngine k)) }) := by
  show execCopyEngineDispatch q s = _
  unfold execCopyEngineDispatch
  rw [hn]
  dsimp only
  split
  next o ho => exact absurd ho (hb o)
  · rw [hs, if_neg Bool.false_ne_true, if_neg Bool.false_ne_true]
    rfl

/-! ### The copy engine ends a command, and meets a fault (R272, R281, R341) -/

theorem copyReady_done (hrun : (s.quad q).copyRun = some k) (hd : k.due ≤ s.tick) (hr : (s.work k).room = true)
    (hp : k.flag.all s.portRoom = true) : s.copyReady q = some (s.work k) := by
  unfold State.copyReady
  rw [hrun]
  dsimp only
  rw [if_pos (Or.inl hd), hr, hp]
  rfl
theorem copyReady_full (hrun : (s.quad q).copyRun = some k) (h : (s.work k).room = false ∨ k.flag.all s.portRoom = false) :
    s.copyReady q = none := by
  have hb : ((s.work k).room && k.flag.all s.portRoom) = false := by
    rcases h with h | h <;> rw [h]
    · exact Bool.false_and _
    · exact Bool.and_false _
  unfold State.copyReady
  rw [hrun]
  dsimp only
  rw [hb]
  exact ite_self _
theorem exec_copyEnd {a : Work} (hc : s.copyReady q = some a) (hf : a.fault = none) :
    exec (.copyCommandEnd q) s = .next (a.finish.modQuad q fun x => { x with copyRun := none }) := by
  show execCopyCommandEnd q s = _
  unfold execCopyCommandEnd
  rw [hc]
  exact event_pos (by rw [hf]; rfl)
/-- A command whose writes meet a full port neither ends nor faults. -/
theorem exec_copyWaits (hc : s.copyReady q = none) :
    exec (.copyCommandEnd q) s = .next s ∧ exec (.engineTranslationFault (.copy q)) s = .next s := by
  refine ⟨?_, ?_⟩
  · show execCopyCommandEnd q s = _
    unfold execCopyCommandEnd
    rw [hc]
  · show Host.Outcome.next ((s.copyFault q).getD s) = _
    unfold State.copyFault
    rw [hc]
    rfl
theorem quietPost_quads (b : Bool) (t : State) (v g : Nat) (r : EvRec) : (if b then t else t.postTo v g r).quads = t.quads := by
  split
  · rfl
  · exact quads_of_aside (postTo_aside _ _ _ _)
/-- A fault holds the command at its restart point, and the Dealer hears of it. -/
theorem exec_copyFault {a : Work} {code : Nat} {va : Word} {point : Nat} (hc : s.copyReady q = some a) (hf : a.fault = some (code, va, point)) :
    ∃ t, exec (.engineTranslationFault (.copy q)) s = .next t ∧ (t.quad q).copyRun = none ∧
      (∃ h ∈ (t.quad q).copyHeld, h.serial = a.k.serial ∧ h.held = some code ∧ h.point = point) ∧
      ∃ n ∈ t.dealer.notes, n.kind = 1 ∧ n.code = code ∧ n.addr = va := by
  let k : Cmd := { a.k with held := some code, point := point, moved := 0 }
  have he : ∃ (u v : State) (n : FaultNote), v.quads = (u.modQuad q fun x => { x with copyRun := none, copyHeld := x.copyHeld ++ [k] }).quads ∧
      s.copyFault q = some (v.modDealer fun d => { d with notes := d.notes ++ [n] }) ∧ n.kind = 1 ∧ n.code = code ∧ n.addr = va := by
    unfold State.copyFault
    rw [hc]
    dsimp only
    rw [hf]
    exact ⟨_, _, _, quietPost_quads _ _ _ _ _, rfl, rfl, rfl, rfl⟩
  obtain ⟨u, v, n, hv, he, hn⟩ := he
  have hq : v.quad q = { u.quad q with copyRun := none, copyHeld := (u.quad q).copyHeld ++ [k] } :=
    (congrArg (tget ({} : Quad) · q) hv).trans (quad_setQuad_self _ _ _)
  refine ⟨v.modDealer fun d => { d with notes := d.notes ++ [n] }, ?_, ?_, ⟨k, ?_, rfl, rfl, rfl⟩, n, ?_, hn⟩
  · show Host.Outcome.next ((s.copyFault q).getD s) = _
    rw [he]
    rfl
  · exact congrArg Quad.copyRun hq
  · exact (congrArg Quad.copyHeld hq : (v.quad q).copyHeld = _) ▸ List.mem_append_right _ (List.mem_singleton_self k)
  · exact List.mem_append_right _ (List.mem_singleton_self n)
end Copy

/-! ### The remote engine (R290, R321, R345) -/

/-- A command that remote engine `c` has taken. -/
def State.sent (s : State) (c : Nat) (k : Cmd) : Cmd :=
  { k with started := true, at' := s.tick, asked := s.tick,
           due := s.tick + 1 + tierDelay (farthest (c / 192) (k.pas.map (·.2))) k.serial 3 }
theorem isRed_of_isPool {i : Instr} (h : isPool i = true) : isRed i = false := by
  unfold isPool at h
  split at h
  · rfl
  · rfl
  · rfl
  · rfl
  · cases h
/-- Pool commands, `rld` and `rst` are none of the commands that do something as they are taken. -/
theorem plain_at_dispatch {i : Instr} (h : isPool i = true ∨ ∃ o, i = .rld o ∨ i = .rst o) :
    isRed i = false ∧ (∀ o, i ≠ .sunbind o) ∧ (∀ o, i ≠ .tacq o) ∧ ∀ o, i ≠ .trel o := by
  rcases h with h | ⟨o, rfl | rfl⟩
  · refine ⟨isRed_of_isPool h, fun o ho => ?_, fun o ho => ?_, fun o ho => ?_⟩ <;> (subst ho; cases h)
  · exact ⟨rfl, nofun, nofun, nofun⟩
  · exact ⟨rfl, nofun, nofun, nofun⟩
theorem exec_remoteDispatch {s : State} {c : Nat} {k : Cmd} (h : s.remoteReady c = some k)
    (hi : isPool k.instr = true ∨ ∃ o, k.instr = .rld o ∨ k.instr = .rst o) : exec (.remoteEngineDispatch c) s =
    .next ((s.modCore c fun x => { x with remq := x.remq.tail }).modCore c fun x => { x with remLoose := x.remLoose ++ [s.sent c k] }) := by
  obtain ⟨hred, hsunbind, htacq, htrel⟩ := plain_at_dispatch hi
  show execRemoteEngineDispatch c s = _
  unfold execRemoteEngineDispatch
  rw [h]
  dsimp only
  rw [hred, if_neg Bool.false_ne_true]
  split
  next o ho => exact absurd ho (hsunbind o)
  next o ho => exact absurd ho (htacq o)
  next o ho => exact absurd ho (htrel o)
  · rfl
theorem exec_remoteEnd {s : State} {c n : Nat} {k : Cmd} (h : s.looseAt c n = some k) (hc : s.canEnd k = true) : exec (.remoteCommandEnd c n) s =
    .next (State.finishLoose (s.modCore c fun x => { x with remLoose := x.remLoose.filter fun h => h.serial ≠ n }) k) := by
  show execRemoteCommandEnd c n s = _
  unfold execRemoteCommandEnd
  rw [h]
  exact event_pos hc
theorem exec_answer {s : State} {m : LinkRsp} {k : Cmd} (h : s.answers m = some k) : exec (.ualinkResponse m) s =
    .next (s.setLoose m.c { k with rsp := some (if m.failed then 0x22 else 0, 0, 0) }) := by
  show execUalinkResponse m s = _
  unfold execUalinkResponse
  rw [h]

/-! ### Conditional buffers (R188-R190) -/

theorem cond_of_quads {s t : State} (h : t.quads = s.quads) (q : Nat) : (t.quad q).cond = (s.quad q).cond :=
  congrArg (fun x => (tget ({} : Quad) x q).cond) h
theorem mapCmds_cond (s : State) (f : Cmd → Cmd) (q : Nat) : ((s.mapCmds f).quad q).cond = (s.quad q).cond :=
  tget_map_keeps Quad.cond _ (fun _ => by exact ⟨rfl, rfl⟩) s.quads q
/-- No command's end changes a conditional buffer. -/
theorem endCmd_cond (s : State) (k : Cmd) (ws : List Give) (payload : Nat) (always : Bool) (q : Nat) :
    ((s.endCmd k ws payload always).quad q).cond = (s.quad q).cond := by
  rcases endCmd_quads_cases s k ws payload always with hq | ⟨-, t, f, ht, hq⟩
  · exact cond_of_quads hq q
  · exact (cond_of_quads hq q).trans ((mapCmds_cond t f q).trans (cond_of_quads ht q))

/-- A buffer after a push: the selected rows at its end, and its mark behind them. -/
def CondBuf.push (b : CondBuf) (k : Cmd) : CondBuf :=
  { b with recs := b.recs ++ k.pushRows, marks := if k.flag.isSome then b.marks ++ [(b.recs ++ k.pushRows).length] else b.marks }
theorem exec_cspushAccept {s : State} {c : Nat} {k : Cmd} (h : s.pushReady c = some k) : exec (.cspushAccept c) s =
    .next (((s.modCore c fun x => { x with remq := x.remq.tail }).modQuad (c / 4) fun x =>
      { x with cond := tset {} x.cond k.point ((tget {} x.cond k.point).push k) }).endCmd k [] 0 false) := by
  show execCspushAccept c s = _
  unfold execCspushAccept
  rw [h]
  rfl

/-- How many rows a pop takes: as many as a tile holds, no further than the first mark. -/
def CondBuf.popCount (b : CondBuf) (nr : Nat) : Nat := Nat.min nr (b.marks.headD b.recs.length)
/-- A buffer after a pop of as many rows as a tile of `nr` takes. -/
def CondBuf.pop (b : CondBuf) (nr : Nat) : CondBuf :=
  { b with recs := b.recs.drop (b.popCount nr),
           marks := (if b.marks ≠ [] ∧ b.popCount nr = b.marks.headD 0 then b.marks.tail else b.marks).map fun m => m - b.popCount nr }
/-- The number that rows of `w` bits, side by side, stand for. -/
def rowsNat (w : Nat) (rows : List Nat) : Nat := rows.zipIdx.foldl (fun a e => a + e.1 * 2 ^ (w * e.2)) 0
/-- The number whose bits below `n` are those that `p` picks. -/
def pickNat (p : Nat → Prop) [DecidablePred p] (n : Nat) : Nat := (List.range n).foldl (fun a i => if p i then a + 2 ^ i else a) 0
/-- What a pop gives: tile, mask and shape. -/
def CondBuf.given (b : CondBuf) (cols vcols w : Nat) : List (Tile × Tile) :=
  let n := b.popCount (keyRows (cols, vcols, w))
  [(BitVec.ofNat 4096 (rowsNat (cols * w) (b.recs.take n)), allBits (cols * w * n)),
   (BitVec.ofNat 4096 (pickNat (fun i => i / cols < n ∧ i % cols < vcols) 1024), allBits 1024),
   (BitVec.ofNat 4096 (keyRows (cols, vcols, w) + cols * 2 ^ 11 + n * 2 ^ 22 + vcols * 2 ^ 33), allBits 64)]
theorem exec_cspopDelivery {s : State} {q b c cols vcols w : Nat} {k : Cmd} (h : s.popReady q b = some (c, k, cols, vcols, w)) :
    let old := tget {} (s.quad q).cond b
    exec (.cspopDelivery q b) s =
      .next (((s.modCore c fun x => { x with remq := x.remq.tail }).modQuad q fun x =>
        { x with cond := tset {} x.cond b (old.pop (keyRows (cols, vcols, w))) }).endCmd k (k.dest.zip (old.given cols vcols w)) 0 false) := by
  intro old
  have hm : (if !old.marks.isEmpty && decide (old.popCount (keyRows (cols, vcols, w)) = old.marks.headD old.recs.length)
      then old.marks.tail else old.marks) =
      if old.marks ≠ [] ∧ old.popCount (keyRows (cols, vcols, w)) = old.marks.headD 0 then old.marks.tail else old.marks := by
    cases old.marks with
    | nil => rfl
    | cons m l => simp
  show execCspopDelivery q b s = _
  unfold execCspopDelivery
  rw [h]
  unfold CondBuf.pop
  rw [← hm]
  rfl

/-! ### Rows and masks that a pop gives (R190) -/

theorem zipIdx_foldl_eq (w : Nat) (l : List Nat) (hl : ∀ r ∈ l, r < 2 ^ w) (i a : Nat) :
    (l.zipIdx i).foldl (fun a e => a + e.1 * 2 ^ (w * e.2)) a = a + 2 ^ (w * i) * packNat w l := by
  induction l generalizing i a with
  | nil => simp [packNat]
  | cons r l ih =>
    rw [List.zipIdx_cons, List.foldl_cons, ih (fun x hx => hl x (List.mem_cons_of_mem _ hx)), packNat_cons,
      Nat.mod_eq_of_lt (hl r List.mem_cons_self), Nat.mul_succ, Nat.pow_add]
    ring
/-- Rows that fit stand side by side. -/
theorem rowsNat_eq_packNat (w : Nat) (l : List Nat) (hl : ∀ r ∈ l, r < 2 ^ w) : rowsNat w l = packNat w l := by
  rw [rowsNat, zipIdx_foldl_eq w l hl, Nat.mul_zero, Nat.pow_zero, Nat.one_mul, Nat.zero_add]

section Pick
variable (p : Nat → Prop) [DecidablePred p]
theorem pickNat_succ (n : Nat) : pickNat p (n + 1) = if p n then pickNat p n + 2 ^ n else pickNat p n := by
  rw [pickNat, List.range_succ, List.foldl_append]
  rfl
theorem pickNat_lt (n : Nat) : pickNat p n < 2 ^ n := by
  induction n with
  | zero => exact Nat.one_pos
  | succ n ih =>
    rw [pickNat_succ, Nat.pow_succ]
    split <;> omega
theorem testBit_pickNat (n i : Nat) : (pickNat p n).testBit i = (decide (i < n) && decide (p i)) := by
  induction n with
  | zero => simp [pickNat]
  | succ n ih =>
    rw [pickNat_succ]
    rcases Nat.lt_trichotomy i n with hi | rfl | hi
    · have hs : i < n + 1 := Nat.lt_succ_of_lt hi
      rw [decide_eq_true hs, ← decide_eq_true hi, ← ih]
      split
      · rw [Nat.add_comm, Nat.testBit_two_pow_add_gt hi]
      · rfl
    · have hz : (pickNat p i).testBit i = false := Nat.testBit_lt_two_pow (pickNat_lt p i)
      split
      next h => rw [Nat.add_comm, Nat.testBit_two_pow_add_eq, hz, decide_eq_true h, decide_eq_true (Nat.lt_succ_self i)]; rfl
      next h => rw [hz, decide_eq_false h, Bool.and_false]
    · rw [decide_eq_false (by omega), Bool.false_and]
      refine Nat.testBit_lt_two_pow (lt_of_lt_of_le ?_ (Nat.pow_le_pow_right Nat.two_pos hi))
      rw [← pickNat_succ]
      exact pickNat_lt p (n + 1)
end Pick

/-- A number that fits a register is the same number in a wider or a narrower one. -/
theorem setWidth_ofNat_of_lt {m n x : Nat} (h : x < 2 ^ m) : (BitVec.ofNat m x).setWidth n = BitVec.ofNat n x := by
  refine BitVec.eq_of_toNat_eq ?_
  rw [BitVec.toNat_setWidth, toNat_ofNat_of_lt h, BitVec.toNat_ofNat]
theorem ofNat_pickNat (p : Nat → Prop) [DecidablePred p] :
    (BitVec.ofNat 1024 (pickNat p 1024) : MaskReg).setWidth 4096 = BitVec.ofNat 4096 (pickNat p 1024) :=
  setWidth_ofNat_of_lt (pickNat_lt p 1024)
theorem getLsbD_ofNat_pickNat (p : Nat → Prop) [DecidablePred p] {i : Nat} (hi : i < 1024) :
    (BitVec.ofNat 1024 (pickNat p 1024) : MaskReg).getLsbD i = decide (p i) := by
  rw [BitVec.getLsbD_ofNat, testBit_pickNat, decide_eq_true hi, Bool.true_and, Bool.true_and]
/-- Row `i` of the tile that a pop gives. -/
theorem row_given {b : CondBuf} {row nr n : Nat} (hfit : row * nr ≤ 4096) (hn : n ≤ nr) (hl : ∀ r ∈ b.recs.take n, r < 2 ^ row) {i : Nat}
    (hi : i < n) (hr : i < b.recs.length) :
    ((BitVec.ofNat 4096 (rowsNat row (b.recs.take n)) : Tile).extractLsb' (row * i) row).toNat = b.recs.getD i 0 := by
  have hlen : i < (b.recs.take n).length := by
    rw [List.length_take]
    omega
  have hf : row * (b.recs.take n).length ≤ 4096 :=
    (Nat.mul_le_mul_left row ((List.length_take_le n _).trans hn)).trans hfit
  have hg : (b.recs.take n)[i] = b.recs.getD i 0 := by
    rw [List.getElem_take, List.getD_eq_getElem _ _ hr]
  rw [rowsNat_eq_packNat row _ hl, ← hg]
  exact (elem_packTile row _ i hlen hf).trans (Nat.mod_eq_of_lt (hl _ (List.getElem_mem hlen)))

end Sys2Proof.Machine

namespace Sys2Proof.Claims
open Sys2Proof.Machine

/-- A push leaves the buffer's key, and what it holds before. -/
theorem cspushAccept_buffer {s : State} {c : Nat} {k : Cmd} (h : s.pushReady c = some k) : ∃ t, exec (.cspushAccept c) s = .next t ∧
    tget {} (t.quad (c / 4)).cond k.point = (tget {} (s.quad (c / 4)).cond k.point).push k := by
  refine ⟨_, exec_cspushAccept h, ?_⟩
  rw [endCmd_cond, State.modQuad, quad_setQuad_self]
  exact tget_tset_self _ _ _ _
/-- A pop leaves the buffer that its rows have left. -/
theorem cspopDelivery_buffer {s : State} {q b c : Nat} {k : Cmd} {key : Nat × Nat × Nat} (h : s.popReady q b = some (c, k, key)) :
    ∃ t, exec (.cspopDelivery q b) s = .next t ∧ tget {} (t.quad q).cond b = (tget {} (s.quad q).cond b).pop (keyRows key) := by
  obtain ⟨cols, vcols, w⟩ := key
  refine ⟨_, exec_cspopDelivery h, ?_⟩
  rw [endCmd_cond, State.modQuad, quad_setQuad_self]
  exact tget_tset_self _ _ _ _

/-- Settles O42: each event is one case of what its unit is about to do, and no command's end changes a buffer. -/
theorem enginesTakeAndEndCommands : Obligations.EnginesTakeAndEndCommands := by
  intro s
  refine ⟨fun q k rest hrun hheld hq hr ho hs hb => ?_, fun q k hrun hd hf hr hp => ?_, fun q k hrun h => ?_,
    fun q k code va point hrun hd hr hp hf => ?_, fun c k h hi => ?_, fun c n k h hc => exec_remoteEnd h hc, fun m k h => exec_answer h,
    fun c k h => ?_, fun q b c k key h => ?_, fun q b c k cols vcols w d e f h hdest => ?_⟩
  · have hname := startEngine_name (s.setQuad q { s.quad q with copyq := rest }) k
    obtain ⟨hinstr, hrest⟩ := Prod.mk.inj hname
    obtain ⟨htok, hserial⟩ := Prod.mk.inj hrest
    refine ⟨_, exec_copyDispatch (copyNext_head hrun hheld hq hr ho) hs hb, hinstr, htok, hserial, rfl, ?_⟩
    rw [taken_toMove]
    exact Nat.le_add_right _ _
  · exact exec_copyEnd (copyReady_done hrun hd hr hp) hf
  · exact exec_copyWaits (copyReady_full hrun h)
  · exact exec_copyFault (copyReady_done hrun hd hr hp) hf
  · refine ⟨_, exec_remoteDispatch h hi, rfl, rfl, rfl, rfl, ?_⟩
    exact Nat.lt_of_lt_of_le (Nat.lt_succ_self _) (Nat.le_add_right _ _)
  · obtain ⟨t, ht, hbuf⟩ := cspushAccept_buffer h
    refine ⟨t, ht, ?_⟩
    dsimp only
    rw [hbuf]
    exact ⟨rfl, rfl, rfl⟩
  · obtain ⟨t, ht, hbuf⟩ := cspopDelivery_buffer h
    refine ⟨t, ht, ?_⟩
    dsimp only
    rw [hbuf]
    exact ⟨rfl, rfl⟩
  · let old := tget {} (s.quad q).cond b
    let n := old.popCount (keyRows (cols, vcols, w))
    refine ⟨BitVec.ofNat 4096 (rowsNat (cols * w) (old.recs.take n)),
      BitVec.ofNat 1024 (pickNat (fun i => i / cols < n ∧ i % cols < vcols) 1024), (exec_cspopDelivery h).trans ?_,
      fun hl i hi hlen => ?_, fun i hi => getLsbD_ofNat_pickNat _ hi⟩
    · rw [hdest, ofNat_pickNat]
      rfl
    · exact row_given (Nat.mul_div_le 4096 _) (Nat.min_le_left _ _) hl hi hlen

end Sys2Proof.Claims

namespace Sys2Proof.Machine
open Sys2Proof.Claims (counted underLease cubeRoom copyRoom within accept_noted)

/-! ### Cube commands behind the lease (R30, R31, R195, R205) -/

/-- A check that passes goes on with what follows it. -/
theorem check_passed {α : Type} {x : Except Halt Unit} (h : x = .ok ()) (f : Unit → Except Halt α) : (x >>= f) = f () := bind_ok h f

/-! What issue reads of a state stands in the state that counts the command. These are no definitional rules (hence the brackets): `simp` then
carries the decision of a check over with the check. -/

@[simp] theorem counted_cur (s : State) (i : Instr) : (counted s i).cur = s.cur := (rfl)
@[simp] theorem counted_rs (s : State) (i : Instr) (x : BitVec 7) : (counted s i).rs x = s.rs x := (rfl)
@[simp] theorem counted_rv (s : State) (i : Instr) (p : Cl) (x : BitVec 7) : (counted s i).rv p x = s.rv p x := (rfl)
@[simp] theorem counted_readSh (s : State) (i : Instr) (n : Nat) : (counted s i).readSh n = s.readSh n := (rfl)
@[simp] theorem counted_spec (s : State) (i : Instr) (F : Nat) (x : BitVec 7) : (counted s i).spec F x = s.spec F x := (rfl)
@[simp] theorem counted_defMods (s : State) (i : Instr) : (counted s i).defMods = s.defMods := (rfl)
@[simp] theorem counted_newCmd (s : State) (i j : Instr) (o : FE) (m : Mods) : (counted s i).newCmd j o m = s.newCmd j o m := (rfl)

/-- A count changes the run's lease alone. -/
theorem counted_quad (s : State) (i : Instr) : (counted s i).quad (quadOf s.cur) =
    { s.quad (quadOf s.cur) with
      lease := { (s.quad (quadOf s.cur)).lease with count := (s.quad (quadOf s.cur)).lease.count + 1 } } := quad_setQuad_self _ _ _
theorem counted_stopHolds (s : State) (i : Instr) (targets : List Nat) (lm : Nat) :
    (counted s i).stopHolds targets lm = s.stopHolds targets lm := by
  unfold State.stopHolds
  rw [counted_cur, counted_quad]
theorem counted_backPhases (s : State) (i : Instr) (face : Nat) :
    ((counted s i).quad (quadOf s.cur)).backPhases face = (s.quad (quadOf s.cur)).backPhases face := by
  rw [counted_quad]
  rfl

/-! The parts of issue in that state. -/

/-- Under the lease the command counts. -/
theorem accept_underLease {s : State} (i : Instr) (h : underLease s) : (s.noted i).accept = .ok (counted s i) := by
  rw [accept_noted, if_pos h.1, if_pos h.2]
  rfl
theorem tokenFree_counted {s : State} {o : FE} (i : Instr) (h : Claims.tokenFree s o) : (counted s i).tokenFree o = .ok () :=
  if_pos (decide_eq_true h)
theorem toCube_counted {s : State} (i : Instr) (h : cubeRoom s) (k : Cmd) : (counted s i).toCube k =
    .ok (((counted s i).issued k).modQuad (quadOf s.cur) fun q => { q with cmdq := q.cmdq ++ [k] }) := by
  refine bind_ok (if_pos (decide_eq_true ?_)) _
  rw [counted_cur, counted_quad]
  exact h
theorem toCopy_counted {s : State} (i : Instr) (h : copyRoom s) (k : Cmd) : (counted s i).toCopy k =
    .ok (((counted s i).issued k).modQuad (quadOf s.cur) fun q => { q with copyq := q.copyq ++ [k] }) := by
  refine bind_ok (if_pos (decide_eq_true ?_)) _
  rw [counted_cur, counted_quad]
  exact h

/-! The checks of the operands. -/

theorem onlyBits_within {w : Word} {m : Nat} (h : within w m) : onlyBits w m = .ok () := ensure_of_true (decide_eq_true h) _
/-- A shape whose cube half keeps its ranges. -/
theorem cubeShape_of_half {h : ShapeReg} (hh : cubeHalfOk (h.toNat / 2 ^ 64) = true) : cubeShape h = .ok () :=
  ensure_of_true hh _
/-- A check of what no other context's stopped command may hold. -/
theorem stopFree_counted {s : State} {targets : List Nat} {lm : Nat} (i : Instr) (h : s.stopHolds targets lm = false) :
    ensure (!(counted s i).stopHolds targets lm) 0x08 = .ok () := by
  rw [counted_stopHolds, h]
  rfl
theorem ensure_decide {p : Prop} [Decidable p] (h : p) (code : Nat) : ensure (decide p) code = .ok () :=
  ensure_of_true (decide_eq_true h) code
/-- A check that a flag alone asks for. -/
theorem ensure_imp {c : Bool} {p : Prop} [Decidable p] (h : c = true → p) (code : Nat) : ensure (!c || decide p) code = .ok () := by
  refine ensure_of_true ?_ code
  cases c with
  | false => rfl
  | true => exact decide_eq_true (h rfl)

section UnderLease
variable {s : State} {i : Instr} {o : FE} {k : Cmd} {f : State → State → Except Halt State} (hu : underLease s)
  (ht : Claims.tokenFree s o) (hr : s.operandsReady i = true)
include hu ht hr

/-- A cube instruction whose own checks leave only its token and its queue counts against the lease and enters the queue. -/
theorem syl_accept_toCube (hc : cubeRoom s)
    (hf : f (s.noted i) (counted s i) = (do (counted s i).tokenFree o; (counted s i).toCube k)) :
    s.syl i (fun t => t.accept.bind (f t)) = Claims.toCubeQueue (counted s i) k :=
  syl_ok s i _ hr ((bind_ok (accept_underLease i hu) _).trans (hf.trans
    ((check_passed (tokenFree_counted i ht) _).trans (toCube_counted i hc k))))
/-- So does one for the copy engine. -/
theorem syl_accept_toCopy (hc : copyRoom s)
    (hf : f (s.noted i) (counted s i) = (do (counted s i).tokenFree o; (counted s i).toCopy k)) :
    s.syl i (fun t => t.accept.bind (f t)) = Claims.toCopyQueue (counted s i) k :=
  syl_ok s i _ hr ((bind_ok (accept_underLease i hu) _).trans (hf.trans
    ((check_passed (tokenFree_counted i ht) _).trans (toCopy_counted i hc k))))
end UnderLease

end Sys2Proof.Machine

namespace Sys2Proof.Claims
open Sys2Proof.Machine

/-! ### Cube commands at issue (R195-R230) -/

theorem exec_products (o : FE) (s : State) : ∀ i ∈ [Instr.cmm o, .cmmz o, .cconv o], exec i s = s.syl i fun t => t.product i o := by
  simp only [List.forall_mem_cons, List.not_mem_nil, false_imp_iff, implies_true, and_true]
  exact ⟨rfl, rfl, rfl⟩

/-- The operand words and the shape of a product keep R207-R211, and no other context's stopped command holds what it names. -/
structure LawfulProduct (s : State) (i : Instr) (o : FE) : Prop where
  word : operandOk (s.rs o.a).toNat = true
  plane : isPlane i = true → bits o.d.toNat 1 0 = 0
  sparse : isSparse i = true → (s.rs o.b).toNat < 32
  conv : isConv i = true → (s.rs o.b).toNat % 64 = 0 ∧ (s.rs o.b).toNat < 2 ^ 18
  half : cubeHalfOk ((s.readSh o.sh.toNat).toNat / 2 ^ 64) = true
  steps : (if isPlane i then kOf (s.readSh o.sh.toNat) else
    (kOf (s.readSh o.sh.toNat) + (layersOf (lmaskOf (s.rs o.a))).length - 1) / (layersOf (lmaskOf (s.rs o.a))).length) ≤ 8192
  free : s.stopHolds (if isPlane i then [] else [bits o.d.toNat 1 0]) (lmaskOf (s.rs o.a)) = false

/-- A lawful product enters the cube's queue. -/
theorem syl_product {s : State} {i : Instr} {o : FE} (hl : LawfulProduct s i o) (hu : underLease s) (ht : tokenFree s o) (hc : cubeRoom s)
    (hr : s.operandsReady i = true) : s.syl i (fun t => t.product i o) =
      toCubeQueue (counted s i) { s.newCmd i o s.defMods with sa := s.rs o.a, sb := s.rs o.b, shape := s.readSh o.sh.toNat } := by
  have word : (operandOk (s.rs o.a).toNat && !(isPlane i && decide (bits o.d.toNat 1 0 ≠ 0))) = true := by
    rw [hl.word, Bool.true_and]
    cases h : isPlane i with
    | false => rfl
    | true => rw [hl.plane h]; rfl
  refine syl_accept_toCube hu ht hr hc ?_
  simp only [counted_rs, counted_readSh, counted_newCmd, counted_defMods]
  refine (check_passed (ensure_of_true word _) _).trans ?_
  refine (check_passed (ensure_imp hl.sparse _) _).trans ?_
  refine (check_passed (ensure_imp hl.conv _) _).trans ?_
  refine (check_passed (cubeShape_of_half hl.half) _).trans ?_
  refine (check_passed (ensure_decide hl.steps _) _).trans ?_
  exact check_passed (stopFree_counted i hl.free) _

/-- Settles O36: a cube instruction counts against the lease and passes its own checks, then asks for its token and its queue's room; `cstat`
makes its checks alone. -/
theorem cubeCommandsIssue : Obligations.CubeCommandsIssue := by
  refine ⟨fun s o hu ht hc hh => ⟨fun i hi hw hp hs hv hk hf hr => ?product, fun hw hk hf hr => ?cplane⟩, fun s o ht => ⟨fun hu hc =>
    ⟨fun hw hr => ?csmeta, fun hw hr => ?cseq, fun hw hl hp hf hr => ?cswap, fun hw hf hr => ?cwracc, fun hw hl hr => ?cdrain,
      fun hw hr => ?ckat, fun hw hn hr => ?cbist⟩,
    fun hu hc hw hr => ?cfill, fun hu hw hr => ?crdacc, fun hw hn hr => ?cstat⟩⟩
  case product => exact (exec_products o s i hi).trans (syl_product ⟨hw, hp, hs, hv, hh, hk, hf⟩ hu ht hc hr)
  case cplane =>
    refine syl_accept_toCube hu ht hr hc ?_
    simp only [counted_rs, counted_readSh, counted_newCmd, counted_defMods]
    refine (check_passed (onlyBits_within hw) _).trans ?_
    refine (check_passed (cubeShape_of_half hh) _).trans ?_
    refine (check_passed (ensure_decide hk _) _).trans ?_
    exact check_passed (stopFree_counted _ hf) _
  case csmeta | cseq | ckat =>
    refine syl_accept_toCube hu ht hr hc ?_
    simp only [counted_rs, counted_newCmd, counted_defMods]
    exact check_passed (onlyBits_within hw) _
  case cswap =>
    refine syl_accept_toCube hu ht hr hc ?_
    simp only [counted_rs, counted_newCmd]
    refine (check_passed (onlyBits_within hw) _).trans ?_
    refine (check_passed (ensure_decide ⟨hl, hp⟩ _) _).trans ?_
    exact check_passed (stopFree_counted _ hf) _
  case cwracc =>
    refine syl_accept_toCube hu ht hr hc ?_
    simp only [counted_rs, counted_rv, counted_newCmd]
    refine (check_passed (ensure_of_true hw _) _).trans ?_
    exact check_passed (stopFree_counted _ hf) _
  case cdrain =>
    refine syl_accept_toCube hu ht hr hc ?_
    simp only [counted_rs, counted_newCmd]
    refine (check_passed (onlyBits_within hw) _).trans ?_
    exact check_passed (ensure_imp hl _) _
  case cbist =>
    refine syl_accept_toCube hu ht hr hc ?_
    simp only [counted_rs, counted_newCmd]
    refine (check_passed (onlyBits_within hw) _).trans ?_
    exact check_passed (ensure_decide hn _) _
  case cfill =>
    rw [← counted_backPhases s (.cfill o)]
    refine syl_accept_toCopy hu ht hr hc ?_
    simp only [counted_rs, counted_newCmd, counted_defMods, counted_cur]
    exact check_passed (ensure_of_true hw _) _
  case crdacc =>
    refine syl_ok s (.crdacc o) _ hr ((bind_ok (accept_underLease _ hu) _).trans ?_)
    simp only [counted_rs, counted_spec, counted_newCmd]
    refine (check_passed (ensure_of_true hw _) _).trans ?_
    exact check_passed (tokenFree_counted _ ht) _
  case cstat =>
    refine syl_ok s (.cstat o) _ hr ?_
    dsimp only [noted_rs, noted_spec]
    refine (check_passed (onlyBits_within hw) _).trans ?_
    refine (check_passed (ensure_decide hn _) _).trans ?_
    exact check_passed (tokenFree_noted _ ht) _

end Sys2Proof.Claims

namespace Sys2Proof.Machine

/-! ### What leaves memory as it is -/

/-- Either branch leaves what both leave. -/
theorem mem_ite {s t u : State} {p : Prop} [Decidable p] (h : t.mem = s.mem) (k : u.mem = s.mem) : (if p then t else u).mem = s.mem := by
  split
  · exact h
  · exact k
theorem Keeps.ite {s t u : State} {p : Prop} [Decidable p] (h : Keeps s t) (k : Keeps s u) : Keeps s (if p then t else u) := by
  split
  · exact h
  · exact k

@[simp] theorem setQueue_mem (s : State) (n : Nat) (q : DQueue) : (s.setQueue n q).mem = s.mem := rfl
@[simp] theorem modLaunch_mem (s : State) (id : Nat) (f : Launch → Launch) : (s.modLaunch id f).mem = s.mem := rfl
@[simp] theorem mapCmds_mem (s : State) (f : Cmd → Cmd) : (s.mapCmds f).mem = s.mem := rfl
@[simp] theorem setLoose_mem (s : State) (c : Nat) (k : Cmd) : (s.setLoose c k).mem = s.mem := rfl
@[simp] theorem discard_mem (s : State) (p : Cmd → Bool) : (s.discard p).mem = s.mem := rfl
@[simp] theorem dropLease_mem (s : State) (g : Nat) : (s.dropLease g).mem = s.mem := rfl
@[simp] theorem passDeck_mem (s : State) (g h : Nat) : (s.passDeck g h).mem = s.mem :=
  mem_foldl _ (fun _ _ => modTower_mem _ _ _) _ _
@[simp] theorem reown_mem (s : State) (g h : Nat) : (s.reown g h).mem = s.mem := rfl
@[simp] theorem wakeReads_mem (s : State) (q t : Nat) : (s.wakeReads q t).mem = s.mem := rfl
@[simp] theorem enterKernel_mem (s : State) (g : Nat) (l : Launch) (n task stage image entry : Nat) :
    (s.enterKernel g l n task stage image entry).mem = s.mem := rfl
@[simp] theorem takeFault_mem (s : State) (f : FaultInfo) : (s.takeFault f).mem = s.mem := by
  unfold State.takeFault
  dsimp only
  split
  · exact markWalk_mem _ _ _
  · rfl
@[simp] theorem barTest_mem (s : State) (n : Nat) : (s.barTest n).mem = s.mem := (Prod.mk.inj (barTest_ctxs_mem s n)).2
@[simp] theorem leaveBars_mem (s : State) (g : Nat) : (s.leaveBars g).mem = s.mem := (Prod.mk.inj (leaveBars_ctxs_mem s g)).2
@[simp] theorem blockEffect_mem (s : State) (fx : BlockFx) : (s.blockEffect fx).mem = s.mem := by
  cases fx with
  | arrive n => exact (barTest_mem _ _).trans (takeClasses_mem s 0xFFFF)
  | flush m => exact meldFlush_mem _ _ _
  | none | wantStage _ _ _ | wantLease | watch _ | await _ => rfl
@[simp] theorem mayTake_mem (s : State) (r : RegId) (m : Mods) (b : Bool) (l : List LateElem) : (s.mayTake r m b l).mem = s.mem := by
  unfold State.mayTake
  split <;> rfl
@[simp] theorem giveTile_mem (s : State) (p : Cl) (n w : Nat) (act : List Bool) (lat : Nat) (f : Nat → Nat) :
    (s.giveTile p n w act lat f).mem = s.mem := putV_mem _ _ _ _ _ _
@[simp] theorem giveMask_mem (s : State) (p : Cl) (n lat : Nat) (l : List Bool) : (s.giveMask p n lat l).mem = s.mem := putM_mem _ _ _ _ _ _
@[simp] theorem giveEvent_mem (s : State) (o : FR) : (s.giveEvent o).mem = s.mem := (putS_mem _ _ _ _).trans (putS_mem _ _ _ _)
@[simp] theorem meldOuts_mem (l : List MeldLine) (s : State) : (l.foldl State.meldOut s).mem = s.mem := mem_foldl State.meldOut (fun _ _ => rfl) _ _
@[simp] theorem meldAccept_mem (k : Cmd) (w : Nat) (s : State) (e : Nat × Nat) : (s.meldAccept k w e).mem = s.mem := by
  unfold State.meldAccept
  extract_lets kind isF base off va
  split
  · rfl
  · refine mem_ite rfl ?_
    extract_lets full last
    have hf : full.mem = s.mem := meldOuts_mem _ _
    have hl : last.mem = s.mem := by
      unfold last
      split
      · exact mem_ite hf hf
      · exact hf
    exact hl
@[simp] theorem passOn_mem (s : State) (g : Nat) : (s.passOn g).mem = s.mem := by
  unfold State.passOn
  split
  · split
    · exact meldFlush_mem _ _ _
    · rfl
  · rfl
@[simp] theorem evictAlloc_mem (s : State) (e : BitVec 128) : (s.evictAlloc e).mem = s.mem :=
  mem_foldl _ (fun _ _ => by exact meldOuts_mem _ _) _ _
@[simp] theorem stopCube_mem (s : State) (g : Nat) : (s.stopCube g).mem = s.mem := by
  unfold State.stopCube
  extract_lets q x runs recs left piece mine y point stopped told
  clear_value point
  have h : told.mem = s.mem := by
    cases point with
    | some p => exact mem_ite rfl rfl
    | none => rfl
  clear_value told
  exact mem_ite h h
@[simp] theorem cubesOver_mem (s : State) : s.cubesOver.mem = s.mem := mem_foldl _ (fun _ _ => by rfl) _ _
@[simp] theorem countEcc_mem (s : State) (n : Nat) : (s.countEcc n).mem = s.mem := by
  refine mem_foldl _ (fun t _ => ?_) _ _
  dsimp only
  split <;> rfl
@[simp] theorem issueMet_mem (s : State) (read bad : List Instr) : (s.issueMet read bad).mem = s.mem := countEcc_mem _ _
@[simp] theorem slipTaken_mem (s : State) (f : FaultInfo) : (s.slipTaken f).mem = s.mem := by
  unfold State.slipTaken
  split <;> rfl
@[simp] theorem countBlocked_mem (s : State) : s.countBlocked.mem = s.mem := by
  refine mem_foldl _ (fun t e => ?_) _ _
  split <;> rfl

/-! Launches. -/

@[simp] theorem slip_mem (s : State) (n : FaultNote) : (s.slip n).mem = s.mem := rfl
@[simp] theorem slipMark_mem (s : State) (u : Nat) : (s.slipMark u).mem = s.mem := by
  unfold State.slipMark
  split <;> rfl
@[simp] theorem slipUnit_mem (s : State) (l : Launch) (u : Nat) : (s.slipUnit l u).mem = s.mem :=
  (slip_mem _ _).trans ((slipMark_mem _ _).trans (setArm_mem _ _ _))
@[simp] theorem slipUnits_mem (s : State) (l : Launch) (us : List Nat) : (us.foldl (fun s u => s.slipUnit l u) s).mem = s.mem :=
  mem_foldl _ (fun _ _ => slipUnit_mem _ _ _) _ _
@[simp] theorem setDecks_mem (s : State) (id n : Nat) : (s.setDecks id n).mem = s.mem := by
  unfold State.setDecks
  split
  · rfl
  · exact mem_foldl _ (fun _ _ => by rfl) _ _
@[simp] theorem prepare_mem (s : State) (l : Launch) (n : Nat) : (s.prepare l n).mem = s.mem := by
  unfold State.prepare
  split
  · rfl
  extract_lets tags
  have h : tags.mem = s.mem := by
    unfold tags
    split
    · rfl
    · exact mem_foldl _ (fun _ _ => by rfl) _ _
  exact h
@[simp] theorem loadSets_mem (s : State) (l : Launch) (p : Phase) : (s.loadSets l p).mem = s.mem :=
  mem_foldl _ (fun _ _ => mem_foldl _ (fun _ _ => by rfl) _ _) _ _
@[simp] theorem setBank_mem (s : State) (l : Launch) (n : Nat) : (s.setBank l n).mem = s.mem := mem_foldl _ (fun _ _ => by rfl) _ _
@[simp] theorem dropArrivals_mem (s : State) (l : Launch) : (s.dropArrivals l).mem = s.mem :=
  (mem_foldl _ (fun _ _ => by rfl) _ _).trans (mem_foldl _ (fun _ _ => by rfl) _ _)
@[simp] theorem rearm_mem (s : State) (l : Launch) : (s.rearm l).mem = s.mem := by
  unfold State.rearm
  extract_lets t waiting start armed tags saved inForce runs
  have h1 : armed.mem = s.mem := mem_foldl _ (fun _ _ => by rfl) _ _
  have h2 : tags.mem = s.mem := (mem_foldl _ (fun _ _ => by rfl) _ _).trans ((dropArrivals_mem _ _).trans h1)
  have h3 : saved.mem = s.mem := (mem_foldl _ (fun _ _ => by rfl) _ _).trans h2
  have h4 : runs.mem = s.mem := by
    unfold runs
    split
    · exact (mem_foldl _ (fun _ _ => by rfl) _ _).trans h3
    · exact h3
  exact h4
@[simp] theorem disown_mem (s : State) (h : Nat) : (s.disown h).mem = s.mem := meldFlush_mem _ _ _
@[simp] theorem freeSlot_mem (s : State) (g : Nat) : (s.freeSlot g).mem = s.mem := by
  simp [State.freeSlot]
@[simp] theorem freeTags_mem (s : State) (l : Launch) : (s.freeTags l).mem = s.mem := by
  refine mem_foldl _ (fun t n => ?_) _ _
  split <;> rfl
@[simp] theorem beginPhase_mem (s : State) (l : Launch) (n : Nat) : (s.beginPhase l n).mem = s.mem := by
  unfold State.beginPhase
  split
  · rfl
  split
  · rfl
  extract_lets decks tags first leases
  have h1 : decks.mem = s.mem := mem_foldl _ (fun _ _ => setDecks_mem _ _ _) _ _
  have h2 : tags.mem = s.mem := (mem_foldl _ (fun _ _ => by rfl) _ _).trans h1
  have h3 : leases.mem = s.mem := by
    unfold leases
    split
    · exact (mem_foldl _ (fun _ _ => by rfl) _ _).trans h2
    · exact h2
  exact h3
@[simp] theorem startUnit_mem (s : State) (l : Launch) (n : Nat) (e : EngEntry) : (s.startUnit l n e).mem = s.mem := by
  unfold State.startUnit
  dsimp only
  split <;> exact beginPhase_mem _ _ _
@[simp] theorem barComplete_mem (s : State) (n : Nat) : (s.barComplete n).mem = s.mem := by
  unfold State.barComplete
  extract_lets b fresh
  split
  · split
    · rfl
    · extract_lets bank
      have h : bank.mem = s.mem := by
        unfold bank
        split
        · rfl
        · exact setBank_mem _ _ _
      exact h
  · rfl
@[simp] theorem commOver_mem (s : State) (l : Launch) (p : Phase) (k : Trick) (stop : Nat) : (s.commOver l p k stop).mem = s.mem := by
  unfold State.commOver
  exact mem_ite (setBank_mem _ _ _) ((slipUnits_mem _ _ _).trans (setBank_mem s l 4))
@[simp] theorem askAll_mem (s : State) (id : Nat) (hold : Bool) : (s.askAll id hold).mem = s.mem := mem_foldl _ (fun _ _ => by rfl) _ _
@[simp] theorem stopLaunch_mem (s : State) (id : Nat) (hold : Bool) : (s.stopLaunch id hold).mem = s.mem := by
  unfold State.stopLaunch
  refine (askAll_mem _ _ _).trans ?_
  split
  · exact dropArrivals_mem _ _
  · rfl
@[simp] theorem preemptNow_mem (s : State) (g : Nat) : (s.preemptNow g).mem = s.mem := meldFlush_mem _ _ _
@[simp] theorem reexecute_mem (s : State) (l : Launch) (t : Task) : (s.reexecute l t).mem = s.mem := by
  unfold State.reexecute
  extract_lets g key told dropped gone slot again
  have hd : dropped.mem = s.mem := disown_mem told t.owner
  clear_value dropped
  have hg : gone.mem = s.mem := mem_ite (by simp [hd]) (by simp [hd])
  clear_value gone
  exact mem_ite rfl (mem_ite ((stopLaunch_mem _ _ _).trans hg) hg)
@[simp] theorem holdFor_mem (s : State) (n : FaultNote) (l : Launch) : (s.holdFor n l).mem = s.mem := by
  unfold State.holdFor
  extract_lets c saved live phase held
  clear_value saved phase
  refine mem_ite (mem_ite rfl (stopLaunch_mem s l.id true)) (mem_ite rfl (mem_ite (mem_ite rfl rfl) ?_))
  cases saved with
  | some d => exact mem_ite rfl rfl
  | none => rfl
@[simp] theorem freeHeld_mem (s : State) (l : Launch) (t : Nat) : (s.freeHeld l t).mem = s.mem := by
  refine mem_foldl _ (fun u e => ?_) _ _
  extract_lets v
  have h : v.mem = u.mem := mem_ite rfl rfl
  split
  · exact mem_ite h h
  · exact h
@[simp] theorem resumeEngines_mem (s : State) (g : Nat) : (s.resumeEngines g).mem = s.mem := by
  unfold State.resumeEngines
  dsimp only
  split <;> rfl
@[simp] theorem unhold_mem (s : State) (id : Nat) : (s.unhold id).mem = s.mem := mem_foldl _ (fun _ _ => by rfl) _ _
@[simp] theorem resume_mem (s : State) (g : Nat) : (s.resume g).mem = s.mem := by
  unfold State.resume
  extract_lets t
  have h : t.mem = s.mem := resumeEngines_mem _ _
  refine mem_ite h ?_
  split
  · exact (unhold_mem _ _).trans h
  · exact h
  · exact h
@[simp] theorem stopStray_mem (s : State) (v : Nat) : (s.stopStray v).mem = s.mem :=
  mem_foldl _ (fun _ _ => by simp) _ _

/-! The window. -/

@[simp] theorem clearCounter_mem (s : State) (n u i : Nat) : (s.clearCounter n u i).mem = s.mem := by
  unfold State.clearCounter
  simp only [apply_ite State.mem, modCtx_mem, modVf_mem, modQuad_mem, setBar_mem, modTower_mem, modCore_mem, ite_self]
@[simp] theorem putZeroise_mem (s : State) (b : Bool) : (s.putZeroise b).mem = s.mem := by
  unfold State.putZeroise
  split <;> rfl
@[simp] theorem writeShown_mem (s : State) (f : Option Nat) (off : Nat) (w : Word) : (s.writeShown f off w).mem = s.mem := by
  unfold State.writeShown
  exact mem_ite (mem_ite rfl rfl) (mem_ite rfl rfl)
@[simp] theorem writeItem_mem (s : State) (off : Nat) (w : Word) : (s.writeItem off w).mem = s.mem := by
  unfold State.writeItem
  refine mem_ite (modDealer_mem _ _) (mem_ite (putZeroise_mem _ _) (mem_ite (modDealer_mem _ _) (mem_ite (modTower_mem _ _ _)
    (mem_ite (modDealer_mem _ _) (mem_ite (modDealer_mem _ _) ?_)))))
  dsimp only
  exact mem_ite (clearCounter_mem _ _ _ _) rfl

end Sys2Proof.Machine

namespace Sys2Proof.Machine

/-! ### What keeps memory canonical: accesses and the ends of commands (R236, R341) -/

theorem Keeps.same {s t u : State} (h : Keeps s t) (e : u.mem = t.mem) : Keeps s u := h.trans (.of_eq e)
/-- An attempt that may fail keeps memory canonical when its success does. -/
theorem Keeps.getD {s u : State} {o : Option State} (h : ∀ t ∈ o, Keeps s t) (hu : Keeps s u) : Keeps s (o.getD u) := by
  cases o with
  | none => exact hu
  | some t => exact h t (Option.mem_some_self t)

theorem podRelease_keeps (s : State) (n : Nat) : Keeps s (s.podRelease n) := .ite (cleanLines_keeps _ _) .rfl
theorem orderDone_keeps (s : State) (m : Mods) : Keeps s (s.orderDone m) := .ite (podRelease_keeps _ _) .rfl
theorem fillWalks_keeps (s : State) (l : List (Word × Xlate)) : Keeps s (s.fillWalks l) := .foldl _ (fun _ _ => fillWalk_keeps _ _ _) _ _
theorem directDone_keeps (s : State) (x : Xlate) (rs : List (Nat × Nat)) : Keeps s (s.directDone x rs) := by
  unfold State.directDone
  extract_lets v walked q bad poisoned
  have hw : Keeps s walked := fillWalk_keeps _ _ _
  refine .ite ?_ (hw.trans (.foldl _ (fun _ _ => eccMet_keeps _ _ _ _ _) _ _))
  have hb : Keeps s bad := hw.trans (.foldl _ (fun t _ => .of_eq (vfSat_mem t _ _ _ _)) _ _)
  refine (hb.same (modQuad_mem _ _ _)).trans (.foldl _ (fun t u => ?_) _ _)
  extract_lets counted
  exact (Keeps.of_eq (vfSat_mem t _ _ _ _)).trans (.ite (modCtx_keeps _ _ _) .rfl)
theorem directStore_keeps (s : State) (x : Xlate) (m : Mods) (l : List Sys2Proof.Cell) : Keeps s (s.directStore x m l) :=
  (fillWalk_keeps s s.me.vfid x).same (enqueue_mem _ _)
theorem engineMeets_keeps (s : State) (k : Cmd) (pa n : Nat) : Keeps s (s.engineMeets k pa n) := eccMet_keeps _ _ _ _ _
theorem postAll_keeps (s : State) (v : Nat) (r : EvRec) : Keeps s (s.postAll v r) :=
  (Keeps.foldl _ (fun _ _ => .ite (modCtx_keeps _ _ _) .rfl) _ _).trans (.foldl _ (fun _ _ => .ite (framePost_keeps _ _ _ _) .rfl) _ _)

theorem frameGive_keeps (s : State) (v g : Nat) (ws : List Give) : Keeps s (s.frameGive v g ws) := by
  refine .foldl _ (fun t w => .ite .rfl ?_) _ _
  dsimp only
  split
  · exact ((framePut_keeps _ _ _ _ _ _).trans (framePut_keeps _ _ _ _ _ _)).trans (modSaved_keeps _ _ _ _)
  · exact framePut_keeps _ _ _ _ _ _
theorem giveTo_keeps (s : State) (k : Cmd) (ws : List Give) : Keeps s (s.giveTo k ws) :=
  .ite (modCtx_keeps _ _ _) (.ite (frameGive_keeps _ _ _ _) .rfl)
theorem frameFinish_keeps (s : State) (k : Cmd) (err : Bool) : Keeps s (s.frameFinish k err) := by
  unfold State.frameFinish
  dsimp only
  split
  · exact .ite ((framePut_keeps _ _ _ _ _ _).trans (modSaved_keeps _ _ _ _)) .rfl
  · exact .rfl
/-- The end of a command: its record, its notice, its results and its token. -/
theorem endCmd_keeps (s : State) (k : Cmd) (ws : List Give) (n : Nat) (b : Bool) : Keeps s (s.endCmd k ws n b) := by
  unfold State.endCmd
  extract_lets code err oob r told noticed chained given
  have h1 : Keeps s oob := .ite .rfl (.of_eq (modVf_mem _ _ _))
  have h2 : Keeps oob told := .ite (postTo_keeps _ _ _ _) .rfl
  have h3 : Keeps told noticed := .ite (.of_eq rfl) .rfl
  have h4 : Keeps noticed chained := by
    unfold chained
    split
    · exact .of_eq (mapCmds_mem _ _)
    · exact .rfl
  have h5 : Keeps chained given := giveTo_keeps _ _ _
  have h6 : Keeps s given := (((h1.trans h2).trans h3).trans h4).trans h5
  clear_value given
  exact .ite (h6.trans (modCtx_keeps _ _ _)) (.ite (h6.trans (frameFinish_keeps _ _ _)) h6)

/-! Queued writes. -/

theorem dropReduction_keeps (s : State) (v g c n : Nat) (va : Word) : Keeps s (s.dropReduction v g c n va) :=
  (Keeps.of_eq (vfSat_mem _ _ _ _ _)).trans (postTo_keeps _ _ _ _)
theorem settleLine_keeps (s : State) (m : Mods) (pa : Nat) : Keeps s (s.settleLine m pa) := .ite (cleanLines_keeps _ _) .rfl
theorem performEntry_keeps (s : State) (e : WqEntry) : Keeps s (s.performEntry e) := by
  unfold State.performEntry
  split
  next cells _ =>
    refine .ite (.of_eq (modQuad_mem _ _ _)) (.ite (.of_eq (vfSat_mem _ _ _ _ _)) ?_)
    have h := (performWrite_keeps s e.pa cells e.mods.cache).trans (settleLine_keeps _ e.mods e.pa)
    dsimp only
    split
    · exact h.same (enqueue_mem _ _)
    · exact h
  next i w vals n _ =>
    split
    · extract_lets mine n
      have hw : Keeps s { s with wq := s.wq.filter fun x => !mine x } := .of_eq rfl
      exact hw.trans (dropReduction_keeps _ _ _ _ _ _)
    · refine Keeps.trans (.foldl _ (fun t x => ?_) _ _) (settleLine_keeps _ _ _)
      dsimp only
      exact .ite (engineMeets_keeps _ _ _ _) ((engineMeets_keeps _ _ _ _).trans (performWrite_keeps _ _ _ _))
  next n _ => exact .ite (.of_eq (vfSat_mem _ _ _ _ _)) (incrementFlag_keeps _ _ _ _ _ _)
theorem applyEntry_keeps (s : State) (n : Nat) : Keeps s (s.applyEntry n) := by
  unfold State.applyEntry
  split
  · exact performEntry_keeps { s with wq := s.wq.filter fun x => x.n ≠ n } _
  · exact .rfl
theorem drainLine_keeps (s : State) (pa : Nat) : Keeps s (s.drainLine pa) := .foldl _ applyEntry_keeps _ _
theorem portWrite_keeps (s : State) (pa : Nat) (l : List Sys2Proof.Cell) (c : Nat) : Keeps s (s.portWrite pa l c) :=
  (Keeps.foldl _ (fun _ _ => drainLine_keeps _ _) _ _).trans (performWrite_keeps _ _ _ _)
theorem portIncrement_keeps (s : State) (v g pa n c : Nat) : Keeps s (s.portIncrement v g pa n c) :=
  (drainLine_keeps s pa).trans (incrementFlag_keeps _ _ _ _ _ _)
theorem dealerWrite_keeps (s : State) (pa v n : Nat) : Keeps s (s.dealerWrite pa v n) := portWrite_keeps _ _ _ _
/-- Several writes of the Dealer. -/
theorem dealerWrites_keeps {α : Type} (f g h : α → Nat) (l : List α) (s : State) :
    Keeps s (l.foldl (fun s x => s.dealerWrite (f x) (g x) (h x)) s) := .foldl _ (fun _ _ => dealerWrite_keeps _ _ _ _) _ _

/-! Streams (R329-R332). -/

theorem descRead_keeps (s : State) (k : Cmd) (va : Word) : Keeps s (s.descRead k va) := by
  unfold State.descRead
  dsimp only
  split
  · exact .ite (walked_keeps _ _ _ _) ((walked_keeps _ _ _ _).trans (engineMeets_keeps _ _ _ _))
  · exact walked_keeps _ _ _ _
theorem endStream_keeps (s : State) (h n : Nat) (l : List Nat) : Keeps s (s.endStream h n l) :=
  (setSlotStream_keeps _ _ _ _).trans (endCmd_keeps _ _ _ _ _)
theorem startStream_keeps (s : State) (k : Cmd) : Keeps s (s.startStream k) := by
  unfold State.startStream
  split
  · exact .rfl
  refine .ite .rfl ?_
  dsimp only
  split
  · exact (descRead_keeps _ _ _).trans (.ite (endStream_keeps _ _ _ _) (modCtx_keeps _ _ _))
  · exact (descRead_keeps _ _ _).trans (endStream_keeps _ _ _ _)
theorem rebind_keeps (s : State) (g n : Nat) : Keeps s (s.rebind g n) := by
  unfold State.rebind
  dsimp only
  refine .ite .rfl ?_
  split
  · exact (descRead_keeps _ _ _).trans (.ite (endStream_keeps _ _ _ _) (modCtx_keeps _ _ _))
  · exact (descRead_keeps _ _ _).trans (endStream_keeps _ _ _ _)
theorem streamFault_keeps (s : State) (h n : Nat) : ∀ t ∈ s.streamFault h n, Keeps s t := by
  intro t ht
  unfold State.streamFault at ht
  dsimp only at ht
  split at ht
  · split at ht
    · obtain rfl := Option.some.inj ht
      exact (((walked_keeps _ _ _ _).trans (setSlotStream_keeps _ _ _ _)).trans (postTo_keeps _ _ _ _)).same (modDealer_mem _ _)
    · cases ht
  · cases ht
theorem fetch_keeps (k : Cmd) (l : Layout) (h : VShape) (n : Nat) (a : TileAcc) (i : Nat) : Keeps a.s (TileAcc.fetch k l h n a i).s := by
  unfold TileAcc.fetch
  split
  · exact .rfl
  split
  · exact .rfl
  split
  · exact .rfl
  split
  · exact .rfl
  dsimp only
  split
  · exact .rfl
  · exact .rfl
  split
  · exact .rfl
  · exact ((fillWalkFor_keeps _ _ _ _).trans (cacheRead_keeps _ _ _ _)).trans (.foldl _ (fun _ _ => engineMeets_keeps _ _ _ _) _ _)
theorem put_keeps (k : Cmd) (l : Layout) (h : VShape) (n : Nat) (d : Tile) (a : TileAcc) (i : Nat) :
    Keeps a.s (TileAcc.put k l h n d a i).s := by
  unfold TileAcc.put
  split
  · exact .rfl
  split
  · exact .rfl
  split
  · exact .rfl
  dsimp only
  split
  · exact .rfl
  · exact .rfl
  split
  · exact .rfl
  · exact (fillWalkFor_keeps _ _ _ _).trans (portWrite_keeps _ _ _ _)
/-- Steps over a state with its account, folded. -/
theorem Keeps.foldAcc {α β : Type} (st : α → State) (f : α → β → α) (h : ∀ a b, Keeps (st a) (st (f a b))) (l : List β) (a : α) :
    Keeps (st a) (st (l.foldl f a)) := fun ha => foldl_keeps (fun a => memWf (st a).mem = true) f (fun a b => h a b) l a ha
theorem puts_keeps (k : Cmd) (l : Layout) (h : VShape) (n : Nat) (d : Tile) (is : List Nat) (a : TileAcc) :
    Keeps a.s (is.foldl (TileAcc.put k l h n d) a).done.s :=
  (Keeps.foldAcc TileAcc.s _ (put_keeps k l h n d) is a).trans (clearCovered_keeps _ _)
theorem streamNext_keeps (s : State) (h n : Nat) : ∀ a ∈ s.streamNext h n, Keeps s a.s := by
  intro a ha
  unfold State.streamNext at ha
  dsimp only at ha
  split at ha
  · cases ha
  split at ha
  · cases ha
  split at ha
  · split at ha
    · split at ha
      · obtain rfl := Option.some.inj ha
        exact puts_keeps _ _ _ _ _ _ { s := s }
      · cases ha
    · cases ha
  · obtain rfl := Option.some.inj ha
    exact Keeps.foldAcc TileAcc.s _ (fetch_keeps _ _ _ _) _ { s := s }
theorem flushTiles_keeps (s : State) (h : Nat) : Keeps s (s.flushTiles h) := by
  refine .foldl _ (fun t n => ?_) _ _
  dsimp only
  split
  · exact .ite .rfl (.foldl _ (fun u x => (puts_keeps _ _ _ _ _ _ { s := u }).same (modQuad_mem _ _ _)) _ _)
  · exact .rfl

end Sys2Proof.Machine

namespace Sys2Proof.Machine

/-! ### The copy engine's work keeps memory canonical (R265, R278, R279, R281) -/

theorem stopAt_keeps (a : Work) (h : Halt) (va : Word) (n : Nat) : Keeps a.s (a.stopAt h va n).s := by
  cases h <;> exact .rfl
theorem meet_keeps (a : Work) (pa n : Nat) : Keeps a.s (a.meet pa n).s := .foldl _ (fun _ _ => engineMeets_keeps _ _ _ _) _ _
theorem source_keeps (s0 : State) (vals : List (Nat × Nat)) (l : Layout) (a b : Work) (n v : Nat) (bad : Bool)
    (h : a.source s0 vals l n = .ok (b, v, bad)) : Keeps a.s b.s := by
  unfold Work.source at h
  split at h
  · cases h
    exact .rfl
  dsimp only at h
  split at h
  · cases h
  next p _ =>
    split at h
    · cases h
      exact .rfl
    · have hm : Keeps a.s (Work.meet { a with s := (a.s.fillWalkFor a.k.vf a.k.g p).cacheRead p.pa ((l.w + 7) / 8) a.k.mods.cache }
          p.pa ((l.w + 7) / 8)).s :=
        ((fillWalkFor_keeps a.s a.k.vf a.k.g p).trans (cacheRead_keeps _ _ _ _)).trans (meet_keeps { a with s := _ } _ _)
      obtain ⟨rfl, -⟩ := Prod.mk.inj (Except.ok.inj h)
      split <;> exact hm
theorem copyOne_keeps (s0 : State) (vals : List (Nat × Nat)) (ls ld : Layout) (a : Work) (n : Nat) :
    Keeps a.s (a.copyOne s0 vals ls ld n).s := by
  unfold Work.copyOne
  split
  · exact .rfl
  split
  · exact .rfl
  split
  · exact stopAt_keeps _ _ _ _
  next b v bad h =>
    have hb := source_keeps s0 vals ls a b n v bad h
    dsimp only
    split
    · exact stopAt_keeps _ _ _ _
    split
    · exact hb
    · exact (hb.trans (fillWalkFor_keeps _ _ _ _)).trans (portWrite_keeps _ _ _ _)
theorem copyEmpty_keeps (a : Work) (ld : Layout) : Keeps a.s (a.copyEmpty ld).s := by
  unfold Work.copyEmpty
  dsimp only
  split
  · exact stopAt_keeps _ _ _ _
  split
  · exact .rfl
  · exact fillWalkFor_keeps _ _ _ _
theorem copy_keeps (a : Work) : Keeps a.s a.copy.s := by
  unfold Work.copy
  split
  · dsimp only
    split
    · exact (Keeps.foldAcc Work.s _ (copyOne_keeps _ _ _ _) _ a).same rfl
    · exact copyEmpty_keeps _ _
  · exact .rfl
theorem gatherLine_keeps (l : Layout) (a : Work) (x : Nat × List (Nat × Nat)) : Keeps a.s (a.gatherLine l x).s := by
  unfold Work.gatherLine
  dsimp only
  split
  · exact .rfl
  split
  · exact stopAt_keeps _ _ _ _
  split
  · exact .rfl
  split
  · exact fillWalkFor_keeps _ _ _ _
  · refine ((fillWalkFor_keeps _ _ _ _).trans (cacheRead_keeps _ _ _ _)).trans
      (Keeps.foldAcc Work.s _ (fun b q => ?_) x.2 { a with s := State.cacheRead _ _ _ _ })
    split <;> exact meet_keeps _ _ _
theorem gather_keeps (l : Layout) (a : Work) : Keeps a.s (a.gather l).s := by
  have h := Keeps.foldAcc Work.s _ (gatherLine_keeps l) (a.k.lines l) a
  unfold Work.gather
  dsimp only
  split
  · exact h
  split
  · exact h
  · exact h
theorem scatterLine_keeps (l : Layout) (a : Work) (x : Nat × List (Nat × Nat)) : Keeps a.s (a.scatterLine l x).s := by
  unfold Work.scatterLine
  extract_lets p0 va add
  split
  · exact .rfl
  split
  · exact stopAt_keeps _ _ _ _
  next p _ =>
    extract_lets +onlyGivenNames w t
    have hw : Keeps a.s w.s := (fillWalkFor_keeps _ _ _ _).trans (drainLine_keeps _ _)
    clear_value w
    split
    · exact hw
    split
    · exact hw
    extract_lets +onlyGivenNames spot badAt sum els cells met moved done
    have hm : Keeps a.s met.s := by
      refine hw.trans ?_
      unfold met
      split
      · exact .foldAcc Work.s _ (fun _ _ => meet_keeps _ _ _) _ _
      · exact .rfl
    have hd : Keeps a.s done.s := hm.trans (performWrite_keeps _ _ _ _)
    split <;> exact hd
theorem scatter_keeps (l : Layout) (a : Work) : Keeps a.s (a.scatter l).s := .foldAcc Work.s _ (scatterLine_keeps l) _ a
theorem fillMeet_keeps (a : Work) (va : Word) : Keeps a.s (a.fillMeet va).s := by
  unfold Work.fillMeet
  split
  · exact meet_keeps _ _ _
  · exact walked_keeps _ _ _ _
theorem fillByte_keeps (s t : State) (k : Cmd) (va : Word) (b : Byte) (h : s.fillByte k va = some (t, b)) : Keeps s t := by
  unfold State.fillByte at h
  split at h
  · split at h
    · cases h
    split at h
    · cases h
    · cases h
      exact (fillWalkFor_keeps _ _ _ _).trans (cacheRead_keeps _ _ _ _)
  · cases h
theorem fillBytes_keeps (key : Nat) (src : Word) (n : Nat) (i : Nat) (a : Work) : Keeps a.s (a.fillBytes key src i n).1.s := by
  induction n generalizing i a with
  | zero => exact .rfl
  | succ n ih =>
    unfold Work.fillBytes
    extract_lets va b
    have hb : Keeps a.s b.s := fillMeet_keeps a va
    clear_value b
    split
    · exact hb
    next t x h =>
      have ht : Keeps a.s t := hb.trans (fillByte_keeps _ _ _ _ _ h)
      refine Keeps.trans ?_ (ih (i + 1) _)
      exact ht.same (modQuad_mem _ _ _)
theorem fillLayer_keeps (a : Work) (e : Nat × Nat) : Keeps a.s (a.fillLayer e).s := by
  unfold Work.fillLayer
  split
  · exact .rfl
  extract_lets w n face phase src fmt
  have h := fillBytes_keeps (faceKey e.2 face phase (bits w 17 0)) src n 0 a
  dsimp only
  split
  · exact h.same (modQuad_mem _ _ _)
  · exact h
theorem fill_keeps (a : Work) : Keeps a.s a.fill.s := by
  unfold Work.fill
  dsimp only
  split
  · unfold Work.fillBook
    extract_lets va got b
    have hb : Keeps a.s b.s := .foldAcc Work.s _ (fun a _ => fillMeet_keeps a _) _ a
    clear_value b
    split
    · exact hb.same (modQuad_mem _ _ _)
    · exact hb
  · exact .foldAcc Work.s _ fillLayer_keeps _ a
theorem work_keeps (s : State) (k : Cmd) : Keeps s (s.work k).s := by
  unfold State.work
  extract_lets a
  split
  · exact fill_keeps a
  · exact copy_keeps a
  · exact copy_keeps a
  split
  · exact .rfl
  split
  · exact gather_keeps _ a
  · exact scatter_keeps _ a
  · exact scatter_keeps _ a
  · exact .rfl
theorem copyReady_keeps (s : State) (q : Nat) : ∀ a ∈ s.copyReady q, Keeps s a.s := by
  intro a ha
  unfold State.copyReady at ha
  split at ha
  next k _ =>
    split at ha
    · dsimp only at ha
      split at ha
      · obtain rfl := Option.some.inj ha
        exact work_keeps _ _
      · cases ha
    · cases ha
  next => cases ha

/-! Its commands start, end and meet faults (R272, R273, R280-R284). -/

theorem startReads_keeps (s : State) (k : Cmd) : Keeps s (s.startReads k) := by
  unfold State.startReads
  split
  iterate 3
    dsimp only
    split
    · exact (descRead_keeps _ _ _).trans (.ite (walked_keeps _ _ _ _) .rfl)
    · exact descRead_keeps _ _ _
  iterate 2
    extract_lets +onlyGivenNames src dst block first
    have h : Keeps s first := descRead_keeps _ _ _
    clear_value src dst block first
    cases src with
    | error _ => exact h
    | ok _ =>
      cases dst with
      | error _ => exact h.trans (descRead_keeps _ _ _)
      | ok _ =>
        have h2 := h.trans (descRead_keeps first k k.sd)
        have h3 := h2.trans (walked_keeps _ k.vf k.g k.sb)
        dsimp only
        split
        · exact .ite (h3.trans (engineMeets_keeps _ _ _ _)) ((h3.trans (engineMeets_keeps _ _ _ _)).trans (walked_keeps _ _ _ _))
        · split
          · exact .ite (h3.trans (engineMeets_keeps _ _ _ _)) h3
          · exact h3
        · exact .ite h2 h3
  · exact .rfl
theorem writeSum_keeps (s : State) (k : Cmd) : Keeps s (s.writeSum k) := by
  unfold State.writeSum
  split
  · exact portWrite_keeps _ _ _ _
  · exact .rfl
theorem errs_s (l : List Nat) (a : Work) : (l.foldl Work.err a).s = a.s := foldl_same Work.s Work.err (fun _ _ => rfl) _ _
theorem finish_keeps (a : Work) : Keeps a.s a.finish := by
  unfold Work.finish
  extract_lets q b csum summed told moved written clean flagged gives
  have h1 : summed.s = a.s := by
    unfold summed
    split <;> rfl
  have h2 : Keeps a.s told.s := .of_eq (congrArg State.mem ((errs_s _ _).trans h1))
  have h2 : Keeps a.s moved := h2.same rfl
  have h3 : Keeps a.s written := h2.trans (.ite (writeSum_keeps _ _) .rfl)
  have h4 : Keeps a.s clean := h3.trans (podRelease_keeps _ _)
  have h5 : Keeps a.s flagged := by
    refine h4.trans ?_
    unfold flagged
    split
    · exact .ite (portIncrement_keeps _ _ _ _ _ _) .rfl
    · exact .rfl
  exact h5.trans (endCmd_keeps _ _ _ _ _)
theorem endHeld_keeps (s : State) (k : Cmd) : Keeps s (s.endHeld k) := by
  unfold State.endHeld
  extract_lets k' t
  have h : Keeps s t := (Keeps.of_eq rfl).trans (podRelease_keeps (s.countMoved (quadOf (slotOf k'.g)) k') _)
  split
  · exact (h.trans (writeSum_keeps _ _)).trans (endCmd_keeps _ _ _ _ _)
  · exact h.trans (endCmd_keeps _ _ _ _ _)
theorem copyFault_keeps (s : State) (q : Nat) : ∀ t ∈ s.copyFault q, Keeps s t := by
  intro t ht
  unfold State.copyFault at ht
  split at ht
  next a ha =>
    split at ht
    next code va point _ =>
      have h := copyReady_keeps s q a ha
      obtain rfl := Option.some.inj ht
      refine Keeps.same ?_ (modDealer_mem _ _)
      have hm : Keeps s (a.s.countMoved q a.k) := h.same rfl
      have hg := ((hm.trans (walked_keeps _ a.k.vf a.k.g va)).trans (podRelease_keeps _ a.k.mods.scope))
      refine Keeps.trans ?_ (.ite .rfl (postTo_keeps _ _ _ _))
      exact (hg.trans (giveTo_keeps _ _ _)).same (modQuad_mem _ _ _)
    next => cases ht
  next => cases ht

end Sys2Proof.Machine

namespace Sys2Proof.Machine

/-! ### The remote engine, the pool and the tokens keep memory canonical (R241-R247, R286-R292) -/

theorem redAccept_keeps (s : State) (k : Cmd) : Keeps s (s.redAccept k) := by
  unfold State.redAccept
  dsimp only
  split
  · split
    · exact (Keeps.foldl _ (fun _ _ => dropReduction_keeps _ _ _ _ _ _) _ _).trans (endCmd_keeps _ _ _ _ _)
    · refine Keeps.trans ?_ (endCmd_keeps _ _ _ _ _)
      exact .of_eq ((passOn_mem _ _).trans (mem_foldl _ (fun _ _ => meldAccept_mem _ _ _ _) _ _))
  · exact endCmd_keeps _ _ _ _ _
theorem doRst_keeps (s : State) (k : Cmd) : Keeps s (s.doRst k).1 := by
  unfold State.doRst
  split
  · exact .rfl
  · extract_lets +onlyGivenNames errs write written released
    have hw : Keeps s written := .foldl _ (fun _ _ => .ite .rfl (portWrite_keeps _ _ _ _)) _ _
    have hr : Keeps s released := hw.trans (podRelease_keeps _ _)
    exact .ite (hr.trans (portIncrement_keeps _ _ _ _ _ _)) hr
theorem doAmo_keeps (s : State) (k : Cmd) (w : Nat) : Keeps s (s.doAmo k w).1 := by
  unfold State.doAmo
  split
  · split
    · exact .rfl
    · dsimp only
      split
      · exact (drainLine_keeps _ _).trans (engineMeets_keeps _ _ _ _)
      · split
        · exact ((((drainLine_keeps _ _).trans (engineMeets_keeps _ _ _ _)).trans (cacheRead_keeps _ _ _ _)).trans
            (performWrite_keeps _ _ _ _)).trans (podRelease_keeps _ _)
        · exact ((drainLine_keeps _ _).trans (engineMeets_keeps _ _ _ _)).trans (cacheRead_keeps _ _ _ _)
  · exact .rfl
theorem giveUpToken_keeps (s : State) (r : Nat) : Keeps s (s.giveUpToken r) :=
  (cleanLines_keeps s (inRegion r)).same rfl
theorem forgetAlloc_keeps (s : State) (e : BitVec 128) : Keeps s (s.forgetAlloc e) := by
  unfold State.forgetAlloc
  extract_lets +onlyGivenNames near dropped
  have h : Keeps s dropped := ((Keeps.of_eq (dropLines_mem s (inAlloc e))).trans (cleanLines_keeps _ near)).same (dropLines_mem _ _)
  exact h.same rfl
theorem poolFree_keeps (s : State) (v n : Nat) : Keeps s (s.poolFree v n) := by
  refine .foldl _ (fun t u => .ite .rfl ?_) _ _
  dsimp only
  exact .ite .rfl ((forgetAlloc_keeps _ _).same rfl)
theorem doPool_keeps (s : State) (k : Cmd) : Keeps s (s.doPool k).1 := by
  unfold State.doPool
  dsimp only
  split
  · exact .rfl
  · exact .rfl
  · exact .rfl
  · split
    · exact poolFree_keeps _ _ _
    · exact .rfl
  · exact .rfl
  · exact .rfl
theorem doToken_keeps (s : State) (k : Cmd) : Keeps s (s.doToken k).1 := by
  unfold State.doToken
  dsimp only
  split
  · exact .rfl
  · exact .of_eq rfl
  · exact .ite (giveUpToken_keeps _ _) .rfl
  · exact .of_eq rfl
theorem finishLoose_keeps (s : State) (k : Cmd) : Keeps s (s.finishLoose k) := by
  unfold State.finishLoose
  split
  · exact (doRst_keeps _ _).trans (endCmd_keeps _ _ _ _ _)
  · split
    extract_lets +onlyGivenNames read fold
    have hr : Keeps s read := by
      refine .foldl _ (fun t p => .ite .rfl ?_) _ _
      exact (engineMeets_keeps _ _ _ _).trans (cacheRead_keeps _ _ _ _)
    clear_value read fold
    split
    exact hr.trans (endCmd_keeps _ _ _ _ _)
  iterate 8 exact (doAmo_keeps _ _ _).trans (endCmd_keeps _ _ _ _ _)
  iterate 4 exact (doPool_keeps _ _).trans (endCmd_keeps _ _ _ _ _)
  iterate 2 exact (doToken_keeps _ _).trans (endCmd_keeps _ _ _ _ _)
  · exact endCmd_keeps _ _ _ _ _
  · exact endCmd_keeps _ _ _ _ _

/-! Losses (R245, R247, R319). -/

theorem setSlots_keeps (f : State → Stream → Stream) (l : List (Nat × Nat × Stream)) (s : State) :
    Keeps s (l.foldl (fun s x => s.setSlotStream x.1 x.2.1 (f s x.2.2)) s) := by
  refine .foldl _ (fun t x => ?_) l s
  exact setSlotStream_keeps t x.1 x.2.1 _
theorem askAgain_keeps (s : State) (ns : List Nat) : Keeps s (s.askAgain ns) :=
  (Keeps.of_eq (mapCmds_mem s _)).trans (setSlots_keeps (fun s t => { t with asked := s.tick }) _ _)
theorem giveUp_keeps (s : State) : Keeps s s.giveUp := by
  unfold State.giveUp
  extract_lets +onlyGivenNames ns run quads
  have hq : Keeps s { s with quads := quads } := .of_eq rfl
  exact hq.trans (setSlots_keeps (fun s t => { t with due := min t.due s.tick }) _ _)
/-- The bytes of an allocation that moves to another switch are written at rising or falling places; memory stays canonical. -/
theorem memWf_setBytes (f : Nat → Nat) (l : List Host.Cell) (m : List Host.Cell) (h : memWf m = true) :
    memWf (l.foldl (fun m c => setByte m (f c.1) c.2) m) = true := foldl_keeps (fun m => memWf m = true) _ (fun m _ => memWf_setByte m _ _) l m h
theorem moveCopy_keeps (s : State) (e d : BitVec 128) : Keeps s (s.moveCopy e d) := by
  unfold State.moveCopy
  split
  · exact .rfl
  extract_lets +onlyGivenNames asked clean cells shift moved
  have hc : Keeps s clean := (askAgain_keeps _ _).trans (cleanLines_keeps _ _)
  exact fun hs => memWf_setBytes shift cells _ (memWf_filter _ _ (hc hs))
theorem applyLoss_keeps (s : State) (v n : Nat) (d : BitVec 128) : Keeps s (s.applyLoss v n d) := by
  unfold State.applyLoss
  extract_lets +onlyGivenNames e mine moved forgot
  have hm : Keeps s moved := moveCopy_keeps _ _ _
  have hf : Keeps s forgot := .ite (hm.trans (forgetAlloc_keeps _ _)) hm
  exact (hf.same (modVf_mem _ _ _)).trans (postAll_keeps _ _ _)
theorem tokensOver_keeps (s : State) : Keeps s s.tokensOver := .foldl _ (fun _ _ => (giveUpToken_keeps _ _).trans (postAll_keeps _ _ _)) _ _

/-! Arrivals (R345, R354). -/

theorem inboundNote_keeps (s : State) (v : Nat) (va : Word) : Keeps s (s.inboundNote v va) := walked_keeps _ _ _ _
theorem inboundNotes_keeps (v : Nat) (l : List Word) (s : State) : Keeps s (l.foldl (fun s a => s.inboundNote v a) s) :=
  .foldl _ (fun _ _ => inboundNote_keeps _ _ _) _ _
theorem writeNotes_keeps (s : State) (v : Nat) (va : Word) (l : List Sys2Proof.Cell) : Keeps s (s.writeNotes v va l) := inboundNotes_keeps _ _ _
theorem inboundWrite_keeps (s : State) (v : Nat) (va : Word) (l : List Sys2Proof.Cell) : ∀ t ∈ s.inboundWrite v va l, Keeps s t := by
  intro t ht
  obtain ⟨got, -, h⟩ := Option.bind_eq_some_iff.1 ht
  obtain rfl := Option.some.inj h
  exact .foldl _ (fun _ _ => portWrite_keeps _ _ _ _) _ _
theorem arriveFlag_keeps (s : State) (d : Dest) (n : Nat) : ∀ t ∈ s.arriveFlag d n, Keeps s t := by
  intro t ht
  unfold State.arriveFlag at ht
  cases d with
  | here v va =>
    dsimp only at ht
    split at ht
    · cases ht
    · obtain ⟨pa, -, rfl⟩ := Option.map_eq_some_iff.1 ht
      exact portIncrement_keeps _ _ _ _ _ _
  | away pa =>
    dsimp only at ht
    split at ht
    · obtain rfl := Option.some.inj ht
      exact fun hs => memWf_leWrite _ _ _ _ hs
    · cases ht

/-! Triggers (R390, R391). -/

theorem armTrigger_keeps (s : State) (t : Nat) (k : Cmd) : Keeps s (s.armTrigger t k) := by
  unfold State.armTrigger
  split
  · dsimp only
    split
    · exact (((engineMeets_keeps _ _ _ _).same (modTower_mem _ _ _)).trans (testTrigger_keeps _ _)).trans (endCmd_keeps _ _ _ _ _)
    · exact (engineMeets_keeps _ _ _ _).trans (endCmd_keeps _ _ _ _ _)
  · exact .rfl
theorem cancelTrigger_keeps (s : State) (t : Nat) (k : Cmd) : Keeps s (s.cancelTrigger t k) := by
  unfold State.cancelTrigger
  split
  · dsimp only
    split
    · exact (Keeps.of_eq (modTower_mem _ _ _)).trans (endCmd_keeps _ _ _ _ _)
    · exact endCmd_keeps _ _ _ _ _
  · exact .rfl
theorem trigStep_keeps (s : State) (t : Nat) (k : Cmd) : Keeps s (s.trigStep t k) := by
  unfold State.trigStep
  split
  · exact .rfl
  extract_lets +onlyGivenNames begun
  have hb : Keeps s begun := .of_eq (modTower_mem _ _ _)
  split
  · exact hb.trans (armTrigger_keeps _ _ _)
  · exact hb.trans (cancelTrigger_keeps _ _ _)
  · exact hb.trans (endCmd_keeps _ _ _ _ _)
theorem triggersOver_keeps (s : State) : Keeps s s.triggersOver := by
  unfold State.triggersOver
  extract_lets +onlyGivenNames stepped
  have h : Keeps s stepped := .foldl _ (fun _ e => .foldl _ (fun _ _ => trigStep_keeps _ _ _) _ _) _ _
  exact h.trans (.foldl _ (fun _ _ => .of_eq (modTower_mem _ _ _)) _ _)

end Sys2Proof.Machine

namespace Sys2Proof.Machine

/-! ### The cubes keep memory canonical (R205-R230) -/

theorem endPiece_keeps (s : State) (q n l : Nat) (e : List Nat) : Keeps s (s.endPiece q n l e) := by
  unfold State.endPiece
  extract_lets +onlyGivenNames x y
  clear_value y
  split
  · exact .of_eq (setQuad_mem _ _ _)
  · dsimp only
    exact .ite ((Keeps.of_eq (setQuad_mem _ _ _)).trans (endCmd_keeps _ _ _ _ _)) (.of_eq (setQuad_mem _ _ _))
theorem seqHalt_keeps (s : State) (q l : Nat) (e : List Nat) : Keeps s (s.seqHalt q l e) :=
  (Keeps.of_eq (setQuad_mem _ _ _)).trans (endPiece_keeps _ _ _ _ _)
theorem seqEnter_keeps (s : State) (q l : Nat) : Keeps s (s.seqEnter q l) := by
  unfold State.seqEnter
  dsimp only
  split
  · refine .ite (seqHalt_keeps _ _ _ _) ?_
    split
    · exact .of_eq (setQuad_mem _ _ _)
    · exact seqHalt_keeps _ _ _ _
  · exact .of_eq (setQuad_mem _ _ _)
  · exact .of_eq (setQuad_mem _ _ _)
  · exact seqHalt_keeps _ _ _ _
theorem planeStart_keeps (s : State) (q l : Nat) (k : Cmd) : Keeps s (s.planeStart q l k) := by
  unfold State.planeStart
  extract_lets +onlyGivenNames x y t
  have ht : Keeps s t := .of_eq (setQuad_mem _ _ _)
  clear_value y t
  split
  · refine .ite (ht.trans (endPiece_keeps _ _ _ _ _)) ?_
    dsimp only
    split
    · exact ht.same (setQuad_mem _ _ _)
    · exact (ht.same (setQuad_mem _ _ _)).trans (seqEnter_keeps _ _ _)
  · split
    · exact ht.same (setQuad_mem _ _ _)
    · exact ht.trans (endPiece_keeps _ _ _ _ _)
theorem cubeStart_keeps (s : State) (q : Nat) (x : Quad) (k : Cmd) : Keeps s (s.cubeStart q x k) := by
  unfold State.cubeStart
  extract_lets +onlyGivenNames y plain
  clear_value y
  split
  iterate 7 exact .of_eq (setQuad_mem _ _ _)
  refine .ite ?_ ?_
  · dsimp only
    exact .ite ((Keeps.of_eq (setQuad_mem _ _ _)).trans (endCmd_keeps _ _ _ _ _)) (.of_eq (setQuad_mem _ _ _))
  · split
    · exact .of_eq (setQuad_mem _ _ _)
    · exact (Keeps.of_eq (setQuad_mem _ _ _)).trans (endCmd_keeps _ _ _ _ _)
theorem cubeDispatch_keeps (s : State) (q : Nat) : ∀ t ∈ s.cubeDispatch q, Keeps s t := by
  have started : ∀ {p : Prop} [Decidable p] {x k t}, t ∈ (if p then some (s.cubeStart q x k) else none) → Keeps s t := by
    intro p _ x k t ht
    split at ht
    · obtain rfl := Option.some.inj ht
      exact cubeStart_keeps _ _ _ _
    · cases ht
  intro t ht
  unfold State.cubeDispatch at ht
  dsimp only at ht
  split at ht
  · exact started ht
  split at ht
  · split at ht
    · obtain rfl := Option.some.inj ht
      exact .of_eq (setQuad_mem _ _ _)
    · cases ht
  split at ht
  · exact started ht
  split at ht
  · exact started ht
  · cases ht
theorem faceSoft_keeps (s : State) (x : Quad) (r : CubeRun) : Keeps s (s.faceSoft x r) := by
  refine .foldl _ (fun t u => ?_) _ _
  extract_lets +onlyGivenNames counted
  have hc : Keeps t counted := .of_eq (vfSat_mem _ _ _ _ _)
  exact .ite (hc.trans (postTo_keeps _ _ _ _)) hc
theorem workRead_keeps (va : Word) (n : Nat) (a : Work) : Keeps a.s (a.cubeRead va n).1.s := by
  induction n generalizing va a with
  | zero => exact .rfl
  | succ n ih =>
    unfold Work.cubeRead
    extract_lets +onlyGivenNames b
    have hb : Keeps a.s b.s := fillMeet_keeps a va
    clear_value b
    split
    · exact hb
    next t x h => exact (hb.trans (fillByte_keeps _ _ _ _ _ h)).trans (ih (va + 1) { b with s := t })
theorem cubeRead_keeps (k : Cmd) (va : Word) (n : Nat) (s : State) : Keeps s (cubeRead k va n s).1 := workRead_keeps va n { s := s, k := k }
theorem endMeta_keeps (s : State) (q : Nat) (k : Cmd) : Keeps s (s.endMeta q k) := by
  unfold State.endMeta
  extract_lets +onlyGivenNames ls
  have h := cubeRead_keeps k k.sb (32 * ls.length) s
  split
  next t ht =>
    rw [ht] at h
    exact h.trans (endCmd_keeps _ _ _ _ _)
  next t v ht =>
    rw [ht] at h
    exact (h.same (modQuad_mem _ _ _)).trans (endCmd_keeps _ _ _ _ _)
theorem endSeq_keeps (s : State) (q : Nat) (k : Cmd) : Keeps s (s.endSeq q k) := by
  unfold State.endSeq
  extract_lets +onlyGivenNames ls n load
  have h := cubeRead_keeps k k.sb (16 * n) s
  split
  next t ht =>
    rw [ht] at h
    exact (h.same (modQuad_mem _ _ _)).trans (endCmd_keeps _ _ _ _ _)
  next t v ht =>
    rw [ht] at h
    exact .ite ((h.same (modQuad_mem _ _ _)).trans (endCmd_keeps _ _ _ _ _)) ((h.same (modQuad_mem _ _ _)).trans (endCmd_keeps _ _ _ _ _))
theorem endDrain_keeps (s : State) (q : Nat) (k : Cmd) : Keeps s (s.endDrain q k) :=
  (Keeps.ite (.of_eq (setQuad_mem _ _ _)) .rfl).trans (endCmd_keeps _ _ _ _ _)
theorem endKat_keeps (s : State) (q : Nat) (k : Cmd) : Keeps s (s.endKat q k) := by
  unfold State.endKat
  extract_lets +onlyGivenNames l sig
  refine .ite (endCmd_keeps _ _ _ _ _) ?_
  extract_lets +onlyGivenNames x first counted r frames gs told noticed
  have hc : Keeps s counted := .of_eq (setQuad_mem _ _ _)
  have ht : Keeps s told := hc.trans (.foldl _ (fun _ _ => .ite (postTo_keeps _ _ _ _) .rfl) _ _)
  have hn : Keeps s noticed := .ite (ht.same rfl) ht
  exact hn.trans (endCmd_keeps _ _ _ _ _)
theorem endBist_keeps (s : State) (q : Nat) (k : Cmd) : Keeps s (s.endBist q k) :=
  (Keeps.of_eq (modQuad_mem _ _ _)).trans (endCmd_keeps _ _ _ _ _)
theorem endWracc_keeps (s : State) (q : Nat) (k : Cmd) : Keeps s (s.endWracc q k) :=
  (Keeps.of_eq (modQuad_mem _ _ _)).trans (endCmd_keeps _ _ _ _ _)
theorem landProduct_keeps (s : State) (q : Nat) (r : CubeRun) : Keeps s (s.landProduct q r) :=
  (Keeps.of_eq (setQuad_mem _ _ _)).trans (faceSoft_keeps _ _ _)
theorem cubeEnd_keeps (s : State) (q : Nat) (r : CubeRun) : Keeps s (s.cubeEnd q r) := by
  unfold State.cubeEnd
  extract_lets +onlyGivenNames k mark marked
  have hm : Keeps s marked := .of_eq (modQuad_mem _ _ _)
  clear_value marked
  split
  · exact (hm.same (modQuad_mem _ _ _)).trans (endCmd_keeps _ _ _ _ _)
  · exact hm.trans (endWracc_keeps _ _ _)
  · exact hm.trans (endMeta_keeps _ _ _)
  · exact hm.trans (endSeq_keeps _ _ _)
  · exact hm.trans (endDrain_keeps _ _ _)
  · exact hm.trans (endKat_keeps _ _ _)
  · exact hm.trans (endBist_keeps _ _ _)
  · exact ((hm.trans (landProduct_keeps _ _ _)).same (wakeReads_mem _ _ _)).trans (endCmd_keeps _ _ _ _ _)
theorem planeEnd_keeps (s : State) (q l : Nat) (r : CubeRun) : Keeps s (s.planeEnd q l r) := by
  unfold State.planeEnd
  extract_lets +onlyGivenNames marked landed
  have hm : Keeps s marked := .of_eq (modQuad_mem _ _ _)
  have hl : Keeps s landed := .ite ((hm.trans (landProduct_keeps _ _ _)).same (wakeReads_mem _ _ _)) (hm.same (modQuad_mem _ _ _))
  clear_value landed
  exact .ite (hl.same (modQuad_mem _ _ _)) (hl.trans (endPiece_keeps _ _ _ _ _))
theorem readEnd_keeps (s : State) (q : Nat) (k : Cmd) : Keeps s (s.readEnd q k) := by
  unfold State.readEnd
  extract_lets +onlyGivenNames x t
  have ht : Keeps s t := .of_eq (setQuad_mem _ _ _)
  clear_value t
  split
  · exact ht.trans (endCmd_keeps _ _ _ _ _)
  · exact ht.trans (endCmd_keeps _ _ _ _ _)
  · exact ht.trans (endCmd_keeps _ _ _ _ _)
theorem refetch_keeps (s : State) (k : Cmd) (key h : Nat) : Keeps s (s.refetch k key h).1 := by
  refine Keeps.foldAcc (·.1) _ (fun a e => ?_) _ (s, true)
  dsimp only
  split
  · exact fillBytes_keeps (key + e.2.1) e.1 e.2.2.1 0 { s := a.1, k := { k with vf := e.2.2.2 } }
  · exact .rfl
theorem recover_keeps (s : State) (q l face : Nat) : Keeps s (s.recover q l face) := by
  unfold State.recover
  extract_lets +onlyGivenNames x phase h key readers logged gone ns stopped again lost targets vf hdr hopeless read y y' marked
  have hm : Keeps s marked := .of_eq ((vfSat_mem _ _ _ _ _).trans (setQuad_mem _ _ _))
  have hr := fun k : Cmd => hm.trans (refetch_keeps marked { k with g := 16 * q } key h)
  clear_value marked again
  split
  next t ok he =>
  have ht : Keeps s t := by
    split at he
    next k _ =>
      split at he
      · cases he
        exact hm
      · have h := hr k
        rw [he] at h
        exact h
    · cases he
      exact hm
  refine .ite ?_ ?_
  · extract_lets +onlyGivenNames u
    have hu : Keeps s u := ht.same (modQuad_mem _ _ _)
    clear_value u
    split
    · exact .ite (hu.same ((slip_mem _ _).trans (setArm_mem _ _ _))) hu
    · exact hu
  · extract_lets +onlyGivenNames dead u v
    have hu : Keeps s u := ht.same (modQuad_mem _ _ _)
    have hv : Keeps s v := hu.trans (.foldl _ (fun _ _ => endCmd_keeps _ _ _ _ _) _ _)
    exact hv.trans (.foldl _ (fun _ _ => .of_eq (wakeReads_mem _ _ _)) _ _)

end Sys2Proof.Machine

namespace Sys2Proof.Machine

/-! ### What keeps memory canonical: the governor, queues and launches (R199-R216, R345-R349) -/

theorem announce_keeps (s : State) (b : Nat) (ok : Nat → Bool) (r : EvRec) : Keeps s (s.announce b ok r) :=
  .foldl _ (fun _ _ => .ite (postTo_keeps _ _ _ _) .rfl) _ _
theorem govChange_keeps (s : State) (q : Nat) (l : List (Nat × Nat)) : Keeps s (s.govChange q l) :=
  (Keeps.of_eq (modQuad_mem _ _ _)).trans (announce_keeps _ _ _ _)
@[simp] theorem raise_mem (s : State) (n : Nat) : (s.raise n).mem = s.mem := rfl
@[simp] theorem logRecord_mem (s : State) (v : Nat) (w : BitVec 256) : (s.logRecord v w).mem = s.mem := rfl
theorem retire_keeps (s : State) (n status : Nat) : Keeps s (s.retire n status) := by
  unfold State.retire
  split
  · exact .rfl
  next ix e _ =>
    extract_lets +onlyGivenNames t q done q' u v
    have ht : Keeps s t := dealerWrite_keeps _ _ _ _
    have hu : Keeps s u := ht.same (setQueue_mem _ _ _)
    have hv : Keeps s v := .ite hu (hu.trans (dealerWrite_keeps _ _ _ _))
    exact .ite (hv.same (raise_mem _ _)) hv
theorem pollQueue_keeps (s : State) (n : Nat) : Keeps s (s.pollQueue n) := by
  unfold State.pollQueue
  dsimp only
  refine .ite .rfl (.ite (.of_eq (setQueue_mem _ _ _)) (.ite (.of_eq (setQueue_mem _ _ _)) (.ite .rfl ?_)))
  have h := fun q v l => (Keeps.of_eq (setQueue_mem s n q)).trans (dealerMet_keeps _ v l)
  exact .ite (h _ _ _) ((h _ _ _).trans (retire_keeps _ _ _))
theorem acceptLaunch_keeps (s : State) (c : QueueCmd) : Keeps s (s.acceptLaunch c) := by
  unfold State.acceptLaunch
  extract_lets +onlyGivenNames v t
  have ht : Keeps s t := .of_eq (modDealer_mem _ _)
  refine .ite (ht.trans (retire_keeps _ _ _)) ?_
  extract_lets +onlyGivenNames u
  have hu : Keeps s u := ht.trans (dealerMet_keeps _ _ _)
  clear_value u
  have hr : ∀ n, Keeps s (u.retire c.q n) := fun n => hu.trans (retire_keeps _ _ _)
  split
  · exact hr 2
  refine .ite (hr 2) ?_
  split
  · exact (hu.same (modDealer_mem _ _)).trans (retire_keeps _ _ _)
  · exact .ite (hr 2) (hu.same ((modDealer_mem _ _).trans (setQueue_mem _ _ _)))

/-! Snapshots (R214). -/

theorem snapMove_keeps (s : State) (v : Nat) (e : Word × Nat × Nat) (back : Bool) : Keeps s (s.snapMove v e back) := by
  refine .ite .rfl (.foldl _ (fun t i => ?_) _ _)
  extract_lets +onlyGivenNames lo hi va told
  have h : Keeps t told := walked_keeps _ _ _ _
  split
  · exact (h.trans (dealerMet_keeps _ _ _)).trans (rawCopy_keeps _ _ _ _)
  · exact h
theorem snapBack_keeps (s : State) (l : Launch) (n a : Nat) : Keeps s (s.snapBack l n a) :=
  .foldl _ (fun _ _ => .foldl _ (fun _ _ => snapMove_keeps _ _ _ _) _ _) _ _
theorem snap_keeps (s : State) (l : Launch) (n : Nat) (p : Phase) (a : Nat) : Keeps s (s.snap l n p a) :=
  .ite .rfl (.ite .rfl ((Keeps.foldl _ (fun _ _ => snapMove_keeps _ _ _ _) _ _).same (modLaunch_mem _ _ _)))
theorem snapOnce_keeps (s : State) (l : Launch) (n : Nat) (p : Phase) (a : Nat) : Keeps s (s.snapOnce l n p a) := .ite (snap_keeps _ _ _ _ _) .rfl
theorem snapRigid_keeps (s : State) (l : Launch) : Keeps s (s.snapRigid l) :=
  .foldl _ (fun _ _ => .ite .rfl (.foldl _ (fun _ _ => snap_keeps _ _ _ _ _) _ _)) _ _
theorem armEngine_keeps (s : State) (l : Launch) (n : Nat) (p : Phase) (e : EngEntry) (t : Nat) : Keeps s (s.armEngine l n p e t) := by
  unfold State.armEngine
  extract_lets +onlyGivenNames shot armed work
  have h1 : Keeps s shot := .ite (snapOnce_keeps _ _ _ _ _) .rfl
  have h2 : Keeps s armed := h1.same (setArm_mem _ _ _)
  have h3 : Keeps s work := h2.same (modLaunch_mem _ _ _)
  exact .ite (h3.same (slipUnit_mem _ _ _)) h3
theorem snapLate_keeps (s : State) (l : Launch) : ∀ t ∈ s.snapLate l, Keeps s t := by
  intro t ht
  obtain ⟨w, -, hw⟩ := List.exists_of_findSome?_eq_some ht
  dsimp only at hw
  split at hw
  · obtain rfl := Option.some.inj hw
    exact snapOnce_keeps _ _ _ _ _
  · cases hw
/-- Arming a phase: the first one at its base tick, a later one behind the one before it. -/
theorem phaseArm_keeps (s : State) (l : Launch) : ∀ t ∈ s.phaseArm l, Keeps s t := by
  intro t ht
  unfold State.phaseArm at ht
  dsimp only at ht
  split at ht
  · split at ht
    · cases ht
    · exact Option.some.inj ht ▸ .of_eq (rearm_mem _ _)
  split at ht
  · cases ht
  split at ht
  · split at ht
    · cases ht
    · exact Option.some.inj ht ▸ .of_eq (prepare_mem _ _ _)
  split at ht
  · split at ht
    · cases ht
    · split at ht
      · obtain rfl := Option.some.inj ht
        exact ((snapRigid_keeps _ _).same (modLaunch_mem _ _ _)).trans (.foldl _ (fun _ _ => armEngine_keeps _ _ _ _ _ _) _ _)
      · cases ht
  split at ht
  · exact Option.some.inj ht ▸ .of_eq ((modLaunch_mem _ _ _).trans (loadSets_mem _ _ _))
  · split at ht
    · exact Option.some.inj ht ▸ armEngine_keeps _ _ _ _ _ _
    · split at ht
      · exact Option.some.inj ht ▸ .of_eq (prepare_mem _ _ _)
      · exact snapLate_keeps _ _ _ ht
theorem endLaunch_keeps (s : State) (id status : Nat) : Keeps s (s.endLaunch id status) := by
  unfold State.endLaunch
  split
  · exact .rfl
  extract_lets +onlyGivenNames gone kept flushed disowned dropped freed cleared
  have h1 : Keeps s flushed := .foldl _ flushTiles_keeps _ _
  have h2 : Keeps s disowned := h1.trans (.foldl _ (fun _ _ => .of_eq (disown_mem _ _)) _ _)
  have h3 : Keeps s dropped := h2.same (discard_mem _ _)
  have h4 : Keeps s freed := h3.trans (.foldl _ (fun _ _ => .of_eq ((dropLease_mem _ _).trans (freeSlot_mem _ _))) _ _)
  have h5 : Keeps s cleared := h4.trans (.foldl _ (fun _ _ => .of_eq ((releaseDeck_mem _ _).trans (modVf_mem _ _ _))) _ _)
  exact h5.same (modLaunch_mem _ _ _)
theorem killLaunch_keeps (s : State) (id status : Nat) : Keeps s (s.killLaunch id status) := by
  refine Keeps.trans ?_ (endLaunch_keeps _ _ _)
  split
  · exact .of_eq (freeTags_mem _ _)
  · exact .rfl
@[simp] theorem placeImage_mem (s : State) (c : Nat) (i : Image) : (s.placeImage c i).mem = s.mem := rfl
theorem loadImage_keeps (s : State) (c : Nat) (l : Launch) (a : Nat) : Keeps s (s.loadImage c l a) := by
  unfold State.loadImage
  split
  · extract_lets +onlyGivenNames t
    have ht : Keeps s t := (dealerMet_keeps _ _ _).same ((modLaunch_mem _ _ _).trans (placeImage_mem _ _ _))
    exact ht.trans (.foldl _ (fun _ _ => snapOnce_keeps _ _ _ _ _) _ _)
  · exact (Keeps.of_eq (modDealer_mem _ _)).trans (killLaunch_keeps _ _ _)
theorem armTick_keeps (s : State) (u : Nat) : ∀ t ∈ s.armTick u, Keeps s t := by
  intro t ht
  unfold State.armTick at ht
  split at ht
  · exact Option.some.inj ht ▸ (snapBack_keeps _ _ _ _).same ((modLaunch_mem _ _ _).trans (enterKernel_mem _ _ _ _ _ _ _ _))
  · split at ht
    · cases ht
    split at ht
    · exact Option.some.inj ht ▸ .of_eq (startUnit_mem _ _ _ _)
    split at ht
    · exact Option.some.inj ht ▸ .of_eq (slipUnit_mem _ _ _)
    · cases ht
theorem retireLaunch_keeps (s : State) (l : Launch) (status : Nat) : Keeps s (s.retireLaunch l status) := by
  unfold State.retireLaunch
  extract_lets +onlyGivenNames resetting freed banked gone
  have h1 : Keeps s freed := .ite .rfl (.foldl _ (fun _ _ => .ite (.of_eq (setBar_mem _ _ _)) .rfl) _ _)
  have h2 : Keeps s banked := (h1.same (setBank_mem _ _ _)).trans (podRelease_keeps _ _)
  have h3 : Keeps s gone := h2.same (modDealer_mem _ _)
  exact .ite (h3.trans (retire_keeps _ _ _)) h3

/-! ### What keeps memory canonical: frames and faults (R407-R413) -/

theorem memWf_leWrites {α : Type} (f g h : α → Nat) (l : List α) (m : List Host.Cell) (hm : memWf m = true) :
    memWf (l.foldl (fun m w => leWrite m (f w) (g w) (h w)) m) = true :=
  foldl_keeps (fun m => memWf m = true) _ (fun m w hm => memWf_leWrite m (f w) (g w) (h w) hm) _ _ hm
theorem writeFrame_keeps (s : State) (v g : Nat) (c : Ctx) : Keeps s (s.writeFrame v g c) := by
  intro hs
  exact testRange_keeps _ _ _ (memWf_leWrites _ _ _ _ _ (zero_keeps _ _ _ hs))
theorem save_keeps (s : State) (g : Nat) : Keeps s (s.save g) := by
  unfold State.save
  extract_lets +onlyGivenNames c x bound d t u
  have ht : Keeps s t := writeFrame_keeps _ _ _ _
  have hu : Keeps s u := ht.same (modVf_mem _ _ _)
  exact hu.same ((modCtx_mem _ _ _).trans ((passDeck_mem _ _ _).trans (reown_mem _ _ _)))
theorem restore_keeps (s : State) (v g h : Nat) (d : Saved) : Keeps s (s.restore v g h d) := by
  unfold State.restore
  extract_lets +onlyGivenNames c read owned decks leased
  have h1 : Keeps s read := (dealerMet_keeps _ _ _).same (modVf_mem _ _ _)
  have h2 : Keeps s owned := h1.same ((reown_mem _ _ _).trans (setCtx_mem _ _ _))
  have h3 : Keeps s decks := h2.same (passDeck_mem _ _ _)
  have h4 : Keeps s leased := .ite (h3.same (modQuad_mem _ _ _)) h3
  exact h4.trans (.foldl _ (fun _ _ => rebind_keeps _ _ _) _ _)
theorem bringBack_keeps (s : State) (v g h : Nat) (d : Saved) : Keeps s (s.bringBack v g h d) := by
  unfold State.bringBack
  refine .ite (restore_keeps _ _ _ _ _) ?_
  split
  · exact ((dealerMet_keeps _ _ _).same (placeImage_mem _ _ _)).trans (restore_keeps _ _ _ _ _)
  · extract_lets +onlyGivenNames t
    have ht : Keeps s t := .of_eq (modDealer_mem _ _)
    clear_value t
    split
    · exact ht.trans (killLaunch_keeps _ _ _)
    · exact ht
theorem endFaulted_keeps (s : State) (n : FaultNote) : Keeps s (s.endFaulted n) := by
  unfold State.endFaulted
  split
  · split
    · exact endStream_keeps _ _ _ _
    · exact .rfl
  · exact .rfl
  · split
    · exact (Keeps.of_eq (modQuad_mem _ _ _)).trans (endHeld_keeps _ _)
    · exact .rfl
  · exact .rfl
theorem act_keeps (s : State) (n : FaultNote) (a : Action) (l : Launch) : Keeps s (s.act n a l) := by
  cases a with
  | kill => exact killLaunch_keeps _ _ _
  | hold => exact .ite .rfl (.of_eq (holdFor_mem _ _ _))
  | rearm => exact .ite .rfl (.of_eq ((modLaunch_mem _ _ _).trans ((stopLaunch_mem _ _ _).trans (freeHeld_mem _ _ _))))
  | reexec =>
    dsimp only [State.act]
    split
    · exact .of_eq (reexecute_mem _ _ _)
    · exact .rfl
  | count | endErr => exact .rfl
theorem settle_keeps (s : State) (n : FaultNote) : Keeps s (s.settle n) := by
  unfold State.settle
  extract_lets +onlyGivenNames a l q logged told raised ended
  have h1 : Keeps s logged := .of_eq (logRecord_mem _ _ _)
  have h2 : Keeps s raised := .ite (h1.same (raise_mem _ _)) h1
  have h3 : Keeps s ended := .ite (h2.trans (endFaulted_keeps _ _)) h2
  clear_value ended l
  split
  · exact .ite h3 (h3.trans (act_keeps _ _ _ _))
  · exact h3

end Sys2Proof.Machine

namespace Sys2Proof.Machine

/-! ### What keeps memory canonical: the host's commands (R345-R349, R424-R427) -/

theorem modSysc_keeps (s : State) (v h seq : Nat) (f : SyscReq → SyscReq) : Keeps s (s.modSysc v h seq f) := by
  unfold State.modSysc
  split
  next l es _ =>
  extract_lets +onlyGivenNames g w t
  have ht : Keeps s t := .ite (modCtx_keeps _ _ _) ((modSaved_keeps _ _ _ _).trans (framePut_keeps _ _ _ _ _ _))
  exact ht.trans (.foldl _ (fun _ _ => postTo_keeps _ _ _ _) _ _)
theorem takeSysc_keeps (s : State) (v h : Nat) (r : SyscReq) : Keeps s (s.takeSysc v h r) := by
  refine .ite (modSysc_keeps _ _ _ _ _) ?_
  split
  · exact modSysc_keeps _ _ _ _ _
  · refine .ite (modSysc_keeps _ _ _ _ _) ?_
    exact (((modSysc_keeps _ _ _ _ _).trans (dealerWrite_keeps _ _ _ _)).trans (dealerWrite_keeps _ _ _ _)).same (raise_mem _ _)
theorem mapQueue_keeps (s : State) (n a : Nat) (priv : Bool) : Keeps s (s.mapQueue n a priv) := by
  unfold State.mapQueue
  extract_lets +onlyGivenNames d t
  have ht : Keeps s t := .ite (dealerWrite_keeps _ _ _ _) .rfl
  exact ht.same ((modDealer_mem _ _).trans (setQueue_mem _ _ _))
theorem unmapQueue_keeps (s : State) (n : Nat) : Keeps s (s.unmapQueue n) :=
  (Keeps.of_eq ((modDealer_mem _ _).trans (setQueue_mem _ _ _))).trans (dealerWrite_keeps _ _ _ _)
theorem loadTables_keeps (s : State) (v : Nat) : Keeps s (s.loadTables v) := (dealerMet_keeps _ _ _).same (modVf_mem _ _ _)
/-- Taking bytes away leaves memory canonical. -/
theorem keeps_filter {s t : State} (p : Host.Cell → Bool) (h : t.mem = s.mem.filter p) : Keeps s t := fun hs => h ▸ memWf_filter _ _ hs
theorem bistCut_keeps (s : State) (m set : Nat) : Keeps s (s.bistCut m set) := by
  unfold State.bistCut
  extract_lets +onlyGivenNames keep t
  have ht : Keeps s t := .ite (keeps_filter _ rfl) .rfl
  exact ht.trans (.foldl _ (fun _ _ => .of_eq (modQuad_mem _ _ _)) _ _)
theorem bist_keeps (s : State) (m set out : Nat) : Keeps s (s.bist m set out) := by
  unfold State.bist
  extract_lets +onlyGivenNames quads res keep t u words
  have ht : Keeps s t := .ite (keeps_filter _ rfl) .rfl
  have hu : Keeps s u := ht.trans (.foldl _ (fun _ _ => .of_eq (modQuad_mem _ _ _)) _ _)
  exact hu.trans (dealerWrites_keeps _ _ _ _ _)
theorem scopeMet_keeps (s : State) (w : Nat) (l : List (Nat × Nat)) : Keeps s (s.scopeMet w l) := .foldl _ (fun _ _ => dealerMet_keeps _ _ _) _ _
theorem transfer_keeps (s : State) (w a n : Nat) (back : Bool) : Keeps s (s.transfer w a n back) := by
  unfold State.transfer
  extract_lets +onlyGivenNames taken t
  have ht : Keeps s t := .ite (dealerMet_keeps _ _ _) (scopeMet_keeps _ _ _)
  exact ht.trans (Keeps.foldAcc (fun x : State × Nat => x.1) _ (fun _ _ => .ite (rawCopy_keeps _ _ _ _) (rawCopy_keeps _ _ _ _)) _ (t, 0))
theorem endTransfer_keeps (s : State) (c : QueueCmd) (back : Bool) (fin : State → Nat → State) (hf : ∀ t a, Keeps t (fin t a)) :
    ∀ r ∈ s.endTransfer c back fin, Keeps s r.1 := by
  intro r hr
  unfold State.endTransfer at hr
  dsimp only at hr
  split at hr
  · exact Option.some.inj hr ▸ transfer_keeps _ _ _ _ _
  · exact Option.some.inj hr ▸ .rfl
  · split at hr
    · exact Option.some.inj hr ▸ (transfer_keeps _ _ _ _ _).trans (hf _ _)
    · cases hr
theorem header_keeps (s : State) (a v : Nat) : Keeps s (s.header a v) := (dealerWrite_keeps _ _ _ _).trans (cleanLines_keeps _ _)
theorem putHeader_keeps (s : State) (a n w t : Nat) : Keeps s (s.putHeader a n w t) := header_keeps _ _ _
theorem disable_keeps (s : State) (v : Nat) : Keeps s (s.disable v) := by
  unfold State.disable
  extract_lets +onlyGivenNames off t
  have ht : Keeps s t := .of_eq (modDealer_mem _ _)
  exact ht.trans (.foldl _ (fun _ _ => .ite (dealerWrite_keeps _ _ _ _) .rfl) _ _)
theorem beginReset_keeps (s : State) (v q : Nat) : Keeps s (s.beginReset v q) := by
  unfold State.beginReset
  extract_lets +onlyGivenNames t u
  have ht : Keeps s t := .foldl _ (fun _ _ => endLaunch_keeps _ _ _) _ _
  have hu : Keeps s u := (ht.trans (disable_keeps _ _)).same (stopStray_mem _ _)
  exact hu.same (modDealer_mem _ _)
theorem releaseTables_keeps (s : State) (v : Nat) : Keeps s (s.releaseTables v) := by
  unfold State.releaseTables
  extract_lets +onlyGivenNames t u towers
  have ht : Keeps s t := .foldl _ (fun _ _ => giveUpToken_keeps _ _) _ _
  have hu : Keeps s u := ht.trans (.foldl _ (fun _ _ => .ite (.of_eq (setBar_mem _ _ _)) .rfl) _ _)
  clear_value u
  exact hu.same rfl
theorem clearFunction_keeps (s : State) (v : Nat) : Keeps s (s.clearFunction v) := by
  unfold State.clearFunction
  extract_lets +onlyGivenNames p qs slots a b units c stage towers d
  have ha : Keeps s a := .foldl _ (fun _ _ => .of_eq (setCtx_mem _ _ _)) _ _
  have hb : Keeps s b := ha.trans (.foldl _ (fun _ _ => .of_eq (modQuad_mem _ _ _)) _ _)
  have hc : Keeps s c := hb.trans (.foldl _ (fun _ _ => .of_eq (setArm_mem _ _ _)) _ _)
  have hd : Keeps s d := hc.same rfl
  exact hd.trans (.foldl _ (fun _ _ => zero_keeps _ _ _) _ _)
theorem alarmKill_keeps (s : State) : Keeps s s.alarmKill :=
  .ite ((Keeps.foldl _ (fun _ _ => killLaunch_keeps _ _ _) _ _).same (modDealer_mem _ _)) .rfl
@[simp] theorem dropRest_mem (s : State) (v : Nat) : (s.dropRest v).mem = s.mem := rfl
theorem finishReset_keeps (s : State) (v q : Nat) : Keeps s (s.finishReset v q) := by
  unfold State.finishReset
  extract_lets +onlyGivenNames t n u
  have ht : Keeps s t := ((Keeps.of_eq (dropRest_mem _ _)).trans (releaseTables_keeps _ _)).trans (clearFunction_keeps _ _)
  have hu : Keeps s u := ht.same ((raise_mem _ _).trans (logRecord_mem _ _ _))
  exact (hu.same (modDealer_mem _ _)).trans (alarmKill_keeps _)
theorem alarm_keeps (s : State) (b : Nat) : Keeps s (s.alarm b) := (Keeps.of_eq (modDealer_mem _ _)).trans (alarmKill_keeps _)
theorem boot_keeps (s : State) (fuse : Nat → Nat) (f : Found) : Keeps s (s.boot fuse f) := keeps_filter (fun c => decide (4 ≤ tierOf c.1)) rfl
theorem bringTower_keeps (s : State) (n : Nat) (ok : Bool) : Keeps s (s.bringTower n ok) := by
  unfold State.bringTower
  extract_lets +onlyGivenNames up up' t u
  have ht : Keeps s t := .ite (zero_keeps _ _ _) .rfl
  have hu : Keeps s u := .ite (ht.same (setQueue_mem _ _ _)) ht
  exact hu.same (modDealer_mem _ _)
theorem bringUp_keeps (s : State) : ∀ t ∈ s.bringUp, Keeps s t := by
  intro t ht
  unfold State.bringUp at ht
  split at ht
  · cases ht
  split at ht
  · exact Option.some.inj ht ▸ bringTower_keeps _ _ _
  · split at ht
    · exact Option.some.inj ht ▸ .of_eq (modDealer_mem _ _)
    · cases ht
@[simp] theorem underWay_mem (s : State) (q n : Nat) : (s.underWay q n).mem = s.mem := rfl

/-! ### What keeps memory canonical: one attempt, and the end of a tick (R20, R21, R34) -/

theorem faultMet_keeps (s : State) (b : List Instr) (f : FaultInfo) : Keeps s (s.faultMet b f) := by
  unfold State.faultMet
  extract_lets +onlyGivenNames t
  have ht : Keeps s t := .of_eq (issueMet_mem _ _ _)
  exact .ite (ht.trans (walked_keeps _ _ _ _)) ht
theorem commit_keeps {u base s : State} (hb : Keeps u base) (hs : Keeps u s) : Keeps u (base.commit s) := by
  unfold State.commit
  extract_lets +onlyGivenNames g k nx c back
  refine .ite (hb.same ((takeFault_mem _ _).trans (countEcc_mem _ _))) ?_
  extract_lets +onlyGivenNames c' ctr ctr' t v
  have ht : Keeps u t := .ite (hs.same (modQuad_mem _ _ _)) hs
  have hv : Keeps u v := ht.same ((countEcc_mem _ _).trans (setCtx_mem _ _ _))
  exact hv.same (modCore_mem _ _ _)
theorem tickOver_keeps (s : State) : Keeps s s.tickOver := by
  unfold State.tickOver
  extract_lets +onlyGivenNames t u
  have h1 : Keeps s s.countBlocked.triggersOver := (Keeps.of_eq (countBlocked_mem _)).trans (triggersOver_keeps _)
  have h2 : Keeps s s.countBlocked.triggersOver.endUnits.cubesOver := h1.same ((cubesOver_mem _).trans (modDealer_mem _ _))
  have ht : Keeps s t := (h2.trans (tokensOver_keeps _)).trans (giveUp_keeps _)
  have hu : Keeps s u := .ite (ht.same rfl) ht
  exact hu.same rfl
theorem redoTask_keeps (s : State) (g : Nat) : ∀ t ∈ s.redoTask g, Keeps s t := by
  intro t ht
  simp only [State.redoTask, Option.mem_def, Option.bind_eq_some_iff] at ht
  obtain ⟨id, -, l, -, k, -, hk⟩ := ht
  split at hk
  · obtain rfl := Option.some.inj hk
    exact .ite (.of_eq ((unhold_mem _ _).trans (reexecute_mem _ _ _))) (.of_eq (reexecute_mem _ _ _))
  · cases hk
theorem poolEvict_keeps (s : State) (m : PoolReq) : ∀ t ∈ s.poolEvict m, Keeps s t := by
  intro t ht
  unfold State.poolEvict at ht
  split at ht
  · extract_lets e isFree at ht
    split at ht
    · exact Option.some.inj ht ▸ .of_eq (evictAlloc_mem _ _)
    · cases ht
  · cases ht
theorem giveWay_keeps (s : State) (g : Nat) : ∀ t ∈ s.giveWay g, Keeps s t := by
  intro t ht
  unfold State.giveWay at ht
  split at ht
  · split at ht
    · cases ht
    · obtain rfl := Option.some.inj ht
      exact .ite (.of_eq ((stopLaunch_mem _ _ _).trans (modLaunch_mem _ _ _))) (.of_eq ((preemptNow_mem _ _).trans (modLaunch_mem _ _ _)))
  · cases ht

end Sys2Proof.Machine

namespace Sys2Proof.Machine

/-! ### Effects that keep memory canonical -/

/-- The effect, when it takes place, keeps memory canonical. -/
def KeepsTo (s : State) (r : Except Halt State) : Prop := ∀ t, r = .ok t → Keeps s t
/-- The next state, when there is one, keeps memory canonical. -/
def KeepsNext (s : State) (o : Out) : Prop := ∀ t, o = .next t → Keeps s t

theorem keepsTo_error {s : State} (h : Halt) : KeepsTo s (.error h) := fun _ e => nomatch e
theorem keepsTo_ok {s t : State} (h : Keeps s t) : KeepsTo s (.ok t) := fun _ e => Except.ok.inj e ▸ h
theorem KeepsTo.ite {s : State} {p : Prop} [Decidable p] {a b : Except Halt State} (ha : KeepsTo s a) (hb : KeepsTo s b) :
    KeepsTo s (if p then a else b) := by
  split
  · exact ha
  · exact hb
/-- A check before an effect. -/
theorem KeepsTo.check {α : Type} {s : State} {x : Except Halt α} {f : α → Except Halt State} (h : ∀ a, x = .ok a → KeepsTo s (f a)) :
    KeepsTo s (x >>= f) := by
  cases x with
  | error e => exact keepsTo_error e
  | ok a => exact h a rfl
/-- One effect after another. -/
theorem KeepsTo.andThen {s : State} {x : Except Halt State} {f : State → Except Halt State} (hx : KeepsTo s x) (h : ∀ t, KeepsTo t (f t)) :
    KeepsTo s (x >>= f) := .check fun t e u hu => (hx t e).trans (h t u hu)
theorem KeepsTo.map {α : Type} {s : State} {x : Except Halt α} {f : α → State} (h : ∀ a, x = .ok a → Keeps s (f a)) : KeepsTo s (x.map f) := by
  cases x with
  | error e => exact keepsTo_error e
  | ok a => exact keepsTo_ok (h a rfl)
/-- What keeps memory canonical from a state keeps it from one before. -/
theorem KeepsTo.from {s t : State} {r : Except Halt State} (h : KeepsTo t r) (ht : Keeps s t) : KeepsTo s r := fun u hu => ht.trans (h u hu)

theorem keepsNext_next {s t : State} (h : Keeps s t) : KeepsNext s (.next t) := fun _ e => Host.Outcome.next.inj e ▸ h
theorem KeepsNext.ite {s : State} {p : Prop} [Decidable p] {a b : Out} (ha : KeepsNext s a) (hb : KeepsNext s b) :
    KeepsNext s (if p then a else b) := by
  split
  · exact ha
  · exact hb
theorem keepsNext_event {s t : State} {b : Bool} (h : Keeps s t) : KeepsNext s (event b s t) := keepsNext_next (.ite h .rfl)
theorem KeepsNext.from {s t : State} {o : Out} (h : KeepsNext t o) (ht : Keeps s t) : KeepsNext s o := fun u hu => ht.trans (h u hu)
theorem settle_keepsNext {s : State} {r : Except Halt State} (k : Slot) (h : KeepsTo s r) : KeepsNext s (settle k s r) := by
  unfold settle
  split
  · exact keepsNext_next (h _ rfl)
  · exact keepsNext_next (.of_eq (takeFault_mem _ _))
  · exact keepsNext_next (.of_eq rfl)

/-! ### Syllables behind the common checks -/

theorem streamRead_keepsTo (s : State) (r : RegId) : KeepsTo s (s.streamRead r) := by
  unfold State.streamRead
  split
  · exact keepsTo_ok .rfl
  · exact .ite (keepsTo_error _) (.ite (keepsTo_error _) (keepsTo_ok (.of_eq rfl)))
theorem streamReads_keepsTo (l : List RegId) (s : State) : KeepsTo s (l.foldlM State.streamRead s) := by
  induction l generalizing s with
  | nil => exact keepsTo_ok .rfl
  | cons r l ih => exact (streamRead_keepsTo s r).andThen ih
theorem poisonGate_keepsTo (s : State) (i : Instr) : KeepsTo s (s.poisonGate i) := .ite (keepsTo_error _) (keepsTo_ok (.of_eq rfl))
theorem gate_keepsTo (s : State) (i : Instr) : KeepsTo s (s.gate i) :=
  (poisonGate_keepsTo s i).andThen fun t => .check fun _ _ => .check fun _ _ => streamReads_keepsTo _ t
theorem syl_keepsNext (s : State) (i : Instr) {f : State → Except Halt State} (h : ∀ t, KeepsTo t (f t)) : KeepsNext s (s.syl i f) :=
  settle_keepsNext _ ((gate_keepsTo s i).andThen h)
theorem direct_keepsNext (s : State) (i : Instr) {f : State → Except Halt State} (h : ∀ t, KeepsTo t (f t)) : KeepsNext s (s.direct i f) :=
  settle_keepsNext _ ((poisonGate_keepsTo s i).andThen h)

/-! What a syllable's effect is made of. -/

theorem keepsTo_of_mem {s t : State} (h : t.mem = s.mem) : KeepsTo s (.ok t) := keepsTo_ok (.of_eq h)
theorem giveWord_keepsTo (s : State) (d : BitVec 7) (lat : BitVec 4) (n : Nat) (v : Word) : KeepsTo s (s.giveWord d lat n v) :=
  keepsTo_of_mem (putS_mem _ _ _ _)
theorem giveInt_keepsTo (s : State) (t : BitVec 5) (sat : Bool) (d : BitVec 7) (lat : BitVec 4) (n : Nat) (v : Int) :
    KeepsTo s (s.giveInt t sat d lat n v) := keepsTo_of_mem (putS_mem _ _ _ _)
theorem each_keepsTo (s : State) (p : Cl) (sh msk : BitVec 3) (d : BitVec 7) (w lat : Nat) (f : Nat → Nat) :
    KeepsTo s (s.each p sh msk d w lat f) := .check fun _ _ => keepsTo_of_mem (giveTile_mem _ _ _ _ _ _ _)
theorem compareTile_keepsTo (s : State) (p : Cl) (sh msk : BitVec 3) (t : BitVec 5) (a : BitVec 7) (c n lat : Nat) (b : Nat → Nat) :
    KeepsTo s (s.compareTile p sh msk t a c n lat b) := .check fun _ _ => keepsTo_of_mem (giveMask_mem _ _ _ _ _)
/-- Tiles written one after another. -/
theorem giveTiles_mem (f : State → Nat → State) (hf : ∀ t j, (f t j).mem = t.mem) (k : Nat) (s : State) : ((List.range k).foldl f s).mem = s.mem :=
  mem_foldl f hf _ _
theorem convForm_keepsTo (s : State) (p : Cl) (o : FR) (n : Nat) (f : Nat → Nat) : KeepsTo s (s.convForm p o n f) := by
  refine .ite (each_keepsTo _ _ _ _ _ _ _ _) (.ite ?_ ?_)
  · exact .check fun _ _ => .check fun _ _ => keepsTo_of_mem (giveTiles_mem _ (fun _ _ => mem_ite rfl (giveTile_mem _ _ _ _ _ _ _)) _ _)
  · exact .check fun _ _ => .check fun _ _ => .ite (keepsTo_ok .rfl) (keepsTo_of_mem (giveTile_mem _ _ _ _ _ _ _))
theorem goto_keepsTo (s : State) (t : Int) : KeepsTo s (s.goto t) := by
  unfold State.goto
  split
  · exact .ite (keepsTo_of_mem rfl) (keepsTo_error _)
  · exact keepsTo_error _
theorem acquire_keepsTo (s : State) (m : Nat) : KeepsTo s (s.acquire m) := .check fun _ _ => keepsTo_of_mem (takeClasses_mem _ _)
theorem release_keepsTo (s : State) (m w : Nat) : KeepsTo s (s.release m w) := .check fun _ _ => keepsTo_of_mem (takeClasses_mem _ _)
theorem ordered_keepsTo (s : State) (m : Mods) : KeepsTo s (s.ordered m) := by
  refine .check fun _ _ => .ite ?_ (keepsTo_of_mem (takeClasses_mem _ _))
  exact .from (.andThen (release_keepsTo _ _ _) fun t => keepsTo_ok (orderDone_keeps t m)) (.of_eq (takeClasses_mem _ _))
@[simp] theorem issued_mem (s : State) (k : Cmd) : (s.issued k).mem = s.mem := rfl
theorem toCopy_keepsTo (s : State) (k : Cmd) : KeepsTo s (s.toCopy k) := .check fun _ _ => keepsTo_of_mem rfl
theorem toRemote_keepsTo (s : State) (k : Cmd) : KeepsTo s (s.toRemote k) := .check fun _ _ => keepsTo_of_mem rfl
theorem toCube_keepsTo (s : State) (k : Cmd) : KeepsTo s (s.toCube k) := .check fun _ _ => keepsTo_of_mem rfl
@[simp] theorem toReads_mem (s : State) (k : Cmd) : (s.toReads k).mem = s.mem := rfl
@[simp] theorem toTrigger_mem (s : State) (t : Nat) (k : Cmd) : (s.toTrigger t k).mem = s.mem := rfl
theorem accept_keepsTo (s : State) : KeepsTo s s.accept := by
  refine .ite (.ite (keepsTo_of_mem rfl) (.ite (keepsTo_error _) (keepsTo_error _))) (.ite (keepsTo_error _) (keepsTo_error _))
theorem ok_of_bind {α β : Type} {x : Except Halt α} {f : α → Except Halt β} {b : β} (h : x >>= f = .ok b) : ∃ a, x = .ok a ∧ f a = .ok b := by
  cases x with
  | error e => cases h
  | ok a => exact ⟨a, rfl, h⟩
theorem tokenCmd_keeps (s : State) (i : Instr) (o : FE) {r : State × Cmd} (h : s.tokenCmd i o = .ok r) : Keeps s r.1 := by
  obtain ⟨x, -, h⟩ := ok_of_bind h
  split at h
  · cases h
  split at h
  · cases h
  · obtain ⟨_, -, h⟩ := ok_of_bind h
    obtain rfl := Except.ok.inj h
    exact fillWalk_keeps _ _ _
theorem fmUncorr_mem (s : State) (ea : Word) : (s.fmUncorr ea).mem = s.mem := rfl

/-! The shared forms. -/

theorem intFR_keepsNext (s : State) (i : Instr) (o : FR) (n : Nat) (f : Int → Int → Int) : KeepsNext s (s.intFR i o n f) :=
  syl_keepsNext _ _ fun _ => giveInt_keepsTo _ _ _ _ _ _ _
theorem intFI_keepsNext (s : State) (i : Instr) (o : FI) (n : Nat) (f : Int → Int → Int) : KeepsNext s (s.intFI i o n f) :=
  syl_keepsNext _ _ fun _ => giveInt_keepsTo _ _ _ _ _ _ _
theorem shiftFR_keepsNext (s : State) (i : Instr) (o : FR) (k : ShiftKind) : KeepsNext s (s.shiftFR i o k) :=
  syl_keepsNext _ _ fun _ => giveInt_keepsTo _ _ _ _ _ _ _
theorem shiftFI_keepsNext (s : State) (i : Instr) (o : FI) (k : ShiftKind) : KeepsNext s (s.shiftFI i o k) :=
  syl_keepsNext _ _ fun _ => giveInt_keepsTo _ _ _ _ _ _ _
theorem countFR_keepsNext (s : State) (i : Instr) (o : FR) (f : Nat → Nat → Nat) : KeepsNext s (s.countFR i o f) :=
  syl_keepsNext _ _ fun _ => keepsTo_of_mem (putS_mem _ _ _ _)
theorem floatFR_keepsNext (s : State) (i : Instr) (o : FR) (n : Nat) (f : Nat → Nat → Nat) : KeepsNext s (s.floatFR i o n f) :=
  syl_keepsNext _ _ fun _ => giveWord_keepsTo _ _ _ _ _
theorem floatFI_keepsNext (s : State) (i : Instr) (o : FI) (n : Nat) (f : Nat → Nat → Nat) : KeepsNext s (s.floatFI i o n f) :=
  syl_keepsNext _ _ fun _ => giveWord_keepsTo _ _ _ _ _
theorem tile1_keepsNext (s : State) (i : Instr) (p : Cl) (o : FR) (n : Nat) (f : Nat → Nat) : KeepsNext s (s.tile1 i p o n f) :=
  syl_keepsNext _ _ fun _ => each_keepsTo _ _ _ _ _ _ _ _
theorem tile2_keepsNext (s : State) (i : Instr) (p : Cl) (o : FR) (n : Nat) (f : Nat → Nat → Nat) : KeepsNext s (s.tile2 i p o n f) :=
  syl_keepsNext _ _ fun _ => each_keepsTo _ _ _ _ _ _ _ _
theorem tile3_keepsNext (s : State) (i : Instr) (p : Cl) (o : FR) (n : Nat) (f : Nat → Nat → Nat → Nat) : KeepsNext s (s.tile3 i p o n f) :=
  syl_keepsNext _ _ fun _ => each_keepsTo _ _ _ _ _ _ _ _
theorem tileI_keepsNext (s : State) (i : Instr) (p : Cl) (o : FI) (n : Nat) (f : Nat → Nat → Nat) : KeepsNext s (s.tileI i p o n f) :=
  syl_keepsNext _ _ fun _ => each_keepsTo _ _ _ _ _ _ _ _
theorem maskForm_keepsNext (s : State) (i : Instr) (p : Cl) (o : FR) (f : MaskReg → MaskReg → MaskReg) : KeepsNext s (s.maskForm i p o f) :=
  syl_keepsNext _ _ fun _ => keepsTo_of_mem (putM_mem _ _ _ _ _ _)
theorem permute_keepsNext (s : State) (i : Instr) (p : Cl) (o : FR) (n : Nat) (turn : VShape → VShape)
    (f : State → VShape → Nat → Nat → Nat) : KeepsNext s (s.permute i p o n turn f) :=
  syl_keepsNext _ _ fun _ => .check fun _ _ => keepsTo_of_mem (giveTile_mem _ _ _ _ _ _ _)
theorem reduce_keepsNext (s : State) (i : Instr) (p : Cl) (o : FR) (ident : Nat) (f : List Nat → Nat) : KeepsNext s (s.reduce i p o ident f) :=
  syl_keepsNext _ _ fun _ => .check fun _ _ => .check fun _ _ => .check fun _ _ => keepsTo_of_mem (putV_mem _ _ _ _ _ _)
theorem convForm_keepsNext (s : State) (i : Instr) (p : Cl) (o : FR) (n : Nat) (f : Nat → Nat) :
    KeepsNext s (s.syl i fun s => s.convForm p o n f) := syl_keepsNext _ _ fun _ => convForm_keepsTo _ _ _ _ _
theorem poolAlloc_keepsNext (s : State) (i : Instr) (o : FE) : KeepsNext s (s.poolAlloc i o) :=
  syl_keepsNext _ _ fun _ => .check fun _ _ => .check fun _ _ => toRemote_keepsTo _ _
theorem indexed_keepsNext (s : State) (i : Instr) (o : FE) (f : State → Cmd → Cmd) : KeepsNext s (s.indexed i o f) :=
  syl_keepsNext _ _ fun _ => .check fun _ _ => .check fun _ _ => .check fun _ _ => toCopy_keepsTo _ _
/-- A remote command behind the order of its access, its walks noted. -/
theorem walkedRemote_keepsTo (s : State) (m : Mods) (l : State → List (Word × Xlate)) (k : State → Cmd) :
    KeepsTo s (s.ordered m >>= fun t => (t.fillWalks (l t)).toRemote (k t)) :=
  (ordered_keepsTo _ _).andThen fun _ => (toRemote_keepsTo _ _).from (fillWalks_keeps _ _)
theorem amo_keepsNext (s : State) (i : Instr) (o : FE) : KeepsNext s (s.amo i o) :=
  syl_keepsNext _ _ fun _ => .check fun _ _ => .check fun _ _ => .check fun _ _ => walkedRemote_keepsTo _ _ _ _
theorem product_keepsTo (s : State) (i : Instr) (o : FE) : KeepsTo s (s.product i o) :=
  (accept_keepsTo s).andThen fun _ => .check fun _ _ => .check fun _ _ => .check fun _ _ => .check fun _ _ => .check fun _ _ =>
    .check fun _ _ => .check fun _ _ => toCube_keepsTo _ _
theorem red_keepsNext (s : State) (i : Instr) (o : FE) : KeepsNext s (s.red i o) := by
  refine syl_keepsNext _ _ fun t => .check fun _ _ => .ite ?_ ?_
  · refine .check fun _ _ => .check fun _ _ => .check fun _ _ => ?_
    dsimp only
    refine .ite (keepsTo_error _) ?_
    split
    · exact keepsTo_error _
    · exact .check fun _ _ => walkedRemote_keepsTo _ _ _ _
  · exact .check fun _ _ => .check fun _ _ => .check fun _ _ => walkedRemote_keepsTo _ _ _ _

end Sys2Proof.Machine

namespace Sys2Proof.Machine

/-! ### What keeps memory canonical: the syllables with a form of their own -/

section
variable (s : State)

theorem execNop_keeps (k : Slot) : KeepsNext s (execNop k s) := syl_keepsNext _ _ fun _ => keepsTo_ok .rfl
theorem execTrap_keeps (o : FX) : KeepsNext s (execTrap o s) := syl_keepsNext _ _ fun _ => keepsTo_error _
theorem execMod_keeps (o : FX) : KeepsNext s (execMod o s) := syl_keepsNext _ _ fun _ => keepsTo_of_mem rfl
theorem execBc_keeps (o : FB) : KeepsNext s (execBc o s) := syl_keepsNext _ _ fun _ => .ite (goto_keepsTo _ _) (keepsTo_ok .rfl)
theorem execCall_keeps (o : FB) : KeepsNext s (execCall o s) :=
  syl_keepsNext _ _ fun t => .map fun u hu => (goto_keepsTo t _ u hu).same (putS_mem _ _ _ _)
theorem execLoop_keeps (o : FB) : KeepsNext s (execLoop o s) :=
  syl_keepsNext _ _ fun _ => .check fun _ _ => (goto_keepsTo _ _).andThen fun _ => keepsTo_of_mem (putCr_mem _ _ _)
theorem execJt_keeps (o : FB) : KeepsNext s (execJt o s) := syl_keepsNext _ _ fun _ => .ite (goto_keepsTo _ _) (goto_keepsTo _ _)
theorem execBsel_keeps (o : FB) : KeepsNext s (execBsel o s) := by
  refine syl_keepsNext _ _ fun t => ?_
  dsimp only
  split
  · exact keepsTo_error _
  · exact .map fun u hu => (goto_keepsTo t _ u hu).same (putSh_mem _ _ _ _ _)
theorem execHalt_keeps (o : FX) : KeepsNext s (execHalt o s) :=
  syl_keepsNext _ _ fun t => .check fun _ _ => keepsTo_of_mem (halted_ctx_mem t t.cur).2
theorem execSysc_keeps (o : FX) : KeepsNext s (execSysc o s) := syl_keepsNext _ _ fun _ => .check fun _ _ => keepsTo_of_mem (putS_mem _ _ _ _)
theorem execWrcr_keeps (o : FR) : KeepsNext s (execWrcr o s) := by
  refine syl_keepsNext _ _ fun t => ?_
  dsimp only
  refine .ite (.ite (.ite (keepsTo_of_mem (putSh_mem _ _ _ _ _)) (keepsTo_error _)) (.ite (keepsTo_of_mem (putSh_mem _ _ _ _ _)) (keepsTo_error _))) ?_
  split
  · exact .ite (keepsTo_error _) (keepsTo_of_mem (putCr_mem _ _ _))
  · exact keepsTo_ok .rfl
  · exact keepsTo_of_mem (putCr_mem _ _ _)
  · exact keepsTo_of_mem (putCr_mem _ _ _)
  · exact keepsTo_of_mem (putCr_mem _ _ _)
  · exact keepsTo_error _
theorem execFence_keeps (o : FX) : KeepsNext s (execFence o s) :=
  syl_keepsNext _ _ fun _ => .check fun _ _ => .ite (acquire_keepsTo _ _)
    (.ite (keepsTo_ok .rfl) ((release_keepsTo _ _ _).andThen fun _ => keepsTo_ok (podRelease_keeps _ _)))
theorem execBar_keeps (o : FX) : KeepsNext s (execBar o s) := by
  refine syl_keepsNext _ _ fun t => ?_
  dsimp only
  split
  · exact .ite (keepsTo_of_mem (takeClasses_mem _ _)) (keepsTo_error _)
  · exact .check fun _ _ => .check fun _ _ => keepsTo_error _
theorem execFlagwait_keeps (o : FX) : KeepsNext s (execFlagwait o s) :=
  syl_keepsNext _ _ fun _ => .check fun _ _ => .ite (keepsTo_error _) (.ite (keepsTo_error _) (.ite (keepsTo_error _) (.ite (keepsTo_error _)
    (.check fun _ _ => (acquire_keepsTo _ _).andThen fun _ =>
      keepsTo_ok (((fillWalk_keeps _ _ _).trans (eccMet_keeps _ _ _ _ _)).same (putS_mem _ _ _ _))))))
theorem execBcwait_keeps (o : FX) : KeepsNext s (execBcwait o s) :=
  syl_keepsNext _ _ fun _ => .check fun _ _ => .check fun _ _ => (acquire_keepsTo _ _).andThen fun _ => keepsTo_of_mem (putS_mem _ _ _ _)
theorem execStacq_keeps (o : FR) : KeepsNext s (execStacq o s) :=
  syl_keepsNext _ _ fun _ => .check fun _ _ => .check fun _ _ => .ite
    (.check fun _ _ => (acquire_keepsTo _ _).andThen fun _ => giveWord_keepsTo _ _ _ _ _)
    (.check fun _ _ => (acquire_keepsTo _ _).andThen fun _ => (giveWord_keepsTo _ _ _ _ _).from (.of_eq (setTower_mem _ _ _)))
theorem execStrel_keeps (o : FR) : KeepsNext s (execStrel o s) :=
  syl_keepsNext _ _ fun _ => .check fun _ _ => .check fun _ _ => .check fun _ _ => (release_keepsTo _ _ _).andThen fun _ =>
    keepsTo_of_mem (modTower_mem _ _ _)
theorem execVclmul_keeps (p : Cl) (o : FR) : KeepsNext s (execVclmul p o s) :=
  syl_keepsNext _ _ fun _ => .check fun _ _ => keepsTo_of_mem (giveTile_mem _ _ _ _ _ _ _)
theorem execVcbdec_keeps (p : Cl) (o : FR) : KeepsNext s (execVcbdec p o s) :=
  syl_keepsNext _ _ fun _ => .check fun _ _ => .check fun _ _ => keepsTo_of_mem (giveTiles_mem _ (fun _ _ => giveTile_mem _ _ _ _ _ _ _) _ _)
theorem execVscale_keeps (p : Cl) (o : FR) : KeepsNext s (execVscale p o s) :=
  syl_keepsNext _ _ fun _ => .check fun _ _ => .check fun _ _ => keepsTo_of_mem (giveTiles_mem _ (fun _ _ => giveTile_mem _ _ _ _ _ _ _) _ _)

/-! Direct accesses. -/

/-- A load meets what it reads, and tells of an uncorrectable unit. -/
theorem directDones_keeps (ranges : Nat × Nat × Xlate → List (Nat × Nat)) (l : List (Nat × Nat × Xlate)) (bad : Bool) (ea : Word) :
    Keeps s (if bad = true then (l.foldl (fun s l => s.directDone l.2.2 (ranges l)) s).fmUncorr ea
      else l.foldl (fun s l => s.directDone l.2.2 (ranges l)) s) :=
  have h := Keeps.foldl (fun s l => s.directDone l.2.2 (ranges l)) (fun _ _ => directDone_keeps _ _ _) l s
  .ite (h.same (fmUncorr_mem _ _)) h
theorem execLdS_keeps (o : FM) : KeepsNext s (execLdS o s) := by
  refine direct_keepsNext _ _ fun t => .check fun _ _ => .check fun _ _ => .check fun x _ => ?_
  extract_lets -underBinder +onlyGivenNames fm dec load
  have hl : ∀ u, KeepsTo t (load u) := by
    refine fun u => (ordered_keepsTo _ _).andThen fun v => keepsTo_ok ?_
    exact (directDones_keeps _ (fun l => [(l.2.2.pa, _)]) [(0, 0, x)] _ _).same ((mayTake_mem _ _ _ _ _).trans (putS_mem _ _ _ _))
  clear_value load
  exact .ite (.check fun _ _ => hl _) (.check fun _ _ => hl _)
theorem execStT_keeps (o : FM) : KeepsNext s (execStT o s) := by
  refine direct_keepsNext _ _ fun t => .check fun _ _ => .check fun _ _ => .check fun p _ => ?_
  extract_lets -underBinder +onlyGivenNames store
  have hs : ∀ lines, KeepsTo t (store lines) := by
    intro lines
    unfold store
    dsimp only
    split
    · exact keepsTo_error _
    · exact .check fun _ _ => (streamRead_keepsTo _ _).andThen fun _ => (ordered_keepsTo _ _).andThen fun _ =>
        keepsTo_ok (.foldl _ (fun _ _ => directStore_keeps _ _ _ _) _ _)
  clear_value store
  exact .ite (.check fun _ _ => hs _) (.check fun _ _ => hs _)
theorem execLdT_keeps (o : FM) : KeepsNext s (execLdT o s) := by
  refine direct_keepsNext _ _ fun t => .check fun _ _ => .check fun _ _ => .check fun p _ => ?_
  split
  next wm dec _ =>
  dsimp only
  split
  · exact keepsTo_error _
  refine .ite (keepsTo_error _) (.check fun _ _ => .check fun _ _ => .check fun _ _ => (ordered_keepsTo _ _).andThen fun u => keepsTo_ok ?_)
  exact (directDones_keeps _ _ _ _ _).same (giveTiles_mem _ (fun _ _ => (mayTake_mem _ _ _ _ _).trans (giveTile_mem _ _ _ _ _ _ _)) _ _)
theorem execStS_keeps (o : FM) : KeepsNext s (execStS o s) :=
  direct_keepsNext _ _ fun _ => .check fun _ _ => .check fun _ _ => .check fun _ _ => .check fun _ _ => (ordered_keepsTo _ _).andThen fun _ =>
    keepsTo_ok (directStore_keeps _ _ _ _)

/-! Engine commands. -/

theorem execSbind_keeps (o : FE) : KeepsNext s (execSbind o s) :=
  syl_keepsNext _ _ fun _ => .check fun _ _ => .check fun _ _ => .check fun _ _ => (toCopy_keepsTo _ _).andThen fun _ => keepsTo_of_mem (modCtx_mem _ _ _)
theorem execDcopy_keeps (o : FE) : KeepsNext s (execDcopy o s) := syl_keepsNext _ _ fun _ => .check fun _ _ => toCopy_keepsTo _ _
theorem execDcopyCsum_keeps (o : FE) : KeepsNext s (execDcopyCsum o s) := syl_keepsNext _ _ fun _ => .check fun _ _ => toCopy_keepsTo _ _
theorem execRld_keeps (o : FE) : KeepsNext s (execRld o s) :=
  syl_keepsNext _ _ fun _ => .check fun _ _ => .check fun _ _ => .check fun _ _ => .check fun _ _ => .check fun _ _ => walkedRemote_keepsTo _ _ _ _
theorem execRst_keeps (o : FE) : KeepsNext s (execRst o s) := by
  refine syl_keepsNext _ _ fun t => .check fun _ _ => .check fun _ _ => .check fun _ _ => .check fun lines _ => ?_
  extract_lets -underBinder +onlyGivenNames store
  have hs : ∀ lines, KeepsTo t (store lines) := by
    intro lines
    unfold store
    extract_lets -underBinder +onlyGivenNames fl issue
    have hi : ∀ flag, KeepsTo t (issue flag) := fun flag => .check fun _ _ => walkedRemote_keepsTo _ _ _ _
    clear_value issue
    refine .ite (.check fun _ _ => hi _) (.check fun _ _ => ?_)
    split
    · exact .ite (.check fun _ _ => hi _) (.check fun _ _ => hi _)
    · exact .check fun _ _ => hi _
    · exact .check fun _ _ => hi _
  clear_value store
  exact .ite (.check fun _ _ => hs _) (.check fun _ _ => hs _)
theorem execBcarm_keeps (o : FE) : KeepsNext s (execBcarm o s) :=
  syl_keepsNext _ _ fun t => .check fun _ _ => .ite
    (.check fun _ _ => .check fun _ _ => .check fun _ _ => keepsTo_of_mem (modTower_mem _ _ _))
    (.check fun _ _ => .check fun x _ => .ite (keepsTo_error _) (.ite (keepsTo_error _)
      (.check fun _ _ => .check fun _ _ => .check fun _ _ => keepsTo_ok ((fillWalks_keeps t [(t.rs o.a, x)]).same (modTower_mem _ _ _)))))
theorem execTacq_keeps (o : FE) : KeepsNext s (execTacq o s) :=
  syl_keepsNext _ _ fun _ => .check fun _ h => .from ((ordered_keepsTo _ _).andThen fun _ => toRemote_keepsTo _ _) (tokenCmd_keeps _ _ _ h)
theorem execTrel_keeps (o : FE) : KeepsNext s (execTrel o s) :=
  syl_keepsNext _ _ fun _ => .check fun _ h =>
    .from ((release_keepsTo _ _ _).andThen fun _ => (toRemote_keepsTo _ _).from (podRelease_keeps _ _)) (tokenCmd_keeps _ _ _ h)
theorem execCspush_keeps (o : FE) : KeepsNext s (execCspush o s) := by
  refine syl_keepsNext _ _ fun t => ?_
  dsimp only
  split
  · exact keepsTo_error _
  · exact .check fun _ _ => .check fun _ _ => (toRemote_keepsTo _ _).andThen fun _ => keepsTo_ok (.ite (.of_eq (modQuad_mem _ _ _)) .rfl)
theorem execTrigArm_keeps (o : FE) : KeepsNext s (execTrigArm o s) :=
  syl_keepsNext _ _ fun _ => .check fun _ _ => .check fun _ _ => .check fun _ _ => keepsTo_ok ((fillWalks_keeps _ _).same (toTrigger_mem _ _ _))
theorem execTrigCancel_keeps (o : FE) : KeepsNext s (execTrigCancel o s) :=
  syl_keepsNext _ _ fun _ => .check fun _ _ => .check fun _ _ => keepsTo_ok ((fillWalks_keeps _ _).same (toTrigger_mem _ _ _))

/-- A cube command, once it is accepted. -/
theorem accepted_keepsNext (i : Instr) {f : State → Except Halt State} (h : ∀ t, KeepsTo t (f t)) :
    KeepsNext s (s.syl i fun t => t.accept >>= f) := syl_keepsNext _ _ fun _ => (accept_keepsTo _).andThen h
theorem execCplane_keeps (o : FE) : KeepsNext s (execCplane o s) :=
  accepted_keepsNext _ _ fun _ => .check fun _ _ => .check fun _ _ => .check fun _ _ => .check fun _ _ => .check fun _ _ => toCube_keepsTo _ _
theorem execCsmeta_keeps (o : FE) : KeepsNext s (execCsmeta o s) := accepted_keepsNext _ _ fun _ => .check fun _ _ => .check fun _ _ => toCube_keepsTo _ _
theorem execCseq_keeps (o : FE) : KeepsNext s (execCseq o s) := accepted_keepsNext _ _ fun _ => .check fun _ _ => .check fun _ _ => toCube_keepsTo _ _
theorem execCfill_keeps (o : FE) : KeepsNext s (execCfill o s) := accepted_keepsNext _ _ fun _ => .check fun _ _ => .check fun _ _ => toCopy_keepsTo _ _
theorem execCswap_keeps (o : FE) : KeepsNext s (execCswap o s) :=
  accepted_keepsNext _ _ fun _ => .check fun _ _ => .check fun _ _ => .check fun _ _ => .check fun _ _ => toCube_keepsTo _ _
theorem execCrdacc_keeps (o : FE) : KeepsNext s (execCrdacc o s) :=
  accepted_keepsNext _ _ fun _ => .check fun _ _ => .check fun _ _ => keepsTo_of_mem (toReads_mem _ _)
theorem execCwracc_keeps (o : FE) : KeepsNext s (execCwracc o s) :=
  accepted_keepsNext _ _ fun _ => .check fun _ _ => .check fun _ _ => .check fun _ _ => toCube_keepsTo _ _
theorem execCdrain_keeps (o : FE) : KeepsNext s (execCdrain o s) :=
  accepted_keepsNext _ _ fun _ => .check fun _ _ => .check fun _ _ => .check fun _ _ => toCube_keepsTo _ _
theorem execCkat_keeps (o : FE) : KeepsNext s (execCkat o s) := accepted_keepsNext _ _ fun _ => .check fun _ _ => .check fun _ _ => toCube_keepsTo _ _
theorem execCbist_keeps (o : FE) : KeepsNext s (execCbist o s) :=
  accepted_keepsNext _ _ fun _ => .check fun _ _ => .check fun _ _ => .check fun _ _ => toCube_keepsTo _ _
theorem execCstat_keeps (o : FE) : KeepsNext s (execCstat o s) :=
  syl_keepsNext _ _ fun _ => .check fun _ _ => .check fun _ _ => .check fun _ _ => keepsTo_of_mem (toReads_mem _ _)
end

end Sys2Proof.Machine

namespace Sys2Proof.Machine

/-! ### What keeps memory canonical: the events of the units -/

section
variable (s : State)

theorem execStreamTileFetch_keeps (h n : Nat) : KeepsNext s (execStreamTileFetch h n s) := by
  unfold execStreamTileFetch
  dsimp only
  split
  next a ha => exact keepsNext_event ((streamNext_keeps s h n a ha).trans (setSlotStream_keeps _ _ _ _))
  next => exact keepsNext_next .rfl
theorem execStreamTileLand_keeps (h n : Nat) : KeepsNext s (execStreamTileLand h n s) := by
  unfold execStreamTileLand
  dsimp only
  split
  · exact keepsNext_event (modCtx_keeps _ _ _)
  · exact keepsNext_next .rfl
theorem execStreamTileTake_keeps (h n : Nat) : KeepsNext s (execStreamTileTake h n s) := by
  unfold execStreamTileTake
  dsimp only
  split
  · exact keepsNext_next (setSlotStream_keeps _ _ _ _)
  split
  next a ha =>
    have h1 : Keeps s (if (s.slotStream h n).scope = 5 then a.s.cleanLines fun _ => true else a.s) :=
      (streamNext_keeps s h n a ha).trans (.ite (cleanLines_keeps _ _) .rfl)
    exact keepsNext_event ((h1.trans (setSlotStream_keeps _ _ _ _)).same (modQuad_mem _ _ _))
  next => exact keepsNext_next .rfl
theorem streamFault_getD_keeps (h n : Nat) : Keeps s ((s.streamFault h n).getD s) := .getD (streamFault_keeps s h n) .rfl
theorem execEngineTranslationFault_keeps (u : EngineUnit) : KeepsNext s (execEngineTranslationFault u s) :=
  match u with
  | .copy q => keepsNext_next (.getD (copyFault_keeps s q) .rfl)
  | .stream g n => keepsNext_next (streamFault_getD_keeps s g n)
theorem execWriteQueueApply_keeps (n : Nat) : KeepsNext s (execWriteQueueApply n s) := by
  unfold execWriteQueueApply
  split
  · exact keepsNext_event (applyEntry_keeps _ _)
  · exact keepsNext_next .rfl
theorem execCopyEngineDispatch_keeps (q : Nat) : KeepsNext s (execCopyEngineDispatch q s) := by
  unfold execCopyEngineDispatch
  split
  · exact keepsNext_next .rfl
  next k x _ =>
    extract_lets +onlyGivenNames t
    have ht : Keeps s t := .of_eq (setQuad_mem _ _ _)
    clear_value t
    split
    · exact keepsNext_next (ht.trans (startStream_keeps _ _))
    · have hr : Keeps s (if k.started = true then t else t.startReads k) := .ite ht (ht.trans (startReads_keeps _ _))
      exact keepsNext_next (hr.same (modQuad_mem _ _ _))
theorem execCopyCommandEnd_keeps (q : Nat) : KeepsNext s (execCopyCommandEnd q s) := by
  unfold execCopyCommandEnd
  split
  next a ha => exact keepsNext_event (((copyReady_keeps s q a ha).trans (finish_keeps a)).same (modQuad_mem _ _ _))
  next => exact keepsNext_next .rfl
theorem execCspushAccept_keeps (c : Nat) : KeepsNext s (execCspushAccept c s) := by
  unfold execCspushAccept
  split
  · exact keepsNext_next .rfl
  · exact keepsNext_next ((Keeps.of_eq ((modQuad_mem _ _ _).trans (modCore_mem _ _ _))).trans (endCmd_keeps _ _ _ _ _))
theorem execCspopDelivery_keeps (q b : Nat) : KeepsNext s (execCspopDelivery q b s) := by
  unfold execCspopDelivery
  split
  · exact keepsNext_next .rfl
  · exact keepsNext_next ((Keeps.of_eq ((modQuad_mem _ _ _).trans (modCore_mem _ _ _))).trans (endCmd_keeps _ _ _ _ _))
theorem execRemoteEngineDispatch_keeps (c : Nat) : KeepsNext s (execRemoteEngineDispatch c s) := by
  unfold execRemoteEngineDispatch
  split
  · exact keepsNext_next .rfl
  next k _ =>
    extract_lets +onlyGivenNames t tier k' loose
    have ht : Keeps s t := .of_eq (modCore_mem _ _ _)
    have hl : ∀ u k, Keeps s u → Keeps s (loose u k) := fun u k hu => hu.same (modCore_mem _ _ _)
    clear_value t loose
    refine keepsNext_next (.ite (ht.trans (redAccept_keeps _ _)) ?_)
    split
    · refine hl _ _ ?_
      split
      · exact ht.trans (setSlotStream_keeps _ _ _ _)
      · exact ht
    · split
      · exact hl _ _ ht
      · exact hl _ _ (ht.same rfl)
    · split
      · exact .ite (hl _ _ (ht.same rfl)) (hl _ _ ht)
      · exact hl _ _ ht
    · exact hl _ _ ht
theorem execUalinkResponse_keeps (m : LinkRsp) : KeepsNext s (execUalinkResponse m s) := by
  unfold execUalinkResponse
  split
  · exact keepsNext_next (.of_eq (setLoose_mem _ _ _))
  · exact keepsNext_next .rfl
theorem execRemoteCommandEnd_keeps (c n : Nat) : KeepsNext s (execRemoteCommandEnd c n s) := by
  unfold execRemoteCommandEnd
  split
  · exact keepsNext_event ((Keeps.of_eq (modCore_mem _ _ _)).trans (finishLoose_keeps _ _))
  · exact keepsNext_next .rfl

/-! The fabric and its ports. -/

theorem execPoolreq_keeps (m : PoolReq) : KeepsNext s (execPoolreq m s) := by
  unfold execPoolreq
  split
  · exact keepsNext_next (.of_eq (setLoose_mem _ _ _))
  · exact keepsNext_next (.getD (poolEvict_keeps s m) .rfl)
theorem execPoolrsp_keeps (m : PoolRsp) : KeepsNext s (execPoolrsp m s) := by
  unfold execPoolrsp
  extract_lets +onlyGivenNames num entry
  refine .ite (keepsNext_event (poolFree_keeps _ _ _)) ?_
  split
  · exact keepsNext_next .rfl
  next k _ =>
    extract_lets -underBinder +onlyGivenNames waits k' own put done
    have hd : ∀ u, Keeps s u → Keeps s (done u) := fun u hu => hu.same (setLoose_mem _ _ _)
    have hp : ∀ u, Keeps s u → Keeps s (put u) := fun u hu => hu.same (modVf_mem _ _ _)
    clear_value done put
    split
    · exact .ite (keepsNext_event (hd _ ((hp s .rfl).same rfl))) (keepsNext_event (hd s .rfl))
    · exact .ite (keepsNext_event (hd _ ((hp s .rfl).same rfl))) (keepsNext_event (hd s .rfl))
    · exact .ite (keepsNext_event (hd _ (poolFree_keeps _ _ _))) (keepsNext_event (hd s .rfl))
    · exact keepsNext_event (hd _ (hp s .rfl))
    · exact keepsNext_next .rfl
theorem execKittySwitchLoss_keeps (w : Nat) : KeepsNext s (execKittySwitchLoss w s) := by
  refine .ite (keepsNext_next .rfl) ?_
  extract_lets -underBinder +onlyGivenNames t lossIn u
  have ht : Keeps s t := .of_eq rfl
  have hl : ∀ v x n, Keeps x (lossIn v x n) := by
    intro v x n
    unfold lossIn
    split
    · exact applyLoss_keeps _ _ _ _
    · exact .rfl
  clear_value lossIn
  have hu : Keeps s u := ht.trans (.foldl _ (fun _ (v : Nat × Vf) => .foldl _ (hl v.1) _ _) _ _)
  exact keepsNext_next (hu.same rfl)
theorem execLoss_keeps (m : LossMsg) : KeepsNext s (execLoss m s) := by
  refine keepsNext_next (.foldl _ (fun t v => .ite (.foldl _ (fun u n => ?_) _ _) .rfl) _ _)
  exact .ite .rfl (.ite (applyLoss_keeps _ _ _ _) (applyLoss_keeps _ _ _ _))
theorem execTokreq_keeps (m : TokMsg) : KeepsNext s (execTokreq m s) := by
  unfold execTokreq
  dsimp only
  split
  · exact keepsNext_event (.of_eq rfl)
  · exact keepsNext_event (.of_eq rfl)
theorem execTokgrant_keeps (m : TokMsg) : KeepsNext s (execTokgrant m s) := by
  unfold execTokgrant
  split
  · exact .ite (keepsNext_next (.of_eq rfl)) (keepsNext_event (.of_eq rfl))
  · exact keepsNext_next .rfl
theorem execTokrecall_keeps (m : TokMsg) : KeepsNext s (execTokrecall m s) := by
  unfold execTokrecall
  split
  · exact keepsNext_event ((cleanLines_keeps _ _).same rfl)
  · exact keepsNext_next .rfl
theorem execFwrite_keeps (m : WriteMsg) : KeepsNext s (execFwrite m s) := by
  unfold execFwrite
  extract_lets +onlyGivenNames t u data all
  have ht : Keeps s t := by
    unfold t
    split
    · exact writeNotes_keeps _ _ _ _
    · exact .rfl
  have hu : Keeps s u := by
    unfold u
    split
    · exact ht.trans (inboundNote_keeps _ _ _)
    · exact ht
  clear_value u
  have hd : ∀ v ∈ data, Keeps u v := by
    intro v hv
    unfold data at hv
    split at hv
    · exact inboundWrite_keeps _ _ _ _ v hv
    · split at hv
      · exact Option.some.inj hv ▸ fun h => memWf_awayWrite _ _ _ h
      · cases hv
  clear_value data
  refine keepsNext_next (hu.trans (.getD (fun v hv => ?_) .rfl))
  obtain ⟨d, hd', hv⟩ := Option.bind_eq_some_iff.1 hv
  refine (hd d hd').trans ?_
  split at hv
  · exact arriveFlag_keeps _ _ _ v hv
  · exact Option.some.inj hv ▸ .rfl
theorem execLineadd_keeps (m : LineMsg) : KeepsNext s (execLineadd m s) := by
  unfold execLineadd
  split
  · extract_lets +onlyGivenNames t
    have ht : Keeps s t := inboundNote_keeps _ _ _
    clear_value t
    split
    · exact (keepsNext_event (((drainLine_keeps _ _).trans (.foldl _ (fun _ _ => engineMeets_keeps _ _ _ _) _ _)).trans
        (performWrite_keeps _ _ _ _))).from ht
    · exact keepsNext_next ht
  · exact keepsNext_event fun h => memWf_awayWrite _ _ _ h
theorem execUalinkRead_keeps (m : LinkReq) : KeepsNext s (execUalinkRead m s) := by
  unfold execUalinkRead
  extract_lets +onlyGivenNames t bytes
  have ht : Keeps s t := inboundNotes_keeps _ _ _
  clear_value bytes
  split
  · exact keepsNext_next (ht.trans (.foldl _ (fun _ _ => engineMeets_keeps _ _ _ _) _ _))
  · exact keepsNext_next ht
theorem execUalinkWrite_keeps (m : LinkReq) : KeepsNext s (execUalinkWrite m s) :=
  keepsNext_next ((writeNotes_keeps _ _ _ _).trans (.getD (inboundWrite_keeps _ _ _ _) .rfl))
theorem execUalinkAtomic_keeps (m : LinkReq) : KeepsNext s (execUalinkAtomic m s) := by
  unfold execUalinkAtomic
  extract_lets +onlyGivenNames t
  have ht : Keeps s t := inboundNote_keeps _ _ _
  clear_value t
  split
  · extract_lets +onlyGivenNames ok u v
    have hu : Keeps t u := (drainLine_keeps _ _).trans (engineMeets_keeps _ _ _ _)
    have hv : Keeps t v := by
      refine .ite hu ?_
      split
      · exact hu.trans (performWrite_keeps _ _ _ _)
      · exact hu
    exact (keepsNext_event hv).from ht
  · exact keepsNext_next ht

/-! Cubes, and power. -/

theorem execSequencerTransition_keeps (q l : Nat) : KeepsNext s (execSequencerTransition q l s) := by
  unfold execSequencerTransition
  extract_lets -underBinder +onlyGivenNames x z e c go next
  have hg : ∀ n, Keeps s (go n) := fun n => (Keeps.of_eq (setQuad_mem _ _ _)).trans (seqEnter_keeps _ _ _)
  clear_value go
  exact keepsNext_event (.ite (.ite (hg _) (.of_eq (setQuad_mem _ _ _))) (.ite (hg _) (hg _)))
theorem execPlaneLayerStart_keeps (q l : Nat) : KeepsNext s (execPlaneLayerStart q l s) := by
  unfold execPlaneLayerStart
  split
  · exact keepsNext_next (planeStart_keeps _ _ _ _)
  · exact keepsNext_next .rfl
theorem execCubeCommandEnd_keeps (q n : Nat) : KeepsNext s (execCubeCommandEnd q n s) := by
  unfold execCubeCommandEnd
  split
  · exact keepsNext_event (cubeEnd_keeps _ _ _)
  · exact keepsNext_next .rfl
theorem execPlaneLayerEnd_keeps (q l : Nat) : KeepsNext s (execPlaneLayerEnd q l s) := by
  unfold execPlaneLayerEnd
  split
  · exact keepsNext_event (planeEnd_keeps _ _ _ _)
  · exact keepsNext_next .rfl
theorem execCubeReadEnd_keeps (q n : Nat) : KeepsNext s (execCubeReadEnd q n s) := by
  unfold execCubeReadEnd
  split
  · exact keepsNext_next (readEnd_keeps _ _ _)
  · exact keepsNext_next .rfl
theorem execLeaseGrant_keeps (q : Nat) : KeepsNext s (execLeaseGrant q s) := by
  unfold execLeaseGrant
  split
  · exact keepsNext_next (.of_eq (modQuad_mem _ _ _))
  · exact keepsNext_next .rfl
theorem execGovernorSample_keeps (q l : Nat) (temps : List Int) : KeepsNext s (execGovernorSample q l temps s) :=
  keepsNext_event ((Keeps.ite .rfl (govChange_keeps _ _ _)).same (modQuad_mem _ _ _))
theorem voltage_mem {r : Nat × State} (h : s.voltage = some r) : r.2.mem = s.mem := by
  unfold State.voltage at h
  split at h
  · cases h
  · exact Option.some.inj h ▸ rfl
theorem execDroopStart_keeps : KeepsNext s (execDroopStart s) := by
  unfold execDroopStart
  split
  · exact keepsNext_next .rfl
  next mv t h =>
    refine (keepsNext_event (Keeps.trans ?_ (announce_keeps _ _ _ _))).from (.of_eq (voltage_mem s h))
    exact .of_eq rfl
theorem execDroopEnd_keeps : KeepsNext s (execDroopEnd s) := by
  unfold execDroopEnd
  split
  · exact keepsNext_next .rfl
  next mv t h =>
    refine (keepsNext_event (Keeps.trans ?_ (announce_keeps _ _ _ _))).from (.of_eq (voltage_mem s h))
    exact .of_eq rfl
theorem execScrub_keeps (u : Nat) (bad : List Nat) : KeepsNext s (execScrub u bad s) := by
  unfold execScrub
  extract_lets -underBinder +onlyGivenNames new count soft t
  have hc : ∀ n u a, (count n u a).mem = u.mem := by
    intro n u a
    unfold count
    split
    · exact vfSat_mem _ _ _ _ _
    · rfl
  clear_value count
  have ht : Keeps s t := .of_eq ((mem_foldl _ (hc _) _ _).trans (mem_foldl _ (hc _) _ _))
  exact keepsNext_next (ht.same rfl)
theorem execCodeIndexRefill_keeps (c w : Nat) : KeepsNext s (execCodeIndexRefill c w s) := by
  unfold execCodeIndexRefill
  dsimp only
  split
  · exact keepsNext_next .rfl
  · exact keepsNext_event (.of_eq (setCore_mem _ _ _))

end
end Sys2Proof.Machine

namespace Sys2Proof.Machine

/-! ### What keeps memory canonical: the events of the Dealer, and the host's commands -/

section
variable (s : State)

theorem execDealerPoll_keeps : KeepsNext s (execDealerPoll s) :=
  keepsNext_event ((Keeps.foldl _ pollQueue_keeps _ _).same (modDealer_mem _ _))
theorem execImageLoad_keeps (c : Nat) : KeepsNext s (execImageLoad c s) := by
  unfold execImageLoad
  split
  · exact keepsNext_next (loadImage_keeps _ _ _ _)
  · exact keepsNext_next .rfl
theorem launchPhase_keeps (id : Nat) : ∀ t ∈ (s.launch id).bind s.phaseArm, Keeps s t := by
  intro t ht
  obtain ⟨l, -, hl⟩ := Option.bind_eq_some_iff.1 ht
  exact phaseArm_keeps s l t hl
theorem execLeaseChange_keeps (q : Nat) : KeepsNext s (execLeaseChange q s) := by
  unfold execLeaseChange
  split
  · exact keepsNext_next (.of_eq ((modLaunch_mem _ _ _).trans (modQuad_mem _ _ _)))
  · exact keepsNext_next .rfl
theorem execPlannedCompletionDeadline_keeps (n : Nat) : KeepsNext s (execPlannedCompletionDeadline n s) := by
  unfold execPlannedCompletionDeadline
  split
  · exact keepsNext_event (.of_eq (slipUnits_mem _ _ _))
  · exact keepsNext_next .rfl
theorem execCommStepEnd_keeps (id : Nat) : KeepsNext s (execCommStepEnd id s) := by
  unfold execCommStepEnd
  split
  · exact keepsNext_next (.of_eq (commOver_mem _ _ _ _ _))
  · exact keepsNext_next .rfl
theorem execHaltComplete_keeps (g : Nat) : KeepsNext s (execHaltComplete g s) :=
  .ite (keepsNext_next (.of_eq (unwind_mem _ _))) (keepsNext_event (.of_eq ((freeSlot_mem _ _).trans (disown_mem _ _))))
theorem execStacqGrant_keeps (t n : Nat) : KeepsNext s (execStacqGrant t n s) := by
  unfold execStacqGrant
  dsimp only
  split
  · exact keepsNext_next (.of_eq ((modTower_mem _ _ _).trans (modTower_mem _ _ _)))
  · exact keepsNext_next .rfl
theorem execLaunchRetire_keeps (id : Nat) : KeepsNext s (execLaunchRetire id s) := by
  unfold execLaunchRetire
  split
  · exact keepsNext_event (retireLaunch_keeps _ _ _)
  · exact keepsNext_next .rfl
theorem execContextRestore_keeps (g h : Nat) : KeepsNext s (execContextRestore g h s) := by
  unfold execContextRestore
  split
  · exact keepsNext_event (bringBack_keeps _ _ _ _ _)
  · exact keepsNext_next .rfl
theorem execSyscRequest_keeps : KeepsNext s (execSyscRequest s) := by
  unfold execSyscRequest
  split
  · exact keepsNext_next (takeSysc_keeps _ _ _ _)
  · exact keepsNext_next .rfl
theorem execFaultRecord_keeps : KeepsNext s (execFaultRecord s) := by
  unfold execFaultRecord
  split
  · exact keepsNext_event ((Keeps.of_eq (modDealer_mem _ _)).trans (settle_keeps _ _))
  · exact keepsNext_next .rfl

/-! The host's commands: at once, or begun and ended later. -/

theorem atOnce_keepsNext {s : State} (c : QueueCmd) (code : Nat) {f : State → State × Nat} (h : ∀ t, Keeps t (f t).1) :
    KeepsNext s (s.atOnce c code f) :=
  keepsNext_event (.ite ((h s).trans (retire_keeps _ _ _)) (retire_keeps _ _ _))
theorem inTwo_keepsNext {s : State} (c : QueueCmd) (code : Nat) {start : State → Option State} {fin : State → Option (State × Nat)}
    (hs : ∀ t, ∀ u ∈ start t, Keeps t u) (hf : ∀ t, ∀ r ∈ fin t, Keeps t r.1) : KeepsNext s (s.inTwo c code start fin) := by
  unfold State.inTwo
  refine .ite (keepsNext_next .rfl) (.ite ?_ (.ite ?_ (keepsNext_next (retire_keeps _ _ _))))
  · split
    next t st h => exact keepsNext_next ((hf s (t, st) h).trans (retire_keeps _ _ _))
    next => exact keepsNext_next .rfl
  · split
    next t h => exact keepsNext_next (.ite (hs s t h) ((hs s t h).same (underWay_mem _ _ _)))
    next => exact keepsNext_next (retire_keeps _ _ _)
theorem refuse_keeps : Keeps s (refuse s).1 := .rfl
theorem doneIf_keeps {s t : State} {b : Bool} (h : Keeps s t) : Keeps s (doneIf b s t).1 := by
  cases b
  · exact .rfl
  · exact h
theorem execMapq_keeps (c : QueueCmd) : KeepsNext s (execMapq c s) := by
  refine atOnce_keepsNext _ _ fun t => ?_
  split
  · exact (dealerMet_keeps _ _ _).trans (mapQueue_keeps _ _ _ _)
  · exact refuse_keeps _
theorem execUnmapq_keeps (c : QueueCmd) : KeepsNext s (execUnmapq c s) := by
  refine .ite (keepsNext_next ((retire_keeps _ _ _).trans (unmapQueue_keeps _ _))) (inTwo_keepsNext _ _ (fun t u hu => ?_) fun t r hr => ?_)
  · obtain ⟨n, -, rfl⟩ := Option.map_eq_some_iff.1 hu
    exact .of_eq (setQueue_mem _ _ _)
  · split at hr
    · split at hr
      · exact Option.some.inj hr ▸ .rfl
      split at hr
      · exact Option.some.inj hr ▸ unmapQueue_keeps _ _
      · cases hr
    · exact Option.some.inj hr ▸ .rfl
theorem execPartwrite_keeps (c : QueueCmd) : KeepsNext s (execPartwrite c s) := by
  refine atOnce_keepsNext _ _ fun t => ?_
  split
  · exact doneIf_keeps (((dealerMet_keeps _ _ _).same (modVf_mem _ _ _)).trans (loadTables_keeps _ _))
  · exact refuse_keeps _
theorem execRangeload_keeps (c : QueueCmd) : KeepsNext s (execRangeload c s) := by
  refine atOnce_keepsNext _ _ fun t => ?_
  split
  · exact doneIf_keeps (loadTables_keeps _ _)
  · exact refuse_keeps _
theorem execWalkinv_keeps (c : QueueCmd) : KeepsNext s (execWalkinv c s) := by
  refine atOnce_keepsNext _ _ fun t => ?_
  split
  · exact (dealerMet_keeps _ _ _).same (modVf_mem _ _ _)
  · exact refuse_keeps _
theorem execPreempt_keeps (c : QueueCmd) : KeepsNext s (execPreempt c s) := by
  refine inTwo_keepsNext _ _ (fun t u hu => ?_) fun t r hr => ?_
  · obtain ⟨g, -, hg⟩ := Option.bind_eq_some_iff.1 hu
    split at hg
    · cases hg
    · split at hg
      · exact Option.some.inj hg ▸ .of_eq (stopLaunch_mem _ _ _)
      · exact Option.some.inj hg ▸ .of_eq rfl
  · split at hr
    · cases hr
    · exact Option.some.inj hr ▸ .rfl
theorem execResume_keeps (c : QueueCmd) : KeepsNext s (execResume c s) := by
  refine inTwo_keepsNext _ _ (fun t u hu => ?_) fun t r hr => ?_
  · obtain ⟨g, -, hg⟩ := Option.bind_eq_some_iff.1 hu
    split at hg
    · exact Option.some.inj hg ▸ .of_eq (resume_mem _ _)
    · cases hg
  · split at hr
    · cases hr
    · exact Option.some.inj hr ▸ .rfl
theorem execReexec_keeps (c : QueueCmd) : KeepsNext s (execReexec c s) := by
  refine inTwo_keepsNext _ _ (fun t u hu => ?_) fun t r hr => ?_
  · obtain ⟨g, -, hg⟩ := Option.bind_eq_some_iff.1 hu
    split at hg
    · exact redoTask_keeps t g u hg
    · cases hg
  · split at hr
    · exact Option.some.inj hr ▸ .rfl
    · cases hr
theorem execQuota_keeps (c : QueueCmd) : KeepsNext s (execQuota c s) := by
  refine atOnce_keepsNext _ _ fun t => ?_
  split
  · exact doneIf_keeps (.of_eq (modVf_mem _ _ _))
  · exact refuse_keeps _
theorem execService_keeps (c : QueueCmd) : KeepsNext s (execService c s) := atOnce_keepsNext _ _ fun _ => doneIf_keeps (.of_eq (modDealer_mem _ _))
theorem execSvcreg_keeps (c : QueueCmd) : KeepsNext s (execSvcreg c s) := by
  refine atOnce_keepsNext _ _ fun t => ?_
  dsimp only
  split
  · exact refuse_keeps _
  split
  · exact doneIf_keeps (.of_eq (modVf_mem _ _ _))
  · exact .of_eq (modVf_mem _ _ _)
theorem execSvcreply_keeps (c : QueueCmd) : KeepsNext s (execSvcreply c s) := by
  refine atOnce_keepsNext _ _ fun t => ?_
  dsimp only
  split
  · exact refuse_keeps _
  split
  · exact modSysc_keeps _ _ _ _ _
  · exact refuse_keeps _
theorem execBist_keeps (c : QueueCmd) : KeepsNext s (execBist c s) := by
  unfold execBist
  extract_lets -underBinder +onlyGivenNames w m set
  refine inTwo_keepsNext _ _ (fun t u hu => ?_) fun t r hr => ?_
  · dsimp only at hu
    split at hu
    · exact Option.some.inj hu ▸ .of_eq (underWay_mem _ _ _)
    · cases hu
  · split at hr
    · exact Option.some.inj hr ▸ bistCut_keeps _ _ _
    split at hr
    · exact Option.some.inj hr ▸ bist_keeps _ _ _ _
    · cases hr
theorem execAttest_keeps (c : QueueCmd) : KeepsNext s (execAttest c s) :=
  atOnce_keepsNext _ _ fun _ => doneIf_keeps ((dealerMet_keeps _ _ _).trans (dealerWrites_keeps _ _ _ _ _))
theorem execKeyprov_keeps (c : QueueCmd) : KeepsNext s (execKeyprov c s) := atOnce_keepsNext _ _ fun _ => doneIf_keeps (.of_eq (modDealer_mem _ _))
theorem execCheckpoint_keeps (c : QueueCmd) : KeepsNext s (execCheckpoint c s) := by
  refine inTwo_keepsNext _ _ (fun t u hu => ?_) fun t => endTransfer_keeps _ _ _ _ fun _ _ => putHeader_keeps _ _ _ _ _
  obtain ⟨a, -, rfl⟩ := Option.map_eq_some_iff.1 hu
  exact (header_keeps _ _ _).same (underWay_mem _ _ _)
theorem execRestore_keeps (c : QueueCmd) : KeepsNext s (execRestore c s) := by
  refine inTwo_keepsNext _ _ (fun t u hu => ?_) fun t => endTransfer_keeps _ _ _ _ fun _ _ => .rfl
  obtain ⟨a, -, ha⟩ := Option.bind_eq_some_iff.1 hu
  dsimp only at ha
  split at ha
  · exact Option.some.inj ha ▸ .of_eq (underWay_mem _ _ _)
  · cases ha
theorem execFlr_keeps (c : QueueCmd) : KeepsNext s (execFlr c s) := by
  refine inTwo_keepsNext _ _ (fun t u hu => ?_) fun t r hr => ?_
  · obtain ⟨v, -, hv⟩ := Option.bind_eq_some_iff.1 hu
    split at hv
    · cases hv
    · exact Option.some.inj hv ▸ .ite .rfl (beginReset_keeps _ _ _)
  · split at hr
    · split at hr
      · exact Option.some.inj hr ▸ finishReset_keeps _ _ _
      · cases hr
    · exact Option.some.inj hr ▸ .rfl
theorem execKill_keeps (c : QueueCmd) : KeepsNext s (execKill c s) := by
  refine inTwo_keepsNext _ _ (fun t u hu => ?_) fun t r hr => ?_
  · obtain ⟨g, -, hg⟩ := Option.bind_eq_some_iff.1 hu
    split at hg
    · cases hg
    · obtain ⟨id, -, hid⟩ := Option.bind_eq_some_iff.1 hg
      obtain ⟨l, -, rfl⟩ := Option.map_eq_some_iff.1 hid
      exact .ite ((killLaunch_keeps _ _ _).trans (beginReset_keeps _ _ _)) (killLaunch_keeps _ _ _)
  · split at hr
    · split at hr
      · exact Option.some.inj hr ▸ finishReset_keeps _ _ _
      · cases hr
    · split at hr
      · cases hr
      · exact Option.some.inj hr ▸ .rfl

/-! The window. -/

theorem ringBell_keepsNext (f : Option Nat) (desc t : Nat) : KeepsNext s (s.ringBell f desc t) := by
  unfold State.ringBell
  refine .ite (keepsNext_next .rfl) (.ite (keepsNext_event (.of_eq (setQueue_mem _ _ _))) ?_)
  split
  · exact keepsNext_event (.of_eq (setQueue_mem _ _ _))
  · exact keepsNext_event (dealerWrite_keeps _ _ _ _)
theorem execRegisterWrite_keeps (off : HostRef) (w : Word) : KeepsNext s (execRegisterWrite off w s) :=
  keepsNext_event (.ite (.of_eq ((writeItem_mem _ _ _).trans (writeShown_mem _ _ _ _))) (.of_eq (writeShown_mem _ _ _ _)))
theorem execBringUp_keeps : KeepsNext s (execBringUp s) := keepsNext_next (.getD (bringUp_keeps s) .rfl)
end

end Sys2Proof.Machine

namespace Sys2Proof.Machine

/-! ### Every step keeps memory canonical (log entry 7) -/

/-- Every instruction and every event keeps memory canonical. -/
theorem exec_keepsNext (i : Instr) (s : State) : KeepsNext s (exec i s) := by
  cases i with
  | nop _ => exact execNop_keeps _ _
  | br _ | ret _ => dsimp only [exec]; exact syl_keepsNext _ _ fun _ => goto_keepsTo _ _
  | bc _ => exact execBc_keeps _ _
  | call _ => exact execCall_keeps _ _
  | loop _ => exact execLoop_keeps _ _
  | jt _ => exact execJt_keeps _ _
  | bsel _ => exact execBsel_keeps _ _
  | halt _ => exact execHalt_keeps _ _
  | trap _ => exact execTrap_keeps _ _
  | sysc _ => exact execSysc_keeps _ _
  | rdcr _ | rdid _ | rdtick _ | rdgov _ | mov _ _ | ext _ _ | ins _ _ | cmp _ _ | cmpI _ _ | sel _ _ | li _ _ | lih _ _ | ffma _ _
  | fcvt _ _ | fabs _ _ | fneg _ _ => dsimp only [exec]; exact syl_keepsNext _ _ fun _ => giveWord_keepsTo _ _ _ _ _
  | wrcr _ => exact execWrcr_keeps _ _
  | rdctr _ => dsimp only [exec]; exact syl_keepsNext _ _ fun _ => .check fun _ _ => giveWord_keepsTo _ _ _ _ _
  | fence _ => exact execFence_keeps _ _
  | mod _ => exact execMod_keeps _ _
  | bar _ => exact execBar_keeps _ _
  | flagwait _ => exact execFlagwait_keeps _ _
  | evwait _ | clease _ => dsimp only [exec]; exact syl_keepsNext _ _ fun _ => .check fun _ _ => keepsTo_ok .rfl
  | bcwait _ => exact execBcwait_keeps _ _
  | tkwait _ | tkset _ => dsimp only [exec]; exact syl_keepsNext _ _ fun _ => .check fun _ _ => keepsTo_of_mem (put_mem _ _ _ _ _)
  | stacq _ => exact execStacq_keeps _ _
  | strel _ => exact execStrel_keeps _ _
  | crel _ => dsimp only [exec]; exact syl_keepsNext _ _ fun _ => .ite (keepsTo_ok .rfl) (keepsTo_of_mem rfl)
  | evpop _ | evpeek _ => dsimp only [exec]; exact syl_keepsNext _ _ fun _ => keepsTo_of_mem (giveEvent_mem _ _)
  | add _ _ | sub _ _ | and _ _ | or _ _ | xor _ _ | andn _ _ | min _ _ | max _ _ | minu _ _ | maxu _ _ | mul _ _ | mulh _ _
  | mulhu _ _ | div _ _ | divu _ _ | rem _ _ | remu _ _ => dsimp only [exec]; exact intFR_keepsNext _ _ _ _ _
  | addI _ _ | subI _ _ | andI _ _ | orI _ _ | xorI _ _ | andnI _ _ | minI _ _ | maxI _ _ | minuI _ _ | maxuI _ _ | mulI _ _ =>
    dsimp only [exec]; exact intFI_keepsNext _ _ _ _ _
  | shl _ _ | shr _ _ | sar _ _ | rol _ _ | ror _ _ => dsimp only [exec]; exact shiftFR_keepsNext _ _ _ _
  | shlI _ _ | shrI _ _ | sarI _ _ | rolI _ _ | rorI _ _ => dsimp only [exec]; exact shiftFI_keepsNext _ _ _ _
  | madd _ _ | maddI _ _ | bswap _ _ => dsimp only [exec]; exact syl_keepsNext _ _ fun _ => giveInt_keepsTo _ _ _ _ _ _ _
  | clz _ _ | ctz _ _ | popc _ _ => dsimp only [exec]; exact countFR_keepsNext _ _ _ _
  | movx _ _ => dsimp only [exec]; exact syl_keepsNext _ _ fun _ => .ite (giveWord_keepsTo _ _ _ _ _) (keepsTo_of_mem (put_mem _ _ _ _ _))
  | fadd _ _ | fsub _ _ | fmul _ _ | fmin _ _ | fmax _ _ | fcmp _ _ => dsimp only [exec]; exact floatFR_keepsNext _ _ _ _ _
  | faddI _ _ | fsubI _ _ | fmulI _ _ | fminI _ _ | fmaxI _ _ | fcmpI _ _ => dsimp only [exec]; exact floatFI_keepsNext _ _ _ _ _
  | vadd _ _ | vsub _ _ | vmul _ _ | vmin _ _ | vmax _ _ | vand _ _ | vor _ _ | vxor _ _ | vshl _ _ | vshr _ _ | vsar _ _ =>
    dsimp only [exec]; exact tile2_keepsNext _ _ _ _ _ _
  | vaddI _ _ | vsubI _ _ | vmulI _ _ | vminI _ _ | vmaxI _ _ | vandI _ _ | vorI _ _ | vxorI _ _ | vshlI _ _ | vshrI _ _ | vsarI _ _ =>
    dsimp only [exec]; exact tileI_keepsNext _ _ _ _ _ _
  | vfma _ _ | vmadd _ _ => dsimp only [exec]; exact tile3_keepsNext _ _ _ _ _ _
  | vdot4 _ _ | vsel _ _ => dsimp only [exec]; exact syl_keepsNext _ _ fun _ => each_keepsTo _ _ _ _ _ _ _ _
  | vabs _ _ | vneg _ _ | vnot _ _ | vpopc _ _ | vclz _ _ | vsat _ _ | vrnd _ _ | vrcp _ _ | vrsq _ _ | vsqrt _ _ | vexp2 _ _
  | vlog2 _ _ | vtanh _ _ | vsig _ _ => dsimp only [exec]; exact tile1_keepsNext _ _ _ _ _ _
  | vcmp _ _ | vcmpI _ _ => dsimp only [exec]; exact syl_keepsNext _ _ fun _ => compareTile_keepsTo _ _ _ _ _ _ _ _ _ _
  | vclmul _ _ => exact execVclmul_keeps _ _ _
  | vcvt _ _ | vwid _ _ | vnar _ _ => dsimp only [exec]; exact convForm_keepsNext _ _ _ _ _ _
  | vcbdec _ _ => exact execVcbdec_keeps _ _ _
  | vscale _ _ => exact execVscale_keeps _ _ _
  | vredsum _ _ | vredmax _ _ | vredmin _ _ => dsimp only [exec]; exact reduce_keepsNext _ _ _ _ _ _
  | vperm _ _ | vshuf _ _ | vbcast _ _ | vext _ _ | vtrn _ _ => dsimp only [exec]; exact permute_keepsNext _ _ _ _ _ _ _
  | xcp _ _ => dsimp only [exec]; exact syl_keepsNext _ _ fun _ => keepsTo_of_mem (putV_mem _ _ _ _ _ _)
  | vandM _ _ | vorM _ _ | vxorM _ _ | vnotM _ _ => dsimp only [exec]; exact maskForm_keepsNext _ _ _ _ _
  | ldS _ => exact execLdS_keeps _ _
  | ldT _ => exact execLdT_keeps _ _
  | stS _ => exact execStS_keeps _ _
  | stT _ => exact execStT_keeps _ _
  | ldx _ | stx _ | stxAdd _ => dsimp only [exec]; exact indexed_keepsNext _ _ _ _
  | dcopy _ => exact execDcopy_keeps _ _
  | dcopyCsum _ => exact execDcopyCsum_keeps _ _
  | rst _ => exact execRst_keeps _ _
  | rld _ => exact execRld_keeps _ _
  | amoAdd _ | amoAnd _ | amoOr _ | amoXor _ | amoMin _ | amoMax _ | amoSwap _ | amoCas _ => dsimp only [exec]; exact amo_keepsNext _ _ _
  | redAdd _ | redAnd _ | redOr _ | redXor _ | redMin _ | redMax _ | redFadd _ => dsimp only [exec]; exact red_keepsNext _ _ _
  | kalloc _ | kallocM _ => dsimp only [exec]; exact poolAlloc_keepsNext _ _ _
  | kfree _ | kquery _ => dsimp only [exec]; exact syl_keepsNext _ _ fun _ => .check fun _ _ => .check fun _ _ => toRemote_keepsTo _ _
  | tacq _ => exact execTacq_keeps _ _
  | trel _ => exact execTrel_keeps _ _
  | sbind _ => exact execSbind_keeps _ _
  | sunbind _ | sstat _ | cspop _ => dsimp only [exec]; exact syl_keepsNext _ _ fun _ => .check fun _ _ => toRemote_keepsTo _ _
  | cspush _ => exact execCspush_keeps _ _
  | cmm _ | cmmz _ | cconv _ => dsimp only [exec]; exact syl_keepsNext _ _ fun _ => product_keepsTo _ _ _
  | cplane _ => exact execCplane_keeps _ _
  | csmeta _ => exact execCsmeta_keeps _ _
  | cfill _ => exact execCfill_keeps _ _
  | cswap _ => exact execCswap_keeps _ _
  | crdacc _ => exact execCrdacc_keeps _ _
  | cwracc _ => exact execCwracc_keeps _ _
  | cdrain _ => exact execCdrain_keeps _ _
  | ckat _ => exact execCkat_keeps _ _
  | cseq _ => exact execCseq_keeps _ _
  | cstat _ => exact execCstat_keeps _ _
  | cbist _ => exact execCbist_keeps _ _
  | trigArm _ => exact execTrigArm_keeps _ _
  | trigCancel _ => exact execTrigCancel_keeps _ _
  | bcarm _ => exact execBcarm_keeps _ _
  | registerResultLanding _ | leaseRunEnd _ | peerTimeout _ | droopcfgWrite _ | govcfgWrite _ _ | vmarginWrite _ _ | lmarginStart _ _
  | eyeMeasurementEnd _ _ => dsimp only [exec]; exact keepsNext_event (.of_eq rfl)
  | codeIndexRefill _ _ => exact execCodeIndexRefill_keeps _ _ _
  | haltComplete _ => exact execHaltComplete_keeps _ _
  | copyEngineDispatch _ => exact execCopyEngineDispatch_keeps _ _
  | engineTranslationFault _ => exact execEngineTranslationFault_keeps _ _
  | copyCommandEnd _ => exact execCopyCommandEnd_keeps _ _
  | remoteEngineDispatch _ => exact execRemoteEngineDispatch_keeps _ _
  | remoteCommandEnd _ _ => exact execRemoteCommandEnd_keeps _ _ _
  | cspushAccept _ => exact execCspushAccept_keeps _ _
  | cspopDelivery _ _ => exact execCspopDelivery_keeps _ _ _
  | streamTileFetch _ _ => exact execStreamTileFetch_keeps _ _ _
  | streamTileLand _ _ => exact execStreamTileLand_keeps _ _ _
  | streamTileTake _ _ => exact execStreamTileTake_keeps _ _ _
  | streamEnd _ _ => dsimp only [exec]; exact keepsNext_event (endStream_keeps _ _ _ _)
  | writeQueueApply _ => exact execWriteQueueApply_keeps _ _
  | cubeCommandDispatch _ => dsimp only [exec]; exact keepsNext_next (.getD (cubeDispatch_keeps _ _) .rfl)
  | planeLayerStart _ _ => exact execPlaneLayerStart_keeps _ _ _
  | planeLayerEnd _ _ => exact execPlaneLayerEnd_keeps _ _ _
  | cubeCommandEnd _ _ => exact execCubeCommandEnd_keeps _ _ _
  | cubeCommandStop _ => dsimp only [exec]; exact keepsNext_event (.of_eq (stopCube_mem _ _))
  | cubeRecovery _ _ _ => dsimp only [exec]; exact keepsNext_event (recover_keeps _ _ _ _)
  | cubeReadEnd _ _ => exact execCubeReadEnd_keeps _ _ _
  | sequencerTransition _ _ => exact execSequencerTransition_keeps _ _ _
  | leaseGrant _ => exact execLeaseGrant_keeps _ _
  | stacqGrant _ _ => exact execStacqGrant_keeps _ _ _
  | barrierCompletion _ => dsimp only [exec]; exact keepsNext_event (.of_eq (barComplete_mem _ _))
  | plannedCompletionDeadline _ => exact execPlannedCompletionDeadline_keeps _ _
  | commStepEnd _ => exact execCommStepEnd_keeps _ _
  | engineArmTick _ => dsimp only [exec]; exact keepsNext_next (.getD (armTick_keeps _ _) .rfl)
  | governorSample _ _ _ => exact execGovernorSample_keeps _ _ _ _
  | governorStepChange _ => dsimp only [exec]; exact keepsNext_event (govChange_keeps _ _ _)
  | droopStart => exact execDroopStart_keeps _
  | droopEnd => exact execDroopEnd_keeps _
  | scrub _ _ => exact execScrub_keeps _ _ _
  | kittySwitchLoss _ => exact execKittySwitchLoss_keeps _ _
  | fwrite _ => exact execFwrite_keeps _ _
  | flaginc _ => dsimp only [exec]; exact keepsNext_event (.of_eq (countBytes_mem _ _ _))
  | poolreq _ => exact execPoolreq_keeps _ _
  | poolrsp _ => exact execPoolrsp_keeps _ _
  | tokreq _ => exact execTokreq_keeps _ _
  | tokgrant _ => exact execTokgrant_keeps _ _
  | tokrecall _ => exact execTokrecall_keeps _ _
  | loss _ => exact execLoss_keeps _ _
  | trigarr _ => dsimp only [exec]; exact keepsNext_event (portIncrement_keeps _ _ _ _ _ _)
  | lineadd _ => exact execLineadd_keeps _ _
  | ualinkRead _ => exact execUalinkRead_keeps _ _
  | ualinkWrite _ => exact execUalinkWrite_keeps _ _
  | ualinkAtomic _ => exact execUalinkAtomic_keeps _ _
  | ualinkResponse _ => exact execUalinkResponse_keeps _ _
  | unsupportedVendorMessage _ _ => dsimp only [exec]; exact keepsNext_next (.of_eq (vfSat_mem _ _ _ _ _))
  | launch _ => dsimp only [exec]; exact keepsNext_event (acceptLaunch_keeps _ _)
  | nopCmd _ => dsimp only [exec]; exact keepsNext_event (retire_keeps _ _ _)
  | phaseArm _ => dsimp only [exec]; exact keepsNext_next (.getD (launchPhase_keeps _ _) .rfl)
  | imageLoad _ => exact execImageLoad_keeps _ _
  | launchRetire _ => exact execLaunchRetire_keeps _ _
  | dealerPoll => exact execDealerPoll_keeps _
  | syscRequest => exact execSyscRequest_keeps _
  | faultRecord => exact execFaultRecord_keeps _
  | preemption _ => dsimp only [exec]; exact keepsNext_next (.ite (.of_eq (preemptNow_mem _ _)) (.getD (giveWay_keeps _ _) .rfl))
  | saveFrameWrite _ => dsimp only [exec]; exact keepsNext_event (save_keeps _ _)
  | contextRestore _ _ => exact execContextRestore_keeps _ _ _
  | mapq _ => exact execMapq_keeps _ _
  | unmapq _ => exact execUnmapq_keeps _ _
  | partwrite _ => exact execPartwrite_keeps _ _
  | rangeload _ => exact execRangeload_keeps _ _
  | walkinv _ => exact execWalkinv_keeps _ _
  | preempt _ => exact execPreempt_keeps _ _
  | resume _ => exact execResume_keeps _ _
  | kill _ => exact execKill_keeps _ _
  | reexec _ => exact execReexec_keeps _ _
  | flr _ => exact execFlr_keeps _ _
  | quota _ => exact execQuota_keeps _ _
  | bist _ => exact execBist_keeps _ _
  | attest _ => exact execAttest_keeps _ _
  | keyprov _ => exact execKeyprov_keeps _ _
  | service _ => exact execService_keeps _ _
  | checkpoint _ => exact execCheckpoint_keeps _ _
  | restore _ => exact execRestore_keeps _ _
  | svcreg _ => exact execSvcreg_keeps _ _
  | svcreply _ => exact execSvcreply_keeps _ _
  | doorbell _ _ => dsimp only [exec]; exact ringBell_keepsNext _ _ _ _
  | counterClear _ _ _ => dsimp only [exec]; exact keepsNext_event (.of_eq (clearCounter_mem _ _ _ _))
  | zeroiseWrite _ => dsimp only [exec]; exact keepsNext_next (.of_eq (putZeroise_mem _ _))
  | registerWrite _ _ => exact execRegisterWrite_keeps _ _ _
  | tamper | glitch | fwsig | mgmt => dsimp only [exec]; exact keepsNext_next (alarm_keeps _ _)
  | powerOnReset => dsimp only [exec]; exact keepsNext_next (boot_keeps _ _ _)
  | leaseChange _ => exact execLeaseChange_keeps _ _
  | pcieFailure => dsimp only [exec]; exact keepsNext_next (.of_eq (modDealer_mem _ _))
  | hbmApertureWrite _ _ => dsimp only [exec]; exact keepsNext_event (portWrite_keeps _ _ _ _)
end Sys2Proof.Machine

namespace Sys2Proof.Machine

/-! ### What is due is a meaning: what every meaning has, it has (R34) -/

/-- Whatever is due has the property. -/
def DueAll (P : (State → Out) → Prop) (d : Due) : Prop := ∀ f, d = some f → P f

section
variable {P : (State → Out) → Prop}

theorem dueAll_none : DueAll P none := fun _ h => nomatch h
theorem dueAll_some {f : State → Out} (h : P f) : DueAll P (some f) := fun _ e => Option.some.inj e ▸ h
theorem dueAll_map {α : Type} (o : Option α) {f : α → State → Out} (h : ∀ a, P (f a)) : DueAll P (o.map f) := by
  cases o with
  | none => exact dueAll_none
  | some a => exact dueAll_some (h a)
theorem dueAll_ite {p : Prop} [Decidable p] {d e : Due} (hd : DueAll P d) (he : DueAll P e) : DueAll P (if p then d else e) := by
  split
  · exact hd
  · exact he
theorem dueAll_when {p : Prop} [Decidable p] {f : State → Out} (h : P f) : DueAll P (if p then some f else none) :=
  dueAll_ite (dueAll_some h) dueAll_none
theorem dueAll_findSome {α : Type} {g : α → Due} {l : List α} (h : ∀ a ∈ l, DueAll P (g a)) : DueAll P (l.findSome? g) := by
  intro f hf
  obtain ⟨a, ha, hg⟩ := List.exists_of_findSome?_eq_some hf
  exact h a ha f hg
theorem dueAll_firstDue {l : List (Unit → Due)} (h : ∀ f ∈ l, DueAll P (f ())) : DueAll P (firstDue l) := dueAll_findSome h

variable (hx : ∀ i, P (exec i))
include hx

theorem dueLanding_all (s : State) : DueAll P s.dueLanding := dueAll_map _ fun e => hx (.registerResultLanding e.1)
theorem dueWrite_all (s : State) : DueAll P s.dueWrite := dueAll_map _ fun e => hx (.writeQueueApply e.n)
theorem dueStreamAt_all (s : State) (h n : Nat) : DueAll P (s.dueStreamAt h n) := by
  unfold State.dueStreamAt
  dsimp only
  refine dueAll_ite dueAll_none (dueAll_ite (dueAll_some (hx (.streamEnd h n)))
    (dueAll_ite (dueAll_some (hx (.streamTileLand h n))) (dueAll_ite (dueAll_some (hx (.streamTileTake h n)))
      (dueAll_ite dueAll_none ?_))))
  split
  next a _ =>
    refine dueAll_some ?_
    split
    · exact hx (.engineTranslationFault (.stream h n))
    · split
      · exact hx (.streamTileTake h n)
      · exact hx (.streamTileFetch h n)
  next => exact dueAll_none
theorem dueCopyAt_all (s : State) (q : Nat) : DueAll P (s.dueCopyAt q) := by
  unfold State.dueCopyAt
  dsimp only
  split
  next a _ =>
    refine dueAll_some ?_
    split
    · exact hx (.engineTranslationFault (.copy q))
    · exact hx (.copyCommandEnd q)
  next => exact dueAll_when (hx (.copyEngineDispatch q))
theorem dueRemoteAt_all (s : State) (c : Nat) (x : Core) : DueAll P (s.dueRemoteAt c x) := by
  unfold State.dueRemoteAt
  extract_lets loose
  have hl : DueAll P loose := dueAll_findSome fun k _ => dueAll_ite (dueAll_some (hx (.remoteCommandEnd c k.serial)))
    (dueAll_ite (dueAll_some (hx (.poolreq ⟨c, k.serial⟩))) (dueAll_when (hx (.ualinkResponse _))))
  clear_value loose
  cases loose with
  | some i => exact hl
  | none => exact dueAll_ite (dueAll_some (hx (.cspushAccept c))) (dueAll_when (hx (.remoteEngineDispatch c)))
theorem dueFabric_all (s : State) : DueAll P s.dueFabric := by
  unfold State.dueFabric
  split
  next t _ => exact dueAll_some (hx (.kittySwitchLoss (t.2 - 2 ^ 17)))
  next =>
    split
    next t _ => exact dueAll_some (hx (.peerTimeout (t.2 - 2 ^ 16)))
    next =>
      split
      next i hi =>
        have hc : DueAll P (s.cores.findSome? fun e => s.dueRemoteAt e.1 e.2) := dueAll_findSome fun e _ => dueRemoteAt_all hx s e.1 e.2
        exact dueAll_some (hc i hi)
      next => exact dueAll_findSome fun q _ => dueAll_findSome fun b _ => dueAll_when (hx (.cspopDelivery q b))
theorem dueCubeAt_all (s : State) (q : Nat) : DueAll P (s.dueCubeAt q) := by
  refine dueAll_findSome ?_
  simp only [List.forall_mem_cons, List.not_mem_nil, false_imp_iff, implies_true, and_true, id_eq]
  refine ⟨dueAll_ite dueAll_none (dueAll_some (hx (.governorStepChange q))),
    dueAll_map _ fun e => hx (.cubeRecovery q e.1 e.2),
    dueAll_findSome fun l _ => dueAll_map _ fun _ => hx (.planeLayerEnd q l),
    dueAll_map _ fun r => hx (.cubeCommandEnd q r.cmd.serial),
    dueAll_map _ fun i => hx (.cubeCommandStop (16 * q + i)),
    dueAll_findSome fun l _ => dueAll_when (hx (.sequencerTransition q l)),
    dueAll_findSome fun l _ => dueAll_map _ fun _ => hx (.planeLayerStart q l),
    dueAll_when (hx (.cubeCommandDispatch q)),
    dueAll_map _ fun k => hx (.cubeReadEnd q k.serial),
    dueAll_when (hx (.leaseRunEnd q)),
    dueAll_map _ fun _ => hx (.leaseGrant q)⟩
theorem duePreempt_all (s : State) : DueAll P s.duePreempt := by
  unfold State.duePreempt
  split
  next e _ => exact dueAll_some (hx (.preemption e.1))
  next =>
    split
    next e _ => exact dueAll_some (hx (.saveFrameWrite e.1))
    next =>
      refine dueAll_findSome fun v _ => dueAll_findSome fun e _ => ?_
      split
      next => exact dueAll_when (hx (.contextRestore e.1 e.1))
      next => exact dueAll_none
theorem duePolicy_all (s : State) : DueAll P s.duePolicy := by
  unfold State.duePolicy
  split
  next => exact dueAll_when (hx .faultRecord)
  next => exact dueAll_none
theorem dueLaunchAt_all (s : State) (l : Launch) : DueAll P (s.dueLaunchAt l) := by
  refine dueAll_firstDue ?_
  simp only [List.forall_mem_cons, List.not_mem_nil, false_imp_iff, implies_true, and_true]
  exact ⟨dueAll_map _ fun q => hx (.leaseChange q), dueAll_map _ fun _ => hx (.commStepEnd l.id),
    dueAll_map _ fun _ => hx (.phaseArm l.id), dueAll_map _ fun c => hx (.imageLoad c),
    dueAll_map _ fun u => hx (.engineArmTick u), dueAll_when (hx (.launchRetire l.id))⟩
theorem dueStage_all (s : State) : DueAll P s.dueStage :=
  dueAll_findSome fun t _ => dueAll_findSome fun e _ => dueAll_map _ fun _ => hx (.stacqGrant t.1 e.1)
theorem hostCommand_all (n : Nat) (c : QueueCmd) : DueAll P (hostCommand n c) := by
  unfold hostCommand
  split
  · exact dueAll_some (hx (.launch c))
  · exact dueAll_some (hx (.nopCmd c))
  · exact dueAll_some (hx (.mapq c))
  · exact dueAll_some (hx (.unmapq c))
  · exact dueAll_some (hx (.partwrite c))
  · exact dueAll_some (hx (.rangeload c))
  · exact dueAll_some (hx (.walkinv c))
  · exact dueAll_some (hx (.preempt c))
  · exact dueAll_some (hx (.resume c))
  · exact dueAll_some (hx (.kill c))
  · exact dueAll_some (hx (.reexec c))
  · exact dueAll_some (hx (.flr c))
  · exact dueAll_some (hx (.quota c))
  · exact dueAll_some (hx (.bist c))
  · exact dueAll_some (hx (.attest c))
  · exact dueAll_some (hx (.keyprov c))
  · exact dueAll_some (hx (.service c))
  · exact dueAll_some (hx (.checkpoint c))
  · exact dueAll_some (hx (.restore c))
  · exact dueAll_some (hx (.svcreg c))
  · exact dueAll_some (hx (.svcreply c))
  · exact dueAll_none
theorem dueQueueAt_all (s : State) (n : Nat) (q : DQueue) : DueAll P (s.dueQueueAt n q) := by
  unfold State.dueQueueAt
  split
  next => exact dueAll_none
  next ix e _ =>
    intro g hg
    obtain ⟨f, hf, he⟩ := Option.bind_eq_some_iff.1 hg
    have ha : P f := hostCommand_all hx _ _ f hf
    revert he
    refine dueAll_ite (dueAll_some ha) ?_ g
    split
    next => exact dueAll_ite dueAll_none (dueAll_some ha)
    next => exact dueAll_none
theorem dueDealer_all (hb : P execBringUp) (s : State) : DueAll P s.dueDealer := by
  refine dueAll_firstDue ?_
  simp only [List.forall_mem_cons, List.not_mem_nil, false_imp_iff, implies_true, and_true]
  exact ⟨dueAll_map _ fun _ => hb, dueAll_map _ fun n => hx (.barrierCompletion n),
    dueAll_map _ fun e => hx (.haltComplete e.1), dueStage_all hx s, dueAll_findSome fun l _ => dueLaunchAt_all hx s l,
    dueAll_map _ fun n => hx (.plannedCompletionDeadline n), duePolicy_all hx s, duePreempt_all hx s,
    dueAll_map _ fun _ => hx .syscRequest, dueAll_when (hx .dealerPoll),
    dueAll_findSome fun q _ => dueQueueAt_all hx s q.1 q.2⟩
/-- What every meaning has, the event that is due has. -/
theorem dueEvent_all (hb : P execBringUp) (s : State) : DueAll P s.dueEvent := by
  refine dueAll_firstDue ?_
  simp only [List.forall_mem_cons, List.not_mem_nil, false_imp_iff, implies_true, and_true]
  exact ⟨dueLanding_all hx s, dueWrite_all hx s, dueAll_findSome fun x _ => dueStreamAt_all hx s x.1 x.2.1,
    dueAll_findSome fun e _ => dueCopyAt_all hx s e.1, dueFabric_all hx s, dueAll_findSome fun e _ => dueCubeAt_all hx s e.1,
    dueDealer_all hx hb s⟩
end

/-! ### An attempt, and a step -/

theorem issueAll_keepsNext (b : List Instr) (s : State) : KeepsNext s (issueAll b s) := by
  induction b generalizing s with
  | nil => exact keepsNext_next .rfl
  | cons i rest ih =>
    obtain ⟨t, ht⟩ := exec_next i s
    have hk : Keeps s t := exec_keepsNext i s t ht
    rw [issueAll_cons i rest s t ht]
    exact .ite (keepsNext_next hk) ((ih t).from hk)
theorem issueBundle_keepsNext (s : State) (g : Nat) : KeepsNext s (s.issueBundle g) := by
  unfold State.issueBundle
  extract_lets -underBinder +onlyGivenNames base
  have hb : Keeps s base := .of_eq rfl
  clear_value base
  split
  next c _ =>
    have hm : Keeps s (if c = 0x04 then base.vfSat base.me.vfid 0x11 0 1 else base) := .ite (hb.same (vfSat_mem _ _ _ _ _)) hb
    exact keepsNext_next (hm.same ((takeFault_mem _ _).trans (issueMet_mem _ _ _)))
  next w lit _ =>
    split
    · exact fun _ e => nomatch e
    next b _ =>
      refine .ite (fun _ e => nomatch e) ?_
      have hi : KeepsNext s (issueAll b { base with issue := { literal := lit } }) := (issueAll_keepsNext b _).from (hb.same rfl)
      split
      next t ht =>
        have hk : Keeps s t := hi t ht
        split
        · exact keepsNext_next ((hb.trans (faultMet_keeps _ _ _)).same ((slipTaken_mem _ _).trans (takeFault_mem _ _)))
        · exact keepsNext_next (hb.same ((blockEffect_mem _ _).trans (issueMet_mem _ _ _)))
        · exact keepsNext_next (commit_keeps hb hk)
      next => exact hi
theorem attempt_keepsNext (s : State) (g : Nat) : KeepsNext s (s.attempt g) :=
  (issueBundle_keepsNext (s.onTry g) g).from (.of_eq rfl)
theorem agendaHead_mem {s t : State} {i : Instr} (h : s.agendaHead = some (i, t)) : t.mem = s.mem := by
  obtain ⟨x, -, hx⟩ := Option.map_eq_some_iff.1 h
  cases hx
  rfl
/-- A step: an event of the outside world, an event that is due, an attempt, or the end of the tick. -/
theorem step_keepsNext (s : State) : KeepsNext s (step s) := by
  unfold step
  split
  next i t h => exact .ite (fun _ e => nomatch e) ((exec_keepsNext i t).from (.of_eq (agendaHead_mem h)))
  split
  next f hf =>
    have hk : ∀ t, KeepsNext t (f t) := dueEvent_all (P := fun f => ∀ t, KeepsNext t (f t)) exec_keepsNext execBringUp_keeps s f hf
    exact (hk _).from (.of_eq rfl)
  split
  · exact attempt_keepsNext _ _
  · exact keepsNext_next (tickOver_keeps _)

end Sys2Proof.Machine

namespace Sys2Proof.Claims
open Sys2Proof.Machine

/-- Settles O58: each instruction, each event, each attempt and the end of the tick keep memory canonical. -/
theorem stepsKeepMemoryCanonical : Obligations.StepsKeepMemoryCanonical := fun s t hs h => step_keepsNext s t h hs

end Sys2Proof.Claims

namespace Sys2Proof.Machine

/-! ### A remote access at issue: its order, its walks and its queue (R58, R286, R321) -/

theorem takeClasses_aside (s : State) (m : Nat) : (s.takeClasses m).aside = s.aside := by
  unfold State.takeClasses
  split <;> rfl
/-- The order of an access leaves everything but the context and the lines in the cache. -/
theorem ordered_aside {s t : State} {m : Mods} (h : s.ordered m = .ok t) : t.aside = s.aside := by
  rcases ordered_cases s m with ⟨fx, he⟩ | ⟨-, ⟨-, he⟩ | ⟨-, -, he⟩⟩ <;> rw [h] at he
  · cases he
  · obtain rfl := Except.ok.inj he
    exact takeClasses_aside _ _
  · obtain rfl := Except.ok.inj he
    exact (podRelease_aside _ _).trans ((takeClasses_aside _ _).trans (takeClasses_aside _ _))
theorem fillWalks_aside (s : State) (l : List (Word × Xlate)) : (s.fillWalks l).aside = s.aside :=
  foldl_same State.aside _ (fun _ _ => fillWalkFor_aside _ _ _ _) _ _
/-- Room in the remote engine's queue is room whatever the walks and the order of the access have changed. -/
theorem toRemote_of_aside {s t : State} (h : t.aside = s.aside) (hq : Claims.remoteRoom s) (k : Cmd) :
    t.toRemote k = .ok ((t.issued k).modCore (coreOf t.cur) fun c => { c with remq := c.remq ++ [k] }) := by
  have hcur : t.cur = s.cur := (congrArg State.cur h :)
  have hcores : t.cores = s.cores := (congrArg State.cores h :)
  refine bind_ok (if_pos (decide_eq_true ?_)) _
  unfold State.core'
  rw [hcur, hcores]
  exact hq
/-- A syllable whose command enters the remote engine's queue behind the order of its access. -/
theorem walkedRemote_ok {s t : State} {i : Instr} {m : Mods} (hq : Claims.remoteRoom s) (ht : (s.noted i).ordered m = .ok t)
    (l : List (Word × Xlate)) (k : State → Cmd) :
    ((s.noted i).ordered m >>= fun u => (u.fillWalks l).toRemote (k u)) =
      .ok (((t.fillWalks l).issued (k t)).modCore (coreOf (t.fillWalks l).cur) fun c => { c with remq := c.remq ++ [k t] }) :=
  (bind_ok ht _).trans (toRemote_of_aside ((fillWalks_aside _ _).trans (ordered_aside ht)) hq _)
end Sys2Proof.Machine

namespace Sys2Proof.Claims
open Sys2Proof.Machine

section
variable {s t : State} {o : FE} {x : Xlate} {i : Instr} (ht : tokenFree s o) (hq : remoteRoom s)
include ht hq

theorem amo_queued (hal : (s.rs o.a).toNat % (wordWidth o / 8) = 0) (hx : s.remotePart s.eff (s.rs o.a) true true false = .ok x)
    (hr : s.operandsReady i = true) (hord : (s.noted i).ordered s.eff = .ok t) :
    s.amo i o = toRemoteQueue (t.fillWalks [(s.rs o.a, x)]) { t.newCmd i o s.eff with
      sa := s.rs o.a, sb := t.rs o.b, sd := t.rs o.d, pas := [(s.rs o.a, x.pa)], dest := [⟨.s, t.spec 64 o.d⟩] } :=
  syl_ok s i _ hr ((bind_ok (alignedTo_ok hal) _).trans ((bind_ok (a := x) hx _).trans ((bind_ok (tokenFree_noted i ht) _).trans
    (walkedRemote_ok hq hord _ _))))
theorem red_scalar_queued (ho : s.eff.ord = 0 ∨ s.eff.ord = 2) (hd : o.d.getLsbD 0 = false)
    (hal : (s.rs o.a).toNat % (wordWidth o / 8) = 0) (hx : s.remotePart s.eff (s.rs o.a) true true false = .ok x)
    (hr : s.operandsReady i = true) (hord : (s.noted i).ordered s.eff = .ok t) :
    s.red i o = toRemoteQueue (t.fillWalks [(s.rs o.a, x)]) { t.newCmd i o s.eff with
      sa := s.rs o.a, sb := t.rs o.b, pas := [(s.rs o.a, x.pa)] } := by
  refine syl_ok s i _ hr ((bind_ok (ensure_of_true (decide_eq_true ho) _) _).trans ((if_neg ?_).trans ((bind_ok (alignedTo_ok hal) _).trans
    ((bind_ok (a := x) hx _).trans ((bind_ok (tokenFree_noted i ht) _).trans (walkedRemote_ok hq hord _ _))))))
  exact (Bool.eq_false_iff.1 hd)

/-! A tile reduction (R288). -/

/-- The words that a tile reduction's mask picks. -/
def activeWords (act : MaskReg) : List Nat := (List.range 128).filter fun j => act.getLsbD j
/-- Word `j` of a tile reduction lies in the part of `x`. -/
def inPart (s : State) (o : FE) (x : Xlate) (j : Nat) : Bool :=
  match s.xmap s.me.vfid (s.rs o.a + BitVec.ofNat 64 (4 * j)) with | .ok y => decide (y.part = x.part) | .error _ => false
/-- Word `j` of a tile reduction may be read and written. -/
def wordOpen (s : State) (o : FE) (j : Nat) : Bool :=
  (s.xmap s.me.vfid (s.rs o.a + BitVec.ofNat 64 (4 * j))).toOption.all fun y => s.permOk s.me.vfid y true true


section
variable {act : MaskReg} (ho : s.eff.ord = 0 ∨ s.eff.ord = 2) (hd : o.d.getLsbD 0 = true) (hal : (s.rs o.a).toNat % 64 = 0)
  (hact : s.feActive o 32 = .ok act)
  (hx : s.remotePart s.eff (s.rs o.a + BitVec.ofNat 64 (4 * (activeWords act).headD 0)) true true false = .ok x)
  (hr : s.operandsReady i = true)
include ho hd hal hact hx hr

omit ht hq in
/-- A tile reduction over two parts faults. -/
theorem red_tile_spans (h : (activeWords act).all (inPart s o x) = false) :
    s.red i o = settle i.slot s (.error (.fault 0x15 0 (s.rs o.a) none)) := by
  refine (syl_ready s i _ hr).trans (congrArg _ ?_)
  refine (bind_ok (ensure_of_true (decide_eq_true ho) _) _).trans ((if_pos hd).trans ((bind_ok (alignedTo_ok hal) _).trans
    ((bind_ok (a := act) hact _).trans ((bind_ok (a := x) hx _).trans ?_))))
  exact if_pos (congrArg not h)
omit ht hq in
/-- A tile reduction within one part that meets a word it may not access faults. -/
theorem red_tile_protected (h : (activeWords act).all (inPart s o x) = true) {j : Nat}
    (hj : (activeWords act).find? (fun j => !wordOpen s o j) = some j) :
    s.red i o = settle i.slot s (.error (.fault 0x11 0 (s.rs o.a + BitVec.ofNat 64 (4 * j)) none)) := by
  refine (syl_ready s i _ hr).trans (congrArg _ ?_)
  refine (bind_ok (ensure_of_true (decide_eq_true ho) _) _).trans ((if_pos hd).trans ((bind_ok (alignedTo_ok hal) _).trans
    ((bind_ok (a := act) hact _).trans ((bind_ok (a := x) hx _).trans ((if_neg (Bool.not_eq_true _ ▸ congrArg not h)).trans ?_)))))
  split
  next k hk => rw [Option.some.inj (hk.symm.trans hj)]; rfl
  next hk => exact absurd (hk.symm.trans hj) nofun
/-- A tile reduction within one part that may access its words enters the queue. -/
theorem red_tile_queued (h : (activeWords act).all (inPart s o x) = true)
    (hj : (activeWords act).find? (fun j => !wordOpen s o j) = none) (hord : (s.noted i).ordered s.eff = .ok t) :
    s.red i o = toRemoteQueue (t.fillWalks [(s.rs o.a, x)]) { t.newCmd i o s.eff with
      sa := s.rs o.a, tb := t.rv (feCl o) o.b, act := act, pas := [(s.rs o.a, x.pa - 4 * (activeWords act).headD 0)], count := 1 } := by
  refine syl_ok s i _ hr ?_
  refine (bind_ok (ensure_of_true (decide_eq_true ho) _) _).trans ((if_pos hd).trans ((bind_ok (alignedTo_ok hal) _).trans
    ((bind_ok (a := act) hact _).trans ((bind_ok (a := x) hx _).trans ((if_neg (Bool.not_eq_true _ ▸ congrArg not h)).trans ?_)))))
  split
  next k hk => exact absurd (hk.symm.trans hj) nofun
  next hk => exact (bind_ok (tokenFree_noted i ht) _).trans (walkedRemote_ok hq hord _ _)
end
end

theorem inPart_iff {s : State} {o : FE} {x : Xlate} {j : Nat} : inPart s o x j = true ↔
    ∃ y, s.xmap s.me.vfid (s.rs o.a + BitVec.ofNat 64 (4 * j)) = .ok y ∧ y.part = x.part := by
  unfold inPart
  cases s.xmap s.me.vfid (s.rs o.a + BitVec.ofNat 64 (4 * j)) with
  | ok y => simp
  | error e => simp
theorem wordOpen_iff {s : State} {o : FE} {j : Nat} : wordOpen s o j = true ↔
    ∀ y, s.xmap s.me.vfid (s.rs o.a + BitVec.ofNat 64 (4 * j)) = .ok y → s.permOk s.me.vfid y true true = true := by
  unfold wordOpen
  cases s.xmap s.me.vfid (s.rs o.a + BitVec.ofNat 64 (4 * j)) with
  | ok y => simp [Except.toOption]
  | error e => simp [Except.toOption]
theorem mem_activeWords {act : MaskReg} {j : Nat} : j ∈ activeWords act ↔ j < 128 ∧ act.getLsbD j = true := by simp [activeWords]
/-- The first active word is the one below which none is active, and word 0 where none is. -/
theorem headD_activeWords {act : MaskReg} {first : Nat} (hlow : ∀ j < first, act.getLsbD j = false)
    (h : (first < 128 ∧ act.getLsbD first = true) ∨ (first = 0 ∧ ∀ j < 128, act.getLsbD j = false)) :
    (activeWords act).headD 0 = first := by
  rw [List.headD_eq_head?_getD, activeWords, List.head?_filter]
  rcases h with ⟨hlt, hon⟩ | ⟨rfl, hoff⟩
  · rw [List.find?_range_eq_some.2 ⟨hon, List.mem_range.2 hlt, fun j hj => by simp [hlow j hj]⟩]
    rfl
  · rw [List.find?_range_eq_none.2 fun j hj => by simp [hoff j hj]]
    rfl
/-- The first active word that fails a test. -/
theorem find?_activeWords {act : MaskReg} {p : Nat → Bool} {j : Nat} (hj : j < 128) (ha : act.getLsbD j = true) (hp : p j = false)
    (hlow : ∀ k < j, act.getLsbD k = true → p k = true) : (activeWords act).find? (fun j => !p j) = some j := by
  rw [activeWords, List.find?_filter, List.find?_range_eq_some]
  refine ⟨by simp [ha, hp], List.mem_range.2 hj, fun k hk => ?_⟩
  cases hk' : act.getLsbD k with
  | false => rfl
  | true => simp [hlow k hk hk']

theorem exec_atomics (s : State) (o : FE) : ∀ i ∈ atomics o, exec i s = s.amo i o := by
  simp only [atomics, List.forall_mem_cons, List.not_mem_nil, false_imp_iff, implies_true, and_true]
  exact ⟨rfl, rfl, rfl, rfl, rfl, rfl, rfl, rfl⟩
theorem exec_reductionsE (s : State) (o : FE) : ∀ i ∈ reductionsE o, exec i s = s.red i o ∧ i.slot = .e := by
  simp only [reductionsE, List.forall_mem_cons, List.not_mem_nil, false_imp_iff, implies_true, and_true]
  exact ⟨⟨rfl, rfl⟩, ⟨rfl, rfl⟩, ⟨rfl, rfl⟩, ⟨rfl, rfl⟩, ⟨rfl, rfl⟩, ⟨rfl, rfl⟩, rfl, rfl⟩

/-- Settles O33: an atomic and a scalar reduction are one access and one command; of a tile reduction the words outside the part decide
first, and then the first word that may not be accessed. -/
theorem atomicsAndReductionsIssue : Obligations.AtomicsAndReductionsIssue := by
  intro s o x m ea ht hq
  refine ⟨fun hal hx => ⟨fun i hi t hr hord => ?_, fun ho hd i hi t hr hord => ?_⟩, ?_⟩
  · exact (exec_atomics s o i hi).trans (amo_queued ht hq hal hx hr hord)
  · obtain ⟨he, -⟩ := exec_reductionsE s o i hi
    exact he.trans (red_scalar_queued ht hq ho hd hal hx hr hord)
  · intro act first ho hd hal hact hlow hfirst word hx i hi hr
    obtain ⟨he, hslot⟩ := exec_reductionsE s o i hi
    obtain rfl := headD_activeWords hlow hfirst
    have one (h : ∀ k < 128, act.getLsbD k = true → ∃ y, s.xmap s.me.vfid (word k) = .ok y ∧ y.part = x.part) :
        (activeWords act).all (inPart s o x) = true := List.all_eq_true.2 fun k hk => by
      obtain ⟨hlt, hon⟩ := mem_activeWords.1 hk
      exact inPart_iff.2 (h k hlt hon)
    refine ⟨fun j hj hon hpart hparts hshut hopen => ?_, fun hall t hord => ?_, fun ⟨j, hj, hon, hout⟩ => ?_⟩
    · have hclosed : wordOpen s o j = false := by
        obtain ⟨y, hy, -⟩ := hpart
        exact Bool.eq_false_iff.2 fun h => absurd (wordOpen_iff.1 h y hy) (by rw [hshut y hy]; exact Bool.false_ne_true)
      have hf := find?_activeWords hj hon hclosed fun k hk hk' => wordOpen_iff.2 (hopen k hk hk')
      rw [he, red_tile_protected ho hd hal hact hx hr (one hparts) hf, hslot]
      rfl
    · have hf : (activeWords act).find? (fun j => !wordOpen s o j) = none := List.find?_eq_none.2 fun k hk => by
        obtain ⟨hlt, hon⟩ := mem_activeWords.1 hk
        obtain ⟨y, hy, -, hperm⟩ := hall k hlt hon
        have hw : wordOpen s o k = true := wordOpen_iff.2 fun z hz => Except.ok.inj (hy.symm.trans hz) ▸ hperm
        simp [hw]
      refine he.trans (red_tile_queued ht hq ho hd hal hact hx hr (one fun k hlt hon => ?_) hf hord)
      obtain ⟨y, hy, hp, -⟩ := hall k hlt hon
      exact ⟨y, hy, hp⟩
    · have hno : (activeWords act).all (inPart s o x) = false := List.all_eq_false.2 ⟨j, mem_activeWords.2 ⟨hj, hon⟩, fun h => by
        obtain ⟨y, hy, hp⟩ := inPart_iff.1 h
        exact hout y hy hp⟩
      rw [he, red_tile_spans ho hd hal hact hx hr hno, hslot]
      rfl

end Sys2Proof.Claims

namespace Sys2Proof.Machine

/-! ### What a record in a frame leaves of the functions and of the lines of the cache (R246, R413) -/

/-- What the pool's messages read of each function: its partition entry and its pool map. -/
def State.charter (s : State) (v : Nat) : BitVec 1024 × Tbl (BitVec 128) := ((s.vf v).part, (s.vf v).pool)
/-- The charters, and the lines that the cache holds. -/
def State.tenure (s : State) : (Nat → BitVec 1024 × Tbl (BitVec 128)) × List Nat := (s.charter, s.cache.map (·.1))

section
variable (s : State)
theorem charter_of_vfs {s t : State} (h : t.vfs = s.vfs) : t.charter = s.charter := by
  unfold State.charter State.vf
  rw [h]
theorem modVf_charter (w : Nat) (f : Vf → Vf) (hf : ∀ x, ((f x).part, (f x).pool) = (x.part, x.pool)) : (s.modVf w f).charter = s.charter := by
  funext v
  unfold State.charter State.modVf
  by_cases h : v = w
  · subst h
    rw [vf_setVf_self]
    exact hf _
  · rw [vf_setVf_ne _ _ _ _ h]
theorem modVf_tenure (w : Nat) (f : Vf → Vf) (hf : ∀ x, ((f x).part, (f x).pool) = (x.part, x.pool)) : (s.modVf w f).tenure = s.tenure :=
  Prod.ext (modVf_charter s w f hf) rfl
theorem vfSat_tenure (v i j n : Nat) : (s.vfSat v i j n).tenure = s.tenure := modVf_tenure _ _ _ fun _ => by rfl
theorem modSaved_charter (v g : Nat) (f : Saved → Saved) : (s.modSaved v g f).charter = s.charter := by
  refine modVf_charter _ _ _ fun x => ?_
  split <;> rfl
theorem modCtx_charter (g : Nat) (f : Ctx → Ctx) : (s.modCtx g f).charter = s.charter := rfl
theorem countSoft_tenure (v pa n : Nat) : (s.countSoft v pa n).tenure = s.tenure :=
  foldl_same State.tenure _ (fun _ _ => vfSat_tenure _ _ _ _ _) _ s
theorem markWalk_tenure (v a : Nat) : (s.markWalk v a).tenure = s.tenure := by
  unfold State.markWalk
  split
  · rfl
  · exact modVf_tenure _ _ _ fun _ => by rfl
theorem keepWalk_tenure (v : Nat) (l : List (Nat × Word)) : (s.keepWalk v l).tenure = s.tenure := by
  unfold State.keepWalk
  split
  · rfl
  · exact (modVf_tenure _ _ _ fun _ => by rfl).trans (foldl_same State.tenure _ (fun _ _ => countSoft_tenure _ _ _ _) _ _)
theorem walkKept_tenure (v : Nat) (va : Word) : (s.walkKept v va).tenure = s.tenure := by
  unfold State.walkKept
  dsimp only
  split
  · exact (markWalk_tenure _ _ _).trans (keepWalk_tenure _ _ _)
  · exact keepWalk_tenure _ _ _
theorem packetWalks_tenure (v p : Nat) : (s.packetWalks v p).tenure = s.tenure := by
  unfold State.packetWalks
  dsimp only
  split
  · exact (walkKept_tenure _ _ _).trans (walkKept_tenure _ _ _)
  · exact walkKept_tenure _ _ _
theorem cleanLines_tenure (p : Nat → Bool) : (s.cleanLines p).tenure = s.tenure := by
  refine Prod.ext rfl ((List.map_map ..).trans (List.map_congr_left fun l _ => ?_))
  dsimp only [Function.comp]
  split <;> rfl
end
/-- A fired packet leaves the cache: it rings a doorbell, or queues a write. -/
theorem ringTail_cache {s t : State} {v pa : Nat} (e : s.ringTail v pa = some t) : t.cache = s.cache := by
  unfold State.ringTail at e
  split at e
  · split at e <;> cases e
    rfl
  · dsimp only at e
    split at e <;> cases e
    rfl
theorem firePacket_cache {s t : State} {v p : Nat} (e : s.firePacket v p = some t) : t.cache = s.cache := by
  unfold State.firePacket at e
  dsimp only at e
  split at e
  all_goals obtain ⟨x, -, hx⟩ := Option.bind_eq_some_iff.1 e
  · exact ringTail_cache hx
  · split at hx
    · cases hx
    split at hx
    · split at hx <;> cases hx
      rfl
    · obtain ⟨y, -, hy⟩ := Option.bind_eq_some_iff.1 hx
      split at hy <;> cases hy
      rfl
  · split at hx <;> cases hx
    rfl

section
variable (s : State)
theorem testTrigger_tenure (w : Nat) : (s.testTrigger w).tenure = s.tenure := by
  unfold State.testTrigger
  split
  · rfl
  extract_lets t
  split
  · rfl
  next i _ =>
    extract_lets e fired quiet
    have hq : quiet.tenure = s.tenure := (cleanLines_tenure _ _).trans (packetWalks_tenure fired _ _)
    split
    · split
      next hp =>
        obtain ⟨-, hv⟩ := firePacket_offices hp
        exact (Prod.ext (charter_of_vfs hv) (congrArg (List.map (·.1)) (firePacket_cache hp))).trans hq
      next => exact (vfSat_tenure _ _ _ _ _).trans hq
    · rfl
theorem putByte_tenure (pa : Nat) (v e : Byte) : (s.putByte pa v e).tenure = s.tenure := by
  unfold State.putByte
  split
  · refine Prod.ext rfl ((List.map_map ..).trans (List.map_congr_left fun l _ => ?_))
    dsimp only [Function.comp]
    split <;> rfl
  · rfl
theorem cacheFill_vfs (n : Nat) (k : Bool) : (s.cacheFill n k).vfs = s.vfs := by
  unfold State.cacheFill
  extract_lets room l
  split
  · rfl
  · unfold room
    repeat' split
    all_goals rfl
/-- A line that enters the cache may put another one out. -/
theorem mem_cacheFill {n : Nat} {k : Bool} {m : Nat} (h : m ∈ (s.cacheFill n k).tenure.2) : m ∈ s.tenure.2 ∨ m = n := by
  unfold State.cacheFill at h
  extract_lets room l at h
  have hr : ∀ m ∈ room.tenure.2, m ∈ s.tenure.2 := by
    unfold room State.tenure
    split
    · exact fun _ h => h
    · split
      · exact fun _ h => h
      next e => exact fun m hm => e ▸ List.mem_cons_of_mem _ hm
  split at h
  · exact .inl h
  · obtain ⟨x, hx, rfl⟩ := List.mem_map.1 h
    dsimp only at hx
    have hx : x ∈ room.cache ∨ x.1 = n := by
      split at hx
      · exact (List.mem_cons.1 hx).elim (fun h => .inr (congrArg Prod.fst h)) .inl
      · exact (List.mem_append.1 hx).elim .inl fun h => .inr (congrArg Prod.fst (List.mem_singleton.1 h))
    exact hx.imp_left fun h => hr _ (List.mem_map_of_mem h)
/-- A step of a fold that adds what `q` allows adds no more by folding. -/
theorem mem_foldl_adds {α β : Type} {p : State → List α} {q : α → Prop} (f : State → β → State) (l : List β)
    (hf : ∀ s, ∀ b ∈ l, ∀ m, m ∈ p (f s b) → m ∈ p s ∨ q m) (s : State) (m : α) (h : m ∈ p (l.foldl f s)) : m ∈ p s ∨ q m := by
  induction l generalizing s with
  | nil => exact .inl h
  | cons b l ih =>
    rcases ih (fun s b' hb => hf s b' (List.mem_cons_of_mem _ hb)) _ h with h | h
    · exact hf s b List.mem_cons_self m h
    · exact .inr h
theorem storeCells_charter (pa : Nat) (cells : List Sys2Proof.Cell) (c : Nat) : (s.storeCells pa cells c).charter = s.charter := by
  unfold State.storeCells
  extract_lets filled stored cleaned
  have hf : filled.vfs = s.vfs := by
    unfold filled
    split
    · exact foldl_same State.vfs _ (fun _ _ => cacheFill_vfs _ _ _) _ _
    · rfl
  have hs : stored.charter = s.charter :=
    (foldl_same State.charter _ (fun _ _ => congrArg Prod.fst (putByte_tenure _ _ _ _)) _ _).trans (charter_of_vfs hf)
  unfold cleaned
  split <;> exact hs
/-- A write brings a line of its own into the cache, where the package holds the token of its first byte's region. -/
theorem mem_storeCells {pa : Nat} {cells : List Sys2Proof.Cell} {c m : Nat} (h : m ∈ (s.storeCells pa cells c).tenure.2) :
    m ∈ s.tenure.2 ∨ (s.hasToken pa = true ∧ ∃ x ∈ cells, m = (pa + x.off) / 64) := by
  unfold State.storeCells at h
  extract_lets filled stored cleaned at h
  have hc : cleaned.tenure.2 = stored.tenure.2 := by
    unfold cleaned
    split
    · exact congrArg Prod.snd (cleanLines_tenure _ _)
    · rfl
  have hs : stored.tenure.2 = filled.tenure.2 := congrArg Prod.snd (foldl_same State.tenure _ (fun _ _ => putByte_tenure _ _ _ _) _ _)
  have hm : m ∈ filled.tenure.2 := hs ▸ hc ▸ h
  unfold filled at hm
  split at hm
  next ht =>
    obtain ⟨-, htok, -⟩ := ht
    refine (mem_foldl_adds (p := fun t => t.tenure.2) (q := fun m => ∃ x ∈ cells, m = (pa + x.off) / 64) _ cells (fun t x hx m hm => ?_) s m hm).imp_right fun hq => ⟨htok, hq⟩
    exact (mem_cacheFill t hm).imp_right fun he => ⟨x, hx, he⟩
  next => exact .inl hm
theorem performWrite_charter (pa : Nat) (cells : List Sys2Proof.Cell) (c : Nat) : (s.performWrite pa cells c).charter = s.charter :=
  (foldl_same State.charter _ (fun t w => congrArg Prod.fst (testTrigger_tenure t w)) _ _).trans (storeCells_charter s pa cells c)
theorem mem_performWrite {pa : Nat} {cells : List Sys2Proof.Cell} {c m : Nat} (h : m ∈ (s.performWrite pa cells c).tenure.2) :
    m ∈ s.tenure.2 ∨ (s.hasToken pa = true ∧ ∃ x ∈ cells, m = (pa + x.off) / 64) :=
  mem_storeCells s (congrArg Prod.snd (foldl_same State.tenure _ (fun t w => testTrigger_tenure t w) (touched pa cells) (s.storeCells pa cells c)) ▸ h)
theorem framePut_charter (v g off n val : Nat) : (s.framePut v g off n val).charter = s.charter := performWrite_charter _ _ _ _
theorem framePost_charter (v g : Nat) (r : EvRec) : (s.framePost v g r).charter = s.charter := by
  unfold State.framePost
  extract_lets cfg n recent old l put told
  have hp : put.charter = s.charter := foldl_same State.charter _ (fun _ _ => framePut_charter _ _ _ _ _ _) _ _
  have ht : told.charter = s.charter := (modSaved_charter _ _ _ _).trans hp
  clear_value told
  split
  · exact (framePut_charter _ _ _ _ _ _).trans ht
  · exact (modCtx_charter _ _ _).trans ((framePut_charter _ _ _ _ _ _).trans ht)
/-- A record told to a whole function leaves every partition entry and every pool map. -/
theorem postAll_charter (v : Nat) (r : EvRec) : (s.postAll v r).charter = s.charter := by
  unfold State.postAll
  extract_lets t
  have ht : t.charter = s.charter := foldl_same State.charter _ (fun u e => by split <;> rfl) _ _
  refine (foldl_same State.charter _ (fun u e => ?_) _ _).trans ht
  split
  · exact framePost_charter _ _ _ _
  · rfl
theorem postAll_aside (v : Nat) (r : EvRec) : (s.postAll v r).aside = s.aside := by
  unfold State.postAll
  extract_lets t
  have ht : t.aside = s.aside := foldl_same State.aside _ (fun u e => by split <;> rfl) _ _
  refine (foldl_same State.aside _ (fun u e => ?_) _ _).trans ht
  split
  · exact framePost_aside _ _ _ _
  · rfl

/-! A region that has left (R247). -/

/-- No line of region `r` is in the cache, and no token of it is the package's own. -/
def State.left (r : Nat) (s : State) : Prop := (∀ m ∈ s.tenure.2, inRegion r m = false) ∧ ∀ x ∈ s.toks, x.region = r → x.st = 3
end

section
variable {r : Nat} {s t : State}
theorem left_of_eq (hc : t.cache = s.cache) (hk : t.toks = s.toks) (h : s.left r) : t.left r := by
  unfold State.left State.tenure
  rw [hc, hk]
  exact h
/-- A write within one line brings in no line of a region that has left. -/
theorem framePut_left (h : s.left r) (v g off n val : Nat) (hn : off % 64 + n ≤ 64) : (s.framePut v g off n val).left r := by
  obtain ⟨hl, hk⟩ := h
  refine ⟨fun m hm => ?_, fun x hx => hk x ((congrArg State.toks (framePut_aside s v g off n val) :) ▸ hx)⟩
  rcases mem_performWrite s hm with hm | ⟨htok, c, hc, rfl⟩
  · exact hl m hm
  · obtain ⟨i, hi, rfl⟩ := List.mem_map.1 hc
    obtain ⟨x, hx, hp⟩ := List.any_eq_true.1 htok
    simp only [Bool.and_eq_true, decide_eq_true_eq] at hp
    obtain ⟨hreg, hst⟩ := hp
    refine decide_eq_false fun he => ?_
    have hbase : s.frameBase v g % 4096 = 0 := by
      show (bits _ 639 588 * 4096 + 0x12000 * _) % 4096 = 0
      omega
    have hr : x.region = r := by
      have := List.mem_range.1 hi
      rw [hreg, ← he]
      unfold regionOf
      dsimp only
      omega
    have := hk x hx hr
    omega
theorem modCtx_left (h : s.left r) (g : Nat) (f : Ctx → Ctx) : (s.modCtx g f).left r := left_of_eq (modCtx_cache _ _ _) rfl h
theorem modSaved_left (h : s.left r) (v g : Nat) (f : Saved → Saved) : (s.modSaved v g f).left r := left_of_eq (modVf_cache _ _ _) rfl h
theorem framePost_left (h : s.left r) (v g : Nat) (e : EvRec) : (s.framePost v g e).left r := by
  unfold State.framePost
  extract_lets cfg n recent old l put told
  clear_value l cfg
  have hp : put.left r := foldl_keeps (State.left r) _ (fun u x hu => framePut_left hu _ _ _ _ _ (by omega)) _ _ h
  have ht : told.left r := modSaved_left hp _ _ _
  clear_value told
  have hf : ∀ val, (told.framePut v g 0x10D68 8 val).left r := fun val => framePut_left ht _ _ _ _ _ (by omega)
  split
  · exact hf _
  · exact modCtx_left (hf _) _ _
theorem postAll_left (h : s.left r) (v : Nat) (e : EvRec) : (s.postAll v e).left r := by
  unfold State.postAll
  extract_lets t
  have ht : t.left r := foldl_keeps (State.left r) _ (fun u e hu => by split; exacts [modCtx_left hu _ _, hu]) _ _ h
  refine foldl_keeps (State.left r) _ (fun u e hu => ?_) _ _ ht
  split
  · exact framePost_left hu _ _ _
  · exact hu
/-- What is given up has left, and what has left stays away. -/
theorem giveUpToken_left (q : Nat) (h : q = r ∨ s.left r) : (s.giveUpToken q).left r := by
  have hlines : ∀ m ∈ (s.giveUpToken q).tenure.2, m ∈ s.tenure.2 ∧ inRegion q m = false := by
    intro m hm
    obtain ⟨l, hl, rfl⟩ := List.mem_map.1 hm
    obtain ⟨hl, hq⟩ := List.mem_filter.1 hl
    exact ⟨congrArg Prod.snd (cleanLines_tenure s (inRegion q)) ▸ List.mem_map_of_mem hl, by simpa using hq⟩
  have htoks : ∀ x ∈ (s.giveUpToken q).toks, x ∈ s.toks ∧ (x.region = q → x.st = 3) := by
    intro x hx
    obtain ⟨hx, hq⟩ := List.mem_filter.1 hx
    refine ⟨hx, fun hr => ?_⟩
    simpa [hr] using hq
  rcases h with rfl | ⟨hl, hk⟩
  · exact ⟨fun m hm => (hlines m hm).2, fun x hx => (htoks x hx).2⟩
  · exact ⟨fun m hm => hl m (hlines m hm).1, fun x hx => hk x (htoks x hx).1⟩
end
/-- Each of the regions that the end of a tick gives up has left. -/
theorem giveUps_left {r : Nat} (told : State → OwnTok → EvRec) (l : List OwnTok) (s : State) (h : (∃ t ∈ l, t.region = r) ∨ s.left r) :
    (l.foldl (fun s t => (s.giveUpToken t.region).postAll t.vf (told s t)) s).left r := by
  induction l generalizing s with
  | nil => exact h.resolve_left fun ⟨_, ht, _⟩ => nomatch ht
  | cons t l ih =>
    refine ih _ ?_
    rcases h with ⟨x, hx, hr⟩ | h
    · rcases List.mem_cons.1 hx with rfl | hx
      · exact .inr (postAll_left (giveUpToken_left _ (.inl hr)) _ _)
      · exact .inl ⟨x, hx, hr⟩
    · exact .inr (postAll_left (giveUpToken_left _ (.inr h)) _ _)
/-- A token that is being given up, with no `trel` on its way, has left at the end of the tick. -/
theorem tokensOver_left {s : State} {t : OwnTok} (ht : t ∈ s.toks) (hst : t.st = 2) (hr : s.releasing t.region = false) :
    s.tokensOver.left t.region := by
  have hm : t ∈ s.toks.filter fun t => t.st = 2 && !s.releasing t.region := List.mem_filter.2 ⟨ht, by simp [hst, hr]⟩
  exact giveUps_left (fun s t => { kind := 9, time := s.tick, payload := t.region * 0x200000 }) _ s (.inl ⟨t, hm, rfl⟩)

end Sys2Proof.Machine

namespace Sys2Proof.Machine

/-! ### What the loss of an allocation leaves (R243-R246) -/

section
variable (s : State)
theorem setSlotStream_charter (h n : Nat) (t : Stream) : (s.setSlotStream h n t).charter = s.charter := by
  unfold State.setSlotStream
  split
  · exact modCtx_charter _ _ _
  · exact (modSaved_charter _ _ _ _).trans (framePut_charter _ _ _ _ _ _)
theorem setSlotStream_aside (h n : Nat) (t : Stream) : (s.setSlotStream h n t).aside = s.aside := by
  unfold State.setSlotStream
  split
  · exact modCtx_aside _ _ _
  · exact (modSaved_aside _ _ _ _).trans (framePut_aside _ _ _ _ _ _)
theorem setSlotStream_lostSw (h n : Nat) (t : Stream) : (s.setSlotStream h n t).lostSw = s.lostSw :=
  (congrArg State.lostSw (setSlotStream_aside s h n t) :)
theorem mapCmds_lostSw (f : Cmd → Cmd) : (s.mapCmds f).lostSw = s.lostSw := rfl
theorem askAgain_charter (ns : List Nat) : (s.askAgain ns).charter = s.charter :=
  (foldl_same State.charter _ (fun _ _ => setSlotStream_charter _ _ _ _) _ _).trans (charter_of_vfs rfl)
theorem askAgain_lostSw (ns : List Nat) : (s.askAgain ns).lostSw = s.lostSw :=
  (foldl_same State.lostSw _ (fun _ _ => setSlotStream_lostSw _ _ _ _) _ _).trans (mapCmds_lostSw _ _)
theorem moveCopy_charter (e d : BitVec 128) : (s.moveCopy e d).charter = s.charter := by
  unfold State.moveCopy
  split
  · rfl
  · exact Eq.trans (b := (s.askAgain _).charter) (charter_of_vfs rfl) (askAgain_charter _ _)
theorem moveCopy_lostSw (e d : BitVec 128) : (s.moveCopy e d).lostSw = s.lostSw := by
  unfold State.moveCopy
  split
  · rfl
  · exact askAgain_lostSw _ _
theorem forgetAlloc_charter (e : BitVec 128) : (s.forgetAlloc e).charter = s.charter := rfl
theorem forgetAlloc_lostSw (e : BitVec 128) : (s.forgetAlloc e).lostSw = s.lostSw := rfl

/-- A loss leaves every partition entry. -/
theorem applyLoss_part (v n : Nat) (d : BitVec 128) (u : Nat) : ((s.applyLoss v n d).vf u).part = (s.vf u).part := by
  unfold State.applyLoss
  extract_lets e mine moved forgotten lost
  have hf : forgotten.charter = s.charter := by
    unfold forgotten
    split
    · exact (forgetAlloc_charter _ _).trans (moveCopy_charter _ _ _)
    · exact moveCopy_charter _ _ _
  have hl : (lost.vf u).part = (forgotten.vf u).part := by
    unfold lost State.modVf
    by_cases h : u = v
    · rw [h, vf_setVf_self]
    · rw [vf_setVf_ne _ _ _ _ h]
  exact (congrArg (fun c => (c u).1) (postAll_charter _ _ _) :).trans (hl.trans (congrArg (fun c => (c u).1) hf :))
/-- What is lost has its entry. -/
theorem applyLoss_pool (v n : Nat) (d : BitVec 128) : tget 0 ((s.applyLoss v n d).vf v).pool n = d := by
  unfold State.applyLoss
  extract_lets e mine moved forgotten lost
  refine (congrArg (fun c => tget 0 (c v).2 n) (postAll_charter lost v _) :).trans ?_
  show tget 0 (lost.vf v).pool n = d
  unfold lost State.modVf
  rw [vf_setVf_self]
  exact tget_tset_self _ _ _ _
theorem applyLoss_lostSw (v n : Nat) (d : BitVec 128) : (s.applyLoss v n d).lostSw = s.lostSw := by
  unfold State.applyLoss
  extract_lets e mine moved forgotten lost
  have hf : forgotten.lostSw = s.lostSw := by
    unfold forgotten
    split
    · exact (forgetAlloc_lostSw _ _).trans (moveCopy_lostSw _ _ _)
    · exact moveCopy_lostSw _ _ _
  exact (congrArg State.lostSw (postAll_aside lost v _) :).trans hf
end

/-! ### The messages (R241-R247) -/

section
variable (s : State)
theorem exec_poolreq {m : PoolReq} {k : Cmd} (h : s.poolSend m = some k) :
    exec (.poolreq m) s = .next (s.setLoose m.c { k with point := 1, asked := s.tick }) := by
  show execPoolreq m s = _
  unfold execPoolreq
  rw [h]

/-- A request that waits for the switch's answer. -/
def State.expects (k : Cmd) : Bool := isPool k.instr && k.point = 1 && k.rsp.isNone && !s.unreachable k
/-- What a granted allocation leaves of its function and of the pool. -/
def State.allotted (k : Cmd) (n : Nat) (entry : BitVec 128) : State :=
  let t := (s.modVf k.vf fun x => { x with pool := tset 0 x.pool n entry }).modVf k.vf fun x => { x with used := x.used + chargedUnits entry }
  { t with allocs := t.allocs ++ [{ switch := s.homeOf k.vf, tenant := s.tenantOf k.vf, num := n, charge := k.vf }] }

section
variable {m : PoolRsp} {k : Cmd} (hn : m.n ≠ 0) (hk : s.looseAt m.c m.n = some k)
include hn hk
theorem exec_poolrsp_alloc {o : FE} (hi : k.instr = .kalloc o ∨ k.instr = .kallocM o) : exec (.poolrsp m) s =
    if m.status = 0 then event (s.expects k && s.allocFits k (cleanEntry m.entry) m.num.toNat) s
        ((s.allotted k m.num.toNat (cleanEntry m.entry)).setLoose m.c { k with rsp := some (m.status.toNat, m.num.toNat, cleanEntry m.entry) })
    else event (s.expects k && decide (m.status.toNat ≤ 3)) s
        (s.setLoose m.c { k with rsp := some (m.status.toNat, m.num.toNat, cleanEntry m.entry) }) := by
  show execPoolrsp m s = _
  unfold execPoolrsp State.expects
  dsimp only
  rw [if_neg hn, hk]
  rcases hi with hi | hi
  · dsimp only
    rw [hi]
    rfl
  · dsimp only
    rw [hi]
    rfl
theorem exec_poolrsp_free {o : FE} (hi : k.instr = .kfree o) : exec (.poolrsp m) s =
    if m.status = 0 then event (s.expects k && (decide (m.num.toNat = kittyNum k.sa) &&
        (!bit (tget 0 (s.vf k.vf).pool m.num.toNat).toNat 0 ||
          decide (genOf (cleanEntry m.entry) = (genOf (tget 0 (s.vf k.vf).pool m.num.toNat) + 1) % 65536)))) s
        ((s.poolFree k.vf m.num.toNat).setLoose m.c { k with rsp := some (m.status.toNat, m.num.toNat, cleanEntry m.entry) })
    else event (s.expects k && decide (m.status = 5)) s
        (s.setLoose m.c { k with rsp := some (m.status.toNat, m.num.toNat, cleanEntry m.entry) }) := by
  show execPoolrsp m s = _
  unfold execPoolrsp State.expects
  dsimp only
  rw [if_neg hn, hk]
  dsimp only
  rw [hi, ← Bool.and_assoc]
theorem exec_poolrsp_query {o : FE} (hi : k.instr = .kquery o) : exec (.poolrsp m) s =
    event (s.expects k && decide (m.num.toNat = kittyNum k.sa ∧ bits (cleanEntry m.entry).toNat 2 1 ≠ 3)) s
      ((s.modVf k.vf fun x => { x with pool := tset 0 x.pool m.num.toNat (cleanEntry m.entry) }).setLoose m.c
        { k with rsp := some (m.status.toNat, m.num.toNat, cleanEntry m.entry) }) := by
  show execPoolrsp m s = _
  unfold execPoolrsp State.expects
  dsimp only
  rw [if_neg hn, hk]
  dsimp only
  rw [hi]
end

theorem allotted_vf (k : Cmd) (n : Nat) (entry : BitVec 128) : (s.allotted k n entry).vf k.vf =
    { s.vf k.vf with pool := tset 0 (s.vf k.vf).pool n entry, used := (s.vf k.vf).used + chargedUnits entry } := by
  refine (vf_setVf_self _ k.vf _).trans ?_
  rw [State.modVf, vf_setVf_self]
theorem allotted_pool (k : Cmd) (n : Nat) (entry : BitVec 128) : tget 0 ((s.allotted k n entry).vf k.vf).pool n = entry := by
  refine (congrArg (fun x : Vf => tget 0 x.pool n) (allotted_vf s k n entry)).trans ?_
  exact tget_tset_self _ _ _ _
theorem allotted_used (k : Cmd) (n : Nat) (entry : BitVec 128) :
    ((s.allotted k n entry).vf k.vf).used = (s.vf k.vf).used + chargedUnits entry := by
  rw [allotted_vf]
theorem expects_of {k : Cmd} (hi : isPool k.instr = true) (hp : k.point = 1) (hr : k.rsp = none) (hu : s.unreachable k = false) :
    s.expects k = true := by
  simp [State.expects, hi, hp, hr, hu]

/-- A lost switch is noted, and its lines dropped. -/
theorem exec_kittySwitchLoss {w : Nat} (h : w ∉ s.lostSw) : ∃ t, exec (.kittySwitchLoss w) s = .next t ∧ t.lostSw = w :: s.lostSw ∧
    ∀ l ∈ t.cache, ¬ (tierOf (64 * l.1) = 5 ∧ bits (64 * l.1) 51 40 = w) := by
  refine ⟨_, if_neg (by simpa using h), ?_, fun l hl => ?_⟩
  · refine (foldl_same State.lostSw _ (fun t v => foldl_same State.lostSw _ (fun u n => ?_) _ _) _ _ :)
    dsimp only
    split
    · exact applyLoss_lostSw _ _ _ _
    · rfl
  · obtain ⟨-, hp⟩ := List.mem_filter.1 hl
    exact fun h => by simp [h] at hp
theorem exec_peerTimeout {p : Nat} (h : s.overdue.contains (peerTarget p) = true) (hp : p ∉ s.deadPeers) :
    exec (.peerTimeout p) s = .next { s with deadPeers := p :: s.deadPeers } :=
  event_pos (by simp [hp]; simpa using h)
/-- A change of every entry of a table that leaves the default. -/
theorem tget_mapValues {α : Type} {d : α} (f : α → α) (hd : f d = d) (t : Tbl α) (k : Nat) :
    tget d (t.map fun e => (e.1, f e.2)) k = f (tget d t k) := by
  induction t with
  | nil => exact hd.symm
  | cons e t ih =>
    by_cases he : e.1 = k
    · simp [tget, he]
    · simpa [tget, he] using ih

/-! A reported loss (R245). -/

/-- What an allocation becomes of which a loss is reported: the free choice is whether a mirrored one keeps a copy, and which. -/
def State.lossEntry (n : Nat) (e : BitVec 128) : BitVec 128 :=
  if bit e.toNat 3 ∧ bits e.toNat 2 1 = 0 ∧ Config.choice s.fresh (4096 + n) then degradedEntry e (Config.choice s.fresh n) else lostEntry e
theorem lossEntry_cases (n : Nat) (e : BitVec 128) :
    s.lossEntry n e = lostEntry e ∨ s.lossEntry n e = degradedEntry e true ∨ s.lossEntry n e = degradedEntry e false := by
  unfold State.lossEntry
  split
  · cases Config.choice s.fresh n
    · exact .inr (.inr rfl)
    · exact .inr (.inl rfl)
  · exact .inl rfl
theorem lossEntry_plain (n : Nat) (e : BitVec 128) (h : bit e.toNat 3 = false ∨ bits e.toNat 2 1 ≠ 0) : s.lossEntry n e = lostEntry e :=
  if_neg fun ⟨h3, h0, _⟩ => h.elim (fun h => by rw [h] at h3; cases h3) fun h => h h0
/-- A fold none of whose elements acts. -/
theorem foldl_idle {α β : Type} (f : α → β → α) (l : List β) (a : α) (h : ∀ u ∈ l, f a u = a) : l.foldl f a = a := by
  induction l with
  | nil => rfl
  | cons u l ih =>
    rw [List.foldl_cons, h u List.mem_cons_self]
    exact ih fun w hw => h w (List.mem_cons_of_mem _ hw)
/-- A fold one of whose elements alone acts. -/
theorem foldl_one {α β : Type} (f : α → β → α) (l : List β) (hl : l.Nodup) {v : β} (hv : v ∈ l) {a b : α} (hb : f a v = b)
    (hbefore : ∀ u ∈ l, u ≠ v → f a u = a) (hafter : ∀ u ∈ l, u ≠ v → f b u = b) : l.foldl f a = b := by
  induction l with
  | nil => cases hv
  | cons u l ih =>
    obtain ⟨hu, hl⟩ := List.nodup_cons.1 hl
    by_cases he : u = v
    · subst he
      rw [List.foldl_cons, hb]
      exact foldl_idle _ _ _ fun w hw => hafter w (List.mem_cons_of_mem _ hw) fun h => hu (h ▸ hw)
    · rw [List.foldl_cons, hbefore u List.mem_cons_self he]
      exact ih hl ((List.mem_cons.1 hv).resolve_left (Ne.symm he)) (fun w hw => hbefore w (List.mem_cons_of_mem _ hw))
        fun w hw => hafter w (List.mem_cons_of_mem _ hw)
theorem applyLoss_homeOf (v n : Nat) (d : BitVec 128) (u : Nat) : (s.applyLoss v n d).homeOf u = s.homeOf u := by
  unfold State.homeOf
  rw [applyLoss_part]
theorem applyLoss_tenantOf (v n : Nat) (d : BitVec 128) (u : Nat) : (s.applyLoss v n d).tenantOf u = s.tenantOf u := by
  unfold State.tenantOf
  rw [applyLoss_part]
/-- A loss reported to one function's home switch, of one allocation. -/
theorem exec_loss {m : LossMsg} {v n : Nat} (hv : v < 8) (hm : m.nums = [n])
    (hone : ∀ u < 8, s.homeOf u = m.switch ∧ s.tenantOf u = m.tenant ↔ u = v)
    (hvalid : bit (tget 0 (s.vf v).pool n).toNat 0 = true) (hlive : bits (tget 0 (s.vf v).pool n).toNat 2 1 ≠ 2) :
    exec (.loss m) s = .next (s.applyLoss v n (s.lossEntry n (tget 0 (s.vf v).pool n))) := by
  show execLoss m s = _
  unfold execLoss
  rw [hm]
  have other : ∀ u ∈ List.range 8, u ≠ v → ¬ (s.homeOf u = m.switch ∧ s.tenantOf u = m.tenant) :=
    fun u hu hne h => hne ((hone u (List.mem_range.1 hu)).1 h)
  have live : ¬ ((!bit (tget 0 (s.vf v).pool n).toNat 0) = true ∨ bits (tget 0 (s.vf v).pool n).toNat 2 1 = 2) := by
    rw [hvalid]
    exact fun h => h.elim (fun h => nomatch h) hlive
  refine congrArg _ (foldl_one _ _ List.nodup_range (List.mem_range.2 hv) ?_ (fun u hu hne => if_neg (other u hu hne)) fun u hu hne => if_neg ?_)
  · refine (if_pos ((hone v hv).2 rfl)).trans ((if_neg live).trans ?_)
    unfold State.lossEntry
    split <;> rfl
  · rw [applyLoss_homeOf, applyLoss_tenantOf]
    exact other u hu hne

/-! Ownership tokens (R247, R291, R292). -/

theorem exec_tokreq_lends {m : TokMsg} (htier : tierOf (m.region * 0x200000) = 2 ∨ tierOf (m.region * 0x200000) = 3)
    (h : s.ownTok m.region = none) (hroom : s.toks.length < 4096) :
    exec (.tokreq m) s = .next { s with toks := s.toks ++ [{ region := m.region, st := 3, holder := m.pkg }] } := by
  show execTokreq m s = _
  unfold execTokreq
  rw [h]
  exact event_pos (by simp [htier, hroom])
theorem exec_tokreq_queues {m : TokMsg} {t : OwnTok} (htier : tierOf (m.region * 0x200000) = 2 ∨ tierOf (m.region * 0x200000) = 3)
    (h : s.ownTok m.region = some t) (hst : t.st = 3) (hother : t.holder ≠ m.pkg) (hwant : t.want.contains m.pkg = false) :
    exec (.tokreq m) s =
      .next { s with toks := s.toks.map fun t => if t.region = m.region then { t with want := t.want ++ [m.pkg] } else t } := by
  show execTokreq m s = _
  unfold execTokreq
  rw [h]
  refine event_pos ?_
  rw [decide_eq_true htier, decide_eq_true ⟨hst, hother⟩, hwant]
  rfl
/-- A remote command after a grant of region `r`. -/
def Cmd.granted (r : Nat) (k : Cmd) : Cmd := match k.instr with
  | .tacq _ => if k.region = r ∧ k.rsp.isNone then { k with rsp := some (0, 0, 0) } else k
  | _ => k
theorem exec_tokgrant_held {m : TokMsg} {t : OwnTok} (h : s.ownTok m.region = some t) (hst : t.st = 1) : exec (.tokgrant m) s =
    .next { s with toks := s.toks.map fun t => if t.region = m.region then { t with st := 0 } else t,
                   cores := s.cores.map fun c => (c.1, { c.2 with remLoose := c.2.remLoose.map (Cmd.granted m.region) }) } := by
  show execTokgrant m s = _
  unfold execTokgrant
  rw [h]
  exact if_pos hst
theorem exec_tokgrant_home {m : TokMsg} {t : OwnTok} (h : s.ownTok m.region = some t) (hst : t.st = 3) (hholder : t.holder = m.pkg) :
    exec (.tokgrant m) s = .next (s.tokenHome m.region) := by
  show execTokgrant m s = _
  unfold execTokgrant
  rw [h]
  exact (if_neg (by omega)).trans (event_pos (decide_eq_true ⟨hst, hholder⟩))
theorem exec_tokrecall {m : TokMsg} {t : OwnTok} (h : s.ownTok m.region = some t) (hst : t.st = 0) : exec (.tokrecall m) s =
    .next { s.cleanLines (inRegion m.region) with
      toks := s.toks.map fun t => if t.region = m.region then { t with st := 2 } else t } := by
  show execTokrecall m s = _
  unfold execTokrecall
  rw [h]
  exact event_pos (decide_eq_true hst)
/-- The `tacq` that waits for a granted region has its answer. -/
theorem granted_mem {r c : Nat} {o : FE} {k : Cmd} (hk : k ∈ (s.core' c).remLoose) (hi : k.instr = .tacq o) (hr : k.region = r) (hn : k.rsp = none) :
    { k with rsp := some (0, 0, 0) } ∈
      (tget ({} : Core) (s.cores.map fun c => (c.1, { c.2 with remLoose := c.2.remLoose.map (Cmd.granted r) })) c).remLoose := by
  have hg : k.granted r = { k with rsp := some (0, 0, 0) } := by
    unfold Cmd.granted
    rw [hi]
    exact if_pos ⟨hr, by rw [hn]; rfl⟩
  rw [tget_mapValues (fun x : Core => { x with remLoose := x.remLoose.map (Cmd.granted r) }) rfl, ← hg]
  exact List.mem_map_of_mem hk
end
end Sys2Proof.Machine

namespace Sys2Proof.Claims
open Sys2Proof.Machine

/-- Settles O47: each message is one case of what the package has asked for and holds; a loss leaves every partition entry, so it is
applied once, and what a record in a frame writes lies within one line, so no line of a region that has left comes back. -/
theorem poolAndTokenMessages : Obligations.PoolAndTokenMessages := by
  intro s
  refine ⟨fun m k h => exec_poolreq s h, fun m k hn hk hp hr hu => ?_, fun w h => exec_kittySwitchLoss s h,
    fun p h hp => exec_peerTimeout s h hp, fun m v n hv hm hone => ?_, fun m htier => ⟨?_, ?_⟩, fun m t h hst => ?_,
    fun m t h hst hholder => ?_, fun m t h hst => exec_tokrecall s h hst, fun t ht hst hr => ?_⟩
  · intro entry n told
    have hw (hi : isPool k.instr = true) : s.expects k = true := expects_of s hi hp hr hu
    refine ⟨fun o hi => ⟨fun h0 hfit => ?_, fun hst => ?_⟩, fun o hi => ⟨fun h0 hnum => ?_, fun h5 => ?_⟩, fun o hi hnum hst => ?_⟩
    · have hpool : isPool k.instr = true := by rcases hi with hi | hi <;> rw [hi] <;> rfl
      refine ⟨s.allotted k n entry, ?_, allotted_pool s k n entry, allotted_used s k n entry, rfl⟩
      rw [exec_poolrsp_alloc s hn hk hi, if_pos h0, hw hpool]
      exact event_pos hfit
    · have hpool : isPool k.instr = true := by rcases hi with hi | hi <;> rw [hi] <;> rfl
      rw [exec_poolrsp_alloc s hn hk hi, if_neg (by rintro h0; rw [h0] at hst; exact absurd hst.1 (by decide)), hw hpool]
      exact event_pos (decide_eq_true hst.2)
    · intro own hown
      have hfits : (!bit own.toNat 0 || decide (genOf entry = (genOf own + 1) % 65536)) = true := by
        rcases hown with h | h
        · rw [h]
          rfl
        · rw [decide_eq_true h, Bool.or_true]
      rw [exec_poolrsp_free s hn hk hi, if_pos h0, hw (by rw [hi]; rfl), decide_eq_true hnum]
      exact event_pos hfits
    · rw [exec_poolrsp_free s hn hk hi, if_neg (by rw [h5]; decide), hw (by rw [hi]; rfl)]
      exact event_pos (decide_eq_true h5)
    · rw [exec_poolrsp_query s hn hk hi, hw (by rw [hi]; rfl)]
      exact event_pos (decide_eq_true ⟨hnum, hst⟩)
  · intro e hvalid hlive
    exact ⟨s.lossEntry n e, exec_loss s hv hm hone hvalid hlive, applyLoss_pool _ _ _ _, lossEntry_plain s n e, lossEntry_cases s n e⟩
  · exact exec_tokreq_lends s htier
  · exact fun t h hst hother hwant => exec_tokreq_queues s htier h hst hother hwant
  · exact ⟨_, exec_tokgrant_held s h hst, rfl, rfl, rfl, fun c o k hk hi hr hn => granted_mem s hk hi hr hn⟩
  · exact exec_tokgrant_home s h hst hholder
  · obtain ⟨hlines, htoks⟩ := tokensOver_left ht hst hr
    exact ⟨fun l hl => hlines _ (List.mem_map_of_mem hl), htoks⟩

end Sys2Proof.Claims


namespace Sys2Proof.Claims
open Sys2Proof.Machine

/-! ### A store whose issuer is a saved context (R235, R354, R390, R413)

The records of what a translation meets go to the frame of an issuer whose number names a saved context, through memory; a trigger that
watches the frame then fires, and its packet enters the write queue for the trigger's function, not for the store's. A live issuer's records
go to its own event queue and reach no memory; but the last clause of O60 speaks of every state, and no hypothesis asks for a live issuer. -/

/-- What the translation of a scalar store leaves in the write queues, the store leaves there too. -/
theorem stS_keeps_translation_entries {s t u : State} {o : FM} {x : Xlate} (hspace : s.eff.space ≤ 2)
    (hal : (s.fmAddr o (fmtWidth o.ty / 8)).toNat % (fmtWidth o.ty / 8) = 0) (ho : s.eff.ord = 0 ∨ s.eff.ord = 2)
    (hs : sourcesSound s (.stS o)) (hx : s.directPart s.eff (s.fmAddr o (fmtWidth o.ty / 8)) (fmtWidth o.ty / 8) false 0 = .ok x)
    (hfmt : ∀ f, x.fmt = some f → fmtWidth (fmtOf f) = fmtWidth o.ty) (ht : (eccNoted s (.stS o)).ordered s.eff = .ok t)
    (hu : exec (.stS o) s = .next u) {e : WqEntry} (he : e ∈ (t.fillWalk t.me.vfid x).wq) : e ∈ u.wq := by
  obtain ⟨a, b, hw, hn, -⟩ := (scalarLoadsAndStores s o x hspace hal).2.2 t ho hs hx hfmt ht
  obtain rfl := Host.Outcome.next.inj (hn.symm.trans hu)
  rw [hw] at he
  exact (List.mem_append.1 he).elim (List.mem_append_left _) fun h => List.mem_append_right a (List.mem_cons_of_mem _ h)

/-- Function 0: 1 MiB of tower 0's TSRAM, the page tables at its 4 KiB and the save area at its 128 KiB. -/
def storingVf : Vf :=
  { part := BitVec.ofNat 1024 (2 ^ 264 + 0x1000001000 * 2 ^ 384 + 0x1000020 * 2 ^ 588)
    attrs := [(0, BitVec.ofNat 64 (2 + 2 * 2 ^ 40))] }
/-- Function 1: the MiB behind it, mapped at 0x10000 as INT8, readable and writable. -/
def watchingVf : Vf :=
  { part := BitVec.ofNat 1024 (2 ^ 256 + 2 ^ 264)
    ranges := [(0, BitVec.ofNat 256 (0x10000 + 0x10FFF * 2 ^ 64 + 0x1000100000 * 2 ^ 128 + 7 * 2 ^ 192 + 2 * 2 ^ 195 + 2 * 2 ^ 200))] }
/-- A trigger of function 1 on the event configuration in the first save frame; its packet increments a flag word. -/
def frameTrigger : Trig := { valid := true, vf := 1, caddr := 0x1000030D68, packet := BitVec.ofNat 512 (2 + 0x10000 * 2 ^ 64) }
/-- The top table of function 0 leads to a table whose first entry maps 1 GiB, writable, and the first frame subscribes to corrected errors. -/
def frameMem : List Host.Cell :=
  leWrite (leWrite (leWrite [] 0x1000001000 0x1000002001 8) 0x1000002000 0x100000000F 8) 0x1000030D68 8 8
/-- The saved context 4096 of function 0 about to store to 0x8000, with a corrected error in the table word that maps it. -/
def savedIssuer : State :=
  { cur := 4096, ctxs := [(4096, { state := 1, sreg := [(1, 0x8000)] })], vfs := [(0, storingVf), (1, watchingVf)],
    towers := [(0, { trigs := [(0, frameTrigger)] })], mem := frameMem, memSoft := [0x1000001000] }
/-- Its store: a byte of s2 to the address in s1. -/
def savedStore : FM := { v := false, lat := 0, sh := 0, msk := 0, d := 2, a := 1, b := 0, disp := 0, ty := 2 }
/-- The translation of the store's address. -/
def savedPart : Xlate :=
  { pa := 0x1000008000, tier := 2, fmt := some 2, map := 64, fills := [(0x1000001000, 0x1000002001), (0x1000002000, 0x100000000F)] }

theorem savedIssuer_part : savedIssuer.directPart savedIssuer.eff (savedIssuer.fmAddr savedStore (fmtWidth savedStore.ty / 8))
    (fmtWidth savedStore.ty / 8) false 0 = .ok savedPart := by decide +kernel
theorem savedIssuer_ordered : (eccNoted savedIssuer (.stS savedStore)).ordered savedIssuer.eff =
    .ok (eccNoted savedIssuer (.stS savedStore)) := by rfl
/-- The translation's record fires function 1's trigger. -/
theorem savedIssuer_fires : ((eccNoted savedIssuer (.stS savedStore)).fillWalk 0 savedPart).wq.any (fun e => e.vf = 1) = true := by
  decide +kernel

/-- Refutes O60: the record of an error corrected in a store's page walk goes to the frame of its issuer, a saved context, where a
trigger of another function watches; its packet enters the write queue with the store. -/
theorem not_translationProtectsFunctions : ¬ Obligations.TranslationProtectsFunctions := by
  rintro ⟨-, -, -, -, -, -, -, -, hown⟩
  have hsound : sourcesSound savedIssuer (.stS savedStore) := by decide +kernel
  obtain ⟨t, ht⟩ := exec_next (.stS savedStore) savedIssuer
  obtain ⟨e, he, hvf⟩ := List.any_eq_true.1 savedIssuer_fires
  have hin : e ∈ t.wq := stS_keeps_translation_entries (by decide +kernel) (by decide +kernel) (by decide +kernel) hsound savedIssuer_part
    (fun f hf => Option.some.inj hf ▸ rfl) savedIssuer_ordered ht he
  rcases hown savedIssuer t savedStore _ List.mem_cons_self ht e hin with h | ⟨h, -⟩
  · exact List.not_mem_nil h
  · exact absurd (h.symm.trans (of_decide_eq_true hvf)) (by decide +kernel)

end Sys2Proof.Claims

namespace Sys2Proof.Machine

/-! ### What an arrival meets (R354, R402, R432)

An arrival answers to no context, so what its walks and its reads meet is counted for the function and told to nobody. -/

theorem keepWalk_offVfs (s : State) (v : Nat) (l : List (Nat × Word)) : (s.keepWalk v l).offVfs = s.offVfs := by
  unfold State.keepWalk
  split
  · rfl
  · exact foldl_same State.offVfs _ (fun t _ => foldl_same State.offVfs _ (fun _ _ => by rfl) _ t) _ s
theorem markWalk_offVfs (s : State) (v a : Nat) : (s.markWalk v a).offVfs = s.offVfs := by
  unfold State.markWalk
  split <;> rfl
theorem walkTold_nobody_offVfs (s : State) (v : Nat) (l : List (Nat × Word)) : (s.walkTold v nobody l).offVfs = s.offVfs :=
  (foldl_same State.offVfs _ (fun _ _ => by rw [tellSoft_nobody]) _ _).trans (keepWalk_offVfs s v l)
/-- What an arrival's translation leaves: the entries that it read, and their counts. -/
theorem inboundNote_offVfs (s : State) (v : Nat) (va : Word) : (s.inboundNote v va).offVfs = s.offVfs := by
  unfold State.inboundNote State.walked
  dsimp only
  split
  · exact (markWalk_offVfs _ _ _).trans (walkTold_nobody_offVfs _ _ _)
  · exact walkTold_nobody_offVfs _ _ _

/-- A read from outside, whether its bytes translate or not, is noted and counted, and changes nothing else. -/
theorem exec_ualinkRead (s : State) (m : LinkReq) : ∃ t, exec (.ualinkRead m) s = .next t ∧ t.offVfs = s.offVfs := by
  have hnoted : ((blocksOf m.va (List.range m.n)).foldl (fun s a => s.inboundNote m.vf a) s).offVfs = s.offVfs :=
    foldl_same State.offVfs _ (fun t a => inboundNote_offVfs t m.vf a) _ s
  dsimp only [exec, execUalinkRead]
  split
  · exact ⟨_, rfl, (foldl_same State.offVfs _ (fun t u => eccMet_nobody_offVfs t m.vf u 1) _ _).trans hnoted⟩
  · exact ⟨_, rfl, hnoted⟩

/-! ### Writes that arrive (R341, R467) -/

theorem eraseDups_of_forall_eq {α : Type} [DecidableEq α] {l : List α} {b : α} (hl : l ≠ []) (h : ∀ a ∈ l, a = b) :
    l.eraseDups = [b] := by
  cases l with
  | nil => exact absurd rfl hl
  | cons a l =>
    have hrest : (l.filter fun x => !x == a) = [] :=
      List.filter_eq_nil_iff.2 fun x hx => by simp [h x (List.mem_cons_of_mem _ hx), h a List.mem_cons_self]
    rw [List.eraseDups_cons, hrest, h a List.mem_cons_self]
    rfl

/-- A write whose bytes lie in one block that translates is one write at its port. -/
theorem inboundWrite_block (s : State) {v b pa : Nat} {va : Word} {cells : List Sys2Proof.Cell} (hne : cells ≠ [])
    (hb : ∀ c ∈ cells, (va + BitVec.ofNat 64 c.off).toNat / 4096 = b)
    (hpa : s.inbound v (BitVec.ofNat 64 (4096 * b)) false true = some pa) :
    s.inboundWrite v va cells =
      some (s.portWrite pa (cells.map fun c => { c with off := (va + BitVec.ofNat 64 c.off).toNat % 4096 }) 0) := by
  have hblocks : (cells.map fun c => (va + BitVec.ofNat 64 c.off).toNat / 4096).eraseDups = [b] :=
    eraseDups_of_forall_eq (by simpa using hne) (by simpa using hb)
  have hmine : (cells.filter fun c => (va + BitVec.ofNat 64 c.off).toNat / 4096 = b) = cells :=
    List.filter_eq_self.2 fun c hc => by simpa using hb c hc
  dsimp only [State.inboundWrite]
  rw [hblocks]
  simp only [List.mapM_cons, List.mapM_nil, hpa, Option.map_some, Option.pure_def, Option.bind_eq_bind, Option.bind_some, List.foldl_cons,
    List.foldl_nil, hmine]

/-- With nothing queued, a write at its port is performed at once. -/
theorem portWrite_empty (s : State) (pa : Nat) (cells : List Sys2Proof.Cell) (c : Nat) (hq : s.wq = []) :
    s.portWrite pa cells c = s.performWrite pa cells c := by
  have hdrain (l : Nat) : s.drainLine l = s := by
    rw [State.drainLine, hq]
    rfl
  rw [State.portWrite, foldl_idle _ _ s fun l _ => hdrain (64 * l)]

section Fwrite
variable (s : State) {m : WriteMsg} {v : Nat} {va : Word}

/-- A write without a flag ends with its bytes, or with its notes where they do not translate. -/
theorem exec_fwrite_here (hd : m.dest = .here v va) (hf : m.flag = none) : let u := s.writeNotes v va m.cells
    exec (.fwrite m) s = .next ((u.inboundWrite v va m.cells).getD u) := by
  simp [exec, execFwrite, hd, hf]

/-- The flag of a write is counted behind its bytes. -/
theorem exec_fwrite_flag {w pa : Nat} {f : Word} {t : State} (hd : m.dest = .here v va) (hf : m.flag = some (.here w f))
    (ht : ((s.writeNotes v va m.cells).inboundNote w f).inboundWrite v va m.cells = some t) (hal : f.toNat % 8 = 0)
    (hpa : t.inbound w f false true = some pa) : exec (.fwrite m) s = .next (t.portIncrement w nobody pa m.bytes 0) := by
  simp [exec, execFwrite, hd, hf, ht, State.arriveFlag, hal, hpa]

/-- Another package's bytes at a peer or a switch stand in this model's memory (log entry 12). -/
theorem exec_fwrite_away {pa : Nat} (hd : m.dest = .away pa) (hf : m.flag = none) (hok : s.awayOk pa = true) :
    exec (.fwrite m) s = .next { s with mem := awayWrite s.mem pa m.cells } := by
  simp [exec, execFwrite, hd, hf, hok]
end Fwrite

/-! ### Flags, line adds and atomics that arrive (R250, R264, R392, R432) -/

theorem exec_flaginc (s : State) {m : FlagMsg} (ht : tierOf m.pa = 2 ∨ tierOf m.pa = 3) :
    exec (.flaginc m) s = .next (s.countBytes m.pa m.bytes) :=
  event_pos (decide_eq_true ht)
theorem exec_trigarr (s : State) {m : FlagMsg} (hal : m.pa % 8 = 0) (ht : tierOf m.pa = 2 ∨ tierOf m.pa = 3) :
    exec (.trigarr m) s = .next (s.portIncrement ((s.ownerOf m.pa).getD 0) nobody m.pa m.bytes 0) :=
  event_pos (decide_eq_true ⟨hal, ht⟩)

theorem exec_lineadd (s : State) {m : LineMsg} {v pa : Nat} {va : Word} (hd : m.dest = .here v va) (hal : va.toNat % 64 = 0)
    (hpa : (s.inboundNote v va).inbound v va true true = some pa) :
    let w := (m.elems.map fun e => eccUnit (pa + e.1 * m.ew / 8)).eraseDups.foldl (fun s a => s.engineMeets (accessOf v nobody) a 1)
      ((s.inboundNote v va).drainLine pa)
    exec (.lineadd m) s = .next (w.performWrite pa (lineCells m.ew (lineAdds m (w.readLe pa 64))) 0) := by
  simp only [exec, execLineadd, hd, hpa]
  exact event_pos (decide_eq_true hal)

theorem exec_ualinkAtomic (s : State) {m : LinkReq} {pa v : Nat} (hn : m.n = 4 ∨ m.n = 8) (hal : m.va.toNat % m.n = 0)
    (hpa : (s.inboundNote m.vf m.va).inbound m.vf m.va true true = some pa) :
    let w := ((s.inboundNote m.vf m.va).drainLine pa).engineMeets (accessOf m.vf nobody) pa m.n
    badIn w.memBad pa m.n = false → amoStep (linkOp m.op) (8 * m.n) (w.readLe pa m.n) m.operand.toNat m.compare.toNat = some v →
      exec (.ualinkAtomic m) s = .next (w.performWrite pa (cellsOf v m.n) 0) := by
  intro w hgood hv
  simp only [exec, execUalinkAtomic, hpa]
  rw [event_pos (decide_eq_true ⟨hn, hal⟩), if_neg (by simp [w, hgood])]
  simp only [w, hv]

end Sys2Proof.Machine

namespace Sys2Proof.Claims
open Sys2Proof.Machine

/-- Settles O48: each arrival is one case of its translation; what it meets is counted for its function and told to nobody, so a read
changes no memory. -/
theorem arrivalsActOnMemory : Obligations.ArrivalsActOnMemory := by
  intro s
  refine ⟨fun v va cells b pa hne hb hpa => inboundWrite_block s hne hb hpa, fun pa cells c hq => portWrite_empty s pa cells c hq,
    fun m v va hd => ⟨fun hf => ⟨fun t ht => ?_, fun ht => ?_⟩, fun w f t pa hf ht hal hpa => exec_fwrite_flag s hd hf ht hal hpa⟩,
    fun m pa hd hf hok => exec_fwrite_away s hd hf hok, fun m htier => ⟨exec_flaginc s htier, fun hal => exec_trigarr s hal htier⟩,
    fun m v va pa hd hal hpa => exec_lineadd s hd hal hpa,
    fun m => ⟨fun t ht => ?_, fun pa v hn hal hpa hgood hv => exec_ualinkAtomic s hn hal hpa hgood hv, ?_⟩, fun port v => rfl⟩
  · rw [exec_fwrite_here s hd hf, ht]
    rfl
  · rw [exec_fwrite_here s hd hf, ht]
    rfl
  · exact congrArg (fun o : Option State => Host.Outcome.next (o.getD _)) ht
  · obtain ⟨t, ht, hoff⟩ := exec_ualinkRead s m
    exact ⟨t, ht, (congrArg State.mem hoff :), (congrArg State.cache hoff :), (congrArg State.ctxs hoff :)⟩

end Sys2Proof.Claims

namespace Sys2Proof.Claims
open Sys2Proof.Machine

/-! ### Gathers, scatters and copies at issue (R278-R280, R284) -/

theorem plainMods_ok {m : Mods} (hs : m.space = 0) (ho : m.ord = 0) : plainMods m = .ok () := ensure_decide ⟨hs, ho⟩ _

section
variable {s : State} {o : FE} {i : Instr} (hs : s.eff.space = 0) (ho : s.eff.ord = 0) (ht : tokenFree s o)
include hs ho ht

/-- A gather or scatter of plain order whose shape counts a whole tile enters the copy engine's queue. -/
theorem indexed_queued {act : MaskReg} (hq : copyRoom s) (hact : s.feActive o 32 = .ok act) (hr : s.operandsReady i = true)
    (f : State → Cmd → Cmd) : s.indexed i o f = toCopyQueue (s.noted i)
      (f (s.noted i) { s.newCmd i o s.eff with act := act, sa := s.rs o.a, tb := s.rv (feCl o) o.b }) :=
  syl_ok s i _ hr ((bind_ok (plainMods_ok hs ho) _).trans ((bind_ok (a := act) hact _).trans ((bind_ok (tokenFree_noted i ht) _).trans
    (toCopy_noted i hq _))))
/-- A copy of plain order is issued with the registers that it reads. -/
theorem copyCmd_noted : (s.noted i).copyCmd i o =
    .ok { s.newCmd i o s.eff with sd := s.rs o.d, sa := s.rs o.a, sb := s.rs o.b } :=
  (bind_ok (plainMods_ok hs ho) _).trans ((bind_ok (tokenFree_noted i ht) _).trans rfl)
end

/-- Settles O31: an indexed access passes its order, its shape and its token, a copy its order and its token; then both enter the queue. -/
theorem copyEngineCommandsIssue : Obligations.CopyEngineCommandsIssue := by
  intro s o act hs ho ht hq
  refine ⟨fun hact => ⟨fun hr => ?_, fun hr => ?_, fun hr => ?_⟩, fun hr => ?_, fun hr => ?_⟩
  · exact indexed_queued hs ho ht hq hact hr fun t k => { k with dest := [⟨tileFile (feCl o), t.spec 64 o.d⟩] }
  · exact indexed_queued hs ho ht hq hact hr fun t k => { k with td := t.rv (feCl o) o.d }
  · exact indexed_queued hs ho ht hq hact hr fun t k => { k with td := t.rv (feCl o) o.d }
  · exact syl_ok s (.dcopy o) _ hr ((bind_ok (copyCmd_noted hs ho ht) _).trans (toCopy_noted _ hq _))
  · exact syl_ok s (.dcopyCsum o) _ hr ((bind_ok (copyCmd_noted hs ho ht) _).trans (toCopy_noted _ hq _))

/-! ### Remote blocks at issue (R285, R286) -/

theorem xmap_noted (s : State) (i : Instr) (v : Nat) (va : Word) : (s.noted i).xmap v va = s.xmap v va := rfl
theorem xlate_noted (s : State) (i : Instr) (v : Nat) (va : Word) (rd wr : Bool) (c : Nat) :
    (s.noted i).xlate v va rd wr c = s.xlate v va rd wr c := rfl
theorem eff_noted (s : State) (i : Instr) : (s.noted i).eff = s.eff := rfl
theorem remoteLines_noted (s : State) (i : Instr) (o : FE) (m : Mods) (ea : Word) (act : MaskReg) (wr : Bool) :
    (s.noted i).remoteLines o m ea act wr = s.remoteLines o m ea act wr := by
  unfold State.remoteLines
  rfl

/-- The command of an `rst` of the lines `lines` with the flag word `flag`, where `t` is the state that its order leaves. -/
def rstCmd (s t : State) (o : FE) (act : MaskReg) (lines : List (Word × Xlate)) (flag : Option (Word × Xlate)) : Cmd :=
  { t.newCmd (.rst o) o s.eff with
    sa := s.rs o.a, sd := s.rs o.d, tb := t.rv (feCl o) o.b, act := act, flag := flag.map (·.2.pa), pas := lines.map fun l => (l.1, l.2.pa) }
/-- The flag word that an `rst` of lines `lines` names (R286): none, or an aligned word at the target of every line. -/
inductive FlagNamed (s : State) (o : FE) (lines : List (Word × Xlate)) : Option (Word × Xlate) → Prop
  | none (hd : s.rs o.d = 0) : FlagNamed s o lines .none
  | word {f : Xlate} (hd : s.rs o.d ≠ 0) (hal : (s.rs o.d).toNat % 8 = 0)
      (hx : s.xlate s.me.vfid (s.rs o.d) false true s.eff.cache = .ok f) (htgt : ∀ l ∈ lines, targetOf l.2.pa = targetOf f.pa) :
      FlagNamed s o lines (some (s.rs o.d, f))

section
variable {s t : State} {o : FE} {act : MaskReg} {lines : List (Word × Xlate)}
  (hspace : s.eff.space = 0 ∨ s.eff.space = 4 ∨ s.eff.space = 5) (hal : (s.rs o.a).toNat % 64 = 0) (hact : s.feActive o 8 = .ok act)
  (ht : tokenFree s o) (hq : remoteRoom s)
include hspace hal hact ht hq

/-- A block load whose active lines translate enters the queue. -/
theorem exec_rld (ho : s.eff.ord < 2) (hl : s.remoteLines o s.eff (s.rs o.a) act false = .ok lines) (hr : s.operandsReady (.rld o) = true)
    (hord : (s.noted (.rld o)).ordered s.eff = .ok t) :
    exec (.rld o) s = toRemoteQueue (t.fillWalks lines) { t.newCmd (.rld o) o s.eff with
      sa := s.rs o.a, act := act, pas := lines.map fun l => (l.1, l.2.pa), parts := partsOf lines,
      dest := [⟨tileFile (feCl o), t.spec 64 o.d⟩] } := by
  refine syl_ok s (.rld o) _ hr ?_
  refine (bind_ok (ensure_decide ⟨hspace, ho⟩ _) _).trans ?_
  refine (bind_ok (alignedTo_ok hal) _).trans ?_
  refine (bind_ok (a := act) hact _).trans ?_
  refine (bind_ok (a := lines) ((remoteLines_noted ..).trans hl) _).trans ?_
  refine (bind_ok (tokenFree_noted _ ht) _).trans ?_
  exact walkedRemote_ok hq hord _ _
/-- A block store with an active line, whose lines translate and whose flag word passes its checks, enters the queue. -/
theorem exec_rst {flag : Option (Word × Xlate)} (ho : s.eff.ord = 0 ∨ s.eff.ord = 2)
    (hl : s.remoteLines o s.eff (s.rs o.a) act true = .ok lines) (hne : lines ≠ []) (hf : FlagNamed s o lines flag)
    (hr : s.operandsReady (.rst o) = true) (hord : (s.noted (.rst o)).ordered s.eff = .ok t) :
    exec (.rst o) s = toRemoteQueue (t.fillWalks (lines ++ flag.toList)) (rstCmd s t o act lines flag) := by
  refine syl_ok s (.rst o) _ hr ?_
  refine (bind_ok (ensure_decide ⟨hspace, ho⟩ _) _).trans ?_
  refine (bind_ok (alignedTo_ok hal) _).trans ?_
  refine (bind_ok (a := act) hact _).trans ?_
  refine (bind_ok (a := lines) ((remoteLines_noted ..).trans hl) _).trans ?_
  refine (if_neg (by simpa using hne)).trans ?_
  have queued := (check_passed (tokenFree_noted (.rst o) ht) fun _ => (s.noted (.rst o)).ordered s.eff >>= fun u =>
    (u.fillWalks (lines ++ flag.toList)).toRemote (rstCmd s u o act lines flag)).trans (walkedRemote_ok hq hord _ _)
  cases hf with
  | none hd => exact (if_pos hd).trans queued
  | word hd hdal hx htgt =>
    refine (if_neg hd).trans ((bind_ok (alignedTo_ok hdal) _).trans ?_)
    rw [xlate_noted, noted_me, noted_rs, eff_noted, hx]
    exact (if_pos (by simpa using htgt)).trans queued
end

/-- Settles O32: a block access passes its modifiers, its alignment, its lines and, for a store, its flag word, and then enters the queue. -/
theorem remoteBlocksIssue : Obligations.RemoteBlocksIssue := by
  intro s o act lines m ea pas hspace hal hact ht hq
  refine ⟨fun t ho hl hne hd hr hord => ?_, fun f t ho hl hne hd hdal hf htgt hr hord => ?_,
    fun t ho hl hr hord => exec_rld hspace hal hact ht hq ho hl hr hord⟩
  · rw [exec_rst hspace hal hact ht hq ho hl hne (.none hd) hr hord, rstCmd, hd, Option.toList_none, List.append_nil]
    rfl
  · exact exec_rst hspace hal hact ht hq ho hl hne (.word hd hdal hf htgt) hr hord

end Sys2Proof.Claims

namespace Sys2Proof.Machine

/-! ### What waits for an owner's accesses beside a translation's records (R305, R341, R354, R389)

The record of an error corrected in a page walk goes to the frame of an issuer whose number names a saved context, through memory, where a
trigger may fire. Its packet is the only entry that the write queues then take, and no context owns it. -/

theorem walkKept_offVfs (s : State) (v : Nat) (va : Word) : (s.walkKept v va).offVfs = s.offVfs := by
  unfold State.walkKept
  dsimp only
  split
  · exact (markWalk_offVfs _ _ _).trans (keepWalk_offVfs _ _ _)
  · exact keepWalk_offVfs _ _ _
theorem packetWalks_offVfs (s : State) (v p : Nat) : (s.packetWalks v p).offVfs = s.offVfs := by
  unfold State.packetWalks
  dsimp only
  split
  · exact (walkKept_offVfs _ _ _).trans (walkKept_offVfs _ _ _)
  · exact walkKept_offVfs _ _ _
theorem ringTail_wq {s t : State} {v pa : Nat} (h : s.ringTail v pa = some t) : t.wq = s.wq := by
  unfold State.ringTail at h
  split at h
  · split at h <;> cases h
    rfl
  · dsimp only at h
    split at h <;> cases h
    rfl
theorem modSaved_wq (s : State) (v g : Nat) (f : Saved → Saved) : (s.modSaved v g f).wq = s.wq := rfl
theorem putByte_wq (s : State) (pa : Nat) (v e : Byte) : (s.putByte pa v e).wq = s.wq := by
  unfold State.putByte
  split <;> rfl
theorem cacheFill_wq (s : State) (n : Nat) (k : Bool) : (s.cacheFill n k).wq = s.wq := by
  unfold State.cacheFill
  extract_lets room l
  split
  · rfl
  · unfold room
    repeat' split
    all_goals rfl
theorem storeCells_wq (s : State) (pa : Nat) (cells : List Sys2Proof.Cell) (c : Nat) : (s.storeCells pa cells c).wq = s.wq := by
  unfold State.storeCells
  extract_lets filled stored cleaned
  have hf : filled.wq = s.wq := by
    unfold filled
    split
    · exact foldl_same State.wq _ (fun _ _ => cacheFill_wq _ _ _) _ _
    · rfl
  have hs : stored.wq = s.wq := (foldl_same State.wq _ (fun _ _ => putByte_wq _ _ _ _) _ _).trans hf
  unfold cleaned
  split <;> exact hs

theorem writesPending_of_wq {s t : State} (h : t.wq = s.wq) (g m : Nat) : t.writesPending g m = s.writesPending g m := by
  unfold State.writesPending
  rw [h]
/-- An increment joins no reduction. -/
theorem join_increment (x e : WqEntry) {n : Nat} (h : e.op = .increment n) : x.join e = none := by
  unfold WqEntry.join
  rw [h]
  cases x.op <;> rfl
theorem enqueue_increment_wq (s : State) (e : WqEntry) {n : Nat} (h : e.op = .increment n) :
    (s.enqueue e).wq = s.wq ++ [{ e with
      n := s.serial + 1, at' := s.tick, due := s.tick + 1 + tierDelay (if e.face then 1 else tierOf e.pa) (s.serial + 1) 0 }] := by
  unfold State.enqueue
  dsimp only
  split
  next k y hk =>
    obtain ⟨x, -, hx⟩ := Option.bind_eq_some_iff.1 hk
    obtain ⟨z, hz, -⟩ := Option.map_eq_some_iff.1 hx
    exact absurd ((join_increment x _ h).symm.trans hz) nofun
  next => rw [h]

section
variable {g : Nat} (hg : g ≠ packetOwner) (m : Nat)
include hg

/-- An entry of a trigger's packet keeps no other owner waiting. -/
theorem enqueue_writesPending (s : State) {e : WqEntry} (he : e.g = packetOwner) (hop : e.isReduce = false) :
    (s.enqueue e).writesPending g m = s.writesPending g m := by
  have other : decide (e.g = g) = false := decide_eq_false fun h => hg (h.symm.trans he)
  unfold State.writesPending
  cases h : e.op with
  | store cells =>
    obtain ⟨a, b, hw, hq, -⟩ := enqueue_store_split s e h
    simp [hw, hq, other]
  | reduce i w vals n =>
    rw [WqEntry.isReduce, h] at hop
    cases hop
  | increment n => simp [enqueue_increment_wq s e h, other]
theorem firePacket_writesPending {s t : State} {v p : Nat} (h : s.firePacket v p = some t) : t.writesPending g m = s.writesPending g m := by
  unfold State.firePacket at h
  dsimp only at h
  split at h
  · obtain ⟨x, -, hx⟩ := Option.bind_eq_some_iff.1 h
    exact writesPending_of_wq (ringTail_wq hx) g m
  · obtain ⟨x, -, hx⟩ := Option.bind_eq_some_iff.1 h
    split at hx
    · cases hx
    · split at hx
      · split at hx <;> cases hx
        exact enqueue_writesPending hg m s rfl rfl
      · obtain ⟨y, -, hy⟩ := Option.bind_eq_some_iff.1 hx
        split at hy <;> cases hy
        exact enqueue_writesPending hg m s rfl rfl
  · obtain ⟨x, -, hx⟩ := Option.bind_eq_some_iff.1 h
    split at hx <;> cases hx
    exact enqueue_writesPending hg m s rfl rfl
theorem testTrigger_writesPending (s : State) (w : Nat) : (s.testTrigger w).writesPending g m = s.writesPending g m := by
  unfold State.testTrigger
  split
  · rfl
  extract_lets t
  split
  · rfl
  next i _ =>
    extract_lets e fired quiet
    have hq : quiet.writesPending g m = s.writesPending g m :=
      writesPending_of_wq (congrArg State.wq (packetWalks_offVfs fired e.vf e.packet.toNat) :) g m
    split
    · split
      next hp => exact (firePacket_writesPending hg m hp).trans hq
      next => exact hq
    · rfl
theorem framePut_writesPending (s : State) (v h off n val : Nat) : (s.framePut v h off n val).writesPending g m = s.writesPending g m :=
  (foldl_same (State.writesPending · g m) _ (testTrigger_writesPending hg m) _ _).trans (writesPending_of_wq (storeCells_wq s _ _ _) g m)
theorem framePost_writesPending (s : State) (v h : Nat) (r : EvRec) : (s.framePost v h r).writesPending g m = s.writesPending g m := by
  unfold State.framePost
  extract_lets cfg n recent old l put told
  clear_value l
  have hput : put.writesPending g m = s.writesPending g m :=
    foldl_same (State.writesPending · g m) _ (fun _ _ => framePut_writesPending hg m _ _ _ _ _ _) _ _
  have ht : told.writesPending g m = s.writesPending g m := (writesPending_of_wq (modSaved_wq put v h _) g m).trans hput
  clear_value told
  split
  · exact (framePut_writesPending hg m _ _ _ _ _ _).trans ht
  · exact (writesPending_of_wq (modCtx_wq _ _ _) g m).trans ((framePut_writesPending hg m _ _ _ _ _ _).trans ht)
theorem tellSoft_writesPending (s : State) (v h u : Nat) : (s.tellSoft v h u).writesPending g m = s.writesPending g m := by
  unfold State.tellSoft State.postTo
  split
  · split
    · rfl
    · split
      · exact framePost_writesPending hg m _ _ _ _
      · rfl
  · rfl
end

/-- Packets' owner is told of nothing. -/
theorem tellSoft_packetOwner (s : State) (v u : Nat) : s.tellSoft v packetOwner u = s := by
  have deaf : s.subscribes v packetOwner 3 = false := by
    rw [State.subscribes, if_neg (by decide), decide_eq_false (by decide), Bool.false_and]
  rw [State.tellSoft, deaf, if_neg Bool.false_ne_true]
theorem fillWalkFor_writesPending (s : State) (v : Nat) (x : Xlate) (m g : Nat) :
    (s.fillWalkFor v g x).writesPending g m = s.writesPending g m := by
  refine (foldl_same (State.writesPending · g m) _ (fun t u => ?_) _ _).trans
    (writesPending_of_wq (congrArg State.wq (keepWalk_offVfs s v x.fills) :) g m)
  by_cases hg : g = packetOwner
  · rw [hg, tellSoft_packetOwner]
  · exact tellSoft_writesPending hg m t v g u
/-- A translation of the issuing context keeps none of its accesses waiting. -/
theorem fillWalk_accessPending (s : State) (v : Nat) (x : Xlate) (m : Nat) :
    (s.fillWalk v x).accessPending s.cur m = s.accessPending s.cur m := by
  have hcores : (s.fillWalk v x).cores = s.cores := (congrArg State.cores (fillWalkFor_aside s v s.cur x) :)
  unfold State.accessPending State.remCmds State.core'
  rw [hcores, State.fillWalk, fillWalkFor_writesPending]

end Sys2Proof.Machine

namespace Sys2Proof.Claims
open Sys2Proof.Machine

/-! ### Pool instructions at issue (R290, R291) -/

section
variable {s : State} {o : FE} {i : Instr}

/-- With its token free and room in the queue, a command enters the remote engine's queue. -/
theorem tokened_toRemote (ht : tokenFree s o) (hq : remoteRoom s) (k : Cmd) :
    ((s.noted i).tokenFree o >>= fun _ => (s.noted i).toRemote k) =
      .ok (((s.noted i).issued k).modCore (coreOf s.cur) fun c => { c with remq := c.remq ++ [k] }) :=
  (bind_ok (tokenFree_noted i ht) _).trans (toRemote_noted i hq k)

theorem poolAlloc_queued (ht : tokenFree s o) (hq : remoteRoom s) (hr : s.operandsReady i = true)
    (h : 1 ≤ (s.rs o.a).toNat ∧ (s.rs o.a).toNat ≤ 1048576) : s.poolAlloc i o = toRemoteQueue (s.noted i)
      { s.newCmd i o {} with sa := s.rs o.a, dest := [⟨.s, s.spec 64 o.d⟩, ⟨.s, s.spec 64 o.b⟩] } :=
  syl_ok s i _ hr ((bind_ok (ensure_decide h _) _).trans (tokened_toRemote ht hq _))
theorem poolAlloc_unsized (hr : s.operandsReady i = true) (h : (s.rs o.a).toNat = 0 ∨ 1048576 < (s.rs o.a).toNat) :
    s.poolAlloc i o = .next (s.takeFault { slot := i.slot, code := 0x08 }) :=
  syl_fault s i _ _ hr (bind_error (ensure_of_false (decide_eq_false fun ⟨hlo, hhi⟩ => h.elim (Nat.ne_of_gt hlo) (Nat.not_lt.2 hhi)) _) _)

theorem exec_kfree (ht : tokenFree s o) (hq : remoteRoom s) (hr : s.operandsReady (.kfree o) = true) (hk : isKitty (s.rs o.a) = true)
    (h0 : bits (s.rs o.a).toNat 35 0 = 0) : exec (.kfree o) s = toRemoteQueue (s.noted (.kfree o))
      { s.newCmd (.kfree o) o {} with sa := s.rs o.a, dest := [⟨.s, s.spec 64 o.d⟩] } :=
  syl_ok s (.kfree o) _ hr ((bind_ok (ensure_of_true (Bool.and_eq_true_iff.2 ⟨hk, decide_eq_true h0⟩) _) _).trans (tokened_toRemote ht hq _))
theorem exec_kquery (ht : tokenFree s o) (hq : remoteRoom s) (hr : s.operandsReady (.kquery o) = true) (hk : isKitty (s.rs o.a) = true)
    (h0 : bits (s.rs o.a).toNat 35 0 = 0) : exec (.kquery o) s = toRemoteQueue (s.noted (.kquery o))
      { s.newCmd (.kquery o) o {} with sa := s.rs o.a, dest := [⟨.s, s.spec 64 o.d⟩, ⟨.s, s.spec 64 o.b⟩] } :=
  syl_ok s (.kquery o) _ hr ((bind_ok (ensure_of_true (Bool.and_eq_true_iff.2 ⟨hk, decide_eq_true h0⟩) _) _).trans (tokened_toRemote ht hq _))
/-- An address that is no allocation's first faults. -/
theorem kitty_unaligned (h : isKitty (s.rs o.a) = false ∨ bits (s.rs o.a).toNat 35 0 ≠ 0) : ∀ i ∈ [Instr.kfree o, .kquery o],
    s.operandsReady i = true → exec i s = .next (s.takeFault { slot := .e, code := 0x08 }) := by
  have hno : (isKitty (s.rs o.a) && decide (bits (s.rs o.a).toNat 35 0 = 0)) = false := by
    rcases h with h | h <;> simp [h]
  simp only [List.forall_mem_cons, List.not_mem_nil, false_imp_iff, implies_true, and_true]
  exact ⟨fun hr => syl_fault s (.kfree o) _ _ hr (bind_error (ensure_of_false hno _) _),
    fun hr => syl_fault s (.kquery o) _ _ hr (bind_error (ensure_of_false hno _) _)⟩
end

/-! ### Ownership tokens at issue (R292, R301, R303, R318) -/

theorem exec_tacq_eq {s : State} {o : FE} (hr : s.operandsReady (.tacq o) = true) : exec (.tacq o) s = settle .e s
    ((s.noted (.tacq o)).tokenCmd (.tacq o) o >>= fun p => p.1.ordered p.2.mods >>= fun t => t.toRemote p.2) :=
  syl_ready s (.tacq o) _ hr
theorem exec_trel_eq {s : State} {o : FE} (hr : s.operandsReady (.trel o) = true) : exec (.trel o) s = settle .e s
    ((s.noted (.trel o)).tokenCmd (.trel o) o >>= fun p => p.1.release 0xFFFF 2 >>= fun t => (t.podRelease 5).toRemote p.2) :=
  syl_ready s (.trel o) _ hr
/-- The command of an ownership token of the region that `x` translates. -/
def ownershipCmd (s : State) (i : Instr) (o : FE) (x : Xlate) : Cmd :=
  { s.newCmd i o { cls := bits s.me.memdef.toNat 3 0, scope := 5 } with
    sa := s.rs o.a, pas := [(s.rs o.a, x.pa)], dest := [⟨.s, s.spec 64 o.d⟩] }
theorem fillWalk_noted_aside (s : State) (i : Instr) (x : Xlate) : ((s.noted i).fillWalk s.me.vfid x).aside = (s.noted i).aside :=
  fillWalkFor_aside _ _ _ _

/-- A release behind the region's walk waits for what the context waited for before it. -/
theorem release_walked (s : State) (i : Instr) (x : Xlate) (m w : Nat) : ((s.noted i).fillWalk s.me.vfid x).release m w =
    if s.accessPending s.cur m = true then .error (.block w (.flush m)) else .ok (((s.noted i).fillWalk s.me.vfid x).takeClasses m) := by
  rw [release_eq, fillWalk_cur, fillWalk_accessPending]
  rfl

section
variable {s : State} {o : FE} {x : Xlate} {i : Instr} (hx : s.xmap s.me.vfid (s.rs o.a) = .ok x)
include hx

theorem tokenCmd_denied (hp : s.permOk s.me.vfid x false false = false) :
    (s.noted i).tokenCmd i o = .error (.fault 0x11 0 (s.rs o.a) none) :=
  (bind_ok ((xmap_noted ..).trans hx) _).trans (if_pos (congrArg not hp))
theorem tokenCmd_elsewhere (hp : s.permOk s.me.vfid x false false = true) (h4 : x.tier ≠ 4) (h5 : x.tier ≠ 5) :
    (s.noted i).tokenCmd i o = .error (.fault 0x12 0 (s.rs o.a) none) :=
  (bind_ok ((xmap_noted ..).trans hx) _).trans ((if_neg (Bool.not_eq_true _ ▸ congrArg not hp)).trans (if_pos ⟨h4, h5⟩))
theorem tokenCmd_ok (ht : tokenFree s o) (hp : s.permOk s.me.vfid x false false = true) (htier : x.tier = 4 ∨ x.tier = 5) :
    (s.noted i).tokenCmd i o = .ok ((s.noted i).fillWalk s.me.vfid x, ownershipCmd s i o x) :=
  (bind_ok ((xmap_noted ..).trans hx) _).trans ((if_neg (Bool.not_eq_true _ ▸ congrArg not hp)).trans ((if_neg (by omega)).trans
    (bind_ok (tokenFree_noted i ht) _)))

section
variable (ht : tokenFree s o) (hq : remoteRoom s) (hp : s.permOk s.me.vfid x false false = true) (htier : x.tier = 4 ∨ x.tier = 5)
include ht hp htier

include hq in
theorem exec_tacq {t : State} (hr : s.operandsReady (.tacq o) = true)
    (hord : ((s.noted (.tacq o)).fillWalk s.me.vfid x).ordered (ownershipCmd s (.tacq o) o x).mods = .ok t) :
    exec (.tacq o) s = toRemoteQueue t (ownershipCmd s (.tacq o) o x) :=
  syl_ok s (.tacq o) _ hr ((bind_ok (tokenCmd_ok hx ht hp htier) _).trans ((bind_ok hord _).trans
    (toRemote_of_aside (s := s.noted (.tacq o)) ((ordered_aside hord).trans (fillWalk_noted_aside ..)) hq _)))
theorem exec_tacq_waits {w : Nat} {fx : BlockFx} (hr : s.operandsReady (.tacq o) = true)
    (hord : ((s.noted (.tacq o)).fillWalk s.me.vfid x).ordered (ownershipCmd s (.tacq o) o x).mods = .error (.block w fx)) :
    exec (.tacq o) s = .next (s.blockOn w fx) :=
  (exec_tacq_eq hr).trans ((congrArg (settle .e s) ((bind_ok (tokenCmd_ok hx ht hp htier) _).trans (bind_error hord _))).trans rfl)
include hq in
theorem exec_trel (hr : s.operandsReady (.trel o) = true) (hperf : s.accessPending s.cur 0xFFFF = false) :
    exec (.trel o) s = toRemoteQueue ((((s.noted (.trel o)).fillWalk s.me.vfid x).takeClasses 0xFFFF).cleanLines fun _ => true)
      (ownershipCmd s (.trel o) o x) := by
  have rel := release_walked s (.trel o) x 0xFFFF 2
  rw [if_neg (by rw [hperf]; exact Bool.false_ne_true)] at rel
  refine syl_ok s (.trel o) _ hr ((bind_ok (tokenCmd_ok hx ht hp htier) _).trans ((bind_ok rel _).trans
    (toRemote_of_aside (s := s.noted (.trel o)) ?_ hq _)))
  exact (podRelease_aside _ _).trans ((takeClasses_aside _ _).trans (fillWalk_noted_aside ..))
theorem exec_trel_waits (hr : s.operandsReady (.trel o) = true) (hpend : s.accessPending s.cur 0xFFFF = true) :
    exec (.trel o) s = .next (s.blockOn 2 (.flush 0xFFFF)) := by
  have rel := release_walked s (.trel o) x 0xFFFF 2
  rw [if_pos hpend] at rel
  exact (exec_trel_eq hr).trans ((congrArg (settle .e s) ((bind_ok (tokenCmd_ok hx ht hp htier) _).trans (bind_error rel _))).trans rfl)
end
end

/-- Both token instructions end in what faults their command. -/
theorem ownership_fault {s : State} {o : FE} {c : Nat} {a : Word} (h : ∀ i, (s.noted i).tokenCmd i o = .error (.fault c 0 a none)) :
    ∀ i ∈ [Instr.tacq o, .trel o], s.operandsReady i = true → exec i s = .next (s.takeFault { slot := .e, code := c, addr := a }) := by
  simp only [List.forall_mem_cons, List.not_mem_nil, false_imp_iff, implies_true, and_true]
  exact ⟨fun hr => (exec_tacq_eq hr).trans ((congrArg (settle .e s) (bind_error (h _) _)).trans rfl),
    fun hr => (exec_trel_eq hr).trans ((congrArg (settle .e s) (bind_error (h _) _)).trans rfl)⟩

/-- Settles O34: a pool instruction checks its operand and a token instruction its region; `tacq` waits for its order, `trel` for the accesses of
its context, to which the region's walk adds none. -/
theorem poolAndOwnershipIssue : Obligations.PoolAndOwnershipIssue := by
  intro s o ht hq a two
  refine ⟨?allocs, fun hk h0 => ⟨fun hr => exec_kfree ht hq hr hk h0, fun hr => exec_kquery ht hq hr hk h0⟩, kitty_unaligned,
    fun x hx hp => ⟨fun htier => ⟨fun hr => ⟨fun t hord => ?_, fun w fx hord => ?_⟩, fun hr => ⟨fun hperf => ?_, fun hpend => ?_⟩⟩,
      fun h4 h5 => ownership_fault fun i => tokenCmd_elsewhere hx hp h4 h5⟩,
    fun x hx hp => ownership_fault fun i => tokenCmd_denied hx hp⟩
  case allocs =>
    simp only [List.forall_mem_cons, List.not_mem_nil, false_imp_iff, implies_true, and_true]
    exact ⟨fun hr => ⟨poolAlloc_queued (i := .kalloc o) ht hq hr, poolAlloc_unsized (i := .kalloc o) hr⟩,
      fun hr => ⟨poolAlloc_queued (i := .kallocM o) ht hq hr, poolAlloc_unsized (i := .kallocM o) hr⟩⟩
  · exact exec_tacq hx ht hq hp htier hr hord
  · exact exec_tacq_waits hx ht hp htier hr hord
  · exact exec_trel hx ht hq hp htier hr hperf
  · exact exec_trel_waits hx ht hp htier hr hpend

end Sys2Proof.Claims
